-- ==== Sys2Proof/Word.lean ====
section
/-! DEFINITION. The word types of the shelf: bytes, 32-bit and 64-bit registers (R8), engine and partition numbers. -/

namespace Sys2Proof

/-- One byte of a register file, a command, host memory, pool memory or the store. -/
abbrev Byte := BitVec 8

/-- A register of the usual width (R8). -/
abbrev Word := BitVec 32

/-- A register or time of 64 bits. -/
abbrev DWord := BitVec 64

/-- Engine index 0–15 (R1, Table 3-2). -/
abbrev EngId := Fin 16

/-- Partition ID 0–63 (03 The model). -/
abbrev PartId := Fin 64

end Sys2Proof
end

