-- ==== Sys2Proof/Syntax.lean ====
section
/-! DEFINITION. The commands of the block: one constructor per row of the opcode table. The mailbox and stream
commands come from hosts and from Redfish; the events come from the plant (links, temperatures, busbar, time inputs,
tamper, store targets) and from the shelf's own sequencers. -/

namespace Sys2Proof

/-- How an access reached the engine: a P-port function, the queue pair of an A-port, or the Redfish service (R85,
R90). -/
inductive Path where
  | pport (port : Fin 2)
  | aport (qpn : Nat)
  | redfish
  deriving DecidableEq, Repr

/-- A mailbox: a partition's, or none for the Redfish mailbox of an engine (R81, R90). -/
abbrev MbxKey := Option PartId

/-- A mailbox command as its sender gives it: the engine, the partition, the path, command bytes 1–63 (the row gives
byte 0), the bytes that stand in the host buffer, the offset at which the host's memory fails a transfer, if it
does, and the offset in the log page at which a read of the engine's flash fails while the page is gathered, if it does (R82,
R84–R86, R106). -/
structure MbxReq where
  eng : EngId
  part : PartId
  path : Path
  body : List Byte
  buf : List Byte
  fail : Option Nat
  flash : Option Nat
  deriving DecidableEq, Repr

/-- A stream command as its sender gives it: the engine, partition, path and stream, and task-register bytes
0x01–0x37 (the row gives byte 0x00), written in one block with STK_GO (R109, R111). -/
structure StkReq where
  eng : EngId
  part : PartId
  path : Path
  stream : Nat
  body : List Byte
  deriving DecidableEq, Repr

/-- One stream of one partition on one engine (R62). -/
structure StreamAt where
  eng : EngId
  part : PartId
  stream : Nat
  deriving DecidableEq, Repr

/-- Registers of a function's configuration space that the manual names: BAR0 (R58, R61), the Device Control register with the
payload and read-request sizes (R37), MSI-X Message Control with Enable and Function Mask (R63), and the two AER status registers
(R37, R432). -/
inductive CfgReg where
  | bar0 | deviceControl | msixControl | aerUncorrectable | aerCorrectable
  deriving DecidableEq, Repr

/-- What kind of request an access is: a read or write of the window's memory, an RDMA atomic (R32), a PCIe request with a PASID
prefix (R36), or a write of a register of the function's configuration space. -/
inductive Via where
  | memory
  | atomic
  | pasid
  | config (r : CfgReg)
  deriving DecidableEq, Repr

/-- A window access's origin: the engine and partition whose window it reaches, the path, and the kind of request (R61). -/
structure WinSrc where
  eng : EngId
  part : PartId
  path : Path
  via : Via
  deriving DecidableEq, Repr

/-- What fails outside the shelf while a stream command runs: the host buffer from a byte on, and the store target
(R133). -/
structure TransferFail where
  host : Option Nat
  store : Bool
  deriving DecidableEq, Repr

/-- What a port trains to: the partner offers a listed rate, width and FLIT use, or none (R30, R35). RATE is coded as
Table 2-7. -/
inductive LinkMode where
  | none
  | trained (rate : Fin 16) (width : Fin 32) (flit : Bool)
  deriving DecidableEq, Repr

/-- The outcome of one store write: acknowledged, an NVMe media error, or a transport error (R235, R236). -/
inductive StoreResult where
  | ok | mediaError | transportError
  deriving DecidableEq, Repr

/-- What a read of the store gives: the bytes, an NVMe media error, or a transport error (R235). -/
inductive StoreRead where
  | bytes (bs : List Byte)
  | mediaError
  | transportError
  deriving DecidableEq, Repr

/-- The time inputs of the active SCM (02 Management and time). -/
inductive TimeInput where
  | ptp | pps | tenMhz
  deriving DecidableEq, Repr

/-- A fault detection: block, source, unit, address, master ID, access type, partition concerned, status given (R356,
R357, Table 17-7). `clear` says that a level source's condition ends instead (R355). -/
structure Detection where
  blk : Fin 11
  src : Fin 32
  unit : Nat
  addr : DWord
  master : BitVec 16
  access : BitVec 4
  part : Option PartId
  status : Byte
  clear : Bool
  deriving DecidableEq, Repr

/-- The raw outputs of the two comparators when an upset changes them; `none` when they work (R266, R267). -/
abbrev Comparators := Option (BitVec 4 × BitVec 4)

/-- A read of the store that a check takes in, and what its comparators give when an upset changes them (R230, R266). -/
structure CheckRead where
  got : StoreRead
  upset : Comparators
  deriving DecidableEq, Repr

/-- The engine that writes a manifest, and what the write gives (R229, R236). -/
structure ManifestWrite where
  eng : EngId
  res : StoreResult
  deriving DecidableEq, Repr

/-- A restore that has read its chain: the partition, and the numbers over the chain of the shards whose first read comes wrong
(R247, R291). -/
structure RestoreEnd where
  part : PartId
  bad : List Nat
  deriving DecidableEq, Repr

/-- The queue pair of a connection request: the number that the shelf gives it and the largest path MTU of the peer (R32, R59). -/
structure QpOffer where
  qpn : Nat
  mtu : Nat
  deriving DecidableEq, Repr

/-- How a link is lost: whether it retrains, and the corrected and uncorrected errors that it has seen since they were last told (R53,
R432). -/
structure LinkLoss where
  retrain : Bool
  errs : Nat × Nat
  deriving DecidableEq, Repr

/-- What an engine's meters read: the draw in watts and the voltage of the backup cell in millivolts (R47, R384). -/
structure Meters where
  draw : Nat
  cell : Nat
  deriving DecidableEq, Repr

/-- A tamper source, for how many nanoseconds it stays active, and whether the zeroisation that it may cause does not verify (R44,
R392, R405). -/
structure Tamper where
  src : Fin 8
  dur : Nat
  bad : Bool
  deriving DecidableEq, Repr

/-- What happens in a window beside the row operations: the place, among the operations that the window runs, of the first one
whose RECODE meets an uncorrectable error, and whether the mode-register sequence fails to return the channel (R216). -/
structure WindowEnd where
  recodeFails : Option Nat
  stuck : Bool
  deriving DecidableEq, Repr

/-- A window of a DDR channel and what happens in it (R206, R207). -/
structure ChannelWindow where
  ch : Fin 16
  out : WindowEnd
  deriving DecidableEq, Repr

/-- A wait cycle that the backstop detector found: whether it has a shelf-owned participant that can be re-run, and
the participants' master IDs (R348). -/
structure WaitCycle where
  rerunnable : Bool
  masters : List (BitVec 16)
  deriving DecidableEq, Repr

/-- The commands of the block, one constructor per row of the opcode table. -/
inductive Instr where
  /-- IDENTIFY: Mailbox command that writes the engine or shelf IDENTIFY structure to the host buffer. (R95) -/
  | identify (m : MbxReq)
  /-- GET_LOG: Mailbox command that copies a log page from OFFSET into the host buffer and reports GENERATION and TOTAL_LEN. (R98) -/
  | getLog (m : MbxReq)
  /-- SET_FEATURE: Mailbox command that sets a feature value, optionally for all engines and saved in the configuration record. (R102) -/
  | setFeature (m : MbxReq)
  /-- GET_FEATURE: Mailbox command that returns the current, saved or default value of a feature. (R102) -/
  | getFeature (m : MbxReq)
  /-- FW_DOWNLOAD: Mailbox command that appends image data to the staging area of the named engines. (R420) -/
  | fwDownload (m : MbxReq)
  /-- FW_COMMIT: Mailbox command that checks the staged image, writes it to a flash slot and optionally makes it the NEXT slot. (R420) -/
  | fwCommit (m : MbxReq)
  /-- FW_ACTIVATE: Mailbox command that resets the named engine into its NEXT slot after its departure is announced. (R421) -/
  | fwActivate (m : MbxReq)
  /-- FW_QUERY: Mailbox command that reports slots, counter, steps left and staged bytes of an engine. (R420) -/
  | fwQuery (m : MbxReq)
  /-- FORMAT: Mailbox command that starts a campaign preparing every saved store volume as a fresh store. (R413) -/
  | format (m : MbxReq)
  /-- SANITISE: Mailbox command that starts a CRYPTO, OVERWRITE or NAMESPACE sanitise and refuses commands in its scope until it completes. (R414) -/
  | sanitise (m : MbxReq)
  /-- SANITISE_STATUS: Mailbox command that reports the state and progress of the current or last sanitise. (R414) -/
  | sanitiseStatus (m : MbxReq)
  /-- PART_CREATE: Mailbox command that creates a partition with members, rights, streams and quotas and updates the configuration record. (R74) -/
  | partCreate (m : MbxReq)
  /-- PART_DELETE: Mailbox command that performs a CANCEL reset of a partition and frees all its state. (R76) -/
  | partDelete (m : MbxReq)
  /-- PART_MODIFY: Mailbox command that changes a partition's rights, stream counts or quotas. (R75) -/
  | partModify (m : MbxReq)
  /-- PART_QUERY: Mailbox command that reports a partition's identity, members, fenced mask, streams, state and quotas. (R73) -/
  | partQuery (m : MbxReq)
  /-- PART_RESET: Mailbox command that starts a DRAIN or CANCEL partition reset on every member engine. (R66) -/
  | partReset (m : MbxReq)
  /-- QOS_SET: Mailbox command that sets a partition's EBB and FLOOD weights and cap for one pool, governing from the next tick. (R70) -/
  | qosSet (m : MbxReq)
  /-- QOS_QUERY: Mailbox command that reports a partition's QoS registers and T for one pool on the receiving engine. (R73) -/
  | qosQuery (m : MbxReq)
  /-- REG_TENSOR: Mailbox command that registers a tensor with class, format, shape, twin flag and placement and charges its quota. (R147) -/
  | regTensor (m : MbxReq)
  /-- REG_CLASS: Mailbox command that changes the default format and twin flag for tensors of a class registered afterwards. (R148) -/
  | regClass (m : MbxReq)
  /-- STEP_POLICY: Mailbox command that sets the optimiser family and parameters, governing from the next update phase. (R149) -/
  | stepPolicy (m : MbxReq)
  /-- RESHAPE: Mailbox command that changes the contributor count and remaps contributors for the step in accumulation under REWIND or RESCALE. (R285) -/
  | reshape (m : MbxReq)
  /-- STATE_QUERY: Mailbox command that reports a tensor, rider, step state or the missing contributions. (R152) -/
  | stateQuery (m : MbxReq)
  /-- TENSOR_DROP: Mailbox command that removes a tensor without dependants and returns its charge. (R153) -/
  | tensorDrop (m : MbxReq)
  /-- EPOCH_CUT: Mailbox command that declares a full or delta cut of the partition, optionally with drain and commit. (R188) -/
  | epochCut (m : MbxReq)
  /-- EPOCH_COMMIT: Mailbox command that starts the drain campaign with commit for an epoch in flight. (R189) -/
  | epochCommit (m : MbxReq)
  /-- EPOCH_RELEASE: Mailbox command that ends an epoch's time in flight and frees its slot, twins and epoch-area space. (R190) -/
  | epochRelease (m : MbxReq)
  /-- EPOCH_QUERY: Mailbox command that reports an epoch's state or the partition's epoch summary. (R191) -/
  | epochQuery (m : MbxReq)
  /-- REBASE: Mailbox command that opens a new store generation for the partition and restarts epoch numbers at 1. (R192) -/
  | rebase (m : MbxReq)
  /-- RESTORE_OPEN: Mailbox command that opens a restore session and checks an epoch chain on the store. (R294) -/
  | restoreOpen (m : MbxReq)
  /-- RESTORE_MAP: Mailbox command that maps restored tensors and contributors to new IDs and counts. (R294) -/
  | restoreMap (m : MbxReq)
  /-- RESTORE_RUN: Mailbox command that starts the restore campaign, optionally with stream-log replay. (R290) -/
  | restoreRun (m : MbxReq)
  /-- RESHARD: Mailbox command from partition 0 that starts a re-shard of a partition onto a new member list. (R281) -/
  | reshard (m : MbxReq)
  /-- RESTORE_QUERY: Mailbox command that reports the state and progress of the partition's restore session. (R294) -/
  | restoreQuery (m : MbxReq)
  /-- RESTORE_CLOSE: Mailbox command that ends the restore session, ending a running campaign with an empty registry. (R294) -/
  | restoreClose (m : MbxReq)
  /-- PROG_LOAD: Mailbox command that checks and loads an FXP program container on every member engine. (R171) -/
  | progLoad (m : MbxReq)
  /-- PROG_UNLOAD: Mailbox command that unloads a program not named by the current policy. (R172) -/
  | progUnload (m : MbxReq)
  /-- SPIN_LOAD: Mailbox command that checks and loads a spin image into the engine spin library. (R171) -/
  | spinLoad (m : MbxReq)
  /-- SPIN_UNLOAD: Mailbox command that unloads a spin not named by a loaded program. (R172) -/
  | spinUnload (m : MbxReq)
  /-- PROG_QUERY: Mailbox command that reports the state and fusion figures of a program or spin. (R170) -/
  | progQuery (m : MbxReq)
  /-- TIDE_SET: Mailbox command from partition 0 that starts a flood or ebb turn applying to every partition. (R16) -/
  | tideSet (m : MbxReq)
  /-- TIDE_QUERY: Mailbox command that reports personality, turn state, lending and HELD partitions and LENT capacity. (R258) -/
  | tideQuery (m : MbxReq)
  /-- KV_CONFIG: Mailbox command that sets the element format and method for KV pages put afterwards. (R258) -/
  | kvConfig (m : MbxReq)
  /-- KV_QUERY: Mailbox command that reports the calling partition's KV page counts and bytes over named engines. (R250) -/
  | kvQuery (m : MbxReq)
  /-- SEC_QUERY: Mailbox command that reports lifecycle, debug, alarm, reserve, slots and a slot's SLOT_GEN. (R402) -/
  | secQuery (m : MbxReq)
  /-- PROVISION: Mailbox command that loads the owner key, writes the anchor if absent and clears HOLD and the ALARM register. (R400) -/
  | provision (m : MbxReq)
  /-- SEAL: Mailbox command that seals every engine of the view and locks the arming mask. (R403) -/
  | seal (m : MbxReq)
  /-- RETIRE: Mailbox command that retires an engine with an armed RETIRE, zeroising every slot for good. (R402) -/
  | retire (m : MbxReq)
  /-- KEY_LOAD: Mailbox command that unwraps a key blob under the owner key into a partition slot. (R391) -/
  | keyLoad (m : MbxReq)
  /-- KEY_GENERATE: Mailbox command that draws a key from the DRBG into a slot and returns its wrapped blob. (R391) -/
  | keyGenerate (m : MbxReq)
  /-- KEY_ZEROISE: Mailbox command that zeroises a partition key slot not named by KEY_BIND. (R402) -/
  | keyZeroise (m : MbxReq)
  /-- KEY_BIND: Configuration-changing command that binds the partition's manifest and data key slots. (R404) -/
  | keyBind (m : MbxReq)
  /-- KEEPER_CHALLENGE: Command that issues a fresh signed-challenge message for a keeper purpose on an engine. (R396) -/
  | keeperChallenge (m : MbxReq)
  /-- KEEPER_RESPOND: Command that checks a signed response and on acceptance opens debug or arms reprovision or retire. (R398) -/
  | keeperRespond (m : MbxReq)
  /-- KEEPER_CLOSE: Command that returns an engine's debug state to CLOSED. (R398) -/
  | keeperClose (m : MbxReq)
  /-- MEMBER_QUERY: Mailbox command that reports the view, leader, split window and per-engine membership state. (R318) -/
  | memberQuery (m : MbxReq)
  /-- MEMBER_EXCLUDE: Configuration-changing command that removes an engine from the view with reason EXCLUDED. (R318) -/
  | memberExclude (m : MbxReq)
  /-- MEMBER_ADMIT: Configuration-changing command that re-admits an excluded or foreign engine for the join checks. (R318) -/
  | memberAdmit (m : MbxReq)
  /-- TIME_QUERY: Mailbox command that reports shelf time, time state, source, suspect mask and offsets. (R308) -/
  | timeQuery (m : MbxReq)
  /-- TIME_SET: Command that sets time of day while PTP is not locked and makes TIME_SET the time-of-day source. (R318) -/
  | timeSet (m : MbxReq)
  /-- LEASE_QUERY: Mailbox command that reports the shelf's lease slot, state, expiry and allotments. (R315) -/
  | leaseQuery (m : MbxReq)
  /-- LEASE_CLAIM: Configuration-changing command that claims a lease slot on the store with a 15 s read-back. (R315) -/
  | leaseClaim (m : MbxReq)
  /-- LEASE_RELEASE: Configuration-changing command that writes the lease record RELEASED, keeping allotments and NEXT_GEN. (R317) -/
  | leaseRelease (m : MbxReq)
  /-- MAILBOX_COMPLETION: An accepted mailbox command finishes: response written, BUSY cleared, DONE set, MBX_SEQ incremented and vector 1 signalled. (R82) -/
  | mailboxCompletion (e : EngId) (k : MbxKey)
  /-- FIRMWARE_HANG: Ibtia firmware makes no progress on an accepted command for 2 s and the engine raises FENCE_ENGINE. (R105) -/
  | firmwareHang (e : EngId) (k : MbxKey)
  /-- READ: Stream command that reads a tensor range in stored format into the host buffer. (R123) -/
  | read (q : StkReq)
  /-- WRITE: Stream command that writes a tensor range, completing per stream class and FORCE. (R121) -/
  | write (q : StkReq)
  /-- GRAD_PUSH: Stream command that adds a contributor's gradient segments to the step accumulator and sets its bitmap bits. (R139) -/
  | gradPush (q : StkReq)
  /-- WEIGHT_PULL: Stream command that delivers WEIGHT as it stands after the named step, waiting for that step. (R142) -/
  | weightPull (q : StkReq)
  /-- KV_PUT: Stream command that encodes a KV page, writes its home and hot copies and updates its index entry. (R251) -/
  | kvPut (q : StkReq)
  /-- KV_GET: Stream command that fetches and decodes a KV page into the host buffer, or probes its length. (R252) -/
  | kvGet (q : StkReq)
  /-- KV_DROP: Stream command that removes a KV page's index entry and frees its slot and hot copy. (R252) -/
  | kvDrop (q : StkReq)
  /-- FLUSH: Stream command that completes once earlier writes of the stream have completed and forced data is on the medium. (R119) -/
  | flush (q : StkReq)
  /-- RIDER_PUT: Stream command that replaces a whole host rider. (R145) -/
  | riderPut (q : StkReq)
  /-- RIDER_GET: Stream command that reads the live rider or the rider captured in an epoch in flight. (R145) -/
  | riderGet (q : StkReq)
  /-- FENCE: Stream command that holds later commands until earlier commands of the stream or partition have finished. (R119) -/
  | fence (q : StkReq)
  /-- STREAM_COMMAND_START: A queued stream command starts after its lock, token, power or state wait and its checks are applied. (R112) -/
  | streamCommandStart (loc : StreamAt) (slot : Nat) (fail : TransferFail)
  /-- STREAM_COMPLETION_POST: A finished stream command is posted in acceptance order to the status registers and its vector signalled. (R113) -/
  | streamCompletionPost (loc : StreamAt)
  /-- DONE_ACKNOWLEDGE: Host writes 1 to DONE, acknowledging the posted completion and decrementing DEPTH. (R114) -/
  | doneAcknowledge (loc : StreamAt)
  /-- HALT: Host writes HALT, ending every unstarted command of the stream with SC_STREAM_HALTED. (R127) -/
  | halt (loc : StreamAt) (w : Word)
  /-- RESUME: Host writes RESUME, clearing HALTED so later commands run normally. (R128) -/
  | resume (loc : StreamAt) (w : Word)
  /-- REGISTER_WRITE: A write to a register without behaviour of its own stores, clears or ignores the value by access type. (R7) -/
  | registerWrite (src : WinSrc) (off : Nat) (data : List Byte)
  /-- EVR_ENABLE: EVR_EN goes from 0 to 1, sampling the ring configuration, resetting EVR_PROD and resuming a disabled ring. (R65) -/
  | evrEnable (src : WinSrc)
  /-- HELD_EVENTS_RELEASE: When the ring can take entries again, pending held entries are written oldest vector first. (R65) -/
  | heldEventsRelease (e : EngId) (p : PartId)
  /-- EVR_FAILURE: A ring-entry write fails or EVR_QPN leaves ready, disabling the ring and holding events. (R79) -/
  | evrFailure (e : EngId) (p : PartId)
  /-- COALESCE_TIMEOUT: A vector's COAL_USEC time after its first pending event expires and the vector is signalled. (R64) -/
  | coalesceTimeout (e : EngId) (p : PartId) (v : Fin 32)
  /-- MSIX_PENDING_RELEASE: A pending MSI-X event is signalled once MSI-X is enabled and neither mask is set. (R63) -/
  | msixPendingRelease (e : EngId) (p : PartId) (v : Fin 32)
  /-- FUNCTION_LEVEL_RESET: A P-port function receives FLR, clearing its configuration and starting a CANCEL partition reset. (R37) -/
  | functionLevelReset (e : EngId) (port : Fin 2) (p : PartId)
  /-- RESET_DONE: Partition reset reaches step 7: windows cleared, held events discarded, RST_SEQ incremented and reset-done signalled once. (R68) -/
  | resetDone (p : PartId)
  /-- QOS_TICK: At each 10 µs of shelf time each engine grants tokens per pool under the weights in force. (R70) -/
  | qosTick (e : EngId)
  /-- RDMA_CONNECT_REQUEST: An RDMA connection request to an A-port is accepted with the window rkey or rejected. (R59) -/
  | rdmaConnectRequest (e : EngId) (port : Fin 16) (rc : Bool) (gid : Nat) (data : List Byte) (qp : QpOffer)
  /-- LINK_UP: A port trains to an allowed mode and its link comes up, or stays down and is logged. (R30) -/
  | linkUp (e : EngId) (port : Fin 22) (mode : LinkMode)
  /-- LINK_DOWN: A port link goes down or retrains without failing commands in flight. (R53) -/
  | linkDown (e : EngId) (port : Fin 22) (loss : LinkLoss)
  /-- PFC_PAUSE_RECEIVED: A peer pause frame stops the lossless priority for its duration. (R34) -/
  | pfcPauseReceived (e : EngId) (port : Fin 20) (dur : Nat)
  /-- PFC_PAUSE_SEND: The port receive buffer passes 75 % full and the shelf sends pause on the lossless priority. (R34) -/
  | pfcPauseSend (e : EngId) (port : Fin 20) (fill : Nat)
  /-- ECN_CE_RECEIVED: CE-marked packets on a queue pair cause a congestion notification to its sender, at most one per 50 µs. (R33) -/
  | ecnCeReceived (e : EngId) (qpn : Nat)
  /-- CNP_RECEIVED: A congestion notification received reduces that queue pair's send rate. (R33) -/
  | cnpReceived (e : EngId) (qpn : Nat)
  /-- HOST_DATA_FETCH: The shelf issues a host read for command data once HOST_IN tokens allow, within 4 MiB outstanding. (R337) -/
  | hostDataFetch (loc : StreamAt) (slot : Nat) (data : List Byte) (fail : Bool)
  /-- STEP_BEGIN: Every ACCUM bitmap for step S is full and the statistics phase starts. (R141) -/
  | stepBegin (p : PartId)
  /-- STATISTICS_COMPLETE: The statistics phase ends and the step updates, skips or fails as NONFINITE selects. (R143) -/
  | statisticsComplete (p : PartId)
  /-- STEP_COMPLETE: Every engine has finished its update and parity; COMPLETED becomes S and waiting pulls start. (R141) -/
  | stepComplete (p : PartId)
  /-- SPIN_SWAP: An expert spin is placed in a fabric slot at a chain boundary, replacing the least recently used. (R168) -/
  | spinSwap (e : EngId) (p : PartId) (handle : Word)
  /-- CUT_GATE_MESSAGE: A member receives a cut message, closes its gate and reports once running state-changing commands finish. (R181) -/
  | cutGateMessage (p : PartId) (e : EngId)
  /-- CUT_INSTANT: The last gate report arrives, fixing the cut instant, opening gates and starting the copier. (R181) -/
  | cutInstant (p : PartId)
  /-- COPIER_DONE: The copier finishes its walk of the partition's protected rows and the epoch leaves COPYING. (R182) -/
  | copierDone (p : PartId) (n : Nat)
  /-- COPIER_RESUME: The drain frees epoch-area space and a paused copier resumes. (R185) -/
  | copierResume (p : PartId) (n : Nat)
  /-- SHARD_WRITE_COMPLETE: A shard object write completes and the shard proceeds to flush and verification. (R229) -/
  | shardWriteComplete (p : PartId) (n : Nat) (i : Nat) (res : StoreResult)
  /-- SHARD_VERIFIED: A shard passes digest or read-back verification and its staged copy is freed. (R230) -/
  | shardVerified (p : PartId) (n : Nat) (i : Nat) (read : CheckRead)
  /-- MANIFEST_BUILD: Once every shard is verified the stamping engine builds, seals and writes the manifest. (R229) -/
  | manifestBuild (p : PartId) (n : Nat) (w : ManifestWrite)
  /-- MANIFEST_READBACK: The written manifest is read back and its SHA-256 and seal checked. (R229) -/
  | manifestReadback (p : PartId) (n : Nat) (read : CheckRead)
  /-- COMMIT_RECORD_WRITTEN: The commit record write completes, the epoch is COMMITTED and the commit journaled. (R223) -/
  | commitRecordWritten (p : PartId) (n : Nat) (e : EngId) (res : StoreResult)
  /-- EPOCH_RETIRE: An epoch beyond KEEP is retired: commit record marked RETIRED and its blocks deallocated. (R231) -/
  | epochRetire (p : PartId) (n : Nat)
  /-- DRAIN_RETRY: Every 1 s a drain waiting on an unreachable target retries. (R235) -/
  | drainRetry (p : PartId) (n : Nat)
  /-- FINAL_EBB_CUT: The shelf takes a partition's final ebb cut with AUTO and COMMIT once its wait causes have passed. (R25) -/
  | finalEbbCut (p : PartId)
  /-- PARTITION_LEND: A partition's final ebb commit completes and its twin rows join the LENT tier. (R17) -/
  | partitionLend (p : PartId)
  /-- FLOOD_TURN_COMPLETE: Every twin-holding partition has lent or is HELD, completing the flood turn and signalling V0_TIDE. (R256) -/
  | floodTurnComplete
  /-- RESEED_CUT: The shelf takes a partition's full re-seed cut with DRAIN, or reclaims twins without a cut. (R26) -/
  | reseedCut (p : PartId)
  /-- EBB_TURN_COMPLETE: Every lending partition's re-seed cut reached its instant or twins were reclaimed, completing the ebb turn. (R257) -/
  | ebbTurnComplete
  /-- RESHARD_COMPLETE: A re-shard ends, the new member list takes effect and leaving engines' streams halt. (R283) -/
  | reshardComplete (p : PartId)
  /-- STRIPE_MOVE_COMPLETE: A moved stripe and its group's new parity are in place, freeing the old copy and waiting commands. (R281) -/
  | stripeMoveComplete (p : PartId) (tid : Word) (stripe : Nat)
  /-- REBUILD_START: A rebuild campaign onto the remaining members starts once no epoch is COPYING or CUT nor pinning twins. (R279) -/
  | rebuildStart (p : PartId)
  /-- RESTORE_COMPLETE: The restore campaign finishes loading and replay, establishing registry, policy, counters and riders. (R291) -/
  | restoreComplete (r : RestoreEnd)
  /-- MAINTENANCE_WINDOW: Once per 65.536 µs interval a channel enters PROCESSOR mode to run admitted row operations and refresh. (R206) -/
  | maintenanceWindow (e : EngId) (w : ChannelWindow)
  /-- DEMAND_WINDOW: A write waiting for the copier opens a demand window for the rows it needs. (R207) -/
  | demandWindow (e : EngId) (w : ChannelWindow)
  /-- MODE_TIMEOUT: A channel fails to return to MEMORY mode within 10 µs and is fenced. (R216) -/
  | modeTimeout (e : EngId) (ch : Fin 16)
  /-- MODULE_TEMP_SAMPLE: Every 1 ms a buffer chip samples its module temperature and the channel's level may change. (R209) -/
  | moduleTempSample (e : EngId) (m : Fin 32) (temp : Option Int)
  /-- NMX_GO: Writing NMX GO checks and starts the partition's near-memory micro-program. (R213) -/
  | nmxGo (src : WinSrc) (w : Word)
  /-- NMX_COMPLETE: A micro-program's last entry runs, parity is updated, DONE set and VECTOR signalled. (R214) -/
  | nmxComplete (e : EngId) (p : PartId) (last : Fin 1024)
  /-- XLATE_START: Writing XLATE_OFF starts translation of a tensor byte to pool and array address. (R212) -/
  | xlateStart (src : WinSrc) (off : DWord)
  /-- DGX_GO: Writing DGX GO fetches the fragment list, checks the job and starts it on a lane. (R272) -/
  | dgxGo (src : WinSrc) (w : Word) (list : List Byte) (fail : Bool)
  /-- DGX_COMPLETE: A digest job finishes, writing digest or context, match registers and status, and signalling VECTOR. (R273) -/
  | dgxComplete (e : EngId) (p : PartId) (host : List (List Byte)) (fail : Option Nat) (upset : Comparators)
  /-- DIGEST_PREEMPT: A waiting higher-class digest job preempts a lower-class job held 10 µs at its next block boundary. (R268) -/
  | digestPreempt (e : EngId) (lane : Fin 64)
  /-- DIGEST_RESUME: A preempted digest job resumes from its saved context on the next free lane. (R269) -/
  | digestResume (e : EngId) (ctx : Nat)
  /-- DIGEST_LANE_FAIL: A digest lane fails during a job; it is fenced and the job re-run or failed. (R274) -/
  | digestLaneFail (e : EngId) (lane : Fin 64)
  /-- COMPRESS_LANE_FAIL: A compression lane fails mid c-block; it emits nothing and the c-block is re-run elsewhere. (R259) -/
  | compressLaneFail (e : EngId) (lane : Fin 32)
  /-- HEARTBEAT: Every 1 ms an engine sends Chiem heartbeats on every mesh lane group. (R297) -/
  | heartbeat (e : EngId) (heard : BitVec 16)
  /-- PEER_UNREACHABLE: Nothing is heard from a peer for 20 ms and it counts as unreachable. (R297) -/
  | peerUnreachable (e : EngId) (peer : EngId)
  /-- NO_QUORUM: An engine reaching fewer than 9 engines for 100 ms leaves the view and enters NO_QUORUM. (R311) -/
  | noQuorum (e : EngId)
  /-- PROPOSE: The leader proposes a new view of the engines it reaches that pass the agreement checks. (R298) -/
  | propose (leader : EngId)
  /-- PROPOSE_RECEIVED: An engine receiving PROPOSE replies ACCEPT if the number rises and it reaches every engine of the set. (R298) -/
  | proposeReceived (e : EngId)
  /-- VIEW_FORMED: The leader holds ACCEPT from every engine within 10 ms and the new view forms. (R298) -/
  | viewFormed
  /-- VIEW_PROPOSE_TIMEOUT: ACCEPTs are missing after 10 ms and the leader proposes again without those engines. (R298) -/
  | viewProposeTimeout
  /-- DEPARTURE_ANNOUNCEMENT: An engine leaving by fence, exclusion, time or split announces it and the new view forms at once. (R312) -/
  | departureAnnouncement (e : EngId) (reason : Nat)
  /-- ENGINE_JOIN: A joining engine passes the agreement checks and joins with no partition state. (R303) -/
  | engineJoin (e : EngId)
  /-- CONFIG_PREPARE: The leader sends a new configuration record, each engine writes it pending and acknowledges. (R301) -/
  | configPrepare (answers : BitVec 16)
  /-- CONFIG_COMMIT: All acknowledged, the leader sends COMMIT and each engine makes the pending record current. (R301) -/
  | configCommit (answers : BitVec 16)
  /-- CONFIG_PHASE_TIMEOUT: An engine failing to answer an adoption phase within 1 s leaves the view. (R301) -/
  | configPhaseTimeout (e : EngId)
  /-- SPLIT_WINDOW_EXPIRY: The split window open for 2 hours makes minority-minor engines leave or raises NOTIFY. (R305) -/
  | splitWindowExpiry
  /-- TAI_EDGE: Once a second the SCM sends the TAI of a marked edge and each engine steers its counter. (R307) -/
  | taiEdge (tai : DWord)
  /-- OFFSET_MEASURE: Every 125 ms engines measure their offsets from one another over the mesh. (R308) -/
  | offsetMeasure (drift : Vector Int 16)
  /-- TIME_SOURCE_LOSS: A time source loses lock and the shelf falls to the next present source, growing the bound. (R308) -/
  | timeSourceLoss (src : TimeInput)
  /-- TIME_SOURCE_LOCK: A preferred source locks; the bound returns to 1 µs and time slews or steps forward. (R307) -/
  | timeSourceLock (src : TimeInput) (tai : DWord)
  /-- TIME_SUSPECT_SET: An engine's skew exceeds 50 µs and it becomes TIME_SUSPECT. (R309) -/
  | timeSuspectSet (e : EngId)
  /-- TIME_SUSPECT_CLEAR: Skew stays at or below 25 µs for 1 s and TIME_SUSPECT clears. (R309) -/
  | timeSuspectClear (e : EngId)
  /-- TIME_LEAVE: An engine more than 5 ms from the view median leaves with reason TIME. (R310) -/
  | timeLeave (e : EngId)
  /-- TIME_JOIN_RECHECK: An engine held out for TIME is checked again every 1 s. (R303) -/
  | timeJoinRecheck (e : EngId)
  /-- PPS_PULSE: A 1PPS rising edge marks the second; pulses shorter than 50 ns are ignored. (R44) -/
  | ppsPulse (width : Nat) (tai : DWord)
  /-- LEASE_CLAIM_CHECK: 15 s after writing a claim the shelf reads the slot back and holds or loses it. (R315) -/
  | leaseClaimCheck (got : Option (List Byte))
  /-- LEASE_RENEW: Every 10 s the holder renews its lease or detects it lost. (R316) -/
  | leaseRenew (reach : Bool) (got : Option (List Byte))
  /-- ALLOT_EXTEND: Free extents fall below 1 % or a drain waits, and the shelf appends a new allotment run. (R317) -/
  | allotExtend (others : List (List Byte))
  /-- ALLOT_EXTEND_CHECK: 15 s after extending, the shelf re-reads records and withdraws an overlapping higher-slot entry. (R317) -/
  | allotExtendCheck (others : List (List Byte))
  /-- STARTUP_LEASE_CLAIM: After the first view and S-port connection the shelf claims its lease and rebuilds its allocation map. (R322) -/
  | startupLeaseClaim (others : List (List Byte))
  /-- FAULT_DETECT: A block detects an enabled fault source and acts at its severity: log, notify, fence. (R356) -/
  | faultDetect (e : EngId) (f : Detection)
  /-- DDR_CHANNEL_REBUILD: A fenced DDR channel's rows are rebuilt into replacement rows from shelf parity. (R360) -/
  | ddrChannelRebuild (e : EngId) (ch : Fin 16)
  /-- SPARE_GROUP_SWITCH: Within 50 ms of a mesh group fence the spare group is switched to that peer. (R362) -/
  | spareGroupSwitch (e : EngId) (peer : EngId)
  /-- FAULT_CLEAR: Writing 1 to an FLT_STATUS bit clears the fault, logs it and re-evaluates FAULT_N. (R366) -/
  | faultClear (e : EngId) (blk : Fin 11) (bits : Word)
  /-- FAULT_INJECT: Writing a FLT_FORCE bit injects that source as though detected, dry or at full severity. (R368) -/
  | faultInject (e : EngId) (blk : Fin 11) (bits : Word)
  /-- FLT_LOCK: Writing LOCK fixes FLT_SEV until engine reset. (R367) -/
  | fltLock (e : EngId) (blk : Fin 11)
  /-- CYCLE_CHECK: Every 10 ms the backstop detector looks for wait cycles and breaks or reports them. (R348) -/
  | cycleCheck (e : EngId) (found : Option WaitCycle)
  /-- IDLE_TIMER_EXPIRY: An idle engine's E1, E2 or E3 timer expires and it enters that power state. (R376) -/
  | idleTimerExpiry (e : EngId)
  /-- POWER_EXIT: A command, access or work in a low state starts an exit to E0. (R377) -/
  | powerExit (e : EngId)
  /-- POWER_EXIT_COMPLETE: The exit latency ends and waiting commands start. (R131) -/
  | powerExitComplete (e : EngId)
  /-- SENSOR_SAMPLE: Every 1 ms sensors are sampled, raising warnings, throttling or THERM_CRIT. (R378) -/
  | sensorSample (e : EngId) (temps : List (Option Int)) (meters : Meters)
  /-- CAP_EVALUATE: Every 100 ms the SCM compares average draw with POWER_CAP and steps the cap level. (R380) -/
  | capEvaluate (watts : Nat)
  /-- CLOCK_LEVEL_CHANGE: A new clock level takes effect at a chain boundary, pausing issue up to 1 µs. (R373) -/
  | clockLevelChange (e : EngId)
  /-- BUSBAR_OVERVOLTAGE: Busbar above 63 V, or 60–63 V beyond 100 ms, causes protective shutdown to E4. (R46) -/
  | busbarOvervoltage (mv : Nat) (dur : Nat)
  /-- BUSBAR_UNDERVOLTAGE: Busbar falls below 40 V; logged, carried 5 ms on hold-up, then shutdown to E4. (R46) -/
  | busbarUndervoltage (mv : Nat) (dur : Nat)
  /-- POWER_ON: Busbar qualifies or Redfish requests power-on and the power-on sequence runs. (R407) -/
  | powerOn (redfish : Bool) (mv : Nat) (dur : Nat) (failed : List (EngId × Detection))
  /-- PROVISIONAL_TIMEOUT: A provisional image not joined within 600 s resets into the other slot. (R411) -/
  | provisionalTimeout (e : EngId)
  /-- ORDERLY_SHUTDOWN: Redfish orderly shutdown refuses new commands, finishes work and takes engines to E4. (R418) -/
  | orderlyShutdown (grace : Nat)
  /-- GRACE_EXPIRY: GRACE elapses during shutdown and every uncommitted epoch is abandoned. (R418) -/
  | graceExpiry
  /-- SANITISE_COMPLETE: A sanitise campaign finishes or fails, ending or keeping its refusals; `fail` is how many extents a NAMESPACE
  that fails has done. (R415) -/
  | sanitiseComplete (fail : Option Nat)
  /-- FORMAT_COMPLETE: A format campaign completes all volumes and claims a lease, or fails; `fail` is the VOLUME_INDEX of the volume
  that fails. (R424) -/
  | formatComplete (fail : Option Nat)
  /-- SCM_FAILOVER: The active SCM fails and the standby becomes active within 10 µs. (R54) -/
  | scmFailover
  /-- BOTH_SCM_FAIL: Both SCMs fail; sleds run on holdover, relays open and REF_LOSS raised. (R55) -/
  | bothScmFail
  /-- TAMPER_DETECT: A tamper source is detected; in SEALED an armed source zeroises slots and enters ALARM_HOLD. (R392) -/
  | tamperDetect (e : EngId) (t : Tamper)
  /-- RESERVE_RECHARGED: The zeroisation reserve recharges within 30 s of power-on. (R393) -/
  | reserveRecharged (e : EngId)
  /-- DEBUG_TIMEOUT: A debug state other than CLOSED returns to CLOSED 8 h after opening. (R398) -/
  | debugTimeout (e : EngId)
  /-- CHALLENGE_LOCKOUT_END: After 1 h of refusal following 8 rejected responses, challenges are accepted again. (R397) -/
  | challengeLockoutEnd (e : EngId)
  /-- ENGINE_RESET: Redfish Reset Engine resets one engine, which returns through its start-up tests and joins with no state. (R363) -/
  | engineReset (e : EngId) (failed : List Detection)
  /-- REDFISH_POWER_OFF: A Redfish power-off takes the engines to E4 without the orderly shutdown sequence. (R375) -/
  | redfishPowerOff
  /-- LOCATE_REQUEST: A Redfish Locate request sets an engine's LED to blink blue at 1 Hz. (R371) -/
  | locateRequest (e : EngId)
  /-- RECOVERY_DOWNLOAD: The SCM direct-path recovery download writes a valid image into slot A of an engine that has no bootable slot. (R410) -/
  | recoveryDownload (e : EngId) (image : List Byte)
  /-- CELL_LOSS: A sled that has lost its busbar loses its backup cell, so its keeper domain loses key slots and the real-time counter. (R49) -/
  | cellLoss (sled : Fin 8)
  /-- SCM_RECOVERY: A failed or resetting SCM completes its start-up again, so its relay and FAULT_SENSE follow the engines' FAULT_N and its reference returns. (R43) -/
  | scmRecovery (scm : Fin 2)
  /-- RESERVED_OPCODE: A mailbox doorbell carrying a reserved or undefined opcode completes with SC_INVALID_OPCODE and no other action. (R12) -/
  | reservedOpcode (op : Byte) (m : MbxReq)
  deriving DecidableEq, Repr

end Sys2Proof
end

