-- ==== Sys2Proof/Decode.lean ====
section
/-! DEFINITION. The word decoder of the opcode table: its rows give no bits, so no word spells a command (log 1). -/

namespace Sys2Proof

/-- The command that a word spells by the table's bits. Every row of the table gives no field and no bit. -/
def decodeTableWord (_nbits _w : Nat) : Option Instr := none

end Sys2Proof
end

