-- ==== Sys2Proof/Config.lean ====
section
/-! DEFINITION. What one shelf fixes and the manual leaves open: free values (no body, so nothing is provable of
them) and facts of the world outside the shelf. Log 3 says how they are drawn. -/

namespace Sys2Proof.Config

/-- The `k`-th free value of width `w`: a random number (nonces, generated keys), a handle, an rkey, an allocation
choice, an unspecified content. State.freeCount is the `k` of the next draw. -/
opaque freeBits : (w k : Nat) → BitVec w

/-- The sign of a NaN that an invalid operation on two numbers yields: IEEE 754 leaves it open, and R160 fixes only the
sign of a narrowed NaN. -/
opaque invalidNanNeg : Word → Word → Bool

/-- SHELF_SERIAL of the shelf, 16 ASCII bytes (Table 4-8). -/
opaque shelfSerial : BitVec 128

/-- SERIAL of each engine, 8 bytes (Table 4-7). -/
opaque engineSerial : EngId → BitVec 64

/-- SHA-384 of the key that signs firmware images, in one-time-programmable memory from manufacture (R409). -/
opaque imageAnchor : EngId → BitVec 384

/-- SHA-384 of the vendor's public key, written at manufacture (R389). -/
opaque vendorAnchor : EngId → BitVec 384

/-- The build and security version of the image an engine left the factory with: major, minor, patch, SEC_VERSION. -/
opaque factoryBuild : EngId → BitVec 8 × BitVec 8 × BitVec 16 × BitVec 8

/-- BUILD_TIME of the factory image. -/
opaque factoryTime : EngId → BitVec 64

/-- The inverse fourth root that stands in PRECOND after step `t` for one factor block of `n` rows, from ROOT_INTERVAL, the
factor and the root that stood there: R151 refreshes it by Newton iteration spread across ROOT_INTERVAL steps, and gives
no start, no count of iterations, no stopping rule and no schedule. -/
opaque refreshRoot : (n t interval : Nat) → (factor root : List Word) → List Word

/-- What a spin computes: its configuration is opaque to the manual (R175). The image body and the operand streams
give the output stream. -/
opaque spinResult : List Byte → List (List Word) → List Word

/-- The size in bytes that one core's compiled code takes for a program: the core encoding is no contract (07 The
operation set). -/
opaque compiledBytes : List Byte → Nat

/-- The bytes of stage memory per engine that the intermediates of a program's split chains take (R166): the manual gives
no size. -/
opaque splitBytes : List Byte → Nat

/-- The CORE tokens that the reduction work of a GRAD_PUSH of so many bytes draws: the manual states no cost. -/
opaque pushCost : Nat → Nat

/-- The layout of the shelf configuration record in flash, which is internal to the shelf (14 The shelf configuration
record): the bytes that CONFIG_HASH is taken over, from the record written out as numbers. -/
opaque recordLayout : List Nat → List (BitVec 8)

/-- The facts of one store target that its STORE_TARGETS entry of 256 bytes leads to: blocks of the namespace, bytes
of a logical block, bytes of metadata, protection type, volatile write cache. They belong to the world outside. -/
opaque targetFacts : List Byte → Nat × Nat × Nat × Nat × Bool

/-- The two pool rows that are a row's physical neighbours inside a subarray (R211): the row adjacency of the DRAM. -/
opaque rowNeighbours : Nat → Nat × Nat

/-- The rounding ID that stochastic rounding takes for an intermediate of a program, from the ID of the MASTER that the program
runs on and the SITE: R162 gives one for a destination tensor only. -/
opaque interRid : Word → Nat → Word

/-- The number of the RoCE queue pair of an I/O queue to a target, from the volume, the S-port of the shelf and the queue (R41). -/
opaque sportQpn : Nat → Nat → Nat → Nat

end Sys2Proof.Config
end

