-- ==== Sys2Proof/Machine/Bytes.lean ====
section
/-! DEFINITION. Byte strings, little-endian fields (R5, R6), bit masks over engines and partitions, and the canonical
sparse byte memory that holds pool, store and host bytes. -/

namespace Sys2Proof.Machine

/-! ### Byte strings -/

/-- Byte `i` of a byte string; a byte beyond its end reads 0. -/
def byteAt (bs : List Byte) (i : Nat) : Byte := bs.getD i 0

/-- The little-endian number of a byte string (R6). -/
def leNat : List Byte → Nat
  | [] => 0
  | b :: bs => b.toNat + 256 * leNat bs

/-- The big-endian number of a byte string, as the signature algorithms produce it (R6). -/
def beNat (bs : List Byte) : Nat := leNat bs.reverse

/-- `n` as `len` little-endian bytes (R6). -/
def natLe : (len n : Nat) → List Byte
  | 0, _ => []
  | len + 1, n => BitVec.ofNat 8 n :: natLe len (n / 256)

/-- `n` as `len` big-endian bytes. -/
def natBe (len n : Nat) : List Byte := (natLe len n).reverse

/-- `len` bytes of a byte string from offset `off`, filled with 0 beyond its end. -/
def slice (bs : List Byte) (off len : Nat) : List Byte :=
  ((bs.drop off).take len) ++ List.replicate (len - (bs.length - off)) 0

/-- The little-endian field of `len` bytes at offset `off`. -/
def field (bs : List Byte) (off len : Nat) : Nat := leNat (slice bs off len)

/-- A byte string with the bytes `v` put at offset `off`; it keeps its length. -/
def putBytes (bs : List Byte) (off : Nat) (v : List Byte) : List Byte :=
  bs.take off ++ (v.take (bs.length - off)) ++ bs.drop (off + v.length)

/-- A byte string with the `len`-byte little-endian field at `off` set to `n`. -/
def putLe (bs : List Byte) (off len n : Nat) : List Byte := putBytes bs off (natLe len n)

/-- `n` zero bytes. -/
def zeros (n : Nat) : List Byte := List.replicate n 0

/-- A byte string cut or filled with 0 to length `n`. -/
def padTo (n : Nat) (bs : List Byte) : List Byte := bs.take n ++ zeros (n - bs.length)

/-- The ASCII bytes of a name (record magics). -/
def ascii (s : String) : List Byte := s.toList.map (fun c => BitVec.ofNat 8 c.toNat)

/-- `n` rounded up to a multiple of `k`. -/
def roundUp (n k : Nat) : Nat := (n + k - 1) / k * k

/-- The division of `n` by `k`, rounded up. -/
def ceilDiv (n k : Nat) : Nat := (n + k - 1) / k

/-- Bytewise exclusive-or of two strings, as long as the first. -/
def xorBytes (a b : List Byte) : List Byte := a.zipIdx.map (fun (x, i) => x ^^^ byteAt b i)

/-- Pieces of `n` bytes of a string (the last may be shorter); `fuel` bounds the count. -/
def chunksFuel (n : Nat) : Nat → List Byte → List (List Byte)
  | 0, _ => []
  | fuel + 1, bs => if bs.isEmpty then [] else bs.take n :: chunksFuel n fuel (bs.drop n)

/-- A byte string cut into pieces of `n` bytes. -/
def chunks (n : Nat) (bs : List Byte) : List (List Byte) := chunksFuel n bs.length bs

/-! ### Bits and masks -/

/-- Bit `i` of a number. -/
def natBit (n i : Nat) : Bool := n.testBit i

/-- A Bool as a number of one bit. -/
def bit (b : Bool) : Nat := if b then 1 else 0

/-- The bits [hi:lo] of a number (R5). -/
def bits (n hi lo : Nat) : Nat := (n >>> lo) % 2 ^ (hi + 1 - lo)

/-- The engines of a 16-bit mask, in ascending index. -/
def maskEngines (m : BitVec 16) : List EngId := (List.finRange 16).filter (fun e => m.getLsbD e.val)

/-- Bit `e` of an engine mask. -/
def hasEngine (m : BitVec 16) (e : EngId) : Bool := m.getLsbD e.val

/-- The mask of one engine. -/
def engineBit (e : EngId) : BitVec 16 := 1#16 <<< e.val

/-- The mask of a list of engines. -/
def engineMask (es : List EngId) : BitVec 16 := es.foldl (fun m e => m ||| engineBit e) 0

/-- The number of engines in a mask. -/
def maskCount (m : BitVec 16) : Nat := (maskEngines m).length

/-- Set or clear bit `i` of a word. -/
def setBit {w : Nat} (x : BitVec w) (i : Nat) (b : Bool) : BitVec w :=
  if b then x ||| (1#w <<< i) else x &&& ~~~(1#w <<< i)

/-- The position of the lowest byte whose flag is set, from a list of (offset, flag): the first offending byte (R93). -/
def firstBad (cs : List (Nat × Bool)) : Option Nat :=
  cs.foldl (fun r c => if c.2 then
    (match r with | none => some c.1 | some o => some (min o c.1)) else r) none

/-! ### The sparse byte memory -/

/-- A byte memory: the bytes that differ from 0, at strictly rising addresses. -/
abbrev Memory := List Host.Cell

/-- The canonical form: addresses strictly rising and no listed byte 0, the value an unlisted address reads as. -/
def Memory.wf : Memory → Bool
  | [] => true
  | (a, b) :: rest => (b != 0) && rest.all (fun c => a < c.1) && Memory.wf rest

/-- The byte at an address; an unlisted address reads 0. -/
def Memory.read : Memory → Nat → Byte
  | [], _ => 0
  | (a, b) :: rest, x => if x = a then b else Memory.read rest x

/-- A memory with one byte written; a byte of 0 leaves no entry. -/
def Memory.write : Memory → Nat → Byte → Memory
  | [], x, v => if v = 0 then [] else [(x, v)]
  | (a, b) :: rest, x, v =>
    if x < a then (if v = 0 then (a, b) :: rest else (x, v) :: (a, b) :: rest)
    else if x = a then (if v = 0 then rest else (a, v) :: rest)
    else (a, b) :: Memory.write rest x v

/-- `len` bytes from an address. -/
def Memory.readBytes (m : Memory) (a : Nat) : Nat → List Byte
  | 0 => []
  | len + 1 => Memory.read m a :: Memory.readBytes m (a + 1) len

/-- A byte string written from an address upwards. -/
def Memory.writeBytes (m : Memory) (a : Nat) : List Byte → Memory
  | [] => m
  | b :: bs => Memory.writeBytes (Memory.write m a b) (a + 1) bs

/-- A memory whose addresses from `lo` up to but not including `hi` read 0. -/
def Memory.clear (m : Memory) (lo hi : Nat) : Memory := m.filter (fun c => !(lo ≤ c.1 && c.1 < hi))

end Sys2Proof.Machine
end

