-- ==== Sys2Proof/Machine/Numerics.lean ====
section
/-! DEFINITION. Stored formats and arithmetic: floating-point formats, rounding to nearest even and stochastic
(R136, R159–R163), FP32 operations, BS8, the reduction order of MATMUL and REDUCE. -/

namespace Sys2Proof.Machine

/-- A binary floating-point format: exponent and mantissa bits; `finiteTop` marks E4M3, which has no infinity and one
NaN pattern per sign (R160). -/
structure FloatFmt where
  expBits   : Nat
  manBits   : Nat
  finiteTop : Bool
  deriving DecidableEq, Repr

def fp32 : FloatFmt := ⟨8, 23, false⟩
def bf16 : FloatFmt := ⟨8, 7, false⟩
def fp16 : FloatFmt := ⟨5, 10, false⟩
def e4m3 : FloatFmt := ⟨4, 3, true⟩
def e5m2 : FloatFmt := ⟨5, 2, false⟩

/-- Bits of one element. -/
def floatWidth (f : FloatFmt) : Nat := 1 + f.expBits + f.manBits

/-- Exponent bias. -/
def floatBias (f : FloatFmt) : Int := 2 ^ (f.expBits - 1) - 1

/-- Least exponent of a normal number. -/
def floatEmin (f : FloatFmt) : Int := 1 - floatBias f

/-- A decoded number. -/
inductive FloatVal where
  | nan (neg : Bool)
  | inf (neg : Bool)
  | fin (neg : Bool) (mag : Rat)
  deriving DecidableEq, Repr

/-- 2 to an integer power. -/
def pow2 (e : Int) : Rat := if e < 0 then 1 / ((2 ^ (-e).toNat : Nat) : Rat) else ((2 ^ e.toNat : Nat) : Rat)

/-- The number an encoding stands for (Table 6-2; FP8 as the published interchange formats). -/
def floatDecode (f : FloatFmt) (x : Nat) : FloatVal :=
  let man := x % 2 ^ f.manBits
  let ex := (x >>> f.manBits) % 2 ^ f.expBits
  let neg := natBit x (f.expBits + f.manBits)
  let top := 2 ^ f.expBits - 1
  if ex = top ∧ f.finiteTop ∧ man = 2 ^ f.manBits - 1 then .nan neg
  else if ex = top ∧ !f.finiteTop ∧ man ≠ 0 then .nan neg
  else if ex = top ∧ !f.finiteTop then .inf neg
  else if ex = 0 then .fin neg ((man : Rat) * pow2 (floatEmin f - f.manBits))
  else .fin neg (((2 ^ f.manBits + man : Nat) : Rat) * pow2 ((ex : Int) - floatBias f - f.manBits))

/-- The canonical quiet NaN of a format with a sign (R160). -/
def floatNan (f : FloatFmt) (neg : Bool) : Nat :=
  bit neg * 2 ^ (f.expBits + f.manBits) + (2 ^ f.expBits - 1) * 2 ^ f.manBits
    + (if f.finiteTop then 2 ^ f.manBits - 1 else 2 ^ (f.manBits - 1))

/-- The infinity of a format; in E4M3 its NaN (R160). -/
def floatInf (f : FloatFmt) (neg : Bool) : Nat :=
  if f.finiteTop then floatNan f neg
  else bit neg * 2 ^ (f.expBits + f.manBits) + (2 ^ f.expBits - 1) * 2 ^ f.manBits

/-- The encoding of the largest finite magnitude. -/
def floatMaxCode (f : FloatFmt) : Nat :=
  if f.finiteTop then (2 ^ f.expBits - 1) * 2 ^ f.manBits + (2 ^ f.manBits - 2)
  else (2 ^ f.expBits - 2) * 2 ^ f.manBits + (2 ^ f.manBits - 1)

/-- The largest finite magnitude. -/
def floatMax (f : FloatFmt) : Rat :=
  match floatDecode f (floatMaxCode f) with
  | .fin _ m => m
  | _ => 0

/-- The exponent of the binary leading digit of a positive rational. -/
def ratLog2 (x : Rat) : Int :=
  let a : Int := (Nat.log2 x.num.toNat : Int) - (Nat.log2 x.den : Int)
  if x < pow2 a then a - 1 else if pow2 (a + 1) ≤ x then a + 1 else a

/-- The exponent of the spacing of a format at a positive magnitude, the subnormal spacing below its least normal. -/
def spacingExp (f : FloatFmt) (mag : Rat) : Int := max (ratLog2 mag) (floatEmin f) - f.manBits

/-- The encoding of a magnitude that is `k` times 2^`qe` and representable (`k` at most 2^(m+1)). -/
def encodeMag (f : FloatFmt) (k : Nat) (qe : Int) : Nat :=
  let (k, qe) := if k = 2 ^ (f.manBits + 1) then (2 ^ f.manBits, qe + 1) else (k, qe)
  if k < 2 ^ f.manBits then k
  else (qe + f.manBits + floatBias f).toNat * 2 ^ f.manBits + (k - 2 ^ f.manBits)

/-- How a magnitude above the largest finite one ends: R160 saturates, IEEE 754 arithmetic overflows. -/
inductive Overflow where
  | saturate
  | infinity
  deriving DecidableEq, Repr

/-- The rounding of a stage: to nearest even, or stochastic with its 64 random bits (R161). -/
inductive Rounding where
  | nearest
  | stochastic (r : BitVec 64)
  deriving DecidableEq, Repr

/-- The multiple of the spacing that a magnitude `q` (in units of the spacing) rounds to. -/
def roundUnits (mode : Rounding) (q : Rat) : Nat :=
  let lo := q.floor.toNat
  let frac := q - (lo : Rat)
  match mode with
  | .nearest =>
    if frac < 1 / 2 then lo else if 1 / 2 < frac then lo + 1
    else if lo % 2 = 0 then lo else lo + 1
  | .stochastic r =>
    let u : Nat := r.toNat / 2 ^ 40
    if (u : Rat) < frac * (2 ^ 24 : Nat) then lo + 1 else lo

/-- A finite number rounded into a format (R160, R161). -/
def roundFinite (f : FloatFmt) (ov : Overflow) (mode : Rounding) (neg : Bool) (mag : Rat) : Nat :=
  let sign := bit neg * 2 ^ (f.expBits + f.manBits)
  if mag = 0 then sign
  else
    let qe := spacingExp f mag
    let k := roundUnits mode (mag / pow2 qe)
    if floatMax f < (k : Rat) * pow2 qe then
      match ov with
      | .saturate => sign + floatMaxCode f
      | .infinity => floatInf f neg
    else sign + encodeMag f k qe

/-- A number narrowed to a format: finite values saturate, NaN and infinity keep their sign (R160). -/
def narrowVal (f : FloatFmt) (mode : Rounding) : FloatVal → Nat
  | .nan neg => floatNan f neg
  | .inf neg => floatInf f neg
  | .fin neg mag => roundFinite f .saturate mode neg mag

/-- An FP32 word narrowed to a format. -/
def narrow32 (f : FloatFmt) (mode : Rounding) (x : Word) : Nat := narrowVal f mode (floatDecode fp32 x.toNat)

/-- An FP32 word narrowed to INT8: an infinity becomes 127 or −128, a NaN 0, a finite value saturates (R160). -/
def narrowInt8 (mode : Rounding) (x : Word) : Byte :=
  match floatDecode fp32 x.toNat with
  | .nan _ => 0
  | .inf neg => if neg then 128 else 127
  | .fin neg mag =>
    let k := roundUnits mode mag
    if neg then BitVec.ofInt 8 (-(min k 128 : Int)) else BitVec.ofNat 8 (min k 127)

/-! ### FP32 arithmetic, round to nearest even (R159) -/

/-- The signed value of a finite number. -/
def signedVal (neg : Bool) (mag : Rat) : Rat := if neg then -mag else mag

/-- A rational rounded to FP32 by IEEE 754; a zero takes the given sign. -/
def fp32OfRat (zeroNeg : Bool) (v : Rat) : Word :=
  if v = 0 then BitVec.ofNat 32 (bit zeroNeg * 2 ^ 31)
  else BitVec.ofNat 32 (roundFinite fp32 .infinity .nearest (v < 0) |v|)

/-- The NaN of an operation with a NaN operand keeps the first such operand's sign. -/
def nan32 (neg : Bool) : Word := BitVec.ofNat 32 (floatNan fp32 neg)

def inf32 (neg : Bool) : Word := BitVec.ofNat 32 (floatInf fp32 neg)

def val32 (x : Word) : FloatVal := floatDecode fp32 x.toNat

def neg32 (x : Word) : Word := x ^^^ 0x80000000#32

/-- x + y. -/
def add32 (x y : Word) : Word :=
  match val32 x, val32 y with
  | .nan n, _ => nan32 n
  | _, .nan n => nan32 n
  | .inf a, .inf b => if a = b then inf32 a else nan32 (Config.invalidNanNeg x y)
  | .inf a, _ => inf32 a
  | _, .inf b => inf32 b
  | .fin a m, .fin b n => fp32OfRat (a && b) (signedVal a m + signedVal b n)

def sub32 (x y : Word) : Word := add32 x (if (val32 y) matches .nan _ then y else neg32 y)

/-- x · y. -/
def mul32 (x y : Word) : Word :=
  match val32 x, val32 y with
  | .nan n, _ => nan32 n
  | _, .nan n => nan32 n
  | .inf a, .inf b => inf32 (a != b)
  | .inf a, .fin b n => if n = 0 then nan32 (Config.invalidNanNeg x y) else inf32 (a != b)
  | .fin a m, .inf b => if m = 0 then nan32 (Config.invalidNanNeg x y) else inf32 (a != b)
  | .fin a m, .fin b n => fp32OfRat (a != b) (signedVal a m * signedVal b n)

/-- x ÷ y. -/
def div32 (x y : Word) : Word :=
  match val32 x, val32 y with
  | .nan n, _ => nan32 n
  | _, .nan n => nan32 n
  | .inf _, .inf _ => nan32 (Config.invalidNanNeg x y)
  | .inf a, .fin b _ => inf32 (a != b)
  | .fin a _, .inf b => BitVec.ofNat 32 (bit (a != b) * 2 ^ 31)
  | .fin a m, .fin b n =>
    if n = 0 then (if m = 0 then nan32 (Config.invalidNanNeg x y) else inf32 (a != b))
    else fp32OfRat (a != b) (signedVal a m / signedVal b n)

/-- a·b + c, rounded once. -/
def fma32 (a b c : Word) : Word :=
  match val32 a, val32 b, val32 c with
  | .fin sa ma, .fin sb mb, .fin sc mc =>
    fp32OfRat ((sa != sb) && sc) (signedVal sa ma * signedVal sb mb + signedVal sc mc)
  | .fin _ _, .fin _ _, .inf _ => c
  | .fin _ _, .fin _ _, .nan n => nan32 n
  | _, _, _ => add32 (mul32 a b) c

/-- The square root of a rational with a sticky half unit: it rounds to FP32 as the exact root does. -/
def sqrtSticky (v : Rat) : Rat :=
  let e := ratLog2 v
  let e2 := if e % 2 = 0 then e else e - 1
  let n := (v / pow2 e2 * ((2 ^ 80 : Nat) : Rat))
  let fl := n.floor.toNat
  let s := Nat.sqrt fl
  let exact := (s * s = fl) && ((fl : Rat) = n)
  ((2 * s + bit (!exact) : Nat) : Rat) / ((2 ^ 41 : Nat) : Rat) * pow2 (e2 / 2)

/-- √x. -/
def sqrt32 (x : Word) : Word :=
  match val32 x with
  | .nan n => nan32 n
  | .inf neg => if neg then nan32 (Config.invalidNanNeg x x) else inf32 false
  | .fin neg m =>
    if m = 0 then x else if neg then nan32 (Config.invalidNanNeg x x) else fp32OfRat false (sqrtSticky m)

def one32 : Word := 0x3F800000#32

/-- 1 ÷ √x, each operation rounded. -/
def rsqrt32 (x : Word) : Word := div32 one32 (sqrt32 x)

def isNan32 (x : Word) : Bool := (val32 x) matches .nan _

def isFinite32 (x : Word) : Bool := (val32 x) matches .fin _ _

/-- x < y among numbers; false with a NaN. -/
def lt32 (x y : Word) : Bool :=
  match val32 x, val32 y with
  | .nan _, _ => false
  | _, .nan _ => false
  | .inf a, .inf b => a && !b
  | .inf a, .fin _ _ => a
  | .fin _ _, .inf b => !b
  | .fin a m, .fin b n => signedVal a m < signedVal b n

def max32 (x y : Word) : Word := if isNan32 x then x else if isNan32 y then y else if lt32 x y then y else x

def min32 (x y : Word) : Word := if isNan32 x then x else if isNan32 y then y else if lt32 y x then y else x

def abs32 (x : Word) : Word := x &&& 0x7FFFFFFF#32

/-- A natural number in FP32. -/
def natTo32 (n : Nat) : Word := fp32OfRat false (n : Rat)

/-! ### Stochastic rounding bits (R161, R162) -/

/-- `mix` of R161, also the key hash of R248. -/
def mix (z : BitVec 64) : BitVec 64 :=
  let z := z + 0x9E3779B97F4A7C15#64
  let z := (z ^^^ (z >>> 30)) * 0xBF58476D1CE4E5B9#64
  let z := (z ^^^ (z >>> 27)) * 0x94D049BB133111EB#64
  z ^^^ (z >>> 31)

/-- `sr_bits` of R161. -/
def srBits (step site rid e : Nat) : BitVec 64 :=
  let seed := mix (BitVec.ofNat 64 (step <<< 16) ||| BitVec.ofNat 64 site)
  let t := mix (seed ^^^ BitVec.ofNat 64 rid)
  mix (t ^^^ BitVec.ofNat 64 e)

/-- The rounding of element `e`: ROUND 0 nearest even, 1 stochastic with the bits of R162. -/
def roundingOf (stochastic : Bool) (step site rid e : Nat) : Rounding :=
  if stochastic then .stochastic (srBits step site rid e) else .nearest

/-! ### Stored formats (Table 6-2) -/

/-- Stored format codes of Table 6-2. -/
inductive Format where
  | fp32 | bf16 | fp16 | e4m3 | e5m2 | bs8 | bytes
  deriving DecidableEq, Repr

def formatOf (code : Nat) : Option Format :=
  match code with
  | 0 => some .fp32
  | 1 => some .bf16
  | 2 => some .fp16
  | 3 => some .e4m3
  | 4 => some .e5m2
  | 5 => some .bs8
  | 7 => some .bytes
  | _ => none

def formatCode : Format → Nat
  | .fp32 => 0
  | .bf16 => 1
  | .fp16 => 2
  | .e4m3 => 3
  | .e5m2 => 4
  | .bs8 => 5
  | .bytes => 7

/-- The floating-point format of a stored format that is one. -/
def formatFloat : Format → Option FloatFmt
  | .fp32 => some Machine.fp32
  | .bf16 => some Machine.bf16
  | .fp16 => some Machine.fp16
  | .e4m3 => some Machine.e4m3
  | .e5m2 => some Machine.e5m2
  | .bs8 => none
  | .bytes => none

/-- Stored bytes of `n` elements; BS8 takes 33 bytes for 32 elements (Table 6-2). -/
def storedBytes (f : Format) (n : Nat) : Nat :=
  match f with
  | .fp32 => 4 * n
  | .bf16 => 2 * n
  | .fp16 => 2 * n
  | .e4m3 => n
  | .e5m2 => n
  | .bs8 => ceilDiv n 32 * 33
  | .bytes => n

/-- Bytes of one element of a format that stores elements one by one. -/
def elemBytes (f : Format) : Nat := storedBytes f 1

/-- Reading one element of a floating-point format as FP32: exact but for a NaN's payload. -/
def widen (f : FloatFmt) (x : Nat) : Word := BitVec.ofNat 32 (narrowVal fp32 .nearest (floatDecode f x))

/-- The scale byte chosen for a BS8 run: the least E with magnitude ÷ 2^(E − 127) at most 448 (R136). -/
def bs8Scale (xs : List Word) : Nat :=
  let top := xs.foldl (fun m x => match val32 x with | .fin _ g => max m g | _ => m) (0 : Rat)
  ((List.range 256).find? (fun (E : Nat) => top ≤ 448 * pow2 ((E : Int) - 127))).getD 255

/-- The 33 bytes of a BS8 run of 32 FP32 elements, each rounded in its own mode (R136, R160). -/
def bs8Encode (xs : List (Word × Rounding)) : List Byte :=
  let E := bs8Scale (xs.map Prod.fst)
  BitVec.ofNat 8 E :: xs.map (fun (x, mode) =>
    match val32 x with
    | .fin neg g => BitVec.ofNat 8 (roundFinite e4m3 .saturate mode neg (g / pow2 ((E : Int) - 127)))
    | .inf neg => BitVec.ofNat 8 (floatNan e4m3 neg)
    | .nan neg => BitVec.ofNat 8 (floatNan e4m3 neg))

/-- One BS8 element read into FP32: exact product, one rounding, saturating (R136). -/
def bs8Element (scale x : Byte) : Word :=
  match floatDecode e4m3 x.toNat with
  | .nan neg => nan32 neg
  | .inf neg => nan32 neg
  | .fin neg m => BitVec.ofNat 32 (roundFinite fp32 .saturate .nearest neg (m * pow2 ((scale.toNat : Int) - 127)))

/-- The FP32 elements that stored bytes hold. -/
def decodeElems (f : Format) (bs : List Byte) : List Word :=
  match f with
  | .bs8 => (chunks 33 bs).flatMap (fun c => (c.drop 1).map (fun x => bs8Element (byteAt c 0) x))
  | .bytes => []
  | f =>
    match formatFloat f with
    | none => []
    | some g => (chunks (elemBytes f) bs).map (fun c => widen g (leNat c))

/-- Stored bytes of FP32 elements with their roundings (R160, R136). -/
def encodeElems (f : Format) (xs : List (Word × Rounding)) : List Byte :=
  match f with
  | .bs8 => (chunks32 xs).flatMap bs8Encode
  | .bytes => []
  | f =>
    match formatFloat f with
    | none => []
    | some g => xs.flatMap (fun (x, mode) => natLe (elemBytes f) (narrow32 g mode x))
where
  /-- Runs of 32 elements. -/
  chunks32 (xs : List (Word × Rounding)) : List (List (Word × Rounding)) := go xs.length xs
  /-- Fuelled cutting into runs of 32. -/
  go : Nat → List (Word × Rounding) → List (List (Word × Rounding))
    | 0, _ => []
    | fuel + 1, xs => if xs.isEmpty then [] else xs.take 32 :: go fuel (xs.drop 32)

/-! ### Products and reductions (R159, R163) -/

/-- One group of a reduction: its exact sum rounded once to FP32; a non-finite operand makes IEEE's answer (R159).
`ps` are the pairs of one group as the numbers they stand for. -/
def groupSum (ps : List (FloatVal × FloatVal)) : Word :=
  let nanFrom := ps.findSome? (fun (a, b) =>
    match a, b with
    | .nan n, _ => some n
    | _, .nan n => some n
    | .inf s, .fin t m => if m = 0 then some (s != t) else none
    | .fin t m, .inf s => if m = 0 then some (s != t) else none
    | _, _ => none)
  let infs := ps.filterMap (fun (a, b) =>
    match a, b with
    | .inf s, .inf t => some (s != t)
    | .inf s, .fin t _ => some (s != t)
    | .fin t _, .inf s => some (s != t)
    | _, _ => none)
  match nanFrom with
  | some n => nan32 n
  | none =>
    if infs.any id && infs.any not then nan32 (Config.invalidNanNeg 0 0)
    else match infs with
      | s :: _ => inf32 s
      | [] =>
        fp32OfRat false ((ps.map (fun (a, b) =>
          match a, b with
          | .fin s m, .fin t n => signedVal s m * signedVal t n
          | _, _ => 0)).sum)

/-- The finite FP32 operand split of the three-pass path: X_h and X_l (R159). -/
def splitHigh (x : Word) : Word := widen bf16 (narrow32 bf16 .nearest x)

def splitLow (x : Word) : Word := if isFinite32 x then widen bf16 (narrow32 bf16 .nearest (sub32 x (splitHigh x))) else 0

/-- The value a finite word stands for; 0 for the others. -/
def ratOf32 (x : Word) : Rat := match val32 x with | .fin s m => signedVal s m | _ => 0

/-- One group on the FP32 three-pass path (R159). -/
def groupSum3 (ps : List (Word × Word)) : Word :=
  if ps.all (fun (a, b) => isFinite32 a && isFinite32 b) then
    fp32OfRat false ((ps.map (fun (a, b) =>
      ratOf32 (splitHigh a) * ratOf32 (splitHigh b) + ratOf32 (splitHigh a) * ratOf32 (splitLow b)
        + ratOf32 (splitLow a) * ratOf32 (splitHigh b))).sum)
  else groupSum (ps.map (fun (a, b) => (val32 a, val32 b)))

/-- Pieces of 64 of a list; `fuel` bounds the count. -/
def groups64 {α : Type} : Nat → List α → List (List α)
  | 0, _ => []
  | fuel + 1, xs => if xs.isEmpty then [] else xs.take 64 :: groups64 fuel (xs.drop 64)

/-- One output element of a MATMUL: groups of 64 in ascending order, each rounded once and added to the FP32
accumulator (R159). `threePass` says that the operands are FP32. -/
def dot (threePass : Bool) (ps : List (Word × Word)) : Word :=
  (groups64 ps.length ps).foldl (fun acc g =>
    add32 acc (if threePass then groupSum3 g else groupSum (g.map (fun (a, b) => (val32 a, val32 b))))) 0

/-- A sum in ascending order in groups of 64, as R163 states for one stripe. -/
def sum64 (xs : List Word) : Word :=
  (groups64 xs.length xs).foldl (fun acc g => add32 acc (groupSum (g.map (fun x => (val32 x, .fin false 1))))) 0

/-- A sum of squares in ascending order in groups of 64 (R163). -/
def sumSq64 (xs : List Word) : Word :=
  (groups64 xs.length xs).foldl (fun acc g => add32 acc (groupSum (g.map (fun x => (val32 x, val32 x))))) 0

/-- The largest magnitude of a list. -/
def maxAbs (xs : List Word) : Word := xs.foldl (fun m x => max32 m (abs32 x)) 0

/-- The stripe results combined in ascending stripe order in FP32 (R163). -/
def combineStripes (op : Word → Word → Word) (rs : List Word) : Word :=
  match rs with
  | [] => 0
  | r :: rest => rest.foldl op r

end Sys2Proof.Machine
end

