-- ==== Sys2Proof/Machine/Status.lean ====
section
/-! DEFINITION. The status codes of mailbox responses and stream completions (R91, Table 4-5). -/

namespace Sys2Proof.Machine

/-- Status codes of Table 4-5. -/
inductive Status where
  | ok | invalidOpcode | invalidField | notPermitted | quota | streamHalted | partitionReset | fenced | mediumError
  | digestMismatch | lengthOver | lengthUnder | codeInvalid | poisoned | epochLimit | epochExhausted | notJoined
  | versionSplit | noQuorum | keyEmpty | journalWorn | sanitiseActive | counterExhausted | timeSuspect | notFound
  | busy | readbackMismatch | layout
  deriving DecidableEq, Repr

/-- The code byte of Table 4-5. -/
def statusCode : Status → Byte
  | .ok => 0x00
  | .invalidOpcode => 0x01
  | .invalidField => 0x02
  | .notPermitted => 0x03
  | .quota => 0x04
  | .streamHalted => 0x05
  | .partitionReset => 0x06
  | .fenced => 0x07
  | .mediumError => 0x08
  | .digestMismatch => 0x09
  | .lengthOver => 0x0A
  | .lengthUnder => 0x0B
  | .codeInvalid => 0x0C
  | .poisoned => 0x0D
  | .epochLimit => 0x0E
  | .epochExhausted => 0x0F
  | .notJoined => 0x10
  | .versionSplit => 0x11
  | .noQuorum => 0x12
  | .keyEmpty => 0x13
  | .journalWorn => 0x14
  | .sanitiseActive => 0x15
  | .counterExhausted => 0x16
  | .timeSuspect => 0x17
  | .notFound => 0x18
  | .busy => 0x19
  | .readbackMismatch => 0x1A
  | .layout => 0x1B

/-- The first failure of a list of checks in the order the manual gives them (R93 step 6). -/
def firstStatus (cs : List (Bool × Status)) : Option Status :=
  (cs.find? (fun c => c.1)).map Prod.snd

end Sys2Proof.Machine
end

