-- ==== Sys2Proof/Machine/Types.lean ====
section
/-! DEFINITION. The parts of the state: plain data, one structure per unit that the manual describes. -/

namespace Sys2Proof.Machine

/-! ### The partition window on one engine (03, 04, 05, 09, 12) -/

/-- One interrupt event: SOURCE of Table 3-6, the stream it concerns, and its shelf time (R65). -/
structure Event where
  source : Nat
  stream : Nat
  time : DWord
  deriving DecidableEq, Repr

/-- The event ring of one partition on one engine: its registers (Table 3-5), the configuration sampled when EVR_EN
rose, the PHASE of the present pass, whether R79 disabled it, and the vectors whose events are held, in the order in
which they first had one (R65). -/
structure Ring where
  base : DWord
  rkey : Word
  qpn : BitVec 24
  log2 : BitVec 5
  cons : BitVec 16
  prod : BitVec 16
  en : Bool
  sBase : DWord
  sRkey : Word
  sQpn : BitVec 24
  sLog2 : BitVec 5
  phase : Bool
  disabled : Bool
  held : List (Nat × List Event)
  deriving DecidableEq, Repr

/-- The interrupt registers of a window: INT_ROUTE, INT_CAUSE, the V0 sources, the ring, the events that coalescing
holds per vector, the events held for a masked MSI-X vector, the MSI-X table and the pending-bit array (R63, R64). -/
structure IntCtl where
  route : Vector Word 32
  cause : Word
  v0 : BitVec 3
  ring : Ring
  coal : Vector (List Event) 32
  msix : Vector (BitVec 128) 32
  pba : Word
  deriving DecidableEq, Repr

/-- The QoS registers of one pool in a window (Table 3-9): weights, cap, bucket, grant, stalls. -/
structure QosPool where
  wEbb : Byte
  wFlood : Byte
  cap : Byte
  tokens : Nat
  grant : Nat
  stalls : Word
  deriving DecidableEq, Repr

/-- What an accepted mailbox command that has started is waiting for. -/
inductive JobWait where
  | adoption | cutInstant | copier | step | pushes | reshape | leaseCheck | resetDone | reshard | engine | view | timeSet | lane
  | decided (rsp : List Byte)
  deriving DecidableEq, Repr

/-- The progress of an accepted mailbox command: accepted and not started, started and waiting, or finished with the
response it will post (R82, R87). -/
inductive JobPhase where
  | queued
  | waiting (w : JobWait)
  | ready (rsp : List Byte)
  deriving DecidableEq, Repr

/-- An accepted mailbox command: the copied bytes, where it came from, its acceptance order on the engine, its
progress, whether it has had an effect, whether its Redfish session is lost, when it was accepted, and whether that was
during an orderly shutdown (R54, R68, R82, R87, R318, R418). -/
structure Job where
  cmd : List Byte
  part : PartId
  path : Path
  buf : List Byte
  fail : Option Nat
  flash : Option Nat
  order : Nat
  phase : JobPhase
  power : Bool
  effect : Bool
  lost : Bool
  since : Nat
  late : Bool
  deriving DecidableEq, Repr

/-- A mailbox (Table 4-1). BUSY is 1 exactly while `job` holds a command. -/
structure Mailbox where
  cmd : List Byte
  rsp : List Byte
  done : Bool
  overrun : Bool
  seq : Word
  job : Option Job
  deriving DecidableEq, Repr

/-- What a stream command that has not finished waits for: the wait bits of STK_DEPTH (Table 5-2). -/
structure Waits where
  lock : Bool
  token : Bool
  power : Bool
  state : Bool
  deriving DecidableEq, Repr

/-- The progress of a stream command (R127): not started, started, or finished with a status and STK_FAIL_OFFSET. -/
inductive SlotPhase where
  | queued
  | running
  | finished (sc : Status) (off : Nat)
  deriving DecidableEq, Repr

/-- One of the eight queue slots of a stream: the copied task registers, path, class at acceptance, acceptance order
on the engine, progress, waits, lock request order and the engines on which it holds a range-lock entry, the host data
fetched so far and the tokens taken per pool (R109, R71, R129, R337). -/
structure Slot where
  task : List Byte
  path : Path
  storeClass : Bool
  order : Nat
  phase : SlotPhase
  waits : Waits
  lockAt : Option Nat
  lockOn : BitVec 16
  data : List Byte
  dataFail : Bool
  tokens : Vector Nat 4
  deriving DecidableEq, Repr

/-- One stream window (Tables 5-1, 5-2) and its queue, oldest first. -/
structure Stream where
  task : List Byte
  storeClass : Bool
  haltOnErr : Bool
  lastSc : Byte
  done : Bool
  halted : Bool
  overrun : Bool
  doneTag : BitVec 16
  doneCount : BitVec 16
  failOffset : DWord
  queue : List Slot
  deriving DecidableEq, Repr

/-- The NMX block (Table 9-4). A running program is `prog`, its entries as checked at GO with their numbers; `next` is the place in
it of the entry that runs next and `row` the row of that entry, `failed` what broke it off, `locked` whether its locks are held;
`used` lists the credits that the partition used, by interval. -/
structure Nmx where
  start : BitVec 10
  vector : BitVec 5
  busy : Bool
  done : Bool
  sc : Byte
  errIndex : BitVec 10
  used : List (Nat × Nat)
  xTid : Word
  xOff : DWord
  xPool : DWord
  xArray : Word
  xValid : Bool
  xEngine : BitVec 4
  xProtected : Bool
  entries : List (Nat × BitVec 128)
  prog : List (Nat × BitVec 128)
  next : Nat
  row : Nat
  failed : Option (Status × Nat)
  locked : Bool
  deriving DecidableEq, Repr

/-- One fragment of a digest job (Table 12-2). -/
structure Fragment where
  space : Nat
  id : Word
  off : DWord
  len : Nat
  deriving DecidableEq, Repr

/-- The running job of a DGX block (R272): its header, expected digest and imported context as checked at GO, fragments,
the path, whether it holds its range locks, with the engines on which each of its tensors takes an entry, its lock request order,
the lane it holds, since when, whether its state is saved, and SLOT_GEN of its key slot at GO. -/
structure DgxRun where
  job : List Byte
  expect : List Byte
  ctx : List Byte
  frags : List Fragment
  path : Path
  locked : Bool
  lockAt : Option Nat
  lockOn : List (BitVec 16)
  lane : Option Nat
  since : Nat
  saved : Bool
  slotGen : Word
  deriving DecidableEq, Repr

/-- The DGX block (Table 12-6). -/
structure Dgx where
  job : List Byte
  expect : List Byte
  vector : BitVec 5
  done : Bool
  sc : Byte
  failFrag : BitVec 12
  dmatch : BitVec 4
  dmatchN : BitVec 4
  ctxLen : BitVec 9
  lane : BitVec 6
  msgBytes : DWord
  digest : List Byte
  ctx : List Byte
  run : Option DgxRun
  deriving DecidableEq, Repr

/-- The partition window of one partition on one engine (Table 3-1). Streams and vector-map bytes that hold their
reset values are not listed. -/
structure Window where
  resetting : Bool
  rstDone : Bool
  rstSeq : Word
  dbFlag : Vector DWord 64
  ints : IntCtl
  vmap : List (Nat × Byte)
  qos : Vector QosPool 4
  pflt : BitVec 5
  pfltTime : DWord
  mbx : Mailbox
  streams : List (Nat × Stream)
  nmx : Nmx
  dgx : Dgx
  rkey : Option Word
  lastRkey : Option Word
  deriving DecidableEq, Repr

/-! ### The engine (02, 09, 12, 14, 17, 18, 19, 20) -/

/-- One port: Table 2-7, Table 2-8, the counts of R432, PFC, and the times of its recent retrains. -/
structure Port where
  linkUp : Bool
  fenced : Bool
  rate : BitVec 4
  width : BitVec 5
  flit : Bool
  retrains : Word
  corrected : DWord
  uncorrected : DWord
  changed : DWord
  pfcOn : Bool
  pfcPrio : Nat
  pausedUntil : Nat
  storms : List Nat
  deriving DecidableEq, Repr

/-- A RoCE queue pair: number, partition, A-port, path MTU, ready or error state, send-rate reductions and the time of the last
congestion notification it sent (R32, R33). -/
structure Qp where
  num : Nat
  part : PartId
  port : Nat
  mtu : Nat
  ready : Bool
  cuts : Nat
  lastCnp : Option Nat
  deriving DecidableEq, Repr

/-- The configuration space of one function (R36, R37, R63): MSI-X Enable and Function Mask, the payload and read-request sizes in
bytes, and the AER status registers. -/
structure Func where
  enable : Bool
  mask : Bool
  mps : Nat
  mrrs : Nat
  aerUnc : Word
  aerCor : Word
  deriving DecidableEq, Repr

/-- One DDR channel: mode, the time it entered PROCESSOR mode, the end of its initialisation at start-up (R217), whether its
mode-register sequence hangs (R216), the interval of its last maintenance window, level of R209, credits left and borrowed in the
present interval, the partition whose program ran last (R208), activations per row, rows whose neighbours the next window
refreshes. -/
structure Channel where
  processor : Bool
  since : Nat
  initEnd : Option Nat
  stuck : Bool
  slot : Option Nat
  turn : Nat
  level : Nat
  budget : Nat
  borrowed : Nat
  acts : List (Nat × Nat)
  refresh : List Nat
  deriving DecidableEq, Repr

/-- One sensor of Table 18-4: reading in 1/16 °C, how many of its thresholds hold, the state reported, maximum, time of the
last state change, and since when it has given no reading (R378, R384). -/
structure Sensor where
  temp : Int
  lvl : Nat
  state : Nat
  max : Int
  changed : DWord
  silent : Option Nat
  deriving DecidableEq, Repr

/-- One FLT register set (Table 17-2), with the severity each source last acted at, the level sources whose condition
holds, and the sources whose set bit was injected dry (R355, R358, R366, R368). -/
structure Flt where
  status : Word
  enable : Word
  sev : BitVec 128
  lock : Bool
  dry : Bool
  forceUnit : BitVec 12
  forceAddr : DWord
  fecAddr : DWord
  fecMaster : BitVec 16
  fecAccess : BitVec 4
  fecSource : BitVec 5
  fecSev : BitVec 3
  fecForced : Bool
  fecValid : Bool
  fecUnit : BitVec 12
  fecCount : BitVec 16
  fecTime : DWord
  fenced : BitVec 192
  acted : Vector Nat 32
  level : Word
  dryBits : Word
  latch : Word
  deriving DecidableEq, Repr

/-- A FAULT log entry (Table 17-7). -/
structure FaultEntry where
  time : DWord
  blk : Nat
  src : Nat
  sev : Nat
  kind : Nat
  unit : Nat
  master : BitVec 16
  access : BitVec 4
  part : Option PartId
  status : Byte
  addr : DWord
  avail : Nat
  deriving DecidableEq, Repr

/-- An ERRORS page entry (R101). -/
structure ErrorEntry where
  op : Byte
  status : Byte
  cid : BitVec 16
  off : BitVec 16
  part : PartId
  time : DWord
  deriving DecidableEq, Repr

/-- One key slot (Table 19-2): USAGE, owner, KEY_ID, key. SLOT_GEN outlives the contents. -/
structure KeySlot where
  usage : Nat
  owner : PartId
  keyId : DWord
  key : List Byte
  gen : Word
  deriving DecidableEq, Repr

/-- A purpose armed by an accepted response, with its deadline (R398). -/
structure Armed where
  purpose : Nat
  deadline : Nat
  deriving DecidableEq, Repr

/-- The keeper domain (19). `rtc` is the real-time counter in ns, `active` until when each tamper source is active, `zeroFailed`
whether the last zeroisation has not verified (R405); the challenge is the outstanding 64-byte message and its issue time. -/
structure Keeper where
  slots : Vector KeySlot 64
  wrapKey : BitVec 256
  alarm : DWord
  lost : Bool
  reserve : Nat
  arm : Byte
  active : Vector Nat 8
  zeroFailed : Bool
  rtc : Nat
  cellMv : Nat
  cellLost : Bool
  challenge : Option (List Byte × Nat)
  failures : Nat
  refuseUntil : Option Nat
  armed : Option Armed
  deriving DecidableEq, Repr

/-- Firmware: running build and SEC_VERSION, active, running and NEXT slot, slot contents (none for the image of the factory),
staging area, counter, and the time step 1 began for a provisional image (20). -/
structure Firmware where
  major : Byte
  minor : Byte
  patch : BitVec 16
  sec : Byte
  active : Fin 2
  run : Fin 2
  next : Fin 2
  slots : Vector (Option (List Byte)) 2
  staged : List Byte
  counter : Nat
  provisional : Bool
  bootAt : Nat
  booted : Bool
  deriving DecidableEq, Repr

/-- A Breadcrumb journal entry (Table 20-5). -/
structure JournalEntry where
  jseq : Nat
  time : DWord
  type : Nat
  part : Nat
  rtc : Bool
  payload : List Byte
  deriving DecidableEq, Repr

/-- The Breadcrumb journal: entries, next JSEQ, erase cycles per sector, retired sectors, and wear already reported
(R416, R417, R425). -/
structure Journal where
  entries : List JournalEntry
  next : Nat
  cycles : List (Nat × Nat)
  retired : List Nat
  readOnly : Bool
  wornTold : Nat
  deriving DecidableEq, Repr

/-- Membership of one engine: state and reason of Table 14-4, what it last heard from its peers, the highest view
number it accepted, and since when it reaches fewer than nine (R297, R298, R311). -/
structure Member where
  state : Nat
  reason : Nat
  heard : Vector Nat 16
  unreachable : BitVec 16
  accepted : Nat
  lostSince : Option Nat
  offeredAt : Nat
  foreign : Bool
  deriving DecidableEq, Repr

/-- The time-keeping of one engine: the counter, the slewing and the step still to apply, the
offset from the source, TIME_SUSPECT, and since when the skew is at or below 25 µs (R306–R309). -/
structure Clock where
  now : DWord
  slew : Int
  step : Int
  srcOffset : Int
  suspect : Bool
  calmSince : Option Nat
  deriving DecidableEq, Repr

/-- Power and heat of one engine (18): power state 0–4, since when it is idle, when an exit ends, the IDLE_TIMERS value
and the one in force for the present idle interval (R382), heat limit, clock level, draw and the sensors in the order of
Table 18-4. -/
structure PowerHeat where
  state : Nat
  idleSince : Option Nat
  exitDue : Option Nat
  timers : Vector Nat 3
  inForce : Vector Nat 3
  heat : Nat
  level : Nat
  levelAt : DWord
  draw : Nat
  sensors : List Sensor
  channels : Vector Sensor 16
  deriving DecidableEq, Repr

/-- A digest job (R268): a partition's DGX job, class 3; of the shelf, the verification of a shard of a drain and the shard checks
of a restore, class 2; the seal and the check of a manifest and the keeper's check of a challenge, class 1. -/
inductive DigestJob where
  | dgx (p : PartId)
  | shard (p : PartId) (n i : Nat)
  | restore (p : PartId)
  | seal (p : PartId) (n : Nat)
  | check (p : PartId) (n : Nat)
  | bridge
  deriving DecidableEq, Repr

/-- What a digest lane runs, and since when. -/
structure LaneJob where
  work : DigestJob
  since : Nat
  deriving DecidableEq, Repr

/-- The saved context of a preempted digest job (R269): its bytes, wrapped when the job is keyed (R270). -/
structure SavedCtx where
  work : DigestJob
  bytes : List Byte
  deriving DecidableEq, Repr

/-- A user of a compression lane (R341): the restore of a partition, the coding of shard `i` of a drained epoch, or the c-block of
a KV command, by its acceptance order. -/
inductive CBlock where
  | restore (p : PartId)
  | drain (p : PartId) (n i : Nat)
  | kv (p : PartId) (order : Nat)
  deriving DecidableEq, Repr

/-- The shelf's own spins, which fill slots 0 to 4 of the fabric (R168). -/
inductive ShelfSpin where
  | narrowing | compressionGlue | digestGlue | reshardTransform | layoutTransform
  deriving DecidableEq, Repr

/-- A spin resident in an expert slot of the fabric, with its last use (R168). -/
structure Resident where
  part : PartId
  handle : Word
  used : Nat
  deriving DecidableEq, Repr

/-- Logs of one engine with their GENERATION (R98, R101, R365); the ERRORS page counts the changes of each partition's
entries. -/
structure Logs where
  fault : List FaultEntry
  faultGen : Nat
  errors : List ErrorEntry
  errorsGen : List (Nat × Nat)
  portGen : Nat
  thermalGen : Nat
  deriving DecidableEq, Repr

/-- One FX-64 engine. `ues` are the block, unit and time of the uncorrectable reads of the last second (Table 17-3); `clanes` and
`cwaits` the users of the compression lanes and those that wait, oldest first, `kvTurn` the partition that was last served among
KV c-blocks (R341); `uses` counts the uses of resident spins and of hot copies (R168, R249). -/
structure Engine where
  powered : Bool
  resetting : Bool
  fenced : Bool
  hold : Bool
  locate : Bool
  lifecycle : Nat
  anchor : Option (BitVec 384)
  debug : Nat
  debugAt : Nat
  clock : Clock
  member : Member
  fw : Firmware
  journal : Journal
  keeper : Keeper
  flt : Vector Flt 11
  ues : List (Nat × Nat × Nat)
  threshold : Nat
  logs : Logs
  ports : Vector Port 22
  funcs : Vector (Vector Func 64) 2
  qps : List Qp
  power : PowerHeat
  channels : Vector Channel 16
  pool : Memory
  protectedSlices : List Nat
  units : List Nat
  lostRows : List (Nat × Nat)
  remaps : List (Nat × Nat × Nat)
  epochUsed : Nat
  lanes : Vector (Option LaneJob) 64
  contexts : List SavedCtx
  digestWaits : List DigestJob
  dgxTurn : Nat
  clanes : Vector (Option CBlock) 32
  cwaits : List CBlock
  kvTurn : Nat
  shelfSpins : Vector ShelfSpin 5
  resident : Vector (Option Resident) 3
  uses : Nat
  orderCount : Nat
  hung : Bool
  tickAt : Nat
  windows : Vector Window 64
  redfish : Mailbox
  rotation : Vector Nat 4
  returned : Vector Nat 4
  spare : Option EngId
  saved : List (Nat × List Byte)
  record : Option Nat
  deriving DecidableEq, Repr

/-! ### Partitions (03, 06, 07, 08, 10, 11, 13) -/

/-- The exact sum of one ACCUM element: finite addends in units of 2^-149, and the special values met (R139). -/
structure Acc where
  sum : Int
  posInf : Bool
  negInf : Bool
  nan : Bool
  nanNeg : Bool
  deriving DecidableEq, Repr

/-- The placement of a tensor: members, parity stripes P, per engine the pool addresses of its 128 KiB units in order (R137,
R199), and the members that have lost their rows of it, back in the view or not (R299, R313). -/
structure Placement where
  members : BitVec 16
  parity : Nat
  units : List (Nat × List Nat)
  gone : BitVec 16
  deriving DecidableEq, Repr

/-- A registered tensor (06). `per` is the count of elements of one stripe: 2^STRIPE_LOG2, or for a PRECOND tensor those of
the blocks in one stripe of its parent. `scrubbed` lists the 4 KiB pieces of poisoned stripes, as (engine, piece), that row
operations have written afresh since (R201, R203). -/
structure Tensor where
  id : Word
  rid : Word
  cls : Nat
  fmt : Nat
  twin : Bool
  hostFmt : Nat
  rows : Nat
  cols : Nat
  parent : Word
  log2 : Nat
  per : Nat
  charge : Nat
  place : Placement
  dest : Option Placement
  moved : List Nat
  poison : List Nat
  scrubbed : List (Nat × Nat)
  sums : List (Nat × Acc)
  bitmap : List (Nat × Nat)
  pushes : List (Nat × Nat)
  deriving DecidableEq, Repr

/-- The step state of a partition (R138–R144, R288). Phase codes are those of STATE_QUERY. `scale` is the new count
under RESCALE; `mapped` the mask of new indices that some old contributor maps to; `stepped` says that some step has completed or
was restored, whatever policy governed it (R149); `gscale` is the GRAD_SCALE and `clip`
the clip factor that the statistics phase found; `spun` lists the spins, as (engine, handle), that were resident at some
time of the present update. -/
structure StepState where
  completed : Nat
  phase : Nat
  skip : Nat
  t : Nat
  contributors : Nat
  scale : Option Nat
  mapped : Nat
  stepped : Bool
  gscale : Word
  clip : Word
  spun : List (Nat × Nat)
  deriving DecidableEq, Repr

/-- What an epoch captures (Table 8-1). Tensor contents are sparse bytes in stored format. -/
structure Image where
  tensors : List (Tensor × Memory)
  riders : List (Nat × List Byte)
  contexts : List Byte
  policy : List Byte
  contributors : Nat
  completed : Nat
  skip : Nat
  t : Nat
  parity : Nat
  members : BitVec 16
  lsn : Vector Nat 16
  deriving DecidableEq, Repr

/-- One shard of an epoch's drain (R225, R229): phase 0 to be written, 1 written, 2 verified; whether step 3 is done; the STORE
tokens taken for its next transfer (R72, R230); failures of R237; the staged stored object; the runs of the store that an earlier write of it took (R236, R237). -/
structure Shard where
  tid : Word
  kind : Nat
  metaType : Nat
  src : Nat
  first : Nat
  count : Nat
  rawLen : Nat
  codedLen : Nat
  obj : List Byte
  objLen : Nat
  digest : List Byte
  ptr : Nat
  phase : Nat
  flushed : Bool
  paid : Nat
  fails : Nat
  old : List Nat
  deriving DecidableEq, Repr

/-- An epoch in flight (Table 8-3). `walk` says how many units of the copier's walk are copied on each channel, by
16 × engine + channel (R210); `copied` lists the 4 KiB blocks, as (engine, number), that demand windows copied ahead
of it; `turn` is the number of the tide's turn in which it was cut, and `whileHeld` whether its partition was
HELD then (R256); `mold` lists runs of the store that an earlier write of its manifest took (R236); `status` is what the last
failed verification of one of its shards reported (R230). -/
structure Epoch where
  n : Nat
  kind : Nat
  base : Nat
  gen : Option Nat
  state : Nat
  cutTime : DWord
  image : Image
  walk : List (Nat × Nat)
  copied : List (Nat × Nat)
  pinned : Bool
  paused : Bool
  drain : Bool
  commit : Bool
  campaign : Option Nat
  verify : Nat
  mslot : Option Nat
  dslot : Option Nat
  shards : List Shard
  manifest : List Byte
  mptr : Nat
  mchecked : Bool
  tries : Nat
  commitTime : DWord
  chain : Nat
  final : Bool
  reseed : Bool
  turn : Nat
  whileHeld : Bool
  mold : List Nat
  status : Status
  deriving DecidableEq, Repr

/-- A cut in declaration (R181): who asked, the gates closed, KIND and flags. -/
structure CutDecl where
  eng : EngId
  key : Option MbxKey
  kind : Nat
  drain : Bool
  commit : Bool
  gates : BitVec 16
  final : Bool
  reseed : Bool
  deriving DecidableEq, Repr

/-- A key-value page (R248–R253); `hotAt` is the order of the last use of its hot copy (R249). -/
structure KvPage where
  key : DWord
  raw : Nat
  dir : EngId
  body : EngId
  lent : Bool
  addr : Nat
  home : List Byte
  hot : Option (List Byte)
  hotAt : Nat
  poisoned : Bool
  deriving DecidableEq, Repr

/-- A loaded program (R171, R173). -/
structure Program where
  handle : Word
  bytes : List Byte
  fused : Nat
  split : Nat
  deriving DecidableEq, Repr

/-- A loaded spin (R175). -/
structure Spin where
  handle : Word
  bytes : List Byte
  uses : Nat
  deriving DecidableEq, Repr

/-- A restore session (13 Restore). State codes are those of RESTORE_QUERY; `paid` counts the STORE tokens taken (R72). -/
structure Restore where
  state : Nat
  gen : Nat
  n : Nat
  chain : List (List Byte)
  replace : Bool
  dslot : Option Nat
  mslot : Nat
  map : List (Nat × Nat)
  contributors : Nat
  mode : Nat
  cmap : List Nat
  replay : Nat
  until_ : DWord
  strict : Bool
  campaign : Option Nat
  paid : Nat
  status : Status
  poisoned : Nat
  loaded : Nat
  records : Nat
  rawTotal : Nat
  deriving DecidableEq, Repr

/-- A re-shard, rebuild or in-place re-encoding in progress (R279, R281, R284). -/
structure Reshard where
  members : BitVec 16
  parity : Nat
  rebuild : Bool
  campaign : Option Nat
  requester : Option (EngId × MbxKey)
  deriving DecidableEq, Repr

/-- A partition reset in progress (R66): the requesting engine, whether it cancels, whether it is the reset of a
PART_DELETE, and whether a PART_DELETE waits behind it (R76, R77). -/
structure PartReset where
  eng : EngId
  cancel : Bool
  delete : Bool
  next : Bool
  deriving DecidableEq, Repr

/-- The state of a partition as a whole. -/
structure Partition where
  resetting : Option PartReset
  kvElem : Byte
  kvMethod : Byte
  classFmt : Vector Nat 7
  classTwin : Vector Bool 7
  tensors : List Tensor
  policy : Option (List Byte)
  nextPolicy : Option (List Byte)
  needProgram : Bool
  step : StepState
  riders : List (Nat × List Byte)
  epochs : List Epoch
  nextEpoch : Nat
  gen : Option Nat
  prevGen : Option Nat
  lastCut : Nat
  lastCommitted : Nat
  nextFull : Bool
  cut : Option CutDecl
  kv : List KvPage
  programs : List Program
  spins : List Spin
  restore : Option Restore
  reshard : Option Reshard
  rebuildWait : Bool
  lsn : Vector Nat 16
  verify : Nat
  deriving DecidableEq, Repr

/-! ### The shelf (14, 18, 20) -/

/-- A partition's entry in the shelf configuration record (14). -/
structure PartCfg where
  members : BitVec 16
  expert : Bool
  streams : Nat
  poolGib : Nat
  stageGib : Nat
  gids : List Nat
  qos : List (Nat × Nat × Byte × Byte × Byte)
  mslot : Option Nat
  dslot : Option Nat
  verify : Nat
  deriving DecidableEq, Repr

/-- The shelf configuration record: saved features are (FID, engine position, value). -/
structure ConfigRecord where
  seq : Nat
  parts : List (Nat × PartCfg)
  saved : List (Nat × Nat × List Byte)
  leaseSlot : Option Nat
  excluded : BitVec 16
  admitted : BitVec 16
  deriving DecidableEq, Repr

/-- A configuration change in progress (R301): the new record, the leader, the command and its mailbox (none for a
change the shelf makes itself), the phase, and the engines that have answered it. -/
structure Adoption where
  record : ConfigRecord
  leader : EngId
  cmd : List Byte
  part : PartId
  src : Option (EngId × MbxKey)
  commit : Bool
  acked : BitVec 16
  current : BitVec 16
  since : Nat
  deriving DecidableEq, Repr

/-- The view in force (R297, R298): its engines now, and those it formed with, which differ while an engine that lost contact
has left without a new view (R311, R312). -/
structure View where
  num : Nat
  set : BitVec 16
  formed : BitVec 16
  leader : EngId
  formedAt : DWord
  deriving DecidableEq, Repr

/-- A proposal: the number, the set, who accepted, and when it was sent (R298). -/
structure Proposal where
  num : Nat
  set : BitVec 16
  leader : EngId
  accepted : BitVec 16
  since : Nat
  deriving DecidableEq, Repr

/-- Time sources of the active SCM and the time-of-day source (R308): which inputs are locked, when the source in use
lost lock, the bound, and TIME_SET in force. The row in use is that of Table 14-2. -/
structure TimeSrc where
  ptp : Bool
  pps : Bool
  ten : Bool
  row : Nat
  policy : Nat
  boundBase : Nat
  boundSince : Nat
  setBound : Nat
  timeSet : Bool
  todSet : Bool
  setOffset : Int
  deriving DecidableEq, Repr

/-- The lease of the shelf (R315–R317). `claim` is when a claim was written and by which mailbox; `extend` when an
allotment was appended. -/
structure Lease where
  state : Nat
  slot : Nat
  nonce : DWord
  expiry : DWord
  renewed : DWord
  seq : DWord
  nextGen : Nat
  allot : List (Nat × Nat)
  claimAt : Option Nat
  claimBy : Option (EngId × MbxKey)
  extendAt : Option Nat
  retryAt : Option Nat
  grant : DWord
  deriving DecidableEq, Repr

/-- An NVMe command that the shelf issues to a volume's target (R39): Connect of a queue on an S-port, Property Get and Set as the
connection begins, Keep Alive, Identify, Read,
Write of a run of blocks with or without FUA, Flush, Write Zeroes, and Dataset Management with deallocate. -/
inductive NvmeCmd where
  | connect (vol sport : Nat)
  | property (vol sport : Nat) (set : Bool)
  | keepAlive (vol sport : Nat)
  | identify (vol : Nat)
  | read (vol lba n : Nat)
  | write (vol lba n : Nat) (fua : Bool)
  | flush (vol : Nat)
  | writeZeroes (vol lba n : Nat)
  | deallocate (vol lba n : Nat)
  deriving DecidableEq, Repr

/-- The RoCE queue pair of an I/O queue that has met congestion: S-port of the shelf, queue, send-rate reductions and the time of
the last notification it sent (R33, R41). -/
structure SPair where
  sport : Nat
  queue : Nat
  cuts : Nat
  lastCnp : Option Nat
  deriving DecidableEq, Repr

/-- One volume of the store: its STORE_TARGETS entry, size, contents, the I/O queues open to its target on each S-port of the
shelf (4 × engine + S-port; at most 8 of 128 entries each, R41), their queue pairs that have met congestion, whether it is attached, whether its target has a volatile write
cache, and the runs of blocks, as (LBA, blocks), written without FUA since the last Flush (R228). -/
structure Volume where
  entry : List Byte
  blocks : Nat
  bytes : Memory
  queues : Vector Nat 64
  pairs : List SPair
  attached : Bool
  cache : Bool
  dirty : List (Nat × Nat)
  lba : Nat
  metaBytes : Nat
  protection : Nat
  deriving DecidableEq, Repr

/-- A FORMAT in progress or resumed (R413, R422). -/
structure FormatRun where
  accepted : DWord
  campaign : Nat
  deriving DecidableEq, Repr

/-- The current or last sanitise (Table 20-10). -/
structure Sanitise where
  state : Nat
  mode : Nat
  scope : Nat
  part : Nat
  percent : Nat
  status : Status
  start : DWord
  finish : DWord
  campaign : Option Nat
  deriving DecidableEq, Repr

/-- An orderly shutdown in progress (Table 20-7). -/
structure Shutdown where
  grace : Nat
  since : Nat
  abandoned : Nat
  deriving DecidableEq, Repr

/-- One SCM: 0 up, 1 starting, 2 failed (R43, R57). -/
inductive ScmState where
  | up | starting | failed
  deriving DecidableEq, Repr

/-- What a campaign in flight is (R188). -/
inductive CampaignKind where
  | drain | restore | reshard | sanitise | format | reseed | ddr
  deriving DecidableEq, Repr

/-- A campaign in flight: its number, kind and owning partition. -/
structure Campaign where
  id : Nat
  kind : CampaignKind
  part : Option PartId
  deriving DecidableEq, Repr

/-- The tide (R16–R29, R256, R257): FLOOD or EBB, the turn in progress (0 none, 1 flood, 2 ebb), lending and HELD
partitions, those the present turn still waits for, those whose commit lets them lend, the number of turns started so far (the
model's own count), and the times of Table 11-7. -/
structure Tide where
  flood : Bool
  turn : Nat
  lending : DWord
  held : DWord
  waits : DWord
  ready : DWord
  count : Nat
  started : DWord
  completed : DWord
  deriving DecidableEq, Repr

/-- Data the shelf put into the memory of a host: where from, and the address, key and bytes, with how many bytes after them hold an
unspecified mixture of old and new contents (R85, R123, R124, R65). -/
structure Delivery where
  eng : EngId
  part : PartId
  path : Path
  addr : DWord
  key : Word
  bytes : List Byte
  mixed : Nat
  deriving DecidableEq, Repr

/-- A message the shelf sent to the world outside it. -/
inductive Message where
  | msix (e : EngId) (port : Nat) (p : PartId) (addr : DWord) (data : Word)
  | redfishEvent (e : Option EngId) (blk src : Nat)
  | redfishMailbox (e : EngId) (rsp : List Byte)
  | redfishAccepted (ok : Bool)
  | capUnmet
  | pause (e : EngId) (port prio : Nat)
  | cnp (e : EngId) (qpn : Nat)
  | connectAccept (e : EngId) (qpn : Nat) (rkey len : Word)
  | connectReject (e : EngId)
  | nak (e : EngId) (qpn : Nat)
  | unsupported (e : EngId) (port : Nat) (p : PartId)
  deriving DecidableEq, Repr

/-- A MEMBERSHIP log entry (R319). -/
structure MemberEntry where
  view : Nat
  event : Nat
  eng : Nat
  reason : Nat
  time : DWord
  joined : BitVec 16
  fenced : BitVec 16
  seq : Nat
  deriving DecidableEq, Repr

end Sys2Proof.Machine
end

