-- ==== Sys2Proof/Machine/State.lean ====
section
/-! DEFINITION. The state of the shelf as plain data, the ways a step can stop, and the state after reset. -/

namespace Sys2Proof.Machine

/-- Whether the engines are powered, whether the busbar is present, and the cause of the last entry to E4: 0 none, 1 the
busbar, 2 an orderly shutdown, 3 a Redfish power-off (R46, R375, R407); the SCMs and the active one (R54). -/
structure Plant where
  powered : Bool
  busbar : Bool
  offCause : Nat
  scm : Vector ScmState 2
  activeScm : Fin 2
  deriving DecidableEq, Repr

/-- Membership of the shelf: view in force, last view number, proposal, split window, MEMBERSHIP log (14). -/
structure Membership where
  view : Option View
  lastView : Nat
  proposal : Option Proposal
  windowAt : Option DWord
  windowSince : Nat
  splitHeld : Bool
  log : List MemberEntry
  generation : Nat
  activation : Option EngId
  deriving DecidableEq, Repr

/-- The cap level of R380 with the falls in draw measured per step. -/
structure PowerCap where
  level : Nat
  unmet : Bool
  falls : Vector (Option Nat) 4
  lastAverage : Option (Nat × Nat)
  deriving DecidableEq, Repr

/-- The store side: volumes, volumes that the STORE_TARGETS value in force does not name, blocks in use, runs whose deallocation
waits for the lease (R221), XTS nonces that the shelf has used (R226), the NVMe commands issued to targets, newest first (R39),
lease, whether step 9 has ended, FORMAT (10, 14, 20). -/
structure Store where
  volumes : List Volume
  parked : List Volume
  used : List (Nat × Nat × Nat)
  unfreed : List (Nat × Nat × Nat)
  nonces : List DWord
  issued : List NvmeCmd
  lease : Lease
  step9 : Bool
  format : Option FormatRun
  formatFailed : Bool
  deriving DecidableEq, Repr

/-- The whole shelf. `pending` is the model's queue of commands; `now` and `freeCount` are the model's own fields (log
2, log 3), `lockOrder` counts lock requests (R129); `sanitiseFailed`
lists the (mode, scope, partition) of the sanitises that failed and have not been done since (R415); `delivered` and `outbox` are what the shelf sent to the world outside it, newest first. -/
structure State where
  pending : List Instr
  now : Nat
  freeCount : Nat
  lockOrder : Nat
  delivered : List Delivery
  outbox : List Message
  plant : Plant
  membership : Membership
  record : ConfigRecord
  adoption : Option Adoption
  tide : Tide
  campaigns : List Campaign
  timeSrc : TimeSrc
  cap : PowerCap
  store : Store
  sanitise : Sanitise
  sanitiseFailed : List (Nat × Nat × Nat)
  shutdown : Option Shutdown
  features : List (Nat × Nat × List Byte)
  redfishLog : List (Nat × FaultEntry)
  engines : Vector Engine 16
  parts : Vector Partition 64
  deriving DecidableEq, Repr

/-- Why a step stops with a fault. No meaning of the model ends so; see NOTES.md, Stops. -/
inductive Fault where
  /-- An access outside the memory that the manual describes. Raised by no meaning; safe. -/
  | noSuchAddress
  deriving DecidableEq, Repr

/-- Why a step is refused. -/
inductive Refusal where
  /-- The row has no meaning in the model; raised only by an arm of `exec` that says so; safe. -/
  | notModelled (mnemonic : String)
  deriving DecidableEq, Repr

/-! ### Reset values -/

/-- No interrupt configured (Tables 3-4, 3-5); MSI-X entries masked, as PCIe resets them (PRESUMED, log 14). -/
def IntCtl.reset : IntCtl where
  route := Vector.replicate 32 0b11
  cause := 0
  v0 := 0
  ring := { base := 0, rkey := 0, qpn := 0, log2 := 6, cons := 0, prod := 0, en := false, sBase := 0, sRkey := 0,
            sQpn := 0, sLog2 := 6, phase := true, disabled := false, held := [] }
  coal := Vector.replicate 32 []
  msix := Vector.replicate 32 (1#128 <<< 96)
  pba := 0

/-- Table 3-9. -/
def QosPool.reset : QosPool := { wEbb := 1, wFlood := 1, cap := 100, tokens := 0, grant := 0, stalls := 0 }

/-- Table 4-1. -/
def Mailbox.reset : Mailbox :=
  { cmd := zeros 64, rsp := zeros 64, done := false, overrun := false, seq := 0, job := none }

/-- Tables 5-1 and 5-2 (R134). -/
def Stream.reset : Stream :=
  { task := zeros 56, storeClass := false, haltOnErr := true, lastSc := 0, done := false, halted := false,
    overrun := false, doneTag := 0, doneCount := 0, failOffset := 0, queue := [] }

/-- Table 9-4. -/
def Nmx.reset : Nmx :=
  { start := 0, vector := 0, busy := false, done := false, sc := 0, errIndex := 0, used := [], xTid := 0, xOff := 0,
    xPool := 0, xArray := 0, xValid := false, xEngine := 0, xProtected := false, entries := [], prog := [], next := 0, row := 0,
    failed := none, locked := false }

/-- Table 12-6. -/
def Dgx.reset : Dgx :=
  { job := zeros 64, expect := zeros 64, vector := 0, done := false, sc := 0, failFrag := 0, dmatch := 0, dmatchN := 0,
    ctxLen := 0, lane := 0, msgBytes := 0, digest := zeros 64, ctx := zeros 256, run := none }

/-- A partition window after power-on (R80, R431). -/
def Window.reset : Window :=
  { resetting := false, rstDone := false, rstSeq := 0, dbFlag := Vector.replicate 64 0, ints := IntCtl.reset,
    vmap := [], qos := Vector.replicate 4 QosPool.reset, pflt := 0, pfltTime := 0, mbx := Mailbox.reset, streams := [],
    nmx := Nmx.reset, dgx := Dgx.reset, rkey := none, lastRkey := none }

/-- A port without a link (Table 2-7). -/
def Port.reset : Port :=
  { linkUp := false, fenced := false, rate := 0, width := 0, flit := false, retrains := 0, corrected := 0,
    uncorrected := 0, changed := 0, pfcOn := false, pfcPrio := 0, pausedUntil := 0, storms := [] }

/-- A channel in MEMORY mode below TM1 with its nominal budget (R206, R217, Table 9-3). -/
def Channel.reset : Channel :=
  { processor := false, since := 0, initEnd := none, stuck := false, slot := none, turn := 63, level := 0, budget := 500,
    borrowed := 0, acts := [], refresh := [] }

/-- A function's configuration space after a conventional reset: 128-byte payloads and 512-byte read requests until software sets
them, as PCIe resets them (R37; PRESUMED, log 134). -/
def Func.reset : Func := { enable := false, mask := false, mps := 128, mrrs := 512, aerUnc := 0, aerCor := 0 }

/-- The five spins of the shelf in the order of R168. -/
def fabricSpins : Vector ShelfSpin 5 := #v[.narrowing, .compressionGlue, .digestGlue, .reshardTransform, .layoutTransform]

/-- Sources of each block as Table 17-3 lists them: (default, floor) severities by source number. -/
def faultSources (blk : Nat) : List (Nat × Nat) :=
  match blk with
  | 0 => [(1, 0), (3, 3), (3, 3), (3, 2), (3, 3)]
  | 1 => [(3, 3), (3, 2), (3, 2)]
  | 2 => [(3, 3), (3, 3), (3, 3)]
  | 3 => [(1, 0), (2, 1), (3, 3)]
  | 4 => [(1, 0), (2, 1), (3, 2), (3, 3), (3, 3), (3, 3), (1, 0), (2, 1)]
  | 5 => [(1, 0), (2, 1), (3, 2), (3, 3)]
  | 6 => [(1, 0), (1, 0), (3, 3), (3, 3)]
  | 7 => [(4, 4), (4, 4), (2, 1), (1, 1), (2, 2), (2, 2), (2, 2), (2, 2), (2, 2), (2, 2)]
  | 8 => [(1, 0), (1, 0), (1, 1), (2, 1), (3, 3), (2, 1), (3, 3)]
  | 9 => [(1, 0), (1, 0), (2, 1), (1, 0)]
  | 10 => [(1, 1), (2, 2), (2, 2), (4, 4), (2, 2), (2, 2), (2, 2)]
  | _ => []

/-- FLT_SEV after engine reset: the defaults of Table 17-3, one nibble per source. -/
def defaultSev (blk : Nat) : BitVec 128 :=
  BitVec.ofNat 128 ((faultSources blk).zipIdx.foldl (fun n (d, i) => n + d.1 * 16 ^ i) 0)

/-- FLT_ENABLE after engine reset: 1 for every defined source. -/
def defaultEnable (blk : Nat) : Word := BitVec.ofNat 32 (2 ^ (faultSources blk).length - 1)

/-- The FLT register set of a block after engine reset (Table 17-2, R370). -/
def Flt.reset (blk : Nat) : Flt :=
  { status := 0, enable := defaultEnable blk, sev := defaultSev blk, lock := false, dry := true, forceUnit := 0,
    forceAddr := 0, fecAddr := 0, fecMaster := 0, fecAccess := 0, fecSource := 0, fecSev := 0, fecForced := false,
    fecValid := false, fecUnit := 0, fecCount := 0, fecTime := 0, fenced := 0, acted := Vector.replicate 32 0,
    level := 0, dryBits := 0, latch := 0 }

/-- An empty key slot. -/
def KeySlot.empty : KeySlot := { usage := 0, owner := 0, keyId := 0, key := [], gen := 0 }

/-- A keeper domain that holds nothing, on a full cell (DESIGN CHOICE, log 11). -/
def Keeper.reset : Keeper :=
  { slots := Vector.replicate 64 KeySlot.empty, wrapKey := 0, alarm := 0, lost := false, reserve := 0,
    arm := 0, active := Vector.replicate 8 0, zeroFailed := false, rtc := 0, cellMv := 3000, cellLost := false, challenge := none,
    failures := 0, refuseUntil := none, armed := none }

/-- A sensor at 25 °C (DESIGN CHOICE, log 12). -/
def Sensor.reset : Sensor := { temp := 400, lvl := 0, state := 0, max := 400, changed := 0, silent := none }

/-- The sensors of Table 18-4 in order: core, fabric, HBM, DDR module, port module, inlet, outlet. -/
def sensorKinds : List (Nat × Nat) := [(1, 16), (2, 4), (3, 6), (4, 32), (6, 20), (7, 1), (8, 1)]

/-- Firmware as the engine left the factory: the factory build boots from slot A (DESIGN CHOICE, log 10). -/
def Firmware.reset (e : EngId) : Firmware :=
  { major := (Config.factoryBuild e).1, minor := (Config.factoryBuild e).2.1, patch := (Config.factoryBuild e).2.2.1,
    sec := (Config.factoryBuild e).2.2.2, active := 0, run := 0, next := 0, slots := #v[none, some []], staged := [],
    counter := 0, provisional := false, bootAt := 0, booted := true }

/-- Power and heat from power-on until the join: E0 at L2, default timers (R382, R386). -/
def PowerHeat.reset : PowerHeat :=
  { state := 0, idleSince := none, exitDue := none, timers := #v[20, 50000, 0],
    inForce := #v[20, 50000, 0], heat := 0, level := 2, levelAt := 0,
    draw := 0, sensors := List.replicate 80 Sensor.reset, channels := Vector.replicate 16 Sensor.reset }

/-- An engine after steps 1 to 7 of Table 20-2: it runs, offers itself to Chiem and has not joined. -/
def Engine.reset (e : EngId) : Engine :=
  { powered := true, resetting := false, fenced := false, hold := false, locate := false, lifecycle := 0,
    anchor := none, debug := 0, debugAt := 0,
    clock := { now := 0, slew := 0, step := 0, srcOffset := 0, suspect := true, calmSince := none },
    member := { state := 1, reason := 0, heard := Vector.replicate 16 0, unreachable := 0, accepted := 0,
                lostSince := none, offeredAt := 0, foreign := false },
    fw := Firmware.reset e,
    journal := { entries := [], next := 1, cycles := [], retired := [], readOnly := false, wornTold := 0 },
    keeper := Keeper.reset,
    flt := Vector.ofFn (fun b => Flt.reset b.val), ues := [],
    threshold := 3,
    logs := { fault := [], faultGen := 0, errors := [], errorsGen := [], portGen := 0, thermalGen := 0 },
    ports := Vector.replicate 22 Port.reset,
    funcs := Vector.replicate 2 (Vector.replicate 64 Func.reset),
    qps := [], power := PowerHeat.reset, channels := Vector.replicate 16 Channel.reset,
    pool := [], protectedSlices := [], units := [], lostRows := [], remaps := [],
    epochUsed := 0, lanes := Vector.replicate 64 none, contexts := [], digestWaits := [], dgxTurn := 63,
    clanes := Vector.replicate 32 none, cwaits := [], kvTurn := 63, shelfSpins := fabricSpins, resident := Vector.replicate 3 none,
    uses := 0, orderCount := 0, hung := false, tickAt := 0, windows := Vector.replicate 64 Window.reset, redfish := Mailbox.reset,
    rotation := Vector.replicate 4 63, returned := Vector.replicate 4 0, spare := none, saved := [], record := none }

/-- A partition that holds no state (R29, R156, R260). -/
def Partition.reset : Partition :=
  { resetting := none, kvElem := 0x01, kvMethod := 0, classFmt := #v[0x01, 0x00, 0x00, 0x00, 0x00, 0x00, 0x07],
    classTwin := Vector.replicate 7 true, tensors := [], policy := none, nextPolicy := none, needProgram := false,
    step := { completed := 0, phase := 0, skip := 0, t := 0, contributors := 0, scale := none, mapped := 0,
              stepped := false, gscale := 0, clip := 0, spun := [] },
    riders := [], epochs := [], nextEpoch := 1, gen := none, prevGen := none, lastCut := 0, lastCommitted := 0,
    nextFull := true, cut := none, kv := [], programs := [], spins := [], restore := none, reshard := none,
    rebuildWait := false, lsn := Vector.replicate 16 0, verify := 0 }

/-- Partition 0 of a shelf without a configuration record: every engine, 64 streams on each (R80). -/
def PartCfg.initial : PartCfg :=
  { members := 0xFFFF, expert := false, streams := 64, poolGib := 0, stageGib := 0, gids := [], qos := [],
    mslot := none, dslot := none, verify := 0 }

/-- No lease (Table 14-3). -/
def Lease.none : Lease :=
  { state := 0, slot := 0xFF, nonce := 0, expiry := 0, renewed := 0, seq := 0, nextGen := 0, allot := [],
    claimAt := Option.none, claimBy := Option.none, extendAt := Option.none, retryAt := Option.none, grant := 0 }

/-- No sanitise (Table 20-10). -/
def Sanitise.none : Sanitise :=
  { state := 0, mode := 0, scope := 0, part := 0, percent := 0, status := .ok, start := 0, finish := 0,
    campaign := Option.none }

/-- The shelf right after reset: powered, every engine through steps 1 to 7 of the power-on sequence, no view, no
configuration record, EBB, no time source, no store target (R29, R80, R309, R321, R386; logs 2, 5 to 13, 15). -/
def State.reset : State :=
  { pending := [], now := 0, freeCount := 0, lockOrder := 0, delivered := [], outbox := [],
    plant := { powered := true, busbar := true, offCause := 0, scm := Vector.replicate 2 .up, activeScm := 0 },
    membership := { view := none, lastView := 0, proposal := none, windowAt := none, windowSince := 0,
                    splitHeld := false, log := [], generation := 0, activation := none },
    record := { seq := 0, parts := [(0, PartCfg.initial)], saved := [], leaseSlot := none, excluded := 0,
                admitted := 0 },
    adoption := none,
    tide := { flood := false, turn := 0, lending := 0, held := 0, waits := 0, ready := 0, count := 0, started := 0,
              completed := 0 },
    campaigns := [],
    timeSrc := { ptp := false, pps := false, ten := false, row := 3, policy := 0, boundBase := 1000, boundSince := 0,
                 setBound := 0, timeSet := false, todSet := false, setOffset := 0 },
    cap := { level := 0, unmet := false, falls := Vector.replicate 4 none, lastAverage := none },
    store := { volumes := [], parked := [], used := [], unfreed := [], nonces := [], issued := [], lease := Lease.none, step9 := false, format := none, formatFailed := false },
    sanitise := Sanitise.none, sanitiseFailed := [], shutdown := none, features := [], redfishLog := [],
    engines := Vector.ofFn Engine.reset, parts := Vector.replicate 64 Partition.reset }

end Sys2Proof.Machine
end

