-- ==== Sys2Proof/Machine/Access.lean ====
section
/-! DEFINITION. Reading and updating the parts of the state: engines, windows, streams, partitions, association
lists; who is joined, who counts as fenced; free values. Every other file reads and writes State through these. -/

namespace Sys2Proof.Machine

/-! ### Association lists -/

/-- The value a list holds for a key. -/
def assocGet {α : Type} (l : List (Nat × α)) (k : Nat) : Option α := (l.find? (fun c => c.1 = k)).map Prod.snd

/-- The value a list holds for a key, or a default. -/
def assocGetD {α : Type} (l : List (Nat × α)) (k : Nat) (d : α) : α := (assocGet l k).getD d

/-- A list with the value of a key removed. -/
def assocDel {α : Type} (l : List (Nat × α)) (k : Nat) : List (Nat × α) := l.filter (fun c => c.1 ≠ k)

/-- A list with the value of a key set, kept in ascending key order. -/
def assocSet {α : Type} : List (Nat × α) → Nat → α → List (Nat × α)
  | [], k, v => [(k, v)]
  | (a, b) :: rest, k, v =>
    if k < a then (k, v) :: (a, b) :: rest else if k = a then (k, v) :: rest else (a, b) :: assocSet rest k v

/-! ### Engines, windows, streams, partitions -/

/-- Engine `e`. -/
def State.eng (s : State) (e : EngId) : Engine := s.engines[e]

/-- The state with engine `e` replaced. -/
def State.setEng (s : State) (e : EngId) (x : Engine) : State := { s with engines := s.engines.set e.val x e.isLt }

/-- The state with engine `e` updated. -/
def State.modEng (s : State) (e : EngId) (f : Engine → Engine) : State := s.setEng e (f (s.eng e))

/-- The state with every engine of a mask updated. -/
def State.modEngines (s : State) (m : BitVec 16) (f : EngId → Engine → Engine) : State :=
  { s with engines := Vector.ofFn (fun e => if hasEngine m e then f e (s.eng e) else s.eng e) }

/-- The window of partition `p` on engine `e`. -/
def State.win (s : State) (e : EngId) (p : PartId) : Window := (s.eng e).windows[p]

/-- An engine with one window replaced. -/
def Engine.setWin (x : Engine) (p : PartId) (w : Window) : Engine :=
  { x with windows := x.windows.set p.val w p.isLt }

/-- The state with one window updated. -/
def State.modWin (s : State) (e : EngId) (p : PartId) (f : Window → Window) : State :=
  s.modEng e (fun x => x.setWin p (f x.windows[p]))

/-- Partition `p`. -/
def State.part (s : State) (p : PartId) : Partition := s.parts[p]

/-- The state with partition `p` replaced. -/
def State.setPart (s : State) (p : PartId) (x : Partition) : State := { s with parts := s.parts.set p.val x p.isLt }

/-- The state with partition `p` updated. -/
def State.modPart (s : State) (p : PartId) (f : Partition → Partition) : State := s.setPart p (f (s.part p))

/-- Stream `n` of a window; a stream not listed holds its reset values. -/
def Window.stream (w : Window) (n : Nat) : Stream := assocGetD w.streams n Stream.reset

/-- A window with one stream replaced. -/
def Window.setStream (w : Window) (n : Nat) (x : Stream) : Window := { w with streams := assocSet w.streams n x }

/-- The stream that a location names. -/
def State.stream (s : State) (a : StreamAt) : Stream := (s.win a.eng a.part).stream a.stream

/-- The state with one stream updated. -/
def State.modStream (s : State) (a : StreamAt) (f : Stream → Stream) : State :=
  s.modWin a.eng a.part (fun w => w.setStream a.stream (f (w.stream a.stream)))

/-- The range-lock entries that one window's commands and digest job hold on an engine (R129, R264). -/
def Window.locksOn (w : Window) (e : EngId) : Nat :=
  (w.streams.map (fun x => (x.2.queue.filter (fun q => hasEngine q.lockOn e)).length)).sum +
    w.dgx.run.elim 0 (fun r => (r.lockOn.filter (fun m => hasEngine m e)).length)

/-- The range-lock entries of an engine that a partition's commands hold, from whichever engine they were issued. -/
def State.partLocks (s : State) (p : PartId) (e : EngId) : Nat :=
  ((List.finRange 16).map (fun x => (s.win x p).locksOn e)).sum

/-- The range-lock entries of an engine that are held. -/
def State.locksHeld (s : State) (e : EngId) : Nat := ((List.finRange 64).map (fun p => s.partLocks p e)).sum

/-! ### The configuration record -/

/-- The record's entry of a partition; none for a partition that does not exist. -/
def State.cfg (s : State) (p : PartId) : Option PartCfg := assocGet s.record.parts p.val

/-- Whether a partition exists. -/
def State.exists_ (s : State) (p : PartId) : Bool := (s.cfg p).isSome

/-- The members of a partition; none when it does not exist. -/
def State.members (s : State) (p : PartId) : BitVec 16 := ((s.cfg p).map PartCfg.members).getD 0

/-- The stream count of a partition on each member engine. -/
def State.streams (s : State) (p : PartId) : Nat := ((s.cfg p).map PartCfg.streams).getD 0

/-- Whether a partition has EXPERT rights. -/
def State.expert (s : State) (p : PartId) : Bool := ((s.cfg p).map PartCfg.expert).getD false

/-- The state with the record's entry of a partition updated. -/
def State.modCfg (s : State) (p : PartId) (f : PartCfg → PartCfg) : State :=
  { s with record := { s.record with parts := s.record.parts.map (fun c => if c.1 = p.val then (c.1, f c.2) else c) } }

/-- The partitions that exist, in ascending ID. -/
def State.partIds (s : State) : List PartId := (List.finRange 64).filter (fun p => s.exists_ p)

/-! ### Views -/

/-- The engines of the view. -/
def State.joinedMask (s : State) : BitVec 16 := ((s.membership.view).map View.set).getD 0

/-- Whether an engine is joined (R297). -/
def State.joined (s : State) (e : EngId) : Bool := hasEngine s.joinedMask e

/-- Whether an engine runs: powered, through its start-up, neither fenced nor held in ALARM_HOLD (R363, R395). -/
def Engine.runs (x : Engine) : Bool := x.powered && !x.resetting && !x.fenced && !x.hold && x.lifecycle != 3

/-- Whether an engine serves windows: it runs its management processor and is not fenced (R56, R363). -/
def State.serves (s : State) (e : EngId) : Bool := (s.eng e).runs

/-- The engines that are fenced (Table 4-8 FENCED). -/
def State.fencedMask (s : State) : BitVec 16 :=
  engineMask ((List.finRange 16).filter (fun e => (s.eng e).fenced))

/-- Whether an engine counts as fenced for partitions: fenced, or outside the view (R299). -/
def State.lost (s : State) (e : EngId) : Bool := (s.eng e).fenced || !s.joined e

/-- The members of a partition that count as fenced (Table 3-3 FENCED, R299). -/
def State.fencedOf (s : State) (p : PartId) : BitVec 16 :=
  engineMask ((maskEngines (s.members p)).filter (fun e => s.lost e))

/-- The shelf time that an engine's counter holds (R306). -/
def State.time (s : State) (e : EngId) : DWord := (s.eng e).clock.now

/-- The lowest joined engine; engine 0 without a view. -/
def State.firstJoined (s : State) : EngId := (maskEngines s.joinedMask).headD 0

/-- The shelf time the shelf stamps when no one engine is named: that of the lowest joined engine. -/
def State.shelfTime (s : State) : DWord := s.time s.firstJoined

/-- Whether a partition's window exists on an engine: the partition exists and includes the engine (R58). -/
def State.hasWindow (s : State) (e : EngId) (p : PartId) : Bool := hasEngine (s.members p) e

/-- The activation credits of an interval at a level of R209 (Table 9-3). -/
def levelBudget (l : Nat) : Nat := [500, 250, 125].getD l 125

/-! ### Free values and messages -/

/-- Draw one free value of width `w` (log 3). -/
def State.draw (s : State) (w : Nat) : BitVec w × State :=
  (Config.freeBits w s.freeCount, { s with freeCount := s.freeCount + 1 })

/-- Pick one element of a list by a free value; none from an empty list. -/
def State.pick {α : Type} (s : State) (l : List α) : Option α × State :=
  let (r, s1) := s.draw 64
  (l[r.toNat % l.length]?, s1)

/-- Send a message out of the shelf. -/
def State.send (s : State) (m : Message) : State := { s with outbox := m :: s.outbox }

/-- Write bytes into host memory (R85, R123). -/
def State.deliver (s : State) (d : Delivery) : State :=
  if d.bytes.isEmpty && d.mixed = 0 then s else { s with delivered := d :: s.delivered }

/-- Fold an update over a list of engines. -/
def State.forEngines (s : State) (es : List EngId) (f : State → EngId → State) : State := es.foldl f s

/-- Whether the shelf's campaign table is full (R188). -/
def State.campaignsFull (s : State) : Bool := 32 ≤ s.campaigns.length

/-- The lowest campaign number not in flight. -/
def State.freeCampaign (s : State) : Nat :=
  ((List.range 33).find? (fun i => !s.campaigns.any (fun c => c.id = i))).getD 33

/-- Start a campaign: it takes a number, which the manual leaves open; the model takes the lowest free one (DESIGN
CHOICE, log 18). -/
def State.startCampaign (s : State) (k : CampaignKind) (p : Option PartId) : Nat × State :=
  (s.freeCampaign, { s with campaigns := { id := s.freeCampaign, kind := k, part := p } :: s.campaigns })

/-- End a campaign. -/
def State.endCampaign (s : State) (i : Option Nat) : State :=
  { s with campaigns := s.campaigns.filter (fun c => some c.id ≠ i) }

end Sys2Proof.Machine
end

