-- ==== Sys2Proof/Machine/Interrupts.lean ====
section
/-! DEFINITION. How an event reaches a host: INT_CAUSE, coalescing, the three routes, MSI-X pending bits, the event
ring with its held entries, and the partition fault status (R63–R65, R433). -/

namespace Sys2Proof.Machine

/-- ROUTE of a vector (Table 3-4). -/
def IntCtl.routeOf (i : IntCtl) (v : Fin 32) : Nat := bits i.route[v].toNat 1 0

/-- COAL_COUNT of a vector. -/
def IntCtl.coalCount (i : IntCtl) (v : Fin 32) : Nat := bits i.route[v].toNat 15 8

/-- COAL_USEC of a vector. -/
def IntCtl.coalUsec (i : IntCtl) (v : Fin 32) : Nat := bits i.route[v].toNat 31 16

/-- The size of a ring in entries, from the sampled EVR_LOG2. -/
def Ring.size (r : Ring) : Nat := 2 ^ r.sLog2.toNat

/-- Whether the ring is full: the next entry would lie at EVR_CONS − 1 (R65). -/
def Ring.full (r : Ring) : Bool := (r.prod.toNat + 1) % r.size = r.cons.toNat % r.size

/-- Whether a queue pair of the partition on this engine is ready. -/
def Engine.qpReady (x : Engine) (p : PartId) (qpn : Nat) : Bool :=
  x.qps.any (fun q => q.num = qpn && q.part = p && q.ready)

/-- Whether the ring takes entries: enabled, not disabled, not full, its queue pair ready (R65, R79). -/
def Engine.ringTakes (x : Engine) (p : PartId) (r : Ring) : Bool :=
  r.en && !r.disabled && !r.full && x.qpReady p r.sQpn.toNat

/-- The ring entry that stands for a vector's events (R65, Table 3-6). -/
def ringEntry (v : Nat) (evs : List Event) (phase : Bool) : List Byte :=
  let e := evs.headD { source := 0, stream := 0, time := 0 }
  let src := if v = 0 && evs.any (fun x => x.source = 2) then 2 else if evs.length = 1 then e.source else 5
  let st := if evs.length = 1 && e.source = 0 then e.stream else 0
  natLe 2 v ++ natLe 1 src ++ natLe 1 (bit phase) ++ natLe 2 st ++ natLe 2 0 ++ natLe 8 e.time.toNat

/-- Add events to the entry a vector has pending; a vector without one goes last (R65). -/
def Ring.hold (r : Ring) (v : Nat) (evs : List Event) : Ring :=
  if r.held.any (fun h => h.1 = v) then
    { r with held := r.held.map (fun h => if h.1 = v then (h.1, h.2 ++ evs) else h) }
  else { r with held := r.held ++ [(v, evs)] }

/-- EVR_PROD advanced by one entry; PHASE inverts on a wrap (Table 3-6). -/
def Ring.advance (r : Ring) : Ring :=
  let n := (r.prod.toNat + 1) % r.size
  { r with prod := BitVec.ofNat 16 n, phase := if n = 0 then !r.phase else r.phase }

/-- Update the ring of a window. -/
def State.modRing (s : State) (e : EngId) (p : PartId) (f : Ring → Ring) : State :=
  s.modWin e p (fun w => { w with ints := { w.ints with ring := f w.ints.ring } })

/-- Write the oldest held entry into the ring: RDMA WRITE on EVR_QPN, then EVR_PROD advances (R65). -/
def State.ringWriteOne (s : State) (e : EngId) (p : PartId) : State :=
  let r := (s.win e p).ints.ring
  match r.held with
  | [] => s
  | (v, evs) :: rest =>
    (s.deliver { eng := e, part := p, path := .aport r.sQpn.toNat,
                 addr := r.sBase + BitVec.ofNat 64 (16 * r.prod.toNat), key := r.sRkey,
                 bytes := ringEntry v evs r.phase, mixed := 0 }).modRing e p
      (fun _ => { (r.advance) with held := rest })

/-- Write held entries, oldest vector first, while the ring takes them; `fuel` bounds the count. -/
def State.ringFlush (s : State) (e : EngId) (p : PartId) : Nat → State
  | 0 => s
  | fuel + 1 =>
    let r := (s.win e p).ints.ring
    if r.held.isEmpty || !(s.eng e).ringTakes p r then s else (s.ringWriteOne e p).ringFlush e p fuel

/-- PFLT_STATUS with a bit set; PFLT_TIME takes the time when all bits were clear (Table 3-10). -/
def State.setPflt (s : State) (e : EngId) (p : PartId) (b : Nat) : State :=
  s.modWin e p (fun w =>
    { w with pflt := setBit w.pflt b true, pfltTime := if w.pflt = 0 then s.time e else w.pfltTime })

/-- Put a vector's events on the event ring, or hold them and set EVR_OVERFLOW (R65). -/
def State.toRing (s : State) (e : EngId) (p : PartId) (v : Fin 32) (evs : List Event) : State :=
  let s1 := (s.modRing e p (fun r => r.hold v.val evs)).ringFlush e p 33
  if (s1.win e p).ints.ring.held.any (fun h => h.1 = v.val) then s1.setPflt e p 3 else s1

/-- Whether MSI-X entry `v` of a window can be sent through P-port `port` (R63). -/
def State.msixOpen (s : State) (e : EngId) (p : PartId) (port : Fin 2) (v : Fin 32) : Bool :=
  let f := (s.eng e).funcs[port][p]
  f.enable && !f.mask && !((s.win e p).ints.msix[v].getLsbD 96)

/-- Send the MSI-X message of a vector, or set its pending bit (R63). -/
def State.toMsix (s : State) (e : EngId) (p : PartId) (port : Fin 2) (v : Fin 32) : State :=
  let ent := (s.win e p).ints.msix[v]
  if s.msixOpen e p port v then
    s.send (.msix e port.val p (ent.setWidth 64) ((ent >>> 64).setWidth 32))
  else s.modWin e p (fun w => { w with ints := { w.ints with pba := setBit w.ints.pba v.val true } })

/-- Signal the events of a vector on its route (R63, Table 3-4). -/
def State.route (s : State) (e : EngId) (p : PartId) (v : Fin 32) (evs : List Event) : State :=
  match (s.win e p).ints.routeOf v with
  | 0 => s.toMsix e p 0 v
  | 1 => s.toMsix e p 1 v
  | 2 => s.toRing e p v evs
  | _ => s

/-- Set or clear the coalesced events of a vector. -/
def State.setCoal (s : State) (e : EngId) (p : PartId) (v : Fin 32) (evs : List Event) : State :=
  s.modWin e p (fun w => { w with ints := { w.ints with coal := w.ints.coal.set v.val evs v.isLt } })

/-- A vector has an event: INT_CAUSE is set whatever the route, and the event is signalled at once or coalesced (R63,
R64). Vector 0 and a vector with COAL_USEC 0 signal every event. -/
def State.signal (s : State) (e : EngId) (p : PartId) (v : Fin 32) (source stream : Nat) : State :=
  let ev : Event := { source := source, stream := stream, time := s.time e }
  let s1 := s.modWin e p (fun w => { w with ints := { w.ints with cause := setBit w.ints.cause v.val true } })
  let i := (s1.win e p).ints
  if v = 0 || i.coalUsec v = 0 then s1.route e p v [ev]
  else
    let evs := i.coal[v] ++ [ev]
    if i.coalCount v < evs.length then (s1.setCoal e p v []).route e p v evs else s1.setCoal e p v evs

/-- The VECTOR register of an NMX or DGX block has an event: vectors 2 to 31 are signalled, 0 names none (Tables 9-4, 12-6).
The SOURCE of the ring entry is a free value (log 49). -/
def State.signalBlock (s : State) (e : EngId) (p : PartId) (v : Nat) : State :=
  if h : v < 32 then
    (if 2 ≤ v then (s.draw 8).2.signal e p ⟨v, h⟩ (s.draw 8).1.toNat 0 else s)
  else s

/-- A vector-0 event: its source bit (0 reset-done, 1 fault, 2 tide) is set and vector 0 signalled (Table 3-5). -/
def State.signalV0 (s : State) (e : EngId) (p : PartId) (b : Fin 3) : State :=
  (s.modWin e p (fun w => { w with ints := { w.ints with v0 := setBit w.ints.v0 b.val true } })).signal e p 0
    (b.val + 2) 0

/-- V0_FAULT of a partition on every member engine that serves it (R155, R195). -/
def State.faultEvent (s : State) (p : PartId) : State :=
  ((maskEngines (s.members p)).filter (fun e => s.serves e)).foldl (fun s e => s.signalV0 e p 1) s

/-- A fault event of a partition on one engine: the PFLT_STATUS bit and V0_FAULT (R433). -/
def State.pfltEvent (s : State) (e : EngId) (p : PartId) (b : Nat) : State := (s.setPflt e p b).signalV0 e p 1

/-- V0_TIDE on every partition and every member engine (R258). -/
def State.tideEvent (s : State) : State :=
  s.partIds.foldl (fun s p =>
    ((maskEngines (s.members p)).filter (fun e => s.serves e)).foldl (fun s e => s.signalV0 e p 2) s) s

end Sys2Proof.Machine
end

