-- ==== Sys2Proof/Machine/Crypto.lean ====
section
/-! DEFINITION. The digest and cipher algorithms that the manual takes from other standards: SHA-2 (FIPS 180-4), SHA-3
(FIPS 202), HMAC (FIPS 198-1), AES-256, AES-256-XTS (IEEE 1619), AES key wrap with padding (RFC 5649) and ECDSA P-384
verification (FIPS 186-5). The manual names them (R226, R261, R391, R396, R409) and does not restate them: PRESUMED,
log 17. -/

namespace Sys2Proof.Machine

/-! ### SHA-2 -/

def sha256K : List (BitVec 32) :=
    [0x428A2F98, 0x71374491, 0xB5C0FBCF, 0xE9B5DBA5, 0x3956C25B, 0x59F111F1, 0x923F82A4, 0xAB1C5ED5] ++
    [0xD807AA98, 0x12835B01, 0x243185BE, 0x550C7DC3, 0x72BE5D74, 0x80DEB1FE, 0x9BDC06A7, 0xC19BF174] ++
    [0xE49B69C1, 0xEFBE4786, 0x0FC19DC6, 0x240CA1CC, 0x2DE92C6F, 0x4A7484AA, 0x5CB0A9DC, 0x76F988DA] ++
    [0x983E5152, 0xA831C66D, 0xB00327C8, 0xBF597FC7, 0xC6E00BF3, 0xD5A79147, 0x06CA6351, 0x14292967] ++
    [0x27B70A85, 0x2E1B2138, 0x4D2C6DFC, 0x53380D13, 0x650A7354, 0x766A0ABB, 0x81C2C92E, 0x92722C85] ++
    [0xA2BFE8A1, 0xA81A664B, 0xC24B8B70, 0xC76C51A3, 0xD192E819, 0xD6990624, 0xF40E3585, 0x106AA070] ++
    [0x19A4C116, 0x1E376C08, 0x2748774C, 0x34B0BCB5, 0x391C0CB3, 0x4ED8AA4A, 0x5B9CCA4F, 0x682E6FF3] ++
    [0x748F82EE, 0x78A5636F, 0x84C87814, 0x8CC70208, 0x90BEFFFA, 0xA4506CEB, 0xBEF9A3F7, 0xC67178F2]

def sha256Init : List (BitVec 32) :=
    [0x6A09E667, 0xBB67AE85, 0x3C6EF372, 0xA54FF53A, 0x510E527F, 0x9B05688C, 0x1F83D9AB, 0x5BE0CD19]

def sha512K : List (BitVec 64) :=
    [0x428A2F98D728AE22, 0x7137449123EF65CD, 0xB5C0FBCFEC4D3B2F, 0xE9B5DBA58189DBBC] ++
    [0x3956C25BF348B538, 0x59F111F1B605D019, 0x923F82A4AF194F9B, 0xAB1C5ED5DA6D8118] ++
    [0xD807AA98A3030242, 0x12835B0145706FBE, 0x243185BE4EE4B28C, 0x550C7DC3D5FFB4E2] ++
    [0x72BE5D74F27B896F, 0x80DEB1FE3B1696B1, 0x9BDC06A725C71235, 0xC19BF174CF692694] ++
    [0xE49B69C19EF14AD2, 0xEFBE4786384F25E3, 0x0FC19DC68B8CD5B5, 0x240CA1CC77AC9C65] ++
    [0x2DE92C6F592B0275, 0x4A7484AA6EA6E483, 0x5CB0A9DCBD41FBD4, 0x76F988DA831153B5] ++
    [0x983E5152EE66DFAB, 0xA831C66D2DB43210, 0xB00327C898FB213F, 0xBF597FC7BEEF0EE4] ++
    [0xC6E00BF33DA88FC2, 0xD5A79147930AA725, 0x06CA6351E003826F, 0x142929670A0E6E70] ++
    [0x27B70A8546D22FFC, 0x2E1B21385C26C926, 0x4D2C6DFC5AC42AED, 0x53380D139D95B3DF] ++
    [0x650A73548BAF63DE, 0x766A0ABB3C77B2A8, 0x81C2C92E47EDAEE6, 0x92722C851482353B] ++
    [0xA2BFE8A14CF10364, 0xA81A664BBC423001, 0xC24B8B70D0F89791, 0xC76C51A30654BE30] ++
    [0xD192E819D6EF5218, 0xD69906245565A910, 0xF40E35855771202A, 0x106AA07032BBD1B8] ++
    [0x19A4C116B8D2D0C8, 0x1E376C085141AB53, 0x2748774CDF8EEB99, 0x34B0BCB5E19B48A8] ++
    [0x391C0CB3C5C95A63, 0x4ED8AA4AE3418ACB, 0x5B9CCA4F7763E373, 0x682E6FF3D6B2B8A3] ++
    [0x748F82EE5DEFB2FC, 0x78A5636F43172F60, 0x84C87814A1F0AB72, 0x8CC702081A6439EC] ++
    [0x90BEFFFA23631E28, 0xA4506CEBDE82BDE9, 0xBEF9A3F7B2C67915, 0xC67178F2E372532B] ++
    [0xCA273ECEEA26619C, 0xD186B8C721C0C207, 0xEADA7DD6CDE0EB1E, 0xF57D4F7FEE6ED178] ++
    [0x06F067AA72176FBA, 0x0A637DC5A2C898A6, 0x113F9804BEF90DAE, 0x1B710B35131C471B] ++
    [0x28DB77F523047D84, 0x32CAAB7B40C72493, 0x3C9EBE0A15C9BEBC, 0x431D67C49C100D4C] ++
    [0x4CC5D4BECB3E42B6, 0x597F299CFC657E2A, 0x5FCB6FAB3AD6FAEC, 0x6C44198C4A475817]

def sha512Init : List (BitVec 64) :=
    [0x6A09E667F3BCC908, 0xBB67AE8584CAA73B, 0x3C6EF372FE94F82B, 0xA54FF53A5F1D36F1] ++
    [0x510E527FADE682D1, 0x9B05688C2B3E6C1F, 0x1F83D9ABFB41BD6B, 0x5BE0CD19137E2179]

def sha384Init : List (BitVec 64) :=
    [0xCBBB9D5DC1059ED8, 0x629A292A367CD507, 0x9159015A3070DD17, 0x152FECD8F70E5939] ++
    [0x67332667FFC00B31, 0x8EB44A8768581511, 0xDB0C2E0D64F98FA7, 0x47B5481DBEFA4FA4]

/-- The rotation amounts of one SHA-2 width: Σ0, Σ1, σ0, σ1. -/
structure ShaRot where
  b0 : Nat × Nat × Nat
  b1 : Nat × Nat × Nat
  s0 : Nat × Nat × Nat
  s1 : Nat × Nat × Nat

def sha256Rot : ShaRot := ⟨(2, 13, 22), (6, 11, 25), (7, 18, 3), (17, 19, 10)⟩

def sha512Rot : ShaRot := ⟨(28, 34, 39), (14, 18, 41), (1, 8, 7), (19, 61, 6)⟩

def shaBig {w : Nat} (r : Nat × Nat × Nat) (x : BitVec w) : BitVec w :=
  x.rotateRight r.1 ^^^ x.rotateRight r.2.1 ^^^ x.rotateRight r.2.2

def shaSmall {w : Nat} (r : Nat × Nat × Nat) (x : BitVec w) : BitVec w :=
  x.rotateRight r.1 ^^^ x.rotateRight r.2.1 ^^^ (x >>> r.2.2)

/-- The message schedule, newest word first, until it holds `n` words. -/
def shaSchedule {w : Nat} (r : ShaRot) : Nat → List (BitVec w) → List (BitVec w)
  | 0, ws => ws
  | n + 1, ws =>
    shaSchedule r n ((shaSmall r.s1 (ws.getD 1 0) + ws.getD 6 0 + shaSmall r.s0 (ws.getD 14 0) + ws.getD 15 0) :: ws)

/-- One round on the eight working variables. -/
def shaRound {w : Nat} (r : ShaRot) (v : List (BitVec w)) (k : BitVec w × BitVec w) : List (BitVec w) :=
  match v with
  | [a, b, c, d, e, f, g, h] =>
    let t1 := h + shaBig r.b1 e + ((e &&& f) ^^^ (~~~e &&& g)) + k.1 + k.2
    let t2 := shaBig r.b0 a + ((a &&& b) ^^^ (a &&& c) ^^^ (b &&& c))
    [t1 + t2, a, b, c, d + t1, e, f, g]
  | _ => v

/-- One block compressed into the chaining value. -/
def shaBlock {w : Nat} (r : ShaRot) (ks : List (BitVec w)) (h : List (BitVec w)) (blk : List Byte) : List (BitVec w) :=
  let ws := (chunks (w / 8) blk).map (fun c => BitVec.ofNat w (beNat c))
  let sched := (shaSchedule r (ks.length - 16) ws.reverse).reverse
  List.zipWith (· + ·) h ((ks.zip sched).foldl (shaRound r) h)

/-- Whole blocks compressed in order. -/
def shaBlocks {w : Nat} (r : ShaRot) (ks : List (BitVec w)) (h : List (BitVec w)) (bs : List Byte) : List (BitVec w) :=
  (chunks (w * 2) bs).foldl (shaBlock r ks) h

/-- The FIPS 180-4 padding of a message of `n` bytes in blocks of `blk` bytes. -/
def shaPad (blk n : Nat) : List Byte :=
  let lenBytes := blk / 8
  let z := (blk - (n + 1 + lenBytes) % blk) % blk
  0x80 :: zeros z ++ natBe lenBytes (8 * n)

def shaBytes {w : Nat} (h : List (BitVec w)) : List Byte := h.flatMap (fun x => natBe (w / 8) x.toNat)

def sha256 (m : List Byte) : List Byte :=
  shaBytes (shaBlocks sha256Rot sha256K sha256Init (m ++ shaPad 64 m.length))

def sha512 (m : List Byte) : List Byte :=
  shaBytes (shaBlocks sha512Rot sha512K sha512Init (m ++ shaPad 128 m.length))

def sha384 (m : List Byte) : List Byte :=
  (shaBytes (shaBlocks sha512Rot sha512K sha384Init (m ++ shaPad 128 m.length))).take 48

/-! ### SHA3-256 -/

def keccakRc : List (BitVec 64) :=
    [0x0000000000000001, 0x0000000000008082, 0x800000000000808A, 0x8000000080008000] ++
    [0x000000000000808B, 0x0000000080000001, 0x8000000080008081, 0x8000000000008009] ++
    [0x000000000000008A, 0x0000000000000088, 0x0000000080008009, 0x000000008000000A] ++
    [0x000000008000808B, 0x800000000000008B, 0x8000000000008089, 0x8000000000008003] ++
    [0x8000000000008002, 0x8000000000000080, 0x000000000000800A, 0x800000008000000A] ++
    [0x8000000080008081, 0x8000000000008080, 0x0000000080000001, 0x8000000080008008]

def keccakRot : List Nat := [0, 1, 62, 28, 27, 36, 44, 6, 55, 20, 3, 10, 43, 25, 39, 41, 45, 15, 21, 8, 18, 2, 61, 56, 14]

/-- One Keccak-f[1600] round on 25 lanes, lane x + 5y. -/
def keccakRound (a : List (BitVec 64)) (rc : BitVec 64) : List (BitVec 64) :=
  let c := (List.range 5).map (fun x => (List.range 5).foldl (fun z y => z ^^^ a.getD (x + 5 * y) 0) 0)
  let d := (List.range 5).map (fun x => c.getD ((x + 4) % 5) 0 ^^^ (c.getD ((x + 1) % 5) 0).rotateLeft 1)
  let b := (List.range 25).map (fun i =>
    -- lane (x, y) of the result comes from lane (x', y') with x = y', y = 2x' + 3y'
    let x := i % 5
    let y := i / 5
    let x' := (x + 3 * y) % 5
    let j := x' + 5 * x
    (a.getD j 0 ^^^ d.getD x' 0).rotateLeft (keccakRot.getD j 0))
  (List.range 25).map (fun i =>
    let x := i % 5
    let y := 5 * (i / 5)
    let v := b.getD i 0 ^^^ (~~~(b.getD ((x + 1) % 5 + y) 0) &&& b.getD ((x + 2) % 5 + y) 0)
    if i = 0 then v ^^^ rc else v)

def keccakF (a : List (BitVec 64)) : List (BitVec 64) := keccakRc.foldl keccakRound a

/-- Absorb one block of 136 bytes. -/
def sha3Block (a : List (BitVec 64)) (blk : List Byte) : List (BitVec 64) :=
  keccakF ((List.range 25).map (fun i => a.getD i 0 ^^^ BitVec.ofNat 64 (field blk (8 * i) 8)))

/-- The FIPS 202 domain bits and pad10*1 after `n` bytes. -/
def sha3Pad (n : Nat) : List Byte :=
  let k := 136 - n % 136
  if k = 1 then [0x86] else 0x06 :: zeros (k - 2) ++ [0x80]

def sha3Init : List (BitVec 64) := List.replicate 25 0

def sha3Bytes (a : List (BitVec 64)) : List Byte := a.flatMap (fun x => natLe 8 x.toNat)

def sha3 (m : List Byte) : List Byte :=
  (sha3Bytes ((chunks 136 (m ++ sha3Pad m.length)).foldl sha3Block sha3Init)).take 32

/-! ### HMAC -/

/-- HMAC over a hash of block size `blk` (FIPS 198-1). -/
def hmac (hash : List Byte → List Byte) (blk : Nat) (key m : List Byte) : List Byte :=
  let k := padTo blk (if blk < key.length then hash key else key)
  hash (k.map (· ^^^ 0x5C) ++ hash (k.map (· ^^^ 0x36) ++ m))

def hmacSha384 (key m : List Byte) : List Byte := hmac sha384 128 key m

/-! ### AES-256 -/

def aesSbox : List (BitVec 8) :=
    [0x63, 0x7C, 0x77, 0x7B, 0xF2, 0x6B, 0x6F, 0xC5, 0x30, 0x01, 0x67, 0x2B, 0xFE, 0xD7, 0xAB, 0x76] ++
    [0xCA, 0x82, 0xC9, 0x7D, 0xFA, 0x59, 0x47, 0xF0, 0xAD, 0xD4, 0xA2, 0xAF, 0x9C, 0xA4, 0x72, 0xC0] ++
    [0xB7, 0xFD, 0x93, 0x26, 0x36, 0x3F, 0xF7, 0xCC, 0x34, 0xA5, 0xE5, 0xF1, 0x71, 0xD8, 0x31, 0x15] ++
    [0x04, 0xC7, 0x23, 0xC3, 0x18, 0x96, 0x05, 0x9A, 0x07, 0x12, 0x80, 0xE2, 0xEB, 0x27, 0xB2, 0x75] ++
    [0x09, 0x83, 0x2C, 0x1A, 0x1B, 0x6E, 0x5A, 0xA0, 0x52, 0x3B, 0xD6, 0xB3, 0x29, 0xE3, 0x2F, 0x84] ++
    [0x53, 0xD1, 0x00, 0xED, 0x20, 0xFC, 0xB1, 0x5B, 0x6A, 0xCB, 0xBE, 0x39, 0x4A, 0x4C, 0x58, 0xCF] ++
    [0xD0, 0xEF, 0xAA, 0xFB, 0x43, 0x4D, 0x33, 0x85, 0x45, 0xF9, 0x02, 0x7F, 0x50, 0x3C, 0x9F, 0xA8] ++
    [0x51, 0xA3, 0x40, 0x8F, 0x92, 0x9D, 0x38, 0xF5, 0xBC, 0xB6, 0xDA, 0x21, 0x10, 0xFF, 0xF3, 0xD2] ++
    [0xCD, 0x0C, 0x13, 0xEC, 0x5F, 0x97, 0x44, 0x17, 0xC4, 0xA7, 0x7E, 0x3D, 0x64, 0x5D, 0x19, 0x73] ++
    [0x60, 0x81, 0x4F, 0xDC, 0x22, 0x2A, 0x90, 0x88, 0x46, 0xEE, 0xB8, 0x14, 0xDE, 0x5E, 0x0B, 0xDB] ++
    [0xE0, 0x32, 0x3A, 0x0A, 0x49, 0x06, 0x24, 0x5C, 0xC2, 0xD3, 0xAC, 0x62, 0x91, 0x95, 0xE4, 0x79] ++
    [0xE7, 0xC8, 0x37, 0x6D, 0x8D, 0xD5, 0x4E, 0xA9, 0x6C, 0x56, 0xF4, 0xEA, 0x65, 0x7A, 0xAE, 0x08] ++
    [0xBA, 0x78, 0x25, 0x2E, 0x1C, 0xA6, 0xB4, 0xC6, 0xE8, 0xDD, 0x74, 0x1F, 0x4B, 0xBD, 0x8B, 0x8A] ++
    [0x70, 0x3E, 0xB5, 0x66, 0x48, 0x03, 0xF6, 0x0E, 0x61, 0x35, 0x57, 0xB9, 0x86, 0xC1, 0x1D, 0x9E] ++
    [0xE1, 0xF8, 0x98, 0x11, 0x69, 0xD9, 0x8E, 0x94, 0x9B, 0x1E, 0x87, 0xE9, 0xCE, 0x55, 0x28, 0xDF] ++
    [0x8C, 0xA1, 0x89, 0x0D, 0xBF, 0xE6, 0x42, 0x68, 0x41, 0x99, 0x2D, 0x0F, 0xB0, 0x54, 0xBB, 0x16]

def aesSub (b : Byte) : Byte := aesSbox.getD b.toNat 0

/-- The place of a byte in the substitution table: the inverse substitution. -/
def aesInvSub (b : Byte) : Byte := BitVec.ofNat 8 (aesSbox.findIdx (fun x => x = b))

/-- Doubling in the AES field. -/
def xtime (b : Byte) : Byte := (b <<< 1) ^^^ (if b.getLsbD 7 then 0x1B else 0)

def aesMul (n : Nat) (b : Byte) : Byte :=
  let b2 := xtime b
  let b4 := xtime b2
  let b8 := xtime b4
  (if natBit n 0 then b else 0) ^^^ (if natBit n 1 then b2 else 0) ^^^ (if natBit n 2 then b4 else 0) ^^^
    (if natBit n 3 then b8 else 0)

/-- Words of the AES-256 key schedule, newest first, until `n` more are made; `i` is the index of the next. -/
def aesExpand : (n i : Nat) → (rcon : Byte) → List (List Byte) → List (List Byte)
  | 0, _, _, ws => ws
  | n + 1, i, rcon, ws =>
    let prev := ws.getD 0 []
    let t := if i % 8 = 0 then
        (match prev with
        | [a, b, c, d] => [aesSub b ^^^ rcon, aesSub c, aesSub d, aesSub a]
        | _ => prev)
      else if i % 8 = 4 then prev.map aesSub else prev
    aesExpand n (i + 1) (if i % 8 = 0 then xtime rcon else rcon) (xorBytes (ws.getD 7 []) t :: ws)

/-- The fifteen round keys of 16 bytes. -/
def aesKeys (key : List Byte) : List (List Byte) :=
  chunks 16 ((aesExpand 52 8 1 (chunks 4 (padTo 32 key)).reverse).reverse.flatten)

/-- MixColumns with a coefficient row. -/
def aesMix (row : List Nat) (st : List Byte) : List Byte :=
  (chunks 4 st).flatMap (fun c => (List.range 4).map (fun r =>
    (List.range 4).foldl (fun z i => z ^^^ aesMul (row.getD ((i + 4 - r) % 4) 0) (c.getD i 0)) 0))

/-- ShiftRows by `k` columns per row (1 forward, 3 back). -/
def aesShift (k : Nat) (st : List Byte) : List Byte :=
  (List.range 16).map (fun i => st.getD ((i + 4 * k * (i % 4)) % 16) 0)

def aesEncrypt (keys : List (List Byte)) (blk : List Byte) : List Byte :=
  let st0 := xorBytes blk (keys.getD 0 [])
  let st := (List.range 13).foldl (fun st i =>
    xorBytes (aesMix [2, 3, 1, 1] (aesShift 1 (st.map aesSub))) (keys.getD (i + 1) [])) st0
  xorBytes (aesShift 1 (st.map aesSub)) (keys.getD 14 [])

def aesDecrypt (keys : List (List Byte)) (blk : List Byte) : List Byte :=
  let st0 := (aesShift 3 (xorBytes blk (keys.getD 14 []))).map aesInvSub
  let st := (List.range 13).foldl (fun st i =>
    (aesShift 3 (aesMix [14, 11, 13, 9] (xorBytes st (keys.getD (13 - i) [])))).map aesInvSub) st0
  xorBytes st (keys.getD 0 [])

/-! ### XTS -/

/-- The tweak multiplied by α (IEEE 1619). -/
def xtsNext (t : List Byte) : List Byte :=
  let n := leNat t
  natLe 16 (Nat.xor (2 * n % 2 ^ 128) (if natBit n 127 then 0x87 else 0))

def xtsBlocks (f : List Byte → List Byte) : List Byte → List (List Byte) → List Byte
  | _, [] => []
  | t, b :: bs => xorBytes (f (xorBytes b t)) t ++ xtsBlocks f (xtsNext t) bs

/-- One data unit of whole 16-byte blocks; `key` is the 64-byte data key, `tweak` 16 bytes (R226). -/
def xtsUnit (enc : Bool) (key tweak data : List Byte) : List Byte :=
  let k1 := aesKeys (key.take 32)
  let t := aesEncrypt (aesKeys (key.drop 32)) tweak
  xtsBlocks (if enc then aesEncrypt k1 else aesDecrypt k1) t (chunks 16 data)

/-! ### Key wrap with padding (RFC 5649) -/

/-- Six rounds of the wrap over the semi-blocks. -/
def wrapRounds (keys : List (List Byte)) (a : List Byte) (r : List (List Byte)) : List Byte × List (List Byte) :=
  let n := r.length
  (List.range (6 * n)).foldl (fun (st : List Byte × List (List Byte)) k =>
    let b := aesEncrypt keys (st.1 ++ st.2.getD (k % n) [])
    (xorBytes (b.take 8) (natBe 8 (k + 1)), st.2.set (k % n) (b.drop 8))) (a, r)

def unwrapRounds (keys : List (List Byte)) (a : List Byte) (r : List (List Byte)) : List Byte × List (List Byte) :=
  let n := r.length
  ((List.range (6 * n)).reverse).foldl (fun (st : List Byte × List (List Byte)) k =>
    let b := aesDecrypt keys (xorBytes st.1 (natBe 8 (k + 1)) ++ st.2.getD (k % n) [])
    (b.take 8, st.2.set (k % n) (b.drop 8))) (a, r)

/-- The alternative initial value for a message of `n` bytes. -/
def kwpAiv (n : Nat) : List Byte := [0xA6, 0x59, 0x59, 0xA6] ++ natBe 4 n

def kwpWrap (key m : List Byte) : List Byte :=
  let keys := aesKeys key
  let p := padTo (roundUp m.length 8) m
  if p.length ≤ 8 then aesEncrypt keys (kwpAiv m.length ++ p)
  else
    let (a, r) := wrapRounds keys (kwpAiv m.length) (chunks 8 p)
    a ++ r.flatten

/-- The message that a wrapped string holds; none when the integrity check fails. -/
def kwpUnwrap (key c : List Byte) : Option (List Byte) :=
  let keys := aesKeys key
  if c.length < 16 || c.length % 8 ≠ 0 then none
  else
    let (a, p) := if c.length = 16 then
        let b := aesDecrypt keys c
        (b.take 8, b.drop 8)
      else
        let (a, r) := unwrapRounds keys (c.take 8) (chunks 8 (c.drop 8))
        (a, r.flatten)
    let n := beNat (a.drop 4)
    if a.take 4 = [0xA6, 0x59, 0x59, 0xA6] && p.length < n + 8 && n ≤ p.length && (p.drop n).all (fun b => b = 0) then
      some (p.take n)
    else none

/-! ### ECDSA P-384 -/

def p384P : Nat := 2 ^ 384 - 2 ^ 128 - 2 ^ 96 + 2 ^ 32 - 1

def p384N : Nat := 0xFFFFFFFFFFFFFFFFFFFFFFFFFFFFFFFFFFFFFFFFFFFFFFFFC7634D81F4372DDF581A0DB248B0A77AECEC196ACCC52973

def p384B : Nat := 0xB3312FA7E23EE7E4988E056BE3F82D19181D9C6EFE8141120314088F5013875AC656398D8A2ED19D2A85C8EDD3EC2AEF

def p384Gx : Nat := 0xAA87CA22BE8B05378EB1C71EF320AD746E1D3B628BA79B9859F741E082542A385502F25DBF55296C3A545E3872760AB7

def p384Gy : Nat := 0x3617DE4A96262C6F5D9E98BF9292DC29F8F41DBD289A147CE9DA3113B5F0B8C00A60B1CE1D7E819D7A431D7C90EA0E5F

/-- a^e mod m, over the low `n` bits of e. -/
def powMod (m : Nat) : (n : Nat) → (a e : Nat) → Nat
  | 0, _, _ => 1 % m
  | n + 1, a, e =>
    let r := powMod m n (a * a % m) (e / 2)
    if e % 2 = 1 then a * r % m else r

/-- The inverse modulo a prime of at most 384 bits. -/
def invMod (m a : Nat) : Nat := powMod m 384 (a % m) (m - 2)

/-- A point of the curve; none is the point at infinity. -/
abbrev Point := Option (Nat × Nat)

def ecAdd : Point → Point → Point
  | none, q => q
  | p, none => p
  | some (x1, y1), some (x2, y2) =>
    let P := p384P
    if x1 = x2 && (y1 + y2) % P = 0 then none
    else
      let l := if x1 = x2 then (3 * x1 * x1 + (P - 3)) * invMod P (2 * y1) % P
        else (y2 + P - y1) * invMod P (x2 + P - x1) % P
      let x3 := (l * l + 2 * P - x1 - x2) % P
      some (x3, (l * (x1 + P - x3) + P - y1) % P)

/-- k·p over the low `n` bits of k. -/
def ecMul : (n k : Nat) → Point → Point
  | 0, _, _ => none
  | n + 1, k, p =>
    let r := ecMul n (k / 2) (ecAdd p p)
    if k % 2 = 1 then ecAdd p r else r

/-- ECDSA P-384 verification over SHA-384: `pub` is X then Y, `sig` r then s, 48 bytes each, big-endian. -/
def ecdsaVerify (pub sig msg : List Byte) : Bool :=
  let x := beNat (pub.take 48)
  let y := beNat (slice pub 48 48)
  let r := beNat (sig.take 48)
  let t := beNat (slice sig 48 48)
  let onCurve := x < p384P && y < p384P && y * y % p384P = (x * x * x + (p384P - 3) * x + p384B) % p384P
  if !onCurve || r = 0 || t = 0 || p384N ≤ r || p384N ≤ t then false
  else
    let w := invMod p384N t
    let z := beNat (sha384 msg)
    match ecAdd (ecMul 384 (z * w % p384N) (some (p384Gx, p384Gy))) (ecMul 384 (r * w % p384N) (some (x, y))) with
    | some (vx, _) => vx % p384N = r
    | none => false

end Sys2Proof.Machine
end

