-- ==== Sys2Proof/Machine/Codec.lean ====
section
/-! DEFINITION. Compression (R240–R246): c-blocks of the methods RAW, EXP, ZSK and EXZ, the code of R243, the encoder's
choice of R244, the decoder's checks of Table 11-4; and CRC-32C. Also the parity arithmetic of R276 and R277. -/

namespace Sys2Proof.Machine

/-! ### CRC-32C -/

/-- One bit of the reflected CRC-32C register (polynomial 0x1EDC6F41). -/
def crcBit (c : Word) : Word := if c.getLsbD 0 then (c >>> 1) ^^^ 0x82F63B78#32 else c >>> 1

/-- One byte into the CRC register. -/
def crcByte (c : Word) (b : Byte) : Word :=
  crcBit (crcBit (crcBit (crcBit (crcBit (crcBit (crcBit (crcBit (c ^^^ b.setWidth 32))))))))

/-- CRC-32C of a byte string (Table 11-1, R227, Table 20-5). -/
def crc32c (bs : List Byte) : Word := ~~~ (bs.foldl crcByte 0xFFFFFFFF#32)

/-! ### Shelf parity (R276, R277) -/

/-- Multiplication in GF(2^8) with 0x11D (R276). -/
def gmul (a b : Byte) : Byte :=
  go 8 a b 0
where
  /-- The eight rounds of `gmul`. -/
  go : Nat → Byte → Byte → Byte → Byte
    | 0, _, _, p => p
    | n + 1, a, b, p =>
      let p := if b.getLsbD 0 then p ^^^ a else p
      let a' := a <<< 1
      go n (if a.getLsbD 7 then a' ^^^ 0x1D#8 else a') (b >>> 1) p

/-- 2 multiplied by itself `i` times (R276). -/
def gpow : Nat → Byte
  | 0 => 1
  | i + 1 => gmul (gpow i) 2

/-- The inverse in GF(2^8): the 254th power. -/
def ginv (a : Byte) : Byte := (List.range 253).foldl (fun x _ => gmul x a) a

/-- a ÷ b (R277). -/
def gdiv (a b : Byte) : Byte := gmul a (ginv b)

/-- Parity 0 of one byte position (R276). -/
def parity0 (d : List Byte) : Byte := d.foldl (fun x y => x ^^^ y) 0

/-- Parity 1 of one byte position (R276). -/
def parity1 (d : List Byte) : Byte := d.zipIdx.foldl (fun x (y, i) => x ^^^ gmul (gpow i) y) 0

/-- The data bytes of one position, recovered from what survives (R277): `d` the data bytes with none for an erasure,
`p0` and `p1` the parity bytes where they exist and survive. None when the group has more erasures than the parity
can answer for. -/
def recover (d : List (Option Byte)) (p0 p1 : Option Byte) : Option (List Byte) :=
  let lost := (d.zipIdx.filter (fun (x, _) => x.isNone)).map Prod.snd
  let known := d.map (fun x => x.getD 0)
  match lost with
  | [] => some known
  | [x] =>
    match p0, p1 with
    | some p, _ => some (known.set x (p ^^^ parity0 known))
    | none, some q => some (known.set x (gdiv (q ^^^ parity1 known) (gpow x)))
    | none, none => none
  | [x, y] =>
    match p0, p1 with
    | some p, some q =>
      let A := p ^^^ parity0 known
      let B := q ^^^ parity1 known
      let dx := gdiv (B ^^^ gmul (gpow y) A) (gpow x ^^^ gpow y)
      some ((known.set x dx).set y (A ^^^ dx))
    | _, _ => none
  | _ => none

/-! ### C-blocks -/

/-- Methods of Table 11-1. -/
inductive Method where
  | raw | exp | zsk | exz
  deriving DecidableEq, Repr

def methodCode : Method → Nat
  | .raw => 0
  | .exp => 1
  | .zsk => 2
  | .exz => 3

def methodOf (n : Nat) : Option Method :=
  match n with
  | 0 => some .raw
  | 1 => some .exp
  | 2 => some .zsk
  | 3 => some .exz
  | _ => none

/-- Element formats of Table 11-3: width in bytes, exponent bits, mantissa bits. -/
structure ElemFmt where
  width : Nat
  exp   : Nat
  man   : Nat
  deriving DecidableEq, Repr

/-- Element format of an ELEM byte (Table 11-3). -/
def elemFmt (code : Nat) : Option ElemFmt :=
  match code with
  | 0 => some ⟨4, 8, 23⟩
  | 1 => some ⟨2, 8, 7⟩
  | 2 => some ⟨2, 5, 10⟩
  | 3 => some ⟨1, 4, 3⟩
  | 4 => some ⟨1, 5, 2⟩
  | _ => none

/-- The exponent symbol of an element (R242). -/
def symbolOf (f : ElemFmt) (x : Nat) : Nat := (x >>> f.man) % 2 ^ f.exp

/-- The mantissa of an element. -/
def mantissaOf (f : ElemFmt) (x : Nat) : Nat := x % 2 ^ f.man

/-- The sign of an element: its most significant bit (Table 11-3). -/
def signOf (f : ElemFmt) (x : Nat) : Bool := natBit x (8 * f.width - 1)

/-- The elements of a byte string, little-endian. -/
def elemsOf (f : ElemFmt) (bs : List Byte) : List Nat := (chunks f.width bs).map leNat

/-- Bits packed least significant first into bytes (R241); the last byte is filled with zero bits. -/
def packBits (bs : List Bool) : List Byte :=
  (go bs.length bs)
where
  /-- Fuelled packing by eight. -/
  go : Nat → List Bool → List Byte
    | 0, _ => []
    | fuel + 1, xs =>
      if xs.isEmpty then []
      else BitVec.ofNat 8 ((xs.take 8).zipIdx.foldl (fun n (b, i) => n + bit b * 2 ^ i) 0) :: go fuel (xs.drop 8)

/-- The bits of a byte string, least significant first (R241). -/
def unpackBits (bs : List Byte) : List Bool := bs.flatMap (fun b => (List.range 8).map (fun i => b.getLsbD i))

/-- A section padded with zeros to a multiple of 8 bytes (R240). -/
def pad8 (bs : List Byte) : List Byte := bs ++ zeros (roundUp bs.length 8 - bs.length)

/-! ### The code of R243 -/

/-- A node of the code tree of R243. -/
inductive CodeTree where
  | leaf (s : Nat)
  | node (l r : CodeTree)
  deriving DecidableEq, Repr

/-- The depth of each leaf of a code tree. -/
def treeDepths : CodeTree → Nat → List (Nat × Nat)
  | .leaf s, d => [(s, d)]
  | .node l r, d => treeDepths l (d + 1) ++ treeDepths r (d + 1)

/-- The entry of least (weight, seq) of a queue, and the rest. -/
def takeLeast (q : List (Nat × Nat × CodeTree)) : Option ((Nat × Nat × CodeTree) × List (Nat × Nat × CodeTree)) :=
  match q with
  | [] => none
  | x :: rest =>
    let m := rest.foldl (fun (m : Nat × Nat × CodeTree) y =>
      if y.1 < m.1 ∨ (y.1 = m.1 ∧ y.2.1 < m.2.1) then y else m) x
    some (m, q.filter (fun y => y.2.1 ≠ m.2.1))

/-- The merges of R243: `base` is 2^E, `n` the count of merges done. -/
def mergeCodes (base : Nat) : Nat → Nat → List (Nat × Nat × CodeTree) → List (Nat × Nat × CodeTree)
  | 0, _, q => q
  | fuel + 1, n, q =>
    if q.length ≤ 1 then q
    else
      match takeLeast q with
      | none => q
      | some (a, q1) =>
        match takeLeast q1 with
        | none => q
        | some (b, q2) =>
          mergeCodes base fuel (n + 1) (q2 ++ [(a.1 + b.1, base + n, .node a.2.2 b.2.2)])

/-- The Kraft sum in units of 2^−12. -/
def kraft (len : List Nat) : Nat := (len.map (fun l => if l = 0 then 0 else 2 ^ (12 - l))).sum

/-- The symbol that `better` prefers among those allowed, with its index. -/
def chooseSymbol (ok : Nat → Bool) (better : Nat → Nat → Bool) (n : Nat) : Option Nat :=
  (List.range n).foldl (fun r s => if ok s then
    (match r with | none => some s | some t => if better s t then some s else some t) else r) none

/-- Lengthening while the Kraft sum is above 4096 (R243). -/
def lengthen (count : List Nat) : Nat → List Nat → List Nat
  | 0, len => len
  | fuel + 1, len =>
    if kraft len ≤ 4096 then len
    else
      let l := fun s => len.getD s 0
      let c := fun s => count.getD s 0
      match chooseSymbol (fun s => 0 < c s && l s < 12)
        (fun s t => l t < l s || (l s = l t && (c s < c t || (c s = c t && t < s)))) len.length with
      | none => len
      | some s => lengthen count fuel (len.set s (l s + 1))

/-- Shortening while the Kraft sum is below 4096 (R243). -/
def shorten (count : List Nat) : Nat → List Nat → List Nat
  | 0, len => len
  | fuel + 1, len =>
    if 4096 ≤ kraft len then len
    else
      let l := fun s => len.getD s 0
      let c := fun s => count.getD s 0
      match chooseSymbol (fun s => 0 < c s)
        (fun s t => l t < l s || (l s = l t && (c t < c s || (c s = c t && s < t)))) len.length with
      | none => len
      | some s => shorten count fuel (len.set s (l s - 1))

/-- `code_lengths` of R243 for 2^E symbol counts. -/
def codeLengths (count : List Nat) : List Nat :=
  let base := count.length
  let present := (List.range base).filter (fun s => 0 < count.getD s 0)
  match present with
  | [] => List.replicate base 0
  | [s] => ((List.replicate base 0).set s 1).set (s ^^^ 1) 1
  | _ =>
    let q := present.map (fun s => (count.getD s 0, s, CodeTree.leaf s))
    let depths := match mergeCodes base base 0 q with
      | (_, _, t) :: _ => treeDepths t 0
      | [] => []
    let len := depths.foldl (fun (ls : List Nat) (s, d) => ls.set s (min d 12)) (List.replicate base 0)
    shorten count (4096 * base) (lengthen count (12 * base) len)

/-- `canonical` of R243: (symbol, length, code word) in ascending (length, symbol). -/
def canonicalCodes (len : List Nat) : List (Nat × Nat × Nat) :=
  let order := (List.range 13).flatMap (fun l =>
    if l = 0 then [] else ((List.range len.length).filter (fun s => len.getD s 0 = l)).map (fun s => (s, l)))
  (order.foldl (fun (st : Nat × Nat × List (Nat × Nat × Nat)) (s, l) =>
    let code := st.1 <<< (l - st.2.1)
    (code + 1, l, st.2.2 ++ [(s, l, code)])) (0, 0, [])).2.2

/-- The bits of a code word, most significant first (R241). -/
def codeBits (l code : Nat) : List Bool := (List.range l).map (fun i => natBit code (l - 1 - i))

/-! ### Encoding (R240, R244) -/

/-- The c-block header of Table 11-1. -/
def cblockHeader (m : Method) (elem rawLen codedLen : Nat) (crc : Word) (nGran nElem expBits : Nat) : List Byte :=
  [0xCB, BitVec.ofNat 8 (methodCode m), BitVec.ofNat 8 elem, 0] ++ natLe 4 rawLen ++ natLe 4 codedLen
    ++ natLe 4 crc.toNat ++ natLe 4 nGran ++ natLe 4 nElem ++ natLe 4 expBits ++ natLe 4 0

/-- The 64-byte granules of raw bytes. -/
def granules (raw : List Byte) : List (List Byte) := chunks 64 raw

/-- The bitmap section and the surviving bytes of ZSK and EXZ (Table 11-2). -/
def granuleBitmap (raw : List Byte) : List Byte :=
  pad8 (packBits ((granules raw).map (fun g => g.any (fun b => b != 0))))

def survivors (raw : List Byte) : List Byte := ((granules raw).filter (fun g => g.any (fun b => b != 0))).flatten

/-- The sections Table, Signs, Mantissas and Codes, with N_ELEM and EXP_BITS (R240–R243). -/
def expSections (f : ElemFmt) (data : List Byte) : List Byte × Nat × Nat :=
  let els := elemsOf f data
  let count := els.foldl (fun (c : List Nat) x => c.set (symbolOf f x) (c.getD (symbolOf f x) 0 + 1))
    (List.replicate (2 ^ f.exp) 0)
  let len := codeLengths count
  let codes := canonicalCodes len
  let table := (List.range (2 ^ f.exp / 2)).map (fun i =>
    BitVec.ofNat 8 (len.getD (2 * i) 0 + 16 * len.getD (2 * i + 1) 0))
  let signs := packBits (els.map (signOf f))
  let mans := packBits (els.flatMap (fun x => (List.range f.man).map (fun i => natBit (mantissaOf f x) i)))
  let cbits := els.flatMap (fun x =>
    match codes.find? (fun c => c.1 = symbolOf f x) with
    | some (_, l, code) => codeBits l code
    | none => [])
  (pad8 table ++ pad8 signs ++ pad8 mans ++ pad8 (packBits cbits), els.length, cbits.length)

/-- The method a request for coding leads to before the size is known (R244): `req` is 0 AUTO, 1 EXP, 2 ZSK, 3 EXZ,
4 RAW. -/
def chosenMethod (req : Nat) (elem : Option ElemFmt) (raw : List Byte) : Method :=
  let fits : Bool := match elem with | some f => raw.length % f.width == 0 | none => false
  let want : Method := match req with
    | 0 => if elem.isSome then .exz else .zsk
    | 1 => .exp
    | 2 => .zsk
    | 3 => .exz
    | _ => .raw
  match want with
  | .exp => if fits then .exp else .raw
  | .exz => if fits then (if (survivors raw).isEmpty then .zsk else .exz) else .zsk
  | m => m

/-- A RAW c-block. -/
def encodeRaw (raw : List Byte) : List Byte :=
  cblockHeader .raw 0xFF raw.length (raw.length + 32) (crc32c raw) 0 0 0 ++ raw

/-- The c-block the encoder writes for a raw string (R244): `elemCode` 0x00–0x04, or another value for none. -/
def encodeCBlock (req elemCode : Nat) (raw : List Byte) : List Byte :=
  let n := ceilDiv raw.length 64
  let done : List Byte → Nat → Nat → Nat → Method → Nat → List Byte := fun body nGran nElem expBits m el =>
    if raw.length + 32 ≤ body.length + 32 then encodeRaw raw
    else cblockHeader m el raw.length (body.length + 32) (crc32c raw) nGran nElem expBits ++ body
  match chosenMethod req (elemFmt elemCode) raw, elemFmt elemCode with
  | .zsk, _ => done (granuleBitmap raw ++ pad8 (survivors raw)) n 0 0 .zsk 0xFF
  | .exp, some f =>
    let (sec, ne, eb) := expSections f raw
    done sec 0 ne eb .exp elemCode
  | .exz, some f =>
    let (sec, ne, eb) := expSections f (survivors raw)
    done (granuleBitmap raw ++ sec) n ne eb .exz elemCode
  | _, _ => encodeRaw raw

/-! ### Decoding (R246) -/

/-- A decode failure: the status, and the decoded length it implies for the capture address of R247. -/
structure DecodeFail where
  status : Status
  decoded : Nat
  deriving DecidableEq, Repr

/-- The capture position of a failed c-block (R247). -/
def failPosition (f : DecodeFail) (declared : Nat) : Nat :=
  if f.status = .codeInvalid || f.status = .digestMismatch then 0 else min declared f.decoded

/-- The bytes of the granules: survivors put back between zero granules. -/
def unsurvive : List Bool → Nat → List Byte → List Byte
  | [], _, _ => []
  | g :: gs, left, sv =>
    let n := min 64 left
    if g then sv.take n ++ unsurvive gs (left - n) (sv.drop n) else zeros n ++ unsurvive gs (left - n) sv

/-- Raw offset of survivor byte `k` (R246), each zero granule before it counted; beyond the survivors RAW_LEN + k − S. -/
def rawOffset (gran : List Bool) (rawLen k : Nat) : Nat :=
  go gran 0 k
where
  /-- Walk over the granules. -/
  go : List Bool → Nat → Nat → Nat
    | [], _, k => rawLen + k
    | g :: gs, base, k =>
      let n := min 64 (rawLen - base)
      if g then (if k < n then base + k else go gs (base + n) (k - n)) else go gs (base + n) k

/-- Code words read from a plane until the bits are used up: the symbols and the bits left over. -/
def readCodes (codes : List (Nat × Nat × Nat)) : Nat → List Bool → List Nat → List Nat × Nat
  | 0, bs, acc => (acc, bs.length)
  | fuel + 1, bs, acc =>
    match codes.find? (fun c => c.2.1 ≤ bs.length && codeBits c.2.1 c.2.2 == bs.take c.2.1) with
    | none => (acc, bs.length)
    | some (s, l, _) => readCodes codes fuel (bs.drop l) (acc ++ [s])

/-- The elements put together again from symbols, signs and mantissas. -/
def joinElems (f : ElemFmt) (syms : List Nat) (signs mans : List Bool) : List Byte :=
  syms.zipIdx.flatMap (fun (s, i) =>
    let m := ((mans.drop (i * f.man)).take f.man).zipIdx.foldl (fun n (b, j) => n + bit b * 2 ^ j) 0
    natLe f.width (m + s * 2 ^ f.man + bit (signs.getD i false) * 2 ^ (8 * f.width - 1)))

/-- Larger or smaller than expected, as the length checks of Table 11-4 report it. -/
def lengthStatus (got want : Nat) : Status := if want < got then .lengthOver else .lengthUnder

/-- Decoding of one c-block by the checks of Table 11-4 in order: `c` is the container's bytes, `declared` the length
D of the destination, `dirMethod` the method of a shard's directory entry. -/
def decodeCBlock (c : List Byte) (declared : Nat) (dirMethod : Option Nat) : Except DecodeFail (List Byte) :=
  let rawLen := field c 4 4
  let codedLen := field c 8 4
  let nGran := field c 16 4
  let nElem := field c 20 4
  let expBits := field c 24 4
  let elem := (byteAt c 2).toNat
  let fail : Status → Nat → Except DecodeFail (List Byte) := fun st n => .error ⟨st, n⟩
  let isRaw := (byteAt c 1).toNat = 0
  let lenImplied := if isRaw then c.length - 32 else rawLen
  if c.length < 32 then fail .lengthUnder (if isRaw then 0 else rawLen)
  else
  match methodOf (byteAt c 1).toNat with
  | none => fail .codeInvalid 0
  | some m =>
    let usesElem := m = .exp ∨ m = .exz
    let usesGran := m = .zsk ∨ m = .exz
    let headerOk := byteAt c 0 = 0xCB ∧ byteAt c 3 = 0 ∧ field c 28 4 = 0
      ∧ (if usesElem then (elemFmt elem).isSome else elem = 0xFF)
      ∧ (usesGran ∨ nGran = 0) ∧ (usesElem ∨ (nElem = 0 ∧ expBits = 0))
    if ¬ headerOk then fail .codeInvalid 0
    else if (match dirMethod with | some d => d != methodCode m | none => false) then fail .codeInvalid 0
    else if codedLen ≠ c.length then fail (lengthStatus codedLen c.length) lenImplied
    else if rawLen ≠ declared then fail (lengthStatus rawLen declared) rawLen
    else
    let f := (elemFmt elem).getD ⟨1, 1, 1⟩
    let n := ceilDiv rawLen 64
    let bmLen := roundUp (ceilDiv nGran 8) 8
    let body := c.drop 32
    if usesGran ∧ nGran ≠ n then fail (lengthStatus nGran n) (64 * nGran)
    else if usesGran ∧ body.length < bmLen then fail .lengthUnder lenImplied
    else
    let bmBits := if usesGran then unpackBits (body.take bmLen) else []
    let stray := (bmBits.zipIdx.drop nGran).find? (fun (b, _) => b)
    match stray with
    | some (_, i) => fail .lengthOver (64 * (i + 1))
    | none =>
    let gran := bmBits.take nGran
    let surv := ((gran.zipIdx).filter (fun (g, _) => g)).foldl (fun a (_, i) => a + min 64 (rawLen - 64 * i)) 0
    let rest := if usesGran then body.drop bmLen else body
    let crcOk := fun (out : List Byte) => crc32c out = BitVec.ofNat 32 (field c 12 4)
    let finish := fun (out : List Byte) =>
      if crcOk out then .ok out else fail .digestMismatch 0
    if m = .raw then
      if body.length ≠ rawLen then fail (lengthStatus body.length rawLen) lenImplied else finish body
    else if m = .zsk then
      if rest.length ≠ roundUp surv 8 then fail (lengthStatus rest.length (roundUp surv 8)) lenImplied
      else finish (unsurvive gran rawLen (rest.take surv))
    else
    let tblLen := 2 ^ f.exp / 2
    if rest.length < roundUp tblLen 8 then fail .lengthUnder lenImplied
    else
    let len := (List.range (2 ^ f.exp)).map (fun s =>
      let b := (byteAt rest (s / 2)).toNat
      if s % 2 = 0 then b % 16 else b / 16)
    if len.any (fun l => 12 < l) ∨ kraft len ≠ 4096 then fail .codeInvalid 0
    else
    let want := if m = .exp then rawLen else surv
    let rawOf := fun k => if m = .exp then k else rawOffset gran rawLen k
    if nElem * f.width ≠ want then fail (lengthStatus (nElem * f.width) want) (rawOf (nElem * f.width))
    else
    let tbl := roundUp tblLen 8
    let sg := roundUp (ceilDiv nElem 8) 8
    let mn := roundUp (ceilDiv (nElem * f.man) 8) 8
    let cd := roundUp (ceilDiv expBits 8) 8
    if rest.length ≠ tbl + sg + mn + cd then fail (lengthStatus rest.length (tbl + sg + mn + cd)) lenImplied
    else
    let signs := unpackBits ((rest.drop tbl).take sg)
    let mans := unpackBits ((rest.drop (tbl + sg)).take mn)
    let plane := unpackBits (rest.drop (tbl + sg + mn))
    let (syms, left) := readCodes (canonicalCodes len) (expBits + 1) (plane.take expBits) []
    if syms.length ≠ nElem then fail (lengthStatus syms.length nElem) (rawOf (syms.length * f.width))
    else if left ≠ 0 then fail .codeInvalid 0
    else if (plane.drop expBits).any id then fail .codeInvalid 0
    else
      let out := joinElems f syms signs mans
      finish (if m = .exp then out else unsurvive gran rawLen out)

end Sys2Proof.Machine
end

