-- ==== Sys2Proof/Machine/Pool.lean ====
section
/-! DEFINITION. The pool: address mapping, allocation of 128 KiB units, the placement of stripes and parity, and reading
and writing tensor bytes under shelf parity (R137, R198–R200, R276–R278). -/

namespace Sys2Proof.Machine

/-- Bytes of one allocation unit (R199). -/
def unitBytes : Nat := 131072

/-- Nominal pool capacity of an engine in bytes (Table 1-1). -/
def poolBytes : Nat := 8000000000000

/-- Whole allocation units of the pool. -/
def poolUnits : Nat := poolBytes / unitBytes

/-- Bytes of one slice (09 Geometry and slices). -/
def sliceBytes : Nat := 16777216000

/-- A twin lies this far above its live row (R198). -/
def twinOffset : Nat := 8388608000

/-- The array address of a pool byte (R200). -/
structure ArrayAddr where
  ch : Nat
  rank : Nat
  bg : Nat
  bank : Nat
  sub : Nat
  row : Nat
  col : Nat
  deriving DecidableEq, Repr

/-- `undo` of R200. -/
def undoAddr (a : Nat) : ArrayAddr :=
  let g := a / 4096
  let q := g / 16
  let x := q / 2
  let x1 := x / 4
  let x2 := x1 / 8
  let x3 := x2 / 4
  { ch := g % 16, rank := x % 4, bg := x1 % 8, bank := x2 % 4, row := x3 % 1000, sub := x3 / 1000,
    col := (q % 2) * 4096 + a % 4096 }

/-- The pool address of an array address: the inverse of `undoAddr` on data rows. -/
def redoAddr (r : ArrayAddr) : Nat :=
  let x3 := r.sub * 1000 + r.row
  let x := ((x3 * 4 + r.bank) * 8 + r.bg) * 4 + r.rank
  ((x * 2 + r.col / 4096) * 16 + r.ch) * 4096 + r.col % 4096

/-- The 32-bit array address of Table 9-5. -/
def arrayWord (r : ArrayAddr) : Word :=
  BitVec.ofNat 32 (r.rank + r.bg * 2 ^ 2 + r.bank * 2 ^ 5 + r.row * 2 ^ 7 + r.sub * 2 ^ 17 + r.ch * 2 ^ 26)

/-- The array address that Table 9-5 encodes. -/
def arrayOfWord (w : Nat) : ArrayAddr :=
  { rank := bits w 1 0, bg := bits w 4 2, bank := bits w 6 5, row := bits w 16 7, sub := bits w 25 17,
    ch := bits w 29 26, col := 0 }

/-- The channel of a pool address (R200). -/
def channelOf (a : Nat) : Nat := a / 4096 % 16

/-- The unit base of a pool address. -/
def unitOf (a : Nat) : Nat := a / unitBytes * unitBytes

/-! ### Placement (R137) -/

/-- Members of a placement in ascending index. -/
def Placement.list (pl : Placement) : List EngId := maskEngines pl.members

/-- M of R137. -/
def Placement.count (pl : Placement) : Nat := pl.list.length

/-- D of R137; at least 1, so that the arithmetic stays total. -/
def Placement.data (pl : Placement) : Nat := max 1 (pl.count - pl.parity)

/-- The member at a position, counted modulo M. -/
def Placement.at_ (pl : Placement) (i : Nat) : EngId := pl.list.getD (i % max 1 pl.count) 0

/-- The data engine of stripe `k` (R137). -/
def Placement.dataEngine (pl : Placement) (k : Nat) : EngId := pl.at_ (k / pl.data + k % pl.data)

/-- The engine of parity `j` of group `g` (R137). -/
def Placement.parityEngine (pl : Placement) (g j : Nat) : EngId := pl.at_ (g + pl.data + j)

/-- The pool address on an engine of the byte at local offset `off` of a tensor. -/
def Placement.addr (pl : Placement) (e : EngId) (off : Nat) : Nat :=
  (assocGetD pl.units e.val []).getD (off / unitBytes) 0 + off % unitBytes

/-- Elements of a tensor. -/
def Tensor.elems (t : Tensor) : Nat := t.rows * t.cols

/-- The stored format of a tensor. -/
def Tensor.format (t : Tensor) : Format := (formatOf t.fmt).getD .bytes

/-- The stored size of a tensor in bytes. -/
def Tensor.bytes (t : Tensor) : Nat := storedBytes t.format t.elems

/-- Elements of one stripe. -/
def Tensor.stripeElems (t : Tensor) : Nat := t.per

/-- Stored bytes of one stripe. -/
def Tensor.stripeBytes (t : Tensor) : Nat := storedBytes t.format t.stripeElems

/-- The number of stripes of a tensor. -/
def Tensor.stripes (t : Tensor) : Nat := ceilDiv t.elems t.stripeElems

/-- The parity groups of a tensor under a placement. -/
def Tensor.groups (t : Tensor) (pl : Placement) : Nat := ceilDiv t.stripes pl.data

/-- The placement that holds stripe `k` now: its destination once a re-shard has moved it (R281). -/
def Tensor.home (t : Tensor) (k : Nat) : Placement := if t.moved.contains k then t.dest.getD t.place else t.place

/-- Units that a tensor needs on each engine of a placement. -/
def Tensor.unitsNeeded (t : Tensor) (pl : Placement) : Nat := ceilDiv (t.groups pl * t.stripeBytes) unitBytes

/-! ### Rows -/

/-- The pool address at which a byte really lies: the replacement row of a fenced channel's row, where one exists
(R360 step 4). -/
def Engine.phys (x : Engine) (a : Nat) : Nat :=
  match x.remaps.find? (fun r => r.1 = unitOf a && r.2.1 = channelOf a) with
  | some r => r.2.2 + a % unitBytes / 65536 * 65536 + a % 4096
  | none => a

/-- Whether the row of a byte is lost with its channel and not yet rebuilt (R360). -/
def Engine.rowLost (x : Engine) (a : Nat) : Bool := x.lostRows.contains (unitOf a, channelOf a)

/-- The byte at a pool address of an engine, none when the engine or the row is an erasure (R277). -/
def State.poolByte (s : State) (e : EngId) (a : Nat) : Option Byte :=
  if s.lost e || (s.eng e).rowLost a then none else some (Memory.read (s.eng e).pool ((s.eng e).phys a))

/-- Write one pool byte; nothing happens on an erasure. -/
def State.putPool (s : State) (e : EngId) (a : Nat) (v : Byte) : State :=
  if s.lost e || (s.eng e).rowLost a then s
  else s.modEng e (fun x => { x with pool := Memory.write x.pool (x.phys a) v })

/-! ### Tensor bytes under parity -/

/-- Whether an engine's rows of a placement are gone: it counts as fenced, or has come back without them (R299, R313). -/
def State.missing (s : State) (pl : Placement) (e : EngId) : Bool := s.lost e || hasEngine pl.gone e

/-- The pool byte of a placement on an engine; none for an erasure. -/
def State.placeByte (s : State) (pl : Placement) (e : EngId) (off : Nat) : Option Byte :=
  if hasEngine pl.gone e then none else s.poolByte e (pl.addr e off)

/-- Write the pool byte of a placement on an engine; nothing happens on an erasure. -/
def State.putPlace (s : State) (pl : Placement) (e : EngId) (off : Nat) (v : Byte) : State :=
  if hasEngine pl.gone e then s else s.putPool e (pl.addr e off) v

/-- Byte `j` of every data stripe of a group of placement `pl`: none for an erasure, 0 for a stripe beyond the tensor's
end and for one that the other placement holds (R276, R281). -/
def State.groupData (s : State) (t : Tensor) (pl : Placement) (g j : Nat) : List (Option Byte) :=
  (List.range pl.data).map (fun i =>
    let k := g * pl.data + i
    if k < t.stripes && t.home k = pl then
      s.placeByte pl (pl.dataEngine k) (g * t.stripeBytes + j)
    else some 0)

/-- Byte `j` of parity stripe `i` of a group; none when it does not exist or is an erasure. -/
def State.groupParity (s : State) (t : Tensor) (pl : Placement) (g j i : Nat) : Option Byte :=
  if i < pl.parity then
    s.placeByte pl (pl.parityEngine g i) (g * t.stripeBytes + j)
  else none

/-- The byte of stripe `k` at offset `j`, reconstructed under R277 where its row is an erasure (R278); none when its
group has more erasures than its parity answers for. -/
def State.stripeByte (s : State) (t : Tensor) (k j : Nat) : Option Byte :=
  let pl := t.home k
  let g := k / pl.data
  match s.placeByte pl (pl.dataEngine k) (g * t.stripeBytes + j) with
  | some b => some b
  | none => (recover (s.groupData t pl g j) (s.groupParity t pl g j 0) (s.groupParity t pl g j 1)).map
      (fun d => d.getD (k % pl.data) 0)

/-- The byte of a tensor at a stored offset. -/
def State.tensorByte (s : State) (t : Tensor) (off : Nat) : Option Byte :=
  s.stripeByte t (off / t.stripeBytes) (off % t.stripeBytes)

/-- Bytes of a tensor from an offset, up to the first that cannot be served. -/
def State.tensorBytes (s : State) (t : Tensor) (off : Nat) : Nat → List Byte
  | 0 => []
  | n + 1 => match s.tensorByte t off with
    | some b => b :: s.tensorBytes t (off + 1) n
    | none => []

/-- Fold the difference of one data byte into the parity stripes of its group (R276); parity on an erasure is left. -/
def State.bumpParity (s : State) (t : Tensor) (pl : Placement) (k j : Nat) (d : Byte) : State :=
  let g := k / pl.data
  (List.range pl.parity).foldl (fun s i =>
    let e := pl.parityEngine g i
    let a := g * t.stripeBytes + j
    let c := if i = 0 then d else gmul (gpow (k % pl.data)) d
    match s.placeByte pl e a with
    | some p => s.putPlace pl e a (p ^^^ c)
    | none => s) s

/-- Write one stripe byte with its parity (R121, R276, R278): the data row where it survives, and the group's surviving
parity either way. -/
def State.putStripeByte (s : State) (t : Tensor) (k j : Nat) (v : Byte) : State :=
  let pl := t.home k
  let e := pl.dataEngine k
  match s.stripeByte t k j with
  | some old => (s.putPlace pl e (k / pl.data * t.stripeBytes + j) v).bumpParity t pl k j (old ^^^ v)
  | none => s

/-- Write bytes of a tensor from a stored offset. -/
def State.putTensor (s : State) (t : Tensor) (off : Nat) : List Byte → State
  | [] => s
  | b :: bs => (s.putStripeByte t (off / t.stripeBytes) (off % t.stripeBytes) b).putTensor t (off + 1) bs

/-- The contents of a tensor as sparse bytes in stored format. -/
def State.tensorImage (s : State) (t : Tensor) : Memory :=
  (List.range t.bytes).filterMap (fun i => let b := (s.tensorByte t i).getD 0; if b = 0 then none else some (i, b))

/-- Whether group `g` of a placement has more erasures than its parity (R280). -/
def State.groupDead (s : State) (pl : Placement) (g : Nat) : Bool :=
  let lostData := ((List.range pl.data).filter (fun i => s.missing pl (pl.at_ (g + i)))).length
  let lostParity := ((List.range pl.parity).filter (fun i => s.missing pl (pl.parityEngine g i))).length
  pl.parity < lostData + lostParity && 0 < lostData

/-! ### Allocation (R198, R199) -/

/-- Units taken by key-value pages of the PLAIN tier on an engine. -/
def State.kvUnits (s : State) (e : EngId) : List Nat :=
  ((s.parts.toList.flatMap Partition.kv).filter (fun p => p.body = e && !p.lent)).map (fun p => unitOf p.addr)

/-- The slice of a unit base address. -/
def sliceOf (u : Nat) : Nat := u / sliceBytes

/-- Whether the unit at base address `u` can be given to a tensor: free, and its slice of the right kind or unused
(R198). A twin-flagged tensor takes live rows whose twins lie inside the pool. -/
def State.unitFree (s : State) (e : EngId) (twin : Bool) (u : Nat) : Bool :=
  let x := s.eng e
  let kv := s.kvUnits e
  let used := !x.units.contains u && !kv.contains u
  if twin then
    used && u % sliceBytes < twinOffset && u + twinOffset < poolUnits * unitBytes &&
      (x.protectedSlices.contains (sliceOf u) ||
        !((x.units ++ kv).any (fun v => sliceOf v = sliceOf u)))
  else used && !x.protectedSlices.contains (sliceOf u)

/-- Search upwards from unit number `n`, around the end of the pool, for a unit that can be taken. -/
def State.findUnit (s : State) (e : EngId) (twin : Bool) (n : Nat) : Nat → Option Nat
  | 0 => none
  | fuel + 1 =>
    let u := n % poolUnits * unitBytes
    if s.unitFree e twin u then some u else s.findUnit e twin (n + 1) fuel

/-- Take one unit: the search begins at a free value, because the manual leaves the choice to the allocator (log 3). -/
def State.takeWhole (s : State) (e : EngId) (twin : Bool) : Option (Nat × State) :=
  let (r, s1) := s.draw 64
  (s1.findUnit e twin r.toNat poolUnits).map (fun u =>
    (u, s1.modEng e (fun x =>
      { x with units := u :: x.units,
               protectedSlices := if twin && !x.protectedSlices.contains (sliceOf u) then
                   sliceOf u :: x.protectedSlices
                 else x.protectedSlices })))

/-- The DDR channels of an engine that are fenced. -/
def Engine.deadChannels (x : Engine) : List Nat := (List.range 16).filter (fun c => (x.flt[(4 : Fin 11)]).fenced.getLsbD c)

/-- The channels whose rows may replace others. -/
def Engine.liveChannels (x : Engine) : List Nat := (List.range 16).filter (fun c => !x.deadChannels.contains c)

/-- A row that a replacement unit still has free, in a slice of the right kind (R198, R360). -/
def Engine.spareRow (x : Engine) (twin : Bool) : Option Nat :=
  let units := (x.remaps.map (fun r => unitOf r.2.2)).dedup.filter (fun v => x.protectedSlices.contains (sliceOf v) = twin)
  (units.flatMap (fun v => x.liveChannels.map (fun c => v + c * 4096))).find? (fun a => x.remaps.all (fun r => r.2.2 ≠ a))

/-- Give one row of a unit a replacement row on a remaining channel, from a free unit where no replacement unit has one
(R360 step 1). A replacement for a row of a PROTECTED slice comes with its twin. -/
def State.replaceRow (s : State) (e : EngId) (twin : Bool) (u ch : Nat) : Option State :=
  let point (s : State) (a : Nat) : State := s.modEng e (fun x => { x with remaps := x.remaps ++ [(u, ch, a)] })
  match (s.eng e).spareRow twin with
  | some a => some (point s a)
  | none => (s.takeWhole e twin).map (fun (v, s1) => point s1 (v + ((s1.eng e).liveChannels.headD 0) * 4096))

/-- Take one unit; its rows on fenced channels lie in replacement rows from the start (R360). -/
def State.takeUnit (s : State) (e : EngId) (twin : Bool) : Option (Nat × State) := do
  let (u, s1) ← s.takeWhole e twin
  let s2 ← (s1.eng e).deadChannels.foldlM (fun s c => s.replaceRow e twin u c) s1
  pure (u, s2)

/-- Take `n` units on one engine. -/
def State.takeUnits (s : State) (e : EngId) (twin : Bool) : Nat → Option (List Nat × State)
  | 0 => some ([], s)
  | n + 1 => do
    let (u, s1) ← s.takeUnit e twin
    let (us, s2) ← s1.takeUnits e twin n
    pure (u :: us, s2)

/-- Take the units of a tensor on every engine of a mask. -/
def State.takePlacement (s : State) (t : Tensor) (pl : Placement) : Option (Placement × State) :=
  (maskEngines pl.members).foldlM (fun (acc : Placement × State) e => do
    let (us, s1) ← acc.2.takeUnits e t.twin (t.unitsNeeded pl)
    pure ({ acc.1 with units := acc.1.units ++ [(e.val, us)] }, s1)) ({ pl with units := [], gone := engineMask ((maskEngines pl.members).filter s.lost) }, s)

/-- Give the units of a placement back and clear their rows, live and twin. -/
def State.freePlacement (s : State) (pl : Placement) : State :=
  pl.units.foldl (fun s (i, us) =>
    if h : i < 16 then
      s.modEng ⟨i, h⟩ (fun x =>
        let maps := x.remaps.filter (fun r => !us.contains r.1)
        let gone := x.remaps.filter (fun r => us.contains r.1)
        let kept := x.units.filter (fun u => !us.contains u && (maps.any (fun r => unitOf r.2.2 = u) ||
          !gone.any (fun r => unitOf r.2.2 = u)))
        { x with units := kept,
                 protectedSlices := x.protectedSlices.filter (fun sl => kept.any (fun u => sliceOf u = sl)),
                 pool := gone.foldl (fun m r => (Memory.clear m r.2.2 (r.2.2 + 4096)).clear (r.2.2 + 65536) (r.2.2 + 69632))
                   (us.foldl (fun m u => Memory.clear m u (u + unitBytes)) x.pool),
                 lostRows := x.lostRows.filter (fun r => !us.contains r.1),
                 remaps := maps })
    else s) s

/-! ### Charges (R147, R250) -/

/-- The charge of a tensor: stored size × (1 + P/D), doubled with the twin flag (R147); rounded up to a byte (log 19). -/
def Tensor.chargeFor (t : Tensor) (pl : Placement) : Nat :=
  ceilDiv (t.bytes * (pl.data + pl.parity)) pl.data * (if t.twin then 2 else 1)

/-- What a partition has charged on one engine: its tensors in equal shares, its pages at raw size (R147, R250). -/
def State.poolUse (s : State) (p : PartId) (e : EngId) : Nat :=
  (((s.part p).tensors.filter (fun t => hasEngine t.place.members e)).map
      (fun t => ceilDiv t.charge (max 1 t.place.count))).sum +
    (((s.part p).kv.filter (fun k => k.body = e)).map KvPage.raw).sum

/-- The pool quota of a partition on each engine in bytes; none for a quota of 0 (Table 3-11). -/
def State.poolQuota (s : State) (p : PartId) : Option Nat :=
  match s.cfg p with
  | some c => if c.poolGib = 0 then none else some (c.poolGib * 2 ^ 30)
  | none => none

/-- Whether more charge on an engine would exceed the quota. -/
def State.overQuota (s : State) (p : PartId) (e : EngId) (more : Nat) : Bool :=
  match s.poolQuota p with
  | some q => q < s.poolUse p e + more
  | none => false

/-- The rows that lie in the twin loan: bytes lent by a partition on all engines (Table 11-7). -/
def Partition.lentBytes (p : Partition) : Nat :=
  ((p.tensors.filter Tensor.twin).map (fun t => (t.place.units.map (fun u => u.2.length * unitBytes)).sum)).sum

/-! ### Tensor lookup -/

/-- A tensor of a partition by ID. -/
def Partition.tensor? (p : Partition) (id : Nat) : Option Tensor := p.tensors.find? (fun t => t.id.toNat = id)

/-- The partition with a tensor replaced, in place. -/
def Partition.setTensor (p : Partition) (t : Tensor) : Partition :=
  { p with tensors := p.tensors.map (fun u => if u.id = t.id then t else u) }

/-- The state with one tensor of a partition updated. -/
def State.modTensor (s : State) (p : PartId) (id : Word) (f : Tensor → Tensor) : State :=
  s.modPart p (fun x => { x with tensors := x.tensors.map (fun t => if t.id = id then f t else t) })

/-- The dependants of a tensor. -/
def Partition.dependants (p : Partition) (id : Word) : List Tensor :=
  p.tensors.filter (fun t => t.parent = id && t.cls ≠ 1 && t.cls ≠ 6)

/-- Tensors in ascending ID. -/
def Partition.sorted (p : Partition) : List Tensor := p.tensors.insertionSort (fun a b => a.id.toNat ≤ b.id.toNat)

/-- The 4 KiB pieces of a stripe, as (engine, piece of the tensor's rows there). -/
def Tensor.pieces (t : Tensor) (k : Nat) : List (Nat × Nat) :=
  let pl := t.home k
  let off := k / pl.data * t.stripeBytes
  (List.range ((off + t.stripeBytes + 4095) / 4096 - off / 4096)).map (fun i => ((pl.dataEngine k).val, off / 4096 + i))

/-- Stripes become poisoned; what had been written afresh of them counts no more. -/
def Tensor.addPoison (t : Tensor) (ks : List Nat) : Tensor :=
  { t with poison := t.poison ++ (ks.filter (fun k => !t.poison.contains k)).dedup,
           scrubbed := t.scrubbed.filter (fun q => !ks.any (fun k => (t.pieces k).contains q)) }

/-- Pieces are written afresh with valid check bits: a poisoned stripe of which every piece has been is poisoned no more (R201, R203;
log 145). -/
def Tensor.scrub (t : Tensor) (qs : List (Nat × Nat)) : Tensor :=
  let done := t.scrubbed ++ qs.filter (fun q => !t.scrubbed.contains q && t.poison.any (fun k => (t.pieces k).contains q))
  let left := t.poison.filter (fun k => !(t.pieces k).all done.contains)
  { t with poison := left, scrubbed := done.filter (fun q => left.any (fun k => (t.pieces k).contains q)) }

/-- Poison every stripe of a partition's tensors whose group the parity cannot rebuild (R280); partial sums are cleared and
pushed again instead (R155). -/
def State.poisonDead (s : State) (p : PartId) : State :=
  s.modPart p (fun x => { x with tensors := x.tensors.map (fun t =>
    if t.cls = 5 then t else t.addPoison ((List.range t.stripes).filter (fun k =>
      s.groupDead (t.home k) (k / (t.home k).data) && s.missing (t.home k) ((t.home k).dataEngine k) && !t.poison.contains k))) })

/-- Whether some group of a tensor is beyond its parity. -/
def State.tensorDead (s : State) (t : Tensor) : Bool := (List.range (t.groups t.place)).any (fun g => s.groupDead t.place g)

/-- Whether some group of the partition is beyond its parity, other than one of partial sums (R280, Table 13-1). -/
def State.partDead (s : State) (p : PartId) : Bool := (s.part p).tensors.any (fun t => t.cls ≠ 5 && s.tensorDead t)

end Sys2Proof.Machine
end

