-- ==== Sys2Proof/Machine/StoreOps.lean ====
section
/-! DEFINITION. The store: blocks of volumes, store pointers, sealed records, the allotments of the lease and the
allocation of extents inside them (R218–R223, R228, R239). -/

namespace Sys2Proof.Machine

/-- Bytes of a logical block (R40). -/
def blockBytes : Nat := 4096

/-- The first LBA of the extents of a volume, and blocks per extent (Table 10-1). -/
def extentBase : Nat := 65536

def extentBlocks : Nat := 256

/-- A store pointer: LBA in bits 47:0, volume index in bits 55:48 (R219). -/
def storePtr (vol lba : Nat) : Nat := vol * 2 ^ 48 + lba

def ptrVol (p : Nat) : Nat := bits p 55 48

def ptrLba (p : Nat) : Nat := bits p 47 0

/-- A volume of the store. -/
def State.volume (s : State) (v : Nat) : Option Volume := s.store.volumes[v]?

/-- Bytes of a volume from an LBA. -/
def State.readBlocks (s : State) (v lba len : Nat) : List Byte :=
  match s.volume v with
  | some x => Memory.readBytes x.bytes (lba * blockBytes) len
  | none => zeros len

/-- Bytes that a store pointer names. -/
def State.readPtr (s : State) (p len : Nat) : List Byte := s.readBlocks (ptrVol p) (ptrLba p) len

/-- The state with one volume updated. -/
def State.modVolume (s : State) (v : Nat) (f : Volume → Volume) : State :=
  { s with store := { s.store with volumes := s.store.volumes.zipIdx.map (fun (x, i) => if i = v then f x else x) } }

/-- The state after the shelf has issued an NVMe command (R39). -/
def State.issue (s : State) (c : NvmeCmd) : State := { s with store := { s.store with issued := c :: s.store.issued } }

/-- The writes of a run of blocks: none is larger than 1 MiB (R228). -/
def writeRuns (lba n : Nat) : List (Nat × Nat) :=
  (List.range (ceilDiv n extentBlocks)).map (fun i => (lba + extentBlocks * i, min extentBlocks (n - extentBlocks * i)))

/-- Write bytes to a volume from an LBA. -/
def State.writeBlocks (s : State) (v lba : Nat) (bs : List Byte) : State :=
  s.modVolume v (fun x => { x with bytes := Memory.writeBytes x.bytes (lba * blockBytes) bs })

/-- The shelf writes bytes to a volume with Write commands, with FUA or without; what a target with a volatile write cache takes
without FUA is not durable before the next Flush (R228). -/
def State.storeWrite (s : State) (v lba : Nat) (bs : List Byte) (fua : Bool) : State :=
  let n := ceilDiv bs.length blockBytes
  let s1 := (writeRuns lba n).foldl (fun s r => s.issue (.write v r.1 r.2 fua)) (s.writeBlocks v lba bs)
  if fua then s1 else s1.modVolume v (fun x => if x.cache then { x with dirty := (lba, n) :: x.dirty } else x)

/-- Write bytes where a store pointer names. -/
def State.writePtr (s : State) (p : Nat) (bs : List Byte) (fua : Bool) : State := s.storeWrite (ptrVol p) (ptrLba p) bs fua

/-- Read a run of blocks with a Read command. -/
def State.storeRead (s : State) (p n : Nat) : State := s.issue (.read (ptrVol p) (ptrLba p) n)

/-- Flush a volume: what it cached is durable (R228). -/
def State.flushVolume (s : State) (v : Nat) : State := (s.issue (.flush v)).modVolume v (fun x => { x with dirty := [] })

/-- Write Zeroes, and deallocation, of a range of blocks: the range reads zero afterwards (R39). -/
def State.zeroBlocks (s : State) (v lba n : Nat) : State :=
  s.modVolume v (fun x => { x with bytes := Memory.clear x.bytes (lba * blockBytes) ((lba + n) * blockBytes) })

/-- Write Zeroes over a run of blocks (R228). -/
def State.writeZeroes (s : State) (v lba n : Nat) : State := (s.zeroBlocks v lba n).issue (.writeZeroes v lba n)

/-- Deallocate a run of blocks with Dataset Management (R228). -/
def State.deallocate (s : State) (v lba n : Nat) : State := (s.zeroBlocks v lba n).issue (.deallocate v lba n)

/-- Seal a record of 4,096 bytes: its last 32 bytes take the SHA-256 of the rest (10 The model). -/
def sealRec (r : List Byte) : List Byte := padTo 4064 r ++ sha256 (padTo 4064 r)

/-- Whether a sealed record carries a magic, version 1 and its seal (R218). -/
def sealedOk (magic : String) (r : List Byte) : Bool :=
  r.take 8 = ascii magic && field r 8 2 = 1 && slice r 4064 32 = sha256 (r.take 4064)

/-! ### Leases -/

/-- The lease record of Table 10-3. -/
def leaseRecord (slot state nextGen : Nat) (holder : BitVec 128) (nonce grant expiry seq : DWord)
    (allot : List (Nat × Nat)) : List Byte :=
  sealRec (ascii "WLMLS001" ++ natLe 2 1 ++ natLe 1 slot ++ natLe 1 state ++ natLe 4 nextGen ++ natLe 16 holder.toNat ++
    natLe 8 nonce.toNat ++ natLe 8 grant.toNat ++ natLe 8 expiry.toNat ++ natLe 8 seq.toNat ++
    natLe 2 allot.length ++ zeros 62 ++ allot.flatMap (fun a => natLe 8 a.1 ++ natLe 8 a.2))

/-- A lease record read from the store: state, holder, nonce, grant, expiry, seq, next generation, allotments; none
when its seal, magic or version fails. -/
structure LeaseRec where
  state : Nat
  holder : BitVec 128
  nonce : DWord
  grant : DWord
  expiry : DWord
  seq : DWord
  nextGen : Nat
  allot : List (Nat × Nat)
  deriving DecidableEq, Repr

def parseLease (r : List Byte) : Option LeaseRec :=
  if sealedOk "WLMLS001" r then
    some { state := field r 11 1, nextGen := field r 12 4 % 2 ^ 24, holder := BitVec.ofNat 128 (field r 16 16),
           nonce := BitVec.ofNat 64 (field r 32 8), grant := BitVec.ofNat 64 (field r 40 8),
           expiry := BitVec.ofNat 64 (field r 48 8), seq := BitVec.ofNat 64 (field r 56 8),
           allot := (List.range (min 64 (field r 64 2))).map (fun i =>
             (field r (128 + 16 * i) 8, field r (136 + 16 * i) 8)) }
  else none

/-- The LBA of a lease slot on volume 0 (Table 10-1). -/
def leaseLba (slot : Nat) : Nat := 16 + slot

/-- The record of a lease slot as the store holds it. -/
def State.readLease (s : State) (slot : Nat) : Option LeaseRec := parseLease (s.readBlocks 0 (leaseLba slot) 4096)

/-- Write the shelf's own lease record with the given STATE (R221). -/
def State.writeLease (s : State) (state : Nat) : State :=
  let l := s.store.lease
  s.storeWrite 0 (leaseLba l.slot)
    (leaseRecord l.slot state l.nextGen Config.shelfSerial l.nonce l.grant l.expiry l.seq l.allot) true

/-- Whether the shelf holds its lease (R221). -/
def State.leaseHeld (s : State) : Bool := s.store.lease.state = 2

/-- Whether the shelf may write to the store now: lease held, and not within 10 s of its expiry (R316, R221). -/
def State.mayWrite (s : State) : Bool :=
  s.leaseHeld && s.shelfTime.toNat + 10000000000 < s.store.lease.expiry.toNat

/-- The S-port of a connection, numbered 4 × engine + S-port. -/
def sportEngine (i : Nat) : EngId := Fin.ofNat 16 (i / 4)

def sportPort (i : Nat) : Fin 22 := Fin.ofNat 22 (16 + i % 4)


/-- The I/O queues that an S-port opens to a target, and the entries of each (R41). -/
def ioQueues : Nat := 8

def ioQueueDepth : Nat := 128

/-- Whether an S-port's link is up on an engine that runs. -/
def State.sportUp (s : State) (i : Nat) : Bool :=
  let x := s.eng (sportEngine i)
  x.runs && x.ports[sportPort i].linkUp && !x.ports[sportPort i].fenced

/-- The S-ports that are up connect to a target where they have not, and open their queues; whether the target accepts is the
outside's, so the bits of a free value say it. A port that is down has none (R38, R41, R56; log 72). -/
def State.openQueues (s : State) (answers : DWord) (x : Volume) : Volume :=
  { x with queues := Vector.ofFn (fun i =>
      if !s.sportUp i.val then 0 else if 0 < x.queues[i] then x.queues[i] else if answers.getLsbD i.val then ioQueues else 0) }

/-- The S-ports connect to every target. -/
def State.connectAll (s : State) : State :=
  (List.range s.store.volumes.length).foldl (fun s i =>
    let (r, s1) := s.draw 64
    s1.modVolume i (fun x => s1.openQueues r x)) s

/-- The queues of S-ports that are down are gone. -/
def State.pruneQueues (s : State) : State :=
  { s with store := { s.store with volumes := s.store.volumes.map (fun x => s.openQueues 0 x) } }

/-- Whether some S-port of the shelf that is up has queues open to a volume's target (R41). -/
def State.connected (s : State) (x : Volume) : Bool := x.queues.toList.zipIdx.any (fun (n, i) => 0 < n && s.sportUp i)

/-- Whether a volume has a connection that may carry commands: on an S-port of an engine that has joined (R56). -/
def State.carries (s : State) (x : Volume) : Bool :=
  x.queues.toList.zipIdx.any (fun (n, i) => 0 < n && s.sportUp i && s.joined (sportEngine i))

/-- Whether a volume's target can be reached and the volume is attached (R56, R232, R235). -/
def State.reaches (s : State) (v : Nat) : Bool :=
  match s.volume v with
  | some x => s.carries x && x.attached
  | none => false

/-- Whether an S-port, numbered 4 × engine + S-port, pauses its traffic with targets, taken to be on the lossless priority (R34, R52;
DESIGN CHOICE, log 135). -/
def State.sportPaused (s : State) (i : Nat) : Bool :=
  let c := (s.eng (sportEngine i)).ports[sportPort i]
  c.pfcOn && s.now < c.pausedUntil

/-- Whether a transfer of a volume can go on: its target is reached over an S-port that does not pause (R34, R52, R235). -/
def State.storeGoes (s : State) (v : Nat) : Bool :=
  match s.volume v with
  | some x => x.attached && x.queues.toList.zipIdx.any (fun (n, i) =>
      0 < n && s.sportUp i && s.joined (sportEngine i) && !s.sportPaused i)
  | none => false

/-- A connection to the target of a volume fails: the queues of the lowest-numbered S-port that has some are closed, and the
command is issued again on another connection, if there is one (R53, R235; log 72). -/
def State.loseConnection (s : State) (v : Nat) : State :=
  s.modVolume v (fun x => match (List.range 64).find? (fun i => 0 < x.queues.toList.getD i 0) with
    | some i => { x with queues := x.queues.setIfInBounds i 0 }
    | none => x)

/-! ### Allocation of extents -/

/-- Whether two runs of blocks overlap. -/
def overlaps (a b : Nat × Nat × Nat) : Bool := a.1 = b.1 && a.2.1 < b.2.1 + b.2.2 && b.2.1 < a.2.1 + a.2.2

/-- The allotments that the shelf may use: one appended within the last 15 s waits for its check (R317, log 75). -/
def Lease.usable (l : Lease) : List (Nat × Nat) := if l.extendAt.isSome then l.allot.dropLast else l.allot

/-- Starts of free runs of `n` extents inside the allotments, on volumes that are attached, as (volume, LBA). -/
def State.freeRuns (s : State) (n : Nat) : List (Nat × Nat) :=
  s.store.lease.usable.flatMap (fun (p, c) =>
    ((List.range (c + 1 - n)).map (fun i => (ptrVol p, ptrLba p + i * extentBlocks))).filter (fun r =>
      (s.volume r.1).any Volume.attached && !s.store.used.any (fun u => overlaps u (r.1, r.2, n * extentBlocks))))

/-- Free extents of the allotments (Table 14-3). -/
def State.freeExtents (s : State) : Nat := (s.freeRuns 1).length

/-- All extents of the allotments. -/
def State.allotted (s : State) : Nat := (s.store.lease.allot.map Prod.snd).sum

/-- Take a run of whole extents for `blocks` blocks; which run is left open, so a free value picks it (log 3). -/
def State.takeBlocks (s : State) (blocks : Nat) : Option (Nat × State) :=
  let n := ceilDiv (max 1 blocks) extentBlocks
  let (r, s1) := s.pick (s.freeRuns n)
  r.map (fun (v, lba) =>
    (storePtr v lba, { s1 with store := { s1.store with used := (v, lba, n * extentBlocks) :: s1.store.used } }))

/-- A run leaves the allocation map and its blocks are deallocated; while the shelf may not write, or does not reach the volume,
the run stays taken and its deallocation waits (R221, R231, R239). -/
def State.freeBlocks (s : State) (u : Nat × Nat × Nat) : State :=
  if s.mayWrite && s.reaches u.1 then
    let s1 := s.deallocate u.1 u.2.1 u.2.2
    { s1 with store := { s1.store with used := s1.store.used.filter (fun w => w ≠ u),
                                       unfreed := s1.store.unfreed.filter (fun w => w ≠ u) } }
  else if s.store.unfreed.contains u then s
  else { s with store := { s.store with unfreed := u :: s.store.unfreed } }

/-- Deallocate the run that starts at a pointer. -/
def State.freeRun (s : State) (p : Nat) : State :=
  match s.store.used.find? (fun u => u.1 = ptrVol p && u.2.1 = ptrLba p) with
  | some u => s.freeBlocks u
  | none => s

/-- Deallocations that waited go on. -/
def State.freeWaiting (s : State) : State := s.store.unfreed.foldl (fun s u => s.freeBlocks u) s

/-- The first value from `r` on that is not among some used ones. -/
def unusedFrom (used : List DWord) (r : DWord) : DWord :=
  ((List.range (used.length + 1)).map (fun i => r + BitVec.ofNat 64 i)).find? (fun n => !used.contains n) |>.getD r

/-- An XTS nonce that the shelf has not used before (R226): a free value, or the next one that is unused (log 123). -/
def State.freshNonce (s : State) : DWord × State :=
  let (r, s1) := s.draw 64
  let n := unusedFrom s1.store.nonces r
  (n, { s1 with store := { s1.store with nonces := n :: s1.store.nonces } })

/-! ### Generations and commit records -/

/-- The LBA of a generation's record (10 Generations and commit records). -/
def genLba (gen : Nat) : Nat := 64 + (gen / 2 ^ 24) * 2048 + gen % 2048

/-- The generation record of Table 10-4. -/
def genRecord (state part gen : Nat) (create : DWord) (prev ring logBlocks : Nat) (logs : List Nat) (nonce : DWord) :
    List Byte :=
  sealRec (ascii "WLMGN001" ++ natLe 2 1 ++ natLe 1 state ++ natLe 1 part ++ natLe 4 gen ++
    natLe 16 Config.shelfSerial.toNat ++ natLe 8 create.toNat ++ natLe 4 prev ++ zeros 4 ++ natLe 8 ring ++
    natLe 8 logBlocks ++ (List.range 16).flatMap (fun i => natLe 8 (logs.getD i 0)) ++ natLe 8 nonce.toNat)

/-- A generation record as the store holds it: none when it is not valid. -/
def State.readGen (s : State) (gen : Nat) : Option (List Byte) :=
  let r := s.readBlocks 0 (genLba gen) 4096
  if sealedOk "WLMGN001" r && field r 12 4 = gen then some r else none

def genState (r : List Byte) : Nat := field r 10 1

def genPart (r : List Byte) : Nat := field r 11 1

def genPrev (r : List Byte) : Nat := field r 40 4

def genRing (r : List Byte) : Nat := field r 48 8

def genLogBlocks (r : List Byte) : Nat := field r 56 8

def genLog (r : List Byte) (e : Nat) : Nat := field r (64 + 8 * e) 8

def genNonce (r : List Byte) : DWord := BitVec.ofNat 64 (field r 192 8)

/-- The pointer of the ring block of epoch `n` (R223). -/
def ringPtr (gen : List Byte) (n : Nat) : Nat := genRing gen + n % 4096

/-- The commit record of an epoch in a generation, when it is valid and names the epoch (R223). -/
def State.readCommit (s : State) (gen n : Nat) : Option (List Byte) :=
  match s.readGen gen with
  | none => none
  | some g =>
    let r := s.readPtr (ringPtr g n) 4096
    if sealedOk "WLMCR001" r && field r 12 4 = gen && field r 16 6 = n then some r else none

def commitRetired (r : List Byte) : Bool := natBit (field r 11 1) 0

def commitKind (r : List Byte) : Nat := field r 10 1

def commitBase (r : List Byte) : Nat := field r 24 6

def commitLsn (r : List Byte) (e : Nat) : Nat := field r (104 + 8 * e) 8

/-- Every valid commit record of a generation, RETIRED ones included, as (epoch, record). -/
def State.commits (s : State) (gen : Nat) : List (Nat × List Byte) :=
  match s.readGen gen with
  | none => []
  | some g => (List.range 4096).filterMap (fun i =>
      let r := s.readPtr (genRing g + i) 4096
      if sealedOk "WLMCR001" r && field r 12 4 = gen && field r 16 6 % 4096 = i then some (field r 16 6, r) else none)

/-- The epochs a generation retains: committed and not RETIRED (R231). -/
def State.retained (s : State) (gen : Nat) : List (Nat × List Byte) :=
  (s.commits gen).filter (fun c => !commitRetired c.2)

/-! ### Journal -/

/-- The journal entry bytes of Table 20-5. -/
def journalBytes (e : EngId) (j : JournalEntry) : List Byte :=
  let b := natLe 8 j.jseq ++ natLe 8 j.time.toNat ++ natLe 1 j.type ++ natLe 1 e.val ++ natLe 1 j.part ++
    natLe 1 (bit j.rtc) ++ padTo 36 j.payload ++ zeros 4
  b ++ natLe 4 (crc32c b).toNat

/-- Entries of one sector of 64 KiB. -/
def sectorEntries : Nat := 1024

/-- Sectors still in service (Table 20-1, R416). -/
def Journal.sectors (j : Journal) : Nat := 1024 - j.retired.length

/-- Append a journal entry (R416). The ring of 1,024 sectors erases the sector with the oldest entries when it needs
space; the journal turns read-only when that sector has had 100,000 cycles (R417). -/
def Journal.add (j : Journal) (time : DWord) (rtc : Bool) (type part : Nat) (payload : List Byte) : Journal :=
  if j.readOnly then j
  else
    let full := j.entries.length = j.sectors * sectorEntries
    let sec := (j.next / sectorEntries) % 1024
    let worn := 100000 ≤ assocGetD j.cycles sec 0
    if full && worn then { j with readOnly := true }
    else
      { j with entries := (if full then j.entries.drop sectorEntries else j.entries) ++
                 [{ jseq := j.next, time := time, type := type, part := part, rtc := rtc, payload := payload }],
               cycles := if full then assocSet j.cycles sec (assocGetD j.cycles sec 0 + 1) else j.cycles,
               next := j.next + 1 }

/-- Journal an entry on one engine (R416). Before time of day is set the real-time counter stamps it (Table 20-5). -/
def State.journal (s : State) (e : EngId) (type part : Nat) (payload : List Byte) : State :=
  let rtc := !s.timeSrc.todSet
  s.modEng e (fun x =>
    { x with journal := x.journal.add (if rtc then BitVec.ofNat 64 x.keeper.rtc else x.clock.now) rtc type part payload })

/-- Journal wear in percent of rated cycles on the most-worn sector (Table 20-10). -/
def Journal.wear (j : Journal) : Nat := (j.cycles.foldl (fun m c => max m c.2) 0) / 1000

end Sys2Proof.Machine
end

