-- ==== Sys2Proof/Machine/Loss.lean ====
section
/-! DEFINITION. What the loss of an engine or of a unit does to partitions: epochs that fail, ACCUM sums that are
cleared, pages that are lost, poisoned stripes, rebuilds that fall due (R28, R155, R194, R195, R278–R280, R299). -/

namespace Sys2Proof.Machine

/-! ### Epochs that end -/

/-- An epoch in flight by number. -/
def Partition.epoch? (x : Partition) (n : Nat) : Option Epoch := x.epochs.find? (fun e => e.n = n)

/-- The state with one epoch of a partition updated. -/
def State.modEpoch (s : State) (p : PartId) (n : Nat) (f : Epoch → Epoch) : State :=
  s.modPart p (fun x => { x with epochs := x.epochs.map (fun e => if e.n = n then f e else e) })

/-- Epoch-area bytes that an epoch's staged objects hold on an engine (R185, R229). -/
def Epoch.stagedOn (ep : Epoch) (e : EngId) : Nat :=
  ((ep.shards.filter (fun h => h.src = e.val && h.phase < 2)).map (fun h => h.obj.length)).sum

/-- Whether a digest job of the shelf works for an epoch. -/
def DigestJob.ofEpoch (p : PartId) (n : Nat) : DigestJob → Bool
  | .shard q m _ | .seal q m | .check q m => q = p && m = n
  | _ => false

/-- Whether a digest job of the shelf works for a partition. -/
def DigestJob.ofPart (p : PartId) : DigestJob → Bool
  | .shard q _ _ | .seal q _ | .check q _ | .restore q => q = p
  | _ => false

/-- Digest jobs of the shelf end: they leave their lanes, the context area and the waiting list. -/
def State.endDigests (s : State) (f : DigestJob → Bool) : State :=
  s.modEngines 0xFFFF (fun _ x => { x with lanes := x.lanes.map (fun l => l.filter (fun j => !f j.work)),
                                           contexts := x.contexts.filter (fun c => !f c.work),
                                           digestWaits := x.digestWaits.filter (fun w => !f w) })

/-- Free the staged objects of an epoch on every engine. -/
def State.freeStaged (s : State) (ep : Epoch) : State :=
  s.modEngines 0xFFFF (fun e x => { x with epochUsed := x.epochUsed - ep.stagedOn e })

/-- Deallocate every block that an epoch alone referred to (R237). -/
def State.freeEpochBlocks (s : State) (ep : Epoch) : State :=
  (((ep.shards.flatMap (fun h => h.ptr :: h.old)) ++ ep.mptr :: ep.mold).filter (fun p => p ≠ 0)).foldl (fun s p => s.freeRun p) s

/-- HELD under R256: the partition leaves the waits of a flood turn without lending. -/
def State.hold (s : State) (p : PartId) : State :=
  { s with tide := { s.tide with held := setBit s.tide.held p.val true, waits := setBit s.tide.waits p.val false } }

/-- One epoch becomes FAILED (R195): its campaign ends, its staged copies and blocks are freed, V0_FAULT is signalled,
the next cut is full, and a final ebb epoch leaves the partition HELD (R27). -/
def State.failEpochOne (s : State) (p : PartId) (n : Nat) : State :=
  match (s.part p).epoch? n with
  | none => s
  | some ep =>
    if ep.state = 5 || ep.state = 6 then s
    else
      let s1 := ((((s.freeStaged ep).freeEpochBlocks ep).endCampaign ep.campaign)).endDigests (DigestJob.ofEpoch p n)
      let s2 := (s1.modEpoch p n (fun e => { e with state := 6, campaign := none, shards := [], mptr := 0, mold := [] })).modPart p
        (fun x => { x with nextFull := true })
      (if ep.final then s2.hold p else s2).faultEvent p

/-- An epoch and every delta in flight that depends on it become FAILED (R184, R195); epochs are listed oldest
first, so one pass follows the chain. -/
def State.failEpoch (s : State) (p : PartId) (n : Nat) : State :=
  ((s.part p).epochs.foldl (fun (acc : State × List Nat) ep =>
    if ep.n = n || (ep.kind = 2 && acc.2.contains ep.base) then (acc.1.failEpochOne p ep.n, ep.n :: acc.2) else acc)
    (s, [])).1

/-- Replace shard `i` of an epoch. -/
def State.setShard (s : State) (p : PartId) (n i : Nat) (f : Shard → Shard) : State :=
  s.modEpoch p n (fun ep => { ep with shards := ep.shards.mapIdx (fun j h => if j = i then f h else h) })

/-- The state code that an epoch's progress stands for (Table 8-3). -/
def Epoch.refresh (ep : Epoch) : Epoch :=
  if ep.state = 1 || ep.state = 5 || ep.state = 6 then ep
  else { ep with state := if !ep.drain then 2 else if !ep.shards.isEmpty && ep.shards.all (fun h => 1 ≤ h.phase) then 4 else 3,
                 pinned := ep.pinned && !(!ep.shards.isEmpty && ep.shards.all (fun h => 1 ≤ h.phase)) }

/-- A shard that has to be written again: it keeps its staged copy, and the run it lay in counts as used until the shard is
verified, so that the next one is another (R236, R237). -/
def Shard.again (h : Shard) (ptr : Nat) : Shard :=
  { h with ptr := 0, phase := 0, flushed := false, paid := 0, old := if ptr = 0 then h.old else ptr :: h.old }

/-- A shard fails its verification with a status (R230): it is written again, and the third failure makes its epoch FAILED
(R237). -/
def State.shardFails (s : State) (p : PartId) (n i : Nat) (st : Status) : State :=
  let s1 := (s.setShard p n i (fun h => { h.again h.ptr with fails := h.fails + 1 })).modEpoch p n (fun ep =>
    { ep with status := st })
  if ((s1.part p).epoch? n).any (fun ep => ep.shards[i]?.any (fun h => 3 ≤ h.fails)) then s1.failEpoch p n
  else s1.modEpoch p n Epoch.refresh

/-- The engine that carries a shard and whose keeper gives its keys: its source while that engine is there. -/
def State.keyEngine (s : State) (src : Nat) : EngId := if s.lost (Fin.ofNat 16 src) then s.firstJoined else Fin.ofNat 16 src

/-- Blocks that a byte string takes on the store. -/
def blocksFor (n : Nat) : Nat := ceilDiv n blockBytes

/-- The STORE tokens that a transfer of a shard draws (Table 3-8, R72, R230; log 152). -/
def Shard.storeTokens (h : Shard) : Nat := blocksFor h.objLen

/-- Whether a shard of a drain waits for STORE tokens: its staged object is to be written, or its written object to be read back. -/
def Epoch.shardWaits (ep : Epoch) (h : Shard) : Bool :=
  ep.drain && ep.campaign.isSome && ep.state < 5 && h.objLen ≠ 0 && h.paid < h.storeTokens &&
    (h.phase = 0 || (h.phase = 1 && h.flushed && ep.verify = 1))

/-- Every epoch of a partition that is not COMMITTED becomes FAILED (R194, R280). -/
def State.failUncommitted (s : State) (p : PartId) : State :=
  (s.part p).epochs.foldl (fun s ep => s.failEpoch p ep.n) s

/-! ### ACCUM sums on a lost engine or unit (R155) -/

/-- Bytes of one element in the host format of an ACCUM tensor. -/
def Tensor.hostElem (t : Tensor) : Nat := elemBytes ((formatOf t.hostFmt).getD .fp32)

/-- Elements of one contribution segment of 4,096 host bytes (R138). -/
def Tensor.segElems (t : Tensor) : Nat := 4096 / t.hostElem

/-- Segments of an ACCUM tensor. -/
def Tensor.segments (t : Tensor) : Nat := ceilDiv (t.elems * t.hostElem) 4096

/-- Whether some element of a segment lies on an engine. -/
def Tensor.segOn (t : Tensor) (g : Nat) (e : EngId) : Bool :=
  let k1 := g * t.segElems / t.stripeElems
  let k2 := (min t.elems ((g + 1) * t.segElems) - 1) / t.stripeElems
  (List.range (k2 + 1 - k1)).any (fun i => (t.home (k1 + i)).dataEngine (k1 + i) = e)

/-- Clear the bits and zero the sums of segments (R155); the push counts restart and the waived bits stay open to
nobody, because they are no required bits (R289). -/
def Tensor.clearSegs (t : Tensor) (segs : List Nat) : Tensor :=
  { t with bitmap := t.bitmap.filter (fun b => !segs.contains b.1),
           pushes := t.pushes.filter (fun b => !segs.contains b.1),
           sums := t.sums.filter (fun a => !segs.contains (a.1 / t.segElems)) }

/-- A member engine is lost: clear what it held of the accumulation (R155). V0_FAULT is signalled when something was
cleared. -/
def State.clearAccum (s : State) (p : PartId) (e : EngId) : State :=
  let x := s.part p
  let hit := x.tensors.any (fun t => t.cls = 5 && t.bitmap.any (fun b => t.segOn b.1 e))
  if x.step.phase = 1 && hit then
    (s.modPart p (fun x => { x with tensors := x.tensors.map (fun t =>
      if t.cls = 5 then t.clearSegs ((t.bitmap.map Prod.fst).filter (fun g => t.segOn g e)) else t) })).faultEvent p
  else s

/-! ### Steps that fail (R154) -/

/-- The step of a partition becomes failed (R154). -/
def State.failStep (s : State) (p : PartId) : State :=
  s.modPart p (fun x => { x with step := { x.step with phase := 4 } })

/-! ### A member engine is lost -/

/-- A placement without the rows of one engine. -/
def Placement.lose (pl : Placement) (e : EngId) : Placement :=
  { pl with gone := pl.gone ||| (engineBit e &&& pl.members) }

/-- An epoch whose captured tensors lose the rows of an engine. -/
def Epoch.lose (ep : Epoch) (e : EngId) : Epoch :=
  { ep with image := { ep.image with tensors := ep.image.tensors.map (fun t => ({ t.1 with place := t.1.place.lose e }, t.2)) } }

/-- Epochs that are not COMMITTED, of whose capture the parity policy cannot rebuild what was lost, become FAILED (R194). -/
def State.failLost (s : State) (p : PartId) : State :=
  ((s.part p).epochs.filter (fun ep => ep.image.tensors.any (fun t => s.tensorDead t.1))).foldl (fun s ep => s.failEpoch p ep.n) s

/-- A partition loses a member (R28, R78, R155, R194, R278–R280): its sums and pages there go, a reset whose requester is
lost passes on, its rows there and those of its cuts are erasures from now on; beyond the parity, stripes are poisoned and epochs
fail, within it a rebuild falls due. A step in its update fails only where it meets a stripe that is gone (R154, R155). -/
def State.partLoses (s : State) (e : EngId) (p : PartId) : State :=
  let s1 := (s.clearAccum p e).modPart p (fun x =>
    { x with kv := x.kv.filter (fun k => k.body ≠ e && k.dir ≠ e),
             tensors := x.tensors.map (fun t => { t with place := t.place.lose e, dest := t.dest.map (fun d => d.lose e) }),
             epochs := x.epochs.map (fun ep => ep.lose e),
             resetting := x.resetting.map (fun r => if r.eng = e then
               { r with eng := ((maskEngines (s.members p)).find? (fun m => m ≠ e && !s.lost m)).getD r.eng } else r) })
  let s2 := s1.failLost p
  if (s2.part p).tensors.isEmpty then s2
  else if s2.partDead p then (s2.poisonDead p).failUncommitted p
  else s2.modPart p (fun x => { x with rebuildWait := true })

/-- Every partition that includes the engine loses it (R299). -/
def State.engineLost (s : State) (e : EngId) : State :=
  s.partIds.foldl (fun s p =>
    if s.hasWindow e p || (s.part p).tensors.any (fun t => t.dest.any (fun d => hasEngine d.members e)) then s.partLoses e p else s) s

/-- Every partition loses the engines of a set, which a new view has left out (R299). -/
def State.loseGone (s : State) (gone : BitVec 16) : State := (maskEngines gone).foldl (fun s e => s.engineLost e) s

/-- The engines that the view in force was formed with. -/
def State.formedMask (s : State) : BitVec 16 := (s.membership.view.map View.formed).getD 0

/-! ### Reaching (R297, R311) -/

/-- Whether an engine hears a peer directly, as far as it knows. -/
def State.hears (s : State) (e peer : EngId) : Bool := e = peer || !hasEngine (s.eng e).member.unreachable peer

/-- Whether an engine reaches a peer: directly, or through relay by a third joined engine (R297). -/
def State.reachesPeer (s : State) (e peer : EngId) : Bool :=
  s.hears e peer || (maskEngines s.joinedMask).any (fun r => r ≠ e && r ≠ peer && s.serves r && s.hears e r && s.hears r peer)

/-- Whether an engine waits for a new view to go on with another one: that has left the view, or contact with it is lost, and the view
that leaves it out has not formed (R299). -/
def State.awaitsView (s : State) (e x : EngId) : Bool :=
  s.membership.lastView ≠ 0xFFFFFFFF && hasEngine s.formedMask x && !(s.joined x && s.reachesPeer e x)

/-! ### Views that form without an engine (R298–R300, R312) -/

/-- Append a MEMBERSHIP event (R319): the page keeps the last 1,024. -/
def State.memberLog (s : State) (event : Nat) (eng reason : Nat) : State :=
  let m := s.membership
  let entry : MemberEntry :=
    { view := m.lastView, event := event, eng := eng, reason := reason, time := s.shelfTime, joined := s.joinedMask,
      fenced := s.fencedMask, seq := s.record.seq }
  let l := m.log ++ [entry]
  { s with membership := { m with log := l.drop (l.length - 1024), generation := m.generation + 1 } }

/-- Journal a MEMBERSHIP entry on every engine that runs (Table 20-6). -/
def State.memberJournal (s : State) (event eng reason : Nat) : State :=
  (List.finRange 16).foldl (fun s e =>
    if s.serves e then s.journal e 5 0xFF (natLe 4 s.membership.lastView ++ natLe 1 event ++ natLe 1 eng ++ natLe 1 reason)
    else s) s

/-- A membership event in the log page and the journals. -/
def State.memberEvent (s : State) (event eng reason : Nat) : State :=
  (s.memberLog event eng reason).memberJournal event eng reason

/-- The minors of the joined engines: the split window is open while they differ (R304). -/
def State.minors (s : State) : List Byte := ((maskEngines s.joinedMask).map (fun e => (s.eng e).fw.minor)).dedup

/-- Open or close the split window after a change of the view (R304). -/
def State.checkWindow (s : State) : State :=
  let m := s.membership
  match m.windowAt, s.minors.length with
  | none, _ + 2 => ({ s with membership := { m with windowAt := some s.shelfTime, windowSince := s.now } }).memberEvent 6 0xFF 0
  | some _, 0 | some _, 1 =>
    ({ s with membership := { m with windowAt := none, splitHeld := false } }).memberEvent 7 0xFF 0
  | _, _ => s

/-- A finished mailbox response: the header of Table 4-2 and bytes 8–63. -/
def rspBytes (cmd : List Byte) (st : Status) (err : Nat) (body : List Byte) : List Byte :=
  [byteAt cmd 0, statusCode st] ++ slice cmd 2 2 ++ natLe 2 err ++ [0, 0] ++ padTo 56 body

/-- A mailbox on an engine: a partition's, or the Redfish one (R90). -/
def State.mailbox (s : State) (e : EngId) (k : MbxKey) : Mailbox :=
  match k with
  | some p => (s.win e p).mbx
  | none => (s.eng e).redfish

/-- The state with one mailbox updated. -/
def State.modMailbox (s : State) (e : EngId) (k : MbxKey) (f : Mailbox → Mailbox) : State :=
  match k with
  | some p => s.modWin e p (fun w => { w with mbx := f w.mbx })
  | none => s.modEng e (fun x => { x with redfish := f x.redfish })

/-- A waiting mailbox command gets its response; MAILBOX_COMPLETION posts it (R82). -/
def State.answer (s : State) (e : EngId) (k : MbxKey) (st : Status) (body : List Byte) : State :=
  s.modMailbox e k (fun m =>
    { m with job := m.job.map (fun j => { j with phase := .ready (rspBytes j.cmd st 0xFFFF body) }) })

/-- A configuration-changing command whose outcome a view has decided is answered; on an engine outside the view it stays
BUSY until the engine joins again (R302). -/
def State.answerConfig (s : State) (e : EngId) (k : MbxKey) (st : Status) (body : List Byte) : State :=
  if !(s.mailbox e k).job.any (fun j => j.phase = .waiting .adoption) then s
  else if s.joined e then s.answer e k st body
  else s.modMailbox e k (fun m =>
    { m with job := m.job.map (fun j => { j with phase := .waiting (.decided (rspBytes j.cmd st 0xFFFF body)) }) })

/-- Discard the configuration change in progress: the command completes with SC_NO_QUORUM (R301, R302). -/
def State.dropAdoption (s : State) (bump : Bool) : State :=
  match s.adoption with
  | none => s
  | some a =>
    let s1 : State := { s with adoption := none,
                               record := if bump then { s.record with seq := a.record.seq + 1 } else s.record }
    match a.src with
    | some (e, k) =>
      if bump then s1.answerConfig e k .noQuorum []
      else if (s1.mailbox e k).job.any (fun j => j.phase = .waiting .adoption) then s1.answer e k .noQuorum [] else s1
    | none => s1

/-- The leader of a set of engines: its lowest-numbered engine (R298). -/
def leaderOf (set : BitVec 16) : EngId := (maskEngines set).headD 0

/-- The next view forms on a set of at least nine engines (R298–R300). It decides a change in progress whose leader was lost,
or that outlived its view's quorum: kept when some engine of the set has made the record current, discarded otherwise
(R301, R302). -/
def State.formView (s : State) (set : BitVec 16) : State :=
  let m := s.membership
  if m.lastView = 0xFFFFFFFF || maskCount set < 9 then s
  else
    let old := (m.view.map View.set).getD 0
    let v : View := { num := m.lastView + 1, set := set, formed := set, leader := leaderOf set, formedAt := s.time (leaderOf set) }
    let s1 : State := { s with membership := { m with view := some v, lastView := v.num, proposal := none } }
    let s2 := s1.memberEvent 0 0xFF 0
    match s2.adoption with
    | none => s2.checkWindow
    | some a =>
      if hasEngine (old &&& set) a.leader && 9 ≤ maskCount old then s2.checkWindow
      else if a.current &&& set ≠ 0 then
        ({ s2 with adoption := some { a with leader := v.leader, commit := true } }).checkWindow
      else (s2.dropAdoption true).checkWindow

/-- A view without a quorum discards a change that is still in its PREPARE phase; one after COMMIT is left to the next view
(R301). -/
def State.quorumCheck (s : State) : State :=
  if maskCount s.joinedMask < 9 && s.adoption.any (fun a => !a.commit) then s.dropAdoption false else s

/-- An engine leaves the view with a reason of Table 14-4 and a state (4 out, 5 NO_QUORUM, 6 fenced, 7 excluded): the
departure is announced and the new view forms at once where nine engines remain (R312). Once it has formed, or where none forms any
more (R300), the partitions lose what it leaves out (R299). -/
def State.depart (s : State) (e : EngId) (st reason : Nat) : State :=
  let was := s.joined e
  let s1 := s.modEng e (fun x => { x with member := { x.member with state := st, reason := reason } })
  if !was then s1
  else
    let rest := s.joinedMask &&& ~~~(engineBit e)
    let m := s1.membership
    let s2 : State := { s1 with membership := { m with view := m.view.map (fun v => { v with set := rest }) } }
    let s3 := ((s2.formView rest).memberEvent (if st = 7 then 3 else 2) e.val reason).quorumCheck
    if m.lastView = 0xFFFFFFFF then s3.engineLost e
    else if 9 ≤ maskCount rest then s3.loseGone (s.formedMask &&& ~~~rest)
    else s3

end Sys2Proof.Machine
end

