-- ==== Sys2Proof/Machine/Faults.lean ====
section
/-! DEFINITION. What a detected fault does: severities, FLT_STATUS, the first-error capture, the FAULT log, V0_FAULT and
Redfish events, unit fences with their escalation limits, engine fences, FAULT_N, relays, FAULT_SENSE and the LED (17,
02 R43). -/

namespace Sys2Proof.Machine

/-- Units of each fault block (Table 17-1). -/
def blockUnits (blk : Nat) : Nat := [64, 48, 64, 32, 16, 192, 16, 1, 22, 1, 1].getD blk 0

/-- The engine is fenced when the available units would fall below this (Table 17-6). -/
def escalationLimit (blk : Nat) : Nat := [48, 8, 1, 1, 14, 176, 12, 0, 0, 0, 0].getD blk 0

/-- Blocks whose unit is the engine: MGMT, HOSTIF, PLATFORM (R356). -/
def engineBlock (blk : Nat) : Bool := blk = 7 || blk = 9 || blk = 10

/-- Severity of a source in FLT_SEV (Table 17-2). -/
def Flt.sevOf (f : Flt) (src : Nat) : Nat := bits f.sev.toNat (4 * src + 2) (4 * src)

/-- Whether unit `u` of a block is fenced. -/
def Flt.isFenced (f : Flt) (u : Nat) : Bool := f.fenced.getLsbD u

/-- Fenced units of a block. -/
def Flt.fencedCount (f : Flt) : Nat := ((List.range 192).filter (fun u => f.fenced.getLsbD u)).length

/-- Available units of a block (R96). -/
def Engine.avail (x : Engine) (blk : Fin 11) : Nat := blockUnits blk - (x.flt[blk]).fencedCount

/-- Whether FAULT_N of an engine is driven low (R358): a latch, or a source with status set, not dry, at or above the
threshold. -/
def Engine.faultN (x : Engine) : Bool :=
  x.powered && (List.finRange 11).any (fun b =>
    let f := x.flt[b]
    f.latch ≠ 0 || (List.range 32).any (fun src =>
      f.status.getLsbD src && !f.dryBits.getLsbD src && x.threshold ≤ f.sevOf src))

/-- Whether an SCM's FAULT relay is closed: it has power, its own start-up is done and no FAULT_N is low (R43, R57). FAULT_SENSE is high
exactly then. -/
def State.relayClosed (s : State) (i : Fin 2) : Bool :=
  s.plant.busbar && s.plant.scm[i] = .up && !s.engines.toList.any Engine.faultN

/-- LED states of Table 17-9. -/
inductive Led where
  | off | blue | amberFast | amberSlow | amber | greenBlink | green
  deriving DecidableEq, Repr

/-- The front LED of an engine; a higher row of Table 17-9 takes precedence (R371). -/
def State.led (s : State) (e : EngId) : Led :=
  let x := s.eng e
  if !x.powered then .off else if x.locate then .blue else if x.hold then .amberFast else if x.fenced then .amberSlow
  else if x.faultN then .amber else if !s.joined e || x.power.state = 3 then .greenBlink else .green

/-- Update one FLT register set. -/
def State.modFlt (s : State) (e : EngId) (b : Fin 11) (f : Flt → Flt) : State :=
  s.modEng e (fun x => { x with flt := x.flt.set b.val (f x.flt[b]) b.isLt })

/-- Append to the FAULT page, which keeps the latest 2,048 entries; an entry at NOTIFY or above is also kept in the SCM's log, unless
both SCMs have failed (R365). With the management processor stopped, no entry is written (R369). -/
def State.faultLog (s : State) (e : EngId) (n : FaultEntry) : State :=
  if (s.eng e).hung then s
  else
    let s1 := s.modEng e (fun x =>
      let l := x.logs.fault ++ [n]
      { x with logs := { x.logs with fault := l.drop (l.length - 2048), faultGen := x.logs.faultGen + 1 } })
    if n.sev < 2 || s.plant.scm[s.plant.activeScm] = .failed then s1
    else { s1 with redfishLog := (e.val, n) :: s1.redfishLog }

/-- The log entry of a detection. -/
def faultEntry (time : DWord) (d : Detection) (sev kind avail : Nat) : FaultEntry :=
  { time := time, blk := d.blk.val, src := d.src.val, sev := sev, kind := kind, unit := d.unit, master := d.master,
    access := d.access, part := d.part, status := d.status, addr := d.addr, avail := avail }

/-- The first-error capture takes the fault, or counts it while it holds another (R357). -/
def Flt.capture (f : Flt) (d : Detection) (sev : Nat) (forced : Bool) (time : DWord) : Flt :=
  if f.fecValid then { f with fecCount := if f.fecCount = 0xFFFF then 0xFFFF else f.fecCount + 1 }
  else
    { f with fecAddr := d.addr, fecMaster := d.master, fecAccess := d.access,
             fecSource := BitVec.ofNat 5 d.src.val, fecSev := BitVec.ofNat 3 sev, fecForced := forced, fecValid := true,
             fecUnit := BitVec.ofNat 12 d.unit, fecCount := 0, fecTime := time }

/-- LOG actions: FLT_STATUS, capture, log entry (Table 17-5). -/
def State.actLog (s : State) (e : EngId) (d : Detection) (sev : Nat) (forced dry : Bool) : State :=
  (s.modFlt e d.blk (fun f =>
    { (f.capture d sev forced (s.time e)) with status := setBit f.status d.src.val true,
                                               acted := f.acted.set d.src.val sev d.src.isLt,
                                               dryBits := setBit f.dryBits d.src.val dry })).faultLog e
    (faultEntry (s.time e) d sev (bit forced) ((s.eng e).avail d.blk))

/-- NOTIFY actions: V0_FAULT in partition 0 on this engine, and a Redfish event (Table 17-5); with both SCMs failed there is none to
send it. -/
def State.actNotify (s : State) (e : EngId) (d : Detection) : State :=
  let s1 := s.signalV0 e 0 1
  if s.plant.scm[s.plant.activeScm] = .failed then s1 else s1.send (.redfishEvent (some e) d.blk.val d.src.val)

/-- Queue pairs leave the ready state, and the event rings that they serve are disabled (R79). -/
def Engine.stopPairs (x : Engine) (f : Qp → Bool) : Engine :=
  { x with qps := x.qps.map (fun q => if f q then { q with ready := false } else q),
           windows := x.windows.mapIdx (fun i w =>
             if w.ints.ring.en && x.qps.any (fun q => f q && q.ready && q.part.val = i && q.num = w.ints.ring.sQpn.toNat) then
               { w with ints := { w.ints with ring := { w.ints.ring with disabled := true } } }
             else w) }

/-- The PORT page changes (R98). -/
def Engine.portChanged (x : Engine) : Engine := { x with logs := { x.logs with portGen := x.logs.portGen + 1 } }

/-- Update one port; the PORT page changes with it (R432). -/
def Engine.modPort (x : Engine) (n : Fin 22) (f : Port → Port) : Engine :=
  ({ x with ports := x.ports.set n.val (f x.ports[n]) n.isLt } : Engine).portChanged

/-- A count of errors goes up and saturates (R432). -/
def addSat (x : DWord) (n : Nat) : DWord := BitVec.ofNat 64 (min (2 ^ 64 - 1) (x.toNat + n))

/-- One more uncorrected error of a port. -/
def Port.uncorrectable (q : Port) : Port := { q with uncorrected := addSat q.uncorrected 1 }

/-- Queue pairs of a port enter the error state, and its link goes down (Table 17-6). -/
def Engine.stopPort (x : Engine) (n : Nat) : Engine :=
  let y := x.stopPairs (fun q => q.port = n)
  ({ y with ports := y.ports.mapIdx (fun i q => if i = n then
      { q with linkUp := false, fenced := true, rate := 0, width := 0, flit := false, changed := x.clock.now }
      else q) } : Engine).portChanged

/-- Every port of an engine stops (R363). -/
def Engine.stopPorts (x : Engine) : Engine :=
  let y := x.stopPairs (fun _ => true)
  ({ y with ports := y.ports.map (fun q =>
      { q with linkUp := false, rate := 0, width := 0, flit := false,
               changed := if q.linkUp then x.clock.now else q.changed }) } : Engine).portChanged

/-- The channels that a page's slot touches (R200, R360). -/
def KvPage.touches (k : KvPage) (ch : Nat) : Bool :=
  (List.range (k.raw / 4096)).any (fun i => channelOf (k.addr + 4096 * i) = ch)

/-- Whether a stripe has bytes on a DDR channel of its engine (R137, R200). -/
def Tensor.onRows (t : Tensor) (k ch : Nat) : Bool :=
  let off := k / (t.home k).data * t.stripeBytes
  (List.range ((off + t.stripeBytes - 1) / 4096 + 1 - off / 4096)).any (fun i => (off / 4096 + i) % 16 = ch)

/-- Whether the rows of a group that an engine holds lie on a channel in part. -/
def Tensor.groupOn (t : Tensor) (g ch : Nat) : Bool :=
  let off := g * t.stripeBytes
  (List.range ((off + t.stripeBytes - 1) / 4096 + 1 - off / 4096)).any (fun i => (off / 4096 + i) % 16 = ch)

/-- Whether an epoch whose rows stand in twins loses some of them on a channel of an engine that the codewords on the other engines
do not give back (R194, R215). -/
def State.twinsLost (s : State) (e : EngId) (ch : Nat) (ep : Epoch) : Bool :=
  (ep.state = 1 || ep.pinned) && ep.image.tensors.any (fun x =>
    let t := x.1
    let pl := t.place
    t.twin && hasEngine pl.members e && (List.range (t.groups pl)).any (fun g => t.groupOn g ch &&
      pl.parity < 1 + ((maskEngines pl.members).filter (fun m => m ≠ e && s.missing pl m)).length))

/-- A DDR channel is fenced: the rank row of every unit in use is lost, pages whose slot touches it are lost, and with
parity off the rows are poisoned (R360). Rows already replaced elsewhere are replaced again from the new place. The rebuild
counts as one campaign. Rows of a cut on its twins are rebuilt from the other engines, or their epoch fails (R215). -/
def State.loseChannel (s : State) (e : EngId) (ch : Nat) : State :=
  let s1 := s.modEng e (fun x =>
    { x with lostRows := x.lostRows ++ (x.units.map (fun u => (u, ch))).filter (fun r => !x.lostRows.contains r) ++
               (x.remaps.filter (fun r => channelOf r.2.2 = ch)).map (fun r => (r.1, r.2.1)),
             remaps := x.remaps.filter (fun r => channelOf r.2.2 ≠ ch) })
  let s1' := s1.partIds.foldl (fun s p =>
    ((s.part p).epochs.filter (s.twinsLost e ch)).foldl (fun s ep => s.failEpoch p ep.n) s) s1
  s1'.partIds.foldl (fun s p =>
    s.modPart p (fun x =>
      { x with kv := x.kv.filter (fun k => !(k.body = e && k.touches ch)),
               tensors := x.tensors.map (fun t =>
                 if t.place.parity = 0 && hasEngine t.place.members e then
                   t.addPoison ((List.range t.stripes).filter (fun k => (t.home k).dataEngine k = e && t.onRows k ch))
                 else t) })) (if s1'.campaignsFull || (s1'.eng e).lostRows.isEmpty then s1' else (s1'.startCampaign .ddr none).2)

/-- A free value decides whether one thing held in stage memory lies on the fenced pseudo-channel (log 3). -/
def State.onChannel (s : State) : Bool × State :=
  let (b, s1) := s.draw 1
  (b = 1#1, s1)

/-- An HBM pseudo-channel is fenced (R361): hot copies on it are evicted, which R249 allows at any time; epochs with a
staged shard on it become FAILED; partial sums on it are handled as R155 states. Which of them lie on it is open. -/
def State.losePseudo (s : State) (e : EngId) : State :=
  s.partIds.foldl (fun s p =>
    if !s.hasWindow e p then s
    else
      let s1 := s.modPart p (fun x => { x with kv := x.kv.map (fun k => if k.body = e then { k with hot := none } else k) })
      let s2 := (s1.part p).epochs.foldl (fun s ep =>
        if ep.stagedOn e = 0 then s
        else
          let (hit, s') := s.onChannel
          if hit then s'.failEpoch p ep.n else s') s1
      let (hit, s3) := s2.onChannel
      if hit then s3.clearAccum p e else s3) s

/-- A digest job that ends without digest or context: status, FAIL_FRAG, DIG_MATCH 0 (R266, R273, R274). -/
def Dgx.endWith (d : Dgx) (sc : Status) (frag : Nat) : Dgx :=
  { d with done := true, sc := statusCode sc, dmatch := 0, dmatchN := 0, failFrag := BitVec.ofNat 12 frag, run := none }

/-- The DGX job of a window ends without digest or context, and its VECTOR is signalled. The manual names no SOURCE of
Table 3-6 for the VECTOR of an NMX or DGX block, so the ring entry carries a free value (log 49). -/
def State.endDgx (s : State) (e : EngId) (p : PartId) (sc : Status) (frag : Nat) : State :=
  (s.modWin e p (fun w => { w with dgx := w.dgx.endWith sc frag })).signalBlock e p (s.win e p).dgx.vector.toNat

/-- A shelf-owned digest job waits for a lane, once. -/
def Engine.awaitLane (x : Engine) (w : DigestJob) : Engine :=
  if x.digestWaits.contains w then x else { x with digestWaits := x.digestWaits ++ [w] }

/-- Whether the digest that a lane takes for a shard is that of the bytes as they are transmitted: digest mode (R230). -/
def State.transmits (s : State) (p : PartId) (n : Nat) : Bool := ((s.part p).epoch? n).any (fun ep => ep.verify ≠ 1)

/-- The digest job that ran on a lane which fails or is fenced (R267, R274): a partition's job ends with SC_FENCED; a transmit
digest cannot be run again, so its shard fails verification; every other job of the shelf is run again on another lane. -/
def State.laneJobFails (s : State) (e : EngId) (w : DigestJob) : State :=
  match w with
  | .dgx p => if (s.win e p).dgx.run.isSome then s.endDgx e p .fenced 0 else s
  | .shard p n i => if s.transmits p n then s.shardFails p n i .digestMismatch else s.modEng e (fun x => x.awaitLane w)
  | _ => s.modEng e (fun x => x.awaitLane w)

/-- Partition jobs whose state is saved and that no lane of the engine can take any more end with SC_FENCED: SHA3-256 jobs once
lanes 0–15 are all fenced (R274). -/
def State.endSaved (s : State) (e : EngId) : State :=
  let x := s.eng e
  let f := x.flt[(2 : Fin 11)]
  let dead (p : PartId) : Bool := (s.win e p).dgx.run.any (fun r => r.saved && byteAt r.job 0 = 4)
  if (List.range 16).all (fun i => f.isFenced i) then
    ((List.finRange 64).filter dead).foldl (fun s p => (s.modEng e (fun x =>
      { x with contexts := x.contexts.filter (fun c => c.work ≠ .dgx p) })).endDgx e p .fenced 0) s
  else s

/-- A digest lane is lost with the job on it (R274). -/
def State.loseLane (s : State) (e : EngId) (lane : Nat) : State :=
  let job := (s.eng e).lanes.toList.getD lane none
  let s1 := s.modEng e (fun x => { x with lanes := x.lanes.mapIdx (fun i l => if i = lane then none else l) })
  (match job with
  | some j => s1.laneJobFails e j.work
  | none => s1).endSaved e

/-- What losing a unit means for its work, by block (Table 17-6, R177, R259, R274, R360–R362). -/
def State.unitLost (s : State) (e : EngId) (d : Detection) : State :=
  match d.blk.val with
  | 2 => s.loseLane e d.unit
  | 4 => s.loseChannel e d.unit
  | 5 => s.losePseudo e
  | 8 => s.modEng e (fun x => x.stopPort d.unit)
  | _ => s

/-- The partitions that are members of an engine. -/
def State.partsOn (s : State) (e : EngId) : List PartId := s.partIds.filter (fun p => s.hasWindow e p)

/-- Fence an engine (R363): it stops every port, latches FAULT_N (R358), logs kind 4, announces its departure, and the
other members see ENGINE_FENCED (R364, R433). A fenced engine is fenced no further. -/
def State.fenceEngine (s : State) (e : EngId) (d : Detection) (sev : Nat) : State :=
  let s0 := s.modFlt e d.blk (fun f => { f with latch := setBit f.latch d.src.val true })
  if (s.eng e).fenced then s0
  else
    let s1 := s0.faultLog e (faultEntry (s.time e) d sev 4 ((s.eng e).avail d.blk))
    let s2 := s1.modEng e (fun x => { x.stopPorts with fenced := true })
    let ps := s2.partsOn e
    let s3 := s2.depart e 6 6
    ps.foldl (fun s p => ((maskEngines (s.members p)).filter (fun m => m ≠ e && s.serves m)).foldl
      (fun s m => s.pfltEvent m p 0) s) s3

/-- Fence a unit (R359): its bit, a kind-3 entry, UNIT_FENCED in every partition of the engine, and what its block's
unit held. Where the available count would fall below the escalation limit the engine is fenced instead, kinds 5 then 4
(Table 17-8). -/
def State.fenceUnit (s : State) (e : EngId) (d : Detection) (sev : Nat) : State :=
  if (s.eng e).fenced then s
  else if (s.eng e).avail d.blk < 1 + escalationLimit d.blk then
    ((s.faultLog e (faultEntry (s.time e) d sev 5 ((s.eng e).avail d.blk))).modFlt e d.blk
      (fun f => { f with latch := setBit f.latch d.src.val true })).fenceEngine e d sev
  else
    let s1 := s.modFlt e d.blk (fun f => { f with fenced := setBit f.fenced d.unit true })
    let s2 := s1.faultLog e (faultEntry (s.time e) d sev 3 ((s1.eng e).avail d.blk))
    let s3 := (s2.partsOn e).foldl (fun s p => s.pfltEvent e p 1) s2
    s3.unitLost e d

/-- A detection at a severity acts as Table 17-5 states; each level does what the level above does. -/
def State.actFault (s : State) (e : EngId) (d : Detection) (sev : Nat) (forced dry : Bool) : State :=
  if sev = 0 then s
  else
    let s1 := s.actLog e d sev forced dry
    let s2 := if 2 ≤ sev then s1.actNotify e d else s1
    if sev = 3 && !engineBlock d.blk then s2.fenceUnit e d sev
    else if 3 ≤ sev then s2.fenceEngine e d sev
    else s2

/-- Whether a detection is of no source at all: its unit is fenced on its own (R359), or the source is undefined. -/
def State.absent (s : State) (e : EngId) (d : Detection) : Bool :=
  ((s.eng e).flt[d.blk]).isFenced d.unit || (faultSources d.blk).length ≤ d.src.val

/-- Whether a detection is masked: it is of no source, or the source is disabled. -/
def State.masked (s : State) (e : EngId) (d : Detection) : Bool :=
  s.absent e d || !((s.eng e).flt[d.blk]).enable.getLsbD d.src.val

/-- The level sources (Table 17-3). -/
def levelSource (blk src : Nat) : Bool :=
  [(4, 6), (4, 7), (10, 0), (10, 1), (10, 2), (10, 4), (10, 5), (10, 6)].contains (blk, src)

/-- A block of a powered engine detects a fault source (R356). `clear` ends a level source's condition (R355). -/
def State.detect (s : State) (e : EngId) (d : Detection) : State :=
  if !(s.eng e).powered then s
  else if d.clear then s.modFlt e d.blk (fun f => { f with level := setBit f.level d.src.val false })
  else if s.absent e d then s
  else
    let s1 := if levelSource d.blk.val d.src.val then
      s.modFlt e d.blk (fun f => { f with level := setBit f.level d.src.val true }) else s
    if s.masked e d then s1 else s1.actFault e d (((s.eng e).flt[d.blk]).sevOf d.src.val) false false

/-- A detection of the shelf itself that no access caused: master ID 0x7FFF, access none, address all ones. -/
def plainFault (blk : Fin 11) (src : Fin 32) (unit : Nat) : Detection :=
  { blk := blk, src := src, unit := unit, addr := 0xFFFFFFFFFFFFFFFF, master := 0x7FFF, access := 0xF, part := none,
    status := 0, clear := false }

/-- Raise a MGMT source on an engine, with master class 7. -/
def State.mgmtFault (s : State) (e : EngId) (src : Fin 32) : State :=
  s.detect e { plainFault 7 src 0 with master := 0x7000 }

/-- A new view at or beyond 0xFFFF_FF00 raises VIEW_NEAR_END on its leader (R300). -/
def State.nearEnd (s : State) (before : Nat) : State :=
  let v := s.membership.lastView
  if before < v && 0xFFFFFF00 ≤ v then s.mgmtFault s.firstJoined 7 else s

/-- An engine leaves the view by rule (R312); from view 0xFFFF_FFFF on it fences itself instead (R300). -/
def State.leave (s : State) (e : EngId) (st reason : Nat) : State :=
  if s.membership.lastView = 0xFFFFFFFF && s.joined e then
    s.fenceEngine e { plainFault 7 7 0 with master := 0x7000 } 4
  else (s.depart e st reason).nearEnd s.membership.lastView

/-- A level source whose condition holds and whose status bit is clear acts, where it is enabled (R355). -/
def State.relevel (s : State) (e : EngId) (b : Fin 11) (src : Fin 32) : State :=
  let f := (s.eng e).flt[b]
  if f.level.getLsbD src.val && !f.status.getLsbD src.val && f.enable.getLsbD src.val then
    s.actFault e (plainFault b src 0) (f.sevOf src.val) false false
  else s

/-- Write 1 to bits of FLT_STATUS (R366): each set source is cleared with a kind-2 entry, the latch of a cleared fault
falls, and a level source whose condition holds is set again. -/
def State.clearFaults (s : State) (e : EngId) (b : Fin 11) (w : Word) : State :=
  (List.finRange 32).foldl (fun s src =>
    let f := (s.eng e).flt[b]
    if w.getLsbD src.val && f.status.getLsbD src.val then
      let s1 := (s.modFlt e b (fun f =>
        { f with status := setBit f.status src.val false, latch := setBit f.latch src.val false })).faultLog e
        (faultEntry (s.time e) (plainFault b src 0) (f.acted[src]) 2 ((s.eng e).avail b))
      s1.relevel e b src
    else s) s

/-- Write 1 to bits of FLT_FORCE (R368). -/
def State.injectFaults (s : State) (e : EngId) (b : Fin 11) (w : Word) : State :=
  (List.finRange 32).foldl (fun s src =>
    let f := (s.eng e).flt[b]
    let d : Detection := { plainFault b src f.forceUnit.toNat with addr := f.forceAddr }
    if w.getLsbD src.val && !s.masked e d then
      s.actFault e d (if f.dry then min 2 (f.sevOf src.val) else f.sevOf src.val) true f.dry
    else s) s

end Sys2Proof.Machine
end

