-- ==== Sys2Proof/Machine/Command.lean ====
section
/-! DEFINITION. What every mailbox command shares: the call, the R93 order of checks, reserved bytes, the data
descriptor and its transfers, responses, configuration changes (04, 14 R301, 20 R408, R414, R418). -/

namespace Sys2Proof.Machine

/-- A mailbox command as it starts. -/
structure Call where
  eng : EngId
  key : MbxKey
  part : PartId
  path : Path
  cmd : List Byte
  buf : List Byte
  fail : Option Nat
  flash : Option Nat
  late : Bool
  deriving DecidableEq, Repr

/-- How a command ends its start: finished with a status, ERR_OFFSET and response bytes 8–63, or waiting. -/
inductive Result where
  | done (st : Status) (err : Nat) (body : List Byte)
  | wait (w : JobWait)
  deriving DecidableEq, Repr

/-- The little-endian field of a call's command bytes. -/
def Call.fld (c : Call) (off len : Nat) : Nat := field c.cmd off len

/-- The opcode of a call. -/
def Call.op (c : Call) : Nat := (byteAt c.cmd 0).toNat

/-- A command that completes with SC_OK and the response bytes from byte 8 on. -/
def Result.ok (body : List Byte) : Result := .done .ok 0xFFFF body

/-- A command that completes with a status other than SC_OK and no effect. -/
def refuse (s : State) (st : Status) : State × Result := (s, .done st 0xFFFF [])

/-- A command that completes with SC_INVALID_FIELD at a byte. -/
def badField (s : State) (off : Nat) : State × Result := (s, .done .invalidField off [])

/-- What a command admits: the bytes from 8 on that it lays out, whether bytes 48–63 are a data descriptor, who may
issue it and whether some other right is missing (`deny`), its field errors as (offset, wrong), whether it reads its buffer and the
descriptor byte against which a fault in what it reads is reported (R85), the engines it needs, whether it is
configuration-changing, whether the split window and step 9 refuse it. -/
structure CmdSpec where
  used : List (Nat × Nat) := []
  desc : Bool := false
  p0 : Bool := false
  expert : Bool := false
  deny : Bool := false
  reads : Bool := false
  dataErr : Option Nat := none
  bad : List (Nat × Bool) := []
  needs : BitVec 16 := 0
  config : Bool := false
  split : Bool := false
  step9 : Bool := false

/-- The query set of R414. -/
def querySet (op : Nat) : Bool :=
  [0x01, 0x02, 0x04, 0x13, 0x22, 0x33, 0x53, 0x81, 0x90, 0xA0, 0xA3, 0xA5].contains op

/-- The commands that run in NO_QUORUM, and in E3 without an exit (R104, R311). -/
def alwaysRuns (op : Nat) : Bool := op = 0x01 || op = 0x02 || op = 0x04

/-- Whether a byte of a command is laid out by its command, header included (Table 4-2). -/
def CmdSpec.lists (sp : CmdSpec) (i : Nat) : Bool :=
  i = 0 || i = 2 || i = 3 || (sp.desc && 48 ≤ i) || sp.used.any (fun u => u.1 ≤ i && i < u.1 + u.2)

/-- Nonzero reserved bytes (R11), as (offset, true). -/
def reservedBytes (sp : CmdSpec) (cmd : List Byte) : List (Nat × Bool) :=
  (List.range 64).map (fun i => (i, !sp.lists i && byteAt cmd i ≠ 0))

/-- The descriptor errors of Table 4-3: HADDR and DLEN multiples of 8, DLEN at most 16 MiB, HKEY 0 on a P-port (R85). -/
def descBad (c : Call) : List (Nat × Bool) :=
  [(48, c.fld 48 8 % 8 ≠ 0), (56, c.fld 56 4 ≠ 0 && (match c.path with | .pport _ => true | _ => false)),
   (60, c.fld 60 4 % 8 ≠ 0 || 16777216 < c.fld 60 4)]

/-- DLEN of a call. -/
def Call.dlen (c : Call) : Nat := c.fld 60 4

/-- The bytes of the host buffer, DLEN of them; none when the transfer fails (R86). -/
def Call.data (c : Call) : Option (List Byte) :=
  match c.fail with
  | some f => if f < c.dlen then none else some (padTo c.dlen c.buf)
  | none => some (padTo c.dlen c.buf)

/-- The lowest offending byte of a command (R93 step 4); a buffer that cannot be fetched, or whose contents are wrong, is found
after the fields that the command itself carries (R85, R86). -/
def fieldError (c : Call) (sp : CmdSpec) : Option Nat :=
  firstBad (reservedBytes sp c.cmd ++ sp.bad ++ (if sp.desc then descBad c else [])) <|>
    (if sp.reads && c.data.isNone then some 48 else sp.dataErr)


/-- Whether a sanitise refuses a command of a partition (R414, R415): running or failed, in its scope. SANITISE itself
is checked by R422. -/
def State.sanitiseRefuses (s : State) (p : PartId) (op : Nat) : Bool :=
  !querySet op && op ≠ 0x21 &&
    ((s.sanitise.state = 1 && (s.sanitise.scope = 0 || s.sanitise.part = p.val)) ||
      s.sanitiseFailed.any (fun f => f.2.1 = 0 || f.2.2 = p.val))

/-- Whether the split window is open (R304). -/
def State.windowOpen (s : State) : Bool := s.membership.windowAt.isSome

/-- The configuration-changing opcodes but for SET_FEATURE, which is so only as R102 states (Table 21-2). -/
def configOp (op : Nat) : Bool := [0x30, 0x31, 0x32, 0x35, 0x63, 0x97, 0xA1, 0xA2, 0xA6, 0xA7].contains op

/-- Whether a command is configuration-changing (R88, R102). -/
def configCommand (cmd : List Byte) : Bool :=
  configOp (byteAt cmd 0).toNat ||
    ((byteAt cmd 0).toNat = 3 && (byteAt cmd 10 ≠ 0 || natBit (byteAt cmd 11).toNat 0))

/-- Whether a job is a configuration-changing command in progress. -/
def Job.configWaiting (j : Job) : Bool :=
  configCommand j.cmd && (match j.phase with | .waiting (.decided _) => false | .waiting _ => true | _ => false)

/-- Whether a change of the record is in progress in the shelf (R88). -/
def State.recordChanging (s : State) : Bool :=
  s.adoption.isSome || s.engines.toList.any (fun x =>
    x.redfish.job.any Job.configWaiting || x.windows.toList.any (fun w => w.mbx.job.any Job.configWaiting))

/-- Whether some configuration-changing command is in progress in the shelf, or a rebuild, which counts as one (R88, R279). -/
def State.configInProgress (s : State) : Bool :=
  s.recordChanging || s.parts.toList.any (fun x => x.reshard.any (fun r => r.rebuild && r.campaign.isSome))

/-- The direct-path actions of R401: on an engine that has not joined, Redfish runs them without a mailbox. -/
def directOp (op : Nat) : Bool := [0x90, 0x91, 0x93, 0x98, 0x99].contains op

/-- What Redfish reads of an engine directly before its join: identity, lifecycle and build stand in the engine structure, the fault
state in the FAULT page (R107; DEDUCED, log 137). -/
def directRead (cmd : List Byte) : Bool :=
  ((byteAt cmd 0).toNat = 1 && byteAt cmd 8 = 0) || ((byteAt cmd 0).toNat = 2 && byteAt cmd 8 = 1)

/-- Whether Redfish runs a command of an engine without a mailbox: an action of R401 on an engine that has not joined, a read of R107
before the join. -/
def State.runsDirect (s : State) (e : EngId) (cmd : List Byte) : Bool :=
  !s.joined e && (directOp (byteAt cmd 0).toNat || ((s.eng e).member.state ≠ 5 && directRead cmd))

/-- Whether a call is a direct-path action (R107, R401). -/
def Call.direct (c : Call) (s : State) : Bool := c.key = none && s.runsDirect c.eng c.cmd

/-- The checks of R93 in order, and then the refusals that every chapter's list follows: SC_SANITISE_ACTIVE (R414),
SC_VERSION_SPLIT (R305), SC_BUSY before step 9 ends (R408), SC_BUSY beside another configuration change (R88). -/
def checkCommand (c : Call) (s : State) (sp : CmdSpec) : Option (Status × Nat) :=
  let d := c.direct s
  if !d && (s.eng c.eng).member.state = 5 && !alwaysRuns c.op then some (.noQuorum, 0xFFFF)
  else if !d && (s.eng c.eng).member.state ≠ 5 && !s.joined c.eng then some (.notJoined, 0xFFFF)
  else if !d && sp.needs &&& ~~~s.joinedMask ≠ 0 then some (.notJoined, 0xFFFF)
  else match fieldError c sp with
  | some off => some (.invalidField, off)
  | none =>
    if sp.deny || (sp.p0 && c.part ≠ 0) || (sp.expert && !s.expert c.part) || (c.late && !querySet c.op) ||
        (sp.config && s.membership.lastView = 0xFFFFFFFF) then some (.notPermitted, 0xFFFF)
    else firstStatus [(s.sanitiseRefuses c.part c.op, .sanitiseActive), (s.windowOpen && (sp.split || (sp.config && c.op ≠ 0xA1 && c.op ≠ 0xA2)), .versionSplit),
        (!s.store.step9 && sp.step9, .busy), (sp.config && s.configInProgress, .busy)] |>.map (fun st => (st, 0xFFFF))

/-- Whether a command needs an engine that has left, or with which contact is lost, while no view has formed without it (R299). -/
def Call.awaits (c : Call) (s : State) (sp : CmdSpec) : Bool :=
  !c.direct s && s.joined c.eng && (maskEngines sp.needs).any (fun x => s.awaitsView c.eng x)

/-- Run a command's own part when the shared checks pass; it waits for a new view first where R299 says so. -/
def guarded (c : Call) (s : State) (sp : CmdSpec) (k : State × Result) : State × Result :=
  if c.awaits s sp then (s, .wait .engine)
  else match checkCommand c s sp with
  | some (st, err) => (s, .done st err [])
  | none => k

/-- The first failure of the owning chapter's list, else the command's effect. -/
def ordered (s : State) (cs : List (Bool × Status)) (k : State × Result) : State × Result :=
  match firstStatus cs with
  | some st => refuse s st
  | none => k

/-- Response bytes 8–63 with DONE_LEN in bytes 60–63 (R85). -/
def withDoneLen (body : List Byte) (n : Nat) : List Byte := putLe (padTo 56 body) 52 4 n

/-- Write data to the host buffer, up to DLEN bytes; a failed transfer completes with SC_INVALID_FIELD at 48 and has
written the bytes that DONE_LEN counts (R85, R86). -/
def writeBuffer (c : Call) (s : State) (data body : List Byte) : State × Result :=
  let n := min c.dlen data.length
  let d : Delivery := { eng := c.eng, part := c.part, path := c.path, addr := BitVec.ofNat 64 (c.fld 48 8),
                        key := BitVec.ofNat 32 (c.fld 56 4), bytes := [], mixed := 0 }
  match c.fail with
  | some f =>
    if f < n then (s.deliver { d with bytes := data.take f }, .done .invalidField 48 (withDoneLen body f))
    else (s.deliver { d with bytes := data.take n }, .ok (withDoneLen body n))
  | none => (s.deliver { d with bytes := data.take n }, .ok (withDoneLen body n))

/-- Run a command's own part with the bytes of its buffer. -/
def withData (c : Call) (s : State) (k : List Byte → State × Result) : State × Result :=
  match c.data with
  | some d => k d
  | none => badField s 48

/-- A byte string of `n` bytes with little-endian fields (offset, length, value) and zeros elsewhere. -/
def layoutBytes (n : Nat) (fs : List (Nat × Nat × Nat)) : List Byte :=
  fs.foldl (fun b f => putLe b f.1 f.2.1 f.2.2) (zeros n)

/-- Response bytes 8–63 with fields at the offsets of the whole response. -/
def rspFields (fs : List (Nat × Nat × Nat)) : List Byte := layoutBytes 56 (fs.map (fun f => (f.1 - 8, f.2)))

/-- Engines that a mask field names, where 0 means a default. -/
def enginesOr (m dflt : BitVec 16) : BitVec 16 := if m = 0 then dflt else m

/-- The leader starts the adoption of a record (R301): it will send it with CONFIG_SEQ one above the current value. -/
def State.adopt (s : State) (r : ConfigRecord) (cmd : List Byte) (p : PartId) (src : Option (EngId × MbxKey)) : State :=
  { s with adoption := some { record := { r with seq := s.record.seq + 1 }, leader := leaderOf s.joinedMask, cmd := cmd,
                              part := p, src := src, commit := false, acked := 0, current := 0, since := s.now } }

/-- A command starts a configuration change and waits for its adoption. A SET_FEATURE carries the bytes of its buffer
along. -/
def startAdoption (c : Call) (s : State) (r : ConfigRecord) : State × Result :=
  (s.adopt r (c.cmd ++ (if c.op = 3 then c.data.getD [] else [])) c.part (some (c.eng, c.key)), .wait .adoption)

/-- The record with a partition's entry set. -/
def ConfigRecord.setPart (r : ConfigRecord) (p : PartId) (c : PartCfg) : ConfigRecord :=
  { r with parts := assocSet r.parts p.val c }

/-- The record with a partition's entry removed. -/
def ConfigRecord.delPart (r : ConfigRecord) (p : PartId) : ConfigRecord := { r with parts := assocDel r.parts p.val }

/-- A partition ID from a number; only 0–63 name one. -/
def partId? (n : Nat) : Option PartId := if h : n < 64 then some ⟨n, h⟩ else none

/-- An engine index from a number; only 0–15 name one. -/
def engId? (n : Nat) : Option EngId := if h : n < 16 then some ⟨n, h⟩ else none

/-- Whether a campaign of a partition is in flight. -/
def State.hasCampaign (s : State) (p : PartId) : Bool := s.campaigns.any (fun c => c.part = some p)

/-- Whether a campaign of a kind is in flight. -/
def State.anyCampaign (s : State) (ks : List CampaignKind) : Bool := s.campaigns.any (fun c => ks.contains c.kind)

end Sys2Proof.Machine
end

