-- ==== Sys2Proof/Machine/TimeOps.lean ====
section
/-! DEFINITION. The source of shelf time, the time error bound, medians and skews (R306–R310, Table 14-2). -/

namespace Sys2Proof.Machine

/-- The row of Table 14-2 that TIME_SOURCE allows and that is present; row 4 when both SCMs have failed (R308). -/
def TimeSrc.bestRow (t : TimeSrc) (scmUp : Bool) : Nat :=
  if !scmUp then 4
  else if t.ptp && t.policy ≠ 2 then 0
  else if t.pps && t.ten && t.policy ≠ 1 then 1
  else if t.ten && t.policy ≠ 1 then 2
  else 3

/-- Growth of the bound in parts of 10^8 (Table 14-2). -/
def boundRate (row : Nat) : Nat := [0, 0, 2, 5, 10].getD row 10

/-- TIME_STATE of a row (Table 14-2). -/
def timeState (row : Nat) : Nat := [0, 1, 1, 2, 2].getD row 2

/-- The time error bound in nanoseconds (R308). -/
def State.timeBound (s : State) : Nat :=
  s.timeSrc.boundBase + (s.now - s.timeSrc.boundSince) * boundRate s.timeSrc.row / 100000000

/-- Whether the active SCM drives the root reference: it runs, or finishes its own start-up (R54, R55, R57). -/
def State.scmUp (s : State) : Bool := s.plant.scm[s.plant.activeScm] ≠ .failed

/-- Take the source that is allowed and present. A source whose bound does not grow brings the bound back to 1 µs, with
what TIME_SET stated while that gives time of day; else the bound grows on at the new rate (log 74). PTP in use ends TIME_SET
as the source of time of day (R308). -/
def State.selectSource (s : State) : State :=
  let t := s.timeSrc
  let row := t.bestRow s.scmUp
  if row = t.row then s
  else
    let keep := t.timeSet && row ≠ 0
    let base := if boundRate row = 0 then 1000 + (if keep then t.setBound else 0) else s.timeBound
    { s with timeSrc := { t with boundBase := base, boundSince := s.now, row := row, timeSet := keep } }

/-- The median of a list of times: the middle one, or the mean of the two middle ones rounded down (R308). -/
def medianTime (ts : List Nat) : Nat :=
  let l := ts.insertionSort (· ≤ ·)
  if l.length % 2 = 1 then l.getD (l.length / 2) 0 else (l.getD (l.length / 2 - 1) 0 + l.getD (l.length / 2) 0) / 2

/-- The median of the counters of a set of engines. -/
def State.median (s : State) (m : BitVec 16) : Nat := medianTime ((maskEngines m).map (fun e => (s.time e).toNat))

/-- An engine's offset from the median of the view's counters; of the joining engines before the first view (Table 14-1). -/
def State.offset (s : State) (e : EngId) : Int :=
  let base := if s.joinedMask = 0 then engineMask ((List.finRange 16).filter (fun x => s.serves x)) else s.joinedMask
  ((s.time e).toNat : Int) - (s.median base : Int)

/-- An engine's skew (R308). -/
def State.skew (s : State) (e : EngId) : Nat :=
  let t := s.timeSrc
  let src := if t.row ≤ 1 || t.timeSet then (s.eng e).clock.srcOffset.natAbs else 0
  max (max (s.offset e).natAbs s.timeBound) src

/-- The joined engines that are TIME_SUSPECT. -/
def State.suspectMask (s : State) : BitVec 16 :=
  engineMask ((maskEngines s.joinedMask).filter (fun e => (s.eng e).clock.suspect))

/-- A counter steers toward a source: it slews, or steps forward at the next second where it may and is more than 1 ms
behind (R307). -/
def Clock.steer (c : Clock) (src : Int) (mayStep : Bool) : Clock :=
  let off := (c.now.toNat : Int) - src
  if mayStep && off < -1000000 then { c with srcOffset := off, step := -off, slew := 0 }
  else { c with srcOffset := off, step := 0, slew := -off }

/-- Every powered engine steers toward a source. -/
def State.steerAll (s : State) (src : Int) (mayStep : Bool) : State :=
  s.modEngines 0xFFFF (fun _ x => if x.powered then { x with clock := x.clock.steer src mayStep } else x)

/-- TIME_SET becomes the source of time of day: its bound is added to the 1 µs, and time moves under R307 (R308, R318). -/
def State.timeSet (s : State) (tai boundUs : Nat) : State :=
  let t := s.timeSrc
  let s1 : State := { s with timeSrc := { t with boundBase := 1000 + boundUs * 1000, boundSince := s.now, timeSet := true, setBound := boundUs * 1000,
                                                 todSet := true, setOffset := (tai : Int) - (s.now : Int) } }
  s1.steerAll tai true

end Sys2Proof.Machine
end

