-- ==== Sys2Proof/Machine/Admin.lean ====
section
/-! DEFINITION. The administration group: IDENTIFY, GET_LOG with every log page, SET_FEATURE and GET_FEATURE (04). -/

namespace Sys2Proof.Machine

/-! ### Features (R102, R103) -/

/-- The key under which a value of a feature is held: the port for PFC, the engine for IDLE_TIMERS and FAULT_THRESHOLD,
the partition for VERIFY_MODE, one for the whole shelf otherwise. -/
def featureKey (fid : Nat) (e : EngId) (p : PartId) (value : List Byte) : Nat :=
  match fid with
  | 1 => e.val * 32 + (byteAt value 0).toNat
  | 3 | 5 => e.val
  | 6 => p.val
  | _ => 0

/-- The default of a feature as the bytes from 16 on; empty for STORE_TARGETS (R103). -/
def featureDefault (fid : Nat) : List Byte :=
  match fid with
  | 2 => []
  | 3 => padTo 32 (natLe 4 20 ++ natLe 4 50000)
  | 5 => padTo 32 [3]
  | 7 => padTo 32 [2]
  | _ => zeros 32

/-- Whether an entry of a feature list belongs to a feature as one engine and partition see it. -/
def featureMatch (fid : Nat) (e : EngId) (p : PartId) (x : Nat × Nat × List Byte) : Bool :=
  x.1 = fid && (if fid = 1 then x.2.1 / 32 = e.val else x.2.1 = featureKey fid e p [])

/-- The saved value of a feature on an engine, or its default (R102). For PFC it is the value saved last. -/
def State.featureSaved (s : State) (fid : Nat) (e : EngId) (p : PartId) : List Byte :=
  ((s.record.saved.find? (featureMatch fid e p)).map (fun x => x.2.2)).getD (featureDefault fid)

/-- The value of a shelf-wide feature or of PFC that is in force (STORE_TARGETS, POWER_CAP, PARITY_POLICY). -/
def State.featureHeld (s : State) (fid : Nat) (e : EngId) (p : PartId) : List Byte :=
  ((s.features.find? (featureMatch fid e p)).map (fun x => x.2.2)).getD (featureDefault fid)

/-- The current value of a feature on an engine (R102). For PFC, whose GET_FEATURE names no port, it is the value set
last on the engine (DEDUCED, log 20). -/
def State.featureNow (s : State) (fid : Nat) (e : EngId) (p : PartId) : List Byte :=
  let x := s.eng e
  match fid with
  | 3 => padTo 32 (x.power.timers.toList.flatMap (natLe 4))
  | 5 => padTo 32 (natLe 1 x.threshold)
  | 6 => padTo 32 (natLe 1 (s.part p).verify)
  | 8 => padTo 32 (natLe 1 s.timeSrc.policy)
  | _ => s.featureHeld fid e p

/-- The parity policy in force: P of R137. -/
def State.parity (s : State) : Nat := field (s.featureHeld 7 0 0) 0 1

/-- The power cap in watts; 0 for none. -/
def State.powerCap (s : State) : Nat := field (s.featureHeld 4 0 0) 0 4

/-- The STORE_TARGETS value in force. -/
def State.targets (s : State) : List Byte := s.featureHeld 2 0 0

/-- N of a STORE_TARGETS value (Table 10-10). -/
def targetCount (v : List Byte) : Nat := field v 16 1

/-- Put a value in front of the held ones of its feature and key. -/
def holdFeature (l : List (Nat × Nat × List Byte)) (fid key : Nat) (v : List Byte) : List (Nat × Nat × List Byte) :=
  (fid, key, v) :: l.filter (fun x => !(x.1 = fid && x.2.1 = key))

/-- The clock level that CLOCK_LEVEL_CHANGE takes: the slower of the heat limit and the cap level (R373); L2 or slower before the
join (R386). -/
def State.levelWanted (s : State) (e : EngId) : Nat := max (s.eng e).power.heat (if s.joined e then s.cap.level else 2)

/-- The cap level and CAP_UNMET change: the THERMAL page of every engine that runs shows it (R98, R384). -/
def State.setCap (s : State) (c : PowerCap) : State :=
  let s1 : State := { s with cap := c }
  if c.level = s.cap.level && c.unmet = s.cap.unmet then s1
  else s1.modEngines 0xFFFF (fun _ x =>
    if x.powered then { x with logs := { x.logs with thermalGen := x.logs.thermalGen + 1 } } else x)

/-- A port takes a PFC value (R34). -/
def Port.setPfc (q : Port) (v : List Byte) : Port := { q with pfcOn := byteAt v 1 ≠ 0, pfcPrio := (byteAt v 2).toNat }

/-- A feature takes a value on some engines (Table 4-11). -/
def State.applyFeature (s : State) (fid : Nat) (es : BitVec 16) (p : PartId) (v : List Byte) : State :=
  match fid with
  | 1 => (maskEngines es).foldl (fun s e =>
      let n := (byteAt v 0).toNat
      let s1 := s.modEng e (fun x =>
        { x with ports := x.ports.mapIdx (fun i q => if i = n then q.setPfc v else q),
                 logs := { x.logs with portGen := x.logs.portGen + 1 } })
      { s1 with features := holdFeature s1.features 1 (featureKey 1 e p v) v }) s
  | 3 => s.modEngines es (fun _ x =>
      { x with power := { x.power with timers := #v[field v 0 4, field v 4 4, field v 8 4] } })
  | 4 =>
    let s1 : State := { s with features := holdFeature s.features 4 0 v }
    if field v 0 4 = 0 then s1.setCap { s1.cap with level := 0, unmet := false } else s1
  | 5 => s.modEngines es (fun _ x => { x with threshold := field v 0 1 })
  | 6 => s.modPart p (fun x => { x with verify := field v 0 1 })
  | 8 => ({ s with timeSrc := { s.timeSrc with policy := field v 0 1 } }).selectSource
  | _ => { s with features := holdFeature s.features fid 0 v }

/-- The record with a value saved: for the receiving engine with SCOPE 0, for every engine position with SCOPE 1
(R102). -/
def ConfigRecord.save (r : ConfigRecord) (fid : Nat) (all : Bool) (e : EngId) (p : PartId) (v : List Byte) :
    ConfigRecord :=
  let es := if all then List.finRange 16 else [e]
  { r with saved := es.foldl (fun l e => holdFeature l fid (featureKey fid e p v) v) r.saved }

/-- The saved PFC value of a port, or the default. -/
def State.savedPfc (s : State) (e : EngId) (i : Nat) : List Byte :=
  ((s.record.saved.find? (fun y => y.1 = 1 && y.2.1 = e.val * 32 + i)).map (fun y => y.2.2)).getD (zeros 3)

/-- Every feature takes its saved value, or its default, as at power-on (R102); FAULT_THRESHOLD does so at the join (R370).
Timers and cap act only from the join on (R386). -/
def State.loadFeatures (s : State) : State :=
  let s1 : State := { s with features := s.record.saved.filter (fun x => x.1 = 1 || x.1 = 2 || x.1 = 4 || x.1 = 7) }
  let s2 := s1.modEngines 0xFFFF (fun e x =>
    let v := s.featureSaved 3 e 0
    let t := #v[field v 0 4, field v 4 4, field v 8 4]
    { x with power := { x.power with timers := t, inForce := t },
             ports := x.ports.mapIdx (fun i q => q.setPfc (s.savedPfc e i)) })
  let s3 := (List.finRange 64).foldl (fun s p =>
    s.modPart p (fun x => { x with verify := field (s.featureSaved 6 0 p) 0 1 })) s2
  (s3.applyFeature 8 0 0 (s.featureSaved 8 0 0))

/-- The scopes that a feature allows (Table 4-11). -/
def featureScopes (fid : Nat) : List Nat :=
  match fid with
  | 1 => [0]
  | 3 | 5 => [0, 1]
  | _ => [1]

/-- The first IDLE_TIMERS field that breaks the rising order of the enabled timers (R382). -/
def timerBreak (ts : List (Nat × Nat)) (prev : Nat) : Option Nat :=
  match ts with
  | [] => none
  | (off, t) :: rest => if t = 0 then timerBreak rest prev else if t ≤ prev then some off else timerBreak rest t

/-- The value bytes of a feature that SET_FEATURE lays out, and their errors (Table 4-11, R382, R383). -/
def featureFields (c : Call) (fid : Nat) : List (Nat × Nat) × List (Nat × Bool) :=
  match fid with
  | 1 => ([(16, 3)], [(16, 19 < c.fld 16 1), (17, 1 < c.fld 17 1), (18, 7 < c.fld 18 1)])
  | 2 => ([], [(60, !(c.dlen % 256 = 64 && 320 ≤ c.dlen && c.dlen ≤ 64 + 64 * 256))])
  | 3 => ([(16, 12)], match timerBreak [(16, c.fld 16 4), (20, c.fld 20 4), (24, c.fld 24 4)] 0 with
      | some o => [(o, true)]
      | none => [])
  | 4 => ([(16, 4)], [(16, c.fld 16 4 ≠ 0 && !(10000 ≤ c.fld 16 4 && c.fld 16 4 ≤ 21000))])
  | 5 => ([(16, 1)], [(16, !(1 ≤ c.fld 16 1 && c.fld 16 1 ≤ 4))])
  | 6 => ([(16, 1)], [(16, 1 < c.fld 16 1)])
  | 7 | 8 => ([(16, 1)], [(16, 2 < c.fld 16 1)])
  | _ => ([(8, 56)], [(8, true)])

/-- Whether a STORE_TARGETS value breaks Table 10-10: a value out of range, a reserved byte, entries out of order. -/
def targetsBad (v : List Byte) : Bool :=
  let n := targetCount v
  let keep := field v 18 2
  n = 0 || 64 < n || (keep ≠ 0 && (keep < 2 || 1024 < keep)) || 16 < field v 20 1 ||
    256 < field v 24 4 || (15 < field v 17 1 && field v 17 1 ≠ 255) || field v 21 3 ≠ 0 || field v 28 36 ≠ 0 ||
    (List.range n).any (fun i =>
      let x := slice v (64 + 256 * i) 256
      field x 0 1 ≠ i || 1 < field x 1 1 || 1 < field x 2 1 || field x 3 1 ≠ 0 || field x 6 2 ≠ 0 || field x 28 4 ≠ 0)

/-- The descriptor byte against which a STORE_TARGETS value is reported: DLEN where it is not the length that N entries take, else the
buffer (R85). -/
def targetsError (v : List Byte) : Option Nat :=
  if 1 ≤ targetCount v && targetCount v ≤ 64 && v.length ≠ 64 + 256 * targetCount v then some 60
  else if targetsBad v then some 48 else none

/-- Whether an epoch of any partition is COPYING, CUT, DRAINING or VERIFYING (Table 8-3 codes 1 to 4). -/
def State.epochBusy (s : State) : Bool :=
  s.parts.toList.any (fun x => x.epochs.any (fun ep => 1 ≤ ep.state && ep.state ≤ 4))

/-- The refusals of R232 and R284 for a changed STORE_TARGETS or PARITY_POLICY; a rebuild that waits refuses too (Table 13-5). -/
def State.featureBusy (s : State) (fid : Nat) (v : List Byte) : Bool :=
  (fid = 2 && s.anyCampaign [.drain, .restore, .format]) ||
    (fid = 7 && field v 0 1 ≠ s.parity && (s.epochBusy || !s.campaigns.isEmpty || s.parts.toList.any (fun x => x.rebuildWait)))

/-- SET_FEATURE (R102): the value that the command carries, once its fields are checked. -/
def setFeatureValue (c : Call) (s : State) (fid : Nat) (v : List Byte) : State × Result :=
  if s.featureBusy fid v then refuse s .busy
  else if configCommand c.cmd then
    startAdoption c s (if natBit (c.fld 11 1) 0 then s.record.save fid (c.fld 10 1 = 1) c.eng c.part v else s.record)
  else (s.applyFeature fid (engineBit c.eng) c.part v, .ok [])

/-- SET_FEATURE (0x03). -/
def cmdSetFeature (c : Call) (s : State) : State × Result :=
  let fid := c.fld 8 2
  let (used, bad) := featureFields c fid
  let sp : CmdSpec :=
    { used := [(8, 4)] ++ used, desc := fid = 2, p0 := fid ≠ 6, config := configCommand c.cmd, reads := fid = 2,
      dataErr := if fid = 2 then c.data.bind targetsError else none,
      bad := bad ++ [(10, !(featureScopes fid).contains (c.fld 10 1)), (11, 1 < c.fld 11 1)] }
  guarded c s sp
    (if fid = 2 then withData c s (setFeatureValue c s fid)
     else setFeatureValue c s fid (slice c.cmd 16 32))

/-- GET_FEATURE (0x04). -/
def cmdGetFeature (c : Call) (s : State) : State × Result :=
  let fid := c.fld 8 2
  let known := 1 ≤ fid && fid ≤ 8
  guarded c s { used := [(8, 3)], desc := fid = 2, bad := [(8, !known), (10, 2 < c.fld 10 1)] }
    (let v := match c.fld 10 1 with
      | 0 => s.featureNow fid c.eng c.part
      | 1 => s.featureSaved fid c.eng c.part
      | _ => featureDefault fid
     if fid = 2 then writeBuffer c s v (rspFields [(16, 4, v.length)])
     else (s, .ok (padTo 56 (zeros 8 ++ v))))

/-! ### IDENTIFY (R95–R97) -/

/-- Available units in a range of a block. -/
def Engine.availIn (x : Engine) (blk : Fin 11) (lo n : Nat) : Nat :=
  ((List.range n).filter (fun i => !x.flt[blk].isFenced (lo + i))).length

/-- The available rate of a P-port: lowered in proportion by a link below 64 GT/s or x16 (R96, R4). -/
def Engine.pportRate (x : Engine) (i : Fin 2) : Nat :=
  if x.flt[(8 : Fin 11)].isFenced (20 + i.val) then 0
  else
    let q := x.ports[20 + i.val]
    let speed := match q.rate.toNat with
      | 4 => 1
      | 5 => 2
      | _ => 4
    if q.linkUp then 128000 * speed * (min 16 q.width.toNat) / 64 else 128000

/-- The streams of the partitions on an engine. -/
def State.streamsOn (s : State) (e : EngId) : Nat :=
  ((s.record.parts.filter (fun c => hasEngine c.2.members e)).map (fun c => c.2.streams)).sum

/-- Loaded key slots of an engine. -/
def Engine.loadedSlots (x : Engine) : Nat := (x.keeper.slots.toList.filter (fun k => k.usage ≠ 0)).length

/-- The unit counts of Table 4-7: nominal and available. -/
def State.unitCounts (s : State) (e : EngId) : List (Nat × Nat) :=
  let x := s.eng e
  [(64, x.availIn 0 0 64), (48, x.availIn 1 0 48), (64, x.availIn 2 0 64), (32, x.availIn 3 0 32),
   (16, x.availIn 4 0 16), (192, x.availIn 5 0 192), (16, x.availIn 8 0 16), (4, x.availIn 8 16 4),
   (2, x.availIn 8 20 2), (16, x.availIn 6 0 16)]

/-- Nominal and available capacities: pool, stage, tile buffers (R96). -/
def State.capacities (s : State) (e : EngId) : List (Nat × Nat) :=
  let x := s.eng e
  [(8000000000000, 8000000000000 * x.availIn 4 0 16 / 16), (216000000000, 216000000000 * x.availIn 5 0 192 / 192),
   (268435456, 268435456 * x.availIn 0 0 64 / 64)]

/-- Nominal and available rates (Table 4-7). -/
def State.rates (s : State) (e : EngId) : List (Nat × Nat) :=
  let x := s.eng e
  let core := x.availIn 0 0 64
  let scale (n a d : Nat) : Nat × Nat := (n, n * a / d)
  [scale 1130000 (x.availIn 4 0 16) 16, scale 7200000 (x.availIn 5 0 192) 192, scale 1600000 (x.availIn 8 0 16) 16,
   scale 400000 (x.availIn 8 16 4) 4, (256000, x.pportRate 0 + x.pportRate 1), scale 4000000 (x.availIn 6 0 16) 16,
   scale 416000 (x.availIn 2 0 64) 64, scale 1600000 (x.availIn 3 0 32) 32, scale 2000000 (x.availIn 3 0 32) 32,
   scale 1048576 core 64, scale 524288 core 64, scale 65536 core 64]

/-- Contexts, total and free (Table 4-7). MSI-X vectors count 32 for each partition of the engine (DEDUCED, log 21). -/
def State.contextCounts (s : State) (e : EngId) : List (Nat × Nat) :=
  let x := s.eng e
  [(4096, 4096 - s.streamsOn e), (2048, 2048 - s.locksHeld e), (64, 64 - x.loadedSlots),
   (2048, 2048 - 32 * (s.partsOn e).length), (16384, 16384 - x.qps.length)]

/-- The IDENTIFY engine structure of Table 4-7. -/
def State.engineStruct (s : State) (e : EngId) : List Byte :=
  let x := s.eng e
  layoutBytes 4096
    ([(0, 2, 1), (2, 1, e.val), (3, 1, e.val / 2), (4, 1, x.lifecycle), (5, 1, x.debug), (6, 1, x.power.state),
      (7, 1, x.fw.active.val), (8, 1, x.fw.major.toNat), (9, 1, x.fw.minor.toNat), (10, 2, x.fw.patch.toNat),
      (12, 1, x.fw.sec.toNat), (16, 8, (Config.engineSerial e).toNat)] ++
     (s.unitCounts e).zipIdx.flatMap (fun (u, i) => [(32 + 4 * i, 2, u.1), (34 + 4 * i, 2, u.2)]) ++
     (s.capacities e).zipIdx.flatMap (fun (u, i) => [(128 + 16 * i, 8, u.1), (136 + 16 * i, 8, u.2)]) ++
     (s.rates e).zipIdx.flatMap (fun (u, i) => [(192 + 8 * i, 4, u.1), (196 + 8 * i, 4, u.2)]) ++
     (s.contextCounts e).zipIdx.flatMap (fun (u, i) => [(320 + 8 * i, 4, u.1), (324 + 8 * i, 4, u.2)]) ++
     [(512, 4, 5000), (516, 4, x.power.timers[0]), (528, 4, 800000), (532, 4, x.power.timers[1]),
      (544, 4, 40000000), (548, 4, x.power.timers[2])])

/-- The record written out as numbers, in its order of fields. -/
def ConfigRecord.listing (r : ConfigRecord) : List Nat :=
  [Config.shelfSerial.toNat, r.seq] ++
    r.parts.flatMap (fun (p, c) =>
      [p, c.members.toNat, bit c.expert, c.streams, c.poolGib, c.stageGib, c.verify, c.mslot.getD 255,
       c.dslot.getD 255, c.gids.length] ++ c.gids ++ [c.qos.length] ++
        c.qos.flatMap (fun (k, m, a, b, d) => [k, m, a.toNat, b.toNat, d.toNat])) ++
    r.saved.flatMap (fun (f, k, v) => [f, k, v.length] ++ v.map BitVec.toNat) ++
    [r.leaseSlot.getD 255, r.excluded.toNat, r.admitted.toNat]

/-- CONFIG_HASH: the SHA-256 of the record (14). -/
def State.configHash (s : State) : List Byte := sha256 (Config.recordLayout s.record.listing)

/-- The least of the builds (major, minor) of the view under an order. -/
def State.buildEnd (s : State) (better : Nat → Nat → Bool) : Nat :=
  ((maskEngines s.joinedMask).map (fun e => (s.eng e).fw.major.toNat * 256 + (s.eng e).fw.minor.toNat)).foldl
    (fun m b => match m with
      | none => some b
      | some a => some (if better b a then b else a)) none |>.getD 0

/-- The IDENTIFY shelf structure of Table 4-8, as the receiving engine fills it. -/
def State.shelfStruct (s : State) (e : EngId) : List Byte :=
  let lo := s.buildEnd (fun a b => a < b)
  let hi := s.buildEnd (fun a b => b < a)
  putBytes (layoutBytes 4096
    [(0, 2, 1), (2, 1, maskCount s.joinedMask), (3, 1, 9), (4, 4, s.membership.lastView), (8, 1, bit s.tide.flood),
     (9, 1, bit (s.tide.turn ≠ 0)), (10, 1, s.parity), (11, 1, s.partIds.length), (12, 2, s.joinedMask.toNat),
     (14, 2, s.fencedMask.toNat), (48, 1, lo / 256), (49, 1, lo % 256), (50, 1, hi / 256), (51, 1, hi % 256),
     (52, 1, timeState s.timeSrc.row), (53, 1, s.plant.activeScm.val), (54, 2, s.campaigns.length),
     (56, 8, (s.time e).toNat), (64, 16, Config.shelfSerial.toNat)]) 16 s.configHash

/-- IDENTIFY (0x01). The shelf structure is filled at the moment of completion (R97). -/
def cmdIdentify (c : Call) (s : State) : State × Result :=
  guarded c s { used := [(8, 1)], desc := true, bad := [(8, 1 < c.fld 8 1)] }
    (if c.fld 8 1 = 0 then writeBuffer c s (s.engineStruct c.eng) [] else (s, .wait .view))

/-! ### Log pages (R98–R101) -/

/-- A log page with the header of Table 4-9. -/
def logPage (id size gen : Nat) (entries : List (List Byte)) : List Byte :=
  let body := entries.flatten
  layoutBytes 64 [(0, 1, id), (1, 1, 1), (2, 2, size), (4, 4, entries.length), (8, 8, 64 + body.length), (16, 8, gen)]
    ++ body

/-- A FAULT entry (Table 17-7). -/
def FaultEntry.bytes (n : FaultEntry) : List Byte :=
  layoutBytes 64
    [(0, 8, n.time.toNat), (8, 1, n.blk), (9, 1, n.src), (10, 1, n.sev), (11, 1, n.kind), (12, 2, n.unit),
     (14, 2, n.master.toNat), (16, 1, n.access.toNat), (17, 1, (n.part.map Fin.val).getD 255), (18, 1, n.status.toNat),
     (24, 8, n.addr.toNat), (32, 4, n.avail)]

/-- KIND of a port (Table 2-7). -/
def portKind (n : Nat) : Nat := if n < 16 then 0 else if n < 20 then 1 else 2

/-- PORT_STATUS (Table 2-7). -/
def Port.status (q : Port) (n : Nat) : Nat :=
  bit q.linkUp + 2 * bit q.fenced +
    4 * bit (20 ≤ n && q.linkUp && (q.rate.toNat < 6 || q.width.toNat < 16)) + 8 * bit q.pfcOn + 16 * portKind n +
    256 * q.rate.toNat + 4096 * q.width.toNat + 131072 * bit q.flit

/-- A PORT entry (R432). -/
def Port.bytes (q : Port) (n : Nat) : List Byte :=
  layoutBytes 32 [(0, 4, q.status n), (4, 4, q.retrains.toNat), (8, 8, q.corrected.toNat), (16, 8, q.uncorrected.toNat),
    (24, 8, q.changed.toNat)]

/-- The defined opcodes with their COMMANDS bits (R100, Table 21-2): (opcode, entry). -/
def commandTable : List (Nat × Nat) :=
  [(0x01, 1), (0x02, 1), (0x03, 9), (0x04, 1), (0x10, 5), (0x11, 5), (0x12, 5), (0x13, 1), (0x20, 5), (0x21, 5),
   (0x22, 1), (0x30, 13), (0x31, 13), (0x32, 13), (0x33, 1), (0x34, 1), (0x35, 13), (0x36, 1), (0x40, 1), (0x41, 1),
   (0x42, 1), (0x43, 1), (0x44, 1), (0x45, 1), (0x50, 1), (0x51, 1), (0x52, 1), (0x53, 1), (0x54, 1), (0x60, 1),
   (0x61, 1), (0x62, 1), (0x63, 13), (0x64, 1), (0x65, 1), (0x70, 3), (0x71, 3), (0x72, 3), (0x73, 3), (0x74, 1),
   (0x80, 5), (0x81, 1), (0x82, 1), (0x83, 1), (0x90, 1), (0x91, 5), (0x92, 5), (0x93, 5), (0x94, 1), (0x95, 1),
   (0x96, 1), (0x97, 9), (0x98, 5), (0x99, 5), (0x9A, 5), (0xA0, 1), (0xA1, 13), (0xA2, 13), (0xA3, 1), (0xA4, 5),
   (0xA5, 1), (0xA6, 13), (0xA7, 13)]

/-- The ERRORS entries that a partition sees: its own in order, or for partition 0 all merged by time (R101). -/
def Engine.errorsFor (x : Engine) (p : PartId) : List ErrorEntry :=
  if p = 0 then x.logs.errors.insertionSort (fun a b =>
    a.time.toNat < b.time.toNat || (a.time = b.time && a.part.val ≤ b.part.val))
  else x.logs.errors.filter (fun n => n.part = p)

/-- An ERRORS entry (R101). -/
def ErrorEntry.bytes (n : ErrorEntry) : List Byte :=
  layoutBytes 16 [(0, 1, n.op.toNat), (1, 1, n.status.toNat), (2, 2, n.cid.toNat), (4, 2, n.off.toNat),
    (6, 1, n.part.val), (8, 8, n.time.toNat)]

/-- GENERATION of the ERRORS page that a partition sees. -/
def Engine.errorsGenFor (x : Engine) (p : PartId) : Nat :=
  if p = 0 then (x.logs.errorsGen.map Prod.snd).sum else assocGetD x.logs.errorsGen p.val 0

/-- A temperature of 1/16 °C as two signed bytes. -/
def tempField (t : Int) : Nat := (t % 65536).toNat

/-- A sensor entry of the THERMAL page (R384). -/
def Sensor.bytes (x : Sensor) (kind index : Nat) : List Byte :=
  layoutBytes 16 [(0, 1, kind), (1, 1, index), (2, 1, x.state), (4, 2, tempField x.temp), (6, 2, tempField x.max),
    (8, 8, x.changed.toNat)]

/-- Kind and index of the sensors in the order of Table 18-4. -/
def sensorNames : List (Nat × Nat) := sensorKinds.flatMap (fun k => (List.range k.2).map (fun i => (k.1, i)))

/-- The entries of the THERMAL page (R384). -/
def State.thermalEntries (s : State) (e : EngId) : List (List Byte) :=
  let w := (s.eng e).power
  [layoutBytes 16 [(1, 1, w.level), (2, 1, s.cap.level), (3, 1, w.heat), (4, 1, bit s.cap.unmet), (6, 2, w.draw),
    (8, 8, w.levelAt.toNat)]] ++
    (w.sensors.zip sensorNames).map (fun (x, k) => x.bytes k.1 k.2) ++
    w.channels.toList.zipIdx.map (fun (x, i) => x.bytes 5 i)

/-- A MEMBERSHIP entry (R319). -/
def MemberEntry.bytes (n : MemberEntry) : List Byte :=
  layoutBytes 32 [(0, 4, n.view), (4, 1, n.event), (5, 1, n.eng), (6, 1, n.reason), (8, 8, n.time.toNat),
    (16, 2, n.joined.toNat), (18, 2, n.fenced.toNat), (20, 8, n.seq)]

/-- A log page as a partition reads it on an engine (Table 4-10). -/
def State.logPageOf (s : State) (e : EngId) (p : PartId) (id : Nat) : List Byte :=
  let x := s.eng e
  match id with
  | 1 => logPage 1 64 x.logs.faultGen (x.logs.fault.map FaultEntry.bytes)
  | 2 => logPage 2 32 x.logs.portGen (x.ports.toList.zipIdx.map (fun (q, n) => q.bytes n))
  | 3 => logPage 3 4 0 ((List.range 256).map (fun op => natLe 4 (assocGetD commandTable op 0)))
  | 4 => logPage 4 16 (x.errorsGenFor p) ((x.errorsFor p).map ErrorEntry.bytes)
  | 5 => logPage 5 64 (x.journal.next - 1)
      ((x.journal.entries.drop (x.journal.entries.length - 65536)).map (journalBytes e))
  | 6 => logPage 6 16 x.logs.thermalGen (s.thermalEntries e)
  | 7 => logPage 7 32 s.membership.generation (s.membership.log.map MemberEntry.bytes)
  | _ => []

/-- Copy a page to the host buffer, as far as the flash gives it: SC_MEDIUM_ERROR with the bytes copied before the first that cannot be
read (R106). -/
def copyPage (c : Call) (s : State) (data body : List Byte) : State × Result :=
  match c.flash with
  | some k =>
    if k < min c.dlen data.length then
      match writeBuffer c s (data.take k) body with
      | (s1, .done .ok _ b) => (s1, .done .mediumError 0xFFFF b)
      | r => r
    else writeBuffer c s data body
  | none => writeBuffer c s data body

/-- GET_LOG (0x02). -/
def cmdGetLog (c : Call) (s : State) : State × Result :=
  let id := c.fld 8 1
  let known := 1 ≤ id && id ≤ 7
  let page := s.logPageOf c.eng c.part id
  let off := c.fld 16 8
  guarded c s { used := [(8, 1), (16, 8)], desc := true, p0 := known && id ≠ 3 && id ≠ 4,
                bad := [(8, !known), (16, off % 8 ≠ 0 || (known && page.length < off))] }
    (copyPage c s (page.drop off) (rspFields [(8, 8, field page 16 8), (16, 8, page.length)]))

end Sys2Proof.Machine
end

