-- ==== Sys2Proof/Machine/TensorOps.lean ====
section
/-! DEFINITION. Shared operations on tensors and policies: admitted formats, STRIPE_LOG2 and preconditioning, reading
elements, deriving WEIGHT, registering and dropping (06). -/

namespace Sys2Proof.Machine

/-- The stored formats that a class admits (Table 6-1). -/
def classFormats (cls : Nat) : List Nat :=
  match cls with
  | 0 => [1, 2, 3, 4]
  | 2 => [0, 1]
  | 3 => [0, 1, 5]
  | 6 => [7]
  | _ => [0]

/-- Whether a class names a MASTER tensor as its parent (Table 6-1). -/
def dependentClass (cls : Nat) : Bool := cls ≠ 1 && cls ≠ 6

/-! ### Policies (Table 6-4) -/

/-- A field of a policy, by its offset in the STEP_POLICY command; a policy is bytes 8–63 of it. -/
def polField (pol : List Byte) (off len : Nat) : Nat := field pol (off - 8) len

/-- FAMILY of a policy. -/
def polFamily (pol : List Byte) : Nat := polField pol 8 1

/-- Whether the policy rounds stochastically (ROUND). -/
def polStochastic (pol : List Byte) : Bool := polField pol 9 1 = 1

/-- An FP32 parameter of a policy. -/
def polWord (pol : List Byte) (off : Nat) : Word := BitVec.ofNat 32 (polField pol off 4)

/-- The policy that was set last: the one waiting to govern, else the one in force. -/
def Partition.lastPolicy (x : Partition) : Option (List Byte) := x.nextPolicy <|> x.policy

/-- A waiting policy governs from now on, with its contributor count; no step has been completed under it (R149, R151). -/
def Partition.adoptPolicy (x : Partition) : Partition :=
  match x.nextPolicy with
  | some pol => { x with policy := some pol, nextPolicy := none,
                         step := { x.step with contributors := polField pol 12 2, t := 0 } }
  | none => x

/-- The KRONECKER policy in force, if there is one. -/
def Partition.kron (x : Partition) : Option (List Byte) := x.policy.filter (fun pol => polFamily pol = 3)

/-- Whether a shape with a STRIPE_LOG2 is preconditionable under a KRONECKER policy (R150). -/
def precondable (rows cols log2 : Nat) (pol : List Byte) : Bool :=
  2 ^ polField pol 14 1 ≤ rows && 2 ^ polField pol 15 1 ≤ cols && 2 ^ log2 % (cols * 2 ^ polField pol 14 1) = 0

/-- The STRIPE_LOG2 that byte 32 set to 0 stands for (R150). -/
def Partition.defaultLog2 (x : Partition) (cls rows cols : Nat) : Nat :=
  match x.kron with
  | some pol => if cls = 1 then
      ((List.range 7).find? (fun i => precondable rows cols (18 + i) pol)).elim 18 (fun i => 18 + i) else 18
  | none => 18

/-- The MASTER tensor that a tensor stands with: its parent, or itself. -/
def Partition.master (x : Partition) (t : Tensor) : Option Tensor :=
  if t.cls = 1 then some t else if dependentClass t.cls then x.tensor? t.parent.toNat else none

/-- Whether a tensor is preconditioned (R150, R152 byte 41). -/
def Partition.preconditioned (x : Partition) (t : Tensor) : Bool :=
  match x.kron, x.master t with
  | some pol, some m => precondable m.rows m.cols m.log2 pol
  | _, _ => false

/-! ### Elements -/

/-- The stored offset of element `i`; for BS8 the start of its run of 32. -/
def Tensor.at_ (t : Tensor) (i : Nat) : Nat := storedBytes t.format i

/-- FP32 elements of a tensor; for BS8 the first one starts a run. -/
def State.elemsAt (s : State) (t : Tensor) (first count : Nat) : List Word :=
  decodeElems t.format (s.tensorBytes t (t.at_ first) (t.at_ (first + count) - t.at_ first))

/-- Store FP32 elements with their rounding site (R160–R162). -/
def State.putElems (s : State) (t : Tensor) (first : Nat) (stoch : Bool) (step site : Nat) (xs : List Word) : State :=
  s.putTensor t (t.at_ first) (encodeElems t.format (xs.zipIdx.map (fun (x, i) =>
    (x, roundingOf stoch step site t.rid.toNat (first + i)))))

/-- Whether the policy in force rounds stochastically. -/
def Partition.stochastic (x : Partition) : Bool := x.policy.any polStochastic

/-- Derive one WEIGHT tensor's range from the elements of its MASTER (R135, R162 site 0). -/
def State.deriveOne (s : State) (p : PartId) (w : Tensor) (step first : Nat) (xs : List Word) : State :=
  s.putElems w first (s.part p).stochastic step 0 xs

/-- Derive every WEIGHT dependant of a MASTER range. -/
def State.deriveWeight (s : State) (p : PartId) (m : Tensor) (step first count : Nat) : State :=
  (((s.part p).dependants m.id).filter (fun w => w.cls = 0)).foldl (fun s w =>
    s.deriveOne p w step first (s.elemsAt m first count)) s

/-! ### Poison -/

/-- Whether some stripe of a range of stored bytes is poisoned. -/
def Tensor.poisoned (t : Tensor) (off len : Nat) : Bool :=
  t.poison.any (fun k => k * t.stripeBytes < off + len && off < (k + 1) * t.stripeBytes)

/-- Stored bytes of a tensor up to the first that is poisoned or cannot be served (R133). -/
def State.readable (s : State) (t : Tensor) (off : Nat) : Nat → List Byte × Option Status
  | 0 => ([], none)
  | n + 1 =>
    if t.poisoned off 1 then ([], some .poisoned)
    else match s.tensorByte t off with
    | none => ([], some .fenced)
    | some b =>
      let r := s.readable t (off + 1) n
      (b :: r.1, r.2)

/-- How many stored bytes from an offset can be written: up to the first that is poisoned (log 47) or on a lost engine. -/
def State.writable (s : State) (t : Tensor) (off n : Nat) : Nat × Option Status :=
  let r := s.readable t off n
  (r.1.length, r.2)

/-- The effect of a WRITE on a tensor; a MASTER range also derives its WEIGHT range (R135). -/
def State.writeTensor (s : State) (p : PartId) (t : Tensor) (off : Nat) (data : List Byte) : State :=
  let s1 := s.putTensor t off data
  if t.cls = 1 then s1.deriveWeight p t (s1.part p).step.completed (off / 4) (ceilDiv data.length 4) else s1

/-! ### Registering and dropping -/

/-- A tensor ID that the shelf gives to a PRECOND tensor. The manual does not say which: a free value begins the search
(log 3). -/
def State.freshTensorId (s : State) (p : PartId) : Word × State :=
  let (r, s1) := s.draw 32
  let used := (s.part p).tensors.map (fun t => t.id)
  let ids := (List.range (used.length + 2)).map (fun i => r + BitVec.ofNat 32 i)
  ((ids.find? (fun i => i ≠ 0 && !used.contains i)).getD 1, s1)

/-- A tensor takes its units and enters the registry; none when there is no room. The next cut is full (R183). -/
def State.register (s : State) (p : PartId) (t : Tensor) : Option State :=
  (s.takePlacement t t.place).map (fun r =>
    r.2.modPart p (fun x => { x with tensors := x.tensors ++ [{ t with place := r.1 }], nextFull := true }))

/-- The PRECOND tensor of a MASTER under a KRONECKER policy: one row for each block, L and L^-1/4 and with SIDES 2 also R
and R^-1/4, blocks in row-major order (R151). Its stripe k holds the blocks of the parent's stripe k (log 30). -/
def precondTensor (id : Word) (m : Tensor) (pol : List Byte) : Tensor :=
  let br := 2 ^ polField pol 14 1
  let bc := 2 ^ polField pol 15 1
  let cols := 2 * br * br + (if polField pol 11 1 = 2 then 2 * bc * bc else 0)
  let perBand := m.cols / bc
  let t : Tensor :=
    { m with id := id, rid := id, cls := 4, fmt := 0, hostFmt := 0, rows := (m.rows / br) * perBand, cols := cols,
             parent := m.id, per := 2 ^ m.log2 / (m.cols * br) * perBand * cols, dest := none, moved := [], poison := [], scrubbed := [],
             sums := [], bitmap := [], pushes := [], charge := 0 }
  { t with charge := t.chargeFor m.place }

/-- Remove tensors from the registry, and give their rows back. A failed step stays failed: the partition leaves that phase through new
registrations after the last tensor has gone (R154). -/
def State.unregister (s : State) (p : PartId) (f : Tensor → Bool) : State :=
  let gone := (s.part p).tensors.filter f
  let s1 := gone.foldl (fun s t =>
    let s' := s.freePlacement t.place
    match t.dest with
    | some d => s'.freePlacement d
    | none => s') s
  s1.modPart p (fun x =>
    { x with tensors := x.tensors.filter (fun t => !f t), nextFull := true })

/-- Whether more charge than a tensor's share fits each of its engines. -/
def State.roomFor (s : State) (p : PartId) (t : Tensor) : Bool :=
  t.place.list.all (fun e => !s.overQuota p e (ceilDiv t.charge (max 1 t.place.count)))

/-- Make the PRECOND tensor of one MASTER; none when there is no room. -/
def State.makePrecond (s : State) (p : PartId) (m : Tensor) (pol : List Byte) : Option State :=
  let (id, s1) := s.freshTensorId p
  let t := precondTensor id m pol
  if s1.roomFor p t then s1.register p t else none

/-- Make the PRECOND tensors that a policy asks for and that are absent, and remove those it does not (R135, R150). -/
def State.setPreconds (s : State) (p : PartId) (pol : List Byte) : Option State :=
  let want (m : Tensor) : Bool := m.cls = 1 && polFamily pol = 3 && precondable m.rows m.cols m.log2 pol
  let keep (t : Tensor) : Bool :=
    ((s.part p).tensors.any (fun m => m.id = t.parent && want m && (precondTensor t.id m pol).cols = t.cols))
  let s1 := if (s.part p).tensors.any (fun t => t.cls = 4 && !keep t) then
    s.unregister p (fun t => t.cls = 4 && !keep t) else s
  (((s1.part p).sorted).filter (fun m => want m &&
      !(s1.part p).tensors.any (fun t => t.cls = 4 && t.parent = m.id))).foldlM
    (fun s m => s.makePrecond p m pol) s1

/-! ### ACCUM sums (R139) -/

/-- The FP32 value of a sum: the exact one rounded once to nearest even, since the sum does not depend on the order of arrival (R139,
Table 6-6; log 33). -/
def Acc.word (a : Acc) : Word :=
  if a.nan then nan32 a.nanNeg
  else if a.posInf && a.negInf then nan32 (Config.invalidNanNeg (inf32 false) (inf32 true))
  else if a.posInf then inf32 false
  else if a.negInf then inf32 true
  else fp32OfRat false ((a.sum : Rat) / ((2 ^ 149 : Nat) : Rat))

/-- The sum of nothing. -/
def Acc.zero : Acc := { sum := 0, posInf := false, negInf := false, nan := false, nanNeg := false }

/-- A sum with one more FP32 addend. -/
def Acc.add (a : Acc) (x : Word) : Acc :=
  match val32 x with
  | .nan n => if a.nan then a else { a with nan := true, nanNeg := n }
  | .inf n => if n then { a with negInf := true } else { a with posInf := true }
  | .fin n m => { a with sum := a.sum + (signedVal n m * ((2 ^ 149 : Nat) : Rat)).floor }

/-- The sum of one element of an ACCUM tensor. -/
def Tensor.accAt (t : Tensor) (i : Nat) : Acc := (assocGet t.sums i).getD Acc.zero

/-- The contents of an ACCUM tensor as sparse FP32 bytes. -/
def Tensor.accMemory (t : Tensor) : Memory :=
  t.sums.foldl (fun m a => Memory.writeBytes m (4 * a.1) (natLe 4 a.2.word.toNat)) []

/-- Whether an epoch of a partition is being copied (Table 8-3). -/
def Partition.copying (x : Partition) : Bool := x.epochs.any (fun ep => ep.state = 1)

/-- Whether a step of a partition is in progress: from its first push until it completes (06 Mid-step). -/
def Partition.stepping (x : Partition) : Bool := 1 ≤ x.step.phase && x.step.phase ≤ 3

/-- Whether a restore campaign of a partition runs (R293). -/
def Partition.restoring (x : Partition) : Bool := x.restore.any (fun r => r.state = 2)

end Sys2Proof.Machine
end

