-- ==== Sys2Proof/Machine/Manifest.lean ====
section
/-! DEFINITION. Shards, shard objects, META payloads and manifests: building and parsing (R224–R226, Tables 10-6 to 10-8).
-/

namespace Sys2Proof.Machine

/-! ### Stripes of an image -/

/-- The stripes that R137 places on an engine, ascending. -/
def Tensor.stripesOn (t : Tensor) (e : EngId) : List Nat :=
  (List.range t.stripes).filter (fun k => t.place.dataEngine k = e)

/-- Stored bytes of stripe `k`: the last one may be shorter. -/
def Tensor.stripeLen (t : Tensor) (k : Nat) : Nat := min t.stripeBytes (t.bytes - k * t.stripeBytes)

/-- A tensor that an image holds, with its contents. -/
def Image.tensor? (g : Image) (id : Word) : Option (Tensor × Memory) := g.tensors.find? (fun t => t.1.id = id)

/-- The bytes of stripes of a captured tensor, concatenated. -/
def imageStripes (t : Tensor × Memory) (ks : List Nat) : List Byte :=
  ks.flatMap (fun k => Memory.readBytes t.2 (k * t.1.stripeBytes) (t.1.stripeLen k))

/-! ### META payloads (Table 10-7) -/

/-- META_TYPE 1: riders in ascending ID. -/
def metaRiders (rs : List (Nat × List Byte)) : List Byte :=
  rs.flatMap (fun r => natLe 2 r.1 ++ zeros 2 ++ natLe 4 r.2.length ++ pad8 r.2)

/-- META_TYPE 2: the bitmaps of ACCUM tensors in ascending ID, contributor-major. -/
def metaBitmaps (g : Image) : List Byte :=
  ((g.tensors.map Prod.fst).filter (fun t => t.cls = 5)).flatMap (fun t =>
    natLe 4 t.id.toNat ++ natLe 2 g.contributors ++ zeros 2 ++ natLe 8 t.segments ++
      pad8 (packBits ((List.range g.contributors).flatMap (fun c =>
        (List.range t.segments).map (fun i => natBit (assocGetD t.bitmap i 0) c)))))

/-- The META payload of a type. -/
def Image.metaPayload (g : Image) (type : Nat) : List Byte :=
  match type with
  | 1 => metaRiders g.riders
  | 2 => metaBitmaps g
  | _ => g.contexts

/-! ### Shard objects (R225, R226, Table 10-8) -/

/-- Raw bytes of a shard of an epoch; `base` is the image of the base epoch for a DELTA shard. -/
def Shard.raw (h : Shard) (g : Image) (base : Option Image) : List Byte :=
  if h.kind = 2 then g.metaPayload h.metaType
  else match g.tensor? h.tid with
  | none => []
  | some t =>
    let ks := ((t.1.stripesOn (Fin.ofNat 16 h.src)).filter (fun k => h.first ≤ k)).take h.count
    let now := imageStripes t ks
    if h.kind = 0 then now
    else match base.bind (fun b => b.tensor? h.tid) with
    | some u => xorBytes now (imageStripes u ks)
    | none => now

/-- The element format of a shard's c-blocks: the stored format where Table 11-3 has it, E4M3 for BS8, else none (R242, R244). -/
def shardElem (g : Image) (h : Shard) : Nat :=
  match (if h.kind = 2 then none else g.tensor? h.tid) with
  | some t => if t.1.fmt ≤ 4 then t.1.fmt else if t.1.fmt = 5 then 3 else 0xFF
  | none => 0xFF

/-- Encrypt or decrypt data units of 4,096 bytes, tweak j then nonce (R226). -/
def xtsUnits (enc : Bool) (key : List Byte) (nonce : DWord) (first : Nat) (bs : List Byte) : List Byte :=
  (chunks 4096 bs).zipIdx.flatMap (fun (u, i) => xtsUnit enc key (natLe 8 (first + i) ++ natLe 8 nonce.toNat) u)

/-- The stored object of a shard, with the sum of the coded lengths of its c-blocks. `key` is the data key when ENC is
1. -/
def shardObject (gen n : Nat) (h : Shard) (elem : Nat) (raw : List Byte) (key : Option (List Byte)) (nonce : DWord) :
    List Byte × Nat :=
  let blocks := (chunks 65536 raw).map (fun b => (b.length, encodeCBlock 0 elem b))
  let dir := blocks.foldl (fun (r : Nat × List Byte) b =>
    (r.1 + roundUp b.2.length 8,
     r.2 ++ natLe 8 r.1 ++ natLe 4 b.2.length ++ natLe 3 b.1 ++ [byteAt b.2 1])) (0, [])
  let plain := blocks.flatMap (fun b => pad8 b.2)
  let payload := padTo (roundUp plain.length 4096) plain
  let off := roundUp (256 + 16 * blocks.length) 4096
  let stored := match key with
    | some k => xtsUnits true k nonce 0 payload
    | none => payload
  let hdr := layoutBytes 256 [(8, 2, 1), (10, 2, 256), (12, 4, gen), (16, 6, n), (22, 1, h.kind), (23, 1, h.metaType),
    (24, 4, h.tid.toNat), (28, 1, h.src), (29, 1, bit key.isSome), (32, 8, h.first), (40, 4, h.count),
    (44, 4, blocks.length), (48, 8, raw.length), (56, 8, payload.length), (64, 8, off),
    (72, 8, if key.isSome then nonce.toNat else 0)]
  (padTo off (putBytes hdr 0 (ascii "WLMSH001") ++ dir.2) ++ stored, (blocks.map (fun b => b.2.length)).sum)

/-- A c-block of an object whose directory entry leads beyond the payload (R246). -/
def shortBlock (c : List Byte) (rawLen method : Nat) : DecodeFail :=
  { status := .lengthUnder, decoded := if method = 0 then c.length - 32 else rawLen }

/-- The raw bytes of a stored object under the checks of R246, or the status that fails it with the raw offset of the capture
(R247); the directory entry goes before the header of a c-block, and one that leads beyond the payload is too short (R246). -/
def parseObject (o : List Byte) (key : Option (List Byte)) : Except (Status × Nat) (List Byte) :=
  let nc := field o 44 4
  let off := field o 64 8
  let len := field o 56 8
  let payload := slice o off len
  let plain := match (if field o 29 1 = 1 then key else none) with
    | some k => xtsUnits false k (BitVec.ofNat 64 (field o 72 8)) 0 payload
    | none => payload
  if o.take 8 ≠ ascii "WLMSH001" || field o 8 2 ≠ 1 || o.length < off + len || nc ≠ ceilDiv (field o 48 8) 65536 then
    .error (.codeInvalid, 0)
  else (List.range nc).foldlM (fun (r : List Byte) i =>
    let e := slice o (256 + 16 * i) 16
    let c := slice plain (field e 0 8) (field e 8 4)
    let d := field e 12 3
    let fails (f : DecodeFail) : Except (Status × Nat) (List Byte) := .error (f.status, r.length + failPosition f d)
    if len < field e 0 8 + field e 8 4 then fails (shortBlock c d (field e 15 1))
    else match decodeCBlock c d (some (field e 15 1)) with
      | .ok b => .ok (r ++ b)
      | .error f => fails f) []

/-! ### Manifests (R224) -/

/-- A tensor entry of 64 bytes, with the index and count of its shards. -/
def tensorEntry (t : Tensor) (first count : Nat) : List Byte :=
  layoutBytes 64 [(0, 4, t.id.toNat), (4, 4, t.rid.toNat), (8, 1, t.cls), (9, 1, t.fmt), (10, 1, bit t.twin),
    (11, 1, t.hostFmt), (12, 1, t.log2), (14, 2, t.place.members.toNat), (16, 8, t.rows), (24, 4, t.cols),
    (28, 4, t.parent.toNat), (32, 8, t.bytes), (40, 4, first), (44, 4, count)]

/-- A shard entry of 96 bytes. -/
def shardEntry (h : Shard) : List Byte :=
  putBytes (layoutBytes 96 [(0, 8, h.ptr), (8, 4, h.tid.toNat), (12, 1, h.kind), (13, 1, h.metaType), (14, 1, h.src),
    (16, 8, h.first), (24, 4, h.count), (32, 8, h.rawLen), (40, 8, h.objLen)]) 48 h.digest

/-- The manifest of an epoch under a manifest key; its tensor table is ascending, each tensor's shards are consecutive and
the META shards come last. -/
def manifestBytes (p : PartId) (ep : Epoch) (gen : Nat) (key : List Byte) (keyId : DWord) (enc : Bool) : List Byte :=
  let g := ep.image
  let ts := g.tensors.map Prod.fst
  let total := 256 + 64 * ts.length + 96 * ep.shards.length + 48
  let hdr := layoutBytes 256 [(8, 2, 1), (10, 2, 256), (12, 4, gen), (16, 6, ep.n), (22, 1, ep.kind), (23, 1, p.val),
    (24, 6, ep.base), (30, 1, g.parity), (31, 1, bit enc), (32, 8, ep.cutTime.toNat), (40, 6, g.completed),
    (46, 2, g.contributors), (48, 4, min g.skip 0xFFFFFFFF), (52, 4, ts.length), (56, 4, ep.shards.length),
    (60, 4, 256), (64, 4, 256 + 64 * ts.length), (72, 8, total), (80, 8, (ep.shards.map Shard.rawLen).sum),
    (88, 8, (ep.shards.map Shard.codedLen).sum), (96, 8, if enc then keyId.toNat else 0), (104, 6, g.t)]
  let body := putBytes (putBytes hdr 0 (ascii "WLMMF001")) 128 g.policy ++
    ts.flatMap (fun t => tensorEntry t (ep.shards.findIdx (fun h => h.tid = t.id))
      (ep.shards.filter (fun h => h.tid = t.id)).length) ++ ep.shards.flatMap shardEntry
  body ++ hmacSha384 key body

/-- Whether a manifest read from the store has the digest and length that its commit record names (R233). -/
def manifestFits (m commit : List Byte) : Bool :=
  m.take 8 = ascii "WLMMF001" && field m 72 8 = field commit 64 8 && m.length = field commit 64 8 &&
    sha256 m = slice commit 72 32

/-- Whether a manifest carries the seal of a key. -/
def sealFits (m key : List Byte) : Bool := hmacSha384 key (m.take (m.length - 48)) = m.drop (m.length - 48)

/-- The manifest that a commit record names. -/
def State.readManifest (s : State) (commit : List Byte) : List Byte := s.readPtr (field commit 56 8) (field commit 64 8)

/-- The shard entries of a manifest. -/
def manifestShards (m : List Byte) : List (List Byte) :=
  (List.range (field m 56 4)).map (fun i => slice m (field m 64 4 + 96 * i) 96)

/-- The STORE tokens that reading every shard of a restore's chain draws (Table 3-8, R72, R290; log 152). -/
def Restore.tokens (r : Restore) : Nat :=
  ((r.chain.flatMap manifestShards).map (fun h => ceilDiv (field h 40 8) blockBytes)).sum

/-- The tensor entries of a manifest. -/
def manifestTensors (m : List Byte) : List (List Byte) :=
  (List.range (field m 52 4)).map (fun i => slice m (field m 60 4 + 64 * i) 64)

/-- The runs of the shards that the retained epochs of a generation refer to. -/
def State.retainedShards (s : State) (gen : Nat) : List Nat :=
  (s.retained gen).flatMap (fun c => (manifestShards (s.readManifest c.2)).map (fun e => field e 0 8))

/-- Deallocate the shards that an epoch of a generation alone referred to, and its manifest; none that a retained epoch refers
to (R231). -/
def State.freeCommitted (s : State) (gen : Nat) (commit : List Byte) : State :=
  let kept := s.retainedShards gen
  (((manifestShards (s.readManifest commit)).filter (fun e => !kept.contains (field e 0 8))).foldl
    (fun s e => s.freeRun (field e 0 8)) s).freeRun (field commit 56 8)

/-- Retire one epoch of a generation: its commit record is marked RETIRED, and then its blocks are deallocated (R231). -/
def State.retireEpoch (s : State) (gen n : Nat) : State :=
  match s.readGen gen, s.readCommit gen n with
  | some g, some r => (s.writePtr (ringPtr g n) (sealRec (putLe (r.take 4064) 11 1 1)) true).freeCommitted gen r
  | _, _ => s

/-- Whether every volume that an epoch on the store lies on is reached: the ring, the manifest and its shards. -/
def State.reachesEpoch (s : State) (gen n : Nat) : Bool :=
  match s.readGen gen, s.readCommit gen n with
  | some g, some r => ([genRing g, field r 56 8] ++ (manifestShards (s.readManifest r)).map (fun e => field e 0 8)).all
      (fun p => s.reaches (ptrVol p))
  | _, _ => false

/-! ### Generations (R222, R231) -/

/-- The blocks of each stream log that STORE_TARGETS sets (Table 10-10). -/
def logBlocksOf (v : List Byte) : Nat := (if field v 24 4 = 0 then 4 else field v 24 4) * 262144

/-- KEEP and GEN_KEEP of STORE_TARGETS. -/
def keepOf (v : List Byte) : Nat := if field v 18 2 = 0 then 8 else field v 18 2

def genKeepOf (v : List Byte) : Nat := if field v 20 1 = 0 then 2 else field v 20 1

/-- The generations of a partition from one back, by PREV_GEN. -/
def State.genChain (s : State) : Nat → Nat → List Nat
  | 0, _ => []
  | fuel + 1, gen => match s.readGen gen with
    | some g => gen :: (if genPrev g = 0xFFFFFFFF then [] else s.genChain fuel (genPrev g))
    | none => []

/-- Retire a generation: its epochs, then the record RETIRED, ring and logs deallocated, the record FREE (R231). -/
def State.retireGen (s : State) (gen : Nat) : State :=
  match s.readGen gen with
  | none => s
  | some g =>
    let s1 := (s.retained gen).reverse.foldl (fun s c => s.retireEpoch gen c.1) s
    let s2 := (s1.storeWrite 0 (genLba gen) (sealRec (putLe (g.take 4064) 10 1 2)) true).freeRun (genRing g)
    let s3 := (List.range 16).foldl (fun s e => s.freeRun (genLog g e)) s2
    s3.storeWrite 0 (genLba gen) (sealRec (putLe (g.take 4064) 10 1 0)) true

/-- Whether every volume that a generation's ring and logs lie on is reached. -/
def State.reachesGen (s : State) (g : List Byte) : Bool :=
  (genRing g :: (List.range 16).map (genLog g)).all (fun p => s.reaches (ptrVol p))

/-- Open a generation of a partition by the steps of R222; the failure statuses are those of R222. A shelf that holds no
lease, or does not reach volume 0, writes nothing (R221, R232): SC_NOT_FOUND (log 32). -/
def State.openGen (s : State) (p : PartId) : Except Status State :=
  let l := s.store.lease
  let gen := l.slot * 2 ^ 24 + l.nextGen
  let blocks := logBlocksOf s.targets
  if !s.mayWrite || !s.reaches 0 then .error .notFound
  else if 0xFFFFFF ≤ l.nextGen then .error .epochExhausted
  else if (s.readBlocks 0 (genLba gen) 4096 |> fun r => sealedOk "WLMGN001" r && genState r = 1) then .error .quota
  else
    let runs := (4096 :: List.replicate 16 blocks).foldlM (fun (a : List Nat × State) n =>
      (a.2.takeBlocks n).map (fun r => (a.1 ++ [r.1], r.2))) (([], s) : List Nat × State)
    match runs with
    | none => .error .quota
    | some (ptrs, s1) =>
      let (nonce, s2) := s1.freshNonce
      let s3 := (ptrs.zip (4096 :: List.replicate 16 blocks)).foldl (fun s r =>
        s.writeZeroes (ptrVol r.1) (ptrLba r.1) r.2) s2
      let s4 := s3.storeWrite 0 (genLba gen) (genRecord 1 p.val gen s3.shelfTime
        (((s.part p).gen <|> (s.part p).prevGen).getD 0xFFFFFFFF) (ptrs.headD 0) blocks ptrs.tail nonce) true
      let l1 : Lease := { s4.store.lease with nextGen := l.nextGen + 1, seq := l.seq + 1 }
      let s5 := ({ s4 with store := { s4.store with lease := l1 } }).writeLease 1
      let s6 := s5.modPart p (fun x =>
        { x with prevGen := x.gen <|> x.prevGen, gen := some gen, nextEpoch := 1, nextFull := true, lsn := Vector.replicate 16 0 })
      .ok ((((s6.genChain 64 gen).drop (genKeepOf s.targets)).filter (fun g =>
        g / 2 ^ 24 = l.slot && (s6.readGen g).any (fun r => s6.reachesGen r))).foldl (fun s g => s.retireGen g) s6)

/-- The generation that a cut was waiting for is there: the epochs in flight that had none take it with the numbers they
have, and counting goes on from there (R193, R222). -/
def Partition.joinGen (x : Partition) (next : Nat) (full : Bool) : Partition :=
  if x.epochs.any (fun ep => ep.gen.isNone) then
    { x with nextEpoch := next, nextFull := full, epochs := x.epochs.map (fun ep => { ep with gen := ep.gen <|> x.gen }) }
  else x

/-- A partition without a generation gets one where the store can be written (R222). -/
def State.ensureGen (s : State) (p : PartId) : State :=
  let x := s.part p
  if x.gen.isSome then s
  else match s.openGen p with
  | .ok s1 => s1.modPart p (fun y => y.joinGen x.nextEpoch x.nextFull)
  | .error _ => s

end Sys2Proof.Machine
end

