-- ==== Sys2Proof/Machine/KeyOps.lean ====
section
/-! DEFINITION. The keeper domain: key slots and their generations, zeroisation, tamper detections and alarms, the alarm
register, debug states (19). -/

namespace Sys2Proof.Machine

/-- A key slot of an engine. -/
def State.slot (s : State) (e : EngId) (i : Fin 64) : KeySlot := (s.eng e).keeper.slots[i]

/-- The state with one keeper updated. -/
def State.modKeeper (s : State) (e : EngId) (f : Keeper → Keeper) : State :=
  s.modEng e (fun x => { x with keeper := f x.keeper })

/-- A slot takes new contents, and its SLOT_GEN increments; before an increment that would wrap, the context-wrap key is
replaced by a fresh random one (R390). -/
def State.fillSlot (s : State) (e : EngId) (i : Fin 64) (k : KeySlot) : State :=
  let g := (s.slot e i).gen
  let s1 := if g = 0xFFFFFFFF then
      let (w, s') := s.draw 256
      s'.modKeeper e (fun x => { x with wrapKey := w })
    else s
  s1.modKeeper e (fun x => { x with slots := x.slots.set i.val { k with gen := g + 1 } i.isLt })

/-- Zeroise one slot (R392, R390). -/
def State.zeroSlot (s : State) (e : EngId) (i : Fin 64) : State := s.fillSlot e i KeySlot.empty

/-- Zeroise the loaded slots of an engine that a test selects. -/
def State.zeroSlots (s : State) (e : EngId) (f : KeySlot → Bool) : State :=
  (List.finRange 64).foldl (fun s i => if (s.slot e i).usage ≠ 0 && f (s.slot e i) then s.zeroSlot e i else s) s

/-- Zeroise every slot, the owner key and the context-wrap key; every SLOT_GEN increments (R392 step 1). -/
def State.zeroAll (s : State) (e : EngId) : State :=
  ((List.finRange 64).foldl (fun s i => s.zeroSlot e i) s).modKeeper e (fun x => { x with wrapKey := 0, zeroFailed := false })

/-- Replace the context-wrap key by a fresh random one. -/
def State.newWrapKey (s : State) (e : EngId) : State :=
  let (w, s1) := s.draw 256
  s1.modKeeper e (fun x => { x with wrapKey := w })

/-- The debug state returns to CLOSED (R398). -/
def State.closeDebug (s : State) (e : EngId) : State := s.modEng e (fun x => { x with debug := 0, debugAt := 0 })

/-- The alarm register after one more detection of a source (Table 19-4). -/
def alarmAfter (k : Keeper) (src : Nat) (unpowered : Bool) : DWord :=
  let a := k.alarm.toNat
  let first := bits a 15 8 = 0
  let count := min 255 (bits a 15 8 + 1)
  let sources := (bits a 7 0) ||| (2 ^ src)
  let un := if first then bit unpowered else bits a 17 17
  let time := if first then k.rtc / 2 ^ 20 % 2 ^ 44 else bits a 63 20
  BitVec.ofNat 64 (sources + count * 2 ^ 8 + bits a 16 16 * 2 ^ 16 + un * 2 ^ 17 + min 3 k.reserve * 2 ^ 18 + time * 2 ^ 20)

/-- The tamper sources that are active at a time, as SEC_QUERY gives them. -/
def Keeper.activeNow (k : Keeper) (now : Nat) : Nat := ((List.finRange 8).map (fun i => if now < k.active[i] then 2 ^ i.val else 0)).sum

/-- A zeroisation that does not verify is repeated, and the repeat fails too: without the busbar it has drawn on the reserve again
(R405; log 155). -/
def Keeper.badZero (k : Keeper) (busbar : Bool) : Keeper :=
  { k with zeroFailed := true, reserve := if busbar then k.reserve else k.reserve - 1 }

/-- A tamper source is detected and stays active for `dur` ns (R392). An alarm zeroises from the busbar, or from the reserve without
one, sets HOLD and closes debug; `bad` says that the zeroisation does not verify (R405). A powered engine then stops every port and
announces its departure. -/
def State.tamper (s : State) (e : EngId) (src : Fin 8) (dur : Nat) (bad : Bool) : State :=
  let x := s.eng e
  let armed := x.lifecycle = 2 && (src = 7 || x.keeper.arm.getLsbD src.val)
  let alarm := armed && !x.hold
  let s1 := if alarm then s.zeroAll e else s
  let s2 := if alarm && !s.plant.busbar then s1.modKeeper e (fun k => { k with reserve := k.reserve - 1 })
    else s1
  let s2 := if alarm && bad then s2.modKeeper e (fun k => k.badZero s.plant.busbar) else s2
  let s3 := s2.modKeeper e (fun k =>
    { k with alarm := setBit (alarmAfter k src.val (!s.plant.busbar)) 16 (x.hold || alarm),
             active := k.active.set src.val (s.now + dur) src.isLt })
  if alarm then
    let s4 := (s3.modEng e (fun x => { x with hold := true })).closeDebug e
    if x.powered then (s4.modEng e Engine.stopPorts).leave e 4 6 else s4
  else s3

/-- The anchor of a public key: SHA-384 of X and then Y (R389). -/
def keyAnchor (pub : List Byte) : BitVec 384 := BitVec.ofNat 384 (leNat (sha384 pub))

/-- The time from which a challenge's 60 s count: shelf time, or the real-time counter before the join (R396). -/
def State.keeperTime (s : State) (e : EngId) : Nat :=
  if s.joined e then (s.time e).toNat else (s.eng e).keeper.rtc

/-- The lifecycle states and holds in which a purpose is permitted (Table 19-5). -/
def Engine.permits (x : Engine) (purpose : Nat) : Bool :=
  match purpose with
  | 1 => x.lifecycle ≠ 0 && !x.hold
  | 2 => x.hold || ((x.lifecycle = 1 || x.lifecycle = 2) && x.keeper.slots[0].usage = 0)
  | 3 => x.lifecycle = 1 || x.lifecycle = 2 || x.hold
  | _ => x.lifecycle = 0

/-- Whether a purpose is armed and its 60 s have not passed. -/
def Keeper.isArmed (k : Keeper) (purpose : Nat) : Bool :=
  match k.armed with
  | some a => a.purpose = purpose && k.rtc ≤ a.deadline
  | none => false

end Sys2Proof.Machine
end

