-- ==== Sys2Proof/Machine/PartOps.lean ====
section
/-! DEFINITION. Shared operations on partitions: completing a mailbox command, partition resets, clearing windows, freeing
a partition's state (R66–R68, R76–R78, R82, R101). -/

namespace Sys2Proof.Machine

/-! ### Mailbox completions -/

/-- The partition whose window a mailbox is in; the Redfish mailbox counts as partition 0's (R90, R101). -/
def mbxPart (k : MbxKey) : PartId := k.getD 0

/-- The ERRORS entries of one engine with one more: each partition keeps its last 64 (R101). -/
def keepErrors (l : List ErrorEntry) (n : ErrorEntry) : List ErrorEntry :=
  let l1 := l ++ [n]
  if 64 < (l1.filter (fun x => x.part = n.part)).length then l1.eraseP (fun x => x.part = n.part) else l1

/-- Log a mailbox completion whose status is not SC_OK (R101). -/
def State.errorLog (s : State) (e : EngId) (p : PartId) (rsp : List Byte) : State :=
  if byteAt rsp 1 = 0 then s
  else
    let n : ErrorEntry := { op := byteAt rsp 0, status := byteAt rsp 1, cid := BitVec.ofNat 16 (field rsp 2 2),
                            off := BitVec.ofNat 16 (field rsp 4 2), part := p, time := s.time e }
    s.modEng e (fun x =>
      { x with logs := { x.logs with errors := keepErrors x.logs.errors n,
                                     errorsGen := assocSet x.logs.errorsGen p.val
                                       (assocGetD x.logs.errorsGen p.val 0 + 1) } })

/-- A finished mailbox command is posted (R82): the response is written, BUSY clears, DONE is set, MBX_SEQ increments and
vector 1 is signalled, in that order. The Redfish mailbox answers over HTTPS (R90), unless the session went down with its SCM (R54). -/
def State.completeMailbox (s : State) (e : EngId) (k : MbxKey) : State :=
  match (s.mailbox e k).job with
  | some { phase := .ready rsp, lost, .. } =>
    let s1 := s.modMailbox e k (fun m => { m with rsp := rsp, job := none, done := true, seq := m.seq + 1 })
    let s2 := s1.errorLog e (mbxPart k) rsp
    match k with
    | some p => s2.signal e p 1 1 0
    | none => if lost then s2 else s2.send (.redfishMailbox e rsp)
  | _ => s

/-- Give a response to every accepted command that a test selects, with the status and body given. -/
def Mailbox.answerIf (m : Mailbox) (f : Job → Bool) (st : Status) (body : List Byte) : Mailbox :=
  { m with job := m.job.map (fun j => if f j then { j with phase := .ready (rspBytes j.cmd st 0xFFFF body) } else j) }

/-- Answer the waiting commands of the shelf that a test selects. -/
def State.answerJobs (s : State) (f : Job → Bool) (st : Status) (body : List Byte) : State :=
  s.modEngines 0xFFFF (fun _ x =>
    { x with redfish := x.redfish.answerIf f st body,
             windows := x.windows.map (fun w => { w with mbx := w.mbx.answerIf f st body }) })

/-- Whether a job waits for something. -/
def Job.waitsFor (j : Job) (w : JobWait) : Bool := j.phase = .waiting w

/-- The opcode of a job. -/
def Job.op (j : Job) : Nat := (byteAt j.cmd 0).toNat

/-! ### Stream slots (Tables 5-1, 5-3) -/

/-- A field of the copied task registers. -/
def Slot.fld (q : Slot) (off len : Nat) : Nat := field q.task off len

/-- STK_OPC. -/
def Slot.op (q : Slot) : Nat := q.fld 0x00 1

/-- SILENT. -/
def Slot.silent (q : Slot) : Bool := natBit (q.fld 0x04 1) 1

/-- FORCE. -/
def Slot.force (q : Slot) : Bool := natBit (q.fld 0x04 1) 0

/-- CONTRIB. -/
def Slot.contrib (q : Slot) : Nat := q.fld 0x06 2

/-- STK_TAG. -/
def Slot.tag (q : Slot) : BitVec 16 := BitVec.ofNat 16 (q.fld 0x08 2)

/-- STK_OBJ. -/
def Slot.obj (q : Slot) : Nat := q.fld 0x10 8

/-- STK_OFFSET. -/
def Slot.off (q : Slot) : Nat := q.fld 0x18 8

/-- STK_LENGTH. -/
def Slot.len (q : Slot) : Nat := q.fld 0x20 8

/-- STK_EPOCH. -/
def Slot.epoch (q : Slot) : Nat := q.fld 0x30 6

/-- A slot's command finishes: its locks and unused tokens are released, and it waits to be posted (R113, R114). -/
def Slot.finish (q : Slot) (sc : Status) (off : Nat) : Slot :=
  { q with phase := .finished sc off, waits := { lock := false, token := false, power := false, state := false },
           lockAt := none, lockOn := 0, tokens := Vector.replicate 4 0, data := [] }

/-- Whether a slot's command has finished. -/
def Slot.isFinished (q : Slot) : Bool := match q.phase with | .finished _ _ => true | _ => false

/-- Whether a slot's command has started. -/
def Slot.isQueued (q : Slot) : Bool := match q.phase with | .queued => true | _ => false

/-- End every command of a stream that a test selects, with nothing moved. -/
def Stream.endSlots (x : Stream) (f : Slot → Bool) (sc : Status) : Stream :=
  { x with queue := x.queue.map (fun q => if !q.isFinished && f q then q.finish sc 0 else q) }

/-- The tokens of each pool that a window's unfinished commands have taken. -/
def Window.tokensHeld (w : Window) (i : Fin 4) : Nat :=
  (w.streams.map (fun x => ((x.2.queue.filter (fun q => !q.isFinished)).map (fun q => q.tokens[i])).sum)).sum

/-- Tokens go back to their pools for the next tick (R70, R71). -/
def Engine.returnTokens (x : Engine) (f : Fin 4 → Nat) : Engine :=
  { x with returned := Vector.ofFn (fun i => x.returned[i] + f i) }

/-- End commands of every stream of a window. -/
def Window.endSlots (w : Window) (f : Slot → Bool) (sc : Status) : Window :=
  { w with streams := w.streams.map (fun x => (x.1, x.2.endSlots f sc)) }

/-- Whether every accepted command of a window has finished. -/
def Window.allFinished (w : Window) : Bool := w.streams.all (fun x => x.2.queue.all Slot.isFinished)

/-! ### Partition resets -/

/-- The engine that plays the requesting engine: the named one when it is a member, else the lowest surviving member
(R66, R78). -/
def State.resetEngine (s : State) (p : PartId) (e : EngId) : EngId :=
  if s.hasWindow e p && !s.lost e then e else ((maskEngines (s.members p)).find? (fun m => !s.lost m)).getD e

/-- A response to a mailbox command that a CANCEL ends: only one without effect (R68). -/
def Mailbox.cancel (m : Mailbox) : Mailbox :=
  m.answerIf (fun j => match j.phase with
    | .queued => true
    | .waiting _ => !j.effect
    | .ready _ => false) .partitionReset []

/-- How far a running transfer gets when a CANCEL stops it: to the last 4 KiB boundary that it has reached (Table 3-7 step 4; log
26). -/
def Slot.stopAt (q : Slot) : Nat := if q.phase = .running then q.data.length / 4096 * 4096 else 0

/-- What a CANCEL leaves of a command, and the first byte not known to be written: a WRITE or RIDER_PUT has written the bytes below it
and none beyond, unless an update phase holds it; a push or a page has no effect (Table 3-7 step 4, R67). -/
def State.stopSlot (s : State) (p : PartId) (q : Slot) : State × Nat :=
  let x := s.part p
  if x.step.phase = 3 then (s, 0)
  else match q.op with
  | 0x02 => match x.tensor? q.obj with
    | some t =>
      let n := (s.writable t q.off q.stopAt).1
      (s.writeTensor p t q.off (q.data.take n), n)
    | none => (s, 0)
  | 0x09 =>
    if q.stopAt = 0 then (s, 0)
    else
      let old := assocGetD x.riders q.obj []
      (s.modPart p (fun x => { x with riders := assocSet x.riders q.obj (q.data.take q.stopAt ++ old.drop q.stopAt) }), q.stopAt)
  | _ => (s, q.stopAt)

/-- The unfinished commands of one stream end with SC_PARTITION_RESET. -/
def State.cancelStream (s : State) (a : StreamAt) (qs : List Slot) : State :=
  qs.zipIdx.foldl (fun s (q, i) =>
    if q.isFinished then s
    else
      let r := s.stopSlot a.part q
      r.1.modStream a (fun x =>
        { x with queue := x.queue.mapIdx (fun j z => if j = i then z.finish .partitionReset r.2 else z) })) s

/-- CANCEL on one engine: the tokens that its unfinished stream commands took go back, they and the mailbox command without effect end
(Table 3-7 steps 3 and 4). -/
def State.cancelWindow (s : State) (p : PartId) (e : EngId) : State :=
  let w := s.win e p
  let s1 := s.modEng e (fun x => (x.returnTokens w.tokensHeld).setWin p { w with mbx := w.mbx.cancel })
  w.streams.foldl (fun s x => s.cancelStream { eng := e, part := p, stream := x.1 } x.2.queue) s1

/-- CANCEL: unfinished stream commands and mailbox commands without effect end with SC_PARTITION_RESET on every member (Table 3-7
steps 3 and 4). -/
def State.cancelAll (s : State) (p : PartId) : State :=
  (maskEngines (s.members p)).foldl (fun s e => s.cancelWindow p e) s

/-- A partition reset starts, or merges into the one in progress; a PART_DELETE waits for the reset-done of that one (R66, R77). -/
def State.startReset (s : State) (p : PartId) (e : EngId) (cancel delete : Bool) : State :=
  match (s.part p).resetting with
  | some r =>
    if delete then s.modPart p (fun x => { x with resetting := some { r with next := true } })
    else
      let s1 := s.modPart p (fun x => { x with resetting := some { r with cancel := r.cancel || cancel } })
      if cancel then s1.cancelAll p else s1
  | none =>
    let s1 := (s.modPart p (fun x => { x with resetting := some { eng := s.resetEngine p e, cancel := cancel,
                                                                  delete := delete, next := false } })).modEngines
      (s.members p) (fun _ x => x.setWin p { x.windows[p] with resetting := true })
    if cancel then s1.cancelAll p else s1

/-- Whether an event of a vector is still held back (R68): by coalescing, by the ring or by a mask. -/
def IntCtl.holds (i : IntCtl) (v : Fin 32) : Bool :=
  !i.coal[v].isEmpty || i.ring.held.any (fun h => h.1 = v.val) || i.pba.getLsbD v.val

/-- The events of vectors 1 to 31 that are still held back are discarded with their INT_CAUSE and pending bits (R68). -/
def IntCtl.discardHeld (i : IntCtl) : IntCtl :=
  let gone : Word := (List.finRange 32).foldl (fun m v => if v ≠ 0 && i.holds v then setBit m v.val true else m) 0
  { i with cause := i.cause &&& ~~~gone, pba := i.pba &&& ~~~gone,
           coal := Vector.ofFn (fun v => if v = 0 then i.coal[v] else []),
           ring := { i.ring with held := i.ring.held.filter (fun h => h.1 = 0) } }

/-- The NMX block after a partition reset: a running program retires without effect (R67); its registers keep their
values. -/
def Nmx.retire (n : Nmx) : Nmx :=
  { n with busy := false, locked := false, prog := [], next := 0, row := 0, failed := none }

/-- The DGX block after a partition reset (Table 12-8): the job retires, its registers and context are cleared, VECTOR
stays. -/
def Dgx.retire (d : Dgx) : Dgx := { Dgx.reset with vector := d.vector }

/-- Step 7 of Table 3-7 on one window. -/
def Window.clear (w : Window) : Window :=
  { w with resetting := false, rstSeq := w.rstSeq + 1, dbFlag := Vector.replicate 64 0, ints := w.ints.discardHeld,
           qos := w.qos.map (fun q => { q with tokens := 0 }), streams := [],
           mbx := { w.mbx with cmd := zeros 64, overrun := false }, nmx := w.nmx.retire, dgx := w.dgx.retire }

/-- A lane that a digest job holds is freed. -/
def dropLane (w : DigestJob) : Option LaneJob → Option LaneJob
  | some j => if j.work = w then none else some j
  | none => none

/-- Steps 6 and 7 on one engine: bucket tokens return to their pools and the window is cleared. -/
def Engine.clearWindow (x : Engine) (p : PartId) : Engine :=
  let w := x.windows[p]
  ({ x with returned := Vector.ofFn (fun i => x.returned[i] + w.qos[i].tokens),
            lanes := x.lanes.map (dropLane (DigestJob.dgx p)), contexts := x.contexts.filter (fun c => c.work ≠ DigestJob.dgx p) }).setWin p w.clear

/-! ### Freeing a partition -/

/-- Free the rows of every tensor of a partition, and what its epochs hold. -/
def State.freeState (s : State) (p : PartId) : State :=
  let x := s.part p
  let s1 := x.tensors.foldl (fun s t =>
    let s' := s.freePlacement t.place
    match t.dest with
    | some d => s'.freePlacement d
    | none => s') s
  x.epochs.foldl (fun s ep =>
    let s' := (s.freeStaged ep).endCampaign ep.campaign
    if ep.state = 5 then s' else s'.freeEpochBlocks ep) s1

/-- Discard a partition's state, pages, epochs in flight and campaigns; the partition itself, its generation and its
epoch numbers remain. -/
def State.discardState (s : State) (p : PartId) : State :=
  let s1 := (s.freeState p).endDigests (DigestJob.ofPart p)
  let s2 : State := { s1 with campaigns := s1.campaigns.filter (fun c => c.part ≠ some p),
                              tide := { s1.tide with lending := setBit s1.tide.lending p.val false,
                                                     held := setBit s1.tide.held p.val false,
                                                     waits := setBit s1.tide.waits p.val false,
                                                     ready := setBit s1.tide.ready p.val false } }
  s2.modPart p (fun x => { Partition.reset with resetting := x.resetting, nextEpoch := x.nextEpoch, gen := x.gen,
                                                prevGen := x.prevGen, lastCommitted := x.lastCommitted,
                                                lastCut := x.lastCut, verify := x.verify })

/-- A window goes: its rkey will not be given to its successor (R59), and its queue pairs go with it. -/
def Engine.dropWindow (x : Engine) (p : PartId) : Engine :=
  ({ x with qps := x.qps.filter (fun q => q.part ≠ p) }).setWin p
    { Window.reset with lastRkey := x.windows[p].rkey <|> x.windows[p].lastRkey }

/-- A partition is deleted (R76): its state is freed, its key slots are zeroised on every engine, its windows go. -/
def State.deletePartition (s : State) (p : PartId) : State :=
  let s1 := (s.discardState p).setPart p Partition.reset
  let s2 := (List.finRange 16).foldl (fun s e => s.zeroSlots e (fun k => k.usage ≠ 1 && k.owner = p)) s1
  let s3 := s2.modEngines 0xFFFF (fun _ x => x.dropWindow p)
  { s3 with record := s3.record.delPart p }

end Sys2Proof.Machine
end

