-- ==== Sys2Proof/Machine/EpochOps.lean ====
section
/-! DEFINITION. Epochs: when a delta may form, what refuses a cut, what a cut captures, planning and staging of shards,
drains and releases (08, 10 R225–R229). -/

namespace Sys2Proof.Machine

/-- Whether a partition's twin rows are lent (R19). -/
def State.lends (s : State) (p : PartId) : Bool := s.tide.lending.getLsbD p.val

/-- Whether R183 allows the next cut to be a delta. -/
def Partition.deltaOk (x : Partition) : Bool :=
  !x.nextFull && match x.epoch? x.lastCut with
  | some ep => 2 ≤ ep.state && ep.state ≤ 5 && ep.gen = x.gen && ep.chain < 16
  | none => false

/-- Whether epoch numbers are exhausted (R193). -/
def Partition.exhausted (x : Partition) : Bool := 2 ^ 48 ≤ x.nextEpoch

/-- Whether the commit record of the next epoch would take the slot of a retained one (R188 step 3). -/
def State.ringFull (s : State) (p : PartId) : Bool :=
  match (s.part p).gen with
  | some g => (s.retained g).any (fun c => c.1 + 4096 ≤ (s.part p).nextEpoch)
  | none => false

/-- Whether a full epoch in flight, a FAILED one among them, pins the twins: its drain has not read them (R186). -/
def Partition.pins (x : Partition) : Bool := x.epochs.any Epoch.pinned

/-- Whether some tensor of a partition has no twin. -/
def Partition.hasUntwinned (x : Partition) : Bool := x.tensors.any (fun t => !t.twin)

/-- Whether a cut of a KIND with a DRAIN flag starts a drain at once (R185). -/
def Partition.drainsAtCut (x : Partition) (kind : Nat) (drain : Bool) : Bool :=
  drain || x.hasUntwinned || (kind ≠ 1 && x.deltaOk)

/-- The checks of EPOCH_CUT in the order of R188; SC_BUSY also during a re-shard (R282). -/
def State.cutChecks (s : State) (p : PartId) (kind : Nat) (drain : Bool) : List (Bool × Status) :=
  let x := s.part p
  [(s.lends p || x.step.phase = 4 || x.tensors.isEmpty, .notPermitted), (x.exhausted, .epochExhausted),
   (16 ≤ x.epochs.length || (x.drainsAtCut kind drain && s.campaignsFull) || s.ringFull p, .epochLimit),
   (kind = 2 && !x.deltaOk, .layout), (x.pins || x.cut.isSome || x.reshard.any (fun r => r.campaign.isSome), .busy)]

/-- A cut is declared; it takes effect at its instant (R181). -/
def State.declareCut (s : State) (p : PartId) (d : CutDecl) : State := s.modPart p (fun x => { x with cut := some d })

/-! ### What a cut captures (Table 8-1) -/

/-- The stream contexts of META_TYPE 3 (Table 10-7). -/
def State.streamContexts (s : State) (p : PartId) : List Byte :=
  (maskEngines (s.members p)).flatMap (fun e => (List.range (s.streams p)).flatMap (fun n =>
    let w := s.win e p
    let x := w.stream n
    natLe 1 e.val ++ [0] ++ natLe 2 n ++ natLe 1 (bit x.storeClass + 2 * bit x.haltOnErr) ++
      [assocGetD w.vmap n 0xFF] ++ zeros 2))

/-- The image of a partition at a cut instant (R146, R180). -/
def State.capture (s : State) (p : PartId) : Image :=
  let x := s.part p
  { tensors := x.sorted.map (fun t => (t, if t.cls = 5 then t.accMemory else s.tensorImage t)), riders := x.riders,
    contexts := s.streamContexts p, policy := x.policy.getD [], contributors := x.step.contributors,
    completed := x.step.completed, skip := x.step.skip, t := x.step.t, parity := s.parity, members := s.members p,
    lsn := x.lsn }

/-! ### The copier's walk (R182, R210) -/

/-- The units of an engine in the order in which the copier of an epoch walks them: tensors in the order of the image, which is the
manifest's (log 136). -/
def Epoch.walkUnits (ep : Epoch) (e : Nat) : List Nat := ep.image.tensors.flatMap (fun t => assocGetD t.1.place.units e [])

/-- How many units the walk has passed on a channel of an engine. -/
def Epoch.walked (ep : Epoch) (e ch : Nat) : Nat := assocGetD ep.walk (16 * e + ch) 0

/-- Whether a 4 KiB block, as (engine, number), need not be copied any more: the walk has passed its row, a demand window copied it
ahead, or the epoch does not hold it. -/
def Epoch.isCopied (ep : Epoch) (b : Nat × Nat) : Bool :=
  ep.copied.contains b || match (ep.walkUnits b.1).findIdx? (fun u => u = b.2 / 32 * unitBytes) with
  | some i => decide (i < ep.walked b.1 (b.2 % 16))
  | none => true

/-- The rows of a walk that are done on some engines, and all of its rows there. -/
def Epoch.walkRows (ep : Epoch) (es : List EngId) : Nat × Nat :=
  ((es.flatMap (fun e => (List.range 16).map (fun c => min (ep.walkUnits e.val).length (ep.walked e.val c)))).sum,
   (es.map (fun e => 16 * (ep.walkUnits e.val).length)).sum)

/-! ### Shards -/

/-- Consecutive stripes packed into shards of at most 1 GiB raw: (first, count, bytes), last one first. -/
def packStripes (len : Nat → Nat) : List Nat → List (Nat × Nat × Nat) → List (Nat × Nat × Nat)
  | [], acc => acc
  | k :: ks, acc =>
    match acc with
    | (f, n, b) :: rest =>
      if b + len k ≤ 2 ^ 30 then packStripes len ks ((f, n + 1, b + len k) :: rest)
      else packStripes len ks ((k, 1, len k) :: (f, n, b) :: rest)
    | [] => packStripes len ks [(k, 1, len k)]

/-- An empty shard description. -/
def blankShard (tid : Word) (kind metaType src first count rawLen : Nat) : Shard :=
  { tid := tid, kind := kind, metaType := metaType, src := src, first := first, count := count, rawLen := rawLen,
    codedLen := 0, obj := [], objLen := 0, digest := [], ptr := 0, phase := 0, flushed := false, paid := 0, fails := 0, old := [] }

/-- The shards of an epoch: each tensor's stripes engine by engine, DELTA for twinned tensors of a delta epoch, and the
three META shards on the lowest joined engine (R225; log 34). -/
def Epoch.plan (ep : Epoch) (metaEngine : EngId) : List Shard :=
  let g := ep.image
  g.tensors.flatMap (fun (t, _) =>
    t.place.list.flatMap (fun e => ((packStripes t.stripeLen (t.stripesOn e) []).reverse).map (fun r =>
      blankShard t.id (if ep.kind = 2 && t.twin then 1 else 0) 0 e.val r.1 r.2.1 r.2.2))) ++
    [1, 2, 3].map (fun m => blankShard 0 2 m metaEngine.val 0 0 (g.metaPayload m).length)

/-- Whether a shard's rows wait in the epoch area rather than in twins: a delta's, an untwinned tensor's (R185). -/
def Epoch.copierShard (ep : Epoch) (h : Shard) : Bool :=
  h.kind = 1 || (ep.image.tensor? h.tid).any (fun t => !t.1.twin)

/-- The epoch area of an engine: 24 GiB, of which 2 GiB serve the copier alone (08 The epoch area). -/
def areaLimit (copier : Bool) : Nat := if copier then 24 * 2 ^ 30 else 22 * 2 ^ 30

/-- Whether a shard meets a poisoned stripe: an uncorrectable row (R195, R238). -/
def Epoch.badRow (ep : Epoch) (h : Shard) : Bool :=
  (ep.image.tensor? h.tid).any (fun t => t.1.poison.any (fun k =>
    (((t.1.stripesOn (Fin.ofNat 16 h.src)).filter (fun j => h.first ≤ j)).take h.count).contains k))



/-- A slot's contents when it holds a usage of a partition. -/
def State.keyOf (s : State) (e : EngId) (p : PartId) (slot usage : Nat) : Option KeySlot :=
  if h : slot < 64 then
    let k := s.slot e ⟨slot, h⟩
    if k.usage = usage && k.owner = p then some k else none
  else none


/-- Stage one shard in the epoch area (Table 10-9 step 1). A shard without room stays unstaged, and the copier pauses for
one of its own; a poisoned row or an empty bound data key fails the epoch. -/
def State.stageShard (s : State) (p : PartId) (n i : Nat) : State :=
  match (s.part p).epoch? n with
  | none => s
  | some ep =>
    match ep.shards[i]?, ep.gen with
    | some h, some gen =>
      if ep.state = 6 || h.objLen ≠ 0 then s
      else
        let key := match ep.dslot with
          | some d => (s.keyOf (s.keyEngine h.src) p d 3).map KeySlot.key
          | none => none
        if ep.badRow h || (ep.dslot.isSome && key.isNone) then s.failEpoch p n
        else
          let base := ((s.part p).epoch? ep.base).map Epoch.image
          let (nonce, s1) := if ep.dslot.isSome then s.freshNonce else (0, s)
          let raw := h.raw ep.image (if ep.kind = 2 then base else none)
          let (obj, coded) := shardObject gen n h (shardElem ep.image h) raw key nonce
          let e : EngId := Fin.ofNat 16 h.src
          if areaLimit (ep.copierShard h) < (s1.eng e).epochUsed + obj.length then
            if ep.copierShard h then s.modEpoch p n (fun x => { x with paused := true }) else s
          else
            (s1.setShard p n i (fun h => { h with obj := obj, objLen := obj.length, codedLen := coded,
                                                  digest := sha256 obj })).modEng e
              (fun x => { x with epochUsed := x.epochUsed + obj.length })
    | _, _ => s


/-- Stage what there is room for. An epoch without a store generation first gets the partition's (R222). -/
def State.stageEpoch (s : State) (p : PartId) (n : Nat) : State :=
  let s0 := s.ensureGen p
  let s1 := s0.modEpoch p n (fun ep =>
    { ep with gen := ep.gen <|> (s0.part p).gen, paused := false,
              shards := if ep.shards.isEmpty then ep.plan s0.firstJoined else ep.shards })
  let k := ((s1.part p).epoch? n).elim 0 (fun ep => ep.shards.length)
  ((List.range k).foldl (fun s i => s.stageShard p n i) s1).modEpoch p n Epoch.refresh

/-- The drain of an epoch starts as a campaign when a number is free (R185, R189). -/
def State.startDrain (s : State) (p : PartId) (n : Nat) (commit : Bool) : State :=
  let s1 := s.modEpoch p n (fun ep => { ep with drain := true, commit := ep.commit || commit })
  if (((s1.part p).epoch? n).any (fun ep => ep.campaign.isSome || 5 ≤ ep.state)) || s1.campaignsFull then s1
  else
    let (i, s2) := s1.startCampaign .drain (some p)
    (s2.modEpoch p n (fun ep => { ep with campaign := some i })).stageEpoch p n

/-- A shard or manifest that was never committed leaves the store, and the epoch's time in flight ends (R190). -/
def State.releaseEpoch (s : State) (p : PartId) (n : Nat) : State :=
  match (s.part p).epoch? n with
  | none => s
  | some ep =>
    let s1 := ((s.freeStaged ep).endCampaign ep.campaign).endDigests (DigestJob.ofEpoch p n)
    let s2 := if ep.state = 5 then s1 else s1.freeEpochBlocks ep
    s2.modPart p (fun x => { x with epochs := x.epochs.filter (fun e => e.n ≠ n) })

/-- The epochs that fall with one: itself and every delta in flight that depends on it (R190). -/
def Partition.chainFrom (x : Partition) (n : Nat) : List Nat :=
  (x.epochs.foldl (fun (l : List Nat) ep => if ep.n = n || (ep.kind = 2 && l.contains ep.base) then l ++ [ep.n] else l) [])

/-- Bytes of a response about a cut (Table 8-4). -/
def cutResponse (ep : Epoch) : List Byte :=
  rspFields [(8, 6, ep.n), (14, 1, ep.kind), (16, 6, ep.base), (24, 8, ep.cutTime.toNat), (32, 6, ep.image.completed),
    (40, 2, ep.campaign.getD 0xFFFF)]

/-- The LIVE generations of a lease slot, oldest first. -/
def State.gensOf (s : State) (slot : Nat) : List (Nat × List Byte) :=
  ((List.range 2048).filterMap (fun i =>
    let r := s.readBlocks 0 (64 + slot * 2048 + i) 4096
    if sealedOk "WLMGN001" r && genState r = 1 then some (field r 12 4, r) else none)).insertionSort (fun a b => a.1 ≤ b.1)

/-- The LIVE generations of the shelf's lease slot. -/
def State.liveGens (s : State) : List (Nat × List Byte) := s.gensOf s.store.lease.slot

/-- The current store generation of a partition on the store: the newest LIVE one that this shelf opened for it (R196). -/
def newestGen (gens : List (Nat × List Byte)) (p : PartId) : Option (Nat × List Byte) :=
  (gens.filter (fun g => genPart g.2 = p.val && field g.2 16 16 = Config.shelfSerial.toNat)).getLast?

/-- The highest epoch of a generation that a Breadcrumb journal shows as committed since the store was last formatted
(R196, Table 20-6). -/
def Journal.committed (l : Journal) (gen : Nat) : Nat :=
  l.entries.foldl (fun m j =>
    if j.type = 1 && field j.payload 0 4 = gen then max m (field j.payload 4 6)
    else if j.type = 2 && field j.payload 0 1 = 2 then 0 else m) 0

/-- The highest epoch of a generation that some journal shows as committed. -/
def State.journaled (s : State) (gen : Nat) : Nat := s.engines.toList.foldl (fun m x => max m (x.journal.committed gen)) 0

/-- The highest epoch of a generation that the store or a journal shows as cut (R196). -/
def State.shownCut (s : State) (gen : Nat) : Nat := (s.commits gen).foldl (fun m c => max m c.1) (s.journaled gen)

/-- The generations that a partition's numbers must not meet again before the shelf has taken one up: those of the slot that the
record names, as far as volume 0 can be read, and those that a journal names for the partition (R193, R196). -/
def State.pastGens (s : State) (p : PartId) : List Nat :=
  let slot := s.record.leaseSlot.getD s.store.lease.slot
  let read := if slot < 16 && s.reaches 0 then (newestGen (s.gensOf slot) p).toList.map Prod.fst else []
  read ++ (s.engines.toList.flatMap (fun x => ((x.journal.entries.filter (fun j => j.type = 1 && j.part = p.val)).map
    (fun j => field j.payload 0 4)))).dedup

/-- A partition without a generation counts on from the highest number that its past ones show, so that no number is used again
when it takes one of them up (R193, R196, R408). -/
def State.countOn (s : State) (p : PartId) : State :=
  if (s.part p).gen.isSome then s
  else s.modPart p (fun x => { x with nextEpoch := (s.pastGens p).foldl (fun m g => max m (s.shownCut g + 1)) x.nextEpoch })

/-- The cut instant of a declared cut (R181): the epoch takes the next number and its image; a drain that it needs starts;
a delta that R183 no longer allows forms as a full epoch (log 35). A final ebb cut also starts committing drains of the epochs
in flight that it depends on: R184 makes the delta wait for its base and says nothing of who commits the base (DESIGN CHOICE,
log 124). -/
def State.cutNow (s : State) (p : PartId) (d : CutDecl) : State × Option Epoch :=
  let s0 := (s.countOn p).ensureGen p
  let x := s0.part p
  let delta := d.kind ≠ 1 && x.deltaOk
  let cfg := (s0.cfg p).getD PartCfg.initial
  let baseEp := x.epoch? x.lastCut
  let ep : Epoch :=
    { n := x.nextEpoch, kind := if delta then 2 else 1, base := if delta then x.lastCut else 0, gen := x.gen, state := 1,
      cutTime := s0.time d.eng, image := s0.capture p, walk := [], copied := [], pinned := !delta && x.tensors.any Tensor.twin, paused := false,
      drain := false, commit := false, campaign := none, verify := x.verify, mslot := cfg.mslot, dslot := cfg.dslot,
      shards := [], manifest := [], mptr := 0, mchecked := false, tries := 0, commitTime := 0,
      chain := if delta then (baseEp.elim 0 Epoch.chain) + 1 else 1, final := d.final, reseed := d.reseed,
      turn := s0.tide.count, whileHeld := s0.tide.held.getLsbD p.val, mold := [], status := .ok }
  let needs := x.drainsAtCut d.kind (d.drain || d.commit)
  let s1 := s0.modPart p (fun y =>
    { y with epochs := y.epochs ++ [ep], nextEpoch := y.nextEpoch + 1, lastCut := ep.n, nextFull := false, cut := none })
  let s2 := if needs then s1.startDrain p ep.n d.commit else s1
  let s3 := if d.final then ((s2.part p).epochs.filter (fun q => q.n < ep.n && q.state < 5 &&
      ((s2.part p).chainFrom q.n).contains ep.n)).foldl (fun s q => s.startDrain p q.n true) s2 else s2
  (s3, (s3.part p).epoch? ep.n)

end Sys2Proof.Machine
end

