-- ==== Sys2Proof/Machine/Epochs.lean ====
section
/-! DEFINITION. The epoch commands 0x50 to 0x54 (08 Basic control). -/

namespace Sys2Proof.Machine

/-- EPOCH_CUT (0x50): the checks of R188, then the declaration; the response is that of the cut instant. COMMIT implies
DRAIN. -/
def cmdEpochCut (c : Call) (s : State) : State × Result :=
  let p := c.part
  let kind := c.fld 8 1
  let commit := natBit (c.fld 9 1) 1
  let drain := natBit (c.fld 9 1) 0 || commit
  guarded c s { used := [(8, 2)], bad := [(8, 2 < kind), (9, 3 < c.fld 9 1)], step9 := drain }
    (ordered s ([((s.part p).restoring, Status.busy)] ++ s.cutChecks p kind drain)
      (s.declareCut p { eng := c.eng, key := some c.key, kind := kind, drain := drain, commit := commit, gates := 0,
                        final := false, reseed := false }, .wait .cutInstant))

/-- The campaign field of a response: 0xFFFF for none. -/
def campaignField (i : Option Nat) : List Byte := rspFields [(40, 2, i.getD 0xFFFF)]

/-- EPOCH_COMMIT (0x51): R189. -/
def cmdEpochCommit (c : Call) (s : State) : State × Result :=
  let p := c.part
  let n := c.fld 8 6
  let ep := (s.part p).epoch? n
  let is (k : Nat) : Bool := ep.any (fun q => q.state = k)
  let fresh := !is 5 && ep.any (fun q => q.campaign.isNone)
  guarded c s { used := [(8, 6)], step9 := true }
    (ordered s [((s.part p).restoring, .busy), (ep.isNone, .notFound), (is 6, .notPermitted),
        ((s.eng c.eng).clock.suspect, .timeSuspect), (fresh && s.campaignsFull, .epochLimit)]
      (let s1 := if is 5 then s else s.startDrain p n true
       (s1, .ok (campaignField (((s1.part p).epoch? n).bind Epoch.campaign)))))

/-- EPOCH_RELEASE (0x52): R190. -/
def cmdEpochRelease (c : Call) (s : State) : State × Result :=
  let p := c.part
  let x := s.part p
  let n := c.fld 8 6
  let chain := natBit (c.fld 14 1) 0
  let gone := if chain then x.chainFrom n else [n]
  guarded c s { used := [(8, 7)], bad := [(14, 1 < c.fld 14 1)] }
    (ordered s [(x.restoring, .busy), ((x.epoch? n).isNone, .notFound),
        (!chain && x.epochs.any (fun ep => ep.kind = 2 && ep.base = n && ep.state ≠ 5), .notPermitted)]
      (gone.foldl (fun s k => s.releaseEpoch p k) s, .ok (rspFields [(8, 1, gone.length)])))

/-- DRAIN_PCT: shards verified. -/
def Epoch.drainPct (ep : Epoch) : Nat :=
  if ep.state = 5 then 100
  else if ep.shards.isEmpty then 0
  else (ep.shards.filter (fun h => h.phase = 2)).length * 100 / ep.shards.length

/-- COPY_PCT: rows of the walk on the members that are not lost (R210). -/
def State.copyPct (s : State) (ep : Epoch) : Nat :=
  let r := ep.walkRows ((maskEngines ep.image.members).filter (fun e => !s.lost e))
  if ep.state ≠ 1 || r.2 = 0 then 100 else r.1 * 100 / r.2

/-- Raw bytes of an epoch: those of its shards, planned or staged. -/
def Epoch.rawBytes (ep : Epoch) : Nat :=
  ((if ep.shards.isEmpty then ep.plan 0 else ep.shards).map Shard.rawLen).sum

/-- EPOCH_QUERY (0x53): Table 8-5. -/
def cmdEpochQuery (c : Call) (s : State) : State × Result :=
  let p := c.part
  let x := s.part p
  let sel := c.fld 8 1
  guarded c s { used := [(8, 1), (12, 6)], bad := [(8, 1 < sel), (12, sel = 1 && c.fld 12 6 ≠ 0)] }
    (ordered s [(x.restoring, .busy)]
      (if sel = 0 then
        match x.epoch? (c.fld 12 6) with
        | none => refuse s .notFound
        | some ep => (s, .ok (rspFields [(8, 1, ep.state), (9, 1, ep.kind), (10, 1, s.copyPct ep),
            (11, 1, ep.drainPct), (12, 2, ep.campaign.getD 0xFFFF), (16, 6, ep.base), (24, 8, ep.cutTime.toNat),
            (32, 6, ep.image.completed), (40, 8, ep.rawBytes), (48, 8, (ep.shards.map Shard.codedLen).sum),
            (56, 8, ep.commitTime.toNat)]))
      else (s, .ok (rspFields [(8, 1, x.epochs.length),
        (9, 1, bit x.exhausted + 2 * bit (s.lends p) + 4 * bit (!x.deltaOk)),
        (16, 6, if x.exhausted then 0 else x.nextEpoch), (24, 6, x.lastCommitted), (32, 6, x.lastCut),
        (40, 4, x.gen.getD 0xFFFFFFFF)]))))

/-- REBASE (0x54): R192, R222. -/
def cmdRebase (c : Call) (s : State) : State × Result :=
  let p := c.part
  guarded c s { split := true, step9 := true }
    (ordered s [((s.part p).restoring, .busy), (!(s.part p).epochs.isEmpty, .busy)]
      (match s.openGen p with
       | .ok s1 => (s1, .ok (rspFields [(8, 4, (s1.part p).gen.getD 0xFFFFFFFF)]))
       | .error st => refuse s st))

end Sys2Proof.Machine
end

