-- ==== Sys2Proof/Machine/Partitions.lean ====
section
/-! DEFINITION. The partition and QoS commands, and the tick of the token pools (03). -/

namespace Sys2Proof.Machine

/-- Whether a mask's engines have the streams to spare: each engine carries at most 4,096 (R74). -/
def State.streamsOver (s : State) (p : PartId) (members : BitVec 16) (n : Nat) : Bool :=
  (maskEngines members).any (fun e =>
    4096 < n + ((s.record.parts.filter (fun c => c.1 ≠ p.val && hasEngine c.2.members e)).map
      (fun c => c.2.streams)).sum)

/-- PART_CREATE (0x30). -/
def cmdPartCreate (c : Call) (s : State) : State × Result :=
  let n := c.fld 8 1
  let p := (partId? n).getD 0
  let members := BitVec.ofNat 16 (c.fld 10 2)
  guarded c s { used := [(8, 6), (16, 8)], p0 := true, config := true, needs := members,
                bad := [(8, n = 0 || 63 < n || s.exists_ p), (9, 1 < c.fld 9 1), (10, members = 0), (12, c.fld 12 2 = 0)] }
    (ordered s [(s.streamsOver p members (c.fld 12 2), .quota)]
      (startAdoption c s (s.record.setPart p
        { members := members, expert := natBit (c.fld 9 1) 0, streams := c.fld 12 2, poolGib := c.fld 16 4,
          stageGib := c.fld 20 4, gids := [], qos := [], mslot := none, dslot := none, verify := 0 })))

/-- Whether a partition has epochs in flight, FAILED ones among them, or campaigns (R76, R186). -/
def State.hasWork (s : State) (p : PartId) : Bool := !(s.part p).epochs.isEmpty || s.hasCampaign p

/-- PART_DELETE (0x31). The reset and the freeing follow the adoption (R76). -/
def cmdPartDelete (c : Call) (s : State) : State × Result :=
  let n := c.fld 8 1
  let p := (partId? n).getD 0
  guarded c s { used := [(8, 2)], p0 := true, config := true, bad := [(8, n = 0 || 63 < n), (9, 1 < c.fld 9 1)] }
    (ordered s [(!s.exists_ p, .notFound), (s.hasWork p && !natBit (c.fld 9 1) 0, .notPermitted)]
      (startAdoption c s (s.record.delPart p)))

/-- Whether a stream of a window is idle: DEPTH is 0 (Table 5-2). -/
def Window.idleFrom (w : Window) (n : Nat) : Bool := w.streams.all (fun x => x.1 < n || x.2.queue.isEmpty)

/-- Whether a micro-program or a digest job of a partition is BUSY on some member (R428). -/
def State.unitsBusy (s : State) (p : PartId) : Bool :=
  (maskEngines (s.members p)).any (fun e => (s.win e p).nmx.busy || (s.win e p).dgx.run.isSome)

/-- PART_MODIFY (0x32). Only the parts that byte 14 marks as valid are read (R75). -/
def cmdPartModify (c : Call) (s : State) : State × Result :=
  let n := c.fld 8 1
  let p := (partId? n).getD 0
  let cfg := (s.cfg p).getD PartCfg.initial
  let rights := natBit (c.fld 14 1) 0
  let strm := natBit (c.fld 14 1) 1
  let quota := natBit (c.fld 14 1) 2
  let new : PartCfg :=
    { cfg with expert := if rights then natBit (c.fld 9 1) 0 else cfg.expert,
               streams := if strm then c.fld 12 2 else cfg.streams,
               poolGib := if quota then c.fld 16 4 else cfg.poolGib,
               stageGib := if quota then c.fld 20 4 else cfg.stageGib }
  guarded c s { used := [(8, 2), (12, 3), (16, 8)], p0 := true, config := true,
                bad := [(8, 63 < n), (9, 1 < c.fld 9 1), (12, strm && c.fld 12 2 = 0), (14, 7 < c.fld 14 1)] }
    (ordered s [(!s.exists_ p, .notFound),
        (rights && !natBit (c.fld 9 1) 0 && !((s.part p).programs.isEmpty && (s.part p).spins.isEmpty), .notPermitted),
        (rights && !natBit (c.fld 9 1) 0 && s.unitsBusy p, .busy),
        (strm && (maskEngines cfg.members).any (fun e => !(s.win e p).idleFrom (c.fld 12 2)), .busy),
        (strm && s.streamsOver p cfg.members (c.fld 12 2), .quota)]
      (startAdoption c s (s.record.setPart p new)))

/-- The state byte of PART_QUERY. -/
def State.partState (s : State) (p : PartId) : Nat :=
  if !s.exists_ p then 0
  else match (s.part p).resetting with
  | none => 1
  | some r => if r.delete || r.next then 3 else 2

/-- PART_QUERY (0x33): an absent partition answers with state 0. -/
def cmdPartQuery (c : Call) (s : State) : State × Result :=
  let n := c.fld 8 1
  let p := (partId? n).getD 0
  let cfg := (s.cfg p).getD PartCfg.initial
  guarded c s { used := [(8, 1)], bad := [(8, 63 < n)], deny := c.part ≠ 0 && n ≠ c.part.val }
    (s, .ok (if !s.exists_ p then rspFields [(8, 1, n)] else
      rspFields [(8, 1, n), (9, 1, bit cfg.expert + 2 * bit (p = 0)), (10, 2, cfg.members.toNat),
        (12, 2, (s.fencedOf p).toNat), (14, 2, cfg.streams), (16, 4, (s.win c.eng p).rstSeq.toNat),
        (20, 1, s.partState p), (24, 4, cfg.poolGib), (28, 4, cfg.stageGib)]))

/-- PART_RESET (0x34): the response is that of step 1 (Table 3-7). -/
def cmdPartReset (c : Call) (s : State) : State × Result :=
  let n := c.fld 8 1
  let p := (partId? n).getD 0
  guarded c s { used := [(8, 2)], bad := [(8, 63 < n), (9, 1 < c.fld 9 1)], deny := c.part ≠ 0 && n ≠ c.part.val }
    (ordered s [(!s.exists_ p, .notFound)]
      (s.startReset p c.eng (c.fld 9 1 = 1) false, .ok []))

/-! ### QoS -/

/-- T of a pool on an engine: capacity × 10 µs ÷ token size, rounded down (Table 3-8, R4). -/
def State.poolTokens (s : State) (e : EngId) (pool : Nat) : Nat :=
  let r (i : Nat) : Nat := ((s.rates e).getD i (0, 0)).2
  match pool with
  | 0 | 1 => (r 2 + r 4) * 10 / 4096
  | 2 => r 3 * 10 / 4096
  | _ => (s.eng e).availIn 0 0 64 * 10

/-- QOS_SET (0x35). -/
def cmdQosSet (c : Call) (s : State) : State × Result :=
  let n := c.fld 8 1
  let p := (partId? n).getD 0
  let mask := BitVec.ofNat 16 (c.fld 16 2)
  let es := enginesOr mask (s.members p)
  let cfg := (s.cfg p).getD PartCfg.initial
  let entry (e : EngId) : Nat × Nat × Byte × Byte × Byte :=
    (e.val, c.fld 9 1, byteAt c.cmd 10, byteAt c.cmd 11, byteAt c.cmd 12)
  let kept := cfg.qos.filter (fun q => !(q.2.1 = c.fld 9 1 && (maskEngines es).any (fun e => e.val = q.1)))
  guarded c s { used := [(8, 5), (16, 2)], p0 := true, config := true, needs := mask,
                bad := [(8, 63 < n), (9, 3 < c.fld 9 1), (10, c.fld 10 1 = 0), (11, c.fld 11 1 = 0),
                        (12, c.fld 12 1 = 0 || 100 < c.fld 12 1), (16, s.exists_ p && mask &&& ~~~cfg.members ≠ 0)] }
    (ordered s [(!s.exists_ p, .notFound)]
      (startAdoption c s (s.record.setPart p { cfg with qos := kept ++ (maskEngines es).map entry })))

/-- The registers of Table 3-9 for a pool of a window. -/
def qosBytes (q : QosPool) : List Byte :=
  [q.wEbb, q.wFlood, q.cap, 0] ++ natLe 4 q.tokens ++ natLe 4 q.grant ++ natLe 4 q.stalls.toNat

/-- QOS_QUERY (0x36). -/
def cmdQosQuery (c : Call) (s : State) : State × Result :=
  let n := c.fld 8 1
  let p := (partId? n).getD 0
  guarded c s { used := [(8, 2)], bad := [(8, 63 < n), (9, 3 < c.fld 9 1)], deny := c.part ≠ 0 && n ≠ c.part.val }
    (ordered s [(!s.exists_ p, .notFound)]
      (s, .ok (qosBytes ((s.win c.eng p).qos.toList.getD (c.fld 9 1) QosPool.reset) ++
        natLe 4 (s.poolTokens c.eng (c.fld 9 1)))))

/-- The QoS settings of the record take their place in the registers of the named engines (R70, R80). -/
def PartCfg.applyQos (c : PartCfg) (e : EngId) (w : Window) : Window :=
  { w with qos := c.qos.foldl (fun (q : Vector QosPool 4) x =>
      if h : x.1 = e.val ∧ x.2.1 < 4 then
        q.set x.2.1 { q[x.2.1]'h.2 with wEbb := x.2.2.1, wFlood := x.2.2.2.1, cap := x.2.2.2.2 } h.2
      else q) w.qos }

/-- The pool whose tokens a stream opcode's data draws (05 Basic control). -/
def opcodePool (op : Nat) : Nat := if [0x02, 0x03, 0x05, 0x09].contains op then 0 else 1

/-- Whether a slot's command also waits for the store medium (R121). -/
def Slot.durable (q : Slot) : Bool :=
  let op := (byteAt q.task 0).toNat
  (op = 2 || op = 9) && (q.storeClass || natBit (byteAt q.task 4).toNat 0)

/-- The tokens that a command draws, as (pool, count) in the order it takes them: its data at 4,096 bytes a token, the
store traffic of a forced or store-class write, the reduction of a push (Table 3-8, R71). -/
def Slot.needs (q : Slot) : List (Nat × Nat) :=
  let op := (byteAt q.task 0).toNat
  let len := field q.task 0x20 8
  if [0x07, 0x08, 0x0B].contains op then []
  else [(opcodePool op, ceilDiv len 4096)] ++ (if q.durable then [(2, ceilDiv len 4096)] else []) ++
    (if op = 3 then [(3, Config.pushCost len)] else [])

/-- The first pool whose tokens a command still lacks. -/
def Slot.lacks (q : Slot) : Option Nat :=
  (q.needs.find? (fun n => q.tokens.toList.getD n.1 0 < n.2)).map Prod.fst

/-- Whether a campaign of a partition waits for STORE tokens on an engine: the write or the read-back of a shard that the engine
carries, or a restore onto it (R72). -/
def State.storeWaits (s : State) (e : EngId) (p : PartId) : Bool :=
  let x := s.part p
  x.epochs.any (fun ep => ep.shards.any (fun h => s.keyEngine h.src = e && ep.shardWaits h)) ||
    (!s.lost e && x.restore.any (fun r => r.state = 2 && r.paid < r.tokens))

/-- Whether a partition is active in a pool on an engine: one of its commands waits for that pool's tokens, or in STORE a campaign
that it owns (R70, R72). -/
def State.activeIn (s : State) (e : EngId) (p : PartId) (pool : Nat) : Bool :=
  s.hasWindow e p && ((s.win e p).streams.any (fun x => x.2.queue.any (fun q => q.waits.token && q.lacks = some pool)) ||
    (pool = 2 && s.storeWaits e p))

/-- One partition's share in a round of R70. -/
structure Share where
  part : PartId
  weight : Nat
  limit : Nat
  got : Nat
  open_ : Bool
  deriving DecidableEq, Repr

/-- One round of R70: every partition below its cap takes its part of what is left. -/
def qosRound (left : Nat) (us : List Share) : List Share × Bool :=
  let w := ((us.filter Share.open_).map Share.weight).sum
  let us1 := us.map (fun u => if u.open_ then
    { u with got := u.got + min (left * u.weight / w) (u.limit - u.got) } else u)
  (us1, (us1.zip us).any (fun (a, b) => a.got ≠ b.got))

/-- The rounds of R70 until none gives a token; `fuel` bounds them. -/
def qosRounds (start : Nat) : Nat → List Share → List Share
  | 0, us => us
  | fuel + 1, us =>
    let left := start - (us.map Share.got).sum
    let (us1, moved) := qosRound left us
    let us2 := us1.map (fun u => { u with open_ := u.got < u.limit })
    if moved then qosRounds start fuel us2 else us2

/-- The single tokens of R70: one each, in ascending partition ID starting after the last that received one. -/
def qosSingles (last left : Nat) (us : List Share) : List Share × Nat :=
  let order := (us.filter Share.open_).map (fun u => u.part.val)
  let turn := (order.filter (fun p => last < p)) ++ order.filter (fun p => p ≤ last)
  let given := turn.take left
  (us.map (fun u => if given.contains u.part.val then { u with got := u.got + 1 } else u), given.getLast?.getD last)

/-- The grants of one pool at a tick. -/
def State.grants (s : State) (e : EngId) (pool : Fin 4) : List Share × Nat :=
  let t := s.poolTokens e pool.val
  let start := t + (s.eng e).returned[pool]
  let us := ((List.finRange 64).filter (fun p => s.activeIn e p pool.val)).map (fun p =>
    let q := (s.win e p).qos[pool]
    let us : Share := { part := p, weight := (if s.tide.flood then q.wFlood else q.wEbb).toNat,
                        limit := t * q.cap.toNat / 100, got := 0, open_ := true }
    us)
  let rounds := qosRounds start 512 us
  qosSingles (s.eng e).rotation[pool] (start - (rounds.map Share.got).sum) rounds

/-- One pool of one engine at a tick: grants reach the buckets, at most 4T; STALLS counts waits on an empty bucket
(R70, Table 3-9). -/
def State.tickPool (s : State) (e : EngId) (pool : Fin 4) : State :=
  let t := s.poolTokens e pool.val
  let (us, last) := s.grants e pool
  s.modEng e (fun x =>
    let x1 := { x with rotation := x.rotation.set pool.val last pool.isLt,
                       returned := x.returned.set pool.val 0 pool.isLt }
    (List.finRange 64).foldl (fun x p =>
      let w := x.windows[p]
      let q := w.qos[pool]
      let g := ((us.find? (fun u => u.part = p)).map Share.got).getD 0
      let active := us.any (fun u => u.part = p)
      let stalled := active && q.tokens = 0 && q.stalls ≠ 0xFFFFFFFF
      let q1 := { q with tokens := if active then min (q.tokens + g) (4 * t) else q.tokens, grant := g,
                         stalls := if stalled then q.stalls + 1 else q.stalls }
      x.setWin p { w with qos := w.qos.set pool.val q1 pool.isLt }) x1)

/-- QOS_TICK: at each multiple of 10 µs of shelf time, once the engine has joined, every pool grants its tokens (R70,
R351). A tick whose multiple has already been served does nothing. -/
def execQosTick (e : EngId) (s : State) : Host.Outcome State Fault Refusal :=
  let n := (s.time e).toNat / 10000
  .next (if s.joined e && (s.eng e).tickAt ≤ n then
    ((List.finRange 4).foldl (fun s i => s.tickPool e i) s).modEng e (fun x => { x with tickAt := n + 1 })
  else s)

end Sys2Proof.Machine
end

