-- ==== Sys2Proof/Machine/EngineOps.lean ====
section
/-! DEFINITION. Firmware images and their boot, and what an engine reset and a power-off leave of an engine (20 Firmware
images, R22, R363, R370). -/

namespace Sys2Proof.Machine

/-! ### Images (R409–R412) -/

/-- What a slot's image says of itself: major, minor, patch, SEC_VERSION, BUILD_TIME. -/
structure ImageInfo where
  major : Byte
  minor : Byte
  patch : BitVec 16
  sec : Byte
  time : DWord
  deriving DecidableEq, Repr

/-- Whether an image's header follows Table 20-3 and the image is complete (R409, R420). -/
def imageShaped (img : List Byte) : Bool :=
  img.take 8 = ascii "WLMFW001" && field img 8 2 = 1 && field img 10 2 = 512 && field img 12 4 = img.length &&
    img.length % 4096 = 0 && img.length ≤ 134217728 && field img 21 1 = 0x40 && field img 22 2 = 0 &&
    (slice img 272 240).all (fun b => b = 0)

/-- Whether an image passes its anchor, signature and body check (R409). -/
def imageAuthentic (e : EngId) (img : List Byte) : Bool :=
  let pub := slice img 80 96
  BitVec.ofNat 384 (leNat (sha384 pub)) = Config.imageAnchor e && ecdsaVerify pub (slice img 176 96) (img.take 176) &&
    slice img 32 48 = sha384 (img.drop 512)

/-- The header fields of an image. -/
def imageInfo (img : List Byte) : ImageInfo :=
  { major := byteAt img 16, minor := byteAt img 17, patch := BitVec.ofNat 16 (field img 18 2), sec := byteAt img 20,
    time := BitVec.ofNat 64 (field img 24 8) }

/-- The image of a slot, when it is valid (R409); the factory's image is. -/
def Firmware.info (f : Firmware) (e : EngId) (i : Fin 2) : Option ImageInfo :=
  match f.slots[i] with
  | none =>
    let b := Config.factoryBuild e
    some { major := b.1, minor := b.2.1, patch := b.2.2.1, sec := b.2.2.2, time := Config.factoryTime e }
  | some img => if imageShaped img && imageAuthentic e img then some (imageInfo img) else none

/-- The image of a slot when the boot ROM boots it: valid, SEC_VERSION at least the counter (R410) and at most 128, the
largest value of the counter (R411). -/
def Firmware.bootable (f : Firmware) (e : EngId) (i : Fin 2) : Option ImageInfo :=
  (f.info e i).filter (fun x => f.counter ≤ x.sec.toNat && x.sec.toNat ≤ 128)

/-- The other slot. -/
def otherSlot (i : Fin 2) : Fin 2 := if i = 0 then 1 else 0

/-- The payload of a FIRMWARE journal entry (Table 20-6). -/
def fwPayload (event slot : Nat) (x : ImageInfo) (counter : Nat) : List Byte :=
  natLe 1 event ++ natLe 1 slot ++ natLe 1 x.major.toNat ++ natLe 1 x.minor.toNat ++ natLe 2 x.patch.toNat ++
    natLe 1 x.sec.toNat ++ natLe 1 counter

/-- Journal a firmware event of an engine. -/
def State.fwJournal (s : State) (e : EngId) (event : Nat) (slot : Fin 2) (x : ImageInfo) : State :=
  s.journal e 6 0xFF (fwPayload event slot.val x (s.eng e).fw.counter)

/-- An engine runs the image of a slot; it is provisional while its SEC_VERSION exceeds the counter (R411). -/
def State.runImage (s : State) (e : EngId) (i : Fin 2) (x : ImageInfo) (fallback : Bool) : State :=
  let s1 := s.modEng e (fun y =>
    let prov := decide (y.fw.counter < x.sec.toNat)
    { y with fw := { y.fw with major := x.major, minor := x.minor, patch := x.patch, sec := x.sec,
                               active := if prov then y.fw.active else i, run := i,
                               provisional := prov, bootAt := s.now, booted := true } })
  s1.fwJournal e (if fallback then 3 else 2) i x

/-- Step 3 of Table 20-2: boot the NEXT slot, else the other with a fallback entry, else stay out of the view (R410). -/
def State.boot (s : State) (e : EngId) : State :=
  let f := (s.eng e).fw
  match f.bootable e f.next, f.bootable e (otherSlot f.next) with
  | some x, _ => s.runImage e f.next x false
  | none, some x => s.runImage e (otherSlot f.next) x true
  | none, none => s.modEng e (fun y => { y with fw := { y.fw with booted := false, provisional := false } })

/-! ### Engine reset and power-off -/

/-- A window after an engine reset, or with `off` after power-off: reset values but for RST_SEQ and the rkey, which last until
power-off (R59, Table 3-3, R80). -/
def Window.afterReset (w : Window) (off : Bool) : Window :=
  if off then Window.reset else { Window.reset with rstSeq := w.rstSeq, rkey := w.rkey, lastRkey := w.lastRkey }

/-- An engine after a reset and its start-up, before it joins: it keeps flash, one-time-programmable memory, the keeper
domain and its counter; every register, memory and log starts afresh, the ERRORS page and every GENERATION among them, of which the
manual says nothing (R370, R313, R398, R386; DESIGN CHOICE, log 140). `off` says that the shelf
was off in between, so that what lasts until power-off is gone too. -/
def Engine.restart (x : Engine) (e : EngId) (off : Bool) : Engine :=
  let y := Engine.reset e
  { y with powered := x.powered, hold := x.hold, lifecycle := x.lifecycle, anchor := x.anchor, keeper := x.keeper,
           journal := x.journal, clock := { y.clock with now := x.clock.now, suspect := x.clock.suspect },
           fw := { x.fw with staged := [] }, record := x.record, saved := x.saved, spare := none,
           locate := x.locate && !off,
           power := { y.power with timers := if off then y.power.timers else x.power.timers, heat := x.power.heat,
                                   sensors := x.power.sensors.map (fun z => { z with max := z.temp }),
                                   channels := x.power.channels.map (fun z => { z with max := z.temp }) },
           channels := Vector.ofFn (fun i => { Channel.reset with level := x.channels[i].level,
                                                                  budget := levelBudget x.channels[i].level }),
           ports := Vector.ofFn (fun i => if off then y.ports[i] else
             { y.ports[i] with pfcOn := x.ports[i].pfcOn, pfcPrio := x.ports[i].pfcPrio }),
           windows := x.windows.map (fun w => w.afterReset off) }

/-- The rows that the initialisation of a channel writes: in each of the 477 subarrays of 4 ranks of 32 banks the data rows and rows
1000 and 1001 (R197, R200, R217). -/
def initRows : Nat := 477 * 128 * 1002

/-- The start-up budget of a channel at a level of R209 (R217). -/
def startBudget (l : Nat) : Nat := [1000, 500, 250].getD l 250

/-- How long the initialisation of an engine's pool takes in ns: the slowest channel sets the pace (R217; log 146). -/
def Engine.initTime (x : Engine) : Nat := (x.channels.toList.map (fun c => ceilDiv initRows (startBudget c.level) * 65536)).foldl max 0

/-- The pool of an engine is initialised: every channel in PROCESSOR mode to the end (R217). -/
def Engine.initialise (x : Engine) (now : Nat) : Engine :=
  { x with channels := x.channels.map (fun c => { c with processor := true, since := now, initEnd := some (now + x.initTime) }) }

/-- An engine starts up: its pool is initialised, then it offers itself, and it hears its peers from now on (R217, R297, R321). -/
def Engine.offer (x : Engine) (now : Nat) : Engine :=
  ({ x with member := { x.member with offeredAt := now + x.initTime, heard := Vector.replicate 16 now } } : Engine).initialise now

/-- The QoS settings of the record reach every window of an engine (R80). -/
def State.restoreQos (s : State) (e : EngId) : State :=
  s.partIds.foldl (fun s p => match s.cfg p with
    | some c => if hasEngine c.members e then s.modWin e p (c.applyQos e) else s
    | none => s) s

/-- One engine is reset and comes back through its start-up tests, whose failures are detected faults (R363, R370,
R275). A counter advance that a reset interrupted needs no repair here: it is one step of the model (R423). -/
def State.resetEngineNow (s : State) (e : EngId) (failed : List Detection) : State :=
  let s1 := ((s.modEng e (fun x => (x.restart e false).offer s.now)).boot e).restoreQos e
  failed.foldl (fun s d => s.detect e d) s1

end Sys2Proof.Machine
end

