-- ==== Sys2Proof/Machine/KvOps.lean ====
section
/-! DEFINITION. The key-value tier: directory engines, the PLAIN and LENT tiers with their slots, placing and removing
pages, and the twin loan (11, R248–R257). -/

namespace Sys2Proof.Machine

/-- A page of a partition by key. -/
def Partition.page? (x : Partition) (key : DWord) : Option KvPage := x.kv.find? (fun k => k.key = key)

/-- A partition without a page. -/
def Partition.delPage (x : Partition) (key : DWord) : Partition := { x with kv := x.kv.filter (fun k => k.key ≠ key) }

/-- A partition with a page put in place of any other of its key. -/
def Partition.putPage (x : Partition) (k : KvPage) : Partition := { x with kv := k :: x.kv.filter (fun q => q.key ≠ k.key) }

/-- The members of a partition in list order from members[mix(key) mod M] (R248). -/
def State.keyOrder (s : State) (p : PartId) (key : DWord) : List EngId :=
  let l := maskEngines (s.members p)
  let i := (mix key).toNat % max 1 l.length
  l.drop i ++ l.take i

/-- The directory engine of a key: the first unfenced one of its list order (R248). -/
def State.dirEngine (s : State) (p : PartId) (key : DWord) : Option EngId := (s.keyOrder p key).find? (fun e => !s.lost e)

/-! ### Tiers (R249, R255) -/

/-- The units of the LENT tier of an engine: the twin rows of lending partitions. Those of a tensor that is registered or restored
while its partition lends count as lent at once, which R19 does not say (DESIGN CHOICE, log 129). -/
def State.lentUnits (s : State) (e : EngId) : List Nat :=
  ((List.finRange 64).filter (fun p => s.tide.lending.getLsbD p.val)).flatMap (fun p =>
    ((s.part p).tensors.filter Tensor.twin).flatMap (fun t =>
      ((assocGetD t.place.units e.val []) ++ (t.dest.elim [] (fun d => assocGetD d.units e.val []))).map
        (fun u => u + twinOffset)))

/-- Every page of the shelf whose body lies on an engine in a tier. -/
def State.pagesOn (s : State) (e : EngId) (lent : Bool) : List KvPage :=
  (s.parts.toList.flatMap Partition.kv).filter (fun k => k.body = e && k.lent = lent)

/-- Whole units of a slice: 128,000, and in slice 476 those that are left of the pool (09 Geometry and slices). -/
def sliceUnits (sl : Nat) : Nat := min 128000 (poolUnits - 128000 * sl)

/-- Free PLAIN units of an engine: those outside PROTECTED slices that neither a tensor nor a page has. Of each unit the rows of fenced
channels do not count (R4, R96). -/
def State.freePlain (s : State) (e : EngId) : Nat :=
  let x := s.eng e
  (poolUnits - (x.protectedSlices.map sliceUnits).sum - (x.units.filter (fun u => !x.protectedSlices.contains (sliceOf u))).length) *
      x.liveChannels.length / 16 -
    ((s.pagesOn e false).map (fun k => unitOf k.addr)).dedup.length

/-- Free LENT units of an engine. -/
def State.freeLent (s : State) (e : EngId) : List Nat :=
  let used := (s.pagesOn e true).map (fun k => unitOf k.addr)
  (s.lentUnits e).filter (fun u => !used.contains u)

/-- Free slots of one raw length in the units that a partition's pages of that length have. -/
def State.freeSlots (s : State) (e : EngId) (p : PartId) (lent : Bool) (len : Nat) : List Nat :=
  let mine := ((s.part p).kv.filter (fun k => k.body = e && k.lent = lent && k.raw = len)).map KvPage.addr
  ((mine.map unitOf).dedup.flatMap (fun u => (List.range (unitBytes / len)).map (fun i => u + i * len))).filter
    (fun a => !mine.contains a)

/-- Free bytes of a tier on an engine: whole units, and slots of the page's length. -/
def State.freeKv (s : State) (e : EngId) (p : PartId) (lent : Bool) (len : Nat) : Nat :=
  (if lent then (s.freeLent e).length else s.freePlain e) * unitBytes + (s.freeSlots e p lent len).length * len

/-- Whether new pages may go to the LENT tier: in FLOOD with no ebb turn in progress (R249). -/
def State.lentOpen (s : State) : Bool := s.tide.flood && s.tide.turn ≠ 2

/-- The tier in use and the body engine of a new page (R248, R249): the PLAIN tier while a member has room in it. -/
def State.placeFor (s : State) (p : PartId) (dir : EngId) (len : Nat) : Option (Bool × EngId) :=
  let live := (maskEngines (s.members p)).filter (fun e => !s.lost e)
  let inTier (lent : Bool) : Option (Bool × EngId) :=
    let ok := live.filter (fun e => len ≤ s.freeKv e p lent len)
    if ok.contains dir then some (lent, dir)
    else (ok.foldl (fun (r : Option EngId) e => match r with
      | none => some e
      | some b => if s.freeKv b p lent len < s.freeKv e p lent len then some e else some b) none).map (fun e => (lent, e))
  (inTier false) <|> (if s.lentOpen then inTier true else none)

/-- A slot in a tier of an engine: a free one of the length, else the first of a new unit. -/
def State.takeSlot (s : State) (e : EngId) (p : PartId) (lent : Bool) (len : Nat) : Option (Nat × State) :=
  match s.freeSlots e p lent len with
  | a :: _ => some (a, s)
  | [] =>
    if lent then let (u, s1) := s.pick (s.freeLent e); u.map (fun a => (a, s1))
    else let (r, s1) := s.draw 64; (s1.findUnit e false r.toNat poolUnits).map (fun a => (a, s1))

/-- Entries of an engine's page index. -/
def State.indexCount (s : State) (e : EngId) : Nat :=
  ((s.parts.toList.flatMap Partition.kv).filter (fun k => k.dir = e)).length

/-! ### Hot copies (R249) -/

/-- Bytes of stage memory that the partial sums of the ACCUM tensors take on an engine (R139). -/
def State.sumBytes (s : State) (e : EngId) : Nat :=
  ((s.parts.toList.flatMap Partition.tensors).map (fun t =>
    4 * (t.sums.filter (fun a => (t.home (a.1 / t.per)).dataEngine (a.1 / t.per) = e)).length)).sum

/-- Bytes of stage memory that the split intermediates of the programs of an engine take (R166). -/
def State.splitUse (s : State) (e : EngId) : Nat :=
  (((s.partIds.filter (fun p => hasEngine (s.members p) e)).flatMap (fun p => (s.part p).programs)).map (fun g =>
    if 0 < g.split then Config.splitBytes g.bytes else 0)).sum

/-- The stage memory of an engine that no other use needs: what is available beside the epoch area, the page index, a staged firmware
image, partial sums and split intermediates (R96, R249, R361; DEDUCED, log 141). -/
def State.hotRoom (s : State) (e : EngId) : Nat :=
  ((s.capacities e).getD 1 (0, 0)).2 - 34359738368 - (s.eng e).fw.staged.length - s.sumBytes e - s.splitUse e

/-- Pages whose hot copies lie on an engine, the least recently used first. -/
def State.hotPages (s : State) (e : EngId) : List (PartId × KvPage) :=
  ((List.finRange 64).flatMap (fun p => ((s.part p).kv.filter (fun k => k.body = e && k.hot.isSome)).map (fun k => (p, k)))
    ).insertionSort (fun a b => a.2.hotAt ≤ b.2.hotAt)

/-- A page loses its hot copy. -/
def State.coolPage (s : State) (p : PartId) (key : DWord) : State :=
  s.modPart p (fun x => { x with kv := x.kv.map (fun k => if k.key = key then { k with hot := none } else k) })

/-- Evict hot copies of an engine, least recently used first, until the rest fit (R249). -/
def State.trimHot (s : State) (e : EngId) : State :=
  let size (l : List (PartId × KvPage)) : Nat := (l.map (fun k => (k.2.hot.getD []).length)).sum
  ((s.hotPages e).foldl (fun (r : State × List (PartId × KvPage)) k =>
    if s.hotRoom e < size r.2 then (r.1.coolPage k.1 k.2.key, r.2.drop 1) else r) (s, s.hotPages e)).1

/-- Evict hot copies on every engine of a mask. -/
def State.trimHots (s : State) (m : BitVec 16) : State := (maskEngines m).foldl State.trimHot s

/-- The hot copy of a page is used: it is the body engine's latest use, and is kept as far as stage memory allows. -/
def State.warmPage (s : State) (p : PartId) (key : DWord) : State :=
  match (s.part p).page? key with
  | none => s
  | some k =>
    let n := (s.eng k.body).uses + 1
    let s1 := (s.modEng k.body (fun x => { x with uses := n })).modPart p (fun x =>
      x.putPage { k with hot := some (k.hot.getD k.home), hotAt := n })
    s1.trimHot k.body

/-- Put a coded page: quota, index and slots are checked with the page it replaces gone; none means that it has no effect
(R250, R251). -/
def State.putPage (s : State) (p : PartId) (key : DWord) (raw : Nat) (coded : List Byte) : Option State := do
  let s1 := s.modPart p (fun x => x.delPage key)
  let dir ← s1.dirEngine p key
  let (lent, body) ← s1.placeFor p dir raw
  if s1.overQuota p body raw || 268435456 ≤ s1.indexCount dir then none
  else
    let (a, s2) ← s1.takeSlot body p lent raw
    pure ((s2.modPart p (fun x =>
      x.putPage { key := key, raw := raw, dir := dir, body := body, lent := lent, addr := a, home := coded,
                  hot := none, hotAt := 0, poisoned := false })).warmPage p key)

/-! ### The twin loan (R17, R18, R255–R257) -/

/-- Whether an unfinished command names a page of a partition. -/
def State.pageInUse (s : State) (p : PartId) (key : DWord) : Bool :=
  (List.finRange 16).any (fun e => (s.win e p).streams.any (fun x => x.2.queue.any (fun q =>
    !q.isFinished && [5, 6, 7].contains (byteAt q.task 0).toNat && field q.task 16 8 = key.toNat)))

/-- Drop the pages in lent rows that no command accepted before holds (R18 step 2, R20, R257). -/
def State.dropLent (s : State) : State :=
  if s.tide.turn ≠ 2 then s
  else s.partIds.foldl (fun s p =>
    s.modPart p (fun x => { x with kv := x.kv.filter (fun k => !k.lent || s.pageInUse p k.key) })) s

/-- Pages whose rows have left the LENT tier outside an ebb turn are lost (log 31). -/
def State.trimLent (s : State) : State :=
  if s.tide.turn = 2 then s
  else s.partIds.foldl (fun s p =>
    s.modPart p (fun x => { x with kv := x.kv.filter (fun k => !k.lent || (s.lentUnits k.body).contains (unitOf k.addr)) })) s

/-- Whether a partition holds twin rows. -/
def Partition.hasTwins (x : Partition) : Bool := x.tensors.any Tensor.twin

/-- Bytes of the LENT tier of the shelf (Table 11-7). -/
def State.lentBytes (s : State) : Nat := ((List.finRange 16).map (fun e => (s.lentUnits e).length * unitBytes)).sum

/-- A partition lends its twin rows (R17 step 3, R255). -/
def State.lend (s : State) (p : PartId) : State :=
  { s with tide := { s.tide with lending := setBit s.tide.lending p.val true, held := setBit s.tide.held p.val false,
                                 waits := setBit s.tide.waits p.val false,
                                 ready := setBit s.tide.ready p.val false } }

/-- The partitions a test selects, as a mask. -/
def State.partMask (s : State) (f : PartId → Bool) : DWord :=
  (s.partIds.filter f).foldl (fun m p => setBit m p.val true) 0

end Sys2Proof.Machine
end

