-- ==== Sys2Proof/Machine/FirmwareCmds.lean ====
section
/-! DEFINITION. The firmware group: FW_DOWNLOAD, FW_COMMIT, FW_ACTIVATE, FW_QUERY (20 Basic control). -/

namespace Sys2Proof.Machine

/-- The engines that a field names, every engine of the view by default (20). -/
def Call.viewEngines (c : Call) (s : State) (off : Nat) : BitVec 16 := enginesOr (BitVec.ofNat 16 (c.fld off 2)) s.joinedMask

/-- FW_DOWNLOAD (0x10). -/
def cmdFwDownload (c : Call) (s : State) : State × Result :=
  let es := c.viewEngines s 14
  let first := natBit (c.fld 12 1) 0
  let off := c.fld 8 4
  let base (e : EngId) : Nat := if first then 0 else (s.eng e).fw.staged.length
  guarded c s { used := [(8, 5), (14, 2)], desc := true, p0 := true, reads := true, needs := es,
                bad := [(12, 1 < c.fld 12 1), (8, (maskEngines es).any (fun e => base e ≠ off))] }
    (ordered s [(134217728 < off + c.dlen, .quota)]
      (withData c s (fun d =>
        ((s.modEngines es (fun _ x =>
          { x with fw := { x.fw with staged := (if first then [] else x.fw.staged) ++ d } })).trimHots es,
         .ok (withDoneLen [] d.length)))))

/-- FW_COMMIT (0x11): the checks run in the order R420 lists them. -/
def cmdFwCommit (c : Call) (s : State) : State × Result :=
  let es := c.viewEngines s 14
  let slot : Fin 2 := if c.fld 8 1 = 0 then 0 else 1
  let any (f : EngId → Firmware → Bool) : Bool := (maskEngines es).any (fun e => f e (s.eng e).fw)
  let sec (f : Firmware) : Nat := (imageInfo f.staged).sec.toNat
  let info := imageInfo (s.eng ((maskEngines es).headD c.eng)).fw.staged
  guarded c s { used := [(8, 2), (14, 2)], p0 := true, needs := es, bad := [(8, 1 < c.fld 8 1), (9, 1 < c.fld 9 1)] }
    (ordered s [(any (fun _ f => !imageShaped f.staged), .layout),
        (any (fun e f => !imageAuthentic e f.staged), .digestMismatch),
        (any (fun _ f => 128 < sec f), .counterExhausted),
        (any (fun _ f => f.active = slot || sec f < f.counter), .notPermitted)]
      ((maskEngines es).foldl (fun s e =>
        let s1 := s.modEng e (fun x =>
          { x with fw := { x.fw with slots := x.fw.slots.set slot.val (some x.fw.staged) slot.isLt,
                                     next := if natBit (c.fld 9 1) 0 then slot else x.fw.next } })
        s1.fwJournal e 0 slot (imageInfo (s1.eng e).fw.staged)) s,
       .ok (rspFields [(8, 1, info.major.toNat), (9, 1, info.minor.toNat), (10, 2, info.patch.toNat),
         (12, 1, info.sec.toNat)])))

/-- Whether a build may be joined together with the builds of an engine set (R304): one major, one minor or two adjacent
ones. -/
def State.buildFits (s : State) (others : BitVec 16) (major minor : Byte) : Bool :=
  let ms := minor.toNat :: (maskEngines others).map (fun e => (s.eng e).fw.minor.toNat)
  (maskEngines others).all (fun e => (s.eng e).fw.major = major) &&
    ms.all (fun a => ms.all (fun b => a ≤ b + 1 && b ≤ a + 1))

/-- Whether a re-shard or rebuild of any partition runs. -/
def State.reshardRuns (s : State) : Bool := s.parts.toList.any (fun x => x.reshard.any (fun r => r.campaign.isSome))

/-- FW_ACTIVATE (0x12): the engine announces its departure, resets into its NEXT slot and will return empty (R421). -/
def cmdFwActivate (c : Call) (s : State) : State × Result :=
  let n := c.fld 8 1
  let e := (engId? n).getD 0
  let f := (s.eng e).fw
  let next := f.bootable e f.next
  let rest := s.joinedMask &&& ~~~(engineBit e)
  guarded c s { used := [(8, 1)], p0 := true, bad := [(8, 15 < n)], needs := if n < 16 then engineBit e else 0 }
    (ordered s [(next.any (fun x => !s.buildFits rest x.major x.minor), .versionSplit),
        (maskCount rest < 9 || next.isNone || (s.parity = 0 && !(s.partsOn e).isEmpty), .notPermitted),
        (s.membership.activation.any (fun a => a ≠ e) || s.reshardRuns, .busy)]
      (let s1 := s.leave e 1 0
       let s2 := s1.resetEngineNow e []
       ({ (s2.fwJournal e 1 f.next (next.getD (imageInfo []))) with
            membership := { s2.membership with activation := some e } }, .ok [])))

/-- One slot of FW_QUERY (Table 20-9). -/
def slotFields (f : Firmware) (e : EngId) (i : Fin 2) (off : Nat) : List (Nat × Nat × Nat) :=
  match f.info e i with
  | none => []
  | some x => [(off, 1, bit (f.bootable e i).isSome), (off + 1, 1, x.major.toNat), (off + 2, 1, x.minor.toNat),
      (off + 4, 2, x.patch.toNat), (off + 6, 1, x.sec.toNat), (off + 8, 8, x.time.toNat)]

/-- FW_QUERY (0x13). -/
def cmdFwQuery (c : Call) (s : State) : State × Result :=
  let n := c.fld 8 1
  let e := (engId? n).getD 0
  let f := (s.eng e).fw
  guarded c s { used := [(8, 1)], bad := [(8, 15 < n)], needs := if n < 16 then engineBit e else 0 }
    (s, .ok (rspFields ([(8, 1, f.active.val), (9, 1, f.next.val), (10, 1, f.counter), (11, 1, 128 - f.counter),
      (12, 4, f.staged.length)] ++ slotFields f e 0 16 ++ slotFields f e 1 32)))

end Sys2Proof.Machine
end

