-- ==== Sys2Proof/Machine/StoreAttach.lean ====
section
/-! DEFINITION. Volumes of the STORE_TARGETS value, superblocks and attachment, and claiming a lease slot (10 Superblock,
R232, R40, R315, R322). -/

namespace Sys2Proof.Machine

/-- The superblock of Table 10-2. -/
def superblock (uuid : List Byte) (index count blocks : Nat) (time : DWord) : List Byte :=
  sealRec (ascii "WLMSB001" ++ natLe 2 1 ++ natLe 2 1 ++ zeros 4 ++ padTo 16 uuid ++ natLe 1 index ++ natLe 1 count ++
    zeros 6 ++ natLe 8 blocks ++ natLe 8 time.toNat ++ natLe 8 ((blocks - 65536) / 256))

/-- The superblock of a volume: copy A when it is valid, else copy B (R220). -/
def State.superblockOf (s : State) (v : Nat) : Option (List Byte) :=
  let a := s.readBlocks v 0 4096
  let b := s.readBlocks v 8 4096
  if sealedOk "WLMSB001" a then some a else if sealedOk "WLMSB001" b then some b else none

/-- Entry `i` of a STORE_TARGETS value. -/
def targetEntry (v : List Byte) (i : Nat) : List Byte := slice v (64 + 256 * i) 256

/-- The volume of an entry as the world first shows it: blank (log 27). -/
def freshVolume (x : List Byte) : Volume :=
  let f := Config.targetFacts (x.drop 1)
  { entry := x.drop 1, blocks := f.1, bytes := [], queues := Vector.replicate 64 0, pairs := [], attached := false, cache := f.2.2.2.2,
    dirty := [], lba := f.2.1, metaBytes := f.2.2.1, protection := f.2.2.2.1 }

/-- Whether a namespace meets R40. -/
def Volume.fits (x : Volume) : Bool := x.lba = 4096 && x.metaBytes = 0 && x.protection = 0

/-- Whether the superblock of a volume answers for its entry (R232). -/
def State.superblockFits (s : State) (v : Nat) : Bool :=
  match s.superblockOf v with
  | some b => slice b 16 16 = slice s.targets 0 16 && field b 32 1 = v && field b 33 1 = targetCount s.targets &&
      field b 10 2 ≤ 1
  | none => false

/-- The shelf connects to its targets, and asks each that answers for Identify; one that no S-port reaches is recorded in the fault
log (R38, R39, R56; log 28). -/
def State.reconnect (s : State) : State :=
  let s1 := s.connectAll
  (List.range s1.store.volumes.length).foldl (fun s i =>
    if (s.volume i).any (fun x => s.connected x) then s.issue (.identify i)
    else s.detect s.firstJoined (plainFault 8 2 16)) s1

/-- Attach the volumes of the STORE_TARGETS value that R40 and R232 admit; each other one records its cause: PORT source 2
on the first S-port of the lowest joined engine (log 28). -/
def State.attachAll (s : State) : State :=
  (List.range s.store.volumes.length).foldl (fun s i =>
    let ok := (s.volume i).any (fun x => x.fits && s.connected x) && s.superblockFits i
    let s1 := s.modVolume i (fun x => { x with attached := ok })
    if ok then s1 else s1.detect s1.firstJoined (plainFault 8 2 16)) s

/-- Another store: the shelf holds no lease of it, and its partitions no generation on it (R221, R222, R232; log 132). -/
def State.leaveStore (s : State) : State :=
  { s with store := { s.store with lease := Lease.none, used := [], unfreed := [] },
           parts := s.parts.map (fun x => { x with prevGen := none, gen := none, nextFull := true }) }

/-- Whether two STORE_TARGETS values name the same store: its UUID and volume 0. -/
def sameStore (a b : List Byte) : Bool :=
  slice a 0 16 = slice b 0 16 && (targetEntry a 0).drop 1 = (targetEntry b 0).drop 1

/-- The STORE_TARGETS value in force names the volumes: one that an earlier value named keeps its contents. -/
def State.useTargets (s : State) : State :=
  let all := s.store.volumes ++ s.store.parked
  let v := s.targets
  let n := if v.isEmpty then 0 else targetCount v
  let vols := (List.range n).map (fun i =>
    (all.find? (fun x => x.entry = (targetEntry v i).drop 1)).getD (freshVolume (targetEntry v i)))
  let rest := all.filter (fun x => !vols.any (fun y => y.entry = x.entry))
  { s with store := { s.store with volumes := vols, parked := rest.map (fun x => { x with attached := false }) } }

/-! ### Claiming a lease (R315, R322) -/

/-- Lease records that other shelves have written since, as the lease table now holds them: they are written into their
slots, but for the slot of a lease that this shelf holds (R221). -/
def State.othersWrote (s : State) (rs : List (List Byte)) : State :=
  rs.foldl (fun s r =>
    let slot := field r 10 1
    if r.length = 4096 && slot < 16 && !(s.leaseHeld && s.store.lease.slot = slot) then
      s.writeBlocks 0 (leaseLba slot) r else s) s

/-- Whether a slot is held by another shelf and within 30 s of its expiry (R315). -/
def State.slotHeld (s : State) (slot : Nat) : Bool :=
  match s.readLease slot with
  | some r => r.state = 1 && r.holder ≠ Config.shelfSerial && s.shelfTime.toNat < r.expiry.toNat + 30000000000
  | none => false

/-- Write the claim of a slot: a fresh nonce, 60 s of lease, the slot's allotments and NEXT_GEN inherited (R315). The
read-back follows 15 s later. -/
def State.claim (s : State) (slot : Nat) (by_ : Option (EngId × MbxKey)) : State :=
  let (nonce, s1) := s.draw 64
  let old := s1.readLease slot
  let t := s1.shelfTime
  let l : Lease :=
    { state := 1, slot := slot, nonce := nonce, expiry := t + 60000000000, renewed := t,
      seq := ((old.map LeaseRec.seq).getD 0) + 1, nextGen := (old.map LeaseRec.nextGen).getD 0,
      allot := (old.map LeaseRec.allot).getD [], claimAt := some s1.now, claimBy := by_, extendAt := none,
      retryAt := none, grant := t }
  ({ s1 with store := { s1.store with lease := l } }).writeLease 1

/-- The slot to claim when none is named: the lowest that is FREE, RELEASED or expired (R318, R322). -/
def State.freeSlot (s : State) : Option Nat := (List.range 16).find? (fun i => !s.slotHeld i)

/-- The slot that the shelf claims of itself: the one its record names, when that slot still names this shelf as holder;
else the preferred slot; else the lowest free one (R322). -/
def State.ownSlot (s : State) : Option Nat :=
  let pref := field s.targets 17 1
  let last := s.record.leaseSlot.filter (fun i => (s.readLease i).any (fun r => r.holder = Config.shelfSerial))
  match last with
  | some i => some i
  | none => if pref < 16 && !s.slotHeld pref then some pref else s.freeSlot

end Sys2Proof.Machine
end

