-- ==== Sys2Proof/Machine/FormatSanitise.lean ====
section
/-! DEFINITION. FORMAT, SANITISE and SANITISE_STATUS, their completion and the resumption after a power cycle (20 Format,
Sanitise). -/

namespace Sys2Proof.Machine

/-- The engines that keep the journal: those that run. -/
def State.journalAll (s : State) (type part : Nat) (payload : List Byte) : State :=
  ((List.finRange 16).filter (fun e => s.serves e)).foldl (fun s e => s.journal e type part payload) s

/-- The payload of a FORMAT entry (Table 20-6). -/
def formatPayload (phase vol : Nat) (uuid : List Byte) : List Byte :=
  natLe 1 phase ++ natLe 1 vol ++ zeros 2 ++ padTo 16 uuid

/-- The payload of a SANITISE entry (Table 20-6). -/
def sanitisePayload (mode scope part phase extents : Nat) : List Byte :=
  natLe 1 mode ++ natLe 1 scope ++ natLe 1 part ++ natLe 1 phase ++ natLe 8 extents

/-- Whether the journal of the receiving engine is read-only (R417). -/
def State.journalWorn (s : State) (e : EngId) : Bool := (s.eng e).journal.readOnly

/-! ### FORMAT -/

/-- The saved STORE_TARGETS value, which FORMAT prepares (R413). -/
def State.savedTargets (s : State) : List Byte := s.featureSaved 2 0 0

/-- Whether a lease record of another shelf is HELD and less than 30 s past its expiry (R422). -/
def State.foreignLease (s : State) : Bool := (List.range 16).any (fun i => s.slotHeld i)

/-- FORMAT (0x20). -/
def cmdFormat (c : Call) (s : State) : State × Result :=
  let vs := s.store.volumes
  guarded c s { used := [(8, 1)], p0 := true, bad := [(8, 1 < c.fld 8 1)], split := true, step9 := true }
    (ordered s [(s.journalWorn c.eng, .journalWorn), (!s.campaigns.isEmpty || s.foreignLease, .busy),
        (s.savedTargets.isEmpty || vs.any (fun v => !s.connected v), .notFound),
        (vs.any (fun v => !v.fits || v.blocks < 65792), .layout),
        (!natBit (c.fld 8 1) 0 && (List.range vs.length).any (fun i => (s.superblockOf i).isSome), .notPermitted),
        (s.campaignsFull, .epochLimit)]
      (let (n, s1) := s.startCampaign .format none
       let s2 := s1.journalAll 2 0xFF (formatPayload 0 0 (slice s.savedTargets 0 16))
       ({ s2 with store := { s2.store with format := some { accepted := s.time c.eng, campaign := n } } },
        .ok (rspFields [(40, 2, n)]))))

/-- FORMAT prepares one volume (R413 steps 1 to 4). -/
def State.formatVolume (s : State) (accepted : DWord) (i : Nat) : State :=
  let blocks := (s.volume i).elim 0 Volume.blocks
  let s1 := (s.writeZeroes i 16 32816).deallocate i 65536 (blocks - 65536)
  let sb := superblock (slice s.savedTargets 0 16) i (targetCount s.savedTargets) blocks accepted
  let s2 := (s1.storeWrite i 8 sb true).storeWrite i 0 sb true
  s2.journalAll 2 0xFF (formatPayload 1 i (slice s.savedTargets 0 16))

/-- FORMAT prepares the volumes down to a VOLUME_INDEX, in descending order (R413). -/
def State.formatDown (s : State) (accepted : DWord) (last : Nat) : State :=
  ((List.range s.store.volumes.length).reverse.filter (fun i => last ≤ i)).foldl (fun s i => s.formatVolume accepted i) s

/-- FORMAT_COMPLETE: the campaign ends. On success every volume has been prepared, the volumes attach and a lease is claimed; the
partitions have no generation on the fresh store (R413). Where a volume fails, the format is FAILED, and those above it are done (R424;
of the failed one nothing is written, log 156). -/
def execFormatComplete (fail : Option Nat) (s : State) : Host.Outcome State Fault Refusal :=
  .next (match s.store.format with
  | none => s
  | some f =>
    let s1 := s.endCampaign (some f.campaign)
    let uuid := slice s.savedTargets 0 16
    match fail with
    | none =>
      let s2 := ((s1.formatDown f.accepted 0).journalAll 2 0xFF (formatPayload 2 0 uuid)).attachAll
      let s3 := ({ s2 with store := { s2.store with format := none, formatFailed := false } }).leaveStore
      match s3.ownSlot with
      | some i => s3.claim i none
      | none => s3
    | some v =>
      let s2 := (s1.formatDown f.accepted (v + 1)).journalAll 2 0xFF (formatPayload 3 v uuid)
      { s2 with store := { s2.store with format := none, formatFailed := true } })

/-! ### SANITISE -/

/-- CRYPTO: every slot of usage MANIFEST, DATA and HMAC that the scope owns is zeroised on every engine, its KEY_BIND
bindings are cleared, and with shelf scope each context-wrap key is replaced (Table 20-4). -/
def State.cryptoErase (s : State) (scope : Option PartId) : State :=
  let s1 := (List.finRange 16).foldl (fun s e =>
    let s' := s.zeroSlots e (fun k => 2 ≤ k.usage && scope.all (fun p => k.owner = p))
    if scope.isNone then s'.newWrapKey e else s') s
  { s1 with record := { s1.record with parts := s1.record.parts.map (fun c =>
      if scope.all (fun p => p.val = c.1) then (c.1, { c.2 with mslot := none, dslot := none }) else c) } }

/-- What names a sanitise for R415: its mode, scope and, with partition scope, its partition. -/
def Sanitise.name (z : Sanitise) : Nat × Nat × Nat := (z.mode, z.scope, if z.scope = 1 then z.part else 0)

/-- A sanitise completes: the refusals of an earlier failure of the same mode and scope end (R415). -/
def State.sanitised (s : State) (z : Sanitise) : State :=
  { s with sanitise := z, sanitiseFailed := s.sanitiseFailed.filter (fun f => f ≠ z.name) }

/-- SANITISE (0x21). CRYPTO completes with the command; the others start a campaign, OVERWRITE with every channel in PROCESSOR mode
under the start-up budget (R422, Table 20-4). -/
def cmdSanitise (c : Call) (s : State) : State × Result :=
  let mode := c.fld 8 1
  let scope := c.fld 9 1
  let n := c.fld 10 1
  let p := (partId? n).getD 0
  let san : Sanitise := { state := 1, mode := mode, scope := scope, part := n, percent := 0, status := .ok,
                          start := s.time c.eng, finish := 0, campaign := none }
  guarded c s { used := [(8, 3)], p0 := true, split := true, step9 := mode = 3,
                bad := [(8, mode = 0 || 3 < mode), (9, 1 < scope || (scope = 1 && mode ≠ 1)), (10, 63 < n)] }
    (ordered s [(s.journalWorn c.eng, .journalWorn),
        (s.sanitise.state = 1 || s.store.format.isSome || (mode ≠ 1 && !s.campaigns.isEmpty), .busy),
        ((scope = 1 && !s.exists_ p) || (mode = 3 && !s.leaseHeld), .notFound),
        (mode ≠ 1 && s.campaignsFull, .epochLimit)]
      (let s1 := s.journalAll 3 n (sanitisePayload mode scope n 0 0)
       if mode = 1 then
         let s2 := ((s1.cryptoErase (if scope = 1 then some p else none)).journalAll 3 n
           (sanitisePayload mode scope n 1 0)).journalAll 3 n (sanitisePayload mode scope n 3 0)
         (s2.sanitised { san with state := 2, percent := 100, finish := s.time c.eng },
          .ok (rspFields [(40, 2, 0xFFFF)]))
       else
         let (i, s2) := s1.startCampaign .sanitise none
         let s3 := if mode = 2 then
             (s2.partIds.foldl (fun s p => s.discardState p)
               ((s2.cryptoErase none).journalAll 3 n (sanitisePayload mode scope n 1 0))).modEngines s.joinedMask (fun _ x =>
                 x.initialise s.now)
           else s2
         ({ s3 with sanitise := { san with campaign := some i },
                    campaigns := if mode = 2 then s3.campaigns.filter (fun x => x.id = i) else s3.campaigns },
          .ok (rspFields [(40, 2, i)]))))

/-- NAMESPACE zeroes and deallocates one extent of the allotments. -/
def State.eraseExtent (s : State) (ptr : Nat) : State :=
  (s.writeZeroes (ptrVol ptr) (ptrLba ptr) extentBlocks).deallocate (ptrVol ptr) (ptrLba ptr) extentBlocks

/-- The extents of the lease's allotments, in their order. -/
def Lease.extents (l : Lease) : List Nat := l.allot.flatMap (fun a => (List.range a.2).map (fun i => a.1 + i * extentBlocks))

/-- NAMESPACE works through the extents, of which `n` are done, and journals its count every 1,024 of them (R416). -/
def State.eraseExtents (s : State) : Nat → List Nat → State
  | _, [] => s
  | n, x :: xs =>
    let s1 := s.eraseExtent x
    (if (n + 1) % 1024 = 0 then
      s1.journalAll 3 s.sanitise.part (sanitisePayload 3 s.sanitise.scope s.sanitise.part 0 (n + 1)) else s1).eraseExtents (n + 1) xs

/-- NAMESPACE: every extent of the allotments reads zero and is deallocated, the lease's LIVE and RETIRED generation
records are written FREE, and the lease record RELEASED with no allotment (Table 20-4); no partition has a generation any more. -/
def State.namespaceErase (s : State) : State :=
  let l := s.store.lease
  let s1 := s.eraseExtents 0 l.extents
  let s2 := (List.range 2048).foldl (fun s i =>
    let lba := 64 + l.slot * 2048 + i
    let r := s.readBlocks 0 lba 4096
    if sealedOk "WLMGN001" r && genState r ≠ 0 then s.storeWrite 0 lba (sealRec (putLe (r.take 4064) 10 1 0)) true else s) s1
  let s3 : State := { s2 with store := { s2.store with lease := { l with allot := [], seq := l.seq + 1 } } }
  (s3.writeLease 2).leaveStore

/-- OVERWRITE: the pool and the stage memory of every engine that runs read zero, a staged image with them (Table 20-4); partitions
hold nothing by then. -/
def State.overwrite (s : State) : State :=
  s.modEngines 0xFFFF (fun _ x =>
    if x.powered then { x with pool := [], fw := { x.fw with staged := x.fw.staged.map (fun _ => 0) } } else x)

/-- SANITISE_COMPLETE: the campaign finishes, or fails with the fault of R425 and keeps its refusals (R415): a NAMESPACE after some
extents, an OVERWRITE in its read-back. -/
def execSanitiseComplete (fail : Option Nat) (s : State) : Host.Outcome State Fault Refusal :=
  let z := s.sanitise
  .next (if z.state ≠ 1 then s
  else
    let s1 := s.endCampaign z.campaign
    match fail with
    | none =>
      let s2 := if z.mode = 2 then (s1.overwrite).journalAll 3 z.part (sanitisePayload z.mode z.scope z.part 2 0)
        else s1.namespaceErase
      let s3 := s2.journalAll 3 z.part (sanitisePayload z.mode z.scope z.part 3 (if z.mode = 2 then 0 else s.store.lease.extents.length))
      s3.sanitised { z with state := 2, percent := 100, finish := s.shelfTime, campaign := none }
    | some n =>
      let s2 := if z.mode = 2 then s1.overwrite else s1.eraseExtents 0 (s.store.lease.extents.take n)
      let s3 := (s2.journalAll 3 z.part (sanitisePayload z.mode z.scope z.part 4 (if z.mode = 2 then 0 else n))).mgmtFault s2.firstJoined 2
      { s3 with sanitise := { z with state := 3, status := if z.mode = 2 then .readbackMismatch else .mediumError,
                                     finish := s.shelfTime, campaign := none },
                sanitiseFailed := z.name :: s3.sanitiseFailed.filter (fun f => f ≠ z.name) })

/-- SANITISE_STATUS (0x22). -/
def cmdSanitiseStatus (c : Call) (s : State) : State × Result :=
  let z := s.sanitise
  guarded c s {}
    (s, .ok (rspFields [(8, 1, z.state), (9, 1, z.mode), (10, 1, z.scope), (11, 1, z.part), (12, 1, z.percent),
      (13, 1, (statusCode z.status).toNat), (16, 8, z.start.toNat), (24, 8, z.finish.toNat),
      (32, 1, (s.eng c.eng).journal.wear), (33, 1, bit (s.eng c.eng).journal.readOnly)]))

/-- Journaled format and sanitise work resumes at step 8 of a power-on: its campaign runs again, and an OVERWRITE repeats
its discarding, which leaves what it left (R422). -/
def State.resumeWork (s : State) : State :=
  let s1 := match s.store.format with
    | some f =>
      let (n, s') := s.startCampaign .format none
      { s' with store := { s'.store with format := some { f with campaign := n } } }
    | none => s
  if s1.sanitise.state = 1 then
    let (n, s') := s1.startCampaign .sanitise none
    { s' with sanitise := { s'.sanitise with campaign := some n } }
  else s1

end Sys2Proof.Machine
end

