-- ==== Sys2Proof/Machine/Lanes.lean ====
section
/-! DEFINITION. The lanes of the digest engine: which a job may take, its priority class, and the jobs of the shelf that hold one
(R264, R268, R269, R346). -/

namespace Sys2Proof.Machine

/-- ALG, MODE, FLAGS, KEY_SLOT of a job header. -/
def jobAlg (j : List Byte) : Nat := (byteAt j 0).toNat

/-- Whether a lane computes an algorithm and is not fenced. -/
def Engine.laneFits (x : Engine) (alg i : Nat) : Bool := (alg ≠ 4 || i < 16) && !(x.flt[(2 : Fin 11)]).isFenced i

/-- Lanes that could take a job of an algorithm now. -/
def Engine.freeLanes (x : Engine) (alg : Nat) : List Nat :=
  (List.range 64).filter (fun i => x.laneFits alg i && (x.lanes.toList.getD i none).isNone)

/-- The priority class of a digest job (R268). -/
def DigestJob.cls : DigestJob → Nat
  | .dgx _ => 3
  | .shard _ _ _ | .restore _ => 2
  | _ => 1

/-- The algorithm of a digest job: SHA-256 for shards, HMAC-SHA-384 for seals (R224, R229). -/
def Engine.workAlg (x : Engine) (w : DigestJob) : Nat :=
  match w with
  | .dgx p => (x.windows[p].dgx.run.map (fun r => jobAlg r.job)).getD 0
  | .shard _ _ _ | .restore _ => 1
  | _ => 2

/-- The lanes that a job which has not started may take: the free ones that its algorithm fits and no saved job of its class or
a higher one waits for, while no job of the shelf of a higher class waits (R268, R269). -/
def Engine.openLanes (x : Engine) (w : DigestJob) : List Nat :=
  if x.digestWaits.any (fun v => v.cls < w.cls) then []
  else (x.freeLanes (x.workAlg w)).filter (fun l => !x.contexts.any (fun c => c.work.cls ≤ w.cls && x.laneFits (x.workAlg c.work) l))

/-- The lane that a job holds. -/
def Engine.laneOf (x : Engine) (w : DigestJob) : Option Nat :=
  (List.range 64).find? (fun i => (x.lanes.toList.getD i none).any (fun j => j.work = w))

/-- A job of the shelf holds a lane: the one it has, or a free one that it may take; else it waits (R268, R341). -/
def State.shelfLane (s : State) (e : EngId) (w : DigestJob) : Option Nat × State :=
  let x := s.eng e
  match x.laneOf w with
  | some l => (some l, s)
  | none =>
    if x.contexts.any (fun c => c.work = w) then (none, s)
    else match s.pick (x.openLanes w) with
    | (some l, s1) => (some l, s1.modEng e (fun x =>
        { x with lanes := x.lanes.mapIdx (fun i j => if i = l then some { work := w, since := s.now } else j),
                 digestWaits := x.digestWaits.filter (fun v => v ≠ w) }))
    | (none, _) => (none, s.modEng e (fun x => x.awaitLane w))

/-- The lane of a digest job on an engine is free again, and the job waits no more. -/
def State.freeLane (s : State) (e : EngId) (w : DigestJob) : State :=
  s.modEng e (fun x => { x with lanes := x.lanes.map (dropLane w), digestWaits := x.digestWaits.filter (fun v => v ≠ w) })

end Sys2Proof.Machine
end

