-- ==== Sys2Proof/Machine/Keys.lean ====
section
/-! DEFINITION. The keys and security group (19 Basic control). -/

namespace Sys2Proof.Machine

/-- A slot number of 1 to 63 from a command byte. -/
def slotOf (n : Nat) : Option (Fin 64) := if h : n < 64 then (if n = 0 then none else some ⟨n, h⟩) else none

/-- The engines that an ENGINES field names: every member by default, or the view for partition 0 (19). -/
def Call.keyEngines (c : Call) (s : State) (m : Nat) : BitVec 16 :=
  enginesOr (BitVec.ofNat 16 m) (if c.part = 0 then s.joinedMask else s.members c.part)

/-- Whether an ENGINES field names an engine that the caller's partition does not have (log 22). -/
def Call.foreignEngines (c : Call) (s : State) (m : Nat) : Bool :=
  c.part ≠ 0 && BitVec.ofNat 16 m &&& ~~~(s.members c.part) ≠ 0

/-- Whether some engine of a mask passes a test. -/
def State.anyEng (s : State) (m : BitVec 16) (f : Engine → Bool) : Bool := (maskEngines m).any (fun e => f (s.eng e))

/-- SEC_QUERY (0x90). -/
def cmdSecQuery (c : Call) (s : State) : State × Result :=
  let n := c.fld 8 1
  guarded c s { used := [(8, 1)], bad := [(8, 63 < n)] }
    (let x := s.eng c.eng
     let k := x.keeper.slots.toList.getD n KeySlot.empty
     let cfg := (s.cfg c.part).getD PartCfg.initial
     let mask := (x.keeper.slots.toList.zipIdx.map (fun (y, i) => if y.usage ≠ 0 then 2 ^ i else 0)).sum
     ordered s [(n ≠ 0 && k.usage ≠ 0 && k.owner ≠ c.part && c.part ≠ 0, .notPermitted)]
      (s, .ok (rspFields [(8, 1, x.lifecycle), (9, 1, x.debug), (10, 1, bit x.hold + 2 * bit x.keeper.lost),
        (11, 1, x.keeper.reserve), (12, 4, x.keeper.cellMv), (16, 8, x.keeper.alarm.toNat), (24, 1, x.keeper.arm.toNat),
        (25, 1, x.keeper.activeNow s.now), (32, 8, mask), (40, 1, cfg.mslot.getD 255), (41, 1, cfg.dslot.getD 255),
        (48, 4, if n = 0 then 0 else k.gen.toNat)])))

/-- One engine takes the owner key (R400). -/
def State.provisionOne (s : State) (e : EngId) (key pub : List Byte) : State :=
  let s1 := s.fillSlot e 0 { usage := 1, owner := 0, keyId := 0, key := key, gen := 0 }
  let s2 := if (s1.eng e).keeper.wrapKey = 0 then s1.newWrapKey e else s1
  let was := (s2.eng e).lifecycle
  let s3 := s2.modEng e (fun x =>
    { x with anchor := some (x.anchor.getD (keyAnchor pub)), lifecycle := if x.lifecycle = 0 then 1 else x.lifecycle, hold := false,
             keeper := { x.keeper with alarm := 0, lost := false, armed := none } })
  if was = 0 then s3.closeDebug e else s3

/-- PROVISION (0x91): every engine of the view, or the one engine of the direct path; refused where a zeroisation has not verified
(R400, R401, R405; log 23). -/
def cmdProvision (c : Call) (s : State) : State × Result :=
  let es := if c.direct s then engineBit c.eng else s.joinedMask
  guarded c s { desc := true, p0 := true, reads := true, bad := [(60, c.dlen ≠ 128)] }
    (ordered s [(s.anyEng es (fun x => !(x.lifecycle = 0 || x.keeper.isArmed 2)), .notPermitted),
        (s.anyEng es (fun x => x.keeper.zeroFailed), .mediumError),
        (s.anyEng es (fun x => x.keeper.reserve < 2), .busy)]
      (withData c s (fun d =>
        let key := d.take 32
        let pub := slice d 32 96
        ordered s [(s.anyEng es (fun x => x.anchor.any (fun a => a ≠ keyAnchor pub)), .digestMismatch)]
          ((maskEngines es).foldl (fun s e => s.provisionOne e key pub) s, .ok (withDoneLen [] 128)))))

/-- Seal one PROVISIONED engine: SEALED, the arming locked, debug closed (R389, R403, R398). -/
def State.sealOne (s : State) (e : EngId) (arm : Byte) : State :=
  (s.modEng e (fun x => if x.lifecycle = 1 then { x with lifecycle := 2, keeper := { x.keeper with arm := arm } }
    else x)).closeDebug e

/-- SEAL (0x92). -/
def cmdSeal (c : Call) (s : State) : State × Result :=
  guarded c s { used := [(8, 1)], p0 := true }
    (ordered s [(s.anyEng s.joinedMask (fun x => x.lifecycle ≠ 1), .notPermitted)]
      ((maskEngines s.joinedMask).foldl (fun s e => s.sealOne e (byteAt c.cmd 8 &&& 0x7F)) s, .ok []))

/-- RETIRE (0x93): every slot is zeroised for good and the engine leaves the view (Table 19-1; reason log 24). -/
def cmdRetire (c : Call) (s : State) : State × Result :=
  let n := c.fld 8 1
  let e := (engId? n).getD 0
  guarded c s { used := [(8, 1)], p0 := true, bad := [(8, 15 < n)], needs := if n < 16 then engineBit e else 0 }
    (ordered s [(!(s.eng e).keeper.isArmed 3 || (s.joined e && maskCount s.joinedMask < 10), .notPermitted)]
      (let s1 := ((s.zeroAll e).modEng e (fun x =>
        { x with lifecycle := 3, hold := false, keeper := { x.keeper with armed := none } })).closeDebug e
       (s1.leave e 4 0, .ok [])))

/-- Whether a usage and key length are admitted by Table 19-2 for a partition's slot. -/
def usageFits (u len : Nat) : Bool :=
  (u = 2 && 32 ≤ len && len ≤ 128) || (u = 3 && len = 64) || (u = 4 && 16 ≤ len && len ≤ 128)

/-- A key blob's plaintext as a slot (R391): none when its layout, usage or length is not admitted. -/
def parseBlob (owner : PartId) (m : List Byte) : Option KeySlot :=
  let len := field m 2 2
  if usageFits (field m 0 1) len && field m 1 1 = 0 && field m 4 4 = 0 && m.length = 16 + len then
    some { usage := field m 0 1, owner := owner, keyId := BitVec.ofNat 64 (field m 8 8), key := slice m 16 len, gen := 0 }
  else none

/-- The checks that KEY_LOAD and KEY_GENERATE share (R402). -/
def keyChecks (c : Call) (s : State) (es : BitVec 16) (i : Fin 64) : List (Bool × Status) :=
  [(s.anyEng es (fun x => x.lifecycle = 0 || x.lifecycle = 3 ||
      (x.keeper.slots[i].usage ≠ 0 && x.keeper.slots[i].owner ≠ c.part)), .notPermitted),
   (s.anyEng es (fun x => x.keeper.slots[0].usage = 0), .keyEmpty)]

/-- KEY_LOAD (0x94). -/
def cmdKeyLoad (c : Call) (s : State) : State × Result :=
  let es := c.keyEngines s (c.fld 10 2)
  guarded c s { used := [(8, 1), (10, 2)], desc := true, reads := true, needs := es,
                bad := [(8, (slotOf (c.fld 8 1)).isNone), (10, c.foreignEngines s (c.fld 10 2))] }
    (match slotOf (c.fld 8 1) with
     | none => badField s 8
     | some i =>
       ordered s (keyChecks c s es i) (withData c s (fun d =>
         let opened := (maskEngines es).map (fun e => (e, kwpUnwrap (s.slot e 0).key d))
         let slots := opened.map (fun (e, m) => (e, m.bind (parseBlob c.part)))
         ordered s [(opened.any (fun o => o.2.isNone), .digestMismatch), (slots.any (fun o => o.2.isNone), .layout)]
           (slots.foldl (fun s o => match o.2 with | some k => s.fillSlot o.1 i k | none => s) s,
            .ok (withDoneLen [] d.length)))))

/-- KEY_GENERATE (0x95): one key from the receiving engine's DRBG for every named engine; a blob that cannot be written
to the host leaves the slots as they were (R86, R92). -/
def cmdKeyGenerate (c : Call) (s : State) : State × Result :=
  let es := c.keyEngines s (c.fld 10 2)
  let len := c.fld 12 2
  guarded c s { used := [(8, 2), (10, 4), (16, 8)], desc := true, needs := es,
                bad := [(8, (slotOf (c.fld 8 1)).isNone), (10, c.foreignEngines s (c.fld 10 2)), (60, c.dlen < 152)] }
    (match slotOf (c.fld 8 1) with
     | none => badField s 8
     | some i =>
       ordered s (keyChecks c s es i ++ [(!usageFits (c.fld 9 1) len, .layout)])
        (let (r, s1) := s.draw (8 * len)
         let k : KeySlot := { usage := c.fld 9 1, owner := c.part, keyId := BitVec.ofNat 64 (c.fld 16 8),
                              key := natLe len r.toNat, gen := 0 }
         let plain := natLe 1 k.usage ++ [0] ++ natLe 2 len ++ zeros 4 ++ natLe 8 k.keyId.toNat ++ k.key
         match writeBuffer c s1 (kwpWrap (s.slot c.eng 0).key plain) [] with
         | (s2, .done .ok err body) =>
           ((maskEngines es).foldl (fun s e => s.fillSlot e i k) s2, .done .ok err body)
         | r => r))

/-- KEY_ZEROISE (0x96). -/
def cmdKeyZeroise (c : Call) (s : State) : State × Result :=
  let es := c.keyEngines s (c.fld 10 2)
  let n := c.fld 8 1
  let cfg := (s.cfg c.part).getD PartCfg.initial
  guarded c s { used := [(8, 1), (10, 2)], needs := es,
                bad := [(8, (slotOf n).isNone), (10, c.foreignEngines s (c.fld 10 2))] }
    (match slotOf n with
     | none => badField s 8
     | some i =>
       ordered s [(s.anyEng es (fun x => x.lifecycle = 0), .notPermitted),
           (s.anyEng es (fun x => x.keeper.slots[i].usage = 0), .notFound),
           (s.anyEng es (fun x => x.keeper.slots[i].owner ≠ c.part) || cfg.mslot = some n || cfg.dslot = some n,
             .notPermitted)]
         ((maskEngines es).foldl (fun s e => s.zeroSlot e i) s, .ok []))

/-- Whether a slot holds a usage of a partition on every member (R402). -/
def State.holdsUsage (s : State) (p : PartId) (i : Fin 64) (u : Nat) : Bool :=
  (maskEngines (s.members p)).all (fun e => (s.slot e i).usage = u && (s.slot e i).owner = p)

/-- KEY_BIND (0x97). -/
def cmdKeyBind (c : Call) (s : State) : State × Result :=
  let m := slotOf (c.fld 8 1)
  let d := slotOf (c.fld 9 1)
  guarded c s { used := [(8, 2)], config := true,
                bad := [(8, m.isNone), (9, d.isNone && c.fld 9 1 ≠ 255)] }
    (ordered s [(s.anyEng (s.members c.part) (fun x => x.lifecycle = 0), .notPermitted),
        (m.any (fun i => !s.holdsUsage c.part i 2) || d.any (fun i => !s.holdsUsage c.part i 3), .keyEmpty)]
      (let cfg := (s.cfg c.part).getD PartCfg.initial
       startAdoption c s (s.record.setPart c.part { cfg with mslot := m.map Fin.val, dslot := d.map Fin.val })))

/-- The challenge message of R396. -/
def challengeMsg (e : EngId) (purpose : Nat) (nonce : BitVec 256) (time : Nat) : List Byte :=
  ascii "WLMBK001" ++ natLe 8 (Config.engineSerial e).toNat ++ natLe 1 purpose ++ zeros 7 ++ natLe 32 nonce.toNat ++
    natLe 8 time

/-- KEEPER_CHALLENGE (0x98): refused during the lockout of R397 and where Table 19-5 does not permit the purpose. -/
def cmdKeeperChallenge (c : Call) (s : State) : State × Result :=
  let purpose := c.fld 8 1
  let n := c.fld 9 1
  let e := (engId? n).getD 0
  guarded c s { used := [(8, 2)], desc := true, p0 := true, needs := if n < 16 then engineBit e else 0,
                bad := [(8, purpose = 0 || 4 < purpose), (9, 15 < n), (60, c.dlen < 64)] }
    (ordered s [((s.eng e).keeper.refuseUntil.isSome || !(s.eng e).permits purpose, .notPermitted)]
      (let (r, s1) := s.draw 256
       let t := s.keeperTime e
       let msg := challengeMsg e purpose r t
       match writeBuffer c s1 msg [] with
       | (s2, .done .ok err body) =>
         (s2.modKeeper e (fun k => { k with challenge := some (msg, t) }), .done .ok err body)
       | r => r))

/-- Whether a response answers a challenge (R396). -/
def State.responseGood (s : State) (e : EngId) (ch : List Byte × Nat) (d : List Byte) : Bool :=
  let purpose := (byteAt ch.1 16).toNat
  let pub := slice d 0 96
  let anchor := if purpose = 4 then some (Config.vendorAnchor e) else (s.eng e).anchor
  anchor = some (keyAnchor pub) && ecdsaVerify pub (slice d 96 96) ch.1 &&
    s.keeperTime e ≤ ch.2 + 60000000000 && (s.eng e).permits purpose

/-- An accepted response takes effect (Table 19-5). -/
def State.acceptPurpose (s : State) (e : EngId) (purpose : Nat) : State :=
  match purpose with
  | 1 => s.modEng e (fun x => { x with debug := 1, debugAt := s.now })
  | 4 => s.modEng e (fun x => { x with debug := 2, debugAt := s.now })
  | n => s.modKeeper e (fun k => { k with armed := some { purpose := n, deadline := k.rtc + 60000000000 } })

/-- A rejected response: the eighth in a row closes challenges for one hour (R397). -/
def Keeper.reject (k : Keeper) : Keeper :=
  { k with challenge := none, failures := (k.failures + 1) % 8,
           refuseUntil := if k.failures + 1 = 8 then some (k.rtc + 3600000000000) else k.refuseUntil }

/-- A response is checked: it consumes the challenge that it answers; a rejected one completes with SC_DIGEST_MISMATCH (R396–R398;
log 25). -/
def answerKeeper (s : State) (e : EngId) (ch : List Byte × Nat) (d : List Byte) : State × Result :=
  if s.responseGood e ch d then
    ((s.modKeeper e (fun k => { k with challenge := none, failures := 0 })).acceptPurpose e (byteAt ch.1 16).toNat,
      .ok (withDoneLen [] 192))
  else (s.modKeeper e Keeper.reject, .done .digestMismatch 0xFFFF (withDoneLen [] 192))

/-- KEEPER_RESPOND (0x99): the response is fetched, and checked on a digest lane of the engine, for which it waits (R268). -/
def cmdKeeperRespond (c : Call) (s : State) : State × Result :=
  let n := c.fld 9 1
  let e := (engId? n).getD 0
  guarded c s { used := [(9, 1)], desc := true, p0 := true, reads := true, needs := if n < 16 then engineBit e else 0,
                bad := [(9, 15 < n), (60, c.dlen ≠ 192)] }
    (withData c s (fun d => match (s.eng e).keeper.challenge with
     | none => refuse s .notFound
     | some ch => match s.shelfLane e .bridge with
       | (none, s1) => (s1, .wait .lane)
       | (some _, s1) => answerKeeper (s1.freeLane e .bridge) e ch d))

/-- KEEPER_CLOSE (0x9A). -/
def cmdKeeperClose (c : Call) (s : State) : State × Result :=
  let n := c.fld 9 1
  let e := (engId? n).getD 0
  guarded c s { used := [(9, 1)], p0 := true, bad := [(9, 15 < n)], needs := if n < 16 then engineBit e else 0 }
    (s.closeDebug e, .ok [])

end Sys2Proof.Machine
end

