-- ==== Sys2Proof/Machine/Members.lean ====
section
/-! DEFINITION. The membership, time and lease commands 0xA0 to 0xA7 (14 Basic control, R318). -/

namespace Sys2Proof.Machine

/-- The per-engine byte of Table 14-4. -/
def State.memberByte (s : State) (e : EngId) : Byte :=
  let x := s.eng e
  let st := if !x.powered then 0
    else if x.fenced then 6
    else if s.joined e then (if x.clock.suspect then 3 else 2)
    else x.member.state
  BitVec.ofNat 8 (st + 16 * (if s.joined e then 0 else x.member.reason))

/-- MEMBER_QUERY (0xA0). -/
def cmdMemberQuery (c : Call) (s : State) : State × Result :=
  let m := s.membership
  guarded c s {}
    (s, .ok (putBytes (rspFields [(8, 4, (m.view.map View.num).getD 0), (12, 1, (m.view.elim 0xFF (fun v => v.leader.val))),
        (13, 1, bit m.windowAt.isSome), (14, 2, s.joinedMask.toNat), (32, 8, s.record.seq),
        (40, 8, (m.windowAt.map BitVec.toNat).getD 0), (48, 8, (m.view.elim 0 (fun v => v.formedAt.toNat)))])
      8 ((List.finRange 16).map s.memberByte)))

/-- MEMBER_EXCLUDE (0xA1). -/
def cmdMemberExclude (c : Call) (s : State) : State × Result :=
  let n := c.fld 8 1
  let e := (engId? n).getD 0
  let r := s.record
  guarded c s { used := [(8, 1)], p0 := true, config := true, bad := [(8, 15 < n)] }
    (ordered s [(maskCount (s.joinedMask &&& ~~~engineBit e) < 9, .notPermitted)]
      (startAdoption c s { r with excluded := r.excluded ||| engineBit e, admitted := r.admitted &&& ~~~engineBit e }))

/-- MEMBER_ADMIT (0xA2). -/
def cmdMemberAdmit (c : Call) (s : State) : State × Result :=
  let n := c.fld 8 1
  let e := (engId? n).getD 0
  let r := s.record
  let foreign := (s.eng e).member.reason = 1
  guarded c s { used := [(8, 1)], p0 := true, config := true, bad := [(8, 15 < n)] }
    (ordered s [(!hasEngine r.excluded e && !foreign, .notFound)]
      (startAdoption c s { r with excluded := r.excluded &&& ~~~engineBit e,
                                  admitted := if foreign then r.admitted ||| engineBit e else r.admitted }))

/-- A count held in 32 bits at most. -/
def sat32 (n : Nat) : Nat := min n 0xFFFFFFFF

/-- TIME_QUERY (0xA3). -/
def cmdTimeQuery (c : Call) (s : State) : State × Result :=
  let t := s.timeSrc
  let far := (maskEngines s.joinedMask).foldl (fun m e => max m (s.offset e).natAbs) 0
  guarded c s {}
    (s, .ok (rspFields [(8, 8, (s.time c.eng).toNat), (16, 1, timeState t.row), (17, 1, if t.timeSet then 5 else t.row),
      (18, 2, s.suspectMask.toNat), (20, 4, sat32 s.timeBound), (24, 4, ((s.offset c.eng) % 4294967296).toNat),
      (28, 4, sat32 far), (32, 1, t.row)]))

/-- TIME_SET (0xA4): it takes effect when it completes (R318). -/
def cmdTimeSet (c : Call) (s : State) : State × Result :=
  guarded c s { used := [(8, 12)], p0 := true, bad := [(16, c.fld 16 4 = 0 || 1000000 < c.fld 16 4)] }
    (ordered s [(s.timeSrc.ptp, .notPermitted)] (s, .wait .timeSet))

/-- LEASE_QUERY (0xA5). -/
def cmdLeaseQuery (c : Call) (s : State) : State × Result :=
  let l := s.store.lease
  guarded c s {}
    (s, .ok (if l.state = 0 then rspFields [(8, 1, 0xFF)] else
      rspFields [(8, 1, l.slot), (9, 1, l.state), (16, 8, l.expiry.toNat), (24, 8, l.renewed.toNat),
        (32, 2, l.allot.length), (40, 8, s.freeExtents), (48, 4, l.nextGen)]))

/-- LEASE_CLAIM (0xA6): the claim is written, and the response follows the check 15 s later (R315). Without a volume 0 that
can be reached there is no slot to claim: SC_NOT_FOUND (log 43). -/
def cmdLeaseClaim (c : Call) (s : State) : State × Result :=
  let n := c.fld 8 1
  let slot := if n = 0xFF then s.freeSlot else some n
  guarded c s { used := [(8, 1)], p0 := true, config := true, bad := [(8, 15 < n && n ≠ 0xFF)] }
    (ordered s [(s.leaseHeld, .notPermitted), (!s.reaches 0, .notFound),
        (s.store.lease.state = 1 || slot.isNone || slot.any s.slotHeld, .busy)]
      (s.claim (slot.getD 0) (some (c.eng, c.key)), .wait .leaseCheck))

/-- LEASE_RELEASE (0xA7). -/
def cmdLeaseRelease (c : Call) (s : State) : State × Result :=
  guarded c s { p0 := true, config := true }
    (ordered s [(!s.leaseHeld, .notFound), (s.anyCampaign [.drain, .restore, .format], .busy)]
      (startAdoption c s s.record))

end Sys2Proof.Machine
end

