-- ==== Sys2Proof/Machine/Power.lean ====
section
/-! DEFINITION. Idleness and exits from the low power states (R131, R376, R377). -/

namespace Sys2Proof.Machine

/-- EXIT_NS of E1, E2 and E3 (Table 4-7). -/
def exitLatency (st : Nat) : Nat := [0, 5000, 800000, 40000000].getD st 0

/-- Whether an engine is in E1, E2 or E3. -/
def PowerHeat.low (w : PowerHeat) : Bool := 1 ≤ w.state && w.state ≤ 3

/-- Something arrives at an engine: its idle time ends, and an exit starts from a low state (R376, R377). -/
def Engine.wake (x : Engine) (now : Nat) : Engine :=
  { x with power := { x.power with
      idleSince := none,
      exitDue := if x.power.low then (x.power.exitDue <|> some (now + exitLatency x.power.state)) else x.power.exitDue } }

/-- Wake one engine. -/
def State.wake (s : State) (e : EngId) : State := s.modEng e (fun x => x.wake s.now)

/-- Wake the engines of a mask. -/
def State.wakeAll (s : State) (m : BitVec 16) : State := s.modEngines m (fun _ x => x.wake s.now)

/-- Whether a mailbox command waits or runs on an engine. -/
def Engine.hasJob (x : Engine) : Bool := x.redfish.job.isSome || x.windows.toList.any (fun w => w.mbx.job.isSome)

/-- Whether an accepted stream command of some window has not finished. -/
def Engine.hasStream (x : Engine) : Bool := x.windows.toList.any (fun w => !w.allFinished)

/-- Whether a micro-program or a digest job of some window runs. -/
def Engine.hasUnit (x : Engine) : Bool := x.windows.toList.any (fun w => w.nmx.busy || w.dgx.run.isSome)

/-- Whether a partition has work on its members: a step, a cut gate, the copier, a campaign, a rebuild or a reset (R376). -/
def State.partWork (s : State) (p : PartId) : Bool :=
  let x := s.part p
  x.resetting.isSome || x.cut.isSome || x.copying || x.step.phase = 2 || x.step.phase = 3 || s.hasCampaign p

/-- Whether an engine is idle (R376). -/
def State.idle (s : State) (e : EngId) : Bool :=
  let x := s.eng e
  !x.hasJob && !x.hasStream && !x.hasUnit && x.lanes.toList.all Option.isNone && x.contexts.isEmpty &&
    !s.campaigns.any (fun c => c.part.isNone) && !(s.partsOn e).any s.partWork

end Sys2Proof.Machine
end

