-- ==== Sys2Proof/Machine/Tensors.lean ====
section
/-! DEFINITION. The tensor registry and optimiser commands: REG_TENSOR, REG_CLASS, STEP_POLICY, RESHAPE, STATE_QUERY,
TENSOR_DROP (06, 13 Reshape). -/

namespace Sys2Proof.Machine

/-- Formats of Table 6-2. -/
def knownFormat (f : Nat) : Bool := (formatOf f).isSome

/-- The tensor that a REG_TENSOR asks for (R137, R147, R150). -/
def askedTensor (c : Call) (x : Partition) (members : BitVec 16) (parity : Nat) (parent : Option Tensor) : Tensor :=
  let cls := c.fld 12 1
  let log2 := match parent with
    | some m => m.log2
    | none => if c.fld 32 1 = 0 then x.defaultLog2 cls (c.fld 16 8) (c.fld 24 4) else c.fld 32 1
  let pl : Placement :=
    { members := (parent.map (fun m => m.place.members)).getD (enginesOr (BitVec.ofNat 16 (c.fld 34 2)) members),
      parity := (parent.map (fun m => m.place.parity)).getD parity, units := [], gone := 0 }
  let t : Tensor :=
    { id := BitVec.ofNat 32 (c.fld 8 4), rid := BitVec.ofNat 32 (c.fld 8 4), cls := cls,
      fmt := if c.fld 13 1 = 0xFF then x.classFmt.toList.getD cls 0 else c.fld 13 1,
      twin := if c.fld 14 1 = 2 then x.classTwin.toList.getD cls true else c.fld 14 1 = 1, hostFmt := c.fld 15 1,
      rows := c.fld 16 8, cols := c.fld 24 4, parent := BitVec.ofNat 32 (c.fld 28 4), log2 := log2, per := 2 ^ log2,
      charge := 0, place := pl, dest := none, moved := [], poison := [], scrubbed := [], sums := [], bitmap := [], pushes := [] }
  { t with charge := t.chargeFor pl }

/-- The layouts that R147 refuses: a format that the class does not admit, a shape other than the parent's, members outside
the partition (a dependant uses its parent's members and STRIPE_LOG2 whatever it names, R137); also BYTES with COLS other than 1 (Table 6-2), BS8 on a count that is no multiple of 32 (R136) and fewer
than P + 1 members (13 At the limits). -/
def badLayout (c : Call) (t : Tensor) (members : BitVec 16) (parent : Option Tensor) : Bool :=
  let m := BitVec.ofNat 16 (c.fld 34 2)
  !(classFormats t.cls).contains t.fmt || m &&& ~~~members ≠ 0 ||
    parent.any (fun q => q.rows ≠ t.rows || q.cols ≠ t.cols) ||
    (t.fmt = 7 && t.cols ≠ 1) || (t.fmt = 5 && t.elems % 32 ≠ 0) || t.place.count ≤ t.place.parity

/-- The first registration after the last tensor of a failed step was dropped ends the failed phase (R154). -/
def Partition.leaveFailed (x : Partition) : Partition :=
  if x.tensors.isEmpty && x.step.phase = 4 then { x with step := { x.step with phase := 0 } } else x

/-- Register a tensor, with the PRECOND tensor of a MASTER under KRONECKER and the WEIGHT values of its parent (R147). -/
def State.registerAll (s : State) (p : PartId) (t : Tensor) : Option State := do
  let s1 ← (s.modPart p Partition.leaveFailed).register p t
  let s2 ← match (s1.part p).kron with
    | some pol => s1.setPreconds p pol
    | none => some s1
  let x := s2.part p
  match (if t.cls = 0 then x.tensor? t.parent.toNat else none), x.tensor? t.id.toNat with
  | some m, some w => pure (s2.deriveOne p w x.step.completed 0 (s2.elemsAt m 0 m.elems))
  | _, _ => pure s2

/-- REG_TENSOR (0x40). A PARENT on a class that has none is a field out of range, and one that names a tensor other than a MASTER names
an absent parent (DESIGN CHOICE, log 138). -/
def cmdRegTensor (c : Call) (s : State) : State × Result :=
  let p := c.part
  let x := s.part p
  let cls := c.fld 12 1
  let parent := if dependentClass cls then (x.tensor? (c.fld 28 4)).filter (fun m => m.cls = 1) else none
  let t := askedTensor c x (s.members p) s.parity parent
  guarded c s { used := [(8, 25), (34, 2)],
                bad := [(8, c.fld 8 4 = 0 || (x.tensor? (c.fld 8 4)).isSome), (12, 6 < cls),
                        (13, c.fld 13 1 ≠ 0xFF && !knownFormat (c.fld 13 1)), (14, 2 < c.fld 14 1),
                        (15, if cls = 5 then 2 < c.fld 15 1 else c.fld 15 1 ≠ 0),
                        (16, c.fld 16 8 = 0 || 2 ^ 40 < c.fld 16 8 * max 1 (c.fld 24 4)), (24, c.fld 24 4 = 0),
                        (28, cls ≤ 6 && !dependentClass cls && c.fld 28 4 ≠ 0),
                        (32, c.fld 32 1 ≠ 0 && !(12 ≤ c.fld 32 1 && c.fld 32 1 ≤ 24))] }
    (ordered s [(x.restoring, .busy), (cls = 4, .notPermitted), (dependentClass cls && parent.isNone, .notFound),
        (badLayout c t (s.members p) parent, .layout),
        (262144 ≤ x.tensors.length || !s.roomFor p t, .quota)]
      (if x.copying then (s, .wait .copier)
       else match s.registerAll p t with
         | some s1 => (s1, .ok (rspFields [(8, 8, t.charge)]))
         | none => refuse s .quota))

/-- REG_CLASS (0x41). -/
def cmdRegClass (c : Call) (s : State) : State × Result :=
  let cls := c.fld 8 1
  guarded c s { used := [(8, 3)], bad := [(8, 6 < cls), (9, !knownFormat (c.fld 9 1)), (10, 1 < c.fld 10 1)] }
    (ordered s [((s.part c.part).restoring, .busy), (!(classFormats cls).contains (c.fld 9 1), .layout)]
      (s.modPart c.part (fun x =>
        { x with classFmt := Vector.ofFn (fun i => if i.val = cls then c.fld 9 1 else x.classFmt[i]),
                 classTwin := Vector.ofFn (fun i => if i.val = cls then decide (c.fld 10 1 = 1) else x.classTwin[i]) }),
       .ok []))

/-! ### STEP_POLICY -/

/-- Field errors of STEP_POLICY (Table 6-4): SIDES, blocks and intervals belong to KRONECKER, PROGRAM to FAMILY 0xFF. -/
def policyBad (c : Call) : List (Nat × Bool) :=
  let w (o : Nat) : Word := BitVec.ofNat 32 (c.fld o 4)
  let kron := c.fld 8 1 = 3
  let unit (o : Nat) : Bool := lt32 (w o) 0 || !lt32 (w o) one32
  [(8, !([1, 2, 3, 0xFF] : List Nat).contains (c.fld 8 1)), (9, 1 < c.fld 9 1), (10, 1 < c.fld 10 1),
   (11, kron && !(c.fld 11 1 = 1 || c.fld 11 1 = 2)), (12, c.fld 12 2 = 0 || 4096 < c.fld 12 2),
   (14, kron && !(7 ≤ c.fld 14 1 && c.fld 14 1 ≤ 12)), (15, kron && !(7 ≤ c.fld 15 1 && c.fld 15 1 ≤ 13)),
   (16, c.fld 22 1 = 1 && c.fld 16 6 = 0), (22, 1 < c.fld 22 1), (28, unit 28), (32, unit 32),
   (36, !lt32 0 (w 36)), (44, !lt32 0 (w 44) && !(val32 (w 44) matches .fin _ 0)),
   (52, kron && (c.fld 52 2 = 0 || 1024 < c.fld 52 2)), (54, kron && (c.fld 54 2 = 0 || 4096 < c.fld 54 2)),
   (60, c.fld 8 1 ≠ 0xFF && c.fld 60 4 ≠ 0)]

/-- Whether two policies differ in what R149 fixes once a step has completed. -/
def policyShape (pol : List Byte) : List Nat := [polField pol 8 1, polField pol 11 1, polField pol 14 1, polField pol 15 1]

/-- A new policy is kept: it governs at once while no step is in progress, else from the next phase that R149 allows. -/
def Partition.takePolicy (x : Partition) (pol : List Byte) (first : Option Nat) : Partition :=
  let st := match first with
    | some f => { x.step with completed := f - 1 }
    | none => x.step
  let y := { x with nextPolicy := some pol, needProgram := false, step := st }
  if y.stepping && x.policy.isSome then y else y.adoptPolicy

/-- STEP_POLICY (0x42). -/
def cmdStepPolicy (c : Call) (s : State) : State × Result :=
  let p := c.part
  let x := s.part p
  let pol := c.cmd.drop 8
  guarded c s { used := [(8, 15), (24, 40)], bad := policyBad c }
    (ordered s [(x.restoring, .busy),
        (x.step.stepped && x.lastPolicy.any (fun q => policyShape q ≠ policyShape pol), .notPermitted),
        (c.fld 22 1 = 1 && x.stepping, .busy),
        (c.fld 8 1 = 0xFF && !x.programs.any (fun g => g.handle.toNat = c.fld 60 4), .notFound)]
      (let s1 := s.modPart p (fun x => x.takePolicy pol (if c.fld 22 1 = 1 then some (c.fld 16 6) else none))
       match s1.setPreconds p pol with
       | some s2 => (s2, .ok [])
       | none => refuse s .quota))

/-! ### RESHAPE -/

/-- Whether a job is a RESHAPE of a partition that waits (R285). -/
def Job.reshapeWaits (j : Job) (p : PartId) : Bool :=
  j.op = 0x43 && j.part = p && (match j.phase with | .waiting _ => true | _ => false)

/-- Whether some RESHAPE of a partition waits: pushes that have not started are held then (R285). -/
def State.reshaping (s : State) (p : PartId) : Bool :=
  s.engines.toList.any (fun x => x.redfish.job.any (fun j => j.reshapeWaits p) ||
    x.windows.toList.any (fun w => w.mbx.job.any (fun j => j.reshapeWaits p)))

/-- Whether a GRAD_PUSH of a partition has started and not finished. -/
def State.pushing (s : State) (p : PartId) : Bool :=
  (maskEngines (s.members p)).any (fun e => (s.win e p).streams.any (fun x =>
    x.2.queue.any (fun q => q.phase = .running && (byteAt q.task 0).toNat = 3)))

/-- The entries of a contributor map (13 Reshape). -/
def mapEntries (d : List Byte) : List Nat := (List.range (d.length / 2)).map (fun i => field d (2 * i) 2)

/-- Whether a contributor map breaks R286. -/
def badMap (es : List Nat) (new mode : Nat) : Bool :=
  let used := es.filter (fun v => v ≠ 0xFFFF)
  used.any (fun v => new ≤ v) || !used.Nodup || (mode = 1 && used.isEmpty)

/-- The mask of contributors that a step in accumulation needs (R141, R288). -/
def StepState.needed (st : StepState) : Nat :=
  match st.scale with
  | some _ => st.mapped
  | none => 2 ^ st.contributors - 1

/-- A bit mask of contributors moved through a map. -/
def moveMask (es : List Nat) (m : Nat) : Nat :=
  es.zipIdx.foldl (fun r (v, i) => if natBit m i && v ≠ 0xFFFF then r ||| 2 ^ v else r) 0

/-- RESHAPE takes effect on the step in accumulation (R287, R288). -/
def Partition.reshape (x : Partition) (new mode : Nat) (es : List Nat) : Partition :=
  if mode = 0 then
    { x with step := { x.step with contributors := new, scale := none, mapped := 0,
                                   phase := if x.step.phase = 1 then 0 else x.step.phase }, nextFull := true,
             tensors := x.tensors.map (fun t => { t with sums := [], bitmap := [], pushes := [] }) }
  else
    { x with step := { x.step with contributors := new, scale := some new, mapped := moveMask es x.step.needed },
             nextFull := true,
             tensors := x.tensors.map (fun t => { t with bitmap := t.bitmap.map (fun b => (b.1, moveMask es b.2)) }) }

/-- RESHAPE (0x43). It is checked before it waits, but not before an earlier RESHAPE has completed (R285, R286). -/
def cmdReshape (c : Call) (s : State) : State × Result :=
  let p := c.part
  let x := s.part p
  let new := c.fld 8 2
  let mode := c.fld 10 1
  if s.reshaping p then (s, .wait .reshape)
  else
    guarded c s { used := [(8, 3)], desc := true, bad := [(8, new = 0 || 4096 < new), (10, 1 < mode)] }
      (ordered s [(x.restoring, .busy), (x.policy.isNone, .notPermitted)]
        (if c.dlen ≠ 2 * x.step.contributors then badField s 60
         else withData c s (fun d =>
           if badMap (mapEntries d) new mode then badField s 48
           else if x.copying then (s, .wait .copier)
           else if x.step.phase = 2 || x.step.phase = 3 then (s, .wait .step)
           else if s.pushing p then (s, .wait .pushes)
           else (s.modPart p (fun x => x.reshape new mode (mapEntries d)), .ok (withDoneLen [] c.dlen)))))

/-! ### STATE_QUERY -/

/-- Maximal runs of segments whose bit of a contributor is clear, as (first, count). -/
def clearRuns (n : Nat) (set : Nat → Bool) : List (Nat × Nat) :=
  ((List.range n).foldl (fun (r : List (Nat × Nat)) i =>
    if set i then r
    else match r with
    | (a, k) :: rest => if a + k = i then (a, k + 1) :: rest else (i, 1) :: (a, k) :: rest
    | [] => [(i, 1)]) []).reverse

/-- Host bytes of an ACCUM tensor. -/
def Tensor.hostBytes (t : Tensor) : Nat := t.elems * t.hostElem

/-- The missing contributions of step COMPLETED + 1 as the 24-byte records of SELECT 3, in ascending order of contributor and then
offset; at equal offsets in ascending tensor ID, which the rule leaves open (R152; DESIGN CHOICE, log 139). -/
def Partition.missing (x : Partition) : List Byte :=
  if x.policy.isNone then [] else
    ((List.range x.step.contributors).filter (natBit x.step.needed)).flatMap (fun c =>
      let runs : List (Tensor × Nat × Nat) := (x.sorted.filter (fun t => t.cls = 5)).flatMap (fun t =>
        (clearRuns t.segments (fun g => natBit (assocGetD t.bitmap g 0) c)).map (fun r => (t, r)))
      (runs.insertionSort (fun a b => a.2.1 ≤ b.2.1)).flatMap (fun (t, a, k) =>
        natLe 2 c ++ zeros 2 ++ natLe 4 t.id.toNat ++ natLe 8 (a * 4096) ++
          natLe 8 (min ((a + k) * 4096) t.hostBytes - a * 4096)))

/-- STATE_QUERY (0x44). -/
def cmdStateQuery (c : Call) (s : State) : State × Result :=
  let x := s.part c.part
  let sel := c.fld 8 1
  let id := c.fld 12 4
  guarded c s { used := [(8, 1), (12, 4)], desc := sel = 3,
                bad := [(8, 3 < sel), (12, (sel = 1 && 4095 < id) || (2 ≤ sel && id ≠ 0))] }
    (ordered s [(x.restoring, .busy)]
      (match sel with
       | 0 => match x.tensor? id with
         | some t => (s, .ok (rspFields [(8, 1, t.cls), (9, 1, t.fmt), (10, 1, bit t.twin), (11, 1, t.hostFmt),
             (16, 8, t.rows), (24, 4, t.cols), (28, 4, t.parent.toNat), (32, 8, t.charge),
             (40, 1, bit (!t.poison.isEmpty)), (41, 1, bit (x.preconditioned t))]))
         | none => refuse s .notFound
       | 1 => match assocGet x.riders id with
         | some r => (s, .ok (rspFields [(16, 4, r.length)]))
         | none => refuse s .notFound
       | 2 => (s, .ok (rspFields [(16, 6, x.step.completed), (24, 1, x.step.phase),
           (28, 4, min x.step.skip 0xFFFFFFFF), (32, 2, x.step.contributors)]))
       | _ => writeBuffer c s x.missing []))

/-- TENSOR_DROP (0x45). A tensor with dependants stays, a PRECOND tensor among them (R153, Table 6-1); a PRECOND tensor can be dropped
by its own ID (log 30). -/
def cmdTensorDrop (c : Call) (s : State) : State × Result :=
  let p := c.part
  let x := s.part p
  let id := c.fld 8 4
  guarded c s { used := [(8, 4)] }
    (ordered s [(x.restoring, .busy), ((x.tensor? id).isNone, .notFound),
        (!(x.dependants (BitVec.ofNat 32 id)).isEmpty, .notPermitted)]
      (if x.stepping then (s, .wait .step)
       else if x.copying then (s, .wait .copier)
       else (s.unregister p (fun t => t.id.toNat = id), .ok [])))

end Sys2Proof.Machine
end

