-- ==== Sys2Proof/Machine/Programs.lean ====
section
/-! DEFINITION. FXP containers, spin images, the fusion rule, and the commands that load, unload and query programs and
spins (07). -/

namespace Sys2Proof.Machine

/-! ### Containers (R173, R174) -/

/-- An operation entry of Table 7-5. -/
structure FxpOp where
  op : Nat
  fmt : Nat
  round : Nat
  flags : Nat
  site : Nat
  kch : Nat
  a : Nat
  b : Nat
  dst : Nat
  aux : Nat
  func : Nat
  tail : Nat
  deriving DecidableEq, Repr

/-- A chain entry: first operation, count, FUSE_REQUIRED byte, last byte. -/
structure FxpChain where
  first : Nat
  count : Nat
  fuse : Nat
  tail : Nat
  deriving DecidableEq, Repr

/-- A role entry: class, stored format, access, rest. -/
structure FxpRole where
  cls : Nat
  fmt : Nat
  access : Nat
  tail : Nat
  deriving DecidableEq, Repr

/-- The tables of a container. -/
structure Fxp where
  chains : List FxpChain
  ops : List FxpOp
  roles : List FxpRole
  spins : List (List Byte)
  consts : List Byte
  inter : Nat
  deriving DecidableEq, Repr

/-- One operation entry of a container at an offset. -/
def fxpOp (b : List Byte) (o : Nat) : FxpOp :=
  { op := field b o 1, fmt := field b (o + 1) 1, round := field b (o + 2) 1, flags := field b (o + 3) 1,
    site := field b (o + 4) 2, kch := field b (o + 6) 2, a := field b (o + 8) 4, b := field b (o + 12) 4,
    dst := field b (o + 16) 4, aux := field b (o + 20) 4, func := field b (o + 24) 2, tail := field b (o + 26) 6 }

/-- The tables that a container's header names (Table 7-4); counts beyond the limits are cut off. -/
def parseFxp (b : List Byte) : Fxp :=
  { chains := (List.range (min 4096 (field b 16 4))).map (fun i =>
      let o := field b 24 4 + 8 * i
      { first := field b o 4, count := field b (o + 4) 2, fuse := field b (o + 6) 1, tail := field b (o + 7) 1 }),
    ops := (List.range (min 65536 (field b 20 4))).map (fun i => fxpOp b (field b 28 4 + 32 * i)),
    roles := (List.range (min 7 (field b 36 2))).map (fun i =>
      let o := field b 32 4 + 8 * i
      { cls := field b o 1, fmt := field b (o + 1) 1, access := field b (o + 2) 1, tail := field b (o + 3) 5 }),
    spins := (List.range (min 8 (field b 38 2))).map (fun i => slice b (field b 40 4 + 32 * i) 32),
    consts := slice b (field b 44 4) (min (2 ^ 20) (field b 48 4)), inter := field b 52 4 }

/-- KIND and INDEX of an operand reference. -/
def refKind (r : Nat) : Nat := r / 2 ^ 28

def refIndex (r : Nat) : Nat := r % 2 ^ 28

/-- Whether a reference names something that a program has (R174). -/
def Fxp.refOk (x : Fxp) (r : Nat) : Bool :=
  match refKind r with
  | 0 => refIndex r < x.roles.length
  | 1 => refIndex r < x.inter
  | 2 => refIndex r * 64 < x.consts.length
  | 3 => refIndex r < 8
  | 4 => true
  | _ => false

/-- A flag of an operation. -/
def FxpOp.flag (o : FxpOp) (i : Nat) : Bool := natBit o.flags i

/-- Whether a reference may be read: a role needs the read bit. -/
def Fxp.readable (x : Fxp) (r : Nat) : Bool :=
  x.refOk r && (refKind r ≠ 0 || (x.roles[refIndex r]?).any (fun q => natBit q.access 0))

/-- Whether a reference may be written: an intermediate, or a role with the write bit that is not ACCUM. -/
def Fxp.writable (x : Fxp) (r : Nat) : Bool :=
  x.refOk r && (refKind r = 1 || (refKind r = 0 && (x.roles[refIndex r]?).any (fun q => natBit q.access 1 && q.cls ≠ 5)))

/-- Whether an ELEMENTWISE function takes a second operand. -/
def funcBinary (f : Nat) : Bool := f ≤ 4 || f = 7 || f = 8

/-- Whether an operation entry is well laid out (R174). -/
def Fxp.opOk (x : Fxp) (o : FxpOp) : Bool :=
  let useB := o.op = 1 || (o.op = 2 && funcBinary o.func)
  let useAux := (o.op = 1 && (o.flag 2 || o.flag 3 || o.flag 4)) || (o.op = 2 && o.func = 3)
  1 ≤ o.op && o.op ≤ 5 && (o.fmt ≤ 5 || o.fmt = 8) && o.round ≤ 1 && o.flags < 64 && o.tail = 0 &&
    (if o.round = 1 then 0x100 ≤ o.site else o.site = 0) &&
    (if o.op = 1 then 1 ≤ o.kch && o.kch ≤ 64 else o.kch = 0) &&
    (match o.op with
     | 2 => o.func ≤ 10
     | 3 => o.func % 16 ≤ 2 && o.func / 16 ≤ 1
     | _ => o.func = 0) &&
    x.readable o.a && refKind o.a ≠ 4 && x.refOk o.b && (refKind o.b = 4 || x.readable o.b) && (!useB || refKind o.b ≠ 4) &&
    x.writable o.dst &&
    (if o.op = 5 then o.aux < x.spins.length else x.refOk o.aux && (refKind o.aux = 4 || x.readable o.aux)) &&
    (!useAux || refKind o.aux ≠ 4)

/-- Whether a table of `n` entries of `w` bytes lies inside the container's body. -/
def tableIn (b : List Byte) (off n w : Nat) : Bool := off % 8 = 0 && (n = 0 || (128 ≤ off && off + n * w ≤ field b 8 4))

/-- Whether a container's header and tables follow Tables 7-4 and 7-5. -/
def fxpShaped (b : List Byte) : Bool :=
  let x := parseFxp b
  b.take 4 = ascii "FXP1" && field b 4 2 = 1 && field b 6 2 = 128 && field b 8 4 % 64 = 0 && field b 8 4 ≤ 2 ^ 24 &&
    field b 8 4 ≤ b.length && field b 12 1 = 0 && field b 13 1 = 1 && field b 14 1 = 1 && field b 15 1 = 0 &&
    1 ≤ field b 16 4 && field b 16 4 ≤ 4096 && 1 ≤ field b 20 4 && field b 20 4 ≤ 65536 && 1 ≤ field b 36 2 &&
    field b 36 2 ≤ 7 && field b 38 2 ≤ 8 && field b 48 4 ≤ 2 ^ 20 && field b 52 4 ≤ 256 &&
    (slice b 96 32).all (fun v => v = 0) && tableIn b (field b 24 4) (field b 16 4) 8 &&
    tableIn b (field b 28 4) (field b 20 4) 32 && tableIn b (field b 32 4) (field b 36 2) 8 &&
    tableIn b (field b 40 4) (field b 38 2) 32 && field b 44 4 % 64 = 0 && tableIn b (field b 44 4) (field b 48 4) 1 &&
    x.roles.all (fun r => r.cls ≤ 6 && knownFormat r.fmt && r.access ≤ 3 && r.tail = 0) &&
    (x.roles.map FxpRole.cls).Nodup &&
    x.chains.all (fun c => 1 ≤ c.count && c.count ≤ 16 && c.first + c.count ≤ field b 20 4 && c.fuse ≤ 1 && c.tail = 0) &&
    x.ops.all x.opOk

/-- Whether a container holds an operation of Table 7-1 that programs may not hold (R157). -/
def fxpForbidden (b : List Byte) : Bool := (parseFxp b).ops.any (fun o => 6 ≤ o.op && o.op ≤ 9)

/-- Whether the body of a container or image has its SHA-256. -/
def bodyDigestOk (b : List Byte) (hdr at_ : Nat) : Bool :=
  slice b at_ 32 = sha256 (slice b hdr (min b.length (field b 8 4) - hdr))

/-! ### The fusion rule (R165) -/

/-- Bytes of 32 elements of a format, INT8 among them. -/
def width32 (fmt : Nat) : Nat := if fmt = 8 then 32 else ((formatOf fmt).map (fun f => storedBytes f 32)).getD 0

/-- The format in which an operand arrives: a role's, that of the operation that wrote the intermediate before, FP32 for a
constant; a scalar takes no tile. -/
def Fxp.refWidth (x : Fxp) (before : List FxpOp) (r : Nat) : Nat :=
  match refKind r with
  | 0 => width32 ((x.roles[refIndex r]?).elim 0 FxpRole.fmt)
  | 1 => match before.reverse.find? (fun o => o.dst = r) with
    | some o => width32 o.fmt
    | none => 128
  | 2 => 128
  | _ => 0

/-- The operations of a chain. -/
def Fxp.stages (x : Fxp) (c : FxpChain) : List FxpOp := (x.ops.drop c.first).take c.count

/-- The live bytes L of a chain (R165); `protected_` says that the shelf keeps parity. -/
def Fxp.live (x : Fxp) (protected_ : Bool) (c : FxpChain) : Nat :=
  let before := x.ops.take c.first
  ((x.stages c).zipIdx.map (fun (o, i) =>
    let seen := before ++ (x.stages c).take i
    let w (r : Nat) : Nat := x.refWidth seen r
    let k := o.kch * 64
    let prev := if i = 0 then none else (x.stages c)[i - 1]?
    (if o.op = 1 then
      2 * 64 * k * (w o.a + w o.b) / 32 + 16384 + 512 * bit (o.flag 2) + 256 * bit (o.flag 3) + 256 * bit (o.flag 4) +
        768 * bit (o.flag 5) + (prev.elim 0 (fun q => 64 * k * width32 q.fmt / 32))
     else if o.op = 2 then 8192 * (w o.a + w o.b + w o.aux) / 32 + 16384 else 0) +
      (if protected_ && refKind o.dst = 0 then 8192 * w o.dst / 32 else 0))).sum

/-- The budget of a chain in the tile buffer. -/
def tileBudget : Nat := 4063232

/-- Whether a chain fuses. -/
def Fxp.fuses (x : Fxp) (protected_ : Bool) (c : FxpChain) : Bool := x.live protected_ c ≤ tileBudget

/-- A program's chains fuse or split anew under the parity in force (R165, R166). -/
def Program.refit (g : Program) (protected_ : Bool) : Program :=
  let x := parseFxp g.bytes
  let f := (x.chains.filter (x.fuses protected_)).length
  { g with fused := f, split := x.chains.length - f }

/-! ### Loading -/

/-- A handle that the shelf gives: a free value, and not one in use (log 3). -/
def State.freshHandle (s : State) (used : List Word) : Word × State :=
  let (r, s1) := s.draw 32
  let ids := (List.range (used.length + 2)).map (fun i => r + BitVec.ofNat 32 i)
  ((ids.find? (fun i => i ≠ 0 && !used.contains i)).getD 1, s1)

/-- The programs on an engine. -/
def State.programsOn (s : State) (e : EngId) : List Program := (s.partsOn e).flatMap (fun p => (s.part p).programs)

/-- The spins in an engine's library. -/
def State.spinsOn (s : State) (e : EngId) : List Spin := (s.partsOn e).flatMap (fun p => (s.part p).spins)

/-- The stage quota of a partition in bytes; none for a quota of 0 (Table 3-11). -/
def State.stageQuota (s : State) (p : PartId) : Option Nat :=
  match s.cfg p with
  | some c => if c.stageGib = 0 then none else some (c.stageGib * 2 ^ 30)
  | none => none

/-- Whether a program would exceed the limits of R171 step 5. -/
def State.programOver (s : State) (p : PartId) (b : List Byte) (split : Bool) : Bool :=
  let x := s.part p
  let stage := ((x.programs.filter (fun g => 0 < g.split)).map (fun g => Config.splitBytes g.bytes)).sum +
    (if split then Config.splitBytes b else 0)
  16 ≤ x.programs.length ||
    (maskEngines (s.members p)).any (fun e => 64 ≤ (s.programsOn e).length ||
      262144 < ((s.programsOn e).map (fun g => Config.compiledBytes g.bytes)).sum + Config.compiledBytes b) ||
    (s.stageQuota p).any (fun q => q < stage)

/-- The digest by which a program names a spin. -/
def Spin.digest (q : Spin) : List Byte := slice q.bytes 32 32

/-- PROG_LOAD (0x70), by the checks of R171 in order. -/
def cmdProgLoad (c : Call) (s : State) : State × Result :=
  let p := c.part
  guarded c s { desc := true, expert := true, split := true, reads := true, needs := s.members p }
    (withData c s (fun d =>
      let b := d.take (field d 8 4)
      let x := parseFxp d
      let fused := x.chains.filter (x.fuses (0 < s.parity))
      let split := x.chains.length - fused.length
      ordered s [(fxpForbidden d, .notPermitted), (!bodyDigestOk d 128 64, .digestMismatch),
          (!fxpShaped d || x.chains.any (fun h => h.fuse = 1 && !x.fuses (0 < s.parity) h), .layout),
          (x.spins.any (fun h => !(s.part p).spins.any (fun q => q.digest = h)), .notFound),
          (s.programOver p b (0 < split), .quota)]
        (let (h, s1) := s.freshHandle ((s.part p).programs.map Program.handle)
         (s1.modPart p (fun y =>
            { y with programs := y.programs ++ [{ handle := h, bytes := b, fused := fused.length, split := split }] }),
          .ok (withDoneLen (rspFields [(8, 4, h.toNat), (12, 4, fused.length), (16, 4, split)]) c.dlen)))))

/-- Whether a policy names a program. -/
def polNames (pol : List Byte) (h : Nat) : Bool := polFamily pol = 0xFF && polField pol 60 4 = h

/-- Whether a partition's current STEP_POLICY names a program: the one in force or the one that waits to govern. -/
def Partition.names (x : Partition) (h : Nat) : Bool :=
  x.policy.any (fun q => polNames q h) && !x.needProgram || x.nextPolicy.any (fun q => polNames q h)

/-- PROG_UNLOAD (0x71). -/
def cmdProgUnload (c : Call) (s : State) : State × Result :=
  let h := c.fld 8 4
  let x := s.part c.part
  guarded c s { used := [(8, 4)], expert := true }
    (ordered s [(!x.programs.any (fun g => g.handle.toNat = h), .notFound), (x.names h, .notPermitted)]
      (s.modPart c.part (fun y => { y with programs := y.programs.filter (fun g => g.handle.toNat ≠ h) }), .ok []))

/-- Whether a spin image follows Table 7-6. -/
def spinShaped (b : List Byte) : Bool :=
  let ports := field b 14 1
  b.take 4 = ascii "SPN1" && field b 4 2 = 1 && field b 6 2 = 64 && 64 ≤ field b 8 4 && field b 8 4 ≤ 2 ^ 20 &&
    field b 8 4 ≤ b.length && 1 ≤ field b 12 1 && field b 12 1 ≤ 8 && 1 ≤ field b 13 1 && field b 13 1 ≤ 64 &&
    1 ≤ ports && ports ≤ 3 && field b 15 1 = 1 &&
    (List.range 3).all (fun i => if i < ports then knownFormat (field b (16 + i) 1) else field b (16 + i) 1 = 0) &&
    knownFormat (field b 19 1) && field b 24 8 = 0

/-- SPIN_LOAD (0x72). -/
def cmdSpinLoad (c : Call) (s : State) : State × Result :=
  let p := c.part
  guarded c s { desc := true, expert := true, split := true, reads := true, needs := s.members p }
    (withData c s (fun d =>
      ordered s [(!bodyDigestOk d 64 32, .digestMismatch), (!spinShaped d, .layout),
          (8 ≤ (s.part p).spins.length || (maskEngines (s.members p)).any (fun e => 32 ≤ (s.spinsOn e).length), .quota)]
        (let (h, s1) := s.freshHandle ((s.part p).spins.map Spin.handle)
         (s1.modPart p (fun y => { y with spins := y.spins ++ [{ handle := h, bytes := d.take (field d 8 4), uses := 0 }] }),
          .ok (withDoneLen (rspFields [(8, 4, h.toNat)]) c.dlen)))))

/-- SPIN_UNLOAD (0x73). -/
def cmdSpinUnload (c : Call) (s : State) : State × Result :=
  let h := c.fld 8 4
  let x := s.part c.part
  let sp := x.spins.find? (fun q => q.handle.toNat = h)
  guarded c s { used := [(8, 4)], expert := true }
    (ordered s [(sp.isNone, .notFound),
        (x.programs.any (fun g => (parseFxp g.bytes).spins.any (fun d => sp.any (fun q => q.digest = d))), .notPermitted)]
      ((s.modPart c.part (fun y => { y with spins := y.spins.filter (fun q => q.handle.toNat ≠ h) })).modEngines 0xFFFF
        (fun _ y => { y with resident := y.resident.map (fun r =>
          if r.any (fun v => v.part = c.part && v.handle.toNat = h) then none else r) }), .ok []))

/-- The largest L of a program's chains. -/
def Fxp.maxLive (x : Fxp) (protected_ : Bool) : Nat := (x.chains.map (x.live protected_)).foldl max 0

/-- PROG_QUERY (0x74), with Table 7-3. -/
def cmdProgQuery (c : Call) (s : State) : State × Result :=
  let h := c.fld 12 4
  let x := s.part c.part
  guarded c s { used := [(8, 1), (12, 4)], bad := [(8, 1 < c.fld 8 1)] }
    (if c.fld 8 1 = 0 then
      match x.programs.find? (fun g => g.handle.toNat = h) with
      | none => (s, .ok [])
      | some g =>
        let f := parseFxp g.bytes
        (s, .ok (rspFields [(8, 1, if x.names h then 2 else 1), (12, 4, f.chains.length), (16, 4, g.fused),
          (20, 4, f.maxLive (0 < s.parity)), (24, 8, if 0 < g.split then Config.splitBytes g.bytes else 0)]))
    else
      match x.spins.find? (fun q => q.handle.toNat = h) with
      | none => (s, .ok [])
      | some q =>
        let res := (s.eng c.eng).resident.toList.any (fun r => r.any (fun v => v.part = c.part && v.handle.toNat = h))
        (s, .ok (rspFields [(8, 1, if res then 2 else 1), (12, 4, field q.bytes 12 1), (16, 4, field q.bytes 13 1),
          (20, 4, min q.uses 0xFFFFFFFF), (24, 8, q.bytes.length)])))

end Sys2Proof.Machine
end

