-- ==== Sys2Proof/Machine/StreamLog.lean ====
section
/-! DEFINITION. The stream logs of a generation: records, their space, and reading them back (R227, R292). -/

namespace Sys2Proof.Machine

/-- Encrypt or decrypt a stored log record but for its clear header: the first data unit is bytes 64–4,095, each further
one a block; the tweak of a unit is the LSN of its block, then LOG_NONCE (R227). -/
def logCipher (enc : Bool) (key : List Byte) (nonce : DWord) (lsn : Nat) (r : List Byte) : List Byte :=
  r.take 64 ++ xtsUnit enc key (natLe 8 lsn ++ natLe 8 nonce.toNat) (slice r 64 4032) ++
    xtsUnits enc key nonce (lsn + 1) (r.drop 4096)

/-- The CRC-32C of a stored record, its bytes 52–55 taken as 0 (R227). -/
def logCrc (r : List Byte) : Word := crc32c (putLe r 52 4 0)

/-- A stored log record. -/
def logRecord (op : Nat) (e : EngId) (id off : Nat) (time : DWord) (lsn : Nat) (data : List Byte)
    (key : Option (List Byte)) (nonce : DWord) : List Byte :=
  let n := ceilDiv (64 + data.length) 4096
  let hdr := layoutBytes 64 [(8, 8, lsn), (16, 1, op), (17, 1, e.val), (20, 4, id), (24, 8, off), (32, 8, data.length),
    (40, 8, time.toNat), (48, 4, n)]
  let plain := padTo (n * 4096) (putBytes hdr 0 (ascii "WLMLG001") ++ data)
  let r := match key with
    | some k => logCipher true k nonce lsn plain
    | none => plain
  putLe r 52 4 (logCrc r).toNat

/-- A PAD record that fills the ring from an LSN to its end, encrypted like any other. -/
def padRecord (e : EngId) (time : DWord) (lsn blocks : Nat) (key : Option (List Byte)) (nonce : DWord) : List Byte :=
  let hdr := layoutBytes 64 [(8, 8, lsn), (16, 1, 0), (17, 1, e.val), (32, 8, blocks * 4096 - 64), (40, 8, time.toNat),
    (48, 4, blocks)]
  let plain := padTo (blocks * 4096) (putBytes hdr 0 (ascii "WLMLG001"))
  let r := match key with
    | some k => logCipher true k nonce lsn plain
    | none => plain
  putLe r 52 4 (logCrc r).toNat

/-- The first LSN that the latest committed epoch of a generation does not contain; the log is kept from there on. -/
def State.logFloor (s : State) (gen : Nat) (e : EngId) : Nat :=
  ((s.retained gen).foldl (fun (r : Nat × Nat) c => if r.1 ≤ c.1 then (c.1, commitLsn c.2 e.val) else r) (0, 0)).2

/-- The pointer of the ring block of an LSN. -/
def logPtr (g : List Byte) (e : EngId) (lsn : Nat) : Nat := genLog g e.val + lsn % max 1 (genLogBlocks g)

/-- The generation record of a partition, and its number. -/
def State.genOf (s : State) (p : PartId) : Option (Nat × List Byte) :=
  (s.part p).gen.bind (fun gen => (s.readGen gen).map (fun g => (gen, g)))

/-- Blocks of a log record with some bytes of data. -/
def logBlocks (len : Nat) : Nat := ceilDiv (64 + len) 4096

/-- Whether the stream log of an engine has room for records of some data lengths, in whatever order they come: the ring wraps at
most once, and the PAD that this takes is shorter than the longest of them. -/
def State.logRoom (s : State) (p : PartId) (e : EngId) (lens : List Nat) : Bool :=
  match s.genOf p with
  | some (gen, g) =>
    let ns := lens.map logBlocks
    (s.part p).lsn[e] + ns.sum + (ns.foldl max 0) ≤ s.logFloor gen e + genLogBlocks g
  | none => false

/-- Append a record to the stream log of an engine; none when its space is short (R227). -/
def State.appendLog (s : State) (p : PartId) (e : EngId) (op id off : Nat) (data : List Byte) (key : Option (List Byte)) :
    Option State :=
  match s.genOf p with
  | none => none
  | some (gen, g) =>
    let ring := genLogBlocks g
    let lsn := (s.part p).lsn[e]
    let n := ceilDiv (64 + data.length) 4096
    let left := ring - lsn % max 1 ring
    let pad := if n ≤ left then 0 else left
    if ring < n || ring < lsn + pad + n - s.logFloor gen e then none
    else
      let t := s.time e
      let s1 := if pad = 0 then s else s.writePtr (logPtr g e lsn) (padRecord e t lsn pad key (genNonce g)) true
      let s2 := s1.writePtr (logPtr g e (lsn + pad)) (logRecord op e id off t (lsn + pad) data key (genNonce g)) true
      some (s2.modPart p (fun x => { x with lsn := x.lsn.set e.val (lsn + pad + n) e.isLt }))

/-- A log record as replay reads it: time, engine, LSN, opcode, object, offset and data. -/
structure LogEntry where
  time : Nat
  eng : Nat
  lsn : Nat
  op : Nat
  id : Nat
  off : Nat
  data : List Byte
  deriving DecidableEq, Repr

/-- The records of one engine's log from an LSN on, up to the first that fails its MAGIC or its CRC (R292). -/
def State.readLog (s : State) (g : List Byte) (e : EngId) (key : Option (List Byte)) : Nat → Nat → List LogEntry
  | 0, _ => []
  | fuel + 1, lsn =>
    let hd := s.readPtr (logPtr g e lsn) 64
    let n := field hd 48 4
    let r := s.readPtr (logPtr g e lsn) (n * 4096)
    if hd.take 8 ≠ ascii "WLMLG001" || field hd 8 8 ≠ lsn || n = 0 || genLogBlocks g < n || logCrc r ≠ BitVec.ofNat 32 (field r 52 4) then []
    else
      let plain := match key with
        | some k => if field hd 16 1 = 0 then r else logCipher false k (genNonce g) lsn r
        | none => r
      let rec' : LogEntry := { time := field hd 40 8, eng := e.val, lsn := lsn, op := field hd 16 1, id := field hd 20 4,
                               off := field hd 24 8, data := slice plain 64 (field hd 32 8) }
      (if field hd 16 1 = 0 then [] else [rec']) ++ s.readLog g e key fuel (lsn + n)

/-- The LSN after the last valid record of an engine's log from an LSN on (R239). -/
def State.logEnd (s : State) (g : List Byte) (e : EngId) : Nat → Nat → Nat
  | 0, lsn => lsn
  | fuel + 1, lsn =>
    let hd := s.readPtr (logPtr g e lsn) 64
    let n := field hd 48 4
    let r := s.readPtr (logPtr g e lsn) (n * 4096)
    if hd.take 8 ≠ ascii "WLMLG001" || field hd 8 8 ≠ lsn || n = 0 || genLogBlocks g < n || logCrc r ≠ BitVec.ofNat 32 (field r 52 4) then lsn
    else s.logEnd g e fuel (lsn + n)

end Sys2Proof.Machine
end

