-- ==== Sys2Proof/Machine/RestoreOps.lean ====
section
/-! DEFINITION. Restores: finding an epoch's chain, the ID mapping, reading shards, establishing the partition's state and
replaying stream logs (13 Restore, R233, R290–R293, R295). -/

namespace Sys2Proof.Machine



/-! ### Finding an epoch (R233, R294) -/

/-- Whether a generation can be read: volume 0 with its superblock, the lease record, a LIVE record and its ring. A store
that cannot be read counts as holding nothing (log 36). -/
def State.genReadable (s : State) (gen : Nat) : Bool :=
  gen / 2 ^ 24 < 16 && s.reaches 0 && (s.superblockOf 0).isSome && (s.readLease (gen / 2 ^ 24)).isSome &&
    (s.readGen gen).any (fun g => genState g = 1 && s.reaches (ptrVol (genRing g)))

/-- The latest COMMITTED epoch of a generation that is not RETIRED; 0 for none. -/
def State.latestEpoch (s : State) (gen : Nat) : Nat := (s.retained gen).foldl (fun m c => max m c.1) 0

/-- The commit records of an epoch's chain, the full epoch first; none when a link is absent or RETIRED. -/
def State.epochChain (s : State) (gen : Nat) : Nat → Nat → Option (List (List Byte))
  | 0, _ => none
  | fuel + 1, n => match s.readCommit gen n with
    | some r =>
      if commitRetired r then none
      else if commitKind r = 2 then (s.epochChain gen fuel (commitBase r)).map (fun l => l ++ [r]) else some [r]
    | none => none

/-- Whether a manifest is of a later version, or records a format that Table 6-1 does not admit. -/
def manifestOdd (m : List Byte) : Bool :=
  field m 8 2 ≠ 1 || (manifestTensors m).any (fun t => 6 < field t 8 1 || !(classFormats (field t 8 1)).contains (field t 9 1))

/-- The slot contents that decrypt a manifest's shards: a DATA slot whose KEY_ID is the manifest's (R404). -/
def State.dataKeyOn (s : State) (e : EngId) (p : PartId) (slot : Nat) (m : List Byte) : Option (List Byte) :=
  ((s.keyOf e p slot 3).filter (fun k => k.keyId.toNat = field m 96 8)).map KeySlot.key

/-- The data key of a manifest on whichever member holds it (log 37). -/
def State.restoreKey (s : State) (p : PartId) (slot : Option Nat) (m : List Byte) : Option (List Byte) :=
  slot.bind (fun d => (maskEngines (s.members p)).findSome? (fun e => s.dataKeyOn e p d m))

/-! ### Mapping (Table 13-3) -/

/-- A recorded tensor's new ID: its own or its entry's, and for a dependant the offset of its parent; 0 excludes it. -/
def mappedId (entries : List (Nat × Nat)) (t : List Byte) : Nat :=
  let id := field t 0 4
  if dependentClass (field t 8 1) then
    let q := field t 28 4
    let np := assocGetD entries q q
    if np = 0 then 0 else id + np - q
  else assocGetD entries id id

/-- Whether a mapping gives some ID twice, or none that fits (log 38). -/
def badMapping (entries : List (Nat × Nat)) (ts : List (List Byte)) : Bool :=
  let news := (ts.map (mappedId entries)).filter (fun n => n ≠ 0)
  !news.Nodup || news.any (fun n => 2 ^ 32 ≤ n) ||
    ts.any (fun t => dependentClass (field t 8 1) && assocGetD entries (field t 28 4) (field t 28 4) ≠ 0 &&
      field t 0 4 + assocGetD entries (field t 28 4) (field t 28 4) ≤ field t 28 4)

/-- Elements of a recorded tensor's stripe. -/
def entryPer (m t : List Byte) : Nat :=
  if field t 8 1 = 4 then
    match (manifestTensors m).find? (fun q => field q 0 4 = field t 28 4) with
    | some q =>
      let pol := slice m 128 56
      2 ^ field q 12 1 / (field q 24 4 * 2 ^ polField pol 14 1) * (field q 24 4 / 2 ^ polField pol 15 1) * field t 24 4
    | none => 2 ^ field t 12 1
  else 2 ^ field t 12 1

/-- The tensor of a manifest entry under a placement, with an ID and a parent. -/
def entryTensor (m t : List Byte) (id parent : Nat) (pl : Placement) : Tensor :=
  let x : Tensor :=
    { id := BitVec.ofNat 32 id, rid := BitVec.ofNat 32 (field t 4 4), cls := field t 8 1, fmt := field t 9 1,
      twin := field t 10 1 = 1, hostFmt := field t 11 1, rows := field t 16 8, cols := field t 24 4,
      parent := BitVec.ofNat 32 parent, log2 := field t 12 1, per := entryPer m t, charge := 0, place := pl, dest := none,
      moved := [], poison := [], scrubbed := [], sums := [], bitmap := [], pushes := [] }
  { x with charge := x.chargeFor pl }

/-- The tensor as the source shelf placed it. -/
def sourceTensor (m t : List Byte) : Tensor :=
  entryTensor m t (field t 0 4) (field t 28 4)
    { members := BitVec.ofNat 16 (field t 14 2), parity := field m 30 1, units := [], gone := 0 }

/-- The tensors that a restore makes, with their recorded entries: placed for the partition's members and the policy in
force (13 Restore). -/
def State.restoreTensors (s : State) (p : PartId) (m : List Byte) (entries : List (Nat × Nat)) : List (List Byte × Tensor) :=
  ((manifestTensors m).filter (fun t => mappedId entries t ≠ 0)).map (fun t =>
    (t, entryTensor m t (mappedId entries t)
      (if dependentClass (field t 8 1) then assocGetD entries (field t 28 4) (field t 28 4) else 0)
      { members := s.members p, parity := s.parity, units := [], gone := 0 }))

/-! ### Reading shards (R290) -/

/-- A shard that a restore met damaged: whether the further read repaired it, the recorded tensor ID (0 for META), stripe and offset
in it of the capture, the status (R247). -/
structure ShardDamage where
  repaired : Bool
  id : Nat
  stripe : Nat
  off : Nat
  status : Status
  deriving DecidableEq, Repr

/-- What a restore has read: contents and poisoned stripes by recorded tensor ID, META payloads, the first failure, the damage that
it met, and how many shards it has read. -/
structure RestoreImage where
  contents : List (Nat × Memory)
  poison : List (Nat × List Nat)
  metas : List (Nat × List Byte)
  fail : Option Status
  damage : List ShardDamage
  count : Nat
  deriving DecidableEq, Repr

/-- The raw bytes of a shard: its SHA-256, then its decode. -/
def State.shardBytes (s : State) (h : List Byte) (key : Option (List Byte)) : Except (Status × Nat) (List Byte) :=
  let o := s.readPtr (field h 0 8) (field h 40 8)
  if sha256 o ≠ slice h 48 32 then .error (.digestMismatch, 0) else parseObject o key

/-- Whether a volume's target is reached over more than one connection. -/
def State.otherConnection (s : State) (v : Nat) : Bool :=
  (s.volume v).any (fun x => 1 < x.queues.toList.zipIdx.countP (fun (n, i) => 0 < n && s.sportUp i && s.joined (sportEngine i)))

/-- The first read of a shard, which `bad` makes wrong, and the further one over another connection, if there is one (R247, R290). -/
def State.shardReads (s : State) (h : List Byte) (key : Option (List Byte)) (bad : Bool) :
    Except (Status × Nat) (List Byte) × Except (Status × Nat) (List Byte) :=
  let held := s.shardBytes h key
  let first := if bad then .error (.digestMismatch, 0) else held
  (first, if s.otherConnection (ptrVol (field h 0 8)) then held else first)

/-- The stripe of a run of stripes, and the offset in it, where a raw offset of the run lies. -/
def stripeAt (t : Tensor) : List Nat → Nat → Nat × Nat
  | [], _ => (0, 0)
  | [k], o => (k, o)
  | k :: ks, o => if o < t.stripeLen k then (k, o) else stripeAt t ks (o - t.stripeLen k)

/-- The damage that a shard's first read shows. -/
def shardDamage (t : Option Tensor) (ks : List Nat) (id : Nat) (repaired : Bool) (f : Status × Nat) : ShardDamage :=
  let at_ := t.elim (0, 0) (fun t => stripeAt t ks f.2)
  { repaired := repaired, id := id, stripe := at_.1, off := at_.2, status := f.1 }

/-- The stripes that a shard entry covers. -/
def entryStripes (t : Tensor) (h : List Byte) : List Nat :=
  ((t.stripesOn (Fin.ofNat 16 (field h 14 1))).filter (fun k => field h 16 8 ≤ k)).take (field h 24 4)

/-- Put the raw bytes of stripes into a tensor's contents: a delta by XOR onto its base. -/
def putStripes (t : Tensor) (delta : Bool) : List Nat → List Byte → Memory → Memory
  | [], _, m => m
  | k :: ks, raw, m =>
    let n := t.stripeLen k
    let now := raw.take n
    let old := Memory.readBytes m (k * t.stripeBytes) n
    putStripes t delta ks (raw.drop n)
      (Memory.writeBytes m (k * t.stripeBytes) (if delta then xorBytes old now else now))

/-- A shard that has been read applies: contents or a META payload, or its stripes are poisoned (R290). -/
def RestoreImage.take (r : RestoreImage) (t : Option Tensor) (ks : List Nat) (h : List Byte)
    (raw : Except (Status × Nat) (List Byte)) : RestoreImage :=
  let id := field h 8 4
  let delta := field h 12 1 = 1
  let old := assocGetD r.poison id []
  match raw, t with
  | .ok b, some x =>
    { r with contents := assocSet r.contents id (putStripes x delta ks b (assocGetD r.contents id [])),
             poison := if delta then r.poison else assocSet r.poison id (old.filter (fun k => !ks.contains k)) }
  | .ok b, none => { r with metas := assocSet r.metas (field h 13 1) b }
  | .error f, some _ =>
    { r with poison := assocSet r.poison id (old ++ ks.filter (fun k => !old.contains k)), fail := r.fail <|> some f.1 }
  | .error f, none => { r with metas := assocDel r.metas (field h 13 1), fail := r.fail <|> some f.1 }

/-- One shard of the chain; the shards that `bad` numbers come wrong at their first read. -/
def State.loadShard (s : State) (p : PartId) (slot : Option Nat) (bad : List Nat) (m : List Byte) (r : RestoreImage)
    (h : List Byte) : RestoreImage :=
  let key := if field m 31 1 = 1 then s.restoreKey p slot m else none
  let t := ((manifestTensors m).find? (fun t => field t 0 4 = field h 8 4)).map (sourceTensor m)
  let ks := t.elim [] (fun x => entryStripes x h)
  let reads := s.shardReads h key (bad.contains r.count)
  let r1 := { r.take t ks h reads.2 with count := r.count + 1 }
  match reads.1 with
  | .ok _ => r1
  | .error f => { r1 with damage := r1.damage ++ [shardDamage t ks (field h 8 4) (match reads.2 with | .ok _ => true | .error _ => false) f] }

/-- Every shard of a chain of manifests. -/
def State.loadChain (s : State) (p : PartId) (slot : Option Nat) (bad : List Nat) (ms : List (List Byte)) : RestoreImage :=
  ms.foldl (fun r m => (manifestShards m).foldl (s.loadShard p slot bad m) r)
    { contents := [], poison := [], metas := [], fail := none, damage := [], count := 0 }

/-! ### META payloads (Table 10-7) -/

/-- The riders of a META payload; `fuel` bounds them. -/
def parseRiders : Nat → List Byte → List (Nat × List Byte)
  | 0, _ => []
  | fuel + 1, b =>
    if b.length < 8 then []
    else
      let n := field b 4 4
      (field b 0 2, slice b 8 n) :: parseRiders fuel (b.drop (8 + roundUp n 8))

/-- The contribution bitmaps of a META payload, by recorded tensor ID: a mask of contributors for each segment. -/
def parseBitmaps : Nat → List Byte → List (Nat × List (Nat × Nat))
  | 0, _ => []
  | fuel + 1, b =>
    if b.length < 16 then []
    else
      let c := field b 4 2
      let n := field b 8 8
      let bs := unpackBits (slice b 16 (ceilDiv (c * n) 8))
      let masks := (List.range n).map (fun g =>
        (g, (List.range c).foldl (fun m i => if bs.getD (i * n + g) false then m ||| 2 ^ i else m) 0))
      (field b 0 4, masks.filter (fun x => x.2 ≠ 0)) :: parseBitmaps fuel (b.drop (16 + roundUp (ceilDiv (c * n) 8) 8))

/-- The stream contexts of a META payload take their places where the stream exists (R291). -/
def State.putContexts (s : State) (p : PartId) (b : List Byte) : State :=
  (chunks 8 b).foldl (fun s x =>
    let e : EngId := Fin.ofNat 16 (field x 0 1)
    let n := field x 2 2
    if field x 0 1 < 16 && s.hasWindow e p && n < s.streams p then
      (s.modWin e p (fun w => { w with vmap := assocSet w.vmap n (byteAt x 5) })).modStream ⟨e, p, n⟩
        (fun q => { q with storeClass := natBit (field x 4 1) 0, haltOnErr := natBit (field x 4 1) 1 })
    else s) s

/-! ### Establishing the state (R291) -/

/-- The partial sums of an ACCUM tensor from its FP32 contents. -/
def sumsOf (m : Memory) : List (Nat × Acc) :=
  ((m.map (fun c => c.1 / 4)).dedup).map (fun i => (i, Acc.zero.add (BitVec.ofNat 32 (leNat (Memory.readBytes m (4 * i) 4)))))

/-- One restored tensor enters the registry with its contents; none when there is no room. An ACCUM segment counts one push
for each of its bits (log 39). -/
def State.placeRestored (s : State) (p : PartId) (r : RestoreImage) (x : List Byte × Tensor) : Option State :=
  let id := field x.1 0 4
  let m := assocGetD r.contents id []
  let bm := assocGetD (parseBitmaps 262144 (assocGetD r.metas 2 [])) id []
  let t := { x.2 with poison := assocGetD r.poison id [] }
  let t1 := if t.cls = 5 then
      { t with sums := sumsOf m, bitmap := bm, pushes := bm.map (fun b => (b.1, (List.range 4096).countP (natBit b.2))) }
    else t
  (s.register p t1).map (fun s1 =>
    if t.cls = 5 then s1
    else match (s1.part p).tensor? t.id.toNat with
      | some u => m.foldl (fun s c => s.putTensor u c.1 [c.2]) s1
      | none => s1)

/-- The registry of a partition, its riders and its policy are discarded (R293). -/
def State.clearState (s : State) (p : PartId) : State :=
  (s.unregister p (fun _ => true)).modPart p (fun x =>
    { x with riders := [], policy := none, nextPolicy := none, needProgram := false, nextFull := true,
             step := Partition.reset.step })

/-- The policy of a manifest; none when the epoch had none. -/
def manifestPolicy (m : List Byte) : Option (List Byte) :=
  let pol := slice m 128 56
  if polFamily pol = 0 then none else some pol

/-- The counters, policy, riders and generation of a restored epoch (R291). -/
def State.putCounters (s : State) (p : PartId) (ses : Restore) (m : List Byte) (r : RestoreImage) : State :=
  let own := s.leaseHeld && ses.gen / 2 ^ 24 = s.store.lease.slot &&
    (s.readGen ses.gen).any (fun g => genState g = 1 && genPart g = p.val)
  let last := (s.commits ses.gen).foldl (fun n c => max n c.1) 0
  let lsn : Vector Nat 16 := match s.readGen ses.gen with
    | some g => Vector.ofFn (fun e => s.logEnd g e (genLogBlocks g) (s.logFloor ses.gen e))
    | none => Vector.replicate 16 0
  s.modPart p (fun x =>
    let y : Partition :=
      { x with policy := manifestPolicy m, nextPolicy := none,
               needProgram := (manifestPolicy m).any (fun pol => polFamily pol = 0xFF),
               riders := parseRiders 4096 (assocGetD r.metas 1 []), epochs := [], nextFull := true,
               step := { Partition.reset.step with
                 completed := field m 40 6, skip := field m 48 4, t := field m 104 6, contributors := field m 46 2,
                 phase := bit (x.tensors.any (fun t => !t.bitmap.isEmpty)) } }
    let z := if ses.contributors = 0 then y else y.reshape ses.contributors ses.mode ses.cmap
    if own then { z with gen := some ses.gen, nextEpoch := last + 1, lastCut := last, lastCommitted := last, lsn := lsn }
    else { z with gen := none, prevGen := x.gen <|> x.prevGen, nextEpoch := 1, lastCut := 0, lastCommitted := 0,
                  lsn := Vector.replicate 16 0 })

/-! ### Replay (R292) -/

/-- The stream-log records that a session replays, in order. -/
def State.replayEntries (s : State) (p : PartId) (ses : Restore) (m : List Byte) : List LogEntry :=
  match s.readGen ses.gen, s.readCommit ses.gen ses.n with
  | some g, some r =>
    let key := if field m 31 1 = 1 then s.restoreKey p ses.dslot m else none
    let all := (List.finRange 16).flatMap (fun e => s.readLog g e key (genLogBlocks g) (commitLsn r e.val))
    (all.filter (fun x => ses.replay = 1 || x.time ≤ ses.until_.toNat)).insertionSort (fun a b =>
      a.time < b.time || (a.time = b.time && (a.eng < b.eng || (a.eng = b.eng && a.lsn ≤ b.lsn))))
  | _, _ => []

/-- One record: a WRITE to a mapped tensor, or a rider. -/
def State.replayOne (s : State) (p : PartId) (ids : List (Nat × Nat)) (x : LogEntry) : State :=
  if x.op = 0x09 then s.modPart p (fun y => { y with riders := assocSet y.riders x.id x.data })
  else match (s.part p).tensor? (assocGetD ids x.id 0) with
    | some t => if x.op = 0x02 && x.off + x.data.length ≤ t.bytes then s.writeTensor p t x.off x.data else s
    | none => s

/-- The shards of a chain are read with Read commands, damaged ones a second time (R39, R247). -/
def State.issueReads (s : State) (ms : List (List Byte)) (again : Nat) : State :=
  let hs := ms.flatMap manifestShards
  (hs ++ hs.take again).foldl (fun s h => s.storeRead (field h 0 8) (ceilDiv (field h 40 8) blockBytes)) s

/-- Damage that a restore met is reported: DATA_REPAIRED, or DATA_POISONED, with the destination of the capture where its tensor has
been placed (R247; log 153). -/
def State.reportDamage (s : State) (p : PartId) (ids : List (Nat × Nat)) (d : ShardDamage) : State :=
  let src : Fin 32 := if d.repaired then 0 else 1
  let det : Detection := { plainFault 3 src 0 with master := 0x4000, access := 0x7, part := some p, status := statusCode d.status }
  match (s.part p).tensor? (assocGetD ids d.id 0) with
  | some t =>
    let pl := t.place
    let e := pl.dataEngine d.stripe
    s.detect e { det with addr := BitVec.ofNat 64 (pl.addr e (d.stripe / pl.data * t.stripeBytes + d.off)) }
  | none => s.detect s.firstJoined { det with addr := 0 }

/-- A restore ends failed: the registry is left empty (R294, R295). -/
def State.failRestore (s : State) (p : PartId) (st : Status) : State :=
  let i := (s.part p).restore.bind Restore.campaign
  ((s.clearState p).endCampaign i).modPart p (fun x =>
    { x with restore := x.restore.map (fun r => { r with state := 4, status := st, campaign := none }) })

/-- A restore that has read its chain establishes the partition's state and replays the logs (R291, R292). -/
def State.finishRestore (s : State) (p : PartId) (ses : Restore) (bad : List Nat) : State :=
  let m := ses.chain.getLast?.getD []
  let r := s.loadChain p ses.dslot bad ses.chain
  let lost := (r.poison.map (fun x => x.2.length)).sum
  let sr := s.issueReads ses.chain r.damage.length
  let ids := (manifestTensors m).map (fun t => (field t 0 4, mappedId ses.map t))
  if ses.strict && r.fail.isSome then
    (r.damage.foldl (fun s d => s.reportDamage p ids d) sr).failRestore p (r.fail.getD .digestMismatch)
  else
    let s0 := (s.part p).epochs.foldl (fun s ep => s.releaseEpoch p ep.n) sr
    let ts := (s0.restoreTensors p m ses.map).insertionSort (fun a b => a.2.id.toNat ≤ b.2.id.toNat)
    match ts.foldlM (fun s x => s.placeRestored p r x) (s0.clearState p) with
    | none => s0.failRestore p .quota
    | some s1 =>
      let s2 := (s1.putCounters p ses m r).putContexts p (assocGetD r.metas 3 [])
      let es := if ses.replay = 0 then [] else s.replayEntries p ses m
      let s3 := r.damage.foldl (fun s d => s.reportDamage p ids d) (es.foldl (fun s x => s.replayOne p ids x) s2)
      (s3.endCampaign ses.campaign).modPart p (fun x =>
        { x with rebuildWait := x.rebuildWait || s.fencedOf p ≠ 0,
                 restore := some { ses with state := 3, status := .ok, campaign := none, poisoned := lost,
                                            loaded := ses.rawTotal, records := es.length } })

end Sys2Proof.Machine
end

