-- ==== Sys2Proof/Machine/ReshardOps.lean ====
section
/-! DEFINITION. Re-shards, rebuilds and in-place re-encodings: when one may begin, its placements, moving stripes, and its
end (13 Re-sharding, R279–R284). -/

namespace Sys2Proof.Machine

/-- A re-shard of a partition runs: its campaign has started (R282). -/
def Partition.resharding (x : Partition) : Bool := x.reshard.any (fun r => r.campaign.isSome)

/-- Whether a re-shard of a partition may begin: no update phase runs (R282), no epoch is COPYING or pins its twins (Table
8-6, R279; log 40), no cut is being declared and no restore runs. -/
def Partition.canReshard (x : Partition) : Bool :=
  x.step.phase ≠ 3 && !x.copying && !x.epochs.any (fun ep => ep.pinned && ep.state ≠ 6) && x.cut.isNone && !x.restoring

/-- The placement that a re-shard computes (R281). -/
def Reshard.placement (r : Reshard) : Placement := { members := r.members, parity := r.parity, units := [], gone := 0 }

/-- A tensor takes its destination units; none when there is no room. -/
def State.giveDest (s : State) (p : PartId) (t : Tensor) (pl : Placement) : Option State :=
  (s.takePlacement t pl).map (fun r => r.2.modTensor p t.id (fun u => { u with dest := some r.1, moved := [] }))

/-- Destinations for every tensor of a partition. -/
def State.giveDests (s : State) (p : PartId) (pl : Placement) : Option State :=
  (s.part p).tensors.foldlM (fun s t => s.giveDest p t pl) s

/-- Bytes that a tensor's new placement charges to each engine. -/
def Tensor.shareFor (t : Tensor) (pl : Placement) : Nat := ceilDiv (t.chargeFor pl) (max 1 pl.count)

/-- Whether a partition's tensors fit its quota under a placement. -/
def State.placementFits (s : State) (p : PartId) (pl : Placement) : Bool :=
  let need := ((s.part p).tensors.map (fun t => t.shareFor pl)).sum
  pl.list.all (fun e => match s.poolQuota p with
    | some q => need + (((s.part p).kv.filter (fun k => k.body = e)).map KvPage.raw).sum ≤ q
    | none => true)

/-- Overwrite one stripe with zeros, parity included. -/
def State.zeroStripe (s : State) (t : Tensor) (k : Nat) : State :=
  (List.range t.stripeBytes).foldl (fun s j => s.putStripeByte t k j 0) s

/-- Write the bytes of one stripe that could be read. -/
def State.fillStripe (s : State) (t : Tensor) (k : Nat) (bs : List (Option Byte)) : State :=
  bs.zipIdx.foldl (fun s (b, j) => match b with
    | some v => s.putStripeByte t k j v
    | none => s) s

/-- The bytes of one stripe. -/
def State.stripeBytesOf (s : State) (t : Tensor) (k : Nat) : List (Option Byte) :=
  (List.range t.stripeBytes).map (fun j => s.stripeByte t k j)

/-- One stripe moves to its destination with the parity of both groups (R281). -/
def State.moveStripe (s : State) (p : PartId) (t : Tensor) (k : Nat) : State :=
  let bs := s.stripeBytesOf t k
  let u := { t with moved := t.moved ++ [k] }
  ((s.zeroStripe t k).modTensor p t.id (fun x => { x with moved := x.moved ++ [k] })).fillStripe u k bs

/-- One moved stripe goes back, when a re-shard restarts. -/
def State.unmoveStripe (s : State) (p : PartId) (t : Tensor) (k : Nat) : State :=
  let bs := s.stripeBytesOf t k
  let u := { t with moved := t.moved.filter (fun j => j ≠ k) }
  ((s.zeroStripe t k).modTensor p t.id (fun x => { x with moved := x.moved.filter (fun j => j ≠ k) })).fillStripe u k bs

/-- Move stripes of one tensor. -/
def State.moveStripes (s : State) (p : PartId) (id : Nat) (ks : List Nat) : State :=
  ks.foldl (fun s k => match (s.part p).tensor? id with
    | some t => if t.moved.contains k then s else s.moveStripe p t k
    | none => s) s

/-- A tensor gives up its destination: moved stripes go back and the units are freed. -/
def State.dropDest (s : State) (p : PartId) (id : Nat) : State :=
  match (s.part p).tensor? id with
  | none => s
  | some t =>
    let s1 := t.moved.foldl (fun s k => match (s.part p).tensor? id with
      | some u => s.unmoveStripe p u k
      | none => s) s
    (match t.dest with
      | some d => s1.freePlacement d
      | none => s1).modTensor p t.id (fun u => { u with dest := none, moved := [] })

/-- Every tensor of a partition gives up its destination. -/
def State.dropDests (s : State) (p : PartId) : State :=
  (s.part p).tensors.foldl (fun s t => s.dropDest p t.id.toNat) s

/-- The re-shard of a partition starts its campaign; its tensors take their destinations. None when there is no room. -/
def State.startReshard (s : State) (p : PartId) (r : Reshard) : Option State :=
  if !s.placementFits p r.placement then none
  else (s.giveDests p r.placement).map (fun s1 =>
    let (i, s2) := s1.startCampaign .reshard (some p)
    s2.modPart p (fun x => { x with reshard := some { r with campaign := some i }, nextFull := true }))

/-- The command whose mailbox a re-shard answers. -/
def State.requesterOp (s : State) (r : Reshard) : Nat :=
  match r.requester with
  | some (e, k) => ((s.mailbox e k).job.map Job.op).getD 0
  | none => 0

/-- Answer the command that asked for a re-shard. -/
def State.answerReshard (s : State) (r : Reshard) (st : Status) (body : List Byte) : State :=
  match r.requester with
  | some (e, k) => if ((s.mailbox e k).job.any (fun j => j.waitsFor .reshard)) then s.answer e k st body else s
  | none => s

/-- A re-shard that waits begins when it may; RESHARD is answered with its campaign (R294). In-place re-encodings go in
ascending partition ID (R284); a rebuild begins at REBUILD_START. -/
def State.kickReshard (s : State) (p : PartId) : State :=
  match (s.part p).reshard with
  | none => s
  | some r =>
    let earlier := s.requesterOp r = 3 && (List.finRange 64).any (fun q => q < p && (s.part q).reshard.isSome)
    if r.campaign.isSome || r.rebuild || earlier || !(s.part p).canReshard || s.campaignsFull then s
    else match s.startReshard p r with
      | some s1 => if s.requesterOp r = 0x63 then
          s1.answerReshard r .ok (rspFields [(40, 2, (((s1.part p).reshard.bind Reshard.campaign)).getD 0xFFFF)]) else s1
      | none => (s.modPart p (fun x => { x with reshard := none })).answerReshard r .quota []

/-- Every re-shard that waits begins where it may. -/
def State.kickReshards (s : State) : State := (List.finRange 64).foldl (fun s p => s.kickReshard p) s

/-- Whether every stripe whose engine changes has moved. -/
def Tensor.allMoved (t : Tensor) : Bool :=
  match t.dest with
  | some d => (List.range t.stripes).all (fun k => t.moved.contains k || t.place.dataEngine k = d.dataEngine k)
  | none => true

/-- One tensor's re-shard ends: the stripes that stay on their engine are re-encoded, the old copies are freed, the charge
follows the new placement. -/
def State.settleTensor (s : State) (p : PartId) (r : Reshard) (id : Nat) : State :=
  let s0 := match (s.part p).tensor? id with
    | some t => if t.dest.isSome || t.place.members = r.members && t.place.parity = r.parity then s
                else (s.giveDest p t r.placement).getD s
    | none => s
  match (s0.part p).tensor? id with
  | none => s0
  | some t => match t.dest with
    | none => s0
    | some d =>
      let s1 := s0.moveStripes p id (List.range t.stripes)
      (s1.freePlacement t.place).modTensor p t.id (fun u =>
        { u with place := d, dest := none, moved := [], charge := u.chargeFor d })

/-- Every stream of a partition's window on an engine is halted (R127, R283). -/
def Engine.haltStreams (x : Engine) (p : PartId) : Engine :=
  let w := x.windows[p]
  x.setWin p { w with streams := w.streams.map (fun q =>
    (q.1, { (q.2.endSlots Slot.isQueued .streamHalted) with halted := true })) }

/-- The engines of a re-shard's list that are lost, or have lost what had been moved there. -/
def State.reshardLost (s : State) (p : PartId) (r : Reshard) : BitVec 16 :=
  engineMask ((maskEngines r.members).filter (fun e => s.lost e ||
    (s.part p).tensors.any (fun t => t.dest.any (fun d => hasEngine d.gone e))))

/-- Whether a re-shard has lost one of the engines that it moves to; it then restarts at REBUILD_START (Table 13-1). -/
def State.reshardHit (s : State) (p : PartId) (r : Reshard) : Bool := s.reshardLost p r ≠ 0

/-- Whether a running re-shard has moved every stripe, and has lost none of the engines that it moves to. -/
def State.reshardMoved (s : State) (p : PartId) (r : Reshard) : Bool :=
  (s.part p).resharding && !s.reshardHit p r && (s.part p).tensors.all Tensor.allMoved

/-- A new member list takes effect (R58, R283): streams are halted on the engines that leave, and an engine that gains a window starts
with a fresh one. -/
def State.shiftMembers (s : State) (p : PartId) (old : BitVec 16) : State :=
  let m := s.members p
  (s.modEngines (old &&& ~~~m) (fun _ x => x.haltStreams p)).modEngines (m &&& ~~~old) (fun _ x => x.dropWindow p)

/-- A re-shard ends (R281, R283). -/
def State.endReshard (s : State) (p : PartId) (r : Reshard) : State :=
  let s1 := (s.part p).tensors.foldl (fun s t => s.settleTensor p r t.id.toNat) s
  let s2 := (s1.endCampaign r.campaign).modPart p (fun x =>
    { x with reshard := none, nextFull := true, rebuildWait := x.rebuildWait && !r.rebuild })
  let s3 := if s.requesterOp r = 3 && !(List.finRange 64).any (fun q => (s2.part q).reshard.any (fun y => y.requester = r.requester))
    then s2.answerReshard r .ok [] else s2
  s3.kickReshards

/-- The record with the member list of a re-shard is current: the list takes effect, and the re-shard ends (R283, R301). -/
def State.membersAdopted (s : State) (p : PartId) (old : BitVec 16) : State :=
  let s1 := s.shiftMembers p old
  match (s1.part p).reshard with
  | some r => if s1.reshardMoved p r && r.members = s1.members p then s1.endReshard p r else s1
  | none => s1

end Sys2Proof.Machine
end

