-- ==== Sys2Proof/Machine/Restores.lean ====
section
/-! DEFINITION. The restore and re-shard commands 0x60 to 0x65 (13 Basic control, R294). -/

namespace Sys2Proof.Machine

/-- RESTORE_OPEN (0x60): R233, R294. -/
def cmdRestoreOpen (c : Call) (s : State) : State × Result :=
  let p := c.part
  let x := s.part p
  let gen := c.fld 8 4
  let replace := natBit (c.fld 18 1) 0
  let mslot := c.fld 19 1
  let dslot := if c.fld 20 1 = 0xFF then none else some (c.fld 20 1)
  let n := if c.fld 12 6 = 0 then s.latestEpoch gen else c.fld 12 6
  let chain := if s.genReadable gen then s.epochChain gen 16 n else none
  let rs := chain.getD []
  let ms := rs.map s.readManifest
  let key := (s.keyOf c.eng p mslot 2).map KeySlot.key
  let dataMissing := ms.any (fun m => field m 31 1 = 1 &&
    (dslot.bind (fun d => s.dataKeyOn c.eng p d m)).isNone)
  let bad := (rs.zip ms).any (fun (r, m) => !manifestFits m r || !key.any (fun k => sealFits m k))
  let odd := (s.superblockOf 0).any (fun b => 1 < field b 10 2) || ms.any manifestOdd
  let m := ms.getLast?.getD []
  let ses : Restore :=
    { state := 1, gen := gen, n := n, chain := ms, replace := replace, dslot := dslot, mslot := mslot, map := [],
      contributors := 0, mode := 0, cmap := [], replay := 0, until_ := 0, strict := false, campaign := none, paid := 0, status := .ok,
      poisoned := 0, loaded := 0, records := 0,
      rawTotal := (ms.flatMap manifestShards |>.map (fun h => field h 32 8)).sum }
  guarded c s { used := [(8, 13)], step9 := true,
                bad := [(18, 1 < c.fld 18 1), (19, 63 < mslot), (20, 63 < c.fld 20 1 && c.fld 20 1 ≠ 0xFF)] }
    (ordered s [(!x.tensors.isEmpty && !replace, .notPermitted),
        (x.restore.isSome || x.reshard.isSome || s.hasCampaign p || (replace && !x.epochs.isEmpty), .busy),
        (chain.isNone, .notFound), (key.isNone || dataMissing, .keyEmpty), (bad, .digestMismatch), (odd, .layout)]
      (s.modPart p (fun x => { x with restore := some ses }),
       .ok (rspFields [(8, 6, n), (14, 1, field m 22 1), (16, 4, field m 52 4),
         (20, 4, (ms.map (fun m => field m 56 4)).sum), (24, 8, field m 80 8), (32, 8, field m 88 8),
         (40, 6, field m 40 6), (46, 2, field m 46 2), (48, 1, field m 30 1)])))

/-- The entries of a RESTORE_MAP buffer: source ID and new ID. -/
def restoreEntries (d : List Byte) : List (Nat × Nat) :=
  (List.range (field d 0 4)).map (fun i => (field d (16 + 16 * i) 4, field d (20 + 16 * i) 4))

/-- The contributor map of a RESTORE_MAP buffer. -/
def restoreCmap (d : List Byte) : List Nat :=
  if field d 4 2 = 0 then [] else mapEntries (d.drop (16 + 16 * field d 0 4))

/-- What R294 refuses in a RESTORE_MAP buffer for the recorded tensors. -/
def badRestoreMap (d : List Byte) (ts : List (List Byte)) : Bool :=
  let es := restoreEntries d
  let used := (restoreCmap d).filter (fun v => v ≠ 0xFFFF)
  es.any (fun e => (ts.find? (fun t => field t 0 4 = e.1)).any (fun t => dependentClass (field t 8 1))) ||
    !(es.map Prod.fst).Nodup || !((es.map Prod.snd).filter (fun n => n ≠ 0)).Nodup ||
    used.any (fun v => field d 4 2 ≤ v) || !used.Nodup || badMapping es ts

/-- What is wrong with a RESTORE_MAP buffer by itself: the descriptor byte against which R85 reports it, as R93 step 4 does before the
conditions of R294. Its length depends on the old CONTRIBUTORS of the session, `cn` bytes of map. -/
def restoreMapError (d : List Byte) (dl : Nat) (cn : Option Nat) : Option Nat :=
  if cn.any (fun n => field d 0 4 ≤ 262144 && dl ≠ 16 + 16 * field d 0 4 + (if field d 4 2 = 0 then 0 else n)) then some 60
  else if 262144 < field d 0 4 || 1 < field d 6 1 || 4096 < field d 4 2 || (slice d 7 9).any (fun b => b ≠ 0) ||
      (List.range (min 262144 (field d 0 4))).any (fun i => field d (24 + 16 * i) 8 ≠ 0) then some 48
  else none

/-- RESTORE_MAP (0x61). A DLEN that no counts can have is refused before the buffer is read (R85); a session that has run
answers SC_BUSY (log 41). -/
def cmdRestoreMap (c : Call) (s : State) : State × Result :=
  let p := c.part
  let x := s.part p
  let m := (x.restore.map (fun r => r.chain.getLast?.getD [])).getD []
  let ts := manifestTensors m
  let cn := 2 * field m 46 2
  let dl := c.dlen
  let plain := (dl - 16) % 16 = 0
  let mapped := 16 + cn ≤ dl && (dl - 16 - cn) % 16 = 0
  guarded c s { desc := true, reads := true, bad := [(60, dl < 16 || (x.restore.isSome && !plain && !mapped))],
                dataErr := c.data.bind (fun d => restoreMapError d dl (if x.restore.isSome then some cn else none)) }
    (ordered s [(x.restore.isNone, .notFound), (x.restore.any (fun r => r.state ≠ 1), .busy)]
      (withData c s (fun d =>
         if (restoreEntries d).any (fun e => !ts.any (fun t => field t 0 4 = e.1)) then refuse s .notFound
         else if badRestoreMap d ts then badField s 48
         else (s.modPart p (fun x => { x with restore := x.restore.map (fun r =>
           { r with map := restoreEntries d, contributors := field d 4 2, mode := field d 6 1, cmap := restoreCmap d }) }),
           .ok (withDoneLen [] dl)))))

/-- Whether the tensors of a restore exceed the partition's pool quota. -/
def State.restoreOver (s : State) (p : PartId) (m : List Byte) (map : List (Nat × Nat)) : Bool :=
  let ts := (s.restoreTensors p m map).map Prod.snd
  let pl : Placement := { members := s.members p, parity := s.parity, units := [], gone := 0 }
  let need := (ts.map (fun t => t.shareFor pl)).sum
  pl.list.any (fun e => match s.poolQuota p with
    | some q => q < need + (((s.part p).kv.filter (fun k => k.body = e)).map KvPage.raw).sum
    | none => false)

/-- A session that starts to run. -/
def Restore.run (r : Restore) (replay : Nat) (strict : Bool) (til : DWord) (i : Nat) : Restore :=
  { r with state := 2, replay := replay, strict := strict, until_ := til, campaign := some i }

/-- RESTORE_RUN (0x62): the campaign starts; with REPLACE the old tensors, riders and policy go now (R293). -/
def cmdRestoreRun (c : Call) (s : State) : State × Result :=
  let p := c.part
  let x := s.part p
  let replay := c.fld 8 1
  guarded c s { used := [(8, 2), (16, 8)], split := true,
                bad := [(8, 2 < replay), (9, 1 < c.fld 9 1), (16, replay ≠ 2 && c.fld 16 8 ≠ 0)] }
    (match x.restore with
     | none => refuse s .notFound
     | some r =>
       let m := r.chain.getLast?.getD []
       ordered s [(r.state ≠ 1, .busy),
           ((replay ≠ 0 && !(s.genReadable r.gen && s.latestEpoch r.gen = r.n)) || (!x.tensors.isEmpty && !r.replace),
             .notPermitted),
           (maskCount (s.members p) < s.parity + 1, .layout), (s.restoreOver p m r.map, .quota),
           (s.campaignsFull, .epochLimit)]
         (let (i, s1) := s.startCampaign .restore (some p)
          let run := r.run replay (natBit (c.fld 9 1) 0) (BitVec.ofNat 64 (c.fld 16 8)) i
          ((s1.clearState p).modPart p (fun x => { x with restore := some run }), .ok (rspFields [(40, 2, i)]))))

/-- RESHARD (0x63): the record is adopted, then the campaign starts (R282, R294; log 42). -/
def cmdReshard (c : Call) (s : State) : State × Result :=
  let n := c.fld 8 1
  let p := (partId? n).getD 0
  let x := s.part p
  let m := BitVec.ofNat 16 (c.fld 10 2)
  let r : Reshard := { members := m, parity := s.parity, rebuild := false, campaign := none, requester := none }
  guarded c s { used := [(8, 1), (10, 2)], p0 := true, config := true,
                bad := [(8, 63 < n), (10, m = 0 || m &&& ~~~s.joinedMask ≠ 0)] }
    (ordered s [(!s.exists_ p, .notFound), (x.reshard.isSome || x.restore.isSome, .busy),
        (maskCount m < s.parity + 1, .layout),
        (!s.placementFits p r.placement || s.streamsOver p m (s.streams p), .quota), (s.campaignsFull, .epochLimit)]
      (startAdoption c s s.record))

/-- RESTORE_QUERY (0x64): Table 13-4. -/
def cmdRestoreQuery (c : Call) (s : State) : State × Result :=
  guarded c s {}
    (match (s.part c.part).restore with
     | none => (s, .ok [])
     | some r => (s, .ok (rspFields [(8, 1, r.state), (9, 1, bit (r.records ≠ 0)),
         (10, 1, if r.state = 3 then 100 else if r.rawTotal = 0 then 0 else r.loaded * 100 / r.rawTotal),
         (11, 1, (statusCode r.status).toNat), (12, 4, r.poisoned), (16, 8, r.loaded), (24, 8, r.records)])))

/-- RESTORE_CLOSE (0x65): a running session's campaign ends and leaves an empty registry (R294). -/
def cmdRestoreClose (c : Call) (s : State) : State × Result :=
  let p := c.part
  guarded c s {}
    (match (s.part p).restore with
     | none => refuse s .notFound
     | some r =>
       let s1 := if r.state = 2 then (s.clearState p).endCampaign r.campaign else s
       (s1.modPart p (fun x => { x with restore := none }), .ok [BitVec.ofNat 8 (if r.state = 2 then 4 else r.state)]))

end Sys2Proof.Machine
end

