-- ==== Sys2Proof/Machine/Tide.lean ====
section
/-! DEFINITION. TIDE_SET, TIDE_QUERY, KV_CONFIG and KV_QUERY (11 Basic control, R16–R23, R258). -/

namespace Sys2Proof.Machine

/-- A turn starts: the personality changes, V0_TIDE is signalled on every partition, and the partitions that hold twins,
or that lend, are those the turn waits for (R16–R18, R256, R257). -/
def State.startTurn (s : State) (flood : Bool) (time : DWord) : State :=
  let waits := if flood then s.partMask (fun p => (s.part p).hasTwins) else s.tide.lending
  let t : Tide := { s.tide with flood := flood, turn := if flood then 1 else 2, held := 0, waits := waits, ready := 0,
                                count := s.tide.count + 1, started := time, completed := 0 }
  let s1 : State := ({ s with tide := t }).tideEvent
  if flood then s1
  else (s1.partIds.foldl (fun s p => s.modPart p (fun x => { x with nextFull := true })) s1).dropLent

/-- TIDE_SET (0x80): SC_BUSY during a turn, no action for the personality in force (R23, R258). -/
def cmdTideSet (c : Call) (s : State) : State × Result :=
  let flood := decide (c.fld 8 1 = 1)
  guarded c s { used := [(8, 1)], p0 := true, bad := [(8, 1 < c.fld 8 1)] }
    (ordered s [(s.tide.turn ≠ 0, .busy)]
      (let t := s.time c.eng
       (if flood = s.tide.flood then s else s.startTurn flood t, .ok (rspFields [(8, 8, t.toNat)]))))

/-- TIDE_QUERY (0x81), with Table 11-7. -/
def cmdTideQuery (c : Call) (s : State) : State × Result :=
  let t := s.tide
  guarded c s {}
    (s, .ok (rspFields [(8, 1, bit t.flood), (9, 1, t.turn), (16, 8, t.lending.toNat), (24, 8, t.held.toNat),
      (32, 8, t.started.toNat), (40, 8, t.completed.toNat), (48, 8, s.lentBytes)]))

/-- KV_CONFIG (0x82). -/
def cmdKvConfig (c : Call) (s : State) : State × Result :=
  guarded c s { used := [(8, 2)], bad := [(8, 4 < c.fld 8 1 && c.fld 8 1 ≠ 0xFF), (9, 4 < c.fld 9 1)] }
    (s.modPart c.part (fun x => { x with kvElem := byteAt c.cmd 8, kvMethod := byteAt c.cmd 9 }), .ok [])

/-- The bytes that a partition's units lose to slots that do not divide them, over engines (R249). -/
def Partition.kvOverhead (x : Partition) (m : BitVec 16) : Nat :=
  (((x.kv.filter (fun k => hasEngine m k.body)).map (fun k => (k.body, unitOf k.addr, k.raw))).dedup.map
    (fun u => unitBytes % u.2.2)).sum

/-- KV_QUERY (0x83), with Table 11-8; pages are counted on their body engine. -/
def cmdKvQuery (c : Call) (s : State) : State × Result :=
  let x := s.part c.part
  let mask := BitVec.ofNat 16 (c.fld 8 2)
  let m := enginesOr mask (s.members c.part)
  let ks := x.kv.filter (fun k => hasEngine m k.body)
  guarded c s { used := [(8, 2)], needs := mask, bad := [(8, mask &&& ~~~s.members c.part ≠ 0)] }
    (s, .ok (rspFields [(8, 8, ks.length), (16, 8, (ks.map KvPage.raw).sum), (24, 8, (ks.map (fun k => k.home.length)).sum),
      (32, 8, (ks.filter (fun k => k.hot.isSome)).length), (40, 8, (ks.filter KvPage.lent).length),
      (48, 8, (ks.filter KvPage.poisoned).length), (56, 8, x.kvOverhead m)]))

end Sys2Proof.Machine
end

