-- ==== Sys2Proof/Machine/Mailbox.lean ====
section
/-! DEFINITION. The mailbox: acceptance, the order in which commands start, what they run, their completion, and the
meaning of every mailbox command's row (R81–R90, R104, R105). -/

namespace Sys2Proof.Machine

/-- A reserved or undefined opcode (R12): the checks of R93 up to SC_INVALID_OPCODE. -/
def cmdInvalid (c : Call) (s : State) : State × Result :=
  if (s.eng c.eng).member.state = 5 then refuse s .noQuorum
  else if !s.joined c.eng then refuse s .notJoined
  else (s, .done .invalidOpcode 0 [])

/-- What a mailbox command does when it starts, by opcode. -/
def runCommand (c : Call) (s : State) : State × Result :=
  match c.op with
  | 0x01 => cmdIdentify c s
  | 0x02 => cmdGetLog c s
  | 0x03 => cmdSetFeature c s
  | 0x04 => cmdGetFeature c s
  | 0x10 => cmdFwDownload c s
  | 0x11 => cmdFwCommit c s
  | 0x12 => cmdFwActivate c s
  | 0x13 => cmdFwQuery c s
  | 0x20 => cmdFormat c s
  | 0x21 => cmdSanitise c s
  | 0x22 => cmdSanitiseStatus c s
  | 0x30 => cmdPartCreate c s
  | 0x31 => cmdPartDelete c s
  | 0x32 => cmdPartModify c s
  | 0x33 => cmdPartQuery c s
  | 0x34 => cmdPartReset c s
  | 0x35 => cmdQosSet c s
  | 0x36 => cmdQosQuery c s
  | 0x40 => cmdRegTensor c s
  | 0x41 => cmdRegClass c s
  | 0x42 => cmdStepPolicy c s
  | 0x43 => cmdReshape c s
  | 0x44 => cmdStateQuery c s
  | 0x45 => cmdTensorDrop c s
  | 0x50 => cmdEpochCut c s
  | 0x51 => cmdEpochCommit c s
  | 0x52 => cmdEpochRelease c s
  | 0x53 => cmdEpochQuery c s
  | 0x54 => cmdRebase c s
  | 0x60 => cmdRestoreOpen c s
  | 0x61 => cmdRestoreMap c s
  | 0x62 => cmdRestoreRun c s
  | 0x63 => cmdReshard c s
  | 0x64 => cmdRestoreQuery c s
  | 0x65 => cmdRestoreClose c s
  | 0x70 => cmdProgLoad c s
  | 0x71 => cmdProgUnload c s
  | 0x72 => cmdSpinLoad c s
  | 0x73 => cmdSpinUnload c s
  | 0x74 => cmdProgQuery c s
  | 0x80 => cmdTideSet c s
  | 0x81 => cmdTideQuery c s
  | 0x82 => cmdKvConfig c s
  | 0x83 => cmdKvQuery c s
  | 0x90 => cmdSecQuery c s
  | 0x91 => cmdProvision c s
  | 0x92 => cmdSeal c s
  | 0x93 => cmdRetire c s
  | 0x94 => cmdKeyLoad c s
  | 0x95 => cmdKeyGenerate c s
  | 0x96 => cmdKeyZeroise c s
  | 0x97 => cmdKeyBind c s
  | 0x98 => cmdKeeperChallenge c s
  | 0x99 => cmdKeeperRespond c s
  | 0x9A => cmdKeeperClose c s
  | 0xA0 => cmdMemberQuery c s
  | 0xA1 => cmdMemberExclude c s
  | 0xA2 => cmdMemberAdmit c s
  | 0xA3 => cmdTimeQuery c s
  | 0xA4 => cmdTimeSet c s
  | 0xA5 => cmdLeaseQuery c s
  | 0xA6 => cmdLeaseClaim c s
  | 0xA7 => cmdLeaseRelease c s
  | _ => cmdInvalid c s

/-! ### Which command starts next (R87, R104) -/

/-- A mailbox of an engine by its key. -/
def Engine.mbx (x : Engine) (k : MbxKey) : Mailbox :=
  match k with
  | some p => x.windows[p].mbx
  | none => x.redfish

/-- The mailboxes of an engine. -/
def mbxKeys : List MbxKey := none :: (List.finRange 64).map some

/-- Whether a command runs without an exit: in E3 the three of R104, elsewhere only in E0. -/
def PowerHeat.admits (w : PowerHeat) (op : Nat) : Bool := !w.low || (w.state = 3 && alwaysRuns op)

/-- Whether a command has started and not been posted. -/
def Job.running (j : Job) : Bool :=
  match j.phase with
  | .queued => false
  | _ => true

/-- Whether a job may start now. -/
def Job.startable (j : Job) (w : PowerHeat) : Bool :=
  match j.phase with
  | .queued => w.admits j.op
  | _ => false

/-- Whether a job would change what an epoch captures, behind a gate that is closed (R181): REG_TENSOR, STEP_POLICY, RESHAPE,
TENSOR_DROP. -/
def State.gated (s : State) (e : EngId) (j : Job) : Bool :=
  [0x40, 0x42, 0x43, 0x45].contains j.op && (s.part j.part).cut.any (fun d => hasEngine d.gates e)

/-- The accepted command of an engine that starts next: the earliest accepted one that may, while fewer than four run (R87). -/
def State.nextJob (s : State) (e : EngId) : Option (MbxKey × Job) :=
  let x := s.eng e
  let js := mbxKeys.filterMap (fun k => (x.mbx k).job.map (fun j => (k, j)))
  if 4 ≤ (js.filter (fun j => j.2.running)).length then none
  else (js.filter (fun j => j.2.startable x.power && !s.gated e j.2)).foldl (fun (r : Option (MbxKey × Job)) j => match r with
    | none => some j
    | some b => if j.2.order < b.2.order then some j else some b) none

/-- Whether a command that waits has had an effect by then (R68). -/
def JobWait.hasEffect (w : JobWait) : Bool :=
  match w with
  | .copier | .step | .pushes | .reshape | .engine | .view | .timeSet | .lane => false
  | _ => true

/-- The call of an accepted command. -/
def Job.call (j : Job) (e : EngId) (k : MbxKey) : Call :=
  { eng := e, key := k, part := j.part, path := j.path, cmd := j.cmd, buf := j.buf, fail := j.fail,
    flash := j.flash, late := j.late }

/-- A job after its start. -/
def Job.after (j : Job) (r : Result) : Job :=
  match r with
  | .done st err body => { j with phase := .ready (rspBytes j.cmd st err body), power := false }
  | .wait w => { j with phase := .waiting w, effect := w.hasEffect, power := false }

/-- A command starts: what it does, and the result in its mailbox. Rows that have left the LENT tier take their pages along
(log 31). -/
def State.runJob (s : State) (e : EngId) (k : MbxKey) (j : Job) : State :=
  let (s1, r) := runCommand (j.call e k) s
  s1.trimLent.modMailbox e k (fun m => { m with job := m.job.map (fun j => j.after r) })

/-- Start what may start on an engine; `fuel` bounds the mailboxes. -/
def State.startJobs (s : State) (e : EngId) : Nat → State
  | 0 => s
  | fuel + 1 => match s.nextJob e with
    | some (k, j) => (s.runJob e k j).startJobs e fuel
    | none => s

/-- Commands of a partition that wait for one of some things are tried again from their checks on. -/
def State.wakeJobs (s : State) (p : PartId) (ws : List JobWait) : State :=
  let again (j : Job) : Job := if j.part = p && ws.any (fun w => j.waitsFor w) then { j with phase := .queued } else j
  let s1 := s.modEngines 0xFFFF (fun _ x =>
    { x with redfish := { x.redfish with job := x.redfish.job.map again },
             windows := x.windows.map (fun w => { w with mbx := { w.mbx with job := w.mbx.job.map again } }) })
  (List.finRange 16).foldl (fun s e => s.startJobs e 65) s1

/-- What a command that is tried again may wait for: the copier, the step, pushes that run, a RESHAPE before it, a
new view, a digest lane. -/
def retryWaits : List JobWait := [.copier, .step, .pushes, .reshape, .engine, .lane]

/-- Whether a command of a partition waits to be tried again. -/
def State.retries (s : State) (p : PartId) : Bool :=
  s.engines.toList.any (fun x => (x.redfish.job.toList ++ x.windows.toList.filterMap (fun w => w.mbx.job)).any (fun j =>
    j.part = p && retryWaits.any (fun w => j.waitsFor w)))

/-- Commands that wait on what may have ended are tried again (log 122). -/
def State.retryJobs (s : State) (p : PartId) : State := if s.retries p then s.wakeJobs p retryWaits else s

/-! ### Acceptance (R82, R83, R401) -/

/-- Whether an access of a path reaches the window of a partition on an engine (R58, R61): the window exists, the engine
serves, and on an A-port the queue pair is ready and belongs to the partition. The functions of a fenced P-port are down
(Table 17-6). -/
def State.reachesWindow (s : State) (e : EngId) (p : PartId) (path : Path) : Bool :=
  s.hasWindow e p && s.serves e && (match path with
    | .aport q => (s.eng e).qpReady p q
    | .pport i => !((s.eng e).ports[(Fin.ofNat 22 (20 + i.val) : Fin 22)]).fenced
    | .redfish => false)

/-- The mailbox that a request goes to, and whether it gets there; the Redfish mailbox has partition 0's rights (R90). -/
def State.requestKey (s : State) (m : MbxReq) : Option (MbxKey × PartId) :=
  match m.path with
  | .redfish => if s.serves m.eng then some (none, 0) else none
  | path => if s.reachesWindow m.eng m.part path then some (some m.part, m.part) else none

/-- The 64 bytes of a command: its opcode, then bytes 1 to 63. -/
def commandBytes (op : Nat) (m : MbxReq) : List Byte := BitVec.ofNat 8 op :: padTo 63 m.body

/-- A command is accepted: MBX_CMD is copied, BUSY set, DONE cleared (R82). -/
def State.acceptMailbox (s : State) (m : MbxReq) (k : MbxKey) (p : PartId) (cmd : List Byte) : State :=
  let x := s.eng m.eng
  let j : Job := { cmd := cmd, part := p, path := m.path, buf := m.buf, fail := m.fail, flash := m.flash,
                   order := x.orderCount, phase := .queued, power := !x.power.admits (byteAt cmd 0).toNat, effect := false,
                   lost := false, since := s.now, late := s.shutdown.isSome }
  (s.modEng m.eng (fun x => { x with orderCount := x.orderCount + 1 })).modMailbox m.eng k
    (fun b => { b with cmd := cmd, done := false, job := some j })

/-- An accepted command wakes its engine unless R104 runs it at once in E3. -/
def State.wakeFor (s : State) (e : EngId) (op : Nat) : State :=
  if (s.eng e).power.state = 3 && alwaysRuns op then s else s.wake e

/-- The direct path of R107 and R401: Redfish runs the action on the SCM, without a mailbox. -/
def State.directAction (s : State) (m : MbxReq) (cmd : List Byte) : State :=
  let c : Call := { eng := m.eng, key := none, part := 0, path := .redfish, cmd := cmd, buf := m.buf, fail := m.fail,
                    flash := m.flash, late := s.shutdown.isSome }
  let (s1, r) := runCommand c s
  match r with
  | .done st err body => s1.send (.redfishMailbox m.eng (rspBytes cmd st err body))
  | .wait _ => s1

/-- A mailbox command arrives: its 64 bytes are written and the doorbell rung. During a partition reset the doorbell is
ignored (Table 3-7 step 2); while BUSY is 1 the writes are ignored and OVERRUN is set (R83). -/
def submitMailbox (op : Nat) (m : MbxReq) (s : State) : State :=
  let cmd := commandBytes op m
  if m.path = .redfish && s.runsDirect m.eng cmd && (s.eng m.eng).powered then s.directAction m cmd
  else match s.requestKey m with
  | none => s
  | some (k, p) =>
    if (s.mailbox m.eng k).job.isSome then s.modMailbox m.eng k (fun b => { b with overrun := true })
    else if (match k with | some q => (s.win m.eng q).resetting | none => false) then
      s.modMailbox m.eng k (fun b => { b with cmd := cmd })
    else ((s.acceptMailbox m k p cmd).wakeFor m.eng op).startJobs m.eng 65

/-! ### Completion -/

/-- What a command does at the moment it completes: an IDENTIFY fills the shelf structure (R97), and a TIME_SET takes effect, its
time of day carried forward from its acceptance (R318). -/
def State.atCompletion (s : State) (e : EngId) (k : MbxKey) : State :=
  match (s.mailbox e k).job with
  | some j =>
    let finish (r : State × Result) : State := r.1.modMailbox e k (fun m => { m with job := m.job.map (fun j => j.after r.2) })
    if j.waitsFor .view then finish (writeBuffer (j.call e k) s (s.shelfStruct e) [])
    else if j.waitsFor .timeSet then
      finish (s.timeSet (field j.cmd 8 8 + (s.now - j.since)) (field j.cmd 16 4), .ok [])
    else s
  | none => s

/-- MAILBOX_COMPLETION: a finished command is posted (R82), an IDENTIFY of the shelf and a TIME_SET with the effect of this moment
(R97, R318); the next accepted one starts (R87), and what waits behind this one in its partition is checked (R190, R286). -/
def execMailboxCompletion (e : EngId) (k : MbxKey) (s : State) : Host.Outcome State Fault Refusal :=
  .next (if (s.eng e).powered && !(s.eng e).fenced then
    let m := s.mailbox e k
    let s1 := (s.atCompletion e k).completeMailbox e k
    let s2 := match m.job with
      | some j => s1.retryJobs j.part
      | none => s1
    s2.startJobs e 65
  else s)

/-- FIRMWARE_HANG: 2 s without progress on an accepted command raise FW_HANG with master class 7, and the command gets no
response (R105); the management processor has stopped (R369). -/
def execFirmwareHang (e : EngId) (k : MbxKey) (s : State) : Host.Outcome State Fault Refusal :=
  .next (if (s.mailbox e k).job.isSome && (s.eng e).runs then
    ((s.modMailbox e k (fun m => { m with job := none })).modEng e (fun x => { x with hung := true })).mgmtFault e 0
  else s)

/-! ### The rows -/

/-- IDENTIFY: opcode 0x01 is submitted to the mailbox (R82). -/
def execIdentify (m : MbxReq) (s : State) : Host.Outcome State Fault Refusal := .next (submitMailbox 0x01 m s)

/-- GET_LOG: opcode 0x02 is submitted to the mailbox (R82). -/
def execGetLog (m : MbxReq) (s : State) : Host.Outcome State Fault Refusal := .next (submitMailbox 0x02 m s)

/-- SET_FEATURE: opcode 0x03 is submitted to the mailbox (R82). -/
def execSetFeature (m : MbxReq) (s : State) : Host.Outcome State Fault Refusal := .next (submitMailbox 0x03 m s)

/-- GET_FEATURE: opcode 0x04 is submitted to the mailbox (R82). -/
def execGetFeature (m : MbxReq) (s : State) : Host.Outcome State Fault Refusal := .next (submitMailbox 0x04 m s)

/-- FW_DOWNLOAD: opcode 0x10 is submitted to the mailbox (R82). -/
def execFwDownload (m : MbxReq) (s : State) : Host.Outcome State Fault Refusal := .next (submitMailbox 0x10 m s)

/-- FW_COMMIT: opcode 0x11 is submitted to the mailbox (R82). -/
def execFwCommit (m : MbxReq) (s : State) : Host.Outcome State Fault Refusal := .next (submitMailbox 0x11 m s)

/-- FW_ACTIVATE: opcode 0x12 is submitted to the mailbox (R82). -/
def execFwActivate (m : MbxReq) (s : State) : Host.Outcome State Fault Refusal := .next (submitMailbox 0x12 m s)

/-- FW_QUERY: opcode 0x13 is submitted to the mailbox (R82). -/
def execFwQuery (m : MbxReq) (s : State) : Host.Outcome State Fault Refusal := .next (submitMailbox 0x13 m s)

/-- FORMAT: opcode 0x20 is submitted to the mailbox (R82). -/
def execFormat (m : MbxReq) (s : State) : Host.Outcome State Fault Refusal := .next (submitMailbox 0x20 m s)

/-- SANITISE: opcode 0x21 is submitted to the mailbox (R82). -/
def execSanitise (m : MbxReq) (s : State) : Host.Outcome State Fault Refusal := .next (submitMailbox 0x21 m s)

/-- SANITISE_STATUS: opcode 0x22 is submitted to the mailbox (R82). -/
def execSanitiseStatus (m : MbxReq) (s : State) : Host.Outcome State Fault Refusal := .next (submitMailbox 0x22 m s)

/-- PART_CREATE: opcode 0x30 is submitted to the mailbox (R82). -/
def execPartCreate (m : MbxReq) (s : State) : Host.Outcome State Fault Refusal := .next (submitMailbox 0x30 m s)

/-- PART_DELETE: opcode 0x31 is submitted to the mailbox (R82). -/
def execPartDelete (m : MbxReq) (s : State) : Host.Outcome State Fault Refusal := .next (submitMailbox 0x31 m s)

/-- PART_MODIFY: opcode 0x32 is submitted to the mailbox (R82). -/
def execPartModify (m : MbxReq) (s : State) : Host.Outcome State Fault Refusal := .next (submitMailbox 0x32 m s)

/-- PART_QUERY: opcode 0x33 is submitted to the mailbox (R82). -/
def execPartQuery (m : MbxReq) (s : State) : Host.Outcome State Fault Refusal := .next (submitMailbox 0x33 m s)

/-- PART_RESET: opcode 0x34 is submitted to the mailbox (R82). -/
def execPartReset (m : MbxReq) (s : State) : Host.Outcome State Fault Refusal := .next (submitMailbox 0x34 m s)

/-- QOS_SET: opcode 0x35 is submitted to the mailbox (R82). -/
def execQosSet (m : MbxReq) (s : State) : Host.Outcome State Fault Refusal := .next (submitMailbox 0x35 m s)

/-- QOS_QUERY: opcode 0x36 is submitted to the mailbox (R82). -/
def execQosQuery (m : MbxReq) (s : State) : Host.Outcome State Fault Refusal := .next (submitMailbox 0x36 m s)

/-- REG_TENSOR: opcode 0x40 is submitted to the mailbox (R82). -/
def execRegTensor (m : MbxReq) (s : State) : Host.Outcome State Fault Refusal := .next (submitMailbox 0x40 m s)

/-- REG_CLASS: opcode 0x41 is submitted to the mailbox (R82). -/
def execRegClass (m : MbxReq) (s : State) : Host.Outcome State Fault Refusal := .next (submitMailbox 0x41 m s)

/-- STEP_POLICY: opcode 0x42 is submitted to the mailbox (R82). -/
def execStepPolicy (m : MbxReq) (s : State) : Host.Outcome State Fault Refusal := .next (submitMailbox 0x42 m s)

/-- RESHAPE: opcode 0x43 is submitted to the mailbox (R82). -/
def execReshape (m : MbxReq) (s : State) : Host.Outcome State Fault Refusal := .next (submitMailbox 0x43 m s)

/-- STATE_QUERY: opcode 0x44 is submitted to the mailbox (R82). -/
def execStateQuery (m : MbxReq) (s : State) : Host.Outcome State Fault Refusal := .next (submitMailbox 0x44 m s)

/-- TENSOR_DROP: opcode 0x45 is submitted to the mailbox (R82). -/
def execTensorDrop (m : MbxReq) (s : State) : Host.Outcome State Fault Refusal := .next (submitMailbox 0x45 m s)

/-- EPOCH_CUT: opcode 0x50 is submitted to the mailbox (R82). -/
def execEpochCut (m : MbxReq) (s : State) : Host.Outcome State Fault Refusal := .next (submitMailbox 0x50 m s)

/-- EPOCH_COMMIT: opcode 0x51 is submitted to the mailbox (R82). -/
def execEpochCommit (m : MbxReq) (s : State) : Host.Outcome State Fault Refusal := .next (submitMailbox 0x51 m s)

/-- EPOCH_RELEASE: opcode 0x52 is submitted to the mailbox (R82). -/
def execEpochRelease (m : MbxReq) (s : State) : Host.Outcome State Fault Refusal := .next (submitMailbox 0x52 m s)

/-- EPOCH_QUERY: opcode 0x53 is submitted to the mailbox (R82). -/
def execEpochQuery (m : MbxReq) (s : State) : Host.Outcome State Fault Refusal := .next (submitMailbox 0x53 m s)

/-- REBASE: opcode 0x54 is submitted to the mailbox (R82). -/
def execRebase (m : MbxReq) (s : State) : Host.Outcome State Fault Refusal := .next (submitMailbox 0x54 m s)

/-- RESTORE_OPEN: opcode 0x60 is submitted to the mailbox (R82). -/
def execRestoreOpen (m : MbxReq) (s : State) : Host.Outcome State Fault Refusal := .next (submitMailbox 0x60 m s)

/-- RESTORE_MAP: opcode 0x61 is submitted to the mailbox (R82). -/
def execRestoreMap (m : MbxReq) (s : State) : Host.Outcome State Fault Refusal := .next (submitMailbox 0x61 m s)

/-- RESTORE_RUN: opcode 0x62 is submitted to the mailbox (R82). -/
def execRestoreRun (m : MbxReq) (s : State) : Host.Outcome State Fault Refusal := .next (submitMailbox 0x62 m s)

/-- RESHARD: opcode 0x63 is submitted to the mailbox (R82). -/
def execReshard (m : MbxReq) (s : State) : Host.Outcome State Fault Refusal := .next (submitMailbox 0x63 m s)

/-- RESTORE_QUERY: opcode 0x64 is submitted to the mailbox (R82). -/
def execRestoreQuery (m : MbxReq) (s : State) : Host.Outcome State Fault Refusal := .next (submitMailbox 0x64 m s)

/-- RESTORE_CLOSE: opcode 0x65 is submitted to the mailbox (R82). -/
def execRestoreClose (m : MbxReq) (s : State) : Host.Outcome State Fault Refusal := .next (submitMailbox 0x65 m s)

/-- PROG_LOAD: opcode 0x70 is submitted to the mailbox (R82). -/
def execProgLoad (m : MbxReq) (s : State) : Host.Outcome State Fault Refusal := .next (submitMailbox 0x70 m s)

/-- PROG_UNLOAD: opcode 0x71 is submitted to the mailbox (R82). -/
def execProgUnload (m : MbxReq) (s : State) : Host.Outcome State Fault Refusal := .next (submitMailbox 0x71 m s)

/-- SPIN_LOAD: opcode 0x72 is submitted to the mailbox (R82). -/
def execSpinLoad (m : MbxReq) (s : State) : Host.Outcome State Fault Refusal := .next (submitMailbox 0x72 m s)

/-- SPIN_UNLOAD: opcode 0x73 is submitted to the mailbox (R82). -/
def execSpinUnload (m : MbxReq) (s : State) : Host.Outcome State Fault Refusal := .next (submitMailbox 0x73 m s)

/-- PROG_QUERY: opcode 0x74 is submitted to the mailbox (R82). -/
def execProgQuery (m : MbxReq) (s : State) : Host.Outcome State Fault Refusal := .next (submitMailbox 0x74 m s)

/-- TIDE_SET: opcode 0x80 is submitted to the mailbox (R82). -/
def execTideSet (m : MbxReq) (s : State) : Host.Outcome State Fault Refusal := .next (submitMailbox 0x80 m s)

/-- TIDE_QUERY: opcode 0x81 is submitted to the mailbox (R82). -/
def execTideQuery (m : MbxReq) (s : State) : Host.Outcome State Fault Refusal := .next (submitMailbox 0x81 m s)

/-- KV_CONFIG: opcode 0x82 is submitted to the mailbox (R82). -/
def execKvConfig (m : MbxReq) (s : State) : Host.Outcome State Fault Refusal := .next (submitMailbox 0x82 m s)

/-- KV_QUERY: opcode 0x83 is submitted to the mailbox (R82). -/
def execKvQuery (m : MbxReq) (s : State) : Host.Outcome State Fault Refusal := .next (submitMailbox 0x83 m s)

/-- SEC_QUERY: opcode 0x90 is submitted to the mailbox (R82). -/
def execSecQuery (m : MbxReq) (s : State) : Host.Outcome State Fault Refusal := .next (submitMailbox 0x90 m s)

/-- PROVISION: opcode 0x91 is submitted to the mailbox (R82). -/
def execProvision (m : MbxReq) (s : State) : Host.Outcome State Fault Refusal := .next (submitMailbox 0x91 m s)

/-- SEAL: opcode 0x92 is submitted to the mailbox (R82). -/
def execSeal (m : MbxReq) (s : State) : Host.Outcome State Fault Refusal := .next (submitMailbox 0x92 m s)

/-- RETIRE: opcode 0x93 is submitted to the mailbox (R82). -/
def execRetire (m : MbxReq) (s : State) : Host.Outcome State Fault Refusal := .next (submitMailbox 0x93 m s)

/-- KEY_LOAD: opcode 0x94 is submitted to the mailbox (R82). -/
def execKeyLoad (m : MbxReq) (s : State) : Host.Outcome State Fault Refusal := .next (submitMailbox 0x94 m s)

/-- KEY_GENERATE: opcode 0x95 is submitted to the mailbox (R82). -/
def execKeyGenerate (m : MbxReq) (s : State) : Host.Outcome State Fault Refusal := .next (submitMailbox 0x95 m s)

/-- KEY_ZEROISE: opcode 0x96 is submitted to the mailbox (R82). -/
def execKeyZeroise (m : MbxReq) (s : State) : Host.Outcome State Fault Refusal := .next (submitMailbox 0x96 m s)

/-- KEY_BIND: opcode 0x97 is submitted to the mailbox (R82). -/
def execKeyBind (m : MbxReq) (s : State) : Host.Outcome State Fault Refusal := .next (submitMailbox 0x97 m s)

/-- KEEPER_CHALLENGE: opcode 0x98 is submitted to the mailbox (R82). -/
def execKeeperChallenge (m : MbxReq) (s : State) : Host.Outcome State Fault Refusal := .next (submitMailbox 0x98 m s)

/-- KEEPER_RESPOND: opcode 0x99 is submitted to the mailbox (R82). -/
def execKeeperRespond (m : MbxReq) (s : State) : Host.Outcome State Fault Refusal := .next (submitMailbox 0x99 m s)

/-- KEEPER_CLOSE: opcode 0x9A is submitted to the mailbox (R82). -/
def execKeeperClose (m : MbxReq) (s : State) : Host.Outcome State Fault Refusal := .next (submitMailbox 0x9A m s)

/-- MEMBER_QUERY: opcode 0xA0 is submitted to the mailbox (R82). -/
def execMemberQuery (m : MbxReq) (s : State) : Host.Outcome State Fault Refusal := .next (submitMailbox 0xA0 m s)

/-- MEMBER_EXCLUDE: opcode 0xA1 is submitted to the mailbox (R82). -/
def execMemberExclude (m : MbxReq) (s : State) : Host.Outcome State Fault Refusal := .next (submitMailbox 0xA1 m s)

/-- MEMBER_ADMIT: opcode 0xA2 is submitted to the mailbox (R82). -/
def execMemberAdmit (m : MbxReq) (s : State) : Host.Outcome State Fault Refusal := .next (submitMailbox 0xA2 m s)

/-- TIME_QUERY: opcode 0xA3 is submitted to the mailbox (R82). -/
def execTimeQuery (m : MbxReq) (s : State) : Host.Outcome State Fault Refusal := .next (submitMailbox 0xA3 m s)

/-- TIME_SET: opcode 0xA4 is submitted to the mailbox (R82). -/
def execTimeSet (m : MbxReq) (s : State) : Host.Outcome State Fault Refusal := .next (submitMailbox 0xA4 m s)

/-- LEASE_QUERY: opcode 0xA5 is submitted to the mailbox (R82). -/
def execLeaseQuery (m : MbxReq) (s : State) : Host.Outcome State Fault Refusal := .next (submitMailbox 0xA5 m s)

/-- LEASE_CLAIM: opcode 0xA6 is submitted to the mailbox (R82). -/
def execLeaseClaim (m : MbxReq) (s : State) : Host.Outcome State Fault Refusal := .next (submitMailbox 0xA6 m s)

/-- LEASE_RELEASE: opcode 0xA7 is submitted to the mailbox (R82). -/
def execLeaseRelease (m : MbxReq) (s : State) : Host.Outcome State Fault Refusal := .next (submitMailbox 0xA7 m s)

/-- RESERVED_OPCODE: a doorbell with a reserved or undefined opcode (R12). -/
def execReservedOpcode (op : Byte) (m : MbxReq) (s : State) : Host.Outcome State Fault Refusal :=
  .next (submitMailbox op.toNat m s)

end Sys2Proof.Machine
end

