-- ==== Sys2Proof/Machine/ConfigApply.lean ====
section
/-! DEFINITION. What a configuration-changing command does once its record is current (R88, R301), and the adoption
phases CONFIG_PREPARE and CONFIG_COMMIT. -/

namespace Sys2Proof.Machine

/-- Answer the command that a change carries, while it waits for the adoption. -/
def State.answerAdoption (s : State) (a : Adoption) (body : List Byte) : State :=
  match a.src with
  | some (e, k) => s.answerConfig e k .ok body
  | none => s

/-- The command of a change goes on waiting for something else. -/
def State.deferAdoption (s : State) (a : Adoption) (w : JobWait) : State :=
  match a.src with
  | some (e, k) => s.modMailbox e k (fun m => { m with job := m.job.map (fun j =>
      if j.waitsFor .adoption then { j with phase := .waiting w } else j) })
  | none => s

/-- The engine that received the command of a change; the leader for the shelf's own. -/
def Adoption.engine (a : Adoption) : EngId := (a.src.map Prod.fst).getD a.leader

/-- A partition is created: fresh windows on its members and no state (R74, R80). -/
def State.createPartition (s : State) (p : PartId) : State :=
  (s.modEngines 0xFFFF (fun _ x => x.dropWindow p)).setPart p Partition.reset

/-- A partition's streams from a count on lose their registers (R75). -/
def State.cutStreams (s : State) (p : PartId) : State :=
  s.modEngines (s.members p) (fun _ x =>
    let w := x.windows[p]
    x.setWin p { w with streams := w.streams.filter (fun q => q.1 < s.streams p),
                        vmap := w.vmap.filter (fun q => q.1 < s.streams p) })

/-- The QoS settings of a partition's record entry govern on its members (R70). -/
def State.useQos (s : State) (p : PartId) : State :=
  match s.cfg p with
  | some c => s.modEngines c.members (fun e x => x.setWin p (c.applyQos e x.windows[p]))
  | none => s

/-- A re-shard of a partition onto members is asked for; it begins when it may. -/
def State.askReshard (s : State) (p : PartId) (m : BitVec 16) (src : Option (EngId × MbxKey)) : State :=
  let r : Reshard := { members := m, parity := s.parity, rebuild := false, campaign := none, requester := src }
  s.modPart p (fun x => { x with reshard := some r })

/-- A parity policy that changes decides anew which chains fuse (R165). -/
def State.refitPrograms (s : State) : State :=
  s.partIds.foldl (fun s p => s.modPart p (fun x => { x with programs := x.programs.map (fun g => g.refit (0 < s.parity)) })) s

/-- A parity policy that changes re-encodes every partition with tensors in place, in ascending partition ID; the command
waits for the last (R284). -/
def State.reencode (s : State) (a : Adoption) : State :=
  let ps := (List.finRange 64).filter (fun p => !(s.part p).tensors.isEmpty)
  if ps.isEmpty then s.answerAdoption a []
  else
    let s1 := ps.foldl (fun s p => s.askReshard p (s.members p) a.src) s
    (s1.deferAdoption a .reshard).kickReshards

/-- A SET_FEATURE takes effect on the engines of its scope (R102). -/
def State.useFeature (s : State) (a : Adoption) : State :=
  let fid := field a.cmd 8 2
  let es := if field a.cmd 10 1 = 1 then s.joinedMask else engineBit a.engine
  let v := if fid = 2 then a.cmd.drop 64 else slice a.cmd 16 32
  let was := s.parity
  let store := s.targets
  let s1 := s.applyFeature fid es a.part v
  match fid with
  | 2 =>
    let s2 := if sameStore store s1.targets then s1 else s1.leaveStore
    ((s2.useTargets.reconnect).attachAll).answerAdoption a (withDoneLen [] v.length)
  | 7 => if s1.parity = was then s1.answerAdoption a [] else s1.refitPrograms.reencode a
  | _ => s1.answerAdoption a []

/-- A lease is released: its record is written RELEASED with its allotments and NEXT_GEN (R317). -/
def State.releaseLease (s : State) : State :=
  let l := s.store.lease
  let s1 := ({ s with store := { s.store with lease := { l with seq := l.seq + 1 } } }).writeLease 2
  ({ s1 with store := { s1.store with lease := Lease.none } }).memberEvent 13 0xFF 0

/-- What a change does once its record is current. -/
def State.applyConfig (s : State) (a : Adoption) (old : ConfigRecord) : State :=
  let n := field a.cmd 8 1
  let p := (partId? n).getD 0
  let e := (engId? n).getD 0
  if a.cmd.isEmpty then s.membersAdopted a.part ((assocGet old.parts a.part.val).getD PartCfg.initial).members
  else match field a.cmd 0 1 with
  | 0x03 => s.useFeature a
  | 0x30 => (s.createPartition p).answerAdoption a []
  | 0x31 =>
    let s1 : State := match assocGet old.parts p.val with
      | some c => { s with record := s.record.setPart p c }
      | none => s
    (s1.deferAdoption a .resetDone).startReset p a.engine true true
  | 0x32 => (s.cutStreams p).answerAdoption a []
  | 0x35 => (s.useQos p).answerAdoption a []
  | 0x63 => ((s.deferAdoption a .reshard).askReshard p (BitVec.ofNat 16 (field a.cmd 10 2)) a.src).kickReshards
  | 0xA1 => (s.leave e 7 5).answerAdoption a []
  | 0xA2 =>
    let s1 := s.modEng e (fun x =>
      { x with record := if x.member.foreign || x.member.reason = 1 then none else x.record,
               member := { x.member with state := 1, reason := 0, foreign := false, offeredAt := s.now } })
    (s1.memberEvent 4 e.val 0).answerAdoption a []
  | 0xA6 => s.answerAdoption a [BitVec.ofNat 8 s.store.lease.slot]
  | 0xA7 => s.releaseLease.answerAdoption a []
  | _ => s.answerAdoption a []

/-- The record of a change becomes current on every engine of the view (R301). -/
def State.finishAdoption (s : State) (a : Adoption) : State :=
  let old := s.record
  let s1 : State := { s with record := a.record, adoption := none }
  let s2 := s1.modEngines s.joinedMask (fun _ x => { x with record := some a.record.seq })
  (s2.memberEvent 5 0xFF 0).applyConfig a old

/-- CONFIG_PREPARE: engines of the view write the new record as pending and acknowledge; once all have, the leader sends
COMMIT (R301). -/
def execConfigPrepare (answers : BitVec 16) (s : State) : Host.Outcome State Fault Refusal :=
  .next (match s.adoption with
  | none => s
  | some a =>
    if a.commit then s
    else
      let acked := a.acked ||| (answers &&& s.joinedMask)
      let all := s.joinedMask &&& ~~~acked = 0
      { s with adoption := some { a with acked := acked, commit := all, since := if all then s.now else a.since } })

/-- CONFIG_COMMIT: engines of the view make the pending record current; when every one has confirmed, the change takes
effect and its command completes (R301). -/
def execConfigCommit (answers : BitVec 16) (s : State) : Host.Outcome State Fault Refusal :=
  .next (match s.adoption with
  | none => s
  | some a =>
    if !a.commit then s
    else
      let current := a.current ||| (answers &&& s.joinedMask)
      if s.joinedMask &&& ~~~current = 0 then s.finishAdoption { a with current := current }
      else { s with adoption := some { a with current := current } })

end Sys2Proof.Machine
end

