-- ==== Sys2Proof/Machine/StreamOps.lean ====
section
/-! DEFINITION. Stream commands: their fields, acceptance and HALT, the checks they start with, range locks, waits and
tokens (05, 16, R93). -/

namespace Sys2Proof.Machine

/-! ### Fields of a command (Tables 5-1, 5-3) -/

/-- Opcodes whose data comes from the host. -/
def Slot.takesData (q : Slot) : Bool := [0x02, 0x03, 0x05, 0x09].contains q.op

/-- Whether a length is that of a tensor range (Table 5-3). -/
def rangeLen (n : Nat) : Bool := 8 ≤ n && n ≤ 2 ^ 32

/-- Whether the fields that an opcode leaves at 0 are 0: OFFSET and LENGTH, HADDR and HKEY. -/
def Slot.bare (q : Slot) : Bool := q.off = 0 && q.len = 0 && q.fld 0x28 8 = 0 && q.fld 0x0C 4 = 0

/-- The operands of an opcode as Table 5-3 gives them. -/
def Slot.operandsOk (q : Slot) : Bool :=
  match q.op with
  | 0x01 | 0x02 => q.obj < 2 ^ 32 && rangeLen q.len && q.epoch = 0
  | 0x03 | 0x04 => q.obj < 2 ^ 32 && rangeLen q.len
  | 0x05 => q.off = 0 && 4096 ≤ q.len && q.len ≤ 65536 && q.len % 4096 = 0 && q.epoch = 0
  | 0x06 => q.off = 0 && q.epoch = 0 && (q.len ≠ 0 || q.bare)
  | 0x07 => q.bare && q.epoch = 0
  | 0x08 => q.bare && q.epoch = 0 && q.obj = 0
  | 0x09 => q.obj < 4096 && q.off = 0 && 8 ≤ q.len && q.len ≤ 65536 && q.epoch = 0
  | 0x0A => q.obj < 4096 && q.off = 0 && 8 ≤ q.len && q.len ≤ 65536
  | _ => q.bare && q.epoch = 0 && q.obj ≤ 1

/-- A field error of a command (R11, R85, R116). -/
def Slot.fieldBad (q : Slot) : Bool :=
  q.fld 0x01 3 ≠ 0 || 1 < q.fld 0x04 1 / 2 || q.fld 0x05 1 ≠ 0 || q.fld 0x0A 2 ≠ 0 || q.fld 0x36 2 ≠ 0 ||
    (q.force && q.op ≠ 0x02 && q.op ≠ 0x09) || (q.op ≠ 0x03 && q.contrib ≠ 0) ||
    q.off % 8 ≠ 0 || q.len % 8 ≠ 0 || q.fld 0x28 8 % 8 ≠ 0 ||
    (q.fld 0x0C 4 ≠ 0 && (match q.path with | .pport _ => true | _ => false)) || !q.operandsOk

/-! ### Waits and slots -/

/-- No wait. -/
def Waits.none : Waits := { lock := false, token := false, power := false, state := false }

/-- The state with one slot updated. -/
def State.modSlot (s : State) (a : StreamAt) (i : Nat) (f : Slot → Slot) : State :=
  s.modStream a (fun x => { x with queue := x.queue.mapIdx (fun j q => if j = i then f q else q) })

/-- A slot's command waits. -/
def State.waitSlot (s : State) (a : StreamAt) (i : Nat) (w : Waits) : State := s.modSlot a i (fun q => { q with waits := w })

/-- A stream halts: commands that have not started complete with SC_STREAM_HALTED (R127). -/
def Stream.halt (x : Stream) : Stream := { (x.endSlots Slot.isQueued .streamHalted) with halted := true }

/-- The tokens of a pool that a stream's commands have taken without having started. -/
def Stream.queuedTokens (x : Stream) (i : Fin 4) : Nat := ((x.queue.filter Slot.isQueued).map (fun q => q.tokens[i])).sum

/-- Halt a stream; the tokens of the commands that this ends go back (R127, R71). -/
def State.haltStream (s : State) (a : StreamAt) : State :=
  (s.modEng a.eng (fun x => x.returnTokens (s.stream a).queuedTokens)).modStream a Stream.halt

/-- The tokens that a command has used of those it took: all of them when it did all it was asked, else those of the data
that it moved (R71). -/
def Slot.used (q : Slot) (sc : Status) (off : Nat) (i : Fin 4) : Nat :=
  if sc = .ok then (if q.op = 0x06 && q.len = 0 then 0 else q.tokens[i])
  else if i.val = opcodePool q.op then min q.tokens[i] (ceilDiv off 4096) else 0

/-- A c-block gives up its compression lane or its place in the queue for one. -/
def Engine.dropBlock (x : Engine) (b : CBlock) : Engine :=
  { x with clanes := x.clanes.map (fun l => if l = some b then none else l), cwaits := x.cwaits.filter (fun c => c ≠ b) }

/-- A command finishes: locks, its lane and unused tokens are released (R114), and a failure halts a stream with HALT_ON_ERR
(R126). -/
def State.finishSlot (s : State) (a : StreamAt) (i : Nat) (sc : Status) (off : Nat) : State :=
  match (s.stream a).queue[i]? with
  | none => s
  | some q =>
    let s1 := (s.modSlot a i (fun q => q.finish sc off)).modEng a.eng
      (fun x => (x.returnTokens (fun j => q.tokens[j] - q.used sc off j)).dropBlock (.kv a.part q.order))
    if sc ≠ .ok && (s.stream a).haltOnErr then s1.haltStream a else s1

/-! ### Checks at the start (R93, R112) -/

/-- The host-visible size of the object that an opcode ranges over. -/
def Slot.size (q : Slot) (t : Tensor) : Nat := if q.op = 0x03 then t.hostBytes else t.bytes

/-- Whether Table 6-1 admits an opcode for a class. -/
def classAdmits (op cls : Nat) : Bool :=
  match op with
  | 0x01 => true
  | 0x02 => [1, 2, 3, 6].contains cls
  | 0x03 => cls = 5
  | _ => cls = 0

/-- Whether an opcode ranges over a tensor. -/
def Slot.onTensor (q : Slot) : Bool := 1 ≤ q.op && q.op ≤ 4

/-- The riders that a command reads. -/
def Partition.ridersOf (x : Partition) (n : Nat) : List (Nat × List Byte) :=
  if n = 0 then x.riders else ((x.epoch? n).map (fun ep => ep.image.riders)).getD []

/-- Whether a push names a step or contributor out of range, or segments in part (R138, R144, R285). -/
def Partition.pushBad (x : Partition) (t : Tensor) (q : Slot) (reshaping : Bool) : Bool :=
  q.off % 4096 ≠ 0 || ((q.off + q.len) % 4096 ≠ 0 && q.off + q.len ≠ t.hostBytes) || x.step.completed = 2 ^ 48 - 1 ||
    x.step.completed + 2 < q.epoch || (!reshaping && x.step.contributors ≤ q.contrib)

/-- The segments that a push covers. -/
def Slot.segments (q : Slot) : List Nat := (List.range (ceilDiv q.len 4096)).map (fun i => q.off / 4096 + i)

/-- Whether a push comes too late: for a step done, a failed step, or a contributor that has pushed a segment already
(R138, R139, R154). -/
def Partition.pushLate (x : Partition) (t : Tensor) (q : Slot) : Bool :=
  q.epoch ≤ x.step.completed || x.step.phase = 4 ||
    (q.epoch = x.step.completed + 1 && q.segments.any (fun g => natBit (assocGetD t.bitmap g 0) q.contrib))

/-- The stream-log key of a partition on an engine: none without a DATA slot, else the slot's key when it holds one (R227,
R404). -/
def State.logKey (s : State) (p : PartId) (e : EngId) : Option (Option (List Byte)) :=
  match (s.cfg p).bind PartCfg.dslot with
  | some d => (s.keyOf e p d 3).map (fun k => some k.key)
  | none => some none

/-- An accepted command that has not finished, and where it stands. -/
structure OpenSlot where
  eng : EngId
  stream : Nat
  idx : Nat
  slot : Slot
  deriving DecidableEq, Repr

/-- Every accepted command of a partition that has not finished. -/
def State.openSlots (s : State) (p : PartId) : List OpenSlot :=
  (List.finRange 16).flatMap (fun e => (s.win e p).streams.flatMap (fun x =>
    (x.2.queue.zipIdx.filter (fun q => !q.1.isFinished)).map (fun q =>
      { eng := e, stream := x.1, idx := q.2, slot := q.1 })))

/-- Whether the stream log has no space for a durable write of a length beside those that have started and hold space (R227; log
133). -/
def State.logShort (s : State) (p : PartId) (e : EngId) (len : Nat) : Bool :=
  !s.logRoom p e (len :: ((s.openSlots p).filter (fun o => o.eng = e && o.slot.phase = .running && o.slot.durable)).map
    (fun o => o.slot.len))

/-- Whether the volume that holds an engine's stream log of a partition can be reached; volume 0 where there is no log yet
(R133, R227). -/
def State.logReach (s : State) (p : PartId) (e : EngId) : Bool :=
  (s.genOf p).elim (s.reaches 0) (fun g => s.reaches (ptrVol (genLog g.2 e.val)))

/-- Whether a command's object or log has no room for it (R145, R227, R250). -/
def State.quotaStop (s : State) (a : StreamAt) (q : Slot) : Bool :=
  let x := s.part a.part
  (q.op = 0x09 && 2 ^ 26 < ((assocDel x.riders q.obj).map (fun r => r.2.length)).sum + q.len) ||
    (q.op = 0x05 && (s.dirEngine a.part (BitVec.ofNat 64 q.obj)).isSome &&
      (s.putPage a.part (BitVec.ofNat 64 q.obj) q.len []).isNone) ||
    (q.durable && s.logReach a.part a.eng && s.mayWrite && s.logShort a.part a.eng q.len)

/-- Items 1 to 3 of R112: class, existence, range, with the push rules of 06. -/
def State.objectStop (s : State) (p : PartId) (q : Slot) : Option Status :=
  let x := s.part p
  if q.onTensor then
    match x.tensor? q.obj with
    | none => some .notFound
    | some t =>
      if !classAdmits q.op t.cls then some .notPermitted
      else if q.op = 0x04 && q.epoch < x.step.completed then some .notFound
      else if q.size t < q.off + q.len then some .invalidField
      else if q.op = 0x03 then
        (if x.policy.isNone || x.needProgram then some .notPermitted
         else if x.pushBad t q (s.reshaping p) then some .invalidField
         else if x.pushLate t q then some .notPermitted
         else none)
      else none
  else match q.op with
  | 0x06 => match x.page? (BitVec.ofNat 64 q.obj) with
    | none => some .notFound
    | some k => if q.len ≠ 0 && q.len ≠ k.raw then some .invalidField else none
  | 0x07 => if (x.page? (BitVec.ofNat 64 q.obj)).isNone then some .notFound else none
  | 0x0A => match assocGet (x.ridersOf q.epoch) q.obj with
    | none => some .notFound
    | some r => if r.length ≠ q.len then some .invalidField else none
  | _ => none

/-- Whether a command is a push, put or drop, which a store-class stream does not take (Table 5-3). -/
def Slot.memoryOnly (q : Slot) : Bool := [0x03, 0x05, 0x07].contains q.op

/-- Whether a command's own bytes are in error, so that it has no range to lock and nothing to wait for (R11, R12, R116). -/
def Slot.malformed (q : Slot) : Bool := q.op = 0 || 0x0B < q.op || q.fieldBad

/-- The status of a command on an engine that is not in the view (R93 step 1). -/
def State.viewStop (s : State) (e : EngId) : Option Status :=
  if (s.eng e).member.state = 5 then some .noQuorum else if !s.joined e then some .notJoined else none

/-- The first condition of R112 that a command meets whatever it names: the view, its opcode, its fields. -/
def State.streamForm (s : State) (a : StreamAt) (q : Slot) : Option Status :=
  if (s.viewStop a.eng).isSome then s.viewStop a.eng
  else if q.op = 0 || 0x0B < q.op then some .invalidOpcode
  else if q.fieldBad then some .invalidField
  else none

/-- The first status that stops a command before it starts (R93, R112, R293, R414). -/
def State.streamCheck (s : State) (a : StreamAt) (q : Slot) : Option Status :=
  if (s.streamForm a q).isSome then s.streamForm a q
  else if (s.part a.part).restoring && q.op ≠ 0x08 && q.op ≠ 0x0B then some .notPermitted
  else if q.memoryOnly && q.storeClass then some .notPermitted
  else match s.objectStop a.part q with
  | some st => some st
  | none => firstStatus [(s.sanitiseRefuses a.part 0xFF, .sanitiseActive), (s.quotaStop a q, .quota),
      (q.durable && (s.logKey a.part a.eng).isNone, .keyEmpty),
      (q.op = 0x05 && (s.dirEngine a.part (BitVec.ofNat 64 q.obj)).isNone, .fenced)]

/-! ### Acceptance (R109, R110) and HALT -/

/-- A new slot. -/
def newSlot (x : Stream) (path : Path) (order : Nat) : Slot :=
  { task := x.task, path := path, storeClass := x.storeClass, order := order, phase := .queued, waits := Waits.none,
    lockAt := none, lockOn := 0, data := [], dataFail := false, tokens := Vector.replicate 4 0 }

/-- 1 is written to STK_GO: the command is accepted, ignored with OVERRUN at DEPTH 8, or ignored during a partition reset
(R109, R110, Table 3-7 step 2). On a halted stream it completes at once under R127; during an orderly shutdown with
SC_NOT_PERMITTED (R418). -/
def State.goStream (s : State) (a : StreamAt) (path : Path) : State :=
  let x := s.stream a
  if (s.win a.eng a.part).resetting then s
  else if 8 ≤ x.queue.length then s.modStream a (fun x => { x with overrun := true })
  else
    let q := newSlot x path (s.eng a.eng).orderCount
    let s1 := (s.modEng a.eng (fun y => { y with orderCount := y.orderCount + 1 })).modStream a
      (fun x => { x with queue := x.queue ++ [q] })
    if x.halted then s1.finishSlot a x.queue.length .streamHalted 0
    else if s.shutdown.isSome then s1.finishSlot a x.queue.length ((s.streamForm a q).getD .notPermitted) 0
    else s1.wake a.eng

/-- Bits [1:0] written to STK_CTRL: HALT, RESUME, or both, which is ignored and sets OVERRUN (R127, R128). -/
def State.controlStream (s : State) (a : StreamAt) (w : Nat) : State :=
  if natBit w 0 && natBit w 1 then s.modStream a (fun x => { x with overrun := true })
  else if natBit w 0 then s.haltStream a
  else if natBit w 1 then s.modStream a (fun x => { x with halted := false })
  else s

/-- Writing 1 to DONE: the posted completion is acknowledged, its slot freed (R114). -/
def Stream.acknowledge (x : Stream) : Stream :=
  if x.done then { x with done := false, queue := x.queue.drop 1 } else x

/-! ### Range locks (R129, R130) -/

/-- A range lock: kind 0 READ, 1 WRITE, 2 ACCUMULATE; object kind 0 tensor, 1 page, 2 rider; object; stored range. -/
structure RangeLock where
  kind : Nat
  cls : Nat
  obj : Nat
  lo : Nat
  hi : Nat
  deriving DecidableEq, Repr

/-- Whether a later lock waits for an earlier one (Table 5-4). -/
def RangeLock.waitsFor (a b : RangeLock) : Bool :=
  !(a.kind = b.kind && a.kind ≠ 1) && a.cls = b.cls && a.obj = b.obj && a.lo < b.hi && b.lo < a.hi

/-- The lock of a command (Table 5-3). A push locks the stored range of its elements. -/
def Slot.lock (q : Slot) (x : Partition) : Option RangeLock :=
  match q.op with
  | 0x01 | 0x04 => some { kind := 0, cls := 0, obj := q.obj, lo := q.off, hi := q.off + q.len }
  | 0x02 => some { kind := 1, cls := 0, obj := q.obj, lo := q.off, hi := q.off + q.len }
  | 0x03 =>
    let w := ((x.tensor? q.obj).map Tensor.hostElem).getD 4
    some { kind := 2, cls := 0, obj := q.obj, lo := q.off / w * 4, hi := (q.off + q.len) / w * 4 }
  | 0x05 | 0x07 => some { kind := 1, cls := 1, obj := q.obj, lo := 0, hi := 65536 }
  | 0x06 => some { kind := 0, cls := 1, obj := q.obj, lo := 0, hi := 65536 }
  | 0x09 => some { kind := 1, cls := 2, obj := q.obj, lo := 0, hi := 65536 }
  | 0x0A => some { kind := 0, cls := 2, obj := q.obj, lo := 0, hi := 65536 }
  | _ => none

/-- Whether a command stands before another for locks: accepted earlier on the same stream, or with an earlier lock
request on another one (R129). -/
def OpenSlot.before (o : OpenSlot) (a : StreamAt) (i : Nat) (at_ : Nat) : Bool :=
  if o.eng = a.eng && o.stream = a.stream then o.idx < i else o.slot.lockAt.any (fun n => n < at_)

/-- The engine and pool address that hold a tensor's stored byte. -/
def Tensor.byteAddr (t : Tensor) (off : Nat) : EngId × Nat :=
  let k := off / t.stripeBytes
  let pl := t.home k
  let e := pl.dataEngine k
  (e, pl.addr e (k / pl.data * t.stripeBytes + off % t.stripeBytes))

/-- The rows that a micro-program entry steps through from an array address: COUNT rows, or the one row of a constant source
(R197, Table 9-6). -/
def entryRows (e : EngId) (addr count : Nat) : List (Nat × Nat) :=
  if 1000 ≤ bits addr 16 7 then [(e.val, addr)] else (List.range count).map (fun i => (e.val, addr + i * 128))

/-- Field of a micro-program entry (Table 9-6). -/
def nmxField (b : BitVec 128) (off len : Nat) : Nat := b.toNat / 2 ^ (8 * off) % 2 ^ (8 * len)

/-- How many sources an operation has (Table 9-1). -/
def nmxSources (op : Nat) : Nat :=
  if [0x04, 0x05, 0x06, 0x12, 0x13, 0x14].contains op then 2
  else if [0x01, 0x07, 0x10, 0x15].contains op then 1
  else 0

/-- The entries of a micro-program from an entry up to its LAST entry; `fuel` is 1,024. -/
def Nmx.program (n : Nmx) : Nat → Nat → List (Nat × BitVec 128)
  | 0, _ => []
  | fuel + 1, i =>
    let b : BitVec 128 := assocGetD n.entries i 0
    if 1024 ≤ i then [] else if natBit (nmxField b 1 1) 0 then [(i, b)] else (i, b) :: n.program fuel (i + 1)

/-- The rows that a running program writes. -/
def Nmx.writes (n : Nmx) (e : EngId) : List (Nat × Nat) :=
  n.prog.flatMap (fun (_, b) => entryRows e (nmxField b 4 4) (nmxField b 2 2))

/-- The rows that a running program reads. -/
def Nmx.reads (n : Nmx) (e : EngId) : List (Nat × Nat) :=
  n.prog.flatMap (fun (_, b) =>
    (if 1 ≤ nmxSources (nmxField b 0 1) then entryRows e (nmxField b 8 4) (nmxField b 2 2) else []) ++
      (if nmxSources (nmxField b 0 1) = 2 then entryRows e (nmxField b 12 4) (nmxField b 2 2) else []))

/-- The rank row that really holds a stored byte of a tensor, as (engine, array address) (R200, R360). -/
def State.rowOf (s : State) (t : Tensor) (off : Nat) : Nat × Nat :=
  let a := t.byteAddr off
  (a.1.val, (arrayWord (undoAddr ((s.eng a.1).phys a.2))).toNat)

/-- Whether a lock of a partition touches a row. -/
def RangeLock.onRow (l : RangeLock) (s : State) (p : PartId) (r : Nat × Nat) : Bool :=
  l.cls = 0 && ((s.part p).tensor? l.obj).any (fun t => (List.range (l.hi - l.lo)).any (fun i => s.rowOf t (l.lo + i) = r))

/-- Whether a lock conflicts with the locks of a running micro-program (R214). -/
def State.nmxBlocks (s : State) (p : PartId) (l : RangeLock) : Bool :=
  (List.finRange 16).any (fun e =>
    let n := (s.win e p).nmx
    n.locked && ((n.writes e).any (l.onRow s p) || (l.kind ≠ 0 && (n.reads e).any (l.onRow s p))))

/-- The READ locks of a digest job: for each tensor one that spans its fragments (R264). -/
def DgxRun.locks (r : DgxRun) : List RangeLock :=
  let fs := r.frags.filter (fun f => f.space = 0)
  ((fs.map Fragment.id).dedup).map (fun t =>
    let own := fs.filter (fun f => f.id = t)
    { kind := 0, cls := 0, obj := t.toNat, lo := own.foldl (fun m f => min m f.off.toNat) (2 ^ 64),
      hi := own.foldl (fun m f => max m (f.off.toNat + f.len)) 0 })

/-- Whether a lock asked for at some time conflicts with the READ locks that a digest job holds or asked for before (R129, R264). -/
def State.dgxBlocks (s : State) (p : PartId) (at_ : Nat) (l : RangeLock) : Bool :=
  l.kind ≠ 0 && (List.finRange 16).any (fun e => (s.win e p).dgx.run.any (fun r =>
    r.lockAt.any (fun n => n < at_) && r.locks.any (fun m => l.waitsFor m)))

/-- Whether a command's lock waits for an earlier command, micro-program or digest job. -/
def State.lockBlocked (s : State) (a : StreamAt) (i at_ : Nat) (l : RangeLock) : Bool :=
  (s.openSlots a.part).any (fun o => o.before a i at_ && (o.slot.lock (s.part a.part)).any (fun m => l.waitsFor m)) ||
    s.nmxBlocks a.part l || s.dgxBlocks a.part at_ l

/-- The stripes of a range of stored bytes. -/
def Tensor.stripesIn (t : Tensor) (lo hi : Nat) : List Nat :=
  let f := lo / t.stripeBytes
  (List.range (ceilDiv hi t.stripeBytes - f)).map (fun i => f + i)

/-- The engines that hold part of a lock's range: data engines of a tensor range, directory and body of a page, the
accepting engine for a rider (log 46). -/
def State.lockEngines (s : State) (a : StreamAt) (l : RangeLock) : BitVec 16 :=
  let x := s.part a.part
  match l.cls with
  | 0 => match x.tensor? l.obj with
    | some t => engineMask ((t.stripesIn l.lo l.hi).map (fun k => (t.home k).dataEngine k))
    | none => 0
  | 1 =>
    let key := BitVec.ofNat 64 l.obj
    (((s.dirEngine a.part key).map engineBit).getD 0) ||| ((((x.page? key).filter (fun k => !s.lost k.body)).map (fun k => engineBit k.body)).getD 0)
  | _ => engineBit a.eng

/-- Shared range-lock entries of an engine that are free (R130). -/
def State.sharedLocks (s : State) (e : EngId) : Nat :=
  let ps := s.partsOn e
  2048 - 4 * ps.length - (ps.map (fun q => s.partLocks q e - 4)).sum

/-- Whether a command that asked for its locks before some time waits for a shared entry of an engine and for nothing else. -/
def State.sharedAwaited (s : State) (e : EngId) (at_ : Nat) : Bool :=
  (s.partsOn e).any (fun p => 4 ≤ s.partLocks p e && (s.openSlots p).any (fun o =>
    o.slot.lockOn = 0 && o.slot.lockAt.any (fun n => n < at_ &&
      (o.slot.lock (s.part p)).any (fun l =>
        let a : StreamAt := { eng := o.eng, part := p, stream := o.stream }
        hasEngine (s.lockEngines a l) e && !s.lockBlocked a o.idx n l))))

/-- Whether an engine's range-lock table has some entries for a request of a partition: of its four reserved ones, then shared
ones, first come first served (R130). -/
def State.lockFree (s : State) (p : PartId) (e : EngId) (at_ count : Nat) : Bool :=
  let own := 4 - s.partLocks p e
  count ≤ own || (count ≤ own + s.sharedLocks e && !s.sharedAwaited e at_)

/-! ### Waits for shelf state -/

/-- The 4 KiB blocks of engines' pools that hold a range of stored bytes, and with `par` its parity. -/
def Tensor.blocksOf (t : Tensor) (lo hi : Nat) (par : Bool) : List (Nat × Nat) :=
  ((List.range (hi - lo)).flatMap (fun i =>
    let off := lo + i
    let k := off / t.stripeBytes
    let pl := t.home k
    let j := k / pl.data * t.stripeBytes + off % t.stripeBytes
    let es := pl.dataEngine k :: (if par then (List.range pl.parity).map (fun m => pl.parityEngine (k / pl.data) m) else [])
    es.map (fun e => (e.val, pl.addr e j / 4096)))).dedup

/-- The blocks that a command writes, parity among them, or reads as a WEIGHT_PULL; a MASTER range comes with its WEIGHT ranges
(R132, R135, R182). -/
def State.copyBlocks (s : State) (p : PartId) (q : Slot) : List (Nat × Nat) :=
  let x := s.part p
  if q.op ≠ 0x02 && q.op ≠ 0x04 then []
  else match x.tensor? q.obj with
  | none => []
  | some t =>
    t.blocksOf q.off (q.off + q.len) (q.op = 0x02) ++
      (if q.op = 0x02 && t.cls = 1 then ((x.dependants t.id).filter (fun w => w.cls = 0)).flatMap (fun w =>
        w.blocksOf (w.at_ (q.off / 4)) (w.at_ (ceilDiv (q.off + q.len) 4)) true) else [])

/-- Whether a command waits for the copier (R132, R182). -/
def State.copierHolds (s : State) (p : PartId) (q : Slot) : Bool :=
  (s.part p).epochs.any (fun ep => ep.state = 1 && (s.copyBlocks p q).any (fun b => !ep.isCopied b))

/-- The blocks of the pool that a command reads or writes: of a tensor range, or of the page that it gets, drops, or puts where it
would be placed now (R205). -/
def State.poolBlocks (s : State) (p : PartId) (q : Slot) : List (Nat × Nat) :=
  let x := s.part p
  let key := BitVec.ofNat 64 q.obj
  let page (k : KvPage) : List (Nat × Nat) :=
    (List.range ((k.addr % 4096 + k.raw + 4095) / 4096)).map (fun i => (k.body.val, k.addr / 4096 + i))
  match q.op with
  | 0x01 | 0x02 | 0x04 => ((x.tensor? q.obj).map (fun t => t.blocksOf q.off (q.off + q.len) (q.op = 0x02))).getD []
  | 0x03 => ((x.tensor? q.obj).map (fun t =>
      t.blocksOf (q.off / t.hostElem * 4) ((q.off + q.len) / t.hostElem * 4) false)).getD []
  | 0x05 => ((s.putPage p key q.len []).bind (fun s1 => ((s1.part p).page? key).map page)).getD []
  | 0x06 => ((x.page? key).filter (fun k => q.len ≠ 0 && k.hot.isNone)).elim [] page
  | _ => []

/-- Whether a block lies on a channel in PROCESSOR mode (R205). -/
def State.inWindow (s : State) (b : Nat × Nat) : Bool :=
  let x := s.eng (Fin.ofNat 16 b.1)
  (x.channels[(Fin.ofNat 16 (channelOf (x.phys (4096 * b.2))) : Fin 16)]).processor

/-- Opcodes that change a partition's state, which a closed gate holds (R181). -/
def Slot.changes (q : Slot) : Bool := [0x02, 0x03, 0x05, 0x07, 0x09].contains q.op

/-- What holds a command whether or not it has started: an update phase (R141), a channel in PROCESSOR mode (R205), and an engine that
has left or cannot be reached until the new view has formed (R299). -/
def State.accessHolds (s : State) (a : StreamAt) (q : Slot) : Bool :=
  ((s.part a.part).step.phase = 3 && [0x01, 0x02, 0x09, 0x0A].contains q.op) ||
    (s.poolBlocks a.part q).any (fun b => s.inWindow b || s.awaitsView a.eng (Fin.ofNat 16 b.1))

/-- Whether a command waits for shelf state before it starts: the gate of a cut (R181), the copier (R132), an access (R141, R205),
a step (R118, R138), a RESHAPE (R285), the lease behind a durable write and the end of step 9 (R316, R408). -/
def State.stateHolds (s : State) (a : StreamAt) (q : Slot) : Bool :=
  let x := s.part a.part
  let st := x.step
  (q.changes && x.cut.any (fun d => hasEngine d.gates a.eng)) || s.copierHolds a.part q || s.accessHolds a q ||
    (q.op = 0x04 && st.completed < q.epoch && !(st.phase = 4 && q.epoch = st.completed + 1)) ||
    (q.op = 0x03 && (s.reshaping a.part || q.epoch = st.completed + 2 || st.phase = 2 || st.phase = 3)) ||
    (q.durable && (!s.store.step9 || (s.logReach a.part a.eng && !s.mayWrite)))

/-- Whether the A-port of a command's queue pair pauses: the shelf's RoCE traffic is taken to be on the lossless priority, which R34
does not say (DESIGN CHOICE, log 135). -/
def State.paused (s : State) (e : EngId) (path : Path) : Bool :=
  match path with
  | .aport n => (s.eng e).qps.any (fun q => q.num = n &&
      (let c := (s.eng e).ports[(Fin.ofNat 22 q.port : Fin 22)]; c.pfcOn && s.now < c.pausedUntil))
  | _ => false

/-- Whether a FENCE ahead of a command holds it, or the command is a FENCE or FLUSH that has more to wait for (R119). -/
def State.fenceHolds (s : State) (a : StreamAt) (i : Nat) (q : Slot) : Bool :=
  let ahead := (s.stream a).queue.take i
  ahead.any (fun o => o.op = 0x0B && !o.isFinished) ||
    (q.op = 0x08 && ahead.any (fun o => (o.op = 0x02 || o.op = 0x09) && !o.isFinished)) ||
    (q.op = 0x0B && (ahead.any (fun o => !o.isFinished) ||
      (q.obj = 1 && (s.win a.eng a.part).streams.any (fun x => x.2.queue.any (fun o => o.order < q.order && !o.isFinished)))))

/-! ### Tokens (R70, R71) -/

/-- The state with one QoS pool of a window updated. -/
def State.modPool (s : State) (e : EngId) (p : PartId) (i : Fin 4) (f : QosPool → QosPool) : State :=
  s.modWin e p (fun w => { w with qos := w.qos.set i.val (f w.qos[i]) i.isLt })

/-- A command takes tokens of one pool from its bucket, up to what it needs there. -/
def State.takeTokens (s : State) (a : StreamAt) (i : Nat) (pool : Fin 4) (need : Nat) : State :=
  match (s.stream a).queue[i]? with
  | none => s
  | some q =>
    let n := min (need - q.tokens[pool]) ((s.win a.eng a.part).qos[pool]).tokens
    (s.modPool a.eng a.part pool (fun b => { b with tokens := b.tokens - n })).modSlot a i
      (fun q => { q with tokens := q.tokens.set pool.val (q.tokens[pool] + n) pool.isLt })

/-- A command takes what it can of all that it draws. -/
def State.takeAllTokens (s : State) (a : StreamAt) (i : Nat) (q : Slot) : State :=
  q.needs.foldl (fun s n => if h : n.1 < 4 then s.takeTokens a i ⟨n.1, h⟩ n.2 else s) s

/-- Tokens of STORE that a partition's campaign takes on an engine, of `need` (R72). -/
def State.payStore (s : State) (e : EngId) (p : PartId) (need : Nat) : Nat × State :=
  let n := min need ((s.win e p).qos[(2 : Fin 4)]).tokens
  (n, s.modPool e p 2 (fun b => { b with tokens := b.tokens - n }))

/-! ### Compression lanes (R341, R259) -/

/-- Whether a compression lane is fenced. -/
def Engine.clanefenced (x : Engine) (i : Nat) : Bool := (x.flt[(3 : Fin 11)]).isFenced i

/-- Whether the user of a compression lane still needs one: a running restore on a member, a shard of a drain that has not been
written, a KV command that has not finished. -/
def State.blockLive (s : State) (e : EngId) (b : CBlock) : Bool :=
  match b with
  | .restore p => (s.part p).restoring && hasEngine (s.members p) e
  | .drain p n i => ((s.part p).epoch? n).any (fun ep => ep.drain && ep.campaign.isSome && ep.state < 5 &&
      (ep.shards[i]?).any (fun h => h.phase = 0 && h.objLen ≠ 0 && s.keyEngine h.src = e))
  | .kv p n => (s.win e p).streams.any (fun x => x.2.queue.any (fun q => q.order = n && !q.isFinished))

/-- Users that are gone leave the lanes and the queue, the users of fenced lanes wait again, and each running restore of a member
has a c-block there (R259, R341, R350). -/
def State.pruneLanes (s : State) (e : EngId) : State :=
  s.modEng e (fun x =>
    let evicted := (List.finRange 32).filterMap (fun i =>
      if x.clanefenced i.val then x.clanes[i].filter (s.blockLive e) else none)
    let lanes := Vector.ofFn (fun (i : Fin 32) => if x.clanefenced i.val then none else x.clanes[i].filter (s.blockLive e))
    let waits := evicted ++ x.cwaits.filter (s.blockLive e)
    let rs := (s.partIds.map CBlock.restore).filter (fun b => s.blockLive e b && !lanes.contains (some b) && !waits.contains b)
    { x with clanes := lanes, cwaits := waits ++ rs })

/-- Partitions in the order in which the lanes serve their KV c-blocks: ascending, from the one after the last served. -/
def Engine.kvOrder (x : Engine) : List PartId :=
  ((List.finRange 64).filter (fun p => x.kvTurn < p.val)) ++ ((List.finRange 64).filter (fun p => p.val ≤ x.kvTurn))

/-- The waiting c-block that a lane takes next (R341): those of restores and drains come first. -/
def Engine.nextBlock (x : Engine) : Option CBlock :=
  (x.cwaits.find? (fun b => match b with | .kv _ _ => false | _ => true)) <|>
    (x.kvOrder.findSome? (fun p => x.cwaits.find? (fun b => match b with | .kv q _ => q = p | _ => false)))

/-- One free lane takes the next waiting c-block; which of the free lanes is a free value (log 3). -/
def State.fillLane (s : State) (e : EngId) : State :=
  let x := s.eng e
  match x.nextBlock with
  | none => s
  | some b =>
    let free := (List.range 32).filter (fun i => !x.clanefenced i && (x.clanes.toList.getD i none).isNone)
    match s.pick free with
    | (some i, s1) => s1.modEng e (fun x =>
        { x with clanes := x.clanes.mapIdx (fun j l => if j = i then some b else l), cwaits := x.cwaits.filter (fun c => c ≠ b),
                 kvTurn := match b with | .kv p _ => p.val | _ => x.kvTurn })
    | (none, _) => s

/-- A c-block asks for a lane of an engine, behind those that wait; whether it holds one now (R341). -/
def State.codecLane (s : State) (e : EngId) (b : CBlock) : State × Bool :=
  let s1 := s.pruneLanes e
  let x := s1.eng e
  let s2 := if x.clanes.contains (some b) || x.cwaits.contains b then s1
    else s1.modEng e (fun x => { x with cwaits := x.cwaits ++ [b] })
  let s3 := (List.range 32).foldl (fun s _ => s.fillLane e) s2
  (s3, (s3.eng e).clanes.contains (some b))

end Sys2Proof.Machine
end

