-- ==== Sys2Proof/Machine/StreamCmds.lean ====
section
/-! DEFINITION. What each stream command does once it has started, and what it leaves when it fails (05 R116–R133, 06, 11
R247–R253). -/

namespace Sys2Proof.Machine

/-- A stream command as it runs: where its stream stands, the command, and what fails outside the shelf. -/
structure Run where
  at_ : StreamAt
  slot : Slot
  fail : TransferFail
  deriving DecidableEq, Repr

/-- The end of a command: the state, its status and STK_FAIL_OFFSET. -/
abbrev Ended := State × Status × Nat

/-- A command that ends without effect and with nothing moved. -/
def stopped (s : State) (sc : Status) : Ended := (s, sc, 0)

/-- Met poison sets POISON and V0_FAULT of the partition on its engine (R133, R433). -/
def Run.metPoison (r : Run) (s : State) : State := s.pfltEvent r.at_.eng r.at_.part 2

/-- Deliver what a reading command has read, up to a failed transfer (R123, R133). `stop` is what ended the reading early. The rest of
the host buffer then holds an unspecified mixture of old and new contents, as a Delivery says (R124). -/
def Run.deliverRead (r : Run) (s : State) (data : List Byte) (stop : Option Status) : Ended :=
  let d : Delivery := { eng := r.at_.eng, part := r.at_.part, path := r.slot.path, addr := BitVec.ofNat 64 (r.slot.fld 0x28 8),
                        key := BitVec.ofNat 32 (r.slot.fld 0x0C 4), bytes := [], mixed := 0 }
  let cut := match r.fail.host with
    | some h => if h < data.length then some h else none
    | none => none
  match cut with
  | some h => (s.deliver { d with bytes := data.take h, mixed := r.slot.len - h }, .invalidField, h)
  | none =>
    let s1 := s.deliver { d with bytes := data, mixed := if stop.isSome then r.slot.len - data.length else 0 }
    match stop with
    | some sc => (if sc = .poisoned then r.metPoison s1 else s1, sc, data.length)
    | none => (s1, .ok, r.slot.len)

/-! ### Tensor commands -/

/-- READ (0x01). An ACCUM tensor reads as its partial sums. -/
def runRead (r : Run) (s : State) : Ended :=
  match (s.part r.at_.part).tensor? r.slot.obj with
  | none => stopped s .notFound
  | some t =>
    let x := s.readable t r.slot.off r.slot.len
    if t.cls = 5 then
      r.deliverRead s (Memory.readBytes t.accMemory r.slot.off x.1.length) x.2
    else r.deliverRead s x.1 x.2

/-- WEIGHT_PULL (0x04): WEIGHT as it stands after the step; SC_POISONED for the step that failed (R142, R154). -/
def runWeightPull (r : Run) (s : State) : Ended :=
  let x := s.part r.at_.part
  match x.tensor? r.slot.obj with
  | none => stopped s .notFound
  | some t =>
    if x.step.completed < r.slot.epoch then stopped s .poisoned
    else r.deliverRead s (s.readable t r.slot.off r.slot.len).1 (s.readable t r.slot.off r.slot.len).2

/-- The bytes at and beyond a failure hold a mixture of old and new contents (R124): for each byte a free value says whether
it changed; a new byte that the shelf does not have is a free value too (log 3). -/
def mixBytes (old : List Byte) (new : List (Option Byte)) (w : Nat) : List Byte :=
  old.zipIdx.map (fun (b, i) =>
    if natBit (w / 2 ^ (9 * i)) 8 then (new.getD i none).getD (BitVec.ofNat 8 (w / 2 ^ (9 * i))) else b)

/-- Draw the free value of a mixture. -/
def State.mix (s : State) (old : List Byte) (new : List (Option Byte)) : List Byte × State :=
  (mixBytes old new (s.draw (9 * old.length)).1.toNat, (s.draw (9 * old.length)).2)

/-- A WRITE that failed after `n` bytes: those are in place, and what follows in the range is a mixture as far as it can be
written at all (R124). -/
def Run.partWrite (r : Run) (s : State) (t : Tensor) (n : Nat) : State :=
  let p := r.at_.part
  let s1 := s.writeTensor p t r.slot.off (r.slot.data.take n)
  let tail := (s1.readable t (r.slot.off + n) (r.slot.len - n)).1
  let new := (List.range tail.length).map (fun i => r.slot.data[n + i]?)
  let (bs, s2) := s1.mix tail new
  s2.writeTensor p t (r.slot.off + n) bs

/-- The data of a durable write goes to the store medium as one stream-log record (R121, R122, R227); SC_MEDIUM_ERROR where the volume
of the log cannot be reached or the write fails there (R133). -/
def Run.logWrite (r : Run) (s : State) : State × Status :=
  let p := r.at_.part
  let e := r.at_.eng
  if r.fail.store || !s.logReach p e then (s, .mediumError)
  else match s.logKey p e with
  | none => (s, .keyEmpty)
  | some key => match s.appendLog p e r.slot.op r.slot.obj r.slot.off r.slot.data key with
    | some s1 => (s1, .ok)
    | none => (s, .quota)

/-- A durable write takes its log record first. One that the store medium does not take leaves its whole range a mixture (R124). -/
def Run.durably (r : Run) (s : State) (effect mixed : State → State) : Ended :=
  if !r.slot.durable then (effect s, .ok, r.slot.len)
  else match r.logWrite s with
  | (s1, .ok) => (effect s1, .ok, r.slot.len)
  | (s1, .mediumError) => (mixed s1, .mediumError, 0)
  | (s1, sc) => stopped s1 sc

/-- WRITE (0x02). -/
def runWrite (r : Run) (s : State) : Ended :=
  match (s.part r.at_.part).tensor? r.slot.obj with
  | none => stopped s .notFound
  | some t =>
    let (n, bad) := s.writable t r.slot.off r.slot.data.length
    match bad with
    | some sc => (if sc = .poisoned then r.metPoison (r.partWrite s t n) else r.partWrite s t n, sc, n)
    | none =>
      if r.slot.dataFail then (r.partWrite s t n, .invalidField, n)
      else r.durably s (fun s => s.writeTensor r.at_.part t r.slot.off r.slot.data) (fun s => r.partWrite s t 0)

/-- Add a contributor's elements to the sums of an ACCUM tensor and set its bits (R139, R288). -/
def Tensor.push (t : Tensor) (q : Slot) : Tensor :=
  let xs := decodeElems ((formatOf t.hostFmt).getD .fp32) q.data
  let first := q.off / t.hostElem
  let segs := q.segments
  { t with sums := xs.zipIdx.foldl (fun m (x, i) => assocSet m (first + i) ((t.accAt (first + i)).add x)) t.sums,
           bitmap := segs.foldl (fun m g => assocSet m g (assocGetD m g 0 ||| 2 ^ q.contrib)) t.bitmap,
           pushes := segs.foldl (fun m g => assocSet m g (assocGetD m g 0 + 1)) t.pushes }

/-- Whether a stripe is on an engine that is lost, in a group beyond its parity (R133). -/
def State.stripeDead (s : State) (t : Tensor) (k : Nat) : Bool :=
  s.groupDead (t.home k) (k / (t.home k).data) && s.missing (t.home k) ((t.home k).dataEngine k)

/-- How many bytes of a push in host format come before the first that its engines cannot serve; none when they can serve all
(R133). -/
def State.pushStop (s : State) (t : Tensor) (q : Slot) : Option Nat :=
  ((t.stripesIn (q.off / t.hostElem * 4) ((q.off + q.len) / t.hostElem * 4)).find? (s.stripeDead t)).map (fun k =>
    k * t.stripeElems * t.hostElem - q.off)

/-- GRAD_PUSH (0x03): wholly or not at all; a failure says how far the transfer got (R125, R138, R139). -/
def runGradPush (r : Run) (s : State) : Ended :=
  let p := r.at_.part
  if r.slot.dataFail then (s, .invalidField, r.slot.data.length)
  else match s.objectStop p r.slot, (s.part p).tensor? r.slot.obj with
  | some sc, _ => (s, sc, r.slot.data.length)
  | none, none => (s, .notFound, r.slot.data.length)
  | none, some t =>
    match s.pushStop t r.slot with
    | some n => (s, .fenced, n)
    | none =>
      (((s.modTensor p t.id (fun t => t.push r.slot)).modPart p (fun x =>
        { x with step := { x.step with phase := if x.step.phase = 0 then 1 else x.step.phase } })).trimHots t.place.members, .ok,
        r.slot.len)

/-! ### Pages -/

/-- The directory engine that a KV_PUT locked: of the engines of its locks the first in the list order of its key (R129, R248). -/
def State.lockedDir (s : State) (p : PartId) (q : Slot) : Option EngId :=
  (s.keyOrder p (BitVec.ofNat 64 q.obj)).find? (hasEngine q.lockOn)

/-- KV_PUT (0x05): the page is coded under the partition's KV_CONFIG and placed (R251); wholly or not at all, and a failure says how
far the transfer got (R125). One whose directory engine is fenced after its locks were granted ends with SC_FENCED (Table 11-9). -/
def runKvPut (r : Run) (s : State) : Ended :=
  let p := r.at_.part
  let x := s.part p
  let key := BitVec.ofNat 64 r.slot.obj
  if r.slot.dataFail then (s, .invalidField, r.slot.data.length)
  else if (s.lockedDir p r.slot).all s.lost then (s, .fenced, r.slot.data.length)
  else match s.putPage p key r.slot.len (encodeCBlock x.kvMethod.toNat x.kvElem.toNat r.slot.data) with
    | some s1 => (s1, .ok, r.slot.len)
    | none => (s, .quota, r.slot.data.length)

/-- The compression fault of a damaged page (R247): source 0 after a repair, 1 when it stays poisoned. -/
def Run.pageFault (r : Run) (s : State) (src : Fin 32) (off : Nat) (sc : Status) : State :=
  s.detect r.at_.eng
    { plainFault 3 src 0 with master := 0x4000, access := 0x7, part := some r.at_.part, status := statusCode sc,
                              addr := BitVec.ofNat 64 (r.slot.fld 0x28 8 + off) }



/-- A page whose c-block fails its checks: the command gets the failing status; the other copy repairs the page, or it stays
poisoned (R247). -/
def Run.repairPage (r : Run) (s : State) (k : KvPage) (f : DecodeFail) (other : Option (List Byte)) : Ended :=
  let p := r.at_.part
  match other.filter (fun c => (decodeCBlock c k.raw none).isOk) with
  | some c =>
    (r.pageFault (s.modPart p (fun x => x.putPage { k with home := c, hot := k.hot.map (fun _ => c), poisoned := false })) 0
      (failPosition f k.raw) f.status, f.status, 0)
  | none =>
    (r.pageFault (r.metPoison (s.modPart p (fun x => x.putPage { k with poisoned := true }))) 1
      (failPosition f k.raw) f.status, f.status, 0)

/-- KV_GET (0x06): from the hot copy, else the home copy, which leaves a hot copy behind when stage memory allows (R252); a probe
moves nothing (R117). -/
def runKvGet (r : Run) (s : State) : Ended :=
  let p := r.at_.part
  match (s.part p).page? (BitVec.ofNat 64 r.slot.obj) with
  | none => stopped s .notFound
  | some k =>
    if k.poisoned then (r.metPoison s, .poisoned, 0)
    else if r.slot.len = 0 then (s, .ok, k.raw)
    else match decodeCBlock (k.hot.getD k.home) k.raw none with
    | .error f => r.repairPage s k f (if k.hot.isSome then some k.home else none)
    | .ok raw => r.deliverRead (s.warmPage p k.key) raw none

/-- KV_DROP (0x07). -/
def runKvDrop (r : Run) (s : State) : Ended :=
  let key := BitVec.ofNat 64 r.slot.obj
  if ((s.part r.at_.part).page? key).isNone then stopped s .notFound
  else (s.modPart r.at_.part (fun x => x.delPage key), .ok, r.slot.len)

/-! ### Riders -/

/-- RIDER_PUT (0x09) replaces the whole rider (R145); a failed one leaves a mixture beyond its last good byte (R124). -/
def runRiderPut (r : Run) (s : State) : Ended :=
  let p := r.at_.part
  let id := r.slot.obj
  if r.slot.dataFail then
    let n := r.slot.data.length
    let old := slice (assocGetD (s.part p).riders id []) n (r.slot.len - n)
    let (bs, s1) := s.mix old []
    (s1.modPart p (fun x => { x with riders := assocSet x.riders id (r.slot.data ++ bs) }), .invalidField, n)
  else
    let old := padTo r.slot.len (assocGetD (s.part p).riders id [])
    r.durably s (fun s => s.modPart p (fun x => { x with riders := assocSet x.riders id r.slot.data }))
      (fun s =>
        let (bs, s1) := s.mix old (r.slot.data.map some)
        s1.modPart p (fun x => { x with riders := assocSet x.riders id bs }))

/-- RIDER_GET (0x0A): the live rider, or the one that an epoch in flight captured (R145). -/
def runRiderGet (r : Run) (s : State) : Ended :=
  match assocGet ((s.part r.at_.part).ridersOf r.slot.epoch) r.slot.obj with
  | none => stopped s .notFound
  | some b => r.deliverRead s b none

/-- FLUSH and FENCE have nothing left to do once nothing holds them (R119). -/
def runFlush (r : Run) (s : State) : Ended := (s, .ok, r.slot.len)

/-- What a started stream command does, by opcode. -/
def runStream (r : Run) (s : State) : Ended :=
  match r.slot.op with
  | 0x01 => runRead r s
  | 0x02 => runWrite r s
  | 0x03 => runGradPush r s
  | 0x04 => runWeightPull r s
  | 0x05 => runKvPut r s
  | 0x06 => runKvGet r s
  | 0x07 => runKvDrop r s
  | 0x09 => runRiderPut r s
  | 0x0A => runRiderGet r s
  | _ => runFlush r s

/-! ### Starting and going on (R112, R127, R129, R131) -/

/-- Other engines that hold part of a command's range and are in a low state (R131). -/
def State.lowEngines (s : State) (a : StreamAt) (q : Slot) : BitVec 16 :=
  match q.lock (s.part a.part) with
  | some l => engineMask ((maskEngines (s.lockEngines a l)).filter (fun e => !s.lost e && (s.eng e).power.low))
  | none => 0

/-- Whether the host data of a command is complete, or its transfer failed. -/
def Slot.dataDone (q : Slot) : Bool := !q.takesData || q.dataFail || q.len ≤ q.data.length

/-- Whether a command sends data to a host buffer. -/
def Slot.sends (q : Slot) : Bool := [0x01, 0x04, 0x0A].contains q.op || (q.op = 0x06 && q.len ≠ 0)

/-- What holds a command that has started: an update phase, a channel in PROCESSOR mode, and for a durable write a lost lease (R141,
R205, R316). -/
def State.runHolds (s : State) (a : StreamAt) (q : Slot) : Bool :=
  s.accessHolds a q || (q.durable && !q.dataFail && s.logReach a.part a.eng && !s.mayWrite)

/-- A command whose page must be coded asks for a compression lane of its engine (R341). -/
def State.codes (s : State) (a : StreamAt) (q : Slot) : State × Bool :=
  if (q.op = 0x05 && !q.dataFail) || (q.op = 0x06 && q.len ≠ 0) then s.codecLane a.eng (.kv a.part q.order) else (s, true)

/-- A command that holds its locks: it draws tokens and, once nothing holds it and its data is complete, does its work. -/
def State.proceed (s : State) (a : StreamAt) (i : Nat) (fail : TransferFail) : State :=
  match (s.stream a).queue[i]? with
  | none => s
  | some q =>
    if s.runHolds a q then s.waitSlot a i { Waits.none with state := true }
    else
      let s1 := s.takeAllTokens a i q
      match (s1.stream a).queue[i]? with
      | none => s1
      | some q1 =>
        if !q1.dataFail && q1.lacks.isSome then s1.waitSlot a i { Waits.none with token := true }
        else if !q1.dataDone || (q1.sends && s1.paused a.eng q1.path) then s1.waitSlot a i Waits.none
        else
          let c := s1.codes a q1
          if !c.2 then c.1.waitSlot a i { Waits.none with state := true }
          else
            let r := runStream { at_ := a, slot := q1, fail := fail } c.1
            let s2 := r.1.finishSlot a i r.2.1 r.2.2
            if q1.op = 0x03 then s2.wakeJobs a.part [.pushes] else s2

/-- A command asks for its locks: all of them or none (R129, R130). -/
def State.askLocks (s : State) (a : StreamAt) (i : Nat) (l : RangeLock) : State × Bool :=
  match (s.stream a).queue[i]? with
  | none => (s, false)
  | some q =>
    if q.lockOn ≠ 0 then (s, true)
    else
      let n := q.lockAt.getD s.lockOrder
      let s1 : State := if q.lockAt.isSome then s else { s with lockOrder := s.lockOrder + 1 }
      let es := s1.lockEngines a l
      if s1.lockBlocked a i n l || (maskEngines es).any (fun e => !s1.lockFree a.part e n 1) then
        (s1.modSlot a i (fun q => { q with lockAt := some n, waits := { Waits.none with lock := true } }), false)
      else (s1.modSlot a i (fun q => { q with lockAt := some n, lockOn := es }), true)

/-- Whether a queued command can start now: its engines are awake, it has its locks and waits for no shelf state, and only then do the
checks of R112 decide whether it starts or ends (R127). A command whose own bytes are wrong, or whose engine is outside the view, has
no range and ends at once. -/
def State.begin (s : State) (a : StreamAt) (i : Nat) (q : Slot) : State × Bool :=
  if (s.viewStop a.eng).isSome || q.malformed then (s.finishSlot a i ((s.streamCheck a q).getD .invalidField) 0, false)
  else if s.lowEngines a q ≠ 0 then
    ((s.wakeAll (s.lowEngines a q)).waitSlot a i { Waits.none with power := true }, false)
  else
    let r := match q.lock (s.part a.part) with
      | some l => s.askLocks a i l
      | none => (s, true)
    if !r.2 then r
    else if r.1.stateHolds a q then (r.1.waitSlot a i { Waits.none with state := true }, false)
    else match r.1.streamCheck a q with
      | some sc => (r.1.finishSlot a i sc 0, false)
      | none => (r.1, true)

/-- A queued command starts, or one that has started goes on. -/
def State.tryStream (s : State) (a : StreamAt) (i : Nat) (fail : TransferFail) : State :=
  match (s.stream a).queue[i]? with
  | none => s
  | some q =>
    if q.isFinished || !(s.eng a.eng).runs || s.fenceHolds a i q then s
    else if (s.eng a.eng).power.low then (s.wake a.eng).waitSlot a i { Waits.none with power := true }
    else if q.isQueued then
      let r := s.begin a i q
      if r.2 then r.1.proceed a i fail else r.1
    else s.proceed a i fail

/-- A read of host data that the shelf issues for a command: HOST_IN tokens must cover it; the command has started from then on, and
asks for a compression lane as soon as its page is complete (R127, R337, R341). -/
def State.fetchInto (s : State) (a : StreamAt) (i : Nat) (data : List Byte) (fail : Bool) : State :=
  match (s.stream a).queue[i]? with
  | none => s
  | some q =>
    let n := min data.length (q.len - q.data.length)
    let need := ceilDiv (q.data.length + n) 4096
    let s1 := s.takeTokens a i 0 need
    match (s1.stream a).queue[i]? with
    | none => s1
    | some q1 =>
      if q1.tokens[0] < need then s1.waitSlot a i { Waits.none with token := true }
      else
        let q2 := { q1 with data := q1.data ++ data.take n, dataFail := fail, phase := .running, waits := Waits.none }
        let s2 := s1.modSlot a i (fun _ => q2)
        if q2.dataDone then (s2.codes a q2).1 else s2

/-- Host data arrives for a command (R337): at most 4 MiB at a time, over a port that does not pause. -/
def State.fetchData (s : State) (a : StreamAt) (i : Nat) (data : List Byte) (fail : Bool) : State :=
  match (s.stream a).queue[i]? with
  | none => s
  | some q =>
    if !q.takesData || q.isFinished || q.dataFail || s.fenceHolds a i q || !(s.eng a.eng).runs || (s.eng a.eng).power.low ||
        4194304 < min data.length (q.len - q.data.length) || s.paused a.eng q.path then s
    else if q.isQueued then
      let r := s.begin a i q
      if r.2 then r.1.fetchInto a i data fail else r.1
    else s.fetchInto a i data fail

/-! ### Posting (R113) -/

/-- The head of a stream's queue, when it has finished and DONE is 0. -/
def Stream.postable (x : Stream) : Option (Slot × Status × Nat) :=
  if x.done then none
  else match x.queue.head? with
  | some q => match q.phase with
    | .finished sc off => some (q, sc, off)
    | _ => none
  | none => none

/-- The status registers take a completion (R113). -/
def Stream.post (x : Stream) (q : Slot) (sc : Status) (off : Nat) : Stream :=
  { x with failOffset := BitVec.ofNat 64 off, doneTag := q.tag, doneCount := x.doneCount + 1, lastSc := statusCode sc,
           done := true }

/-- The vector of a stream: the stream vector map's byte when it is 2–31 (03). -/
def Window.vectorOf (w : Window) (n : Nat) : Option (Fin 32) :=
  let b := (assocGetD w.vmap n 0xFF).toNat
  if h : b < 32 then (if 2 ≤ b then some ⟨b, h⟩ else none) else none

/-- The oldest command of a stream is posted, and its vector signalled unless SILENT is set (R113). -/
def State.postStream (s : State) (a : StreamAt) : State :=
  match (s.stream a).postable with
  | none => s
  | some (q, sc, off) =>
    let s1 := s.modStream a (fun x => x.post q sc off)
    match (s.win a.eng a.part).vectorOf a.stream with
    | some v => if q.silent then s1 else s1.signal a.eng a.part v 0 a.stream
    | none => s1

end Sys2Proof.Machine
end

