-- ==== Sys2Proof/Machine/Optimiser.lean ====
section
/-! DEFINITION. The arithmetic of the stock optimiser families: the gradient of an element, the statistics phase, MOMENTUM,
ADAPTIVE and KRONECKER (06, R141, R151, R163). Each operation of Table 6-5 is one FP32 operation, taken in the order
in which the table writes it (log 61). -/

namespace Sys2Proof.Machine

/-! ### Gradients and statistics -/

/-- The dependant of a MASTER that serves a class: the one with the lowest ID (log 62). -/
def Partition.companion (x : Partition) (m : Tensor) (cls : Nat) : Option Tensor :=
  ((x.sorted.filter (fun t => t.cls = cls && t.parent = m.id))).head?

/-- The sum of element `i` of an ACCUM tensor, under RESCALE multiplied by FP32(C_new ÷ n) of its segment, then multiplied
by GRAD_SCALE (R141, R288). -/
def Partition.scaledSum (x : Partition) (t : Tensor) (i : Nat) : Word :=
  let w := (t.accAt i).word
  let w1 := match x.step.scale with
    | some c => mul32 w (div32 (natTo32 c) (natTo32 (assocGetD t.pushes (i / t.segElems) 0)))
    | none => w
  mul32 w1 x.step.gscale

/-- First element and count of stripe `k`. -/
def Tensor.stripeSpan (t : Tensor) (k : Nat) : Nat × Nat := (k * t.per, min t.per (t.elems - k * t.per))

/-- Scaled sums of one stripe of an ACCUM tensor. -/
def Partition.stripeSums (x : Partition) (t : Tensor) (k : Nat) : List Word :=
  (List.range (t.stripeSpan k).2).map (fun i => x.scaledSum t ((t.stripeSpan k).1 + i))

/-- ACCUM tensors in ascending ID. -/
def Partition.accums (x : Partition) : List Tensor := x.sorted.filter (fun t => t.cls = 5)

/-- Whether some scaled sum is not finite (R143). -/
def Partition.foundNonfinite (x : Partition) : Bool :=
  x.accums.any (fun t => (List.range t.stripes).any (fun k => (x.stripeSums t k).any (fun w => !isFinite32 w)))

/-- The global norm of the scaled sums: the stripes of each tensor in the order of R163, the tensors in ascending ID. -/
def Partition.gradNorm (x : Partition) : Word :=
  sqrt32 (combineStripes add32 (x.accums.map (fun t =>
    combineStripes add32 ((List.range t.stripes).map (fun k => sumSq64 (x.stripeSums t k))))))

/-- The clip factor min(1, CLIP_NORM ÷ ‖g‖); a CLIP_NORM of 0 turns clipping off (Table 6-4, R151). -/
def Partition.clipFactor (x : Partition) (pol : List Byte) : Word :=
  let c := polWord pol 44
  let n := x.gradNorm
  if val32 c = .fin false 0 || val32 c = .fin true 0 then one32 else if lt32 c n then div32 c n else one32

/-- The gradient of one element as the update uses it; 0 where a MASTER has no ACCUM (log 62). -/
def Partition.gradOf (x : Partition) (acc : Option Tensor) (i : Nat) : Word :=
  match acc with
  | some t => if x.step.clip = one32 then x.scaledSum t i else mul32 (x.scaledSum t i) x.step.clip
  | none => 0

/-! ### MOMENTUM and ADAPTIVE (Table 6-5) -/

/-- The parameters of a policy that the families use, with `t` of R151. -/
structure StepArgs where
  lr : Word
  beta1 : Word
  beta2 : Word
  eps : Word
  decay : Word
  t : Nat
  deriving DecidableEq, Repr

/-- The parameters of a policy. -/
def stepArgs (pol : List Byte) (t : Nat) : StepArgs :=
  { lr := polWord pol 24, beta1 := polWord pol 28, beta2 := polWord pol 32, eps := polWord pol 36,
    decay := polWord pol 40, t := t }

/-- w − LR·(d + WEIGHT_DECAY·w). -/
def StepArgs.descend (a : StepArgs) (w d : Word) : Word := sub32 w (mul32 a.lr (add32 d (mul32 a.decay w)))

/-- m ← β1·m + g. -/
def StepArgs.momentum (a : StepArgs) (m g : Word) : Word := add32 (mul32 a.beta1 m) g

/-- m ← β1·m + (1 − β1)·g. -/
def StepArgs.first (a : StepArgs) (m g : Word) : Word :=
  add32 (mul32 a.beta1 m) (mul32 (sub32 one32 a.beta1) g)

/-- v ← β2·v + (1 − β2)·g². -/
def StepArgs.second (a : StepArgs) (v g : Word) : Word :=
  add32 (mul32 a.beta2 v) (mul32 (sub32 one32 a.beta2) (mul32 g g))

/-- A power of an FP32 value: the exact power, rounded once to nearest even (Table 6-5; log 61). -/
def pow32 (x : Word) (t : Nat) : Word :=
  match val32 x with
  | .fin n m => fp32OfRat (n && t % 2 = 1) (signedVal n m ^ t)
  | .inf n => if t = 0 then one32 else inf32 (n && t % 2 = 1)
  | .nan n => nan32 n

/-- m̂ = m ÷ (1 − β1^t). -/
def StepArgs.mhat (a : StepArgs) (m : Word) : Word := div32 m (sub32 one32 (pow32 a.beta1 a.t))

/-- The ADAPTIVE direction a. -/
def StepArgs.direction (a : StepArgs) (m v : Word) : Word :=
  div32 (a.mhat m) (add32 (sqrt32 (div32 v (sub32 one32 (pow32 a.beta2 a.t)))) a.eps)

/-! ### Blocks of KRONECKER -/

/-- A block of FP32 elements, row by row. -/
abbrev Block := List (List Word)

/-- The transpose of a block of `n` columns. -/
def transposeBlock (n : Nat) (b : Block) : Block := (List.range n).map (fun j => b.map (fun r => r.getD j 0))

/-- BF16 inputs of the factor statistics and of preconditioning (R151). -/
def bf16Input (w : Word) : Word := widen bf16 (narrow32 bf16 .nearest w)

/-- The product of a block and a transposed block, BF16 inputs with FP32 accumulation (R151, R159). -/
def mulBlock (a bT : Block) : Block :=
  a.map (fun r => bT.map (fun c => dot false ((r.zip c).map (fun (x, y) => (bf16Input x, bf16Input y)))))

/-- Elementwise combination of two blocks. -/
def zipBlock (f : Word → Word → Word) (a b : Block) : Block := (a.zip b).map (fun (x, y) => (x.zip y).map (fun (u, v) => f u v))

/-- The Frobenius norm of a block, summed in ascending element order (R163). -/
def frobenius (b : Block) : Word := sqrt32 (sumSq64 b.flatten)

/-- The PRECOND contents of one block: L and its root, R and its root; the last two empty with SIDES 1. -/
structure Factors where
  l : List Word
  lRoot : List Word
  r : List Word
  rRoot : List Word
  deriving DecidableEq, Repr

/-- Rows of `n` elements of a list. -/
def rowsOf (n : Nat) (xs : List Word) : Block :=
  (List.range (ceilDiv xs.length (max 1 n))).map (fun i => (xs.drop (i * n)).take n)

/-- The factors of one block as its PRECOND row holds them (R151). -/
def readFactors (br bc : Nat) (xs : List Word) : Factors :=
  { l := xs.take (br * br), lRoot := (xs.drop (br * br)).take (br * br),
    r := (xs.drop (2 * br * br)).take (bc * bc), rRoot := (xs.drop (2 * br * br + bc * bc)).take (bc * bc) }

/-- A factor after a step: BETA_F·F + X·Xᵀ every FACTOR_INTERVAL steps, counted by `t` (R151; log 63). -/
def growFactor (pol : List Byte) (t : Nat) (f : List Word) (prod : Block) : List Word :=
  if t % max 1 (polField pol 52 2) = 0 then
    ((f.zip prod.flatten).map (fun (x, y) => add32 (mul32 (polWord pol 56) x) y))
  else f

/-- The factors of one block after a step with the block's gradient (R151). -/
def Factors.step (f : Factors) (pol : List Byte) (t br bc : Nat) (g : Block) : Factors :=
  let k := polField pol 54 2
  let l := growFactor pol t f.l (mulBlock g g)
  let gT := transposeBlock bc g
  let r := if f.r.isEmpty then [] else growFactor pol t f.r (mulBlock gT gT)
  { l := l, lRoot := Config.refreshRoot br t k l f.lRoot, r := r,
    rRoot := if r.isEmpty then [] else Config.refreshRoot bc t k r f.rRoot }

/-- The direction of one block: L^-1/4 · m̂ (· R^-1/4), rescaled to the Frobenius norm of `a`. Where the product is zero no
rescaling is stated: `free` stands there (log 64). -/
def Factors.direct (f : Factors) (br bc : Nat) (mh a : Block) (free : Nat → Word) : Block :=
  let p := mulBlock (rowsOf br f.lRoot) (transposeBlock bc mh)
  let q := if f.rRoot.isEmpty then p else mulBlock p (transposeBlock bc (rowsOf bc f.rRoot))
  let n := frobenius q
  if val32 n = .fin false 0 then
    q.zipIdx.map (fun (r, i) => (List.range r.length).map (fun j => free (i * bc + j)))
  else
    let k := div32 (frobenius a) n
    q.map (fun r => r.map (fun w => mul32 w k))

end Sys2Proof.Machine
end

