-- ==== Sys2Proof/Machine/ProgramRun.lean ====
section
/-! DEFINITION. Running a step program: operands, the operations of Table 7-1 that programs may hold, and one run over
the stripes of a MASTER tensor (07). What the manual does not state of shapes and operands is a free value (log 65). -/

namespace Sys2Proof.Machine

/-- A matrix of FP32 elements, row by row, with the format that it was declared in, and the row statistics that its stage formed:
sum, sum of squares and max-abs of each row (R158). -/
structure Mat where
  fmt : Nat
  cols : Nat
  els : List Word
  stats : List (Word × Word × Word) := []
  deriving DecidableEq, Repr

/-- Draw free words. -/
def State.drawWords (s : State) (n : Nat) : List Word × State :=
  ((List.range n).map (fun i => Config.freeBits 32 (s.freeCount + i)), { s with freeCount := s.freeCount + n })

/-- Words brought to a count: cut, or filled with free values. -/
def State.fillWords (s : State) (xs : List Word) (n : Nat) : List Word × State :=
  let (f, s1) := if xs.length < n then s.drawWords (n - xs.length) else ([], s)
  (xs.take n ++ f, s1)

/-- What a program runs on: the partition, its snapshot with policy and sums, the tables, and the MASTER. -/
structure ProgRun where
  part : PartId
  x : Partition
  pol : List Byte
  fxp : Fxp
  m : Tensor
  deriving DecidableEq, Repr

/-- The number of the step being computed (R162). -/
def ProgRun.stepNo (r : ProgRun) : Nat := r.x.step.completed + 1

/-- The tensor that a role stands for: the MASTER, or its dependant of the class. -/
def ProgRun.role (r : ProgRun) (i : Nat) : Option Tensor :=
  match r.fxp.roles[i]? with
  | some q => if q.cls = 1 then some r.m else if q.cls = 6 then none else r.x.companion r.m q.cls
  | none => none

/-- The scalars of R174. -/
def ProgRun.scalar (r : ProgRun) (i : Nat) : Word :=
  match i with
  | 0 => polWord r.pol 24
  | 1 => polWord r.pol 28
  | 2 => polWord r.pol 32
  | 3 => polWord r.pol 36
  | 4 => polWord r.pol 40
  | 5 => polWord r.pol 56
  | 6 => r.x.step.clip
  | _ => natTo32 (r.x.step.t + 1)

/-- The intermediates: contents by index and stripe. -/
abbrev Inters := List (Nat × Mat)

/-- The key of an intermediate's contents for one stripe. -/
def interKey (i k : Nat) : Nat := i * 2 ^ 41 + k

/-- An operand for one stripe. A role reads the stripe of its tensor, ACCUM the scaled sums; a constant its FP32 words from
its offset on; an intermediate that nothing has written, and a role without a tensor, free values. -/
def ProgRun.operand (r : ProgRun) (s : State) (v : Inters) (k ref : Nat) : Mat × State :=
  let n := (r.m.stripeSpan k).2
  match refKind ref with
  | 0 => match r.role (refIndex ref) with
    | some t =>
      let sp := t.stripeSpan k
      if t.cls = 5 then ({ fmt := 0, cols := t.cols, els := r.x.stripeSums t k }, s)
      else ({ fmt := t.fmt, cols := t.cols, els := s.elemsAt t sp.1 sp.2 }, s)
    | none =>
      let (f, s1) := s.drawWords n
      ({ fmt := 0, cols := r.m.cols, els := f }, s1)
  | 1 => match assocGet v (interKey (refIndex ref) k) with
    | some q => (q, s)
    | none =>
      let (f, s1) := s.drawWords n
      ({ fmt := 0, cols := r.m.cols, els := f }, s1)
  | 2 =>
    let b := r.fxp.consts.drop (refIndex ref * 64)
    ({ fmt := 0, cols := 1, els := (chunks 4 b).map (fun c => BitVec.ofNat 32 (leNat c)) }, s)
  | 3 => ({ fmt := 0, cols := 1, els := [r.scalar (refIndex ref)] }, s)
  | _ => ({ fmt := 0, cols := 1, els := [] }, s)

/-- An operand as `n` elements: a scalar or a single element serves every one of them. -/
def State.spread (s : State) (ref : Nat) (q : Mat) (n : Nat) : List Word × State :=
  match q.els with
  | [w] => (List.replicate n w, s)
  | els => if refKind ref = 4 then ([], s) else s.fillWords els n

/-- One element of an ELEMENTWISE function (Table 7-5, R159). -/
def elemFunc (f : Nat) (a b c : Word) : Word :=
  match f with
  | 0 => add32 a b
  | 1 => sub32 a b
  | 2 => mul32 a b
  | 3 => fma32 a b c
  | 4 => div32 a b
  | 5 => sqrt32 a
  | 6 => rsqrt32 a
  | 7 => max32 a b
  | 8 => min32 a b
  | 9 => abs32 a
  | _ => a

/-- ELEMENTWISE on one stripe. -/
def ProgRun.elementwise (r : ProgRun) (s : State) (v : Inters) (k : Nat) (o : FxpOp) : Mat × State :=
  let (a, s1) := r.operand s v k o.a
  let (b, s2) := r.operand s1 v k o.b
  let (c, s3) := r.operand s2 v k o.aux
  let shaped := ([(o.a, a), (o.b, b), (o.aux, c)].filter (fun q => refKind q.1 ≤ 1)).head?
  let n := shaped.elim 1 (fun q => q.2.els.length)
  let (xs, s4) := s3.spread o.a a n
  let (ys, s5) := s4.spread o.b b n
  let (zs, s6) := s5.spread o.aux c n
  ({ fmt := o.fmt, cols := shaped.elim 1 (fun q => q.2.cols),
     els := xs.zipIdx.map (fun (x, i) => elemFunc o.func x (ys.getD i 0) (zs.getD i 0)) }, s6)

/-- One element of a REDUCE over elements (R163). -/
def reduceOne (f : Nat) (xs : List Word) : Word :=
  match f with
  | 0 => sum64 xs
  | 1 => sumSq64 xs
  | _ => maxAbs xs

/-- REDUCE by row on one stripe. -/
def ProgRun.reduceRow (r : ProgRun) (s : State) (v : Inters) (k : Nat) (o : FxpOp) : Mat × State :=
  let (a, s1) := r.operand s v k o.a
  ({ fmt := o.fmt, cols := 1, els := (rowsOf a.cols a.els).map (reduceOne (o.func % 16)) }, s1)

/-- REDUCE over a tensor: every stripe, combined in ascending order (R163). -/
def ProgRun.reduceAll (r : ProgRun) (s : State) (v : Inters) (o : FxpOp) : Mat × State :=
  let (ws, s1) := (List.range r.m.stripes).foldl (fun (acc : List Word × State) k =>
    let (a, s') := r.operand acc.2 v k o.a
    (acc.1 ++ [reduceOne (o.func % 16) a.els], s')) ([], s)
  ({ fmt := o.fmt, cols := 1, els := [combineStripes (if o.func % 16 = 2 then max32 else add32) ws] }, s1)

/-- The rows of `A` that a gather list names; none when an index lies outside them (R158). -/
def gatherRows (b : Block) (idx : List Word) : Option Block := idx.mapM (fun i => b[i.toNat]?)

/-- The sum, sum of squares and max-abs of each row (R158, R163). -/
def rowStats (rows : Block) : List (Word × Word × Word) := rows.map (fun r => (sum64 r, sumSq64 r, maxAbs r))

/-- MATMUL on one stripe: prologue, product and epilogue of R158; none for a gather index outside the rows. The row statistics are
formed and stay with the result: no operand names them (log 65). -/
def ProgRun.matmul (r : ProgRun) (s : State) (v : Inters) (k : Nat) (o : FxpOp) : Option (Mat × State) :=
  let (a, s1) := r.operand s v k o.a
  let (b, s2) := r.operand s1 v k o.b
  let (c, s3) := r.operand s2 v k o.aux
  let aRows := rowsOf a.cols a.els
  let bRows := rowsOf b.cols b.els
  let a1 := if o.flag 0 then transposeBlock a.cols aRows else aRows
  let inner := if o.flag 0 then aRows.length else a.cols
  let bT := if o.flag 1 then bRows else transposeBlock b.cols bRows
  let bInner := if o.flag 1 then b.cols else bRows.length
  let outRows := match refKind o.dst, r.role (refIndex o.dst) with
    | 0, some t => (t.stripeSpan k).2 / max 1 t.cols
    | _, _ => a1.length
  let (idx, s4) := if refKind o.aux = 2 then s3.fillWords c.els outRows else (c.els, s3)
  match if o.flag 2 then gatherRows a1 idx else some a1 with
  | none => none
  | some a2 =>
    let n := bT.length
    if refKind o.a ≤ 1 && refKind o.b ≤ 1 && inner = bInner then
      let three := a.fmt = 0 || b.fmt = 0
      let prod := a2.map (fun row => bT.map (fun col => dot three (row.zip col)))
      let (aux, s5) := s4.spread o.aux c n
      let bias (row : List Word) : List Word :=
        if o.flag 3 then (row.zip aux).map (fun (x, y) => add32 x y) else row
      let scale (row : List Word) : List Word :=
        if o.flag 4 then (row.zip aux).map (fun (x, y) => mul32 x y) else row
      let out := prod.map (fun row => scale (bias row))
      some ({ fmt := o.fmt, cols := n, els := out.flatten, stats := if o.flag 5 then rowStats out else [] }, s5)
    else
      let (f, s5) := s4.drawWords (a2.length * n)
      some ({ fmt := o.fmt, cols := n, els := f }, s5)

/-- SPIN on one stripe: the operand streams go through the spin that the program's spin table names (R175). -/
def ProgRun.spin (r : ProgRun) (s : State) (v : Inters) (k : Nat) (o : FxpOp) : Mat × State :=
  let (a, s1) := r.operand s v k o.a
  let (b, s2) := r.operand s1 v k o.b
  let body := ((r.x.spins.find? (fun q => some q.digest = r.fxp.spins[o.aux]?)).elim [] Spin.bytes)
  let ins := a.els :: (if refKind o.b = 4 then [] else [b.els])
  let (out, s3) := s2.fillWords (Config.spinResult body ins) a.els.length
  ({ fmt := o.fmt, cols := a.cols, els := out }, s3)

/-- The signed value of an INT8 in FP32. -/
def int8Word (b : Byte) : Word :=
  if b.toNat < 128 then natTo32 b.toNat else neg32 (natTo32 (256 - b.toNat))

/-- Elements rounded to a declared format, with the rounding of each (R160). -/
def roundTo (fmt : Nat) (xs : List (Word × Rounding)) : List Word :=
  if fmt = 8 then xs.map (fun (x, m) => int8Word (narrowInt8 m x))
  else match formatOf fmt with
    | some f => decodeElems f (encodeElems f xs)
    | none => xs.map Prod.fst

/-- The result of an operation goes to its destination for one stripe: rounded to FMT_OUT under R160–R162, into an
intermediate, or into the stripe of a role's tensor. R162 gives a rounding ID for a tensor only; that of an intermediate follows from
the MASTER and the SITE, so that R164 holds (DESIGN CHOICE, log 143). -/
def ProgRun.store (r : ProgRun) (s : State) (v : Inters) (k : Nat) (o : FxpOp) (q : Mat) : State × Inters :=
  let t := if refKind o.dst = 0 then r.role (refIndex o.dst) else none
  let rid := (t.elim (Config.interRid r.m.rid o.site) Tensor.rid).toNat
  let sp := (t.getD r.m).stripeSpan k
  let pairs (xs : List Word) := xs.zipIdx.map (fun (x, i) => (x, roundingOf (o.round = 1) r.stepNo o.site rid (sp.1 + i)))
  match t with
  | some t =>
    let (xs, s1) := s.fillWords q.els sp.2
    let out := if o.fmt = t.fmt then pairs xs else (roundTo o.fmt (pairs xs)).map (fun x => (x, Rounding.nearest))
    (s1.putTensor t (t.at_ sp.1) (encodeElems t.format out), v)
  | none =>
    if refKind o.dst = 1 then
      (s, assocSet v (interKey (refIndex o.dst) k) { q with els := roundTo o.fmt (pairs q.els) })
    else (s, v)

/-- One operation on one stripe; none when the step fails. -/
def ProgRun.opStripe (r : ProgRun) (s : State) (v : Inters) (k : Nat) (o : FxpOp) : Option (Mat × State) :=
  match o.op with
  | 1 => r.matmul s v k o
  | 2 => some (r.elementwise s v k o)
  | 3 => some (r.reduceRow s v k o)
  | 4 => some (r.operand s v k o.a)
  | _ => some (r.spin s v k o)

/-- One operation over every stripe. -/
def ProgRun.runOp (r : ProgRun) (acc : State × Inters) (o : FxpOp) : Option (State × Inters) :=
  if o.op = 3 && o.func / 16 = 1 then
    let (q, s1) := r.reduceAll acc.1 acc.2 o
    some ((List.range r.m.stripes).foldl (fun a k => r.store a.1 a.2 k o q) (s1, acc.2))
  else
    (List.range r.m.stripes).foldlM (fun a k =>
      (r.opStripe a.1 a.2 k o).map (fun (q, s1) => r.store s1 a.2 k o q)) acc

/-- The program over one MASTER: its chains in table order (R173). -/
def ProgRun.run (r : ProgRun) (s : State) : Option State :=
  ((r.fxp.chains.flatMap r.fxp.stages).foldlM r.runOp (s, [])).map Prod.fst

/-- The spin handles that a program names in its operations. -/
def Partition.spinsNamed (x : Partition) (f : Fxp) : List Word :=
  ((f.chains.flatMap f.stages).filter (fun o => o.op = 5)).filterMap (fun o =>
    (x.spins.find? (fun q => some q.digest = f.spins[o.aux]?)).map Spin.handle)

/-- The program that the policy in force names, when it is loaded. -/
def Partition.stepProgram (x : Partition) : Option Program :=
  match x.policy with
  | some pol => if polFamily pol = 0xFF && !x.needProgram then
      x.programs.find? (fun g => g.handle.toNat = polField pol 60 4) else none
  | none => none

end Sys2Proof.Machine
end

