-- ==== Sys2Proof/Machine/StepEngine.lean ====
section
/-! DEFINITION. The step of a partition: its beginning, the statistics phase, the update, and spins in the fabric (R141–R143,
R149, R154, R168). -/

namespace Sys2Proof.Machine

/-! ### Beginning and statistics -/

/-- Whether every contribution bitmap of the step is full: there is an ACCUM tensor, and each segment of each holds the bits
of every contributor that is needed (R141, R288). -/
def Partition.bitmapsFull (x : Partition) : Bool :=
  !x.accums.isEmpty && x.accums.all (fun t => (List.range t.segments).all (fun g =>
    assocGetD t.bitmap g 0 &&& x.step.needed = x.step.needed))

/-- STEP_BEGIN: the statistics phase starts once every bitmap is full. A policy that waits to govern is adopted here, because
GRAD_SCALE acts in this phase (R141, R149; log 66). -/
def execStepBegin (p : PartId) (s : State) : Host.Outcome State Fault Refusal :=
  let x := s.part p
  .next (if x.step.phase = 1 && x.policy.isSome && x.bitmapsFull then
    s.modPart p (fun x =>
      let y := x.adoptPolicy
      { y with step := { y.step with phase := 2, gscale := polWord (y.policy.getD []) 48 } })
  else s)

/-- Clear what a step accumulated. -/
def Tensor.zeroed (t : Tensor) : Tensor := { t with sums := [], bitmap := [], pushes := [] }

/-- The step is done: COMPLETED advances, ACCUM is zeroed, and the
contributor count is plain again (R141, R288). -/
def Partition.endStep (x : Partition) : Partition :=
  { x with tensors := x.tensors.map (fun t => if t.cls = 5 then t.zeroed else t),
           step := { x.step with completed := x.step.completed + 1, phase := 0, t := x.step.t + 1, scale := none, mapped := 0,
                                 stepped := true, spun := [] } }

/-- The surviving members of a partition. -/
def State.liveMembers (s : State) (p : PartId) : BitVec 16 := s.members p &&& ~~~(s.fencedOf p)

/-- A step that ends lets go what waited for it: a declared cut, whose gates close at that instant (R146, R181); without one the
drops and the RESHAPE, which else follow the cut; a re-shard. -/
def State.stepEnded (s : State) (p : PartId) : State :=
  (match (s.part p).cut with
  | some d => s.modPart p (fun x => { x with cut := some { d with gates := d.gates ||| s.liveMembers p } })
  | none => s.wakeJobs p [.step]).kickReshards

/-- A non-finite sum: the step is skipped or fails (R143). -/
def State.nonfiniteStep (s : State) (p : PartId) : State :=
  let x := s.part p
  if polField (x.policy.getD []) 10 1 = 1 then (s.failStep p).stepEnded p
  else (s.modPart p (fun x =>
    let y := x.endStep
    { y with step := { y.step with skip := min 0xFFFFFFFF (x.step.skip + 1) } })).stepEnded p

/-- The spins resident on the members of a partition, as (engine, handle). -/
def State.residents (s : State) (p : PartId) : List (Nat × Nat) :=
  (maskEngines (s.members p)).flatMap (fun e => (s.eng e).resident.toList.filterMap (fun r =>
    (r.filter (fun v => v.part = p)).map (fun v => (e.val, v.handle.toNat))))

/-- STATISTICS_COMPLETE: the sums times GRAD_SCALE are tested and the global norm is formed; then the update begins, unless the
partition is being re-sharded (R141, R143, R282). A cut that is declared by then and does not wait for the step comes first (R146;
DEDUCED, log 144). -/
def execStatisticsComplete (p : PartId) (s : State) : Host.Outcome State Fault Refusal :=
  let x := s.part p
  .next (if x.step.phase ≠ 2 || (x.cut.isSome && x.step.scale.isNone) then s
  else if x.foundNonfinite then s.nonfiniteStep p
  else if x.resharding then s
  else
    let rs := s.residents p
    s.modPart p (fun x =>
      let y := x.adoptPolicy
      let pol := y.policy.getD []
      { y with step := { y.step with phase := 3, clip := x.clipFactor pol, spun := rs } }))

/-! ### The update -/

/-- The companions of a MASTER that the update of a policy reads or writes, with the MASTER itself. -/
def Partition.stepTensors (x : Partition) (pol : List Byte) (m : Tensor) : List Tensor :=
  let fam := polFamily pol
  let cs := if fam = 1 then [2] else if fam = 2 then [2, 3] else [2, 3, 4]
  m :: (cs.filterMap (x.companion m) ++ (x.dependants m.id).filter (fun t => t.cls = 0))

/-- The MASTER tensors in ascending ID. -/
def Partition.masters (x : Partition) : List Tensor := x.sorted.filter (fun t => t.cls = 1)

/-- Whether a tensor has a stripe that cannot be read or written: poisoned, or beyond its parity (R154). -/
def State.stripeGone (s : State) (t : Tensor) : Bool :=
  !t.poison.isEmpty || (List.range t.stripes).any (fun k =>
    let sp := t.stripeSpan k
    (s.tensorBytes t (t.at_ sp.1) (t.at_ (sp.1 + sp.2) - t.at_ sp.1)).length < t.at_ (sp.1 + sp.2) - t.at_ sp.1)

/-- The update fails: which stripes had been updated is a free value, and those are poisoned with their companions' (R154,
log 67). -/
def State.failUpdate (s : State) (p : PartId) : State :=
  let x := s.part p
  let n := (x.masters.map Tensor.stripes).sum
  let (mask, s1) := s.draw n
  let starts := x.masters.zipIdx.map (fun (m, i) => (m, ((x.masters.take i).map Tensor.stripes).sum))
  let updated (id : Word) (k : Nat) : Bool := starts.any (fun (m, b) => m.id = id && natBit mask.toNat (b + k))
  (((s1.modPart p (fun x => { x with tensors := x.tensors.map (fun t =>
    let root := if t.cls = 1 then t.id else t.parent
    if t.cls = 5 || t.cls = 6 then t
    else t.addPoison ((List.range t.stripes).filter (fun k => updated root k))) })
    ).failStep p).faultEvent p).stepEnded p

/-- The moments, direction and PRECOND of one stripe as they build up. -/
structure StripeWork where
  st : State
  dir : Block
  deriving DecidableEq, Repr

/-- A block's part of the rows of a band. -/
def cutBlock (b : Block) (row n col w : Nat) : Block := ((b.drop row).take n).map (fun r => (r.drop col).take w)

/-- The rows of a band with a block put in. -/
def pasteBlock (b : Block) (row col w : Nat) (v : Block) : Block :=
  b.zipIdx.map (fun (r, i) =>
    if row ≤ i && i < row + v.length then r.take col ++ v.getD (i - row) [] ++ r.drop (col + w) else r)

/-- One block of a preconditioned MASTER's stripe: factors, roots and direction (R151). -/
def StripeWork.block (w : StripeWork) (p : PartId) (pol : List Byte) (pt : Tensor) (t br bc : Nat) (g mh : Block)
    (row col idx : Nat) : StripeWork :=
  let f := readFactors br bc (w.st.elemsAt pt (idx * pt.cols) pt.cols)
  let f1 := f.step pol t br bc (cutBlock g row br col bc)
  let (free, s1) := w.st.drawWords (br * bc)
  let d := f1.direct br bc (cutBlock mh row br col bc) (cutBlock w.dir row br col bc) (fun i => free.getD i 0)
  { st := s1.putElems pt (idx * pt.cols) false ((s1.part p).step.completed + 1) 0 (f1.l ++ f1.lRoot ++ f1.r ++ f1.rRoot),
    dir := pasteBlock w.dir row col bc d }

/-- The KRONECKER direction of one stripe: every whole block of its whole bands; the rest keeps the ADAPTIVE one. -/
def StripeWork.kronecker (w : StripeWork) (p : PartId) (pol : List Byte) (m pt : Tensor) (t k : Nat) (g mh : Block) :
    StripeWork :=
  let br := 2 ^ polField pol 14 1
  let bc := 2 ^ polField pol 15 1
  let per := m.cols / bc
  let band0 := (m.stripeSpan k).1 / m.cols / br
  (List.range (w.dir.length / br)).foldl (fun w bi => (List.range per).foldl (fun w bj =>
    w.block p pol pt t br bc g mh (bi * br) (bj * bc) ((band0 + bi) * per + bj)) w) w

/-- Stored elements of a moment for one stripe; zero where the MASTER has none (log 62). -/
def State.momentAt (s : State) (t : Option Tensor) (first n : Nat) : List Word :=
  t.elim (List.replicate n 0) (fun t => s.elemsAt t first n)

/-- A moment goes back in its format, under the policy's rounding (R160–R162); one that the MASTER does not have is not kept. -/
def State.putMoment (s : State) (p : PartId) (t : Option Tensor) (first site : Nat) (xs : List Word) : State :=
  match t with
  | some t => s.putElems t first (s.part p).stochastic ((s.part p).step.completed + 1) site xs
  | none => s

/-- The update of one stripe of a MASTER under a stock family (Table 6-5); WEIGHT is derived from it. -/
def State.updateStripe (s : State) (p : PartId) (pol : List Byte) (m : Tensor) (k : Nat) : State :=
  let x := s.part p
  let sp := m.stripeSpan k
  let a := stepArgs pol (x.step.t + 1)
  let acc := x.companion m 5
  let gs := (List.range sp.2).map (fun i => x.gradOf acc (sp.1 + i))
  let ws := s.elemsAt m sp.1 sp.2
  let t1 := x.companion m 2
  let t2 := x.companion m 3
  let ms := s.momentAt t1 sp.1 sp.2
  let done :=
    if polFamily pol = 1 then
      let ms1 := (ms.zip gs).map (fun (u, g) => a.momentum u g)
      (s.putMoment p t1 sp.1 1 ms1, ms1)
    else
      let ms1 := (ms.zip gs).map (fun (u, g) => a.first u g)
      let vs1 := ((s.momentAt t2 sp.1 sp.2).zip gs).map (fun (v, g) => a.second v g)
      let dir := (ms1.zip vs1).map (fun (u, v) => a.direction u v)
      let s1 := (s.putMoment p t1 sp.1 1 ms1).putMoment p t2 sp.1 2 vs1
      match if x.preconditioned m then x.companion m 4 else none with
      | some pt =>
        let w := StripeWork.kronecker { st := s1, dir := rowsOf m.cols dir } p pol m pt a.t k (rowsOf m.cols gs)
          (rowsOf m.cols (ms1.map a.mhat))
        (w.st, w.dir.flatten)
      | none => (s1, dir)
  let s2 := done.1.putElems m sp.1 false (x.step.completed + 1) 0 ((ws.zip done.2).map (fun (w, d) => a.descend w d))
  s2.deriveWeight p m (x.step.completed + 1) sp.1 sp.2

/-- The update of one MASTER under a stock family. -/
def State.updateMaster (s : State) (p : PartId) (pol : List Byte) (m : Tensor) : State :=
  (List.range m.stripes).foldl (fun s k => s.updateStripe p pol m k) s

/-- The update of one MASTER under a program, and its WEIGHT afterwards (06 Expert control); none when the step fails. -/
def State.programMaster (s : State) (p : PartId) (pol : List Byte) (g : Program) (m : Tensor) : Option State :=
  let x := s.part p
  let r : ProgRun := { part := p, x := x, pol := pol, fxp := parseFxp g.bytes, m := m }
  (r.run s).map (fun s2 => (List.range m.stripes).foldl (fun s k =>
    s.deriveWeight p m (x.step.completed + 1) (m.stripeSpan k).1 (m.stripeSpan k).2) s2)

/-- A resident spin is used (R168). -/
def Engine.useSpin (x : Engine) (p : PartId) (h : Word) : Engine :=
  { x with uses := x.uses + 1,
           resident := x.resident.map (fun r => r.map (fun v => if v.part = p && v.handle = h then { v with used := x.uses + 1 } else v)) }

/-- The spins of a program have been used, in the order of its entries: their counts and last uses (Table 7-3, R168; log 68). -/
def State.useSpins (s : State) (p : PartId) (hs : List Word) : State :=
  let s1 := s.modPart p (fun x => { x with spins := x.spins.map (fun q =>
    { q with uses := q.uses + hs.count q.handle * x.masters.length }) })
  s1.modEngines (s.members p) (fun _ y => hs.foldl (fun y h => y.useSpin p h) y)

/-- Whether the spins that a program names have had their place on every surviving member in this update (R168, Table 7-7). -/
def State.spinsServed (s : State) (p : PartId) (hs : List Word) : Bool :=
  (maskEngines (s.members p &&& ~~~(s.fencedOf p))).all (fun e => hs.all (fun h =>
    (s.part p).step.spun.contains (e.val, h.toNat)))

/-- The update of a partition: every MASTER in ascending ID; none when the step fails. -/
def State.updateAll (s : State) (p : PartId) (pol : List Byte) : Option State :=
  let x := s.part p
  match x.stepProgram with
  | some g => (x.masters.foldlM (fun (s : State) m => s.programMaster p pol g m) s).map (fun s1 =>
      s1.useSpins p (x.spinsNamed (parseFxp g.bytes)))
  | none => some (x.masters.foldl (fun s m => s.updateMaster p pol m) s)

/-- The tensors that an update writes: each MASTER with its companions, and their parity. -/
def Partition.updateBlocks (x : Partition) (pol : List Byte) : List (Nat × Nat) :=
  x.masters.flatMap (fun m => (x.stepTensors pol m).flatMap (fun t => t.blocksOf 0 t.bytes true))

/-- Whether the update can end now: the copier has passed every row that it writes, and a program that the policy names is loaded and
has had its spins (R168, R179, R182). -/
def State.canUpdate (s : State) (p : PartId) (pol : List Byte) : Bool :=
  let x := s.part p
  (x.epochs.filter (fun ep => ep.state = 1)).all (fun ep => (x.updateBlocks pol).all ep.isCopied) && (polFamily pol ≠ 0xFF || x.stepProgram.any (fun g => s.spinsServed p (x.spinsNamed (parseFxp g.bytes))))

/-- STEP_COMPLETE: every engine has finished its update, and COMPLETED becomes S; or the update met a stripe that it cannot
read or write, or a gather index out of range, and the step fails (R141, R154, R158). -/
def execStepComplete (p : PartId) (s : State) : Host.Outcome State Fault Refusal :=
  let x := s.part p
  let pol := x.policy.getD []
  .next (if x.step.phase ≠ 3 || !s.canUpdate p pol then s
  else if x.masters.any (fun m => (x.stepTensors pol m).any s.stripeGone) then s.failUpdate p
  else match s.updateAll p pol with
    | some s1 => (s1.modPart p Partition.endStep).stepEnded p
    | none => s.failUpdate p)

/-! ### Spins in the fabric (R168) -/

/-- The expert slot that a spin takes: a free one, else that of the spin used least recently. -/
def Engine.spinSlot (x : Engine) : Fin 3 :=
  match (List.finRange 3).find? (fun i => x.resident[i].isNone) with
  | some i => i
  | none =>
    let age (i : Fin 3) : Nat := x.resident[i].elim 0 Resident.used
    (List.finRange 3).foldl (fun b i => if age i < age b then i else b) 0

/-- SPIN_SWAP: a spin that a chain of the running program needs takes an expert slot of one engine's fabric. -/
def execSpinSwap (e : EngId) (p : PartId) (handle : Word) (s : State) : Host.Outcome State Fault Refusal :=
  let x := s.part p
  let named := x.stepProgram.any (fun g => (x.spinsNamed (parseFxp g.bytes)).contains handle)
  let there := (s.eng e).resident.toList.any (fun r => r.any (fun v => v.part = p && v.handle = handle))
  .next (if x.step.phase = 3 && named && !there && hasEngine (s.members p) e && !s.lost e then
    (s.modEng e (fun y => { y with uses := y.uses + 1,
                                   resident := y.resident.set y.spinSlot (some { part := p, handle := handle, used := y.uses + 1 }) })
      ).modPart p (fun x => { x with step := { x.step with spun := (e.val, handle.toNat) :: x.step.spun } })
  else s)

end Sys2Proof.Machine
end

