-- ==== Sys2Proof/Machine/CutRows.lean ====
section
/-! DEFINITION. Cuts as they take effect: the gates, the cut instant, the copier, and the cuts that the shelf itself makes at
the turns of the tide (R17–R27, R181, R182, R185, R256, R257). -/

namespace Sys2Proof.Machine

/-! ### The cut instant (R181) -/

/-- Whether a cut waits for the end of the present step: its update runs, or RESCALE governs it (R146, R289). -/
def StepState.holdsCut (st : StepState) : Bool :=
  st.phase = 3 || (st.scale.isSome && 1 ≤ st.phase && st.phase ≤ 3)



/-- CUT_GATE_MESSAGE: a member of the partition closes its gate for the declared cut. -/
def execCutGateMessage (p : PartId) (e : EngId) (s : State) : Host.Outcome State Fault Refusal :=
  let x := s.part p
  .next (if x.cut.isSome && hasEngine (s.liveMembers p) e && !x.step.holdsCut then
    (s.modPart p (fun x => { x with cut := x.cut.map (fun d => { d with gates := d.gates ||| engineBit e }) })).wake e
  else s)

/-- Whether some state-changing command of a partition is running, a micro-program with its locks among them (R181, R214). -/
def State.changing (s : State) (p : PartId) : Bool :=
  (s.openSlots p).any (fun o => o.slot.phase = .running && o.slot.changes) ||
    (maskEngines (s.liveMembers p)).any (fun e => (s.win e p).nmx.busy && (s.win e p).nmx.locked)

/-- The command that declared a cut is answered. -/
def State.answerCut (s : State) (d : CutDecl) (st : Status) (body : List Byte) : State :=
  match d.key with
  | some k => if (s.mailbox d.eng k).job.any (fun j => j.waitsFor .cutInstant) then s.answer d.eng k st body else s
  | none => s

/-- A partition counts as re-seeded: it lends nothing any more and the ebb turn no longer waits for it (R26, R257). R18 does not
say when LENDING clears: it stays set until the re-seed cut's instant (DESIGN CHOICE, log 125). -/
def State.reseeded (s : State) (p : PartId) : State :=
  let t := s.tide
  { s with tide := { t with lending := setBit t.lending p.val false, waits := setBit t.waits p.val false } }

/-- A declared cut that can no longer be taken, because the step has failed or the registry is empty, ends as R188, R25 and
R26 say of a cut that is refused (log 70). -/
def State.dropCut (s : State) (p : PartId) (d : CutDecl) : State :=
  let s1 := (s.modPart p (fun x => { x with cut := none })).answerCut d .notPermitted []
  let s2 := if d.final then s1.hold p else s1
  ((if d.reseed then (s2.reseeded p).modPart p (fun x => { x with nextFull := true }) else s2).wakeJobs p [.step]).kickReshards

/-- CUT_INSTANT: every surviving member has closed its gate and no state-changing command runs any more. The epoch is
formed, the gates open, the copier starts, and EPOCH_CUT is answered (R181, R188); mailbox commands that waited go on. -/
def execCutInstant (p : PartId) (s : State) : Host.Outcome State Fault Refusal :=
  let x := s.part p
  .next (match x.cut with
  | none => s
  | some d =>
    if x.step.holdsCut || s.liveMembers p &&& ~~~d.gates ≠ 0 || s.changing p then s
    else if x.step.phase = 4 || x.tensors.isEmpty then s.dropCut p d
    else
      let (s1, ep) := s.cutNow p d
      let s2 := if d.reseed then s1.reseeded p else s1
      (match ep with
      | some q => s2.answerCut d .ok (cutResponse q)
      | none => s2).wakeJobs p [.step])

/-! ### The copier (R182, R185) -/

/-- Whether the walk of an epoch has passed every unit on every channel of the surviving members that is not fenced (R360). -/
def State.walkOver (s : State) (p : PartId) (ep : Epoch) : Bool :=
  (maskEngines (s.liveMembers p)).all (fun e => (List.finRange 16).all (fun c =>
    ((s.eng e).flt[(4 : Fin 11)]).isFenced c.val || (ep.walkUnits e.val).length ≤ ep.walked e.val c.val))

/-- COPIER_DONE: the copier has finished its walk, which the maintenance windows carry on (R208, R210). A paused copier waits for the
drain; the copier of a later cut waits for the one before it. -/
def execCopierDone (p : PartId) (n : Nat) (s : State) : Host.Outcome State Fault Refusal :=
  let x := s.part p
  .next (match x.epoch? n with
  | some ep =>
    if ep.state = 1 && !ep.paused && !x.epochs.any (fun q => q.state = 1 && q.n < n) && s.walkOver p ep then
      ((s.modEpoch p n (fun q => ({ q with state := 2, walk := [], copied := [] } : Epoch).refresh)).wakeJobs p [.copier]).kickReshards
    else s
  | none => s)

/-- COPIER_RESUME: the drain has freed space, and a paused copier goes on packing (R185). -/
def execCopierResume (p : PartId) (n : Nat) (s : State) : Host.Outcome State Fault Refusal :=
  .next (if ((s.part p).epoch? n).any (fun ep => ep.paused && ep.state ≠ 6) then s.stageEpoch p n else s)

/-! ### Turns of the tide -/

/-- Whether a cut of the shelf's own waits (R24, R25): the slots in flight, the campaigns, pinned twins, another
declaration, a re-shard; and the ring of R188 step 3, which R25 does not name (DESIGN CHOICE, log 126). -/
def State.ownCutWaits (s : State) (p : PartId) : Bool :=
  let x := s.part p
  16 ≤ x.epochs.length || s.campaignsFull || x.pins || x.cut.isSome || x.resharding || s.ringFull p

/-- Whether no cut can be taken at all: the step has failed or the numbers are exhausted (R25, R26). -/
def Partition.cutless (x : Partition) : Bool := x.step.phase = 4 || x.exhausted

/-- A cut that the shelf declares itself. -/
def State.ownCut (s : State) (p : PartId) (final : Bool) : State :=
  s.declareCut p { eng := s.firstJoined, key := none, kind := if final then 0 else 1, drain := true, commit := final, gates := 0,
                   final := final, reseed := !final }

/-- Whether a flood turn waits for a partition whose final ebb cut has not been taken in it. A final ebb epoch that the host
releases before it commits counts as not taken, so another is cut: R27 does not say (DESIGN CHOICE, log 127). -/
def State.wantsFinal (s : State) (p : PartId) : Bool :=
  s.tide.turn = 1 && s.tide.waits.getLsbD p.val && !s.tide.ready.getLsbD p.val &&
    !(s.part p).epochs.any (fun ep => ep.final && ep.state ≠ 6 && ep.turn = s.tide.count)

/-- Whether a partition's twin rows may be lent now: no later cut is still in them, and a HELD partition lends only with no turn
in progress (R256; log 128). -/
def State.mayLend (s : State) (p : PartId) : Bool :=
  let x := s.part p
  !x.pins && !x.epochs.any (fun ep => ep.state = 1) && (!s.tide.held.getLsbD p.val || s.tide.turn = 0)

/-- FINAL_EBB_CUT: the shelf takes a partition's final ebb cut, AUTO with COMMIT; where none can be taken the partition is
HELD, and one that no longer holds twins is not waited for (R17, R25). -/
def execFinalEbbCut (p : PartId) (s : State) : Host.Outcome State Fault Refusal :=
  let x := s.part p
  .next (if !s.wantsFinal p then s
  else if !x.hasTwins then { s with tide := { s.tide with waits := setBit s.tide.waits p.val false } }
  else if x.cutless then s.hold p
  else if s.ownCutWaits p then s
  else s.ownCut p true)

/-- PARTITION_LEND: the commit that lets a partition lend is complete, and the shelf is still in FLOOD (R17, R27, R256). -/
def execPartitionLend (p : PartId) (s : State) : Host.Outcome State Fault Refusal :=
  .next (if s.tide.flood && s.tide.turn ≠ 2 && s.tide.ready.getLsbD p.val && s.mayLend p then
    if (s.part p).hasTwins then s.lend p else { s with tide := { s.tide with ready := setBit s.tide.ready p.val false } }
  else s)

/-- A turn completes: its time is kept and V0_TIDE is signalled on every partition (R258). -/
def State.endTurn (s : State) : State :=
  ({ s with tide := { s.tide with turn := 0, completed := s.shelfTime } } : State).tideEvent

/-- FLOOD_TURN_COMPLETE: every partition that holds twin rows has lent or is HELD (R256). -/
def execFloodTurnComplete (s : State) : Host.Outcome State Fault Refusal :=
  .next (if s.tide.turn = 1 && (s.partIds.all (fun p => !s.tide.waits.getLsbD p.val || !(s.part p).hasTwins)) then s.endTurn
  else s)

/-- Whether pages still lie in the twin rows that a partition lends. -/
def State.lentPages (s : State) (p : PartId) : Bool :=
  let units (e : EngId) : List Nat := ((s.part p).tensors.filter Tensor.twin).flatMap (fun t =>
    (assocGetD t.place.units e.val [] ++ t.dest.elim [] (fun d => assocGetD d.units e.val [])).map (fun u => u + twinOffset))
  (s.parts.toList.flatMap Partition.kv).any (fun k => k.lent && (units k.body).contains (unitOf k.addr))

/-- RESEED_CUT: the pages in lent rows have been dropped, and the shelf takes the full re-seed cut with DRAIN; where no epoch
can be taken at all the twins are reclaimed without a cut (R18, R26, R257). -/
def execReseedCut (p : PartId) (s : State) : Host.Outcome State Fault Refusal :=
  let x := s.part p
  let s1 := s.dropLent
  .next (if s.tide.turn ≠ 2 || !s.tide.waits.getLsbD p.val then s
  else if s1.lentPages p then s1
  else if !x.hasTwins || x.cutless then (s1.reseeded p).modPart p (fun x => { x with nextFull := true })
  else if s1.ownCutWaits p then s1
  else s1.ownCut p false)

/-- EBB_TURN_COMPLETE: every partition that lent has been re-seeded (R257). -/
def execEbbTurnComplete (s : State) : Host.Outcome State Fault Refusal :=
  .next (if s.tide.turn = 2 && s.partIds.all (fun p => !s.tide.waits.getLsbD p.val) then s.endTurn else s)

end Sys2Proof.Machine
end

