-- ==== Sys2Proof/Machine/Heat.lean ====
section
/-! DEFINITION. Temperatures: thresholds with their 5 °C of hysteresis, the warnings and limits they raise, channel levels,
and channels that return from PROCESSOR mode (09 R205–R211, 18 R378, R379, R384). -/

namespace Sys2Proof.Machine

/-- Thresholds of a sensor kind in 1/16 °C, rising, each with the state it shows and the clock level it limits the engine to
(Table 18-4). -/
def thresholds (kind : Nat) : List (Int × Nat × Nat) :=
  match kind with
  | 1 | 2 => [(1520, 1, 0), (1600, 2, 2), (1680, 2, 4), (1760, 3, 4)]
  | 3 => [(1360, 1, 0), (1520, 2, 2), (1680, 3, 2)]
  | 4 => [(1360, 1, 0), (1520, 2, 0), (1680, 3, 0)]
  | 6 => [(1120, 1, 0)]
  | 7 => [(560, 1, 0)]
  | 8 => [(1040, 1, 0)]
  | _ => []

/-- From which threshold on a kind raises THERM_WARN (Table 18-4). -/
def warnAt (kind : Nat) : Nat := if kind = 4 then 2 else 1

/-- From which threshold on a kind is critical; none for kinds without THERM_CRIT. -/
def critAt (kind : Nat) : Option Nat := if kind ≤ 2 then some 4 else if kind ≤ 4 then some 3 else none

/-- The throttle threshold of a kind, at which a sensor counts that gives no reading; its warning threshold where it has no
throttle (R378). A DDR module counts as at TM2 (log 51). -/
def throttleAt (kind : Nat) : Int := [0, 1600, 1600, 1520, 1520, 0, 1120, 560, 1040].getD kind 0

/-- How many thresholds hold at a reading: one that held is left only 5 °C below it (R378). -/
def holdThresholds (kind : Nat) (old : Nat) (t : Int) : Nat :=
  (thresholds kind).zipIdx.foldl (fun n (x, i) =>
    if x.1 ≤ t || (i < old && x.1 - 80 < t) then max n (i + 1) else n) 0

/-- State and clock limit at a count of thresholds. -/
def stateAt (kind lvl : Nat) : Nat := ((thresholds kind)[lvl - 1]?).elim 0 (fun x => if lvl = 0 then 0 else x.2.1)

/-- The clock level that a sensor limits its engine to. -/
def limitAt (kind lvl : Nat) : Nat := ((thresholds kind)[lvl - 1]?).elim 0 (fun x => if lvl = 0 then 0 else x.2.2)

/-- Kind of a sensor by its place in Table 18-4. -/
def kindOf (i : Nat) : Nat := ((sensorKinds.flatMap (fun k => List.replicate k.2 k.1))[i]?).getD 0

/-- Whether a reading lies within −20 °C to 150 °C. -/
def readingOk (t : Int) : Bool := -320 ≤ t && t ≤ 2400

/-- One sample of a sensor: none is no reading. It counts as at its throttle threshold after 10 ms without one, or at once
outside the range (R378). -/
def Sensor.sample (x : Sensor) (kind now : Nat) (time : DWord) (r : Option Int) : Sensor :=
  let since := if r.isSome then none else x.silent <|> some now
  let shown := r.getD x.temp
  let gone := since.any (fun n => n + 10000000 ≤ now) || !readingOk shown
  let lvl := holdThresholds kind x.lvl (if gone then throttleAt kind else shown)
  let st := stateAt kind lvl
  { temp := shown, lvl := lvl, state := st, max := Max.max x.max shown, changed := if st = x.state then x.changed else time,
    silent := since }

/-- Whether a sensor raises THERM_WARN, or is critical. -/
def sensorWarns (x : Sensor × Nat) : Bool := warnAt (kindOf x.2) ≤ x.1.lvl

/-- Whether a sensor is at THERM_CRIT. -/
def sensorCritical (x : Sensor × Nat) : Bool := (critAt (kindOf x.2)).any (fun n => n ≤ x.1.lvl)

/-- One channel after a sample of its modules: the level and reading of the hotter one (R209, R384). -/
def Engine.channelEntry (x : Engine) (ch : Fin 16) (time : DWord) : Sensor :=
  let a := (x.power.sensors[26 + 2 * ch.val]?).getD Sensor.reset
  let b := (x.power.sensors[27 + 2 * ch.val]?).getD Sensor.reset
  let o := x.power.channels[ch]
  let lvl := min 2 (max a.lvl b.lvl)
  { o with temp := max a.temp b.temp, lvl := lvl, state := lvl, max := max o.max (max a.temp b.temp),
           changed := if lvl = o.state then o.changed else time }

/-- Every channel takes the level of its hotter module, and the engine the clock limit of its hottest sensors (R209,
R379). -/
def Engine.takeLevels (x : Engine) : Engine :=
  let cs := Vector.ofFn (fun ch => x.channelEntry ch x.clock.now)
  { x with power := { x.power with
             channels := cs, heat := x.power.sensors.zipIdx.foldl (fun m q => max m (limitAt (kindOf q.2) q.1.lvl)) 0 },
           channels := Vector.ofFn (fun ch => { x.channels[ch] with level := cs[ch].lvl }),
           logs := { x.logs with thermalGen := x.logs.thermalGen + 1 } }

/-- A level source holds or not: its condition begins with a detection and ends quietly (R355). -/
def State.levelFault (s : State) (e : EngId) (d : Detection) (holds : Bool) : State :=
  if holds = ((s.eng e).flt[d.blk]).level.getLsbD d.src.val then s
  else s.detect e { d with clear := !holds }

/-- The thermal sources after a sample: TM1 and TM2 of each channel, THERM_WARN, THERM_CRIT (Table 17-3). TM1 and TM2 are one
source for all channels; the first hot channel names the unit. -/
def State.thermalFaults (s : State) (e : EngId) : State :=
  let x := s.eng e
  let hot (l : Nat) : Option (Fin 16) := (List.finRange 16).find? (fun ch => l ≤ x.channels[ch].level)
  let ch (l : Nat) : Nat := ((hot l).getD 0).val
  let s1 := s.levelFault e (plainFault 4 6 (ch 1)) (hot 1).isSome
  let s2 := s1.levelFault e (plainFault 4 7 (ch 2)) (hot 2).isSome
  let s3 := s2.levelFault e (plainFault 10 2 0) (x.power.sensors.zipIdx.any sensorWarns)
  if x.power.sensors.zipIdx.any sensorCritical then s3.detect e (plainFault 10 3 0) else s3

/-- Sensors from place `first` on are sampled (R378). -/
def State.sampleSensors (s : State) (e : EngId) (first : Nat) (rs : List (Option Int)) : State :=
  let s1 := s.modEng e (fun x =>
    ({ x with power := { x.power with sensors := x.power.sensors.mapIdx (fun i z =>
        if first ≤ i && i < first + rs.length then z.sample (kindOf i) s.now x.clock.now (rs.getD (i - first) none)
        else z) } } : Engine).takeLevels)
  s1.thermalFaults e

/-- Windows last 5.0 µs; then the channel is back in MEMORY mode (Table 9-2), unless its mode-register sequence hangs (R216). The
initialisation of the pool keeps it in PROCESSOR mode to its end (R217). -/
def Channel.settle (c : Channel) (now : Nat) : Channel :=
  match c.initEnd with
  | some t => if t ≤ now then { c with processor := false, initEnd := none } else c
  | none => if c.since + 5000 ≤ now && !c.stuck then { c with processor := false } else c

end Sys2Proof.Machine
end

