-- ==== Sys2Proof/Machine/WindowOps.lean ====
section
/-! DEFINITION. What an access to a window does besides its register: waking the engine, and an access that names no
register or that the partition's rights do not reach (03 R62, 17 R357, 18 R377). -/

namespace Sys2Proof.Machine

/-- An access reaches a window: in E1 and E2 it starts the exit (R377); in E3 the management processor serves it. The delay
of the access itself is left out (Scope). -/
def State.touch (s : State) (e : EngId) : State := if (s.eng e).power.state = 3 then s else s.wake e

/-! ### Configuration space and requests of another kind (R32, R36, R37, R58, R61, R63) -/

/-- Update one function of an engine. -/
def Engine.modFunc (x : Engine) (port : Fin 2) (p : PartId) (f : Func → Func) : Engine :=
  { x with funcs := x.funcs.set port.val (x.funcs[port].set p.val (f x.funcs[port][p]) p.isLt) port.isLt }

/-- The size field of Device Control as PCIe encodes it: 128 bytes times a power of two. -/
def sizeCode (n : Nat) : Nat := n.log2 - 7

/-- A write to a register of a function's configuration space. A size above what R37 allows is not taken, and the AER status bits
clear on 1, as PCIe defines them (PRESUMED, log 134). What BAR0 is set to is the host's own concern. -/
def Func.write (x : Func) (r : CfgReg) (v : Nat) : Func :=
  match r with
  | .bar0 => x
  | .deviceControl =>
    let m := 128 * 2 ^ bits v 7 5
    let q := 128 * 2 ^ bits v 14 12
    { x with mps := if m ≤ 512 then m else x.mps, mrrs := if q ≤ 4096 then q else x.mrrs }
  | .msixControl => { x with enable := natBit v 15, mask := natBit v 14 }
  | .aerUncorrectable => { x with aerUnc := x.aerUnc &&& ~~~(BitVec.ofNat 32 v) }
  | .aerCorrectable => { x with aerCor := x.aerCor &&& ~~~(BitVec.ofNat 32 v) }

/-- What a configuration read of a function gives; none where the function's partition does not exist or does not include the engine:
the read fails, and no memory is claimed (R58). BAR0 read for its size is a 64-bit, non-prefetchable BAR of 16 MiB (R61); MSI-X has a
table of 32 entries (R63). No row reads a configuration register. -/
def State.readConfig (s : State) (e : EngId) (port : Fin 2) (p : PartId) (r : CfgReg) : Option Nat :=
  let f := (s.eng e).funcs[port][p]
  if !s.hasWindow e p then none
  else match r with
  | .bar0 => some (2 ^ 64 - 2 ^ 24 + 4)
  | .deviceControl => some (sizeCode f.mps * 2 ^ 5 + sizeCode f.mrrs * 2 ^ 12)
  | .msixControl => some (31 + 2 ^ 14 * bit f.mask + 2 ^ 15 * bit f.enable)
  | .aerUncorrectable => some f.aerUnc.toNat
  | .aerCorrectable => some f.aerCor.toNat

/-- An uncorrectable error that AER reports on a P-port: its status bits, the count of R432, and PORT's AER_UNCORR (Table 17-3). -/
def State.aerError (s : State) (e : EngId) (port : Fin 2) (p : PartId) (b : Word) : State :=
  let n : Fin 22 := Fin.ofNat 22 (20 + port.val)
  (s.modEng e (fun x => (x.modFunc port p (fun f => { f with aerUnc := f.aerUnc ||| b })).modPort n Port.uncorrectable)).detect e
    { plainFault 8 5 n.val with master := BitVec.ofNat 16 (0x8000 + n.val), part := some p }

/-- An access that is not one of the window's memory: an atomic operation gets a remote invalid-request NAK (R32), a request with a
PASID prefix completes as an Unsupported Request, which AER reports (R36; PRESUMED bit 20, log 149), a configuration write reaches the
function's registers. -/
def State.otherAccess (s : State) (src : WinSrc) (v : Nat) : State :=
  let e := src.eng
  if !s.reachesWindow e src.part src.path then s
  else match src.via, src.path with
  | .atomic, .aport n => s.send (.nak e n)
  | .pasid, .pport i => (s.send (.unsupported e i.val src.part)).aerError e i src.part 0x00100000#32
  | .config r, .pport i => s.modEng e (fun x => x.modFunc i src.part (fun f => f.write r v))
  | _, _ => s

/-- An access of a window: one of its memory has its effect `f` when it gets there, any other kind its own; `v` is the value that a
configuration write gives. -/
def State.access (s : State) (src : WinSrc) (v : Nat) (f : State → State) : State :=
  if src.via ≠ .memory then s.otherAccess src v
  else if s.reachesWindow src.eng src.part src.path then f (s.touch src.eng) else s

/-- Offset of the first stream window and the bytes of one (R62). -/
def streamBase : Nat := 0x10000

/-- The window offset of a register of a stream. -/
def streamOff (n reg : Nat) : Nat := streamBase + 0x80 * n + reg

/-- The master ID of an access at a window offset: class 0 with the number of an existing stream, else 0x7FFF (R357). -/
def State.accessMaster (s : State) (p : PartId) (off : Nat) : BitVec 16 :=
  if streamBase ≤ off && off < streamOff (s.streams p) 0 then BitVec.ofNat 16 ((off - streamBase) / 0x80) else 0x7FFF

/-- A write to an offset that is unlisted, or that the rights do not reach: it is ignored, ACCESS is set in PFLT_STATUS without
an event, and the HOSTIF source ACCESS is detected (R62, R357, R433). -/
def State.badAccess (s : State) (e : EngId) (p : PartId) (off : Nat) : State :=
  (s.setPflt e p 4).detect e
    { plainFault 9 0 0 with addr := BitVec.ofNat 64 off, master := s.accessMaster p off, access := 0x1, part := some p }

/-- A command write to a stream: the eight task registers in one block write, then STK_GO (R109, R111). A stream that does
not exist is an unlisted offset. -/
def State.submitStream (s : State) (op : Nat) (q : StkReq) : State :=
  if !s.reachesWindow q.eng q.part q.path then s
  else
    let s1 := s.touch q.eng
    if s.streams q.part ≤ q.stream then s1.badAccess q.eng q.part (streamOff q.stream 0)
    else
      let a : StreamAt := { eng := q.eng, part := q.part, stream := q.stream }
      (s1.modStream a (fun x => { x with task := BitVec.ofNat 8 op :: padTo 55 q.body })).goStream a q.path

/-- A write to a control register of a stream, on whichever path it comes. -/
def State.onStream (s : State) (a : StreamAt) (reg : Nat) (f : State → State) : State :=
  if !(s.hasWindow a.eng a.part && s.serves a.eng) then s
  else if s.streams a.part ≤ a.stream then (s.touch a.eng).badAccess a.eng a.part (streamOff a.stream reg)
  else f (s.touch a.eng)

/-- A write of STK_CTRL: CLASS and HALT_ON_ERR take their values, then HALT or RESUME acts. The whole write is ignored, with
OVERRUN, when it sets HALT and RESUME, or would change CLASS while DEPTH is not 0 (R120, R127, R128; log 50). -/
def State.controlWord (s : State) (a : StreamAt) (w : Word) : State :=
  let x := s.stream a
  if (w.getLsbD 0 && w.getLsbD 1) || (w.getLsbD 2 ≠ x.storeClass && !x.queue.isEmpty) then
    s.modStream a (fun x => { x with overrun := true })
  else (s.modStream a (fun x => { x with storeClass := w.getLsbD 2, haltOnErr := w.getLsbD 3 })).controlStream a w.toNat

/-- Whether the stream of a location exists on an engine that works. -/
def State.streamLive (s : State) (a : StreamAt) : Bool :=
  s.hasWindow a.eng a.part && s.serves a.eng && a.stream < s.streams a.part

end Sys2Proof.Machine
end

