-- ==== Sys2Proof/Machine/NearMem.lean ====
section
/-! DEFINITION. Near-memory units: checking and running a micro-program, address translation, maintenance and demand windows,
module temperatures (09). -/

namespace Sys2Proof.Machine

/-! ### Rows and their owners -/

/-- The pool address of byte 0 of a rank row that an array address names. -/
def rowBase (w : Nat) : Nat := redoAddr (arrayOfWord w)

/-- Whether a rank row holds the bytes of one unit of an engine, at its own place or as the replacement of a row that was
lost (R199, R360). -/
def Engine.rowIn (x : Engine) (a u : Nat) : Bool := (List.range 16).any (fun c => x.phys (u + c * 4096) = a)

/-- The tensor that owns a rank row on an engine (R199). -/
def State.rowOwner (s : State) (e : EngId) (p : PartId) (a : Nat) : Option Tensor :=
  let owns (pl : Placement) : Bool := (assocGetD pl.units e.val []).any (fun u => (s.eng e).rowIn a u)
  (s.part p).tensors.find? (fun t => owns t.place || t.dest.any owns)

/-- The 8,192 data bytes of a rank row; rows 1000 and 1001 read as zeros and ones (R197, R200). -/
def Engine.rowBytes (x : Engine) (w : Nat) : List Byte :=
  if bits w 16 7 = 1000 then zeros 8192
  else if bits w 16 7 = 1001 then List.replicate 8192 0xFF
  else Memory.readBytes x.pool (rowBase w) 4096 ++ Memory.readBytes x.pool (rowBase w + 65536) 4096

/-- The data bytes of a rank row replaced. -/
def Engine.putRow (x : Engine) (w : Nat) (bs : List Byte) : Engine :=
  { x with pool := Memory.writeBytes (Memory.writeBytes x.pool (rowBase w) (bs.take 4096)) (rowBase w + 65536) (bs.drop 4096) }

/-- The local offsets of the two 4 KiB pieces of a rank row in a placement on an engine. -/
def Engine.rowSpans (x : Engine) (pl : Placement) (e : EngId) (a : Nat) : List Nat :=
  ((assocGetD pl.units e.val []).zipIdx).flatMap (fun (u, i) =>
    ((List.range 16).filter (fun c => x.phys (u + c * 4096) = a)).flatMap (fun c =>
      [i * unitBytes + c * 4096, i * unitBytes + 65536 + c * 4096]))

/-- The placements of a tensor: its own, and its destination while it moves. -/
def Tensor.places (t : Tensor) : List Placement := t.place :: t.dest.toList

/-- The groups that 4 KiB from a local offset touch. -/
def Tensor.groupsAt (t : Tensor) (lo : Nat) : List Nat :=
  let g := lo / t.stripeBytes
  (List.range ((lo + 4095) / t.stripeBytes + 1 - g)).map (fun i => g + i)

/-- The stripes that a rank row of an engine holds. -/
def Tensor.stripesOnRow (t : Tensor) (e : EngId) (a : Nat) (x : Engine) : List Nat :=
  t.places.flatMap (fun pl => (x.rowSpans pl e a).flatMap (fun lo => (t.groupsAt lo).flatMap (fun g =>
    ((List.range pl.data).map (fun i => g * pl.data + i)).filter (fun k =>
      pl.dataEngine k = e && k < t.stripes && t.home k = pl))))

/-- The stripes of a rank row become poisoned (R216). -/
def State.poisonRow (s : State) (e : EngId) (p : PartId) (a : Nat) : State :=
  match s.rowOwner e p a with
  | some t => s.modTensor p t.id (fun t => t.addPoison (t.stripesOnRow e a (s.eng e)))
  | none => s

/-- Whether a rank row belongs to a poisoned stripe. -/
def State.rowPoisoned (s : State) (e : EngId) (p : PartId) (a : Nat) : Bool :=
  (s.rowOwner e p a).any (fun t => (t.stripesOnRow e a (s.eng e)).any (fun k => t.poison.contains k))

/-- A rank row has been written afresh with valid check bits (R201, R203). -/
def State.scrubRow (s : State) (e : EngId) (p : PartId) (a : Nat) : State :=
  match s.rowOwner e p a with
  | some t =>
    let x := s.eng e
    s.modTensor p t.id (fun t => t.scrub (t.poison.flatMap (fun k => (t.pieces k).filter (fun q =>
      q.1 = e.val && (x.rowSpans (t.home k) e a).contains (q.2 * 4096)))))
  | none => s

/-- Update one channel of an engine. -/
def Engine.modChannel (x : Engine) (ch : Fin 16) (f : Channel → Channel) : Engine :=
  { x with channels := x.channels.set ch.val (f x.channels[ch]) ch.isLt }

/-- Update one channel of an engine of the shelf. -/
def State.modChannel (s : State) (e : EngId) (ch : Fin 16) (f : Channel → Channel) : State := s.modEng e (fun x => x.modChannel ch f)

/-! ### Checks at GO (R213) -/

/-- Fields of an entry (Table 9-6). -/
def nmxOp (b : BitVec 128) : Nat := nmxField b 0 1

/-- COUNT of an entry. -/
def nmxCount (b : BitVec 128) : Nat := nmxField b 2 2

/-- DST of an entry. -/
def nmxDst (b : BitVec 128) : Nat := nmxField b 4 4

/-- The sources that an entry's operation uses. -/
def nmxSrcs (b : BitVec 128) : List Nat :=
  (if 1 ≤ nmxSources (nmxOp b) then [nmxField b 8 4] else []) ++ (if nmxSources (nmxOp b) = 2 then [nmxField b 12 4] else [])

/-- Whether an operation is the array unit's. -/
def arrayOp (op : Nat) : Bool := op < 0x10

/-- Whether an array address stays within its encoding and, where its row steps, within row 999. -/
def addrBad (w count : Nat) : Bool :=
  2 ^ 30 ≤ w || 476 < bits w 25 17 || (bits w 16 7 < 1000 && 1000 < bits w 16 7 + count)

/-- A reserved encoding or a COUNT out of range in one entry. -/
def nmxInvalid (b : BitVec 128) : Bool :=
  let op := nmxOp b
  !([0x01, 0x02, 0x03, 0x04, 0x05, 0x06, 0x07, 0x10, 0x11, 0x12, 0x13, 0x14, 0x15, 0x16] : List Nat).contains op ||
    1 < nmxField b 1 1 || nmxCount b = 0 || 1000 < nmxCount b || addrBad (nmxDst b) (nmxCount b) ||
    (nmxSrcs b).any (fun w => addrBad w (nmxCount b)) ||
    (nmxSources op = 0 && nmxField b 8 4 ≠ 0) ||
    (nmxSources op ≠ 2 && (if op = 0x11 then 256 ≤ nmxField b 12 4 else nmxField b 12 4 ≠ 0))

/-- A row that an entry may not name, or a class that it may not write. -/
def State.nmxForbidden (s : State) (e : EngId) (p : PartId) (b : BitVec 128) : Bool :=
  let own (w : Nat) (f : Tensor → Bool) : Bool :=
    (entryRows e w (nmxCount b)).all (fun r => (s.rowOwner e p (rowBase r.2)).any f)
  1000 ≤ bits (nmxDst b) 16 7 || (nmxSrcs b).any (fun w => 1002 ≤ bits w 16 7) ||
    !own (nmxDst b) (fun t => !([0, 4, 5] : List Nat).contains t.cls) ||
    (nmxSrcs b).any (fun w => bits w 16 7 < 1000 && !own w (fun _ => true))

/-- Bank and rank of an array address, without its row. -/
def subarrayOf (w : Nat) : Nat × Nat := (bits w 29 17, bits w 6 0)

/-- Operands that an entry's unit does not reach, or an array operation in a PLAIN slice (R201, R202). -/
def State.nmxLayout (s : State) (e : EngId) (b : BitVec 128) : Bool :=
  let d := nmxDst b
  if arrayOp (nmxOp b) then
    (nmxSrcs b).any (fun w => subarrayOf w ≠ subarrayOf d) ||
      (nmxOp b ≠ 0x02 && !(s.eng e).protectedSlices.contains (bits d 25 17))
  else (nmxSrcs b).any (fun w => bits w 29 26 ≠ bits d 29 26 || bits w 1 1 ≠ bits d 1 1)

/-- Whether an entry names a fenced channel. -/
def State.nmxFenced (s : State) (e : EngId) (b : BitVec 128) : Bool :=
  (nmxDst b :: nmxSrcs b).any (fun w => ((s.eng e).flt[(4 : Fin 11)]).isFenced (bits w 29 26))

/-- The first failure of the checks of R213 in their order, with the entry at which it occurred: SC_NOT_JOINED of R431 and
SC_NO_QUORUM come first (R93). A program without LAST fails at entry 1,023. -/
def State.nmxCheck (s : State) (e : EngId) (p : PartId) (n : Nmx) : Option (Status × Nat) :=
  let prog := n.program 1024 n.start.toNat
  let first (st : Status) (f : BitVec 128 → Bool) : Option (Status × Nat) :=
    (prog.find? (fun x => f x.2)).map (fun x => (st, x.1))
  if (s.eng e).member.state = 5 then some (.noQuorum, 0)
  else if !s.joined e then some (.notJoined, 0)
  else
    (first .invalidField nmxInvalid) <|>
      (if (prog.getLast?).all (fun x => natBit (nmxField x.2 1 1) 0) then none else some (.invalidField, 1023)) <|>
      (first .notPermitted (s.nmxForbidden e p)) <|> (first .layout (s.nmxLayout e)) <|> (first .fenced (s.nmxFenced e))

/-! ### Registers and completion -/

/-- Update the NMX block of a window. -/
def State.modNmx (s : State) (e : EngId) (p : PartId) (f : Nmx → Nmx) : State :=
  s.modWin e p (fun w => { w with nmx := f w.nmx })

/-- A micro-program ends: SC, ERR_INDEX, DONE, VECTOR (R214, Table 9-4). -/
def State.endNmx (s : State) (e : EngId) (p : PartId) (st : Status) (at_ : Nat) : State :=
  (s.modNmx e p (fun n => { n with busy := false, locked := false, done := true, sc := statusCode st,
                                   errIndex := BitVec.ofNat 10 at_, prog := [], next := 0, row := 0, failed := none })).signalBlock
    e p (s.win e p).nmx.vector.toNat

/-- START and VECTOR written; a VECTOR that names no vector keeps its value (R13, Table 9-4). -/
def Nmx.control (n : Nmx) (w : Word) : Nmx :=
  let v := bits w.toNat 20 16
  { n with start := BitVec.ofNat 10 (bits w.toNat 10 1), vector := if v = 1 then n.vector else BitVec.ofNat 5 v }

/-- Whether a program's row locks conflict with a lock that stream commands or digest jobs hold or wait for: WRITE on rows it writes,
READ on rows it only reads (R214). -/
def State.nmxLockBlocked (s : State) (e : EngId) (p : PartId) (n : Nmx) : Bool :=
  (s.openSlots p).any (fun o => o.slot.lockAt.isSome && (o.slot.lock (s.part p)).any (fun l =>
    (n.writes e).any (l.onRow s p) || (l.kind ≠ 0 && (n.reads e).any (l.onRow s p)))) ||
  (List.finRange 16).any (fun m => (s.win m p).dgx.run.any (fun r => r.lockAt.isSome &&
    r.locks.any (fun l => (n.writes e).any (l.onRow s p))))

/-- The program takes its locks when it may: not in an update phase (R141), not behind the closed gate of a cut (R181), with no
conflict. -/
def State.lockNmx (s : State) (e : EngId) (p : PartId) : State :=
  let n := (s.win e p).nmx
  let x := s.part p
  if n.busy && !n.locked && x.step.phase ≠ 3 && !x.cut.any (fun d => hasEngine d.gates e) && !s.nmxLockBlocked e p n then
    s.modNmx e p (fun n => { n with locked := true })
  else s

/-- 1 is written to GO with START and VECTOR beside it (R213): the entries run as they were checked (log 110). -/
def State.goNmx (s : State) (e : EngId) (p : PartId) (w : Word) : State :=
  let s1 := s.modNmx e p (fun n => n.control w)
  let n := (s1.win e p).nmx
  if n.busy then s1
  else match s1.nmxCheck e p n with
  | some (st, i) => s1.endNmx e p st i
  | none => (s1.modNmx e p (fun n => { n with busy := true, prog := n.program 1024 n.start.toNat, next := 0, row := 0,
                                              failed := none })).lockNmx e p

/-- NMX_GO: bit 0 of the written word is 1. -/
def execNmxGo (src : WinSrc) (w : Word) (s : State) : Host.Outcome State Fault Refusal :=
  .next (s.access src w.toNat (fun s => if !s.expert src.part then s.badAccess src.eng src.part 0x100000
    else s.goNmx src.eng src.part w))

/-! ### Running a program -/

/-- Credits per row of an operation, with the RECODE that R203 reserves after AND, OR and NOT (Table 9-1). -/
def nmxCredits (op : Nat) : Nat :=
  match op with
  | 0x02 | 0x03 | 0x11 | 0x16 => 1
  | 0x04 | 0x05 => 4
  | 0x07 | 0x12 | 0x13 | 0x14 => 3
  | _ => 2

/-- The data of a result row from those of its sources and its own (Table 9-1). -/
def nmxResult (b : BitVec 128) (d a c : List Byte) : List Byte :=
  match nmxOp b with
  | 0x01 | 0x10 => a
  | 0x02 => zeros 8192
  | 0x03 => List.replicate 8192 0xFF
  | 0x04 | 0x12 => List.zipWith (fun x y => x &&& y) a c
  | 0x05 | 0x13 => List.zipWith (fun x y => x ||| y) a c
  | 0x06 | 0x14 => List.zipWith (fun x y => x ^^^ y) a c
  | 0x07 | 0x15 => a.map (fun x => ~~~x)
  | 0x11 => List.replicate 8192 (BitVec.ofNat 8 (nmxField b 12 4))
  | _ => d

/-- The array address of the row that an operand names at step `i` of an entry. -/
def stepRow (w i : Nat) : Nat := if 1000 ≤ bits w 16 7 then w else w + 128 * i

/-- One more activation of a row in the present interval (R211). -/
def Engine.activate (x : Engine) (w : Nat) : Engine :=
  let ch : Fin 16 := Fin.ofNat 16 (bits w 29 26)
  let c := x.channels[ch]
  let n := assocGetD c.acts w 0 + 1
  let c1 := { c with acts := assocSet c.acts w n, refresh := if n = 64 then c.refresh ++ [w] else c.refresh }
  { x with channels := x.channels.set ch.val c1 ch.isLt }

/-- Whether an operation ends with a RECODE on its module unit: AND, OR, NOT and RECODE itself (R203). -/
def recodes (op : Nat) : Bool := op = 0x04 || op = 0x05 || op = 0x07 || op = 0x16

/-- One row of one entry: its data, its activations, and the check bits of the result. COPY and XOR carry the poison of a source along;
every other operation but RECODE leaves a row with valid ones (R201, R203). -/
def State.nmxRow (s : State) (e : EngId) (p : PartId) (b : BitVec 128) (i : Nat) : State :=
  let d := stepRow (nmxDst b) i
  let srcs := (nmxSrcs b).map (fun w => stepRow w i)
  let op := nmxOp b
  let x := s.eng e
  let rs := srcs.map (fun w => x.rowBytes w)
  let carried := (op = 0x01 || op = 0x06) && srcs.any (fun w => bits w 16 7 < 1000 && s.rowPoisoned e p (rowBase w))
  let s1 := s.modEng e (fun x => x.putRow d (nmxResult b (x.rowBytes d) (rs.getD 0 []) (rs.getD 1 [])))
  let s2 := if arrayOp op then s1.modEng e (fun x => (d :: srcs).foldl Engine.activate x) else s1
  if carried then s2.poisonRow e p (rowBase d) else if op = 0x16 then s2 else s2.scrubRow e p (rowBase d)

/-- The data of byte `j` of a group before the run, with what was lost reconstructed; none beyond the parity. -/
def State.oldGroup (s : State) (t : Tensor) (pl : Placement) (g j : Nat) : Option (List Byte) :=
  recover (s.groupData t pl g j) (s.groupParity t pl g j 0) (s.groupParity t pl g j 1)

/-- The parity of byte `j` of a group is computed again from the data after the run; lost data keeps its value (R214, R276,
R277). -/
def State.reparity (s s0 : State) (t : Tensor) (pl : Placement) (g j : Nat) : State :=
  match s0.oldGroup t pl g j with
  | none => s
  | some old =>
    let d := (s.groupData t pl g j).zipIdx.map (fun (b, i) => b.getD (old.getD i 0))
    (List.range pl.parity).foldl (fun s i =>
      let e := pl.parityEngine g i
      s.putPlace pl e (g * t.stripeBytes + j) (if i = 0 then parity0 d else parity1 d)) s

/-- Shelf parity after one written row; `s0` is the state before it. -/
def State.reparityRow (s s0 : State) (e : EngId) (p : PartId) (a : Nat) : State :=
  match s0.rowOwner e p a with
  | none => s
  | some t =>
    t.places.foldl (fun s pl => ((s0.eng e).rowSpans pl e a).foldl (fun s lo =>
      (List.range 4096).foldl (fun s i =>
        if (lo + i) / t.stripeBytes < t.groups pl then
          s.reparity s0 t pl ((lo + i) / t.stripeBytes) ((lo + i) % t.stripeBytes)
        else s) s) s) s

/-- The 4 KiB blocks of a tensor's unit that lie in a rank row, at its own place or as the replacement of a lost one (R199, R360). -/
def State.rowBlocks (s : State) (e : EngId) (p : PartId) (a : Nat) : List (Nat × Nat) :=
  let x := s.eng e
  (s.rowOwner e p a).elim [] (fun t => t.places.flatMap (fun pl => (assocGetD pl.units e.val []).flatMap (fun u =>
    ((List.range 16).filter (fun c => x.phys (u + c * 4096) = a)).flatMap (fun c =>
      [(e.val, u / 4096 + c), (e.val, u / 4096 + 16 + c)]))))

/-- Whether a row waits for the copier (R182, R214). -/
def State.rowUncopied (s : State) (e : EngId) (p : PartId) (a : Nat) : Bool :=
  (s.part p).epochs.any (fun ep => ep.state = 1 && (s.rowBlocks e p a).any (fun b => !ep.isCopied b))

/-- The entry of a program that runs next, when its locks are held and nothing has failed. -/
def Nmx.current (n : Nmx) : Option (Nat × BitVec 128) := if n.busy && n.locked && n.failed.isNone then n.prog[n.next]? else none

/-- The channel of an entry: all its operands lie on that of DST (R201). -/
def nmxChannel (b : BitVec 128) : Nat := bits (nmxDst b) 29 26

/-- Whether a window of a channel can run the next row of a partition's program: outside an update phase, within the budget, not
before the copier; at TM2 only of an entry that has begun (R141, R182, R208, R209). -/
def State.rowReady (s : State) (e : EngId) (ch : Fin 16) (p : PartId) : Bool :=
  let n := (s.win e p).nmx
  let c := (s.eng e).channels[ch]
  n.current.any (fun x => nmxChannel x.2 = ch.val && (c.level < 2 || 0 < n.row) && nmxCredits (nmxOp x.2) ≤ c.budget &&
    (s.part p).step.phase ≠ 3 && !s.rowUncopied e p (rowBase (stepRow (nmxDst x.2) n.row)))

/-- The partition whose program a channel serves next, round-robin in ascending ID (R208). -/
def State.nextProgram (s : State) (e : EngId) (ch : Fin 16) : Option PartId :=
  let t := ((s.eng e).channels[ch]).turn
  (((List.finRange 64).filter (fun p => t < p.val)) ++ ((List.finRange 64).filter (fun p => p.val ≤ t))).find?
    (fun p => s.hasWindow e p && s.rowReady e ch p)

/-- Credits that a program uses in the present interval. -/
def Nmx.spend (n : Nmx) (interval k : Nat) : Nmx :=
  { n with used := assocSet (n.used.filter (fun u => interval ≤ u.1 + 1)) interval (assocGetD n.used interval 0 + k) }

/-- CREDITS: what the partition used in the last interval (Table 9-4). -/
def Nmx.credits (n : Nmx) (now : Nat) : Nat := if now < 65536 then 0 else assocGetD n.used (now / 65536 - 1) 0

/-- The next row of a program. -/
def Nmx.advance (n : Nmx) (b : BitVec 128) : Nmx :=
  if n.row + 1 < nmxCount b then { n with row := n.row + 1 } else { n with next := n.next + 1, row := 0 }

/-- Whether the RECODE of a row meets an uncorrectable error: an explicit one of a poisoned row, or the one that the window names
(R216). -/
def State.recodeFails (s : State) (e : EngId) (p : PartId) (b : BitVec 128) (row : Nat) (hit : Bool) : Bool :=
  recodes (nmxOp b) && (hit || (nmxOp b = 0x16 && s.rowPoisoned e p (rowBase (stepRow (nmxDst b) row))))

/-- A window runs one row of a program, and shelf parity follows it (R214; log 147). A row whose RECODE fails is poisoned, and the
program fails at its entry (R216). -/
def State.nmxStep (s : State) (e : EngId) (ch : Fin 16) (p : PartId) (hit : Bool) : State :=
  let n := (s.win e p).nmx
  match n.current with
  | none => s
  | some (i, b) =>
    let a := rowBase (stepRow (nmxDst b) n.row)
    let k := nmxCredits (nmxOp b)
    let s1 := ((s.nmxRow e p b n.row).reparityRow s e p a).modChannel e ch (fun c => { c with budget := c.budget - k, turn := p.val })
    if s.recodeFails e p b n.row hit then
      ((s1.poisonRow e p a).pfltEvent e p 2).modNmx e p (fun n =>
        { n.spend (s.now / 65536) k with failed := some (.mediumError, i) })
    else s1.modNmx e p (fun n => (n.advance b).spend (s.now / 65536) k)

/-- Expert programs share the leftover credits of a window row by row, round-robin (R208; log 148). `k` counts the rows that have run;
each takes a credit at least, so that the budget bounds them. -/
def State.expertRows (s : State) (e : EngId) (ch : Fin 16) (out : WindowEnd) (k : Nat) : Nat → State
  | 0 => s
  | fuel + 1 => match s.nextProgram e ch with
    | none => s
    | some p => (s.nmxStep e ch p (out.recodeFails = some k)).expertRows e ch out (k + 1) fuel

/-- The entry with which a program has ended, and the status and ERR_INDEX that it shows: the entry that failed, one that names a
channel fenced since GO (Table 4-5), or the last one (R214). -/
def State.nmxEnd (s : State) (e : EngId) (n : Nmx) : Option (Nat × Status × Nat) :=
  match n.failed, n.prog[n.next]? with
  | some (st, i), _ => some (i, st, i)
  | none, none => some (((n.prog.map Prod.fst).getLast?).getD n.start.toNat, .ok, 0)
  | none, some (i, b) => if s.nmxFenced e b then some (i, .fenced, i) else none

/-- NMX_COMPLETE: the program has ended with the entry `last`, and DONE is set and VECTOR signalled (R214). -/
def execNmxComplete (e : EngId) (p : PartId) (last : Fin 1024) (s : State) : Host.Outcome State Fault Refusal :=
  let s1 := s.lockNmx e p
  let n := (s1.win e p).nmx
  .next (if !(n.busy && n.locked && s.serves e) || (s.eng e).power.low then s1
    else match s1.nmxEnd e n with
    | some (i, st, err) => if last.val = i then s1.endNmx e p st err else s1
    | none => s1)

/-! ### Translation (R212) -/

/-- What a translation shows of a byte: engine, pool address, whether its slice is PROTECTED. -/
def State.translate (s : State) (t : Tensor) (off : Nat) : EngId × Nat × Bool :=
  let a := t.byteAddr off
  let x := s.eng a.1
  (a.1, x.phys a.2, x.protectedSlices.contains (sliceOf (x.phys a.2)))

/-- XLATE_OFF is written. For a byte of another engine, or no byte at all, the manual does not say what the other result
registers read: free values (log 52). -/
def State.xlate (s : State) (e : EngId) (p : PartId) (off : DWord) : State :=
  let n := (s.win e p).nmx
  let (a, s1) := s.draw 64
  let (w, s2) := s1.draw 32
  let (z, s3) := s2.draw 5
  match ((s.part p).tensor? n.xTid.toNat).filter (fun t => off.toNat < t.bytes) with
  | some t =>
    let r := s.translate t off.toNat
    if r.1 = e then
      s.modNmx e p (fun n => { n with xOff := off, xPool := BitVec.ofNat 64 r.2.1, xArray := arrayWord (undoAddr r.2.1),
                                      xValid := true, xEngine := BitVec.ofNat 4 e.val, xProtected := r.2.2 })
    else
      s3.modNmx e p (fun n => { n with xOff := off, xPool := a, xArray := w, xValid := false,
                                       xEngine := BitVec.ofNat 4 r.1.val, xProtected := z.getLsbD 4 })
  | none =>
    s3.modNmx e p (fun n => { n with xOff := off, xPool := a, xArray := w, xValid := false,
                                     xEngine := z.setWidth 4, xProtected := z.getLsbD 4 })

/-- XLATE_START. -/
def execXlateStart (src : WinSrc) (off : DWord) (s : State) : Host.Outcome State Fault Refusal :=
  .next (s.access src off.toNat (fun s => if !s.expert src.part then s.badAccess src.eng src.part 0x100018
    else s.xlate src.eng src.part off))

/-! ### Windows -/

/-- Whether a channel can open a window: its engine runs in E0 or E1, it is not fenced and in MEMORY mode (Table 9-7). -/
def State.windowable (s : State) (e : EngId) (ch : Fin 16) : Bool :=
  s.serves e && (s.eng e).power.state ≤ 1 && !((s.eng e).flt[(4 : Fin 11)]).isFenced ch.val && !((s.eng e).channels[ch]).processor

/-- The credits that the next window owes: one for each of the two neighbours of every row activated 64 times (R211; log 53). -/
def Channel.owed (c : Channel) : Nat := 2 * c.refresh.length

/-- The maintenance window of an interval opens: the budget of the level, less what was borrowed and what the neighbours' refresh
takes (R206–R211). -/
def Channel.interval (c : Channel) (now : Nat) (stuck : Bool) : Channel :=
  { c with processor := true, since := now, stuck := stuck, slot := some (now / 65536),
           budget := levelBudget c.level - c.borrowed - c.owed, borrowed := 0, acts := [], refresh := [] }

/-- The unit piece of a walk on a channel, as a 4 KiB block. -/
def walkBlock (e : EngId) (ch : Fin 16) (u : Nat) : Nat × Nat := (e.val, u / 4096 + ch.val)

/-- Credits that copying the row of a block takes: COPY for a full cut and for parity rows, XOR and COPY for a delta's data
rows; an untwinned tensor's rows go to the epoch area without row operations, and a row copied ahead takes none (R182, R207,
Table 9-1). -/
def State.copyCredits (s : State) (p : PartId) (ep : Epoch) (e : EngId) (b : Nat × Nat) : Nat :=
  let x := s.eng e
  let a := x.phys (b.2 / 32 * unitBytes + b.2 % 16 * 4096)
  if ep.copied.contains b then 0
  else match s.rowOwner e p a with
  | some t => if !t.twin then 0 else if ep.kind = 2 && !(t.stripesOnRow e a x).isEmpty then 4 else 2
  | none => 0

/-- Copying a row activates it and its twin once for each operation (R211). -/
def Engine.activateCopy (x : Engine) (b : Nat × Nat) (credits : Nat) : Engine :=
  let w := (arrayWord (undoAddr (x.phys (b.2 / 32 * unitBytes + b.2 % 16 * 4096)))).toNat
  (List.range (credits / 2)).foldl (fun x _ => (x.activate w).activate (w + 500 * 128)) x

/-- The channels of an engine that are not fenced. -/
def Engine.openChannels (x : Engine) : List (Fin 16) := (List.finRange 16).filter (fun c => !(x.flt[(4 : Fin 11)]).isFenced c.val)

/-- How far the walk of an epoch has come on the slowest open channel of an engine. -/
def Engine.walkedAll (x : Engine) (ep : Epoch) (e : EngId) : Nat :=
  x.openChannels.foldl (fun m c => min m (ep.walked e.val c.val)) (ep.walkUnits e.val).length

/-- The credits that set the pace of the walk on an engine: those of its smallest budget (R210). -/
def Engine.pace (x : Engine) : Nat := x.openChannels.foldl (fun m c => min m (levelBudget (x.channels[c]).level)) 500

/-- The walk of an epoch goes on on one channel, unit by unit, while the channel's budget and the pace of the engine allow; `pace` is
what is left of that. A paused copier stops (R185, R210). -/
def State.walkOn (s : State) (p : PartId) (n : Nat) (e : EngId) (ch : Fin 16) (pace : Nat) : Nat → State × Nat
  | 0 => (s, pace)
  | fuel + 1 => match (s.part p).epoch? n with
    | none => (s, pace)
    | some ep => match (ep.walkUnits e.val)[ep.walked e.val ch.val]? with
      | none => (s, pace)
      | some u =>
        let b := walkBlock e ch u
        let k := s.copyCredits p ep e b
        if ep.state ≠ 1 || ep.paused || pace < k || ((s.eng e).channels[ch]).budget < k then (s, pace)
        else
          ((s.modEpoch p n (fun ep => { ep with walk := assocSet ep.walk (16 * e.val + ch.val) (ep.walked e.val ch.val + 1) })).modEng
            e (fun x => (x.activateCopy b k).modChannel ch (fun c => { c with budget := c.budget - k }))).walkOn p n e ch (pace - k) fuel

/-- A fenced channel has no window: its rows stand elsewhere, and its part of the walk follows the slowest open channel (R360). -/
def State.walkFenced (s : State) (p : PartId) (n : Nat) (e : EngId) : State :=
  let x := s.eng e
  s.modEpoch p n (fun ep =>
    let m := x.walkedAll ep e
    { ep with walk := ((List.finRange 16).filter (fun c => !x.openChannels.contains c)).foldl (fun w c =>
        assocSet w (16 * e.val + c.val) m) ep.walk })

/-- The copier in the window of one channel: the epochs of each partition in ascending ID, earlier ones first (log 136). Units that this
channel is ahead of the slowest count against the pace. -/
def State.copyWindow (s : State) (e : EngId) (ch : Fin 16) : State :=
  (s.partIds.foldl (fun (acc : State × Nat) p =>
    if !s.hasWindow e p then acc
    else ((s.part p).epochs.filter (fun ep => ep.state = 1)).foldl (fun acc ep =>
      let (s, pace) := acc
      let units := ep.walkUnits e.val
      let low := (s.eng e).walkedAll ep e
      let ahead := (((units.drop low).take (ep.walked e.val ch.val - low)).map (fun u =>
        s.copyCredits p ep e (walkBlock e ch u))).sum
      let r := s.walkOn p ep.n e ch (pace - ahead) units.length
      (r.1.walkFenced p ep.n e, r.2)) acc) (s, (s.eng e).pace)).1

/-- MAINTENANCE_WINDOW: the one window of a channel in an interval of 65.536 µs. The copier goes first, expert programs share what it
leaves (R206, R208, Table 9-2). -/
def execMaintenanceWindow (e : EngId) (w : ChannelWindow) (s : State) : Host.Outcome State Fault Refusal :=
  let ch := w.ch
  .next (if !s.windowable e ch || ((s.eng e).channels[ch]).slot = some (s.now / 65536) then s
    else
      let s1 := s.modChannel e ch (fun c => c.interval s.now w.out.stuck)
      let s2 := (s1.partIds.filter (fun p => s1.hasWindow e p)).foldl (fun s p => s.lockNmx e p) s1
      let s3 := s2.copyWindow e ch
      s3.expertRows e ch w.out 0 ((s3.eng e).channels[ch]).budget)

/-- A 4 KiB block of an engine lies on a channel now. -/
def State.blockOn (s : State) (e : EngId) (ch : Fin 16) (b : Nat × Nat) : Bool :=
  b.1 = e.val && channelOf ((s.eng e).phys (4096 * b.2)) = ch.val

/-- The blocks that writes of a partition need: of stream commands that wait, of the next row of a micro-program, and of the update
phase (R141, R182, R207, R214). -/
def State.neededBlocks (s : State) (p : PartId) (e : EngId) : List (Nat × Nat) :=
  let x := s.part p
  let n := (s.win e p).nmx
  (s.openSlots p).flatMap (fun o => if o.slot.op = 0x02 && o.slot.waits.state then s.copyBlocks p o.slot else []) ++
    n.current.elim [] (fun q => s.rowBlocks e p (rowBase (stepRow (nmxDst q.2) n.row))) ++
    (if x.step.phase = 3 then x.updateBlocks (x.policy.getD []) else [])

/-- The blocks on a channel that writes of a partition wait for, per epoch in COPYING. -/
def State.waitedBlocks (s : State) (p : PartId) (ep : Epoch) (e : EngId) (ch : Fin 16) : List (Nat × Nat) :=
  ((s.neededBlocks p e).filter (fun b => s.blockOn e ch b && !ep.isCopied b)).dedup

/-- The whole rank row of a block: both its granules. -/
def rowOfBlock (b : Nat × Nat) : List (Nat × Nat) := [(b.1, b.2 / 32 * 32 + b.2 % 16), (b.1, b.2 / 32 * 32 + 16 + b.2 % 16)]

/-- One waiting row is copied ahead of the walk when the next interval's budget still covers it (R207); a paused copier has
no room for rows that go to the epoch area. -/
def State.demandOne (s : State) (p : PartId) (n : Nat) (e : EngId) (ch : Fin 16) (stuck : Bool) (b : Nat × Nat) : State :=
  match (s.part p).epoch? n with
  | none => s
  | some ep =>
    let c := (s.eng e).channels[ch]
    let cost := s.copyCredits p ep e b
    if ep.isCopied b || levelBudget c.level < c.borrowed + cost || (ep.paused && cost ≠ 2) then s
    else ((s.modEpoch p n (fun ep => { ep with copied := ep.copied ++ rowOfBlock b })).modEng e (fun x => x.activateCopy b cost)
      ).modChannel e ch (fun c => { c with borrowed := c.borrowed + cost, processor := true, since := s.now, stuck := stuck })

/-- DEMAND_WINDOW: the rows that waiting writes need on a channel are copied at once (R207). -/
def execDemandWindow (e : EngId) (w : ChannelWindow) (s : State) : Host.Outcome State Fault Refusal :=
  let ch := w.ch
  .next (if !s.windowable e ch then s
    else s.partIds.foldl (fun s p => ((s.part p).epochs.filter (fun ep => ep.state = 1)).foldl (fun s ep =>
      (s.waitedBlocks p ep e ch).foldl (fun s b => s.demandOne p ep.n e ch w.out.stuck b) s) s) s)

/-- MODE_TIMEOUT: a window's mode-register sequence has not returned the channel to MEMORY mode within 10 µs; the channel is
fenced, and no access waits for it any more (R216). -/
def execModeTimeout (e : EngId) (ch : Fin 16) (s : State) : Host.Outcome State Fault Refusal :=
  let c := (s.eng e).channels[ch]
  .next (if s.serves e && c.processor && c.stuck && c.since + 10000 ≤ s.now then
    (s.modChannel e ch (fun c => { c with processor := false, stuck := false })).detect e { plainFault 4 4 ch.val with access := 0xB }
  else s)

/-- MODULE_TEMP_SAMPLE: a buffer chip reads its module (R209, R378). -/
def execModuleTempSample (e : EngId) (m : Fin 32) (temp : Option Int) (s : State) : Host.Outcome State Fault Refusal :=
  .next (if (s.eng e).powered then s.sampleSensors e (26 + m.val) [temp] else s)

end Sys2Proof.Machine
end

