-- ==== Sys2Proof/Machine/Digest.lean ====
section
/-! DEFINITION. The digest engine: DGX jobs, their checks, contexts and results, lanes, preemption and lane failures (12). -/

namespace Sys2Proof.Machine

/-! ### Hash states (R261, R263, R270) -/

/-- Block bytes of an algorithm (Table 12-1). -/
def algBlock (alg : Nat) : Nat := [0, 64, 128, 128, 136].getD alg 0

/-- Digest bytes of an algorithm. -/
def algDigest (alg : Nat) : Nat := [0, 32, 48, 64, 32].getD alg 0

/-- Bytes of a chaining state (Table 12-4). -/
def algChain (alg : Nat) : Nat := [0, 32, 64, 64, 200].getD alg 0

/-- The largest byte count of a message (12 At the limits). -/
def algLimit (alg : Nat) : Nat := [0, 2 ^ 61 - 1, 2 ^ 125 - 1, 2 ^ 125 - 1, 2 ^ 128 - 1].getD alg 0

/-- CTX_LEN of an algorithm and mode (Table 12-5). -/
def ctxLength (alg mode : Nat) : Nat :=
  if mode = 0 then 32 + algChain alg else roundUp (32 + 2 * algChain alg) 8 + 8

/-- The words of a chaining state: big-endian, as FIPS 180-4 writes words (log 55). -/
def chainWords (w : Nat) (c : List Byte) : List (BitVec w) := (chunks (w / 8) c).map (fun b => BitVec.ofNat w (beNat b))

/-- The lanes of a SHA-3 state. -/
def chainLanes (c : List Byte) : List (BitVec 64) := (chunks 8 c).map (fun b => BitVec.ofNat 64 (leNat b))

/-- The chaining state at the start of a message. -/
def chainInit (alg : Nat) : List Byte :=
  match alg with
  | 1 => shaBytes sha256Init
  | 2 => shaBytes sha384Init
  | 3 => shaBytes sha512Init
  | _ => sha3Bytes sha3Init

/-- A chaining state after whole blocks of message. -/
def chainAbsorb (alg : Nat) (c bs : List Byte) : List Byte :=
  match alg with
  | 1 => shaBytes (shaBlocks sha256Rot sha256K (chainWords 32 c) bs)
  | 2 | 3 => shaBytes (shaBlocks sha512Rot sha512K (chainWords 64 c) bs)
  | _ => sha3Bytes ((chunks 136 bs).foldl sha3Block (chainLanes c))

/-- The padding of a message of `n` bytes (R263). -/
def chainPad (alg n : Nat) : List Byte := if alg = 4 then sha3Pad n else shaPad (algBlock alg) n

/-- The digest: what remains of a message of `n` bytes, padded, on a chaining state. -/
def chainFinish (alg n : Nat) (c rest : List Byte) : List Byte :=
  (chainAbsorb alg c (rest ++ chainPad alg n)).take (algDigest alg)

/-- The key block of HMAC: a key longer than the block is hashed first (R265). -/
def keyBlock (alg : Nat) (key : List Byte) : List Byte :=
  padTo (algBlock alg) (if algBlock alg < key.length then chainFinish alg key.length (chainInit alg) key else key)

/-- The chaining state of HMAC after the key block XOR a pad byte. -/
def hmacStart (alg : Nat) (key : List Byte) (pad : Byte) : List Byte :=
  chainAbsorb alg (chainInit alg) ((keyBlock alg key).map (fun b => b ^^^ pad))

/-! ### Jobs (Tables 12-2, 12-7) -/

/-- MODE. -/
def jobMode (j : List Byte) : Nat := (byteAt j 1).toNat

/-- FLAGS. -/
def jobFlags (j : List Byte) : Nat := (byteAt j 2).toNat

/-- FINAL. -/
def jobFinal (j : List Byte) : Bool := natBit (jobFlags j) 0

/-- IMPORT. -/
def jobImport (j : List Byte) : Bool := natBit (jobFlags j) 1

/-- COMPARE. -/
def jobCompare (j : List Byte) : Bool := natBit (jobFlags j) 2

/-- KEY_SLOT. -/
def jobSlot (j : List Byte) : Nat := (byteAt j 3).toNat

/-- CMP_LEN. -/
def jobCmp (j : List Byte) : Nat := (byteAt j 6).toNat

/-- N_FRAG. -/
def jobFrags (j : List Byte) : Nat := field j 4 2

/-- Whether a path is a P-port. -/
def isPport (p : Path) : Bool := match p with | .pport _ => true | _ => false

/-- A header error (R272 item 1). -/
def headerBad (j : List Byte) (path : Path) : Bool :=
  let alg := jobAlg j
  alg = 0 || 4 < alg || 1 < jobMode j || 7 < jobFlags j || 63 < jobSlot j || (jobMode j = 0 && jobSlot j ≠ 0) ||
    jobFrags j = 0 || 4096 < jobFrags j ||
    (if jobCompare j then jobCmp j < 16 || algDigest alg < jobCmp j else jobCmp j ≠ 0) || byteAt j 7 ≠ 0 ||
    field j 8 8 % 8 ≠ 0 || (isPport path && field j 16 4 ≠ 0) || (slice j 20 44).any (fun b => b ≠ 0) ||
    (jobMode j = 1 && alg = 4) || (jobCompare j && !jobFinal j)

/-- A fragment descriptor that is in error. -/
def fragBad (b : List Byte) (path : Path) : Bool :=
  1 < field b 0 1 || field b 1 3 ≠ 0 || field b 24 8 ≠ 0 || 2 ^ 32 < field b 16 8 ||
    (isPport path && field b 0 1 = 1 && field b 4 4 ≠ 0)

/-- A fragment of a list. -/
def fragOf (b : List Byte) : Fragment :=
  { space := field b 0 1, id := BitVec.ofNat 32 (field b 4 4), off := BitVec.ofNat 64 (field b 8 8), len := field b 16 8 }

/-- The plaintext of an imported context; none when a wrapped one fails its integrity check (R270). -/
def Engine.ctxPlain (x : Engine) (r : DgxRun) : Option (List Byte) :=
  if !jobImport r.job then some []
  else if jobMode r.job = 0 then some r.ctx
  else kwpUnwrap (natLe 32 x.keeper.wrapKey.toNat) r.ctx

/-- The byte count of a context plaintext. -/
def ctxCount (c : List Byte) : Nat := field c 16 16

/-- The slot of a job's key. -/
def Engine.jobKey (x : Engine) (j : List Byte) : KeySlot := x.keeper.slots[(Fin.ofNat 64 (jobSlot j) : Fin 64)]

/-- Whether a context plaintext is of another algorithm or mode than its job: the manual names no status for it; the model
takes it for a reserved encoding (log 48). -/
def ctxOther (c j : List Byte) : Bool := !c.isEmpty && ((byteAt c 0).toNat ≠ jobAlg j || (byteAt c 1).toNat ≠ jobMode j)

/-- Whether a context plaintext belongs to another partition, slot or generation (R272 item 2). -/
def ctxForeign (c j : List Byte) (p : PartId) (gen : Nat) : Bool :=
  !c.isEmpty && ((byteAt c 3).toNat ≠ p.val || (byteAt c 2).toNat ≠ jobSlot j ||
    field c 4 4 ≠ (if jobMode j = 1 then gen else 0))

/-- Whether a fragment names an absent tensor, or reaches beyond its end. -/
def Partition.fragAbsent (x : Partition) (f : Fragment) : Bool :=
  f.space = 0 && !(x.tensor? f.id.toNat).any (fun t => f.off.toNat + f.len ≤ t.bytes)

/-- The first failure of R272, with FAIL_FRAG. R431 and SC_NO_QUORUM come first (R93). -/
def State.dgxCheck (s : State) (e : EngId) (p : PartId) (r : DgxRun) (raw : List (List Byte)) (fail : Bool) : Option (Status × Nat) :=
  let x := s.eng e
  let j := r.job
  let plain := x.ctxPlain r
  let c := plain.getD []
  let k := x.jobKey j
  let keyed := jobMode j = 1
  let total := (r.frags.map Fragment.len).sum
  if x.member.state = 5 then some (.noQuorum, 0)
  else if !s.joined e then some (.notJoined, 0)
  else if headerBad j r.path || fail then some (.invalidField, 0)
  else match raw.findIdx? (fun b => fragBad b r.path) with
  | some i => some (.invalidField, i)
  | none =>
    if (!jobFinal j && total % algBlock (jobAlg j) ≠ 0) || algLimit (jobAlg j) < ctxCount c + total ||
        (jobImport j && r.ctx.length ≠ ctxLength (jobAlg j) (jobMode j)) || ctxOther c j then some (.invalidField, 0)
    else if (keyed && k.usage ≠ 0 && (k.usage ≠ 4 || k.owner ≠ p)) || ctxForeign c j p k.gen.toNat then some (.notPermitted, 0)
    else match r.frags.findIdx? (s.part p).fragAbsent with
    | some i => some (.notFound, i)
    | none => (firstStatus [(keyed && k.usage = 0, .keyEmpty), (plain.isNone, .digestMismatch),
        (64 < ((r.frags.filter (fun f => f.space = 0)).map Fragment.id).dedup.length, .quota)]).map (fun st => (st, 0))

/-! ### Locks and lanes of partition jobs (R264, R268, R346) -/

/-- Whether a job's locks, asked for at some time, wait for a stream command that asked before, or for a micro-program (R129, R264). -/
def State.dgxLockBlocked (s : State) (p : PartId) (at_ : Nat) (r : DgxRun) : Bool :=
  let x := s.part p
  (s.openSlots p).any (fun o => o.slot.lockAt.any (fun n => n < at_) &&
      (o.slot.lock x).any (fun m => r.locks.any (fun l => l.waitsFor m))) ||
    (List.finRange 16).any (fun e =>
      let n := (s.win e p).nmx
      n.locked && r.locks.any (fun l => (n.writes e).any (l.onRow s p)))

/-- Update the running job of a window. -/
def State.modRun (s : State) (e : EngId) (p : PartId) (f : DgxRun → DgxRun) : State :=
  s.modWin e p (fun w => { w with dgx := { w.dgx with run := w.dgx.run.map f } })

/-- The engines on which each lock of a job takes an entry: those that hold part of its range (R264). -/
def State.dgxLockOn (s : State) (e : EngId) (p : PartId) (r : DgxRun) : List (BitVec 16) :=
  r.locks.map (fun l => s.lockEngines { eng := e, part := p, stream := 0 } l)

/-- A job asks for all its READ locks at once, one entry for each tensor on each engine, and takes them when it may: not in an update
phase, nor in a low power state (R129–R131, R141, R264). -/
def State.lockDgx (s : State) (e : EngId) (p : PartId) : State :=
  match (s.win e p).dgx.run with
  | none => s
  | some r =>
    if r.locked || (s.eng e).power.low then s
    else
      let n := r.lockAt.getD s.lockOrder
      let s1 : State := if r.lockAt.isSome then s else { s with lockOrder := s.lockOrder + 1 }
      let on := s1.dgxLockOn e p r
      if (s.part p).step.phase = 3 || s1.dgxLockBlocked p n r ||
          (List.finRange 16).any (fun m => !s1.lockFree p m n (on.filter (fun es => hasEngine es m)).length) then
        s1.modRun e p (fun r => { r with lockAt := some n })
      else s1.modRun e p (fun r => { r with lockAt := some n, lockOn := on, locked := true })

/-- A job takes a lane: which of the free ones is a free value (log 3). -/
def State.giveLane (s : State) (e : EngId) (p : PartId) (lane : Nat) : State :=
  let s1 := s.modEng e (fun x =>
    { x with lanes := x.lanes.mapIdx (fun i l => if i = lane then some { work := .dgx p, since := s.now } else l),
             dgxTurn := p.val })
  (s1.modRun e p (fun r => { r with lane := some lane, since := s.now, saved := false })).modWin e p
    (fun w => { w with dgx := { w.dgx with lane := BitVec.ofNat 6 lane } })

/-- One waiting job gets a lane, or ends when no lane of the engine can ever take it (R274). -/
def State.grantLane (s : State) (e : EngId) (p : PartId) : State :=
  match (s.win e p).dgx.run with
  | none => s
  | some r =>
    if !r.locked || r.lane.isSome || r.saved then s
    else if !(List.range 64).any (fun i => (s.eng e).laneFits (jobAlg r.job) i) then s.endDgx e p .fenced 0
    else match s.pick ((s.eng e).openLanes (.dgx p)) with
    | (some l, s1) => s1.giveLane e p l
    | (none, _) => s

/-- Waiting jobs get free lanes, round-robin in ascending partition ID from the one that had the last lane (R268). -/
def State.grantLanes (s : State) (e : EngId) : State :=
  let t := (s.eng e).dgxTurn
  (((List.finRange 64).filter (fun p => t < p.val)) ++ ((List.finRange 64).filter (fun p => p.val ≤ t))).foldl
    (fun s p => (s.lockDgx e p).grantLane e p) s

/-! ### GO -/

/-- VECTOR written; a value that names no vector is ignored (R13, Table 12-6). -/
def Dgx.control (d : Dgx) (w : Word) : Dgx :=
  let v := bits w.toNat 20 16
  { d with vector := if v = 1 then d.vector else BitVec.ofNat 5 v }

/-- The job that the registers and a fragment list describe. -/
def dgxJob (d : Dgx) (path : Path) (raw : List (List Byte)) (gen : Word) (now : Nat) : DgxRun :=
  { job := d.job, expect := d.expect, ctx := if jobImport d.job then d.ctx.take d.ctxLen.toNat else [], frags := raw.map fragOf,
    path := path, locked := false, lockAt := none, lockOn := [], lane := none, since := now, saved := false, slotGen := gen }

/-- 1 is written to GO with VECTOR beside it: the fragment list is fetched and the job checked (R272); `fail` says that the
fetch failed. -/
def State.goDgx (s : State) (e : EngId) (p : PartId) (path : Path) (w : Word) (list : List Byte) (fail : Bool) : State :=
  let s1 := s.modWin e p (fun x => { x with dgx := x.dgx.control w })
  let d := (s1.win e p).dgx
  if d.run.isSome then s1
  else
    let raw := chunks 32 (padTo (32 * min 4096 (jobFrags d.job)) list)
    let r := dgxJob d path raw ((s1.eng e).jobKey d.job).gen s.now
    match s1.dgxCheck e p r raw fail with
    | some (st, i) => s1.endDgx e p st i
    | none => (s1.modWin e p (fun x => { x with dgx := { x.dgx with run := some r } })).grantLanes e

/-- DGX_GO: bit 0 of the written word is 1. -/
def execDgxGo (src : WinSrc) (w : Word) (list : List Byte) (fail : Bool) (s : State) : Host.Outcome State Fault Refusal :=
  .next (s.access src w.toNat (fun s => if !s.expert src.part then s.badAccess src.eng src.part 0x108080
    else s.goDgx src.eng src.part src.path w list fail))

/-! ### Completion (R273) -/

/-- What a job's fragments give: the message bytes, and the first failure with its fragment. -/
def State.gather (s : State) (p : PartId) (fail : Option Nat) : List (Fragment × Nat) → List (List Byte) →
    List Byte × Option (Status × Nat)
  | [], _ => ([], none)
  | (f, i) :: fs, host =>
    if f.space = 1 then
      if fail = some i && 0 < f.len then ([], some (.invalidField, i))
      else
        let r := s.gather p fail fs host.tail
        (padTo f.len (host.headD []) ++ r.1, r.2)
    else match (s.part p).tensor? f.id.toNat with
      | none => ([], some (.notFound, i))
      | some t =>
        match s.readable t f.off.toNat f.len with
        | (_, some st) => ([], some (st, i))
        | (bs, none) =>
          let r := s.gather p fail fs host
          ((if t.cls = 5 then Memory.readBytes t.accMemory f.off.toNat f.len else bs) ++ r.1, r.2)

/-- The state that a job starts from: byte count, inner and, for HMAC, outer chaining state. -/
def Engine.jobStart (x : Engine) (r : DgxRun) : Nat × List Byte × List Byte :=
  let alg := jobAlg r.job
  let n := algChain alg
  match x.ctxPlain r with
  | some c =>
    if !c.isEmpty then (ctxCount c, slice c 32 n, slice c (32 + n) n)
    else if jobMode r.job = 1 then
      (0, hmacStart alg (x.jobKey r.job).key 0x36, hmacStart alg (x.jobKey r.job).key 0x5C)
    else (0, chainInit alg, [])
  | none => (0, chainInit alg, [])

/-- The final digest of a job over a message (R263, R265). -/
def jobDigest (j : List Byte) (st : Nat × List Byte × List Byte) (msg : List Byte) : List Byte :=
  let alg := jobAlg j
  let blk := if jobMode j = 1 then algBlock alg else 0
  let inner := chainFinish alg (blk + st.1 + msg.length) st.2.1 msg
  if jobMode j = 1 then chainFinish alg (blk + algDigest alg) st.2.2 inner else inner

/-- The context that a non-final job exports (R270). -/
def Engine.exportCtx (x : Engine) (p : PartId) (r : DgxRun) (st : Nat × List Byte × List Byte) (msg : List Byte) : List Byte :=
  let j := r.job
  let plain := natLe 1 (jobAlg j) ++ natLe 1 (jobMode j) ++ natLe 1 (jobSlot j) ++ natLe 1 p.val ++
    natLe 4 (if jobMode j = 1 then r.slotGen.toNat else 0) ++ zeros 8 ++ natLe 16 (st.1 + msg.length) ++
    chainAbsorb (jobAlg j) st.2.1 msg ++ st.2.2
  if jobMode j = 1 then kwpWrap (natLe 32 x.keeper.wrapKey.toNat) plain else plain

/-- A completed job's registers (R266, R273). -/
def Dgx.complete (d : Dgx) (r : DgxRun) (count : Nat) (out : List Byte) (m : BitVec 4 × BitVec 4) : Dgx :=
  let d1 : Dgx := { d with run := none, done := true, sc := 0, failFrag := 0, dmatch := m.1, dmatchN := m.2,
                           msgBytes := BitVec.ofNat 64 count }
  if jobFinal r.job then { d1 with digest := padTo 64 out }
  else { d1 with ctx := padTo 256 out, ctxLen := BitVec.ofNat 9 out.length }

/-- The comparators' result (Table 12-3); `upset` replaces what they give (R267). -/
def compareResult (r : DgxRun) (out : List Byte) (upset : Comparators) : BitVec 4 × BitVec 4 :=
  if !jobCompare r.job then (0, 0)
  else upset.getD (if out.take (jobCmp r.job) = r.expect.take (jobCmp r.job) then (0xA, 0x5) else (0x5, 0xA))

/-- Whether a comparison result is one of the two that the comparators can give. -/
def soundResult (m : BitVec 4 × BitVec 4) : Bool := m = (0xA, 0x5) || m = (0x5, 0xA)

/-- A job on a lane ends with its message. -/
def State.finishDgx (s : State) (e : EngId) (p : PartId) (r : DgxRun) (lane : Nat) (msg : List Byte) (upset : Comparators) :
    State :=
  let x := s.eng e
  let st := x.jobStart r
  let out := if jobFinal r.job then jobDigest r.job st msg else x.exportCtx p r st msg
  let m := compareResult r out upset
  if jobCompare r.job && !soundResult m then
    let s1 := s.detect e { plainFault 2 0 lane with master := BitVec.ofNat 16 (0x3000 + lane), access := 0xC, part := some p,
                                                    status := statusCode .fenced }
    if (s1.win e p).dgx.run.isSome then (s1.freeLane e (.dgx p)).endDgx e p .fenced 0 else s1
  else
    ((s.freeLane e (.dgx p)).modWin e p (fun w => { w with dgx := w.dgx.complete r (st.1 + msg.length) out m })).signalBlock e p
      (s.win e p).dgx.vector.toNat

/-- What has become of a keyed job's slot (Table 12-8). -/
def Engine.keyLost (x : Engine) (r : DgxRun) : Option Status :=
  if jobMode r.job = 0 then none
  else if (x.jobKey r.job).usage = 0 then some .keyEmpty
  else if (x.jobKey r.job).gen ≠ r.slotGen then some .notPermitted
  else none

/-- A job that holds a lane comes to its end. -/
def State.completeDgx (s : State) (e : EngId) (p : PartId) (host : List (List Byte)) (fail : Option Nat)
    (upset : Comparators) : State :=
  match (s.win e p).dgx.run with
  | none => s
  | some r => match r.lane with
    | none => s
    | some lane =>
      match (s.eng e).keyLost r with
      | some st => (s.freeLane e (.dgx p)).endDgx e p st 0
      | none => match s.gather p fail r.frags.zipIdx host with
        | (_, some (st, i)) =>
          let s1 := if st = .poisoned then s.pfltEvent e p 2 else s
          (s1.freeLane e (.dgx p)).endDgx e p st i
        | (msg, none) => s.finishDgx e p r lane msg upset

/-- DGX_COMPLETE: `host` gives the bytes of the host-buffer fragments in order, `fail` the fragment whose transfer fails. A job
that still waits gets a lane first when it can. -/
def execDgxComplete (e : EngId) (p : PartId) (host : List (List Byte)) (fail : Option Nat) (upset : Comparators) (s : State) :
    Host.Outcome State Fault Refusal :=
  .next (if s.serves e && !(s.eng e).power.low then ((s.grantLanes e).completeDgx e p host fail upset).grantLanes e else s)

/-! ### Preemption and failures -/

/-- The context of a digest job that is preempted (R269, R270): what it started from, in the layout of Table 12-4, wrapped when
the job is keyed. The model's jobs take in their message at their end, so the block boundary at which one is preempted is that of
its start (log 130). -/
def Engine.savedBytes (x : Engine) (w : DigestJob) : List Byte :=
  match w with
  | .dgx p => match x.windows[p].dgx.run with
    | some r => x.exportCtx p r (x.jobStart r) []
    | none => []
  | .shard p _ _ | .restore p => natLe 1 1 ++ natLe 1 0 ++ natLe 1 0 ++ natLe 1 p.val ++ zeros 28 ++ chainInit 1
  | _ => []

/-- The highest class of a job of the shelf that waits for a lane. -/
def Engine.waitingClass (x : Engine) : Option Nat :=
  x.digestWaits.foldl (fun m w => match m with
    | some c => some (min c w.cls)
    | none => some w.cls) none

/-- Whether a preemption may take a lane's job (R268, R269): a job of the shelf of a higher class waits, it finds no free lane, the
lane's job has held it for 10 µs, and the context area has room. -/
def State.preempts (s : State) (e : EngId) (j : LaneJob) : Bool :=
  let x := s.eng e
  s.serves e && x.digestWaits.any (fun w => w.cls < j.work.cls && (x.freeLanes (x.workAlg w)).isEmpty) &&
    j.since + 10000 ≤ s.now && x.contexts.length < 256

/-- DIGEST_PREEMPT: the job on `lane` gives it up to the first waiting job of the highest class, its state saved in the context
area (R268, R269). -/
def execDigestPreempt (e : EngId) (lane : Fin 64) (s : State) : Host.Outcome State Fault Refusal :=
  .next (match (s.eng e).lanes[lane] with
    | none => s
    | some j =>
      if !s.preempts e j then s
      else match (s.eng e).digestWaits.find? (fun w => some w.cls = (s.eng e).waitingClass) with
      | none => s
      | some w =>
        let s1 := s.modEng e (fun x =>
          { x with contexts := x.contexts ++ [{ work := j.work, bytes := x.savedBytes j.work }],
                   digestWaits := x.digestWaits.filter (fun v => v ≠ w),
                   lanes := x.lanes.set lane.val (some { work := w, since := s.now }) lane.isLt })
        match j.work with
        | .dgx p => s1.modRun e p (fun r => { r with lane := none, saved := true })
        | _ => s1)

/-- DIGEST_RESUME: the saved job at place `ctx` of the context area takes a free lane that supports its algorithm, unless a job of
the shelf of a higher class waits for one (R268, R269). -/
def execDigestResume (e : EngId) (ctx : Nat) (s : State) : Host.Outcome State Fault Refusal :=
  .next (match (s.eng e).contexts[ctx]? with
    | none => s
    | some c =>
      let x := s.eng e
      if !s.serves e || x.digestWaits.any (fun w => w.cls < c.work.cls) then s
      else match s.pick (x.freeLanes (x.workAlg c.work)) with
      | (some l, s1) =>
        let s2 := s1.modEng e (fun x => { x with contexts := x.contexts.eraseIdx ctx })
        match c.work with
        | .dgx p => s2.giveLane e p l
        | w => s2.modEng e (fun x =>
            { x with lanes := x.lanes.mapIdx (fun i j => if i = l then some { work := w, since := s.now } else j) })
      | (none, _) => s)

/-- DIGEST_LANE_FAIL: the lane is fenced; a partition's job on it ends with SC_FENCED (R274). -/
def execDigestLaneFail (e : EngId) (lane : Fin 64) (s : State) : Host.Outcome State Fault Refusal :=
  .next (if s.serves e then
    (s.detect e { plainFault 2 2 lane.val with master := BitVec.ofNat 16 (0x3000 + lane.val) }).grantLanes e else s)

/-- COMPRESS_LANE_FAIL: the lane is fenced; its c-block goes back to the queue, before those that have had no lane yet (R259, R350). -/
def execCompressLaneFail (e : EngId) (lane : Fin 32) (s : State) : Host.Outcome State Fault Refusal :=
  .next (if s.serves e then
    (s.detect e { plainFault 3 2 lane.val with master := BitVec.ofNat 16 (0x4000 + lane.val) }).pruneLanes e
  else s)

end Sys2Proof.Machine
end

