-- ==== Sys2Proof/Machine/WindowRead.lean ====
section
/-! DEFINITION. Reading the registers of a partition window (R7–R10, R61, R62, R426, R427, R434). No row of the table reads a
register; reads have no side effect. -/

namespace Sys2Proof.Machine

/-- The half of a 64-bit register that a 4-byte offset names. -/
def half (o v : Nat) : Nat := v / 2 ^ (if o % 8 = 0 then 0 else 32) % 2 ^ 32

/-- Identity registers (Tables 3-2, 3-3). -/
def State.readIdentity (s : State) (e : EngId) (p : PartId) (o : Nat) : Nat :=
  let w := s.win e p
  match o with
  | 0x00 => p.val + 256 * bit (s.expert p) + 512 * bit (p = 0) + 65536 * e.val
  | 0x04 => (s.members p).toNat + 65536 * (s.fencedOf p).toNat
  | 0x08 => s.streams p
  | 0x0C => bit w.resetting + 2 * bit w.rstDone
  | 0x10 => w.rstSeq.toNat
  | _ => if 0x800 ≤ o && o < 0xA00 then half o (w.dbFlag[(Fin.ofNat 64 ((o - 0x800) / 8) : Fin 64)]).toNat else 0

/-- MBX_STAT. -/
def Mailbox.stat (m : Mailbox) : Nat := bit m.job.isSome + 2 * bit m.done + 4 * bit m.overrun

/-- Mailbox registers (Table 4-1). -/
def Mailbox.readWord (m : Mailbox) (o : Nat) : Nat :=
  if o < 0x1040 then field m.cmd (o - 0x1000) 4
  else if o < 0x1080 then field m.rsp (o - 0x1040) 4
  else if o = 0x1084 then m.stat
  else if o = 0x1088 then m.seq.toNat
  else 0

/-- Interrupt registers (Tables 3-4, 3-5). -/
def IntCtl.readWord (i : IntCtl) (o : Nat) : Nat :=
  if o < 0x2080 then (i.route[(Fin.ofNat 32 ((o - 0x2000) / 4) : Fin 32)]).toNat
  else match o with
  | 0x2080 => i.cause.toNat
  | 0x2084 => i.v0.toNat
  | 0x2100 | 0x2104 => half o i.ring.base.toNat
  | 0x2108 => i.ring.rkey.toNat
  | 0x210C => i.ring.qpn.toNat
  | 0x2110 => i.ring.log2.toNat
  | 0x2114 => i.ring.cons.toNat
  | 0x2118 => i.ring.prod.toNat
  | 0x211C => bit i.ring.en
  | _ => 0

/-- The stream vector map (R434); bytes beyond the last stream read 0 (R62). -/
def State.readMap (s : State) (e : EngId) (p : PartId) (o : Nat) : Nat :=
  leNat ((List.range 4).map (fun i =>
    if o - 0x3000 + i < s.streams p then assocGetD (s.win e p).vmap (o - 0x3000 + i) 0xFF else 0))

/-- QoS registers (Table 3-9). -/
def State.readQos (s : State) (e : EngId) (p : PartId) (o : Nat) : Nat :=
  if o < 0x4040 then
    let q := (s.win e p).qos[(Fin.ofNat 4 ((o - 0x4000) / 16) : Fin 4)]
    match o % 16 with
    | 0 => q.wEbb.toNat + 256 * q.wFlood.toNat + 65536 * q.cap.toNat
    | 4 => q.tokens
    | 8 => q.grant
    | _ => q.stalls.toNat
  else if o < 0x4050 then s.poolTokens e ((o - 0x4040) / 4)
  else 0

/-- The wait bits of STK_DEPTH: those of the oldest unfinished command. -/
def Stream.waitBits (x : Stream) : Nat :=
  match x.queue.find? (fun q => !q.isFinished) with
  | some q => 256 * bit q.waits.lock + 512 * bit q.waits.token + 1024 * bit q.waits.power + 2048 * bit q.waits.state
  | none => 0

/-- Registers of a stream window (Tables 5-1, 5-2). -/
def Stream.readWord (x : Stream) (o : Nat) : Nat :=
  if o < 0x38 then field x.task o 4
  else match o with
  | 0x3C => bit x.halted + 4 * bit x.storeClass + 8 * bit x.haltOnErr
  | 0x40 => x.lastSc.toNat + 256 * bit x.done + 512 * bit x.halted + 1024 * bit x.overrun + 2048 * bit x.queue.isEmpty
  | 0x44 => x.doneTag.toNat + 65536 * x.doneCount.toNat
  | 0x48 | 0x4C => half o x.failOffset.toNat
  | 0x50 => x.queue.length + 16 * (x.queue.filter Slot.isFinished).length + x.waitBits
  | _ => 0

/-- NMX registers (Table 9-4). -/
def State.readNmx (s : State) (e : EngId) (p : PartId) (o : Nat) : Nat :=
  let n := (s.win e p).nmx
  let mask (f : Channel → Bool) : Nat := ((s.eng e).channels.toList.zipIdx.map (fun (c, i) => bit (f c) * 2 ^ i)).sum
  if 0x4000 ≤ o then (assocGetD n.entries ((o - 0x4000) / 16) (0 : BitVec 128)).toNat / 2 ^ (8 * (o % 16)) % 2 ^ 32
  else match o with
  | 0x00 => 2 * n.start.toNat + 65536 * n.vector.toNat
  | 0x04 => bit n.busy + 2 * bit n.done + 256 * n.sc.toNat + 65536 * n.errIndex.toNat
  | 0x08 => n.credits s.now
  | 0x0C => mask Channel.processor + 65536 * mask (fun c => 1 ≤ c.level)
  | 0x10 => n.xTid.toNat
  | 0x18 | 0x1C => half o n.xOff.toNat
  | 0x20 | 0x24 => half o n.xPool.toNat
  | 0x28 => n.xArray.toNat
  | 0x2C => bit n.xValid + 16 * n.xEngine.toNat + 256 * bit n.xProtected
  | _ => 0

/-- DGX registers (Table 12-6). -/
def State.readDgx (s : State) (e : EngId) (p : PartId) (o : Nat) : Nat :=
  let d := (s.win e p).dgx
  if o < 0x40 then field d.job o 4
  else if o < 0x80 then field d.expect (o - 0x40) 4
  else if 0x100 ≤ o && o < 0x140 then field d.digest (o - 0x100) 4
  else if 0x200 ≤ o && o < 0x300 then field d.ctx (o - 0x200) 4
  else match o with
  | 0x80 => 65536 * d.vector.toNat
  | 0x84 => bit d.run.isSome + 2 * bit d.done + 256 * d.sc.toNat + 65536 * d.failFrag.toNat
  | 0x88 => d.dmatch.toNat
  | 0x8C => d.dmatchN.toNat
  | 0x90 => d.ctxLen.toNat
  | 0x94 => d.lane.toNat + 256 * ((s.eng e).freeLanes 1).length
  | 0x98 | 0x9C => half o d.msgBytes.toNat
  | _ => 0

/-- FLT registers (Table 17-2). -/
def Flt.readWord (f : Flt) (o : Nat) : Nat :=
  if 0x08 ≤ o && o < 0x18 then f.sev.toNat / 2 ^ (8 * (o - 8)) % 2 ^ 32
  else if 0x50 ≤ o && o < 0x68 then f.fenced.toNat / 2 ^ (8 * (o - 0x50)) % 2 ^ 32
  else match o with
  | 0x00 => f.status.toNat
  | 0x04 => f.enable.toNat
  | 0x18 => bit f.lock + 2 * bit f.dry
  | 0x20 => f.forceUnit.toNat
  | 0x28 | 0x2C => half o f.forceAddr.toNat
  | 0x30 | 0x34 => half o f.fecAddr.toNat
  | 0x38 => f.fecMaster.toNat + 2 ^ 16 * f.fecAccess.toNat + 2 ^ 20 * f.fecSource.toNat + 2 ^ 25 * f.fecSev.toNat +
      2 ^ 28 * bit f.fecForced + 2 ^ 31 * bit f.fecValid
  | 0x3C => f.fecUnit.toNat + 65536 * f.fecCount.toNat
  | 0x40 | 0x44 => half o f.fecTime.toNat
  | _ => 0

/-- Port status registers (Tables 2-7, 2-8). -/
def Engine.readPort (x : Engine) (o : Nat) : Nat :=
  match x.ports[o / 0x40]? with
  | none => 0
  | some q => if o % 0x40 = 0 then q.status (o / 0x40) else if o % 0x40 = 4 then q.retrains.toNat else 0

/-- The expert range and the blocks of partition 0 (R426, R427). -/
def State.readExpert (s : State) (e : EngId) (p : PartId) (o : Nat) : Nat :=
  if o < 0x108000 then (if s.expert p then s.readNmx e p (o - 0x100000) else 0)
  else if o < 0x109000 then (if s.expert p then s.readDgx e p (o - 0x108000) else 0)
  else if p ≠ 0 then 0
  else if o < 0x10A000 then (s.eng e).readPort (o - 0x109000)
  else if o < 0x10AB00 then ((s.eng e).flt[(Fin.ofNat 11 ((o - 0x10A000) / 0x100) : Fin 11)]).readWord (o % 0x100)
  else 0

/-- The 32-bit word at a window offset that is a multiple of 4 (Table 21-1); unlisted offsets read 0 (R62). -/
def State.readWord (s : State) (e : EngId) (p : PartId) (o : Nat) : Nat :=
  let w := s.win e p
  if o < 0x1000 then s.readIdentity e p o
  else if o < 0x2000 then w.mbx.readWord o
  else if o < 0x3000 then w.ints.readWord o
  else if o < 0x4000 then s.readMap e p o
  else if o < 0x5000 then s.readQos e p o
  else if o < 0x6000 then
    (if o = 0x5000 then w.pflt.toNat else if o = 0x5008 || o = 0x500C then half o w.pfltTime.toNat else 0)
  else if o < 0x6200 then
    (w.ints.msix[(Fin.ofNat 32 ((o - 0x6000) / 16) : Fin 32)]).toNat / 2 ^ (8 * (o % 16)) % 2 ^ 32
  else if o < 0x7000 then 0
  else if o = 0x7000 then w.ints.pba.toNat
  else if o < streamBase then 0
  else if o < 0x90000 then
    (if (o - streamBase) / 0x80 < s.streams p then (w.stream ((o - streamBase) / 0x80)).readWord (o % 0x80) else 0)
  else if o < 0x100000 then 0
  else s.readExpert e p o

/-- `len` bytes of a window from an offset; a narrower read returns the addressed bytes (R8). -/
def State.readWindow (s : State) (e : EngId) (p : PartId) (off len : Nat) : List Byte :=
  (List.range len).map (fun i => byteAt (natLe 4 (s.readWord e p ((off + i) / 4 * 4))) ((off + i) % 4))

end Sys2Proof.Machine
end

