-- ==== Sys2Proof/Machine/WindowWrite.lean ====
section
/-! DEFINITION. Writing the registers of a partition window: which offsets are listed, widths, access types, and the registers
that act (R7–R13, R61–R65, R83, R110, R111, R120, R353, R426–R428, R434). -/

namespace Sys2Proof.Machine

/-! ### Which offsets are listed -/

/-- Whether a 4-byte offset of a stream window is listed; 0x60–0x7F is reserved under R10, so a write there is no fault. -/
def streamListed (o : Nat) : Bool := o < 0x54 || 0x60 ≤ o

/-- Whether a 4-byte offset of the NMX block is listed. -/
def nmxListed (o : Nat) : Bool := (o < 0x30 && o ≠ 0x14) || 0x4000 ≤ o

/-- Whether a 4-byte offset of the DGX block is listed. -/
def dgxListed (o : Nat) : Bool := o < 0xA0 || (0x100 ≤ o && o < 0x140) || (0x200 ≤ o && o < 0x300)

/-- Whether a 4-byte offset of an FLT register set is listed. -/
def fltListed (o : Nat) : Bool := (o < 0x48 && o ≠ 0x24) || (0x50 ≤ o && o < 0x68)

/-- Whether an access of a partition reaches a register at an offset (R62, R426, R427). -/
def State.listed (s : State) (p : PartId) (o : Nat) : Bool :=
  if o < 0x1000 then o < 0x14 || (0x800 ≤ o && o < 0xA00)
  else if o < 0x2000 then o < 0x108C
  else if o < 0x3000 then o < 0x2088 || (0x2100 ≤ o && o < 0x2120)
  else if o < 0x4000 then o - 0x3000 < s.streams p
  else if o < 0x5000 then o < 0x4050
  else if o < 0x6000 then o < 0x5004 || (0x5008 ≤ o && o < 0x5010)
  else if o < 0x7000 then o < 0x6200
  else if o < 0x8000 then o < 0x7008
  else if o < streamBase then false
  else if o < 0x90000 then (o - streamBase) / 0x80 < s.streams p && streamListed (o % 0x80 / 4 * 4)
  else if o < 0x100000 then false
  else if o < 0x108000 then s.expert p && nmxListed ((o - 0x100000) / 4 * 4)
  else if o < 0x109000 then s.expert p && dgxListed ((o - 0x108000) / 4 * 4)
  else if o < 0x10A000 then p = 0 && o < 0x109580 && o % 0x40 < 8
  else if o < 0x10B000 then p = 0 && o < 0x10AB00 && fltListed (o % 0x100 / 4 * 4)
  else false

/-- Whether the 8 bytes at an offset are one 64-bit register. -/
def wide (b : Nat) : Bool :=
  (0x800 ≤ b && b < 0xA00) || b = 0x2100 || b = 0x5008 ||
    (streamBase ≤ b && b < 0x90000 && ([0x10, 0x18, 0x20, 0x28, 0x30, 0x48] : List Nat).contains (b % 0x80)) ||
    b = 0x100018 || b = 0x100020 || b = 0x108098 ||
    (0x10A000 ≤ b && b < 0x10AB00 && ([0x28, 0x30, 0x40] : List Nat).contains (b % 0x100))

/-- The register that holds an offset: where it begins and its width. Bytes of the stream vector map stand alone (R434). -/
def regAt (o : Nat) : Nat × Nat :=
  if wide (o / 8 * 8) then (o / 8 * 8, 8) else if 0x3000 ≤ o && o < 0x4000 then (o, 1) else (o / 4 * 4, 4)

/-! ### Interrupt registers -/

/-- EVR_EN goes from 0 to 1: the configuration is sampled, EVR_PROD returns to 0, the first pass begins, and a ring that R79
disabled resumes (R65, R79). -/
def Ring.enable (r : Ring) : Ring :=
  { r with en := true, sBase := r.base, sRkey := r.rkey, sQpn := r.qpn, sLog2 := r.log2, prod := 0, phase := true,
           disabled := false }

/-- A write to EVR_EN. -/
def Ring.setEn (r : Ring) (b : Bool) : Ring := if b && !r.en then r.enable else { r with en := b }

/-- A write to a register of the event ring. -/
def Ring.write (r : Ring) (o v : Nat) : Ring :=
  match o with
  | 0x2100 => if v % 4096 = 0 then { r with base := BitVec.ofNat 64 v } else r
  | 0x2108 => { r with rkey := BitVec.ofNat 32 v }
  | 0x210C => { r with qpn := BitVec.ofNat 24 v }
  | 0x2110 => if 6 ≤ v % 32 && v % 32 ≤ 16 then { r with log2 := BitVec.ofNat 5 v } else r
  | 0x2114 => { r with cons := BitVec.ofNat 16 v }
  | 0x211C => r.setEn (natBit v 0)
  | _ => r

/-- A word of an MSI-X entry: address, data, and the Vector Mask bit; the other bits of the control word are reserved. -/
def msixWrite (x : BitVec 128) (i v : Nat) : BitVec 128 :=
  let v1 := if i = 3 then v % 2 else v
  BitVec.ofNat 128 (putLe (natLe 16 x.toNat) (4 * i) 4 v1 |> leNat)

/-- A write to the interrupt registers and the MSI-X table; the reserved bits of INT_ROUTE stay 0 (R10). Events already gathered under
coalescing stay where they are when INT_ROUTE is rewritten, and go the new way with the next event or at the new time limit, of which
R64 says nothing (DESIGN CHOICE, log 151). -/
def IntCtl.write (i : IntCtl) (o v : Nat) : IntCtl :=
  if 0x6000 ≤ o then
    let n : Fin 32 := Fin.ofNat 32 ((o - 0x6000) / 16)
    { i with msix := i.msix.set n.val (msixWrite i.msix[n] (o % 16 / 4) v) n.isLt }
  else if o < 0x2080 then
    let n : Fin 32 := Fin.ofNat 32 ((o - 0x2000) / 4)
    { i with route := i.route.set n.val (BitVec.ofNat 32 v &&& 0xFFFFFF03#32) n.isLt }
  else match o with
  | 0x2080 => { i with cause := i.cause &&& ~~~(BitVec.ofNat 32 v) }
  | 0x2084 => { i with v0 := i.v0 &&& ~~~(BitVec.ofNat 3 v) }
  | _ => { i with ring := i.ring.write o v }

/-! ### Fault registers -/

/-- One severity field: undefined sources and reserved encodings keep their value, a value below the floor stores the floor
(R353). -/
def sevField (blk src old v : Nat) : Nat :=
  match (faultSources blk)[src]? with
  | none => old
  | some (_, fl) => if 4 < v then old else max fl v

/-- A write to FLT_SEV[i] (R353, R367). -/
def Flt.writeSev (f : Flt) (blk i v : Nat) : Flt :=
  if f.lock then f
  else { f with sev := BitVec.ofNat 128 (((List.range 32).map (fun src =>
    (if src / 8 = i then sevField blk src (f.sevOf src) (bits v (4 * (src % 8) + 2) (4 * (src % 8))) else f.sevOf src) *
      16 ^ src)).sum) }

/-- The sources whose enable bit is fixed at 1, and those a block has (Table 17-2). -/
def fixedEnable (blk : Nat) : Word :=
  BitVec.ofNat 32 ((faultSources blk).zipIdx.map (fun (d, i) => bit (3 ≤ d.2) * 2 ^ i)).sum

/-- A write to a register of an FLT set that only stores. -/
def Flt.write (f : Flt) (blk o v : Nat) : Flt :=
  match o with
  | 0x04 => { f with enable := (BitVec.ofNat 32 v ||| fixedEnable blk) &&& defaultEnable blk }
  | 0x08 => f.writeSev blk 0 v
  | 0x0C => f.writeSev blk 1 v
  | 0x10 => f.writeSev blk 2 v
  | 0x14 => f.writeSev blk 3 v
  | 0x20 => if v % 4096 < blockUnits blk then { f with forceUnit := BitVec.ofNat 12 v } else f
  | 0x28 => { f with forceAddr := BitVec.ofNat 64 v }
  | 0x38 => if natBit v 31 then { f with fecValid := false } else f
  | _ => f

/-- A write to LOCK and DRY: LOCK only sets (R367); DRY 0 takes effect only where the keeper permits it (R368, R369). -/
def State.writeLock (s : State) (e : EngId) (b : Fin 11) (v : Nat) : State :=
  let open_ := (s.eng e).debug = 1 || (s.eng e).debug = 2
  s.modFlt e b (fun f => { f with lock := f.lock || natBit v 0, dry := natBit v 1 || (f.dry && !open_) })

/-- A write to a register of FLTX; a level source that it enables while its condition holds acts (R355). -/
def State.writeFlt (s : State) (e : EngId) (b : Fin 11) (o v : Nat) : State :=
  match o with
  | 0x00 => s.clearFaults e b (BitVec.ofNat 32 v)
  | 0x18 => s.writeLock e b v
  | 0x1C => s.injectFaults e b (BitVec.ofNat 32 v)
  | _ =>
    let old := (s.eng e).flt[b]
    ((List.finRange 32).filter (fun src => !old.enable.getLsbD src.val || old.sevOf src.val = 0)).foldl
      (fun s src => s.relevel e b src) (s.modFlt e b (fun f => f.write b.val o v))

/-! ### Expert blocks -/

/-- Free bytes of host memory that a register write makes the shelf fetch: what stands there is not given (log 57). -/
def State.hostBytes (s : State) (n : Nat) : List Byte × State :=
  (natLe n (s.draw (8 * n)).1.toNat, (s.draw (8 * n)).2)

/-- A write to an NMX register (Table 9-4). -/
def State.writeNmx (s : State) (e : EngId) (p : PartId) (o v : Nat) : State :=
  if 0x4000 ≤ o then
    s.modNmx e p (fun n =>
      let i := (o - 0x4000) / 16
      let b : BitVec 128 := assocGetD n.entries i 0
      { n with entries := assocSet n.entries i (BitVec.ofNat 128 (leNat (putLe (natLe 16 b.toNat) (o % 16) 4 v))) })
  else match o with
  | 0x00 => if natBit v 0 then s.goNmx e p (BitVec.ofNat 32 v) else s.modNmx e p (fun n => n.control (BitVec.ofNat 32 v))
  | 0x04 => if natBit v 1 then s.modNmx e p (fun n => { n with done := false }) else s
  | 0x10 => s.modNmx e p (fun n => { n with xTid := BitVec.ofNat 32 v })
  | 0x18 => s.xlate e p (BitVec.ofNat 64 v)
  | _ => s

/-- A write to the storing registers of the DGX block. -/
def Dgx.write (d : Dgx) (o v : Nat) : Dgx :=
  if o < 0x40 then { d with job := putLe d.job o 4 v }
  else if o < 0x80 then { d with expect := putLe d.expect (o - 0x40) 4 v }
  else if 0x200 ≤ o then { d with ctx := putLe d.ctx (o - 0x200) 4 v }
  else match o with
  | 0x80 => d.control (BitVec.ofNat 32 v)
  | 0x84 => if natBit v 1 then { d with done := false } else d
  | 0x90 => { d with ctxLen := BitVec.ofNat 9 v }
  | _ => d

/-- A write to a DGX register (Table 12-6). -/
def State.writeDgx (s : State) (e : EngId) (p : PartId) (path : Path) (o v : Nat) : State :=
  if o = 0x80 && natBit v 0 then
    let r := s.hostBytes (32 * min 4096 (jobFrags (s.win e p).dgx.job))
    r.2.goDgx e p path (BitVec.ofNat 32 v) r.1 false
  else s.modWin e p (fun w => { w with dgx := w.dgx.write o v })

/-! ### The rest of the window -/

/-- A write to a word of MBX_CMD or to MBX_STAT. -/
def Mailbox.write (m : Mailbox) (o v : Nat) : Mailbox :=
  if o < 0x1040 then (if m.job.isSome then { m with overrun := true } else { m with cmd := putLe m.cmd (o - 0x1000) 4 v })
  else if o = 0x1084 then { m with done := m.done && !natBit v 1, overrun := m.overrun && !natBit v 2 }
  else m

/-- 1 is written to MBX_DOORBELL: the command in MBX_CMD is submitted (R82, R83). -/
def State.ringDoorbell (s : State) (e : EngId) (p : PartId) (path : Path) : State :=
  let cmd := (s.win e p).mbx.cmd
  let r := s.hostBytes (min 16777216 (field cmd 60 4))
  submitMailbox (byteAt cmd 0).toNat { eng := e, part := p, path := path, body := cmd.drop 1, buf := r.1, fail := none, flash := none } r.2

/-- A write to a register of a stream window. -/
def State.writeStream (s : State) (a : StreamAt) (path : Path) (o w v : Nat) : State :=
  if o < 0x38 then s.modStream a (fun x => { x with task := putLe x.task o w v })
  else match o with
  | 0x38 => if natBit v 0 then s.goStream a path else s
  | 0x3C => s.controlWord a (BitVec.ofNat 32 v)
  | 0x40 =>
    let s1 := if natBit v 8 then s.modStream a Stream.acknowledge else s
    s1.modStream a (fun x => { x with overrun := x.overrun && !natBit v 10 })
  | _ => s

/-- A write to a listed register that a window holds itself. -/
def Window.write (x : Window) (o v : Nat) : Window :=
  if o < 0x1000 then
    (if 0x800 ≤ o then
      let n : Fin 64 := Fin.ofNat 64 ((o - 0x800) / 8)
      { x with dbFlag := x.dbFlag.set n.val (BitVec.ofNat 64 v) n.isLt }
    else if o = 0x0C then { x with rstDone := x.rstDone && !natBit v 1 } else x)
  else if o < 0x2000 then { x with mbx := x.mbx.write o v }
  else if o < 0x3000 then { x with ints := x.ints.write o v }
  else if o < 0x4000 then { x with vmap := assocSet x.vmap (o - 0x3000) (BitVec.ofNat 8 v) }
  else if o = 0x5000 then { x with pflt := x.pflt &&& ~~~(BitVec.ofNat 5 v) }
  else if 0x6000 ≤ o && o < 0x6200 then { x with ints := x.ints.write o v }
  else x

/-- A whole register of `w` bytes at offset `o` is written with `v` (R7, R62). -/
def State.writeReg (s : State) (e : EngId) (p : PartId) (path : Path) (o w v : Nat) : State :=
  if !s.listed p o then s.badAccess e p o
  else if o = 0x1080 then (if natBit v 0 then s.ringDoorbell e p path else s)
  else if o < streamBase then s.modWin e p (fun x => x.write o v)
  else if o < 0x100000 then s.writeStream { eng := e, part := p, stream := (o - streamBase) / 0x80 } path (o % 0x80) w v
  else if o < 0x108000 then s.writeNmx e p (o - 0x100000) v
  else if o < 0x109000 then s.writeDgx e p path (o - 0x108000) v
  else if 0x10A000 ≤ o then s.writeFlt e (Fin.ofNat 11 ((o - 0x10A000) / 0x100)) (o % 0x100) v
  else s

/-- Bytes written from a window offset, register by register in ascending address order (R111). A piece that does not cover its
register is ignored (R8); where no register is listed it counts as an access all the same (R62). -/
def State.writeWindow (s : State) (e : EngId) (p : PartId) (path : Path) (off : Nat) : Nat → List Byte → State
  | 0, _ => s
  | fuel + 1, data =>
    if data.isEmpty then s
    else
      let r := regAt off
      if r.1 = off && r.2 ≤ data.length then
        (s.writeReg e p path off r.2 (leNat (data.take r.2))).writeWindow e p path (off + r.2) fuel (data.drop r.2)
      else
        let n := r.1 + r.2 - off
        (if s.listed p off then s else s.badAccess e p off).writeWindow e p path (off + n) fuel (data.drop n)

/-- REGISTER_WRITE: a write of the window, or a request of another kind (R7–R13, R32, R36, R61–R63, R111). -/
def execRegisterWrite (src : WinSrc) (off : Nat) (data : List Byte) (s : State) : Host.Outcome State Fault Refusal :=
  .next (s.access src (leNat data) (fun s => s.writeWindow src.eng src.part src.path off data.length data))

/-! ### Interrupt events -/

/-- EVR_ENABLE: 1 is written to EVR_EN (R65). -/
def execEvrEnable (src : WinSrc) (s : State) : Host.Outcome State Fault Refusal :=
  .next (s.access src 1 (fun s => s.modRing src.eng src.part (fun r => r.setEn true)))

/-- HELD_EVENTS_RELEASE: held entries are written, oldest vector first, while the ring takes them (R65). -/
def execHeldEventsRelease (e : EngId) (p : PartId) (s : State) : Host.Outcome State Fault Refusal :=
  .next (if s.hasWindow e p && s.serves e then s.ringFlush e p 33 else s)

/-- EVR_FAILURE: the write of an entry fails, or the queue pair leaves the ready state: the ring is disabled, its queue pair is
in the error state, and EVR_FAIL is detected (R79). -/
def execEvrFailure (e : EngId) (p : PartId) (s : State) : Host.Outcome State Fault Refusal :=
  .next (if s.hasWindow e p && s.serves e && (s.win e p).ints.ring.en then
    let q := (s.win e p).ints.ring.sQpn.toNat
    let s1 := (s.modRing e p (fun r => { r with disabled := true })).modEng e (fun x =>
      { x with qps := x.qps.map (fun c => if c.num = q && c.part = p then { c with ready := false } else c) })
    s1.detect e { plainFault 9 2 0 with access := 0x7, part := some p }
  else s)

/-- COALESCE_TIMEOUT: COAL_USEC has passed since the first pending event of a vector, and it is signalled (R64). -/
def execCoalesceTimeout (e : EngId) (p : PartId) (v : Fin 32) (s : State) : Host.Outcome State Fault Refusal :=
  let i := (s.win e p).ints
  let due := i.coal[v].head?.any (fun ev => ev.time.toNat + 1000 * i.coalUsec v ≤ (s.time e).toNat)
  .next (if s.hasWindow e p && s.serves e && due then (s.setCoal e p v []).route e p v i.coal[v] else s)

/-- The pending event of a vector is sent through a P-port while its function has MSI-X enabled and neither mask is set (R63). -/
def State.releaseMsix (s : State) (e : EngId) (p : PartId) (port : Fin 2) (v : Fin 32) : State :=
  if s.msixOpen e p port v && (s.win e p).ints.pba.getLsbD v.val then
    (s.modWin e p (fun w => { w with ints := { w.ints with pba := setBit w.ints.pba v.val false } })).toMsix e p port v
  else s

/-- MSIX_PENDING_RELEASE: the pending event of a vector is signalled once MSI-X is enabled and neither mask is set (R63). -/
def execMsixPendingRelease (e : EngId) (p : PartId) (v : Fin 32) (s : State) : Host.Outcome State Fault Refusal :=
  .next (if s.hasWindow e p && s.serves e then
    (match (s.win e p).ints.routeOf v with
    | 0 => s.releaseMsix e p 0 v
    | 1 => s.releaseMsix e p 1 v
    | _ => s)
  else s)

end Sys2Proof.Machine
end

