-- ==== Sys2Proof/Machine/Ports.lean ====
section
/-! DEFINITION. Ports: links, RDMA connections, pauses, congestion notifications, function-level resets and the end of a
partition reset (02 R30–R37, R52, R53; 03 R59, R66–R68). -/

namespace Sys2Proof.Machine

/-- Whether an engine's ports work: powered, neither fenced nor held. -/
def Engine.portsRun (x : Engine) : Bool := x.powered && !x.fenced && !x.hold

/-- Whether a port may run a mode (R30, R35). RATE is coded as in Table 2-7. -/
def modeAllowed (port rate width : Nat) (flit : Bool) : Bool :=
  if port < 20 then rate = 1 && width = 8 && !flit
  else ([4, 5, 6] : List Nat).contains rate && (width = 8 || width = 16) && (rate ≠ 6 || flit)



/-- A link comes up. -/
def Port.up (q : Port) (rate width : Nat) (flit : Bool) (time : DWord) : Port :=
  { q with linkUp := true, rate := BitVec.ofNat 4 rate, width := BitVec.ofNat 5 width, flit := flit, changed := time }

/-- A link goes down. -/
def Port.down (q : Port) (time : DWord) : Port :=
  { q with linkUp := false, rate := 0, width := 0, flit := false, changed := time }


/-- LINK_UP: a port trains, or stays down and records NO_MODE (R30, R35). -/
def execLinkUp (e : EngId) (port : Fin 22) (mode : LinkMode) (s : State) : Host.Outcome State Fault Refusal :=
  let x := s.eng e
  let none_ := s.detect e { plainFault 8 1 port.val with master := BitVec.ofNat 16 (0x8000 + port.val) }
  .next (if !x.portsRun || x.ports[port].fenced || x.ports[port].linkUp then s
    else match mode with
    | .none => none_
    | .trained rate width flit =>
      if modeAllowed port.val rate.val width.val flit then
        let s1 := s.modEng e (fun x => x.modPort port (fun q => q.up rate.val width.val flit x.clock.now))
        if portKind port.val = 1 then s1.reconnect else s1
      else none_)

/-- One more retrain, which a saturating count and the storm window keep (Table 2-8, Table 17-3). -/
def Port.retrain (q : Port) (now : Nat) : Port :=
  { q with retrains := if q.retrains = 0xFFFFFFFF then q.retrains else q.retrains + 1,
           storms := (now :: q.storms).filter (fun t => now < t + 60000000000) }


/-- Errors that the link has seen are counted, corrected and uncorrected ones (R432). -/
def Port.errors (q : Port) (errs : Nat × Nat) : Port :=
  { q with corrected := addSat q.corrected errs.1, uncorrected := addSat q.uncorrected errs.2 }

/-- LINK_DOWN: a link retrains, which fails nothing (R53), or goes down; the errors that it has seen by then are counted. -/
def execLinkDown (e : EngId) (port : Fin 22) (loss : LinkLoss) (s : State) : Host.Outcome State Fault Refusal :=
  let x := s.eng e
  let d (src : Fin 32) : Detection := { plainFault 8 src port.val with master := BitVec.ofNat 16 (0x8000 + port.val) }
  .next (if !x.portsRun || !x.ports[port].linkUp then s
    else if loss.retrain then
      let s1 := s.modEng e (fun x => x.modPort port (fun q => (q.errors loss.errs).retrain s.now))
      if 16 < ((s1.eng e).ports[port]).storms.length then s1.detect e (d 3) else s1
    else
      let s1 := (s.modEng e (fun x => x.modPort port (fun q => (q.errors loss.errs).down x.clock.now))).detect e (d 0)
      if 16 ≤ port.val && port.val < 20 then s1.pruneQueues else s1)

/-- The rkey of a window: fixed once drawn, and another one than the window before it had (R59). -/
def State.windowKey (s : State) (e : EngId) (p : PartId) : Word × State :=
  let w := s.win e p
  match w.rkey with
  | some k => (k, s)
  | none =>
    let r := s.draw 32
    let k := if some r.1 = w.lastRkey then r.1 + 1 else r.1
    (k, r.2.modWin e p (fun w => { w with rkey := some k }))

/-- Whether an RDMA connection request is accepted: reliable connected, a partition that includes this joined engine and whose
record lists the GID, a free queue pair (R32, R56, R59). -/
def State.admitsQp (s : State) (e : EngId) (rc : Bool) (gid : Nat) (data : List Byte) : Option PartId :=
  match partId? (byteAt data 0).toNat with
  | some p =>
    if rc && s.joined e && s.hasWindow e p && (s.cfg p).any (fun c => c.gids.contains gid) && (s.eng e).qps.length < 16384 then
      some p
    else none
  | none => none

/-- The path MTU that is agreed with a peer whose largest is `mtu`: the largest of the shelf's that it takes; none where it takes none
(R32; log 150). -/
def agreedMtu (mtu : Nat) : Option Nat := ([4096, 2048, 1024] : List Nat).find? (fun m => m ≤ mtu)

/-- RDMA_CONNECT_REQUEST: a number of a queue pair in use is no answer to a request (R32, R56, R59). -/
def execRdmaConnectRequest (e : EngId) (port : Fin 16) (rc : Bool) (gid : Nat) (data : List Byte) (qp : QpOffer) (s : State) :
    Host.Outcome State Fault Refusal :=
  let x := s.eng e
  .next (if !x.runs || !(x.ports[(Fin.ofNat 22 port.val : Fin 22)]).linkUp || x.qps.any (fun q => q.num = qp.qpn) then s
    else match s.admitsQp e rc gid data, agreedMtu qp.mtu with
    | some p, some m =>
      let r := s.windowKey e p
      let q : Qp := { num := qp.qpn, part := p, port := port.val, mtu := m, ready := true, cuts := 0, lastCnp := none }
      (r.2.modEng e (fun x => { x with qps := x.qps ++ [q] })).send (.connectAccept e qp.qpn r.1 0x1000000)
    | _, _ => s.send (.connectReject e))

/-- PFC_PAUSE_RECEIVED: the lossless priority of a port pauses for `dur` ns (R34, R52). -/
def execPfcPauseReceived (e : EngId) (port : Fin 20) (dur : Nat) (s : State) : Host.Outcome State Fault Refusal :=
  let n : Fin 22 := Fin.ofNat 22 port.val
  let q := (s.eng e).ports[n]
  .next (if (s.eng e).portsRun && q.linkUp && q.pfcOn then
    s.modEng e (fun x => { x with ports := x.ports.set n.val { x.ports[n] with pausedUntil := s.now + dur } n.isLt }) else s)

/-- PFC_PAUSE_SEND: a receive buffer is `fill` per cent full; above 75 % the shelf sends a pause (R34). -/
def execPfcPauseSend (e : EngId) (port : Fin 20) (fill : Nat) (s : State) : Host.Outcome State Fault Refusal :=
  let q := (s.eng e).ports[(Fin.ofNat 22 port.val : Fin 22)]
  .next (if (s.eng e).portsRun && q.linkUp && q.pfcOn && 75 < fill then s.send (.pause e port.val q.pfcPrio) else s)

/-- Update one queue pair. -/
def State.modQp (s : State) (e : EngId) (qpn : Nat) (f : Qp → Qp) : State :=
  s.modEng e (fun x => { x with qps := x.qps.map (fun q => if q.num = qpn then f q else q) })

/-- The I/O queue of a target whose queue pair on an S-port of an engine has a number: volume, S-port of the shelf, queue (R33, R41). -/
def State.sportPair (s : State) (e : EngId) (qpn : Nat) : Option (Nat × Nat × Nat) :=
  (s.store.volumes.zipIdx.flatMap (fun (v, n) => (List.range 4).flatMap (fun i =>
    let sp := 4 * e.val + i
    (List.range (v.queues.toList.getD sp 0)).map (fun q => (n, sp, q))))).find? (fun t => Config.sportQpn t.1 t.2.1 t.2.2 = qpn)

/-- The queue pair of an I/O queue, as it stands where it has met no congestion yet. -/
def Volume.pair (v : Volume) (sp q : Nat) : SPair :=
  (v.pairs.find? (fun c => c.sport = sp && c.queue = q)).getD { sport := sp, queue := q, cuts := 0, lastCnp := none }

/-- Update the queue pair of an I/O queue. -/
def State.modPair (s : State) (t : Nat × Nat × Nat) (f : SPair → SPair) : State :=
  s.modVolume t.1 (fun v =>
    { v with pairs := f (v.pair t.2.1 t.2.2) :: v.pairs.filter (fun c => !(c.sport = t.2.1 && c.queue = t.2.2)) })

/-- ECN_CE_RECEIVED: a congestion notification goes to the sender, at most one per 50 µs of a queue pair (R33), on an A-port or an
S-port. -/
def execEcnCeReceived (e : EngId) (qpn : Nat) (s : State) : Host.Outcome State Fault Refusal :=
  let free (t : Option Nat) : Bool := t.all (fun t => t + 50000 ≤ s.now)
  .next (if !(s.eng e).portsRun then s
    else match (s.eng e).qps.find? (fun q => q.num = qpn), s.sportPair e qpn with
    | some q, _ =>
      if q.ready && free q.lastCnp then (s.modQp e qpn (fun q => { q with lastCnp := some s.now })).send (.cnp e qpn) else s
    | none, some t =>
      if free ((s.volume t.1).bind (fun v => (v.pair t.2.1 t.2.2).lastCnp)) then
        (s.modPair t (fun c => { c with lastCnp := some s.now })).send (.cnp e qpn)
      else s
    | none, none => s)

/-- CNP_RECEIVED: the send rate of a queue pair is reduced; the manual gives no amount, so the model counts the reductions
(R33; log 59). -/
def execCnpReceived (e : EngId) (qpn : Nat) (s : State) : Host.Outcome State Fault Refusal :=
  .next (if !(s.eng e).portsRun then s
    else if (s.eng e).qps.any (fun q => q.num = qpn) then
      s.modQp e qpn (fun q => if q.ready then { q with cuts := q.cuts + 1 } else q)
    else match s.sportPair e qpn with
    | some t => s.modPair t (fun c => { c with cuts := c.cuts + 1 })
    | none => s)

/-! ### Partition resets -/

/-- FUNCTION_LEVEL_RESET: the function's MSI-X Enable and Function Mask bits and the rest of its configuration space return to what
PCIe resets them to, the AER status registers keep what they hold, and a CANCEL reset of its partition starts (R37, R66; log 134). -/
def execFunctionLevelReset (e : EngId) (port : Fin 2) (p : PartId) (s : State) : Host.Outcome State Fault Refusal :=
  .next (if s.hasWindow e p && s.serves e then
    (s.modEng e (fun x => x.modFunc port p (fun f => { Func.reset with aerUnc := f.aerUnc, aerCor := f.aerCor }))).startReset p e
      true false
  else s)

/-- Whether every stream command and mailbox command of a partition has ended on its surviving members, and no step must run to
its end (Table 3-7 steps 3 to 5, R67). -/
def State.resetDue (s : State) (p : PartId) : Bool :=
  let ms := (maskEngines (s.members p)).filter (fun e => s.serves e)
  ms.all (fun e =>
    let w := s.win e p
    w.allFinished && w.mbx.job.all (fun j => match j.phase with | .ready _ => true | _ => false)) &&
    (s.part p).step.phase ≠ 2 && (s.part p).step.phase ≠ 3

/-- Mailbox responses that are ready are posted before the windows clear (R68). -/
def State.postReady (s : State) (p : PartId) : State :=
  (maskEngines (s.members p)).foldl (fun s e => s.completeMailbox e (some p)) s

/-- Steps 6 and 7 of Table 3-7 on every member, and the reset-done event on the requesting engine. -/
def State.finishReset (s : State) (p : PartId) (r : PartReset) : State :=
  let s1 := (s.postReady p).modEngines (s.members p) (fun _ x => x.clearWindow p)
  let e := s1.resetEngine p r.eng
  let s2 := (s1.modWin e p (fun w => { w with rstDone := true })).signalV0 e p 0
  s2.modPart p (fun x => { x with resetting := none })

/-- RESET_DONE: a partition reset reaches its last step. A PART_DELETE's partition goes with it; one that waits behind starts
its own reset (R66–R68, R76, R77). -/
def execResetDone (p : PartId) (s : State) : Host.Outcome State Fault Refusal :=
  .next (match (s.part p).resetting with
    | none => s
    | some r =>
      if !s.resetDue p then s
      else
        let s1 := s.finishReset p r
        if r.delete then
          (s1.deletePartition p).answerJobs (fun j => j.waitsFor .resetDone && j.op = 0x31 && field j.cmd 8 1 = p.val) .ok []
        else if r.next then s1.startReset p r.eng true true
        else s1)

end Sys2Proof.Machine
end

