-- ==== Sys2Proof/Machine/DrainRows.lean ====
section
/-! DEFINITION. The drain and commit of an epoch, its retirement, and retries of a target that is not reached (R184, R187,
R221, R223, R229–R231, R235–R237). -/

namespace Sys2Proof.Machine

/-- An epoch whose drain campaign runs. -/
def Partition.draining (x : Partition) (n : Nat) : Option Epoch :=
  (x.epoch? n).filter (fun ep => ep.drain && ep.campaign.isSome && ep.state < 5)



/-- Store traffic waits because no extent is free: STORE_FULL is raised on an engine (10 At the limits). -/
def State.storeFull (s : State) (e : EngId) : State := s.mgmtFault e 6

/-- A shard takes the STORE tokens that its next transfer still lacks, as far as the bucket has them; whether it has all (R71, R72,
R230). -/
def State.payShard (s : State) (p : PartId) (n i : Nat) (e : EngId) (h : Shard) : Bool × State :=
  let r := s.payStore e p (h.storeTokens - h.paid)
  (h.storeTokens ≤ h.paid + r.1, r.2.setShard p n i (fun h => { h with paid := h.paid + r.1 }))

/-! ### Steps 2 and 3 of Table 10-9 -/

/-- The volumes that hold written shards of an epoch from a source engine which step 3 has not reached. -/
def Epoch.unflushed (ep : Epoch) (src : Nat) : List Nat :=
  ((ep.shards.filter (fun h => h.src = src && h.phase = 1 && !h.flushed)).map (fun h => ptrVol h.ptr)).dedup

/-- Whether a source engine of an epoch still has staged objects to write. -/
def Epoch.writes (ep : Epoch) (src : Nat) : Bool := ep.shards.any (fun h => h.src = src && h.phase = 0 && h.objLen ≠ 0)

/-- Step 3: once a source engine has no staged object left to write, it flushes the targets that have a volatile write cache
(R228; DEDUCED, log 131). A target without one needs no Flush. -/
def State.flushDrain (s : State) (p : PartId) (n src : Nat) : State :=
  match (s.part p).epoch? n with
  | none => s
  | some ep =>
    if ep.writes src then s
    else
      let s1 := ((ep.unflushed src).filter (fun v => (s.volume v).any Volume.cache)).foldl (fun s v => s.flushVolume v) s
      s1.modEpoch p n (fun q => { q with shards := q.shards.map (fun h =>
        if h.src = src && h.phase = 1 then { h with flushed := true } else h) })

/-- Step 2 of one shard ends (R229). -/
def State.shardWritten (s : State) (p : PartId) (n i ptr : Nat) (h : Shard) : State :=
  let direct := (s.volume (ptrVol ptr)).all (fun x => !x.cache)
  (((s.writePtr ptr h.obj false).setShard p n i (fun h =>
    { h with ptr := ptr, phase := 1, flushed := direct, paid := 0 })).flushDrain p n h.src).modEpoch p n Epoch.refresh

/-- The write of a shard to a run of the store ends: a media error leaves it to be written at another place (R236), a transport error
costs the connection (R235). -/
def State.endShardWrite (s : State) (p : PartId) (n i : Nat) (h : Shard) (res : StoreResult) : State :=
  let e := s.keyEngine h.src
  match s.takeBlocks (blocksFor h.objLen) with
  | none => s.storeFull e
  | some (ptr, s2) =>
    if !s.storeGoes (ptrVol ptr) then s
    else match res with
      | .mediaError => s2.setShard p n i (fun h => h.again ptr)
      | .transportError => s.loseConnection (ptrVol ptr)
      | .ok => (s2.modEng e (fun x => x.dropBlock (.drain p n i))).shardWritten p n i ptr h

/-- SHARD_WRITE_COMPLETE: the write of a staged object ends, its STORE tokens drawn (R72) and its c-blocks coded on a compression
lane of its engine, for which it queues (R341; log 142). Without tokens, a lane or a free extent the drain waits. -/
def execShardWriteComplete (p : PartId) (n i : Nat) (res : StoreResult) (s : State) : Host.Outcome State Fault Refusal :=
  .next (match (s.part p).draining n with
  | none => s
  | some ep => match ep.shards[i]? with
    | none => s
    | some h =>
      let e := s.keyEngine h.src
      if h.objLen = 0 || h.phase ≠ 0 || !s.mayWrite then s
      else match s.payShard p n i e h with
      | (false, s1) => s1
      | (true, s1) => match s1.codecLane e (.drain p n i) with
        | (s2, false) => s2
        | (s2, true) => s2.endShardWrite p n i h res)

/-! ### Step 4 -/

/-- The comparators' result of a check of the shelf (Table 12-3, R266); `upset` replaces what they give (R267). -/
def checkResult (same : Bool) (upset : Comparators) : BitVec 4 × BitVec 4 := upset.getD (if same then (0xA, 0x5) else (0x5, 0xA))

/-- The comparators of a lane disagree: a fault on the lane, and the job of the shelf runs again (R267). -/
def State.laneUpset (s : State) (e : EngId) (lane : Nat) : State :=
  s.detect e { plainFault 2 0 lane with master := BitVec.ofNat 16 (0x3000 + lane), access := 0xC, status := statusCode .fenced }

/-- Whether a shard's bytes verify: in digest mode the digest of the bytes as sent equals that of the staged object and of the
manifest entry, in read-back mode the bytes read back equal it (R230). -/
def Shard.verifies (h : Shard) (mode : Nat) (got : List Byte) : Bool := if mode = 1 then got = h.obj else sha256 got = h.digest

/-- What a shard that does not verify reports (R230). -/
def verifyStatus (mode : Nat) : Status := if mode = 1 then .readbackMismatch else .digestMismatch

/-- A drain without a commit ends once every shard is verified (log 71). -/
def State.endPlainDrain (s : State) (p : PartId) (n : Nat) : State :=
  match (s.part p).epoch? n with
  | some ep => if !ep.commit && ep.state ≠ 1 && ep.shards.all (fun h => h.phase = 2) then
      (s.endCampaign ep.campaign).modEpoch p n (fun q => { q with campaign := none }) else s
  | none => s

/-- A shard passes step 4: its staged copy and the runs of earlier writes are freed, and what waits for room is staged (R229,
R237). -/
def State.shardPasses (s : State) (p : PartId) (n i : Nat) (ep : Epoch) (h : Shard) : State :=
  let s1 := ((h.old.foldl (fun s o => s.freeRun o) s).setShard p n i (fun h => { h with phase := 2, obj := [], old := [] })).modEng
    (Fin.ofNat 16 h.src) (fun x => { x with epochUsed := x.epochUsed - h.objLen })
  (if ep.paused then s1 else s1.stageEpoch p n).endPlainDrain p n

/-- The read of step 4 in read-back mode, whose tokens have been drawn (R230). -/
def State.verifyRead (s : State) (ep : Epoch) (h : Shard) : State :=
  if ep.verify = 1 then s.storeRead h.ptr (blocksFor h.objLen) else s

/-- What step 4 waits for in read-back mode: a way to the target and STORE tokens (R230, R235). -/
def State.verifyWaits (s : State) (p : PartId) (n i : Nat) (ep : Epoch) (h : Shard) : Bool × State :=
  if ep.verify ≠ 1 then (false, s)
  else if !s.storeGoes (ptrVol h.ptr) then (true, s)
  else let r := s.payShard p n i (s.keyEngine h.src) h
    (!r.1, r.2)

/-- Step 4 of one shard ends on the digest lane `l` (R230, R235–R237, R266, R267). -/
def State.endVerify (s : State) (p : PartId) (n i l : Nat) (ep : Epoch) (h : Shard) (got : StoreRead) (upset : Comparators) :
    State :=
  let e := s.keyEngine h.src
  let s2 := s.verifyRead ep h
  match got with
  | .transportError => if ep.verify = 1 then (s2.freeLane e (.shard p n i)).loseConnection (ptrVol h.ptr) else s
  | .mediaError => if ep.verify = 1 then (s2.freeLane e (.shard p n i)).shardFails p n i .mediumError else s
  | .bytes b =>
    let m := checkResult (h.verifies ep.verify b) upset
    if !soundResult m then s2.laneUpset e l
    else if m = (0xA, 0x5) then (s2.freeLane e (.shard p n i)).shardPasses p n i ep h
    else (s2.freeLane e (.shard p n i)).shardFails p n i (verifyStatus ep.verify)

/-- SHARD_VERIFIED: with a digest lane, a shard passes, or fails and is written again at another place; after three failures the
epoch becomes FAILED (R230, R237). `read.got` is what was sent, or what the target answers to the read. -/
def execShardVerified (p : PartId) (n i : Nat) (read : CheckRead) (s : State) : Host.Outcome State Fault Refusal :=
  .next (match (s.part p).draining n with
  | none => s
  | some ep => match ep.shards[i]? with
    | none => s
    | some h =>
      if h.phase ≠ 1 || !h.flushed then s
      else match s.verifyWaits p n i ep h with
      | (true, s1) => s1
      | (false, s1) => match s1.shelfLane (s.keyEngine h.src) (.shard p n i) with
        | (none, s2) => s2
        | (some l, s2) => s2.endVerify p n i l ep h read.got read.upset)

/-! ### Steps 5 to 7 -/

/-- Whether an engine may stamp a commit: joined, and not TIME_SUSPECT (R187). -/
def State.mayStamp (s : State) (e : EngId) : Bool := s.joined e && !s.lost e && !(s.eng e).clock.suspect

/-- MANIFEST_BUILD: with every shard verified the stamping engine builds the manifest, seals it on a digest lane and writes it;
without its key the epoch becomes FAILED (R229, R404). A media error has it written at another place (R236). -/
def execManifestBuild (p : PartId) (n : Nat) (w : ManifestWrite) (s : State) : Host.Outcome State Fault Refusal :=
  let e := w.eng
  .next (match (s.part p).draining n with
  | none => s
  | some ep => match ep.gen with
    | none => s
    | some gen =>
      if !ep.commit || ep.state ≠ 4 || ep.shards.any (fun h => h.phase ≠ 2) || !ep.manifest.isEmpty || !s.mayStamp e ||
          !s.mayWrite then s
      else match ep.mslot.bind (fun i => s.keyOf e p i 2) with
        | none => s.failEpoch p n
        | some k => match s.shelfLane e (.seal p n) with
          | (none, s1) => s1
          | (some _, s1) =>
            let s2 := s1.freeLane e (.seal p n)
            let dkey := ep.dslot.bind (fun i => s.keyOf e p i 3)
            let m := manifestBytes p ep gen k.key (dkey.elim 0 KeySlot.keyId) ep.dslot.isSome
            match s2.takeBlocks (blocksFor m.length) with
            | none => s2.storeFull e
            | some (ptr, s3) =>
              if !s.storeGoes (ptrVol ptr) then s2
              else match w.res with
              | .mediaError => s3.modEpoch p n (fun q => { q with mold := ptr :: q.mold })
              | .transportError => s2.loseConnection (ptrVol ptr)
              | .ok => (s3.writePtr ptr (padTo (roundUp m.length blockBytes) m) true).modEpoch p n (fun q =>
                  { q with manifest := m, mptr := ptr, mchecked := false }))

/-- A failed attempt at step 6 or 7: the third makes the epoch FAILED (R237). -/
def State.commitFails (s : State) (p : PartId) (n : Nat) : State :=
  let s1 := s.modEpoch p n (fun q => { q with tries := q.tries + 1 })
  if ((s1.part p).epoch? n).any (fun q => 3 ≤ q.tries) then s1.failEpoch p n else s1

/-- Whether a manifest that was read back carries its SHA-256 and its seal (Table 10-9 step 6). -/
def Epoch.manifestReads (ep : Epoch) (b : List Byte) : Bool :=
  sha256 b = sha256 ep.manifest && b.drop (b.length - 48) = ep.manifest.drop (ep.manifest.length - 48)

/-- The manifest that was read back does not verify: it leaves its place, and is built and written again at another (R237). -/
def State.manifestFails (s : State) (p : PartId) (n : Nat) : State :=
  (s.modEpoch p n (fun q => { q with manifest := [], mptr := 0, mold := q.mptr :: q.mold })).commitFails p n

/-- MANIFEST_READBACK: the manifest, written with FUA (R228), is read back and checked on a digest lane of the engine that stamps
(R229, R237). -/
def execManifestReadback (p : PartId) (n : Nat) (read : CheckRead) (s : State) : Host.Outcome State Fault Refusal :=
  let e := s.firstJoined
  .next (match (s.part p).draining n with
  | none => s
  | some ep =>
    if ep.manifest.isEmpty || ep.mchecked || !s.storeGoes (ptrVol ep.mptr) then s
    else match s.shelfLane e (.check p n) with
    | (none, s1) => s1
    | (some l, s1) =>
      let v := ptrVol ep.mptr
      let s2 := s1.storeRead ep.mptr (blocksFor ep.manifest.length)
      match read.got with
      | .transportError => (s2.freeLane e (.check p n)).loseConnection v
      | .mediaError => (s2.freeLane e (.check p n)).manifestFails p n
      | .bytes b =>
        let m := checkResult (ep.manifestReads b) read.upset
        if !soundResult m then s2.laneUpset e l
        else if m = (0xA, 0x5) then (s2.freeLane e (.check p n)).modEpoch p n (fun q => { q with mchecked := true, tries := 0 })
        else (s2.freeLane e (.check p n)).manifestFails p n)

/-- The commit record of Table 10-5. -/
def commitRecord (p : PartId) (e : EngId) (ep : Epoch) (gen : Nat) (time : DWord) : List Byte :=
  let b := layoutBytes 4064 [(8, 2, 1), (10, 1, ep.kind), (12, 4, gen), (16, 6, ep.n), (24, 6, ep.base),
    (32, 8, ep.cutTime.toNat), (40, 8, time.toNat), (48, 1, e.val), (49, 1, p.val), (50, 1, ep.verify), (56, 8, ep.mptr),
    (64, 8, ep.manifest.length)]
  let c := putBytes (putBytes b 0 (ascii "WLMCR001")) 72 (sha256 ep.manifest)
  sealRec (putBytes c 104 ((List.range 16).flatMap (fun i => natLe 8 (ep.image.lsn.toList.getD i 0))))

/-- Whether the base of a delta is COMMITTED (R184, R223). -/
def State.baseCommitted (s : State) (gen : Nat) (ep : Epoch) : Bool :=
  ep.kind ≠ 2 || (s.readCommit gen ep.base).any (fun r => !commitRetired r)

/-- Whether the commit of an epoch lets its partition lend in the flood turn (R17, R25, R256): a final ebb epoch of the turn, or a
cut of the turn made while the partition was HELD (log 128). -/
def Tide.lendsOn (t : Tide) (ep : Epoch) : Bool := t.flood && ep.turn = t.count && (ep.final || ep.whileHeld)

/-- An epoch is COMMITTED (Table 8-3, R229 step 7): its campaign ends, runs of earlier writes of its manifest are freed, the
stamping engine journals it (log 69), and a partition that waits for it may lend. -/
def State.committed (s : State) (p : PartId) (n : Nat) (e : EngId) (gen : Nat) (ep : Epoch) (time : DWord) : State :=
  let s1 := ((ep.mold.foldl (fun s o => s.freeRun o) s).endCampaign ep.campaign).modEpoch p n (fun q =>
    { q with state := 5, campaign := none, commitTime := time, pinned := false, mold := [] })
  let s2 := s1.modPart p (fun x => { x with lastCommitted := max x.lastCommitted n })
  let s3 := s2.journal e 1 p.val (natLe 4 gen ++ natLe 6 n ++ zeros 2 ++ natLe 8 time.toNat)
  let t := s3.tide
  if t.lendsOn ep then { s3 with tide := { t with ready := setBit t.ready p.val true } } else s3

/-- COMMIT_RECORD_WRITTEN: the write of the commit record, with FUA, ends (R223, R228, R229 step 7, R236, R237). It waits for the
base, for a stamping engine that is not TIME_SUSPECT, and for the lease. -/
def execCommitRecordWritten (p : PartId) (n : Nat) (e : EngId) (res : StoreResult) (s : State) :
    Host.Outcome State Fault Refusal :=
  .next (match (s.part p).draining n with
  | none => s
  | some ep => match ep.gen with
    | none => s
    | some gen => match s.readGen gen with
      | none => s
      | some g =>
        if !ep.mchecked || !s.mayStamp e || !s.mayWrite || !s.baseCommitted gen ep || !s.storeGoes (ptrVol (ringPtr g n)) then s
        else match res with
          | .mediaError => s.commitFails p n
          | .transportError => s.loseConnection (ptrVol (ringPtr g n))
          | .ok =>
            let t := s.time e
            (s.writePtr (ringPtr g n) (commitRecord p e ep gen t) true).committed p n e gen ep t)

/-! ### Retention (R231) -/

/-- The retained epochs of a generation beyond KEEP that nothing retained needs as a base. -/
def State.retirable (s : State) (gen : Nat) : List Nat :=
  let all := ((s.retained gen).map (fun c => (c.1, commitBase c.2))).insertionSort (fun a b => a.1 ≤ b.1)
  let old := all.take (all.length - keepOf s.targets)
  (old.filter (fun c => !all.any (fun d => d.2 = c.1))).map Prod.fst

/-- Whether a restore of the shelf reads an epoch: it lies on the chain of an open session (Table 10-11). -/
def State.restoreReads (s : State) (gen n : Nat) : Bool :=
  s.parts.toList.any (fun x => x.restore.any (fun r => r.state = 2 && r.gen = gen &&
    (r.n = n || r.chain.any (fun m => field m 16 6 = n))))

/-- Whether an epoch of a generation retires: beyond KEEP, read by no restore, and every volume it lies on reached (R231). -/
def State.mayRetire (s : State) (gen n : Nat) : Bool :=
  s.mayWrite && (s.retirable gen).contains n && !s.restoreReads gen n && s.reachesEpoch gen n

/-- EPOCH_RETIRE: an epoch beyond KEEP of a LIVE generation of the partition leaves the store: that of the oldest generation in
which it is to be retired. -/
def execEpochRetire (p : PartId) (n : Nat) (s : State) : Host.Outcome State Fault Refusal :=
  .next (match ((s.liveGens.filter (fun g => genPart g.2 = p.val)).find? (fun g => s.mayRetire g.1 n)) with
  | some g => s.retireEpoch g.1 n
  | none => s)

/-- Drains that wait to be staged, for room in the epoch area or for a generation on the store, go on (Table 10-9 step 1). -/
def State.resumeDrains (s : State) : State :=
  s.partIds.foldl (fun s p => (s.part p).epochs.foldl (fun s ep =>
    if ((s.part p).draining ep.n).any (fun q => !q.paused && (q.shards.isEmpty || q.shards.any (fun h => h.objLen = 0))) then
      s.stageEpoch p ep.n else s) s) s

/-- DRAIN_RETRY: a drain that waits for a target tries it again: every S-port that is up connects (R53, R235, log 72).
Deallocations and drains that wait go on too. -/
def execDrainRetry (p : PartId) (n : Nat) (s : State) : Host.Outcome State Fault Refusal :=
  .next (if ((s.part p).draining n).isSome then (s.reconnect.freeWaiting).resumeDrains else s)

end Sys2Proof.Machine
end

