-- ==== Sys2Proof/Machine/Membership.lean ====
section
/-! DEFINITION. Views: heartbeats, proposals, the joining and leaving of engines, the loss of quorum, phase timeouts and the
split window (R297–R305, R311–R313, R321). -/

namespace Sys2Proof.Machine

/-! ### Heartbeats (R297, R311) -/



/-- The engines that count toward a quorum for a peer that reaches them: those that are joined or offer themselves. -/
def State.counts (s : State) (e : EngId) : Bool :=
  s.joined e || ([1, 2, 5] : List Nat).contains (s.eng e).member.state

/-- How many engines an engine reaches, counting itself (R311). -/
def State.reachCount (s : State) (e : EngId) : Nat :=
  ((List.finRange 16).filter (fun x => x = e || (s.counts x && !(s.eng x).fenced && s.reachesPeer e x))).length

/-- Note since when an engine reaches fewer than nine (R311). -/
def State.noteQuorum (s : State) (e : EngId) : State :=
  let few := s.reachCount e < 9
  s.modEng e (fun x =>
    { x with member := { x.member with lostSince := if few then (x.member.lostSince <|> some s.now) else none } })

/-- HEARTBEAT: an engine sends its heartbeats, and the engines that hear them note it (R297). -/
def execHeartbeat (e : EngId) (heard : BitVec 16) (s : State) : Host.Outcome State Fault Refusal :=
  .next (if !s.serves e then s
  else
    let ls := (maskEngines heard).filter (fun x => x ≠ e && s.serves x)
    let s1 := ls.foldl (fun s x => s.modEng x (fun y =>
      { y with member := { y.member with heard := y.member.heard.set e.val s.now e.isLt,
                                         unreachable := setBit y.member.unreachable e.val false } })) s
    (e :: ls).foldl (fun s x => s.noteQuorum x) s1)

/-- PEER_UNREACHABLE: nothing has been heard from a peer for 20 ms (R297). -/
def execPeerUnreachable (e peer : EngId) (s : State) : Host.Outcome State Fault Refusal :=
  .next (if s.serves e && e ≠ peer && (s.eng e).member.heard[peer] + 20000000 ≤ s.now then
    let s1 := s.modEng e (fun x =>
      { x with member := { x.member with unreachable := setBit x.member.unreachable peer.val true } })
    (List.finRange 16).foldl (fun s x => if s.serves x then s.noteQuorum x else s) s1
  else s)

/-! ### Losing quorum (R311) -/

/-- What a WRITE or RIDER_PUT that has started leaves when it is broken off: a mixture in its range (R124). -/
def Run.breakOff (r : Run) (s : State) : State :=
  let p := r.at_.part
  if r.slot.data.isEmpty then s
  else match r.slot.op with
  | 0x02 => match (s.part p).tensor? r.slot.obj with
    | some t => r.partWrite s t 0
    | none => s
  | 0x09 =>
    let (bs, s1) := s.mix (assocGetD (s.part p).riders r.slot.obj []) (r.slot.data.map some)
    s1.modPart p (fun x => { x with riders := assocSet x.riders r.slot.obj bs })
  | _ => s

/-- The commands of an engine that have started, in every window. -/
def State.startedSlots (s : State) (e : EngId) : List Run :=
  (List.finRange 64).flatMap (fun p => (s.win e p).streams.flatMap (fun x =>
    (x.2.queue.filter (fun q => q.phase = .running)).map (fun q =>
      ({ at_ := { eng := e, part := p, stream := x.1 }, slot := q, fail := { store := false, host := none } } : Run))))

/-- Whether a mailbox command ends with SC_NO_QUORUM when its engine loses quorum: every one but those of R104 and a
configuration change whose outcome R302 decides. -/
def State.endsWithoutQuorum (s : State) (j : Job) : Bool :=
  !alwaysRuns j.op && (match j.phase with
    | .ready _ => false
    | .waiting .adoption => s.adoption.isNone
    | .waiting (.decided _) => false
    | _ => true)

/-- The commands of an engine that has lost quorum end (R311). -/
def State.endCommands (s : State) (e : EngId) : State :=
  let s1 := (s.startedSlots e).foldl (fun s r => r.breakOff s) s
  s1.modEng e (fun x =>
    let y := (List.finRange 64).foldl (fun (y : Engine) p => y.returnTokens y.windows[p].tokensHeld) x
    { y with redfish := y.redfish.answerIf s1.endsWithoutQuorum .noQuorum [],
             windows := y.windows.map (fun w =>
               { w.endSlots (fun _ => true) .noQuorum with mbx := w.mbx.answerIf s1.endsWithoutQuorum .noQuorum [] }) })

/-- An engine leaves the view and enters NO_QUORUM, unannounced: the partitions lose it when a view has formed without it (R299, R311,
R312). -/
def State.loseQuorum (s : State) (e : EngId) : State :=
  let s1 := (s.endCommands e).modEng e (fun x =>
    { x with member := { x.member with state := 5, reason := 7, lostSince := none } })
  let m := s1.membership
  let s2 : State := { s1 with membership := { m with view := m.view.map (fun v => { v with set := v.set &&& ~~~engineBit e }) } }
  (s2.memberEvent 10 e.val 7).quorumCheck

/-- NO_QUORUM: an engine that has reached fewer than nine engines for 100 ms (R311). -/
def execNoQuorum (e : EngId) (s : State) : Host.Outcome State Fault Refusal :=
  .next (if s.joined e && (s.eng e).member.lostSince.any (fun t => t + 100000000 ≤ s.now) then s.loseQuorum e else s)

/-! ### Agreement (Table 14-1) -/

/-- What Table 14-1 says of an engine that would be joined beside others: nothing, or the reason why it stays out, 0 while
its counter still has time to be steered. -/
def State.disagrees (s : State) (others : BitVec 16) (e : EngId) : Option Nat :=
  let x := s.eng e
  if x.member.foreign && !hasEngine s.record.admitted e then some 1
  else if hasEngine s.record.excluded e then some 5
  else if !s.buildFits others x.fw.major x.fw.minor then some 2
  else if 50000 < (s.offset e).natAbs then (if x.member.offeredAt + 1000000000 ≤ s.now then some 3 else some 0)
  else none

/-- Whether an engine may offer itself: it runs, its pool is initialised (R217, Table 20-2), it is not retired, and no rule keeps it out
until something is done. -/
def State.mayOffer (s : State) (e : EngId) : Bool :=
  s.serves e && (s.eng e).channels.all (fun c => c.initEnd.isNone) && (s.eng e).fw.booted && (s.eng e).lifecycle ≠ 3 && ([1, 2, 4, 5] : List Nat).contains (s.eng e).member.state

/-- Add to a set the engines of a list that agree with it, in order. -/
def State.agreeing (s : State) (set : BitVec 16) (es : List EngId) : BitVec 16 :=
  es.foldl (fun m e => if hasEngine m e then m
    else if s.mayOffer e && (s.disagrees m e).isNone then m ||| engineBit e else m) set

/-- The engines that an engine reaches and that reach it. -/
def State.mutual (s : State) (e : EngId) : List EngId :=
  (List.finRange 16).filter (fun x => s.serves x && s.reachesPeer e x && s.reachesPeer x e)

/-- The set a leader proposes: the view's engines that it reaches both ways, itself, and those that agree (R298). -/
def State.proposalSet (s : State) (leader : EngId) : BitVec 16 :=
  let ms := s.mutual leader
  let base := engineMask (ms.filter (fun e => s.joined e))
  s.agreeing (if base = 0 then (if s.mayOffer leader && (s.disagrees 0 leader).isNone then engineBit leader else 0) else base) ms

/-- The largest set whose members agree among themselves, grown from each engine in turn; the first of equals. -/
def State.largestSet (s : State) : BitVec 16 :=
  (List.finRange 16).foldl (fun m e => if maskCount m < maskCount (s.proposalSet e) then s.proposalSet e else m) 0

/-- The leader: the lowest engine of the view that reaches a quorum, else the lowest of the largest agreeing set (R298). -/
def State.leader? (s : State) : Option EngId :=
  match (maskEngines s.joinedMask).find? (fun e => s.serves e && 9 ≤ s.reachCount e) with
  | some e => some e
  | none => (maskEngines s.largestSet).head?

/-- Whether 300 ms have passed since every engine of the view that a set leaves out was last heard from by the set (R312). -/
def State.longLost (s : State) (set : BitVec 16) : Bool :=
  (maskEngines (s.formedMask &&& ~~~set)).all (fun x => (maskEngines set).all (fun e => (s.eng e).member.heard[x] + 300000000 ≤ s.now))

/-! ### Proposals (R298) -/

/-- An engine accepts a proposal that rises, names it and reaches every engine of the set. -/
def State.accept (s : State) (e : EngId) : State :=
  match s.membership.proposal with
  | none => s
  | some q =>
    if s.serves e && hasEngine q.set e && (s.eng e).member.accepted < q.num &&
        (maskEngines q.set).all (fun x => s.reachesPeer e x) then
      let s1 := s.modEng e (fun x => { x with member := { x.member with accepted := q.num } })
      { s1 with membership := { s1.membership with proposal := some { q with accepted := q.accepted ||| engineBit e } } }
    else s

/-- A leader sends a proposal and answers it itself. -/
def State.sendProposal (s : State) (leader : EngId) (num : Nat) (set : BitVec 16) : State :=
  let q : Proposal := { num := num, set := set, leader := leader, accepted := 0, since := s.now }
  ({ s with membership := { s.membership with proposal := some q } }).accept leader

/-- PROPOSE: the leader proposes a view of the engines that it reaches, that reach it and that agree, when at least nine do
and the view would change (R298, R299, R312). No number follows 0xFFFF_FFFF (R300). -/
def execPropose (leader : EngId) (s : State) : Host.Outcome State Fault Refusal :=
  let m := s.membership
  let set := s.proposalSet leader
  let num := max m.lastView (s.eng leader).member.accepted + 1
  let same := m.view.any (fun v => v.set = set && v.formed = set)
  .next (if s.leader? = some leader && 9 ≤ maskCount set && !same && num ≤ 0xFFFFFFFF && s.longLost set &&
      !m.proposal.any (fun q => q.leader = leader) then s.sendProposal leader num set
    else s)

/-- PROPOSE_RECEIVED: an engine answers the proposal (R298). -/
def execProposeReceived (e : EngId) (s : State) : Host.Outcome State Fault Refusal := .next (s.accept e)

/-- VIEW_PROPOSE_TIMEOUT: after 10 ms the leader proposes again without the engines that did not accept (R298). -/
def execViewProposeTimeout (s : State) : Host.Outcome State Fault Refusal :=
  .next (match s.membership.proposal with
  | none => s
  | some q =>
    if q.accepted = q.set || s.now < q.since + 10000000 then s
    else if maskCount (q.accepted ||| engineBit q.leader) < 9 || 0xFFFFFFFF ≤ q.num then
      { s with membership := { s.membership with proposal := none } }
    else s.sendProposal q.leader (q.num + 1) (q.accepted ||| engineBit q.leader))

/-! ### Joining (R303, R313) -/

/-- What an engine that joins discards of its pool, in the placements that name it (R313). -/
def Placement.forget (pl : Placement) (e : EngId) : Placement :=
  { pl with units := pl.units.filter (fun u => u.1 ≠ e.val), gone := pl.gone ||| (engineBit e &&& pl.members) }

/-- A provisional image's first join advances the counter and makes its slot the active one (R411). -/
def State.advanceCounter (s : State) (e : EngId) : State :=
  let f := (s.eng e).fw
  if !f.provisional then s
  else
    let s1 := s.modEng e (fun x =>
      { x with fw := { x.fw with counter := f.sec.toNat, active := f.run, provisional := false } })
    s1.fwJournal e 4 f.run ((f.info e f.run).getD { major := f.major, minor := f.minor, patch := f.patch, sec := f.sec, time := 0 })

/-- A PROVISIONED engine that joins a sealed view is sealed, with the view's arming (R403). -/
def State.joinSeal (s : State) (e : EngId) : State :=
  match (maskEngines s.joinedMask).find? (fun x => x ≠ e && (s.eng x).lifecycle = 2) with
  | some x => if (s.eng e).lifecycle = 1 then s.sealOne e (s.eng x).keeper.arm else s
  | none => s

/-- An engine joins: with no partition state, the view's record and the saved threshold; a command whose outcome was
decided while it was out gets its response (R302, R303, R313, R370). -/
def State.joinOne (s : State) (e : EngId) : State :=
  let posted (m : Mailbox) : Mailbox := { m with job := m.job.map (fun j => match j.phase with
    | .waiting (.decided rsp) => { j with phase := .ready rsp }
    | _ => j) }
  let staged := (s.parts.toList.map (fun p => (p.epochs.map (fun q => q.stagedOn e)).sum)).sum
  let s1 := s.modEng e (fun x =>
    { x with member := { x.member with state := 2, reason := 0, lostSince := none },
             pool := [], protectedSlices := [], units := [], lostRows := [], remaps := [], epochUsed := staged,
             record := some s.record.seq, threshold := field (s.featureSaved 5 e 0) 0 1,
             redfish := posted x.redfish, windows := x.windows.map (fun w => { w with mbx := posted w.mbx }) })
  let s2 : State := { s1 with
    parts := s1.parts.map (fun p => { p with tensors := p.tensors.map (fun t =>
      { t with place := t.place.forget e, dest := t.dest.map (fun d => d.forget e) }) }),
    membership := { s1.membership with activation := s1.membership.activation.filter (fun a => a ≠ e) } }
  (s2.advanceCounter e).joinSeal e

/-- Step 8 of Table 20-2: with the first view a pending record is decided, journaled work resumes, and without saved
targets step 9 ends at once (R321, R408, R422). -/
def State.firstView (s : State) (set : BitVec 16) : State :=
  let r := match s.adoption with
    | some a => if a.current &&& set = 0 then s.record else a.record
    | none => s.record
  let s1 := ({ s with record := r, adoption := none }).resumeWork
  if (s1.featureSaved 2 0 0).isEmpty then { s1 with store := { s1.store with step9 := true } } else s1

/-- Every engine has lost quorum at once: no partition state survives (R313). -/
def State.loseAll (s : State) : State := s.partIds.foldl (fun s p => s.discardState p) s

/-- A view forms on a set by agreement: engines of the old view that it leaves out have lost quorum, new ones join (R298,
R299, R312), and the partitions lose both; where no engine of an earlier view is left, the partitions' state is gone (R313). -/
def State.newView (s : State) (num : Nat) (set : BitVec 16) : State :=
  let old := s.joinedMask
  let before := s.membership.lastView
  let news := maskEngines (set &&& ~~~old)
  let s1 := (maskEngines (old &&& ~~~set)).foldl (fun s e => s.loseQuorum e) s
  let s2 := if before = 0 then s1.firstView set else if s1.joinedMask = 0 then s1.loseAll else s1
  let s3 := ({ s2 with membership := { s2.membership with lastView := num - 1 } }).formView set
  let s4 := news.foldl (fun s e => (s.joinOne e).memberEvent 1 e.val 0) s3
  ((s4.loseGone (s.formedMask &&& ~~~(old &&& set))).nearEnd before).kickReshards

/-- VIEW_FORMED: the leader holds ACCEPT from every engine of the set within 10 ms (R298). -/
def execViewFormed (s : State) : Host.Outcome State Fault Refusal :=
  .next (match s.membership.proposal with
  | none => s
  | some q => if q.accepted = q.set && s.now ≤ q.since + 10000000 then s.newView q.num q.set else s)

/-- An engine that offers itself is checked and joins, or stays out with the reason (R303, Table 14-1). -/
def State.tryJoin (s : State) (e : EngId) : State :=
  let set := s.joinedMask
  if s.joined e || !s.mayOffer e || maskCount set < 9 || s.membership.lastView = 0xFFFFFFFF ||
      !(maskEngines set).all (fun x => s.reachesPeer e x && s.reachesPeer x e) then s
  else match s.disagrees set e with
  | some 0 => s
  | some r => s.modEng e (fun x => { x with member := { x.member with state := if r = 5 then 7 else 4, reason := r } })
  | none => s.newView (s.membership.lastView + 1) (set ||| engineBit e)

/-- ENGINE_JOIN: an engine joins the view (R303). -/
def execEngineJoin (e : EngId) (s : State) : Host.Outcome State Fault Refusal := .next (s.tryJoin e)

/-- TIME_JOIN_RECHECK: an engine that is out for its time is checked again (Table 14-1). -/
def execTimeJoinRecheck (e : EngId) (s : State) : Host.Outcome State Fault Refusal :=
  .next (if (s.eng e).member.state = 4 && (s.eng e).member.reason = 3 then s.tryJoin e else s)

/-! ### Leaving -/

/-- DEPARTURE_ANNOUNCEMENT: an engine leaves by time, split expiry, exclusion or fault, and the new view forms at once
(R312). -/
def execDepartureAnnouncement (e : EngId) (reason : Nat) (s : State) : Host.Outcome State Fault Refusal :=
  .next (if s.joined e && 3 ≤ reason && reason ≤ 6 then s.leave e (if reason = 5 then 7 else if reason = 6 then 6 else 4) reason
  else s)

/-- CONFIG_PHASE_TIMEOUT: an engine that has not answered the phase of an adoption within 1 s leaves the view; the phase goes
on with the rest (R301). -/
def execConfigPhaseTimeout (e : EngId) (s : State) : Host.Outcome State Fault Refusal :=
  match s.adoption with
  | none => .next s
  | some a =>
    if s.joined e && !hasEngine (if a.commit then a.current else a.acked) e && a.since + 1000000000 ≤ s.now then
      if a.commit then execConfigCommit 0 (s.leave e 4 7) else execConfigPrepare 0 (s.leave e 4 7)
    else .next s

/-- SPLIT_WINDOW_EXPIRY: after 2 hours the engines at the minor that fewer hold leave, provided the others keep a quorum; else
the shelf raises a fault and goes on refusing (R305). -/
def execSplitWindowExpiry (s : State) : Host.Outcome State Fault Refusal :=
  let m := s.membership
  let at_ (v : Byte) : List EngId := (maskEngines s.joinedMask).filter (fun e => (s.eng e).fw.minor = v)
  .next (if m.windowAt.isNone || s.now < m.windowSince + 7200000000000 then s
  else match s.minors with
  | [a, b] =>
    let few := if (at_ a).length < (at_ b).length then at_ a else if (at_ b).length < (at_ a).length then at_ b else []
    if !few.isEmpty && 9 + few.length ≤ maskCount s.joinedMask then few.foldl (fun s e => s.leave e 4 4) s
    else if m.splitHeld then s
    else ({ s with membership := { m with splitHeld := true } }).mgmtFault s.firstJoined 8
  | _ => s)

end Sys2Proof.Machine
end

