-- ==== Sys2Proof/Machine/TimeRows.lean ====
section
/-! DEFINITION. Shelf time: the marked edge of each second, the measuring of offsets, sources that lock and are lost,
TIME_SUSPECT and the engines that leave for their time (R44, R306–R310). -/

namespace Sys2Proof.Machine

/-- Note since when an engine's skew is at or below 25 µs (R309). -/
def State.noteCalm (s : State) : State :=
  (List.finRange 16).foldl (fun s e =>
    let calm := s.timeSrc.todSet && s.skew e ≤ 25000
    s.modEng e (fun x =>
      { x with clock := { x.clock with calmSince := if calm then (x.clock.calmSince <|> some s.now) else none } })) s

/-- A step that is due is taken (R307). -/
def Clock.takeStep (c : Clock) : Clock :=
  if 0 < c.step then { c with now := BitVec.ofInt 64 ((c.now.toNat : Int) + c.step), step := 0 } else c

/-- The time of day that the shelf keeps at an edge which the SCM marks with a TAI (R308). -/
def State.edgeTime (s : State) (tai : DWord) : Int :=
  if s.timeSrc.timeSet then (s.now : Int) + s.timeSrc.setOffset else (tai.toNat : Int)

/-- Every powered engine steers toward the median of the view, as with both SCMs failed (R307). -/
def State.steerToMedian (s : State) : State :=
  s.steerAll (s.median (if s.joinedMask = 0 then engineMask ((List.finRange 16).filter (fun e => s.serves e)) else s.joinedMask)) false

/-- TAI_EDGE: the active SCM sends the TAI of a marked edge; due steps are taken, every engine steers, and its real-time counter is
aligned (19 The keeper domain). With both SCMs
failed it steers toward the view's median (R307). PTP in use sets time of day (R308). -/
def execTaiEdge (tai : DWord) (s : State) : Host.Outcome State Fault Refusal :=
  let s1 := s.modEngines 0xFFFF (fun _ x => if x.powered then
    { x with clock := x.clock.takeStep, keeper := { x.keeper with rtc := x.clock.takeStep.now.toNat } } else x)
  .next (if !s.plant.powered then s
    else if !s.scmUp then s1.steerToMedian.noteCalm
    else
      let s2 : State := { s1 with timeSrc := { s1.timeSrc with todSet := s1.timeSrc.todSet || s1.timeSrc.row = 0 } }
      (s2.steerAll (s2.edgeTime tai) false).noteCalm)

/-- OFFSET_MEASURE: engines measure their offsets from one another; `drift` is what each counter has gained or lost beside
the model's clock since the last measurement, in nanoseconds. A counter never moves backward, so a loss is slewed (R307,
R308). -/
def execOffsetMeasure (drift : Vector Int 16) (s : State) : Host.Outcome State Fault Refusal :=
  let s1 := s.modEngines 0xFFFF (fun e x =>
    let d := drift[e]
    if !x.powered then x
    else if 0 ≤ d then { x with clock := { x.clock with now := x.clock.now + BitVec.ofInt 64 d } }
    else { x with clock := { x.clock with slew := x.clock.slew + d } })
  .next ((if s.scmUp then s1 else s1.steerToMedian).noteCalm)

/-- TIME_SOURCE_LOSS: an input loses lock, and the shelf falls to the next source that is present (R308). -/
def execTimeSourceLoss (src : TimeInput) (s : State) : Host.Outcome State Fault Refusal :=
  let t := s.timeSrc
  let t1 := match src with
    | .ptp => { t with ptp := false }
    | .pps => { t with pps := false }
    | .tenMhz => { t with ten := false }
  .next (({ s with timeSrc := t1 }).selectSource.noteCalm)

/-- TIME_SOURCE_LOCK: an input locks, and the shelf climbs to it when it is preferred. A source that then gives phase or time
of day makes every engine slew, or step at the next second when it is more than 1 ms behind (R307, R308). -/
def execTimeSourceLock (src : TimeInput) (tai : DWord) (s : State) : Host.Outcome State Fault Refusal :=
  let t := s.timeSrc
  let t1 := match src with
    | .ptp => { t with ptp := true }
    | .pps => { t with pps := true }
    | .tenMhz => { t with ten := true }
  let s1 := ({ s with timeSrc := t1 }).selectSource
  .next ((if s1.timeSrc.row ≠ t.row && s1.timeSrc.row ≤ 1 then
      let s2 : State := { s1 with timeSrc := { s1.timeSrc with todSet := s1.timeSrc.todSet || s1.timeSrc.row = 0 } }
      s2.steerAll (s2.edgeTime tai) true
    else s1).noteCalm)

/-- TIME_SUSPECT_SET: an engine's skew exceeds 50 µs (R309). -/
def execTimeSuspectSet (e : EngId) (s : State) : Host.Outcome State Fault Refusal :=
  .next (if (s.eng e).powered && !(s.eng e).clock.suspect && 50000 < s.skew e then
    let s1 := s.modEng e (fun x => { x with clock := { x.clock with suspect := true, calmSince := none } })
    if s.joined e then s1.memberEvent 8 e.val 0 else s1
  else s)

/-- TIME_SUSPECT_CLEAR: the skew has stayed at or below 25 µs for 1 s, and time of day has been set (R309). -/
def execTimeSuspectClear (e : EngId) (s : State) : Host.Outcome State Fault Refusal :=
  .next (if (s.eng e).powered && (s.eng e).clock.suspect && s.timeSrc.todSet && s.skew e ≤ 25000 &&
      (s.eng e).clock.calmSince.any (fun t => t + 1000000000 ≤ s.now) then
    let s1 := s.modEng e (fun x => { x with clock := { x.clock with suspect := false } })
    if s.joined e then s1.memberEvent 9 e.val 0 else s1
  else s)

/-- TIME_LEAVE: an engine more than 5 ms from the view's median leaves (R310). -/
def execTimeLeave (e : EngId) (s : State) : Host.Outcome State Fault Refusal :=
  .next (if s.joined e && 5000000 < (s.offset e).natAbs then s.leave e 4 3 else s)

/-- PPS_PULSE: a pulse shorter than 50 ns is ignored; the rising edge of another marks the second, and gives its phase where
1PPS with 10 MHz is in use (R44, R308). -/
def execPpsPulse (width : Nat) (tai : DWord) (s : State) : Host.Outcome State Fault Refusal :=
  .next (if width < 50 || !s.timeSrc.pps || s.timeSrc.row ≠ 1 then s
    else (s.steerAll (s.edgeTime tai) false).noteCalm)

end Sys2Proof.Machine
end

