-- ==== Sys2Proof/Machine/LeaseRows.lean ====
section
/-! DEFINITION. The shelf's lease: the check of a claim, renewals, the extension of allotments, the claim at start-up, and the
allocation map that a claim rebuilds (R239, R314–R317, R322, R408). -/

namespace Sys2Proof.Machine

/-! ### The allocation map (R239, R196) -/

/-- A run of whole extents that starts at a pointer and holds some blocks, as the map lists it. -/
def usedRun (ptr blocks : Nat) : Nat × Nat × Nat :=
  (ptrVol ptr, ptrLba ptr, ceilDiv (max 1 blocks) extentBlocks * extentBlocks)

/-- The runs that a generation refers to: its ring, its logs, and the manifests and shards of its retained epochs. -/
def State.genRuns (s : State) (g : Nat × List Byte) : List (Nat × Nat × Nat) :=
  let logs := ((List.range 16).map (genLog g.2)).filter (fun p => p ≠ 0)
  let epochs := (s.retained g.1).flatMap (fun c =>
    let m := s.readManifest c.2
    usedRun (field c.2 56 8) (blocksFor m.length) ::
      (manifestShards m).map (fun e => usedRun (field e 0 8) (blocksFor (field e 40 8))))
  usedRun (genRing g.2) 4096 :: (logs.map (fun p => usedRun p (genLogBlocks g.2)) ++ epochs)

/-- The runs of epochs in flight, which a claim during operation leaves in place. -/
def State.flightRuns (s : State) : List (Nat × Nat × Nat) :=
  s.parts.toList.flatMap (fun x => x.epochs.flatMap (fun ep =>
    (if ep.mptr = 0 then [] else [usedRun ep.mptr (blocksFor ep.manifest.length)]) ++
      (ep.shards.filter (fun h => h.ptr ≠ 0)).map (fun h => usedRun h.ptr (blocksFor h.objLen))))

/-- Whether a block of a volume lies in one of some runs. -/
def inRuns (rs : List (Nat × Nat × Nat)) (v lba : Nat) : Bool := rs.any (fun r => r.1 = v && r.2.1 ≤ lba && lba < r.2.1 + r.2.2)

/-- A partition takes up its generation on the store: the next epoch number is one above the highest that the store or a
journal shows and that it has cut since, and each stream log resumes after its last valid record (R193, R196, R239). Epochs in
flight that had no generation join it. A generation of another slot is left behind (R221). -/
def State.takeUpGen (s : State) (gens : List (Nat × List Byte)) (p : PartId) : State :=
  let x := s.part p
  match x.gen with
  | some g =>
    if g / 2 ^ 24 = s.store.lease.slot then s
    else s.modPart p (fun x => { x with prevGen := x.gen, gen := none, nextFull := true })
  | none => match newestGen gens p with
    | none => s
    | some g =>
      let last := s.shownCut g.1
      s.modPart p (fun x =>
        { x with gen := some g.1, nextEpoch := max x.nextEpoch (last + 1), lastCut := if x.epochs.isEmpty then last else x.lastCut,
                 lastCommitted := max x.lastCommitted last, nextFull := x.epochs.isEmpty || x.nextFull,
                 epochs := x.epochs.map (fun ep => { ep with gen := ep.gen <|> some g.1 }),
                 lsn := Vector.ofFn (fun e => s.logEnd g.2 e (genLogBlocks g.2) (s.logFloor g.1 e)) })

/-- The allocation map is rebuilt, and every block of the allotments that nothing refers to is deallocated (R239). -/
def State.rebuildMap (s : State) : State :=
  let gens := s.liveGens
  let runs := (gens.flatMap s.genRuns ++ s.flightRuns).dedup
  let mine := s.store.lease.allot.map (fun a => (ptrVol a.1, ptrLba a.1, a.2 * extentBlocks))
  let clean (v : Nat) (x : Volume) : Volume :=
    { x with bytes := x.bytes.filter (fun c => !inRuns mine v (c.1 / blockBytes) || inRuns runs v (c.1 / blockBytes)) }
  let s1 : State := { s with store := { s.store with used := runs, unfreed := [], volumes := s.store.volumes.mapIdx clean } }
  s1.partIds.foldl (fun s p => s.takeUpGen gens p) s1

/-! ### Claims (R315, R322) -/

/-- Another shelf's record replaces the one in the shelf's own slot. -/
def State.overwriteSlot (s : State) (got : Option (List Byte)) : State :=
  match got with
  | some r => if r.length = 4096 then s.writeBlocks 0 (leaseLba s.store.lease.slot) r else s
  | none => s

/-- Whether the shelf's slot still carries its nonce. -/
def State.nonceStands (s : State) : Bool := (s.readLease s.store.lease.slot).any (fun r => r.nonce = s.store.lease.nonce)

/-- A claim is held: the map is rebuilt. A claim of LEASE_CLAIM has its slot adopted into the record before it completes; one
that the shelf makes itself names the slot in the record and ends step 9 (R88, R322, R408). -/
def State.claimed (s : State) : State :=
  let l := s.store.lease
  let s1 : State := { s with store := { s.store with lease := { l with state := 2, claimAt := none, claimBy := none } } }
  let s2 := (s1.memberEvent 11 0xFF 0).rebuildMap.resumeDrains
  let r : ConfigRecord := { s2.record with leaseSlot := some l.slot }
  match l.claimBy with
  | some (e, k) => match (s2.mailbox e k).job with
    | some j =>
      if j.waitsFor .leaseCheck then
        (s2.adopt r j.cmd j.part (some (e, k))).modMailbox e k (fun m =>
          { m with job := m.job.map (fun j => { j with phase := .waiting .adoption }) })
      else { s2 with record := r }
    | none => { s2 with record := r }
  | none => { s2 with record := r, store := { s2.store with step9 := true } }

/-- A claim is lost: its command completes with SC_BUSY (log 76); the shelf's own is tried again after 10 s (R408). -/
def State.claimLost (s : State) : State :=
  let l := s.store.lease
  let s1 : State := { s with store := { s.store with lease := { Lease.none with retryAt := some (s.now + 10000000000) } } }
  match l.claimBy with
  | some (e, k) => if (s1.mailbox e k).job.any (fun j => j.waitsFor .leaseCheck) then s1.answer e k .busy [] else s1
  | none => s1

/-- LEASE_CLAIM_CHECK: 15 s after the claim was written, the slot is read back; `got` is what another shelf has written there
since (R315). -/
def execLeaseClaimCheck (got : Option (List Byte)) (s : State) : Host.Outcome State Fault Refusal :=
  let s1 := s.overwriteSlot got
  .next (if s.store.lease.state ≠ 1 || !s.reaches 0 || s.adoption.isSome ||
      !s.store.lease.claimAt.any (fun t => t + 15000000000 ≤ s.now) then s
    else if s1.nonceStands then s1.claimed else s1.claimLost)

/-- STARTUP_LEASE_CLAIM: the saved volumes are attached and the shelf claims its lease; step 9 of Table 20-2 ends without one
where no targets are saved, or where volume 0 carries no superblock that R232 accepts (R322, R408). `others` are lease records
of other shelves. -/
def execStartupLeaseClaim (others : List (List Byte)) (s : State) : Host.Outcome State Fault Refusal :=
  let ended (s : State) : State := { s with store := { s.store with step9 := true } }
  .next (if s.store.step9 || maskCount s.joinedMask < 9 then s
    else if s.targets.isEmpty then ended s
    else if !s.store.volumes.all (fun x => s.carries x) then (s.reconnect).attachAll
    else
      let s1 := (s.othersWrote others).attachAll
      let l := s1.store.lease
      if !s1.superblockFits 0 then ended s1
      else if l.state = 1 || l.state = 2 || l.retryAt.any (fun t => s1.now < t) || !s1.reaches 0 then s1
      else match s1.ownSlot with
        | some i => s1.claim i none
        | none => { s1 with store := { s1.store with lease := { l with retryAt := some (s1.now + 10000000000) } } })

/-! ### Renewal (R316) -/

/-- LEASE_RENEW: the record is read; with the shelf's nonce it is written with 60 s more, and deallocations that waited go on;
with another the lease is lost.
Where the store cannot be reached nothing is renewed (R316). -/
def execLeaseRenew (reach : Bool) (got : Option (List Byte)) (s : State) : Host.Outcome State Fault Refusal :=
  let s1 := s.overwriteSlot got
  let l := s.store.lease
  .next (if l.state ≠ 2 || !reach || !s.reaches 0 then s
    else if s1.nonceStands then
      let t := s1.shelfTime
      (({ s1 with store := { s1.store with lease :=
        { l with expiry := t + 60000000000, renewed := t, seq := l.seq + 1 } } }).writeLease 1).freeWaiting
    else
      (({ s1 with store := { s1.store with lease := { l with state := 3 } } }).memberEvent 12 0xFF 0).mgmtFault s1.firstJoined 5)

/-! ### Extension (R317) -/

/-- Every allotment on the store, with the slot that holds it, the shelf's own from what it holds. -/
def State.allotments (s : State) : List (Nat × Nat × Nat) :=
  (List.range 16).flatMap (fun i =>
    if i = s.store.lease.slot then s.store.lease.allot.map (fun a => (i, a.1, a.2))
    else ((s.readLease i).map LeaseRec.allot |>.getD []).map (fun a => (i, a.1, a.2)))

/-- The gaps of a volume between its allotments, as (first extent, extents), ascending. `spans` lists the allotments as
(first extent, extents). -/
def gapsFrom (total : Nat) : Nat → List (Nat × Nat) → List (Nat × Nat)
  | at_, [] => if at_ < total then [(at_, total - at_)] else []
  | at_, (a, n) :: rest =>
    (if at_ < a then [(at_, min a total - at_)] else []) ++ gapsFrom total (max at_ (a + n)) rest

/-- The gaps of a volume. -/
def State.gaps (s : State) (v : Nat) : List (Nat × Nat) :=
  let total := ((s.volume v).map (fun x => (x.blocks - extentBase) / extentBlocks)).getD 0
  let spans := (s.allotments.filter (fun a => ptrVol a.2.1 = v)).map (fun a => ((ptrLba a.2.1 - extentBase) / extentBlocks, a.2.2))
  (gapsFrom total 0 (spans.insertionSort (fun a b => a.1 ≤ b.1))).filter (fun g => g.2 ≠ 0)

/-- The run that an extension takes: the lowest-numbered of at most 65,536 extents on the volume with the most free ones; of
equals the lowest volume (R317). -/
def State.nextRun (s : State) : Option (Nat × Nat) :=
  let room (v : Nat) : Nat := ((s.gaps v).map Prod.snd).sum
  let v := (List.range s.store.volumes.length).foldl (fun b v => if room b < room v then v else b) 0
  (s.gaps v).head?.map (fun g => (storePtr v (extentBase + g.1 * extentBlocks), min 65536 g.2))

/-- Whether some drain waits for room on the store (Table 10-9 step 2). -/
def State.drainWaits (s : State) : Bool :=
  s.parts.toList.any (fun x => x.epochs.any (fun ep => ep.campaign.isSome && (ep.gen.isNone ||
    ep.shards.any (fun h => h.phase = 0 && h.objLen ≠ 0 && (s.freeRuns (ceilDiv (blocksFor h.objLen) extentBlocks)).isEmpty))))

/-- ALLOT_EXTEND: free extents have fallen below 1 % of the allotments, or a drain waits for room; the shelf appends a run that
lies in no allotment (R317). -/
def execAllotExtend (others : List (List Byte)) (s : State) : Host.Outcome State Fault Refusal :=
  let s1 := s.othersWrote others
  let l := s1.store.lease
  .next (if !s.mayWrite || !s.reaches 0 || l.extendAt.isSome || 64 ≤ l.allot.length || l.retryAt.any (fun t => s.now < t) ||
      !(l.allot.isEmpty || s1.freeExtents * 100 < s1.allotted || s1.drainWaits) then s
    else match s1.nextRun with
      | none => s1
      | some r =>
        ({ s1 with store := { s1.store with lease :=
          { l with allot := l.allot ++ [r], seq := l.seq + 1, extendAt := some s1.now, retryAt := none } } }).writeLease 1)

/-- Whether the newest allotment overlaps one of a lower-numbered slot. -/
def State.extendLoses (s : State) : Bool :=
  match s.store.lease.allot.getLast? with
  | some r => s.allotments.any (fun a => a.1 < s.store.lease.slot &&
      overlaps (ptrVol r.1, ptrLba r.1, r.2 * extentBlocks) (ptrVol a.2.1, ptrLba a.2.1, a.2.2 * extentBlocks))
  | none => false

/-- ALLOT_EXTEND_CHECK: 15 s after the extension every record is read again; the higher slot of two that overlap takes its
entry back and tries again after 1 to 10 s, chosen by a free value (R317). -/
def execAllotExtendCheck (others : List (List Byte)) (s : State) : Host.Outcome State Fault Refusal :=
  let s1 := s.othersWrote others
  let l := s1.store.lease
  .next (if !s.mayWrite || !s.reaches 0 || !l.extendAt.any (fun t => t + 15000000000 ≤ s.now) then s
    else if s1.extendLoses then
      let (r, s2) := s1.draw 64
      ({ s2 with store := { s2.store with lease :=
        { l with allot := l.allot.dropLast, seq := l.seq + 1, extendAt := none,
                 retryAt := some (s.now + 1000000000 + r.toNat % 9000000001) } } }).writeLease 1
    else
      (({ s1 with store := { s1.store with lease := { l with extendAt := none } } }).memberEvent 14 0xFF 0).resumeDrains)

end Sys2Proof.Machine
end

