-- ==== Sys2Proof/Machine/FaultRows.lean ====
section
/-! DEFINITION. Faults that blocks detect and what hardware does about them, their clearing and injection, the rebuild of a
fenced DDR channel, the spare mesh group and the backstop detector (R195, R277, R348, R353–R369). -/

namespace Sys2Proof.Machine

/-! ### Uncorrectable rows (R195, R277) -/

/-- Whether a stripe can be rebuilt without its own engine (R277). -/
def State.rebuildable (s : State) (t : Tensor) (k : Nat) : Bool :=
  let pl := t.home k
  let g := k / pl.data
  let e := pl.dataEngine k
  let other (x : EngId) : Bool := x ≠ e && s.missing pl x
  let lost := ((List.range pl.data).filter (fun i => other (pl.at_ (g + i)))).length +
    ((List.range pl.parity).filter (fun j => other (pl.parityEngine g j))).length
  lost + 1 ≤ pl.parity

/-- The stripes of a tensor on an engine that have bytes in the rank row of a unit on a channel. -/
def Tensor.rowStripes (t : Tensor) (e : EngId) (u ch : Nat) : List Nat :=
  (List.range t.stripes).filter (fun k =>
    let pl := t.home k
    pl.dataEngine k = e &&
      (let off := k / pl.data * t.stripeBytes
       ([0, 1] : List Nat).any (fun h =>
         let lo := h * 65536 + ch * 4096
         (assocGetD pl.units e.val []).zipIdx.any (fun v => v.1 = u && v.2 * unitBytes + lo < off + t.stripeBytes &&
           off < v.2 * unitBytes + lo + 4096))))

/-- An uncorrectable row of the pool: a live row is an erasure, which parity answers for, or its stripes are poisoned; a twin
row fails the epoch that it holds (R133, R195, R277). -/
def State.poolError (s : State) (e : EngId) (a : Nat) : State :=
  let u := unitOf a
  let twin := (s.eng e).protectedSlices.contains (sliceOf u) && twinOffset ≤ u % sliceBytes
  s.partIds.foldl (fun s p =>
    if twin then
      let mine := (s.part p).tensors.any (fun t => (assocGetD t.place.units e.val []).contains (u - twinOffset))
      if mine then (s.part p).epochs.foldl (fun s ep => if ep.state = 1 || ep.pinned then s.failEpoch p ep.n else s) s else s
    else s.modPart p (fun x => { x with tensors := x.tensors.map (fun t =>
      t.addPoison ((t.rowStripes e u (channelOf a)).filter (fun k => !s.rebuildable t k))) })) s

/-- An uncorrectable error in stage memory: it may lie in a staged shard, whose epoch fails (R195, R238); where it lies is
open. -/
def State.stageError (s : State) (e : EngId) : State :=
  s.partIds.foldl (fun s p => (s.part p).epochs.foldl (fun s ep =>
    if ep.stagedOn e = 0 then s
    else
      let (hit, s') := s.onChannel
      if hit then s'.failEpoch p ep.n else s') s) s

/-- A host rejects an MSI-X write: AER reports it on the P-ports that vectors of the partition are routed to; which status bit, the
manual does not say (R79; a free value). -/
def State.msixRejected (s : State) (e : EngId) (part : Option PartId) : State :=
  match part with
  | none => s
  | some p => (List.finRange 2).foldl (fun s i =>
      if s.hasWindow e p && (List.finRange 32).any (fun v => (s.win e p).ints.routeOf v = i.val) then
        (s.draw 32).2.aerError e i p (s.draw 32).1
      else s) s

/-- What hardware does about a detection, whatever its severity (17 The model). -/
def State.consequence (s : State) (e : EngId) (d : Detection) : State :=
  if d.clear then s
  else match d.blk.val, d.src.val with
  | 4, 1 => if d.addr = 0xFFFFFFFFFFFFFFFF then s else s.poolError e d.addr.toNat
  | 5, 1 => s.stageError e
  | 8, 5 => if 20 ≤ d.unit && d.unit < 22 then s.modEng e (fun x => x.modPort (Fin.ofNat 22 d.unit) Port.uncorrectable) else s
  | 9, 3 => s.msixRejected e d.part
  | _, _ => s

/-- Count an uncorrectable read of a DDR channel or an HBM pseudo-channel: with 16 on one of them within 1 s, UE_STORM follows
(Table 17-3). -/
def State.countUe (s : State) (e : EngId) (d : Detection) : State :=
  if d.clear || d.src.val ≠ 1 || (d.blk.val ≠ 4 && d.blk.val ≠ 5) then s
  else
    let us := (d.blk.val, d.unit, s.now) :: ((s.eng e).ues.filter (fun u => s.now ≤ u.2.2 + 1000000000))
    let s1 := s.modEng e (fun x => { x with ues := us })
    if 16 ≤ (us.filter (fun u => u.1 = d.blk.val && u.2.1 = d.unit)).length then s1.detect e { d with src := 2 } else s1

/-- FAULT_DETECT: a block detects a source, which acts at its severity (R356); a port that is fenced may have been the last
that reached the store (R235). -/
def execFaultDetect (e : EngId) (f : Detection) (s : State) : Host.Outcome State Fault Refusal :=
  .next (if (s.eng e).powered && f.unit < blockUnits f.blk.val then
    let s1 := ((s.consequence e f).detect e f).countUe e f
    (if (s1.eng e).fenced || f.blk.val = 8 then s1.pruneQueues else s1).kickReshards
  else s)

/-! ### Rebuilds of rows (R360) -/

/-- The tensors that hold a unit of an engine, with their partition and the offset of the unit's first byte in the engine's
part of them, in the place they now lie or move to. -/
def State.unitHolders (s : State) (e : EngId) (u : Nat) : List (Tensor × Placement × Nat) :=
  s.parts.toList.flatMap (fun x => x.tensors.flatMap (fun t =>
    ((t.place :: t.dest.toList).flatMap (fun pl => ((assocGetD pl.units e.val []).zipIdx.filter (fun v => v.1 = u)).map
      (fun v => (t, pl, v.2 * unitBytes))))))

/-- The byte that a row of an engine held at an offset of its part of a tensor, from the other members of its group: a data
byte, or a parity byte (R276, R277). -/
def State.lostByte (s : State) (t : Tensor) (pl : Placement) (e : EngId) (off : Nat) : Option Byte :=
  let g := off / t.stripeBytes
  let j := off % t.stripeBytes
  let ds := recover (s.groupData t pl g j) (s.groupParity t pl g j 0) (s.groupParity t pl g j 1)
  match (List.range pl.data).find? (fun i => pl.at_ (g + i) = e) with
  | some i => ds.map (fun d => d.getD i 0)
  | none => ds.map (fun d => if pl.parityEngine g 0 = e then d.foldl (· ^^^ ·) 0
      else d.zipIdx.foldl (fun a x => a ^^^ gmul (gpow x.2) x.1) 0)

/-- One lost row is rebuilt into a replacement row, byte by byte; a row that nothing holds any more needs none. -/
def State.rebuildRow (s : State) (e : EngId) (u ch : Nat) : State :=
  let drop (s : State) : State := s.modEng e (fun x => { x with lostRows := x.lostRows.filter (fun r => r ≠ (u, ch)) })
  match (s.unitHolders e u).head? with
  | none => drop s
  | some (t, pl, base) =>
    match s.replaceRow e t.twin u ch with
    | none => s
    | some s1 =>
      let offs := (List.range 8192).map (fun i => i / 4096 * 65536 + ch * 4096 + i % 4096)
      let bs := offs.map (fun o => (o, s.lostByte t pl e (base + o)))
      bs.foldl (fun s b => match b.2 with
        | some v => s.putPool e (u + b.1) v
        | none => s) (drop s1)

/-- DDR_CHANNEL_REBUILD: the lost rows of a fenced channel are rebuilt into replacement rows, the campaign ends and the log
says so (R360). -/
def execDdrChannelRebuild (e : EngId) (ch : Fin 16) (s : State) : Host.Outcome State Fault Refusal :=
  let x := s.eng e
  let rows := x.lostRows.filter (fun r => r.2 = ch.val)
  let done (s : State) : State := s.endCampaign ((s.campaigns.find? (fun c => c.kind = .ddr)).map Campaign.id)
  .next (if !(x.flt[(4 : Fin 11)]).isFenced ch.val then s
    else if s.lost e then done s
    else if rows.isEmpty then s
    else
      let s1 := rows.foldl (fun s r => s.rebuildRow e r.1 r.2) s
      if ((s1.eng e).lostRows.filter (fun r => r.2 = ch.val)).isEmpty then
        (done s1).faultLog e (faultEntry (s.time e) (plainFault 4 0 ch.val) 1 6 (x.avail 4))
      else s1)

/-! ### The mesh (R362) -/

/-- SPARE_GROUP_SWITCH: the spare group of two engines becomes the group between them, after the one they had was fenced
(R362). Lane group units carry the peer's number, and an engine's own number stands for its spare (log 77). -/
def execSpareGroupSwitch (e peer : EngId) (s : State) : Host.Outcome State Fault Refusal :=
  let down (a b : EngId) : Bool := ((s.eng a).flt[(6 : Fin 11)]).isFenced b.val
  let free (a : EngId) : Bool := (s.eng a).powered && (s.eng a).spare.isNone && !down a a
  .next (if e ≠ peer && (down e peer || down peer e) && free e && free peer then
    (s.modEng e (fun x => { x with spare := some peer })).modEng peer (fun x => { x with spare := some e })
  else s)

/-! ### Clearing and injecting (R366–R368) -/

/-- FAULT_CLEAR: 1 is written to bits of FLT_STATUS, through partition 0's window or the SCM's direct path (R366). -/
def execFaultClear (e : EngId) (blk : Fin 11) (bits : Word) (s : State) : Host.Outcome State Fault Refusal :=
  .next (if (s.eng e).powered then s.clearFaults e blk bits else s)

/-- FAULT_INJECT: 1 is written to bits of FLT_FORCE in partition 0's window (R368). -/
def execFaultInject (e : EngId) (blk : Fin 11) (bits : Word) (s : State) : Host.Outcome State Fault Refusal :=
  .next (if s.serves e then s.injectFaults e blk bits else s)

/-- FLT_LOCK: LOCK is set, and FLT_SEV ignores writes until engine reset (R367). -/
def execFltLock (e : EngId) (blk : Fin 11) (s : State) : Host.Outcome State Fault Refusal :=
  .next (if s.serves e then s.modFlt e blk (fun f => { f with lock := true }) else s)

/-! ### The backstop detector (R348) -/

/-- CYCLE_CHECK: a cycle with a shelf-owned participant that can be re-run is broken and recorded as MGMT source 3; one of host
commands alone is reported as MGMT source 4, with each participant's master ID (R348). -/
def execCycleCheck (e : EngId) (found : Option WaitCycle) (s : State) : Host.Outcome State Fault Refusal :=
  .next (match found with
  | none => s
  | some c =>
    if !s.joined e then s
    else if c.rerunnable then s.detect e { plainFault 7 3 0 with master := 0x7000 }
    else c.masters.foldl (fun s m => s.detect e { plainFault 7 4 0 with master := m }) s)

end Sys2Proof.Machine
end

