-- ==== Sys2Proof/Machine/PowerRows.lean ====
section
/-! DEFINITION. Idle timers, exits from low power states, the sampling of sensors, the power cap and clock levels (R131,
R372–R386). -/

namespace Sys2Proof.Machine

/-! ### Power states (R375–R377, R382) -/

/-- The state that an idle time has reached under some timers, in microseconds; a disabled timer skips its state. -/
def idleState (timers : Vector Nat 3) (ns : Nat) : Nat :=
  (List.finRange 3).foldl (fun st i => if timers[i] ≠ 0 && timers[i] * 1000 ≤ ns then i.val + 1 else st) 0

/-- IDLE_TIMER_EXPIRY: the time since an engine became idle reaches a timer, and it enters that state (R376). An engine that has
not joined enters none (R386). -/
def execIdleTimerExpiry (e : EngId) (s : State) : Host.Outcome State Fault Refusal :=
  let w := (s.eng e).power
  let st := w.idleSince.elim 0 (fun t => idleState w.inForce (s.now - t))
  .next (if s.joined e && (s.eng e).runs && s.idle e && w.exitDue.isNone && w.state < st then
    s.modEng e (fun x => { x with power := { x.power with state := st } })
  else s)

/-- POWER_EXIT: something that needs the engine starts an exit to E0 (R377). -/
def execPowerExit (e : EngId) (s : State) : Host.Outcome State Fault Refusal :=
  .next (if (s.eng e).powered && (s.eng e).power.low then s.wake e else s)

/-- The stream commands that wait for a power exit, in the order of their engines, partitions and streams. -/
def State.powerWaits (s : State) : List (StreamAt × Nat) :=
  (List.finRange 16).flatMap (fun e => (List.finRange 64).flatMap (fun p => (s.win e p).streams.flatMap (fun x =>
    (x.2.queue.zipIdx.filter (fun q => q.1.waits.power && !q.1.isFinished)).map (fun q =>
      (({ eng := e, part := p, stream := x.1 } : StreamAt), q.2)))))

/-- POWER_EXIT_COMPLETE: the exit latency ends, the engine is in E0, and the commands, programs and digest jobs that waited for
it go on (R131, R377). -/
def execPowerExitComplete (e : EngId) (s : State) : Host.Outcome State Fault Refusal :=
  .next (if (s.eng e).power.low && (s.eng e).power.exitDue.any (fun t => t ≤ s.now) then
    let s1 := s.modEng e (fun x => { x with power := { x.power with state := 0, exitDue := none, idleSince := none } })
    let s2 := s1.startJobs e 65
    let s3 := s2.powerWaits.foldl (fun s q => s.tryStream q.1 q.2 { store := false, host := none }) s2
    ((List.finRange 64).foldl (fun s p => s.lockNmx e p) s3).grantLanes e
  else s)

/-! ### Heat (R378, R379) -/

/-- The voltage of the backup cell in millivolts; below 2.6 V it raises CELL_LOW (R47). -/
def State.sampleCell (s : State) (e : EngId) (mv : Nat) : State :=
  (s.modEng e (fun x => { x with keeper := { x.keeper with cellMv := mv } })).levelFault e (plainFault 10 1 0) (mv < 2600)

/-- SENSOR_SAMPLE: the sensors of Table 18-4 are sampled in its order, with the engine's draw and the cell's voltage in millivolts
(R47, R378, R384). -/
def execSensorSample (e : EngId) (temps : List (Option Int)) (meters : Meters) (s : State) : Host.Outcome State Fault Refusal :=
  .next (if (s.eng e).powered then
    ((s.modEng e (fun x => { x with power := { x.power with draw := meters.draw } })).sampleSensors e 0 temps).sampleCell e
      meters.cell
  else s)

/-! ### The cap (R380, R381) -/

/-- The fall in draw of the step last taken, once the next average is known. -/
def PowerCap.measure (c : PowerCap) (watts : Nat) : PowerCap :=
  match c.lastAverage with
  | some (n, before) =>
    { c with falls := Vector.ofFn (fun i => if i.val + 1 = n then some (before - watts) else c.falls[i]), lastAverage := none }
  | none => c

/-- Whether a step one level faster keeps the predicted average at or below the cap. -/
def PowerCap.mayRise (c : PowerCap) (watts cap : Nat) : Bool :=
  match (c.falls.toList[c.level - 1]?).getD none with
  | some f => watts + f ≤ cap
  | none => watts * 106 ≤ cap * 100

/-- CAP_EVALUATE: the active SCM compares the average of the last 100 ms with the cap and moves the cap level (R380). Without a
cap it is L0; with both SCMs failed it stays (R381). -/
def execCapEvaluate (watts : Nat) (s : State) : Host.Outcome State Fault Refusal :=
  let cap := s.powerCap
  let c := s.cap.measure watts
  .next (if !s.plant.powered || !s.scmUp || s.joinedMask = 0 then s
    else if cap = 0 then s.setCap { c with level := 0, unmet := false }
    else if cap < watts then
      if c.level < 4 then s.setCap { c with level := c.level + 1, lastAverage := some (c.level + 1, watts) }
      else (s.setCap { c with unmet := true }).send .capUnmet
    else
      s.setCap { c with unmet := false, level := if c.level ≠ 0 && c.mayRise watts cap then c.level - 1 else c.level })

/-- CLOCK_LEVEL_CHANGE: at a chain boundary the engine takes the level that heat and cap permit (R373). -/
def execClockLevelChange (e : EngId) (s : State) : Host.Outcome State Fault Refusal :=
  let x := s.eng e
  .next (if x.powered && x.power.level ≠ s.levelWanted e then
    s.modEng e (fun x => { x with power := { x.power with level := s.levelWanted e, levelAt := x.clock.now },
                                  logs := { x.logs with thermalGen := x.logs.thermalGen + 1 } })
  else s)

end Sys2Proof.Machine
end

