-- ==== Sys2Proof/Machine/PlantRows.lean ====
section
/-! DEFINITION. The busbar, power-on and power-off, orderly shutdown, the SCMs, tamper detections and what time does to the
keeper, engine resets, recovery and Locate (02 R43–R57, 19 R387–R406, 20 R407–R411, R418). -/

namespace Sys2Proof.Machine

/-! ### Entry to E4 (R22, R375) -/

/-- What lasts of the shelf when the engines lose power: flash, one-time-programmable memory, the keeper domain, the store, and
the SCMs while the busbar is present (R22, R388, R398). -/
def State.powerOff (s : State) (cause : Nat) (busbar : Bool) : State :=
  let t := s.timeSrc
  let src : TimeSrc := if busbar then { t with timeSet := false, todSet := false }
    else { State.reset.timeSrc with policy := t.policy, boundSince := s.now }
  { s with
    plant := { s.plant with powered := false, busbar := busbar, offCause := cause },
    membership := State.reset.membership,
    adoption := s.adoption.map (fun a => { a with src := none }),
    tide := State.reset.tide, campaigns := [], timeSrc := src, cap := State.reset.cap,
    store := { s.store with volumes := s.store.volumes.map (fun v =>
                              { v with queues := Vector.replicate 64 0, pairs := [], attached := false }),
                            used := [], unfreed := [], lease := Lease.none, step9 := false },
    sanitise := { s.sanitise with campaign := none }, shutdown := none, features := [],
    engines := Vector.ofFn (fun e =>
      let y := (s.eng e).restart e true
      { y with powered := false, power := { y.power with state := 4 } }),
    parts := Vector.replicate 64 Partition.reset }

/-- BUSBAR_OVERVOLTAGE: above 63 V, or above 60 V for more than 100 ms, the shelf shuts down to E4 (Table 2-5). `mv` is in
millivolts, `dur` in nanoseconds. -/
def execBusbarOvervoltage (mv dur : Nat) (s : State) : Host.Outcome State Fault Refusal :=
  .next (if s.plant.powered && (63000 < mv || (60000 < mv && 100000000 < dur)) then s.powerOff 1 true else s)

/-- The busbar was low for a while: every powered engine records BUS_LOW, whose condition is over when the row ends (R46,
log 79). -/
def State.busLow (s : State) : State :=
  (List.finRange 16).foldl (fun s e =>
    (s.detect e (plainFault 10 0 0)).detect e { plainFault 10 0 0 with clear := true }) s

/-- BUSBAR_UNDERVOLTAGE: between 38 and 40 V, and below 38 V for 5 ms at most, operation goes on with a recorded fault; below
38 V for longer the shelf shuts down to E4 (Table 2-5). -/
def execBusbarUndervoltage (mv dur : Nat) (s : State) : Host.Outcome State Fault Refusal :=
  .next (if 40000 ≤ mv then s
    else if 38000 ≤ mv || dur ≤ 5000000 then (if s.plant.powered then s.busLow else s)
    else if s.plant.powered then s.powerOff 1 false
    else { s with plant := { s.plant with busbar := false } })

/-! ### Power-on (R407, Table 20-2) -/

/-- The keeper has lost its contents: KEEPER_LOST is a detection of source 7, an alarm in SEALED; in PROVISIONED every slot is
emptied and the context-wrap key replaced (R270, R388, R392, R405). -/
def State.keeperLost (s : State) (e : EngId) (bad : Bool) : State :=
  if (s.eng e).lifecycle = 1 then ((s.zeroSlots e (fun _ => true)).newWrapKey e).tamper e 7 0 false else s.tamper e 7 0 bad

/-- Whether a journal holds an alarm transfer of a register with the same SOURCES, COUNT and FIRST_TIME (R394). -/
def Journal.transferred (j : Journal) (alarm : Nat) : Bool :=
  j.entries.any (fun n => n.type = 4 && (let a := field n.payload 0 8
    bits a 15 0 = bits alarm 15 0 && bits a 63 20 = bits alarm 63 20))

/-- A nonzero ALARM register moves into the journal; a read-only journal leaves it where it is (R394, R417). -/
def State.transferAlarm (s : State) (e : EngId) : State :=
  let x := s.eng e
  if x.keeper.alarm = 0 || x.journal.readOnly then s
  else
    let s1 := if x.journal.transferred x.keeper.alarm.toNat then s
      else s.journal e 4 0xFF (natLe 8 x.keeper.alarm.toNat ++ natLe 1 x.lifecycle)
    if (s1.eng e).journal.readOnly then s1 else s1.modKeeper e (fun k => { k with alarm := 0 })

/-- Steps 2 to 7 of Table 20-2 on one engine: its counter starts from the real-time counter (log 80), the boot ROM selects a slot,
the keeper is checked, POWER is journaled and the alarm register transferred. -/
def State.startEngine (s : State) (e : EngId) : State :=
  let s1 := s.modEng e (fun x =>
    let y := x.restart e true
    ({ y with powered := true,
              clock := { now := BitVec.ofNat 64 x.keeper.rtc, slew := 0, step := 0, srcOffset := 0, suspect := true,
                         calmSince := none },
              keeper := { x.keeper with cellLost := false } } : Engine).offer s.now)
  let s2 := s1.boot e
  let s3 := if (s2.eng e).keeper.lost then s2.keeperLost e false else s2
  let s4 := (s3.journal e 7 0xFF [0, 0]).transferAlarm e
  s4.restoreQos e

/-- The power-on sequence up to step 7 on every engine; `failed` are the units that fail their start-up tests (R370). -/
def State.powerUp (s : State) (failed : List (EngId × Detection)) : State :=
  let fresh := !s.plant.busbar || s.plant.offCause = 1
  let p : Plant := { s.plant with powered := true, busbar := true, offCause := 0,
                                  scm := if fresh then Vector.replicate 2 .starting else s.plant.scm,
                                  activeScm := if fresh then 0 else s.plant.activeScm }
  let s1 := (List.finRange 16).foldl (fun s e => s.startEngine e) ({ s with plant := p })
  let s2 := (s1.loadFeatures).useTargets
  failed.foldl (fun s d => s.detect d.1 d.2) (s2.selectSource)

/-- POWER_ON: the busbar has been above 41 V for 2 s after it shut the shelf down or was lost, or Redfish asks for power-on after
an orderly shutdown or a Redfish power-off, at 40 to 60 V with the active SCM running (R46, R407). -/
def execPowerOn (redfish : Bool) (mv dur : Nat) (failed : List (EngId × Detection)) (s : State) :
    Host.Outcome State Fault Refusal :=
  let p := s.plant
  .next (if p.powered then (if redfish then s.send (.redfishAccepted false) else s)
    else if redfish then
      if p.busbar && 2 ≤ p.offCause && 40000 ≤ mv && mv ≤ 60000 && s.scmUp then
        (s.powerUp failed).send (.redfishAccepted true)
      else s.send (.redfishAccepted false)
    else if (!p.busbar || p.offCause = 1) && 41000 < mv && mv ≤ 60000 && 2000000000 ≤ dur then s.powerUp failed
    else s)

/-! ### Orderly shutdown (R418, Table 20-7) -/

/-- Whether commands that have been accepted, steps in their last phases or cut gates still run (step 2). -/
def State.working (s : State) : Bool :=
  s.engines.toList.any (fun x => x.hasJob || x.hasStream) ||
    s.parts.toList.any (fun x => x.cut.isSome || x.step.phase = 2 || x.step.phase = 3)

/-- Whether an epoch's commit is under way: draining or verifying with a commit requested (step 3). -/
def Epoch.committing (ep : Epoch) : Bool := (ep.state = 3 || ep.state = 4) && ep.commit

/-- Every epoch that is not COMMITTED is abandoned: its time in flight and its campaign end, and its blocks leave the store when
the map is next rebuilt (R239). -/
def State.abandonEpochs (s : State) : State :=
  let n := ((s.parts.toList.map (fun x => (x.epochs.filter (fun ep => ep.state ≠ 5)).length))).sum
  let gone := s.parts.toList.flatMap (fun x => (x.epochs.filter (fun ep => ep.state ≠ 5)).filterMap Epoch.campaign)
  { s with parts := s.parts.map (fun x => { x with epochs := x.epochs.filter (fun ep => ep.state = 5) }),
           campaigns := s.campaigns.filter (fun c => !gone.contains c.id),
           shutdown := s.shutdown.map (fun d => { d with abandoned := d.abandoned + n }) }

/-- Steps 3 to 6, once nothing runs and no commit is under way: what is uncommitted is abandoned, POWER is journaled with the
count, and the engines enter E4. -/
def State.finishShutdown (s : State) : State :=
  let s1 := s.abandonEpochs
  let n := min 255 ((s1.shutdown.map Shutdown.abandoned).getD 0)
  ((maskEngines s1.joinedMask).foldl (fun s e => s.journal e 7 0xFF (natLe 1 1 ++ natLe 1 n)) s1).powerOff 2 true

/-- An orderly shutdown goes on to its end when it can. -/
def State.shutdownCheck (s : State) : State :=
  if s.shutdown.isSome && !s.working && !s.parts.toList.any (fun x => x.epochs.any Epoch.committing) then s.finishShutdown else s

/-- ORDERLY_SHUTDOWN: Redfish asks for it with GRACE in seconds, 0 to 3,600; new commands are refused from now on (R418). -/
def execOrderlyShutdown (grace : Nat) (s : State) : Host.Outcome State Fault Refusal :=
  .next (if !s.plant.powered || !s.scmUp || s.shutdown.isSome || 3600 < grace then s.send (.redfishAccepted false)
    else (({ s with shutdown := some { grace := grace, since := s.now, abandoned := 0 } }).send (.redfishAccepted true)).shutdownCheck)

/-- GRACE_EXPIRY: GRACE has elapsed, and every epoch that is not COMMITTED is abandoned (R418). -/
def execGraceExpiry (s : State) : Host.Outcome State Fault Refusal :=
  .next (match s.shutdown with
  | some d => if d.since + d.grace * 1000000000 ≤ s.now then s.abandonEpochs.shutdownCheck else s
  | none => s)

/-- REDFISH_POWER_OFF: the engines enter E4 without the orderly sequence (R375). -/
def execRedfishPowerOff (s : State) : Host.Outcome State Fault Refusal :=
  .next (if s.plant.powered && s.scmUp then (s.powerOff 3 true).send (.redfishAccepted true)
    else s.send (.redfishAccepted false))

/-! ### SCMs (R43, R54, R55, R385) -/

/-- The PLATFORM level sources that follow the SCMs: REF_LOSS with neither, SCM_FAIL with either failed (Table 17-3). -/
def State.scmFaults (s : State) : State :=
  let failed (i : Fin 2) : Bool := s.plant.scm[i] = .failed
  (List.finRange 16).foldl (fun s e =>
    if (s.eng e).powered then
      (s.levelFault e (plainFault 10 5 0) (failed 0 && failed 1)).levelFault e (plainFault 10 6 0) (failed 0 || failed 1)
    else s) s

/-- The Redfish sessions to an SCM that fails are lost: their commands go on, and nobody hears the answers (R54). -/
def State.endRedfish (s : State) : State :=
  s.modEngines 0xFFFF (fun _ x => { x with redfish := { x.redfish with job := x.redfish.job.map (fun j => { j with lost := true }) } })

/-- SCM_FAILOVER: the active SCM fails, and the standby becomes active (R54). -/
def execScmFailover (s : State) : Host.Outcome State Fault Refusal :=
  let a := s.plant.activeScm
  let b : Fin 2 := if a = 0 then 1 else 0
  .next (if !s.plant.busbar || s.plant.scm[a] = .failed then s
    else
      let p : Plant := { s.plant with scm := s.plant.scm.set a.val .failed a.isLt,
                                      activeScm := if s.plant.scm[b] = .failed then a else b }
      ({ s with plant := p }).endRedfish.selectSource.scmFaults)

/-- BOTH_SCM_FAIL: both SCMs fail, and the sleds run on their holdover oscillators (R55, R385). -/
def execBothScmFail (s : State) : Host.Outcome State Fault Refusal :=
  .next (if s.plant.busbar then
    ({ s with plant := { s.plant with scm := Vector.replicate 2 .failed } }).endRedfish.selectSource.scmFaults
  else s)

/-- SCM_RECOVERY: an SCM completes its start-up; its relay follows the engines, and its reference returns (R43, R57). -/
def execScmRecovery (scm : Fin 2) (s : State) : Host.Outcome State Fault Refusal :=
  .next (if s.plant.busbar && s.plant.scm[scm] ≠ .up then
    let p : Plant := { s.plant with scm := s.plant.scm.set scm.val .up scm.isLt,
                                    activeScm := if s.plant.scm[s.plant.activeScm] = .failed then scm else s.plant.activeScm }
    ({ s with plant := p }).selectSource.scmFaults
  else s)

/-! ### The keeper (R392, R393, R396–R398, R49) -/

/-- Whether a tamper source is a latch or a presence detect, whose changes shorter than 1 µs are ignored: COVER and EXTRACT (R44,
Table 19-3; log 154). -/
def latchSource (src : Fin 8) : Bool := src = 0 || src = 6

/-- TAMPER_DETECT: a tamper source is detected (R392, R405).
The keeper of a RETIRED engine without power is idle (Table 19-6). -/
def execTamperDetect (e : EngId) (t : Tamper) (s : State) : Host.Outcome State Fault Refusal :=
  .next (if !(s.eng e).powered && (s.eng e).lifecycle = 3 then s
    else if latchSource t.src && t.dur < 1000 then s
    else if t.src = 7 then s.keeperLost e t.bad
    else (s.tamper e t.src t.dur t.bad).kickReshards)

/-- RESERVE_RECHARGED: with the busbar present the reserve holds two zeroisations again (R393). -/
def execReserveRecharged (e : EngId) (s : State) : Host.Outcome State Fault Refusal :=
  .next (if (s.eng e).powered then s.modKeeper e (fun k => { k with reserve := 2 }) else s)

/-- DEBUG_TIMEOUT: a debug state closes 8 h after it opened (R398). -/
def execDebugTimeout (e : EngId) (s : State) : Host.Outcome State Fault Refusal :=
  .next (if (s.eng e).debug ≠ 0 && (s.eng e).debugAt + 28800000000000 ≤ s.now then s.closeDebug e else s)

/-- CHALLENGE_LOCKOUT_END: after 1 h of real-time counter time challenges are accepted again (R397). -/
def execChallengeLockoutEnd (e : EngId) (s : State) : Host.Outcome State Fault Refusal :=
  .next (if (s.eng e).keeper.refuseUntil.any (fun t => t ≤ (s.eng e).keeper.rtc) then
    s.modKeeper e (fun k => { k with refuseUntil := none })
  else s)

/-- CELL_LOSS: a sled without its busbar loses its backup cell, and both keepers their key slots and real-time counter, which then
holds a value that the manual does not give (R49, log 3). -/
def execCellLoss (sled : Fin 8) (s : State) : Host.Outcome State Fault Refusal :=
  let one (s : State) (e : EngId) : State :=
    let (r, s1) := s.draw 64
    s1.modKeeper e (fun k =>
      { k with slots := k.slots.map (fun x => { KeySlot.empty with gen := x.gen }), wrapKey := 0, lost := true, cellLost := true,
               rtc := r.toNat })
  .next (if s.plant.busbar then s
    else one (one s (Fin.ofNat 16 (2 * sled.val))) (Fin.ofNat 16 (2 * sled.val + 1)))

/-! ### Engine resets (R363, R410, R411) -/

/-- ENGINE_RESET: Redfish Reset Engine; the engine leaves, starts again and will join with no state (R363, R313). -/
def execEngineReset (e : EngId) (failed : List Detection) (s : State) : Host.Outcome State Fault Refusal :=
  .next (if (s.eng e).powered then ((s.leave e 4 0).resetEngineNow e failed).pruneQueues.kickReshards else s)

/-- PROVISIONAL_TIMEOUT: a provisional image that has not joined within 600 s gives way to the other slot, with a fallback entry
(R411). -/
def execProvisionalTimeout (e : EngId) (s : State) : Host.Outcome State Fault Refusal :=
  let f := (s.eng e).fw
  .next (if (s.eng e).powered && f.provisional && !s.joined e && f.bootAt + 600000000000 ≤ s.now then
    let o := otherSlot f.run
    let s1 := (s.modEng e (fun x => { x with fw := { x.fw with next := o } })).resetEngineNow e []
    s1.fwJournal e 3 o ((f.info e o).getD { major := f.major, minor := f.minor, patch := f.patch, sec := f.sec, time := 0 })
  else s)

/-- RECOVERY_DOWNLOAD: an engine without a bootable slot takes a valid image into slot A over the SCM's direct path, and boots it
(R410). -/
def execRecoveryDownload (e : EngId) (image : List Byte) (s : State) : Host.Outcome State Fault Refusal :=
  let f := (s.eng e).fw
  let g : Firmware := { f with slots := f.slots.set 0 (some image) }
  .next (if (s.eng e).powered && !f.booted && (g.bootable e 0).isSome then
    (s.modEng e (fun x => { x with fw := g })).resetEngineNow e []
  else s)

/-- LOCATE_REQUEST: the engine's LED blinks blue (R371). -/
def execLocateRequest (e : EngId) (s : State) : Host.Outcome State Fault Refusal :=
  .next (if (s.eng e).powered then s.modEng e (fun x => { x with locate := true }) else s)

end Sys2Proof.Machine
end

