-- ==== Sys2Proof/Machine/ReshardRows.lean ====
section
/-! DEFINITION. Re-shards, rebuilds and restores as they run and end (R279–R283, R290–R295). -/

namespace Sys2Proof.Machine

/-- The members that have lost rows of a partition's tensors and not been given them again. -/
def Partition.gone (x : Partition) : BitVec 16 := x.tensors.foldl (fun m t => m ||| t.place.gone) 0

/-- STRIPE_MOVE_COMPLETE: one stripe whose engine changes has its new copy and the new parity of its group in place (R281). -/
def execStripeMoveComplete (p : PartId) (tid : Word) (stripe : Nat) (s : State) : Host.Outcome State Fault Refusal :=
  let x := s.part p
  .next (match x.reshard, x.tensor? tid.toNat with
  | some r, some t => match t.dest with
    | some d =>
      if x.resharding && !s.reshardHit p r && stripe < t.stripes && !t.moved.contains stripe &&
          t.place.dataEngine stripe ≠ d.dataEngine stripe then s.moveStripe p t stripe
      else s
    | none => s
  | _, _ => s)

/-- RESHARD_COMPLETE: every stripe that changes its engine has moved. A re-shard in place ends; for any other the leader starts the
adoption of a record with the new member list, which takes effect with it (R88, R279, R283, R301; log 73). -/
def execReshardComplete (p : PartId) (s : State) : Host.Outcome State Fault Refusal :=
  let x := s.part p
  .next (match x.reshard with
  | some r =>
    if !s.reshardMoved p r then s
    else if r.members = s.members p then s.endReshard p r
    else if s.recordChanging then s
    else s.adopt (s.record.setPart p { (s.cfg p).getD PartCfg.initial with members := r.members }) [] p none
  | none => s)

/-- A rebuild that finds no room waits, with REBUILD_WAIT raised (R279). -/
def State.rebuildOrWait (s : State) (p : PartId) (r : Reshard) : State :=
  match if maskCount r.members < r.parity + 1 then none else s.startReshard p r with
  | some s1 => s1
  | none => ((s.modPart p (fun x => { x with reshard := none })).answerReshard r .quota []).mgmtFault s.firstJoined 9

/-- A re-shard that was running starts again over the members that remain, with its campaign number given back first. -/
def State.restartReshard (s : State) (p : PartId) (r : Reshard) : State :=
  let s1 := (s.dropDests p).endCampaign r.campaign
  s1.rebuildOrWait p { r with members := r.members &&& ~~~(s.reshardLost p r), campaign := none }

/-- REBUILD_START: a partition that has lost members within its parity is re-sharded onto those that remain, once no epoch is
COPYING or CUT, none pins its twins, a campaign is free and no configuration-changing command is in progress (R88); a re-shard that
runs restarts (R279, R280; log 73). -/
def execRebuildStart (p : PartId) (s : State) : Host.Outcome State Fault Refusal :=
  let x := s.part p
  let live := s.liveMembers p &&& ~~~x.gone
  .next (if !s.exists_ p || !x.rebuildWait || s.partDead p || s.adoption.isSome then s
  else match x.reshard with
  | some r =>
    if x.resharding && s.reshardHit p r && x.step.phase ≠ 3 then s.restartReshard p r
    else if !x.resharding && s.reshardHit p r then
      (s.modPart p (fun y => { y with reshard := some { r with members := r.members &&& ~~~(s.reshardLost p r) } })
        ).kickReshards
    else s
  | none =>
    if s.fencedOf p = 0 && x.gone = 0 then s.modPart p (fun y => { y with rebuildWait := false })
    else if s.configInProgress || !x.canReshard || x.epochs.any (fun ep => ep.state = 2) || s.campaignsFull || maskCount live < s.parity + 1 then s
    else s.rebuildOrWait p { members := live, parity := s.parity, rebuild := true, campaign := none, requester := none })

/-- The STORE tokens of a restore are taken from the buckets of its members as far as they have them; whether it has all (R71, R72;
log 152). -/
def State.payRestore (s : State) (p : PartId) (r : Restore) : Bool × State :=
  let paid := (maskEngines (s.liveMembers p)).foldl (fun (a : Nat × State) e =>
    let t := a.2.payStore e p (r.tokens - a.1)
    (a.1 + t.1, t.2)) (r.paid, s)
  (r.tokens ≤ paid.1, paid.2.modPart p (fun x => { x with restore := x.restore.map (fun q => { q with paid := paid.1 }) }))

/-- A running restore holds a digest lane and a compression lane of each surviving member, for its checks and its decoding; whether it
has them all (R268, R290, R341). -/
def State.restoreLanes (s : State) (p : PartId) : Bool × State :=
  (maskEngines (s.liveMembers p)).foldl (fun (a : Bool × State) e =>
    let d := a.2.shelfLane e (.restore p)
    let c := d.2.codecLane e (.restore p)
    (a.1 && d.1.isSome && c.2, c.1)) (true, s)

/-- The lanes that a restore held are free again. -/
def State.endLanes (s : State) (p : PartId) : State :=
  (List.finRange 16).foldl (fun s e => (s.freeLane e (.restore p)).modEng e (fun x => x.dropBlock (.restore p))) s

/-- RESTORE_COMPLETE: the campaign has read the chain and the state is established; it waits for a store that is not reached, for STORE
tokens and for lanes, and fails with more members lost than the parity policy covers (R290, R291, R295). -/
def execRestoreComplete (done : RestoreEnd) (s : State) : Host.Outcome State Fault Refusal :=
  let p := done.part
  .next (match (s.part p).restore with
  | some r =>
    if r.state ≠ 2 then s
    else if s.parity < maskCount (s.fencedOf p) then s.failRestore p .fenced
    else if (List.range s.store.volumes.length).any (fun v => !s.storeGoes v) then s
    else match s.payRestore p r with
    | (false, s1) => s1
    | (true, s1) => match s1.restoreLanes p with
      | (false, s2) => s2
      | (true, s2) => (s2.finishRestore p r done.bad).endLanes p
  | none => s)

end Sys2Proof.Machine
end

