-- ==== Sys2Proof/Machine/Streams.lean ====
section
/-! DEFINITION. The stream rows: the eleven commands as their sender gives them, and the events of a stream command's life
(05). A command is accepted here; STREAM_COMMAND_START and HOST_DATA_FETCH run it. -/

namespace Sys2Proof.Machine

/-- READ (0x01) is written and accepted (R109, R123). -/
def execRead (q : StkReq) (s : State) : Host.Outcome State Fault Refusal := .next (s.submitStream 0x01 q)

/-- WRITE (0x02) is written and accepted (R109, R121). -/
def execWrite (q : StkReq) (s : State) : Host.Outcome State Fault Refusal := .next (s.submitStream 0x02 q)

/-- GRAD_PUSH (0x03) is written and accepted (R109, R139). -/
def execGradPush (q : StkReq) (s : State) : Host.Outcome State Fault Refusal := .next (s.submitStream 0x03 q)

/-- WEIGHT_PULL (0x04) is written and accepted (R109, R142). -/
def execWeightPull (q : StkReq) (s : State) : Host.Outcome State Fault Refusal := .next (s.submitStream 0x04 q)

/-- KV_PUT (0x05) is written and accepted (R109, R251). -/
def execKvPut (q : StkReq) (s : State) : Host.Outcome State Fault Refusal := .next (s.submitStream 0x05 q)

/-- KV_GET (0x06) is written and accepted (R109, R252). -/
def execKvGet (q : StkReq) (s : State) : Host.Outcome State Fault Refusal := .next (s.submitStream 0x06 q)

/-- KV_DROP (0x07) is written and accepted (R109, R252). -/
def execKvDrop (q : StkReq) (s : State) : Host.Outcome State Fault Refusal := .next (s.submitStream 0x07 q)

/-- FLUSH (0x08) is written and accepted (R109, R119). -/
def execFlush (q : StkReq) (s : State) : Host.Outcome State Fault Refusal := .next (s.submitStream 0x08 q)

/-- RIDER_PUT (0x09) is written and accepted (R109, R145). -/
def execRiderPut (q : StkReq) (s : State) : Host.Outcome State Fault Refusal := .next (s.submitStream 0x09 q)

/-- RIDER_GET (0x0A) is written and accepted (R109, R145). -/
def execRiderGet (q : StkReq) (s : State) : Host.Outcome State Fault Refusal := .next (s.submitStream 0x0A q)

/-- FENCE (0x0B) is written and accepted (R109, R119). -/
def execFence (q : StkReq) (s : State) : Host.Outcome State Fault Refusal := .next (s.submitStream 0x0B q)

/-- STREAM_COMMAND_START: the queued command at `slot` of a stream starts, or waits; a started one goes on (R112, R129–R132).
`slot` counts from the oldest command. -/
def execStreamCommandStart (loc : StreamAt) (slot : Nat) (fail : TransferFail) (s : State) :
    Host.Outcome State Fault Refusal :=
  .next (if s.streamLive loc then s.tryStream loc slot fail else s)

/-- STREAM_COMPLETION_POST (R113). -/
def execStreamCompletionPost (loc : StreamAt) (s : State) : Host.Outcome State Fault Refusal :=
  .next (if s.streamLive loc then s.postStream loc else s)

/-- DONE_ACKNOWLEDGE: 1 is written to DONE (R114). -/
def execDoneAcknowledge (loc : StreamAt) (s : State) : Host.Outcome State Fault Refusal :=
  .next (s.onStream loc 0x40 (fun s => s.modStream loc Stream.acknowledge))

/-- HALT: STK_CTRL is written with HALT set; with RESUME set too the write is ignored (R127, R128). -/
def execHalt (loc : StreamAt) (w : Word) (s : State) : Host.Outcome State Fault Refusal :=
  .next (s.onStream loc 0x3C (fun s => s.controlWord loc (w ||| 1#32)))

/-- RESUME: STK_CTRL is written with RESUME set; with HALT set too the write is ignored (R128). -/
def execResume (loc : StreamAt) (w : Word) (s : State) : Host.Outcome State Fault Refusal :=
  .next (s.onStream loc 0x3C (fun s => s.controlWord loc (w ||| 2#32)))

/-- HOST_DATA_FETCH: the host data of a command arrives (R337). -/
def execHostDataFetch (loc : StreamAt) (slot : Nat) (data : List Byte) (fail : Bool) (s : State) :
    Host.Outcome State Fault Refusal :=
  .next (if s.streamLive loc then s.fetchData loc slot data fail else s)

end Sys2Proof.Machine
end

