-- ==== Sys2Proof/Machine/Dispatch.lean ====
section
/-! DEFINITION. The dispatch of every command of the opcode table to its meaning: one arm per constructor of Instr. -/

namespace Sys2Proof.Machine

/-- The effect of a command on everything but the queue. -/
def exec (i : Instr) (s : State) : Host.Outcome State Fault Refusal :=
  match i with
  | .identify m => Sys2Proof.Machine.execIdentify m s
  | .getLog m => Sys2Proof.Machine.execGetLog m s
  | .setFeature m => Sys2Proof.Machine.execSetFeature m s
  | .getFeature m => Sys2Proof.Machine.execGetFeature m s
  | .fwDownload m => Sys2Proof.Machine.execFwDownload m s
  | .fwCommit m => Sys2Proof.Machine.execFwCommit m s
  | .fwActivate m => Sys2Proof.Machine.execFwActivate m s
  | .fwQuery m => Sys2Proof.Machine.execFwQuery m s
  | .format m => Sys2Proof.Machine.execFormat m s
  | .sanitise m => Sys2Proof.Machine.execSanitise m s
  | .sanitiseStatus m => Sys2Proof.Machine.execSanitiseStatus m s
  | .partCreate m => Sys2Proof.Machine.execPartCreate m s
  | .partDelete m => Sys2Proof.Machine.execPartDelete m s
  | .partModify m => Sys2Proof.Machine.execPartModify m s
  | .partQuery m => Sys2Proof.Machine.execPartQuery m s
  | .partReset m => Sys2Proof.Machine.execPartReset m s
  | .qosSet m => Sys2Proof.Machine.execQosSet m s
  | .qosQuery m => Sys2Proof.Machine.execQosQuery m s
  | .regTensor m => Sys2Proof.Machine.execRegTensor m s
  | .regClass m => Sys2Proof.Machine.execRegClass m s
  | .stepPolicy m => Sys2Proof.Machine.execStepPolicy m s
  | .reshape m => Sys2Proof.Machine.execReshape m s
  | .stateQuery m => Sys2Proof.Machine.execStateQuery m s
  | .tensorDrop m => Sys2Proof.Machine.execTensorDrop m s
  | .epochCut m => Sys2Proof.Machine.execEpochCut m s
  | .epochCommit m => Sys2Proof.Machine.execEpochCommit m s
  | .epochRelease m => Sys2Proof.Machine.execEpochRelease m s
  | .epochQuery m => Sys2Proof.Machine.execEpochQuery m s
  | .rebase m => Sys2Proof.Machine.execRebase m s
  | .restoreOpen m => Sys2Proof.Machine.execRestoreOpen m s
  | .restoreMap m => Sys2Proof.Machine.execRestoreMap m s
  | .restoreRun m => Sys2Proof.Machine.execRestoreRun m s
  | .reshard m => Sys2Proof.Machine.execReshard m s
  | .restoreQuery m => Sys2Proof.Machine.execRestoreQuery m s
  | .restoreClose m => Sys2Proof.Machine.execRestoreClose m s
  | .progLoad m => Sys2Proof.Machine.execProgLoad m s
  | .progUnload m => Sys2Proof.Machine.execProgUnload m s
  | .spinLoad m => Sys2Proof.Machine.execSpinLoad m s
  | .spinUnload m => Sys2Proof.Machine.execSpinUnload m s
  | .progQuery m => Sys2Proof.Machine.execProgQuery m s
  | .tideSet m => Sys2Proof.Machine.execTideSet m s
  | .tideQuery m => Sys2Proof.Machine.execTideQuery m s
  | .kvConfig m => Sys2Proof.Machine.execKvConfig m s
  | .kvQuery m => Sys2Proof.Machine.execKvQuery m s
  | .secQuery m => Sys2Proof.Machine.execSecQuery m s
  | .provision m => Sys2Proof.Machine.execProvision m s
  | .seal m => Sys2Proof.Machine.execSeal m s
  | .retire m => Sys2Proof.Machine.execRetire m s
  | .keyLoad m => Sys2Proof.Machine.execKeyLoad m s
  | .keyGenerate m => Sys2Proof.Machine.execKeyGenerate m s
  | .keyZeroise m => Sys2Proof.Machine.execKeyZeroise m s
  | .keyBind m => Sys2Proof.Machine.execKeyBind m s
  | .keeperChallenge m => Sys2Proof.Machine.execKeeperChallenge m s
  | .keeperRespond m => Sys2Proof.Machine.execKeeperRespond m s
  | .keeperClose m => Sys2Proof.Machine.execKeeperClose m s
  | .memberQuery m => Sys2Proof.Machine.execMemberQuery m s
  | .memberExclude m => Sys2Proof.Machine.execMemberExclude m s
  | .memberAdmit m => Sys2Proof.Machine.execMemberAdmit m s
  | .timeQuery m => Sys2Proof.Machine.execTimeQuery m s
  | .timeSet m => Sys2Proof.Machine.execTimeSet m s
  | .leaseQuery m => Sys2Proof.Machine.execLeaseQuery m s
  | .leaseClaim m => Sys2Proof.Machine.execLeaseClaim m s
  | .leaseRelease m => Sys2Proof.Machine.execLeaseRelease m s
  | .mailboxCompletion e k => Sys2Proof.Machine.execMailboxCompletion e k s
  | .firmwareHang e k => Sys2Proof.Machine.execFirmwareHang e k s
  | .read q => Sys2Proof.Machine.execRead q s
  | .write q => Sys2Proof.Machine.execWrite q s
  | .gradPush q => Sys2Proof.Machine.execGradPush q s
  | .weightPull q => Sys2Proof.Machine.execWeightPull q s
  | .kvPut q => Sys2Proof.Machine.execKvPut q s
  | .kvGet q => Sys2Proof.Machine.execKvGet q s
  | .kvDrop q => Sys2Proof.Machine.execKvDrop q s
  | .flush q => Sys2Proof.Machine.execFlush q s
  | .riderPut q => Sys2Proof.Machine.execRiderPut q s
  | .riderGet q => Sys2Proof.Machine.execRiderGet q s
  | .fence q => Sys2Proof.Machine.execFence q s
  | .streamCommandStart loc slot fail => Sys2Proof.Machine.execStreamCommandStart loc slot fail s
  | .streamCompletionPost loc => Sys2Proof.Machine.execStreamCompletionPost loc s
  | .doneAcknowledge loc => Sys2Proof.Machine.execDoneAcknowledge loc s
  | .halt loc w => Sys2Proof.Machine.execHalt loc w s
  | .resume loc w => Sys2Proof.Machine.execResume loc w s
  | .registerWrite src off data => Sys2Proof.Machine.execRegisterWrite src off data s
  | .evrEnable src => Sys2Proof.Machine.execEvrEnable src s
  | .heldEventsRelease e p => Sys2Proof.Machine.execHeldEventsRelease e p s
  | .evrFailure e p => Sys2Proof.Machine.execEvrFailure e p s
  | .coalesceTimeout e p v => Sys2Proof.Machine.execCoalesceTimeout e p v s
  | .msixPendingRelease e p v => Sys2Proof.Machine.execMsixPendingRelease e p v s
  | .functionLevelReset e port p => Sys2Proof.Machine.execFunctionLevelReset e port p s
  | .resetDone p => Sys2Proof.Machine.execResetDone p s
  | .qosTick e => Sys2Proof.Machine.execQosTick e s
  | .rdmaConnectRequest e port rc gid data qpn => Sys2Proof.Machine.execRdmaConnectRequest e port rc gid data qpn s
  | .linkUp e port mode => Sys2Proof.Machine.execLinkUp e port mode s
  | .linkDown e port retrain => Sys2Proof.Machine.execLinkDown e port retrain s
  | .pfcPauseReceived e port dur => Sys2Proof.Machine.execPfcPauseReceived e port dur s
  | .pfcPauseSend e port fill => Sys2Proof.Machine.execPfcPauseSend e port fill s
  | .ecnCeReceived e qpn => Sys2Proof.Machine.execEcnCeReceived e qpn s
  | .cnpReceived e qpn => Sys2Proof.Machine.execCnpReceived e qpn s
  | .hostDataFetch loc slot data fail => Sys2Proof.Machine.execHostDataFetch loc slot data fail s
  | .stepBegin p => Sys2Proof.Machine.execStepBegin p s
  | .statisticsComplete p => Sys2Proof.Machine.execStatisticsComplete p s
  | .stepComplete p => Sys2Proof.Machine.execStepComplete p s
  | .spinSwap e p handle => Sys2Proof.Machine.execSpinSwap e p handle s
  | .cutGateMessage p e => Sys2Proof.Machine.execCutGateMessage p e s
  | .cutInstant p => Sys2Proof.Machine.execCutInstant p s
  | .copierDone p n => Sys2Proof.Machine.execCopierDone p n s
  | .copierResume p n => Sys2Proof.Machine.execCopierResume p n s
  | .shardWriteComplete p n idx res => Sys2Proof.Machine.execShardWriteComplete p n idx res s
  | .shardVerified p n idx sent => Sys2Proof.Machine.execShardVerified p n idx sent s
  | .manifestBuild p n e => Sys2Proof.Machine.execManifestBuild p n e s
  | .manifestReadback p n got => Sys2Proof.Machine.execManifestReadback p n got s
  | .commitRecordWritten p n e res => Sys2Proof.Machine.execCommitRecordWritten p n e res s
  | .epochRetire p n => Sys2Proof.Machine.execEpochRetire p n s
  | .drainRetry p n => Sys2Proof.Machine.execDrainRetry p n s
  | .finalEbbCut p => Sys2Proof.Machine.execFinalEbbCut p s
  | .partitionLend p => Sys2Proof.Machine.execPartitionLend p s
  | .floodTurnComplete => Sys2Proof.Machine.execFloodTurnComplete s
  | .reseedCut p => Sys2Proof.Machine.execReseedCut p s
  | .ebbTurnComplete => Sys2Proof.Machine.execEbbTurnComplete s
  | .reshardComplete p => Sys2Proof.Machine.execReshardComplete p s
  | .stripeMoveComplete p tid stripe => Sys2Proof.Machine.execStripeMoveComplete p tid stripe s
  | .rebuildStart p => Sys2Proof.Machine.execRebuildStart p s
  | .restoreComplete p => Sys2Proof.Machine.execRestoreComplete p s
  | .maintenanceWindow e ch => Sys2Proof.Machine.execMaintenanceWindow e ch s
  | .demandWindow e ch => Sys2Proof.Machine.execDemandWindow e ch s
  | .modeTimeout e ch => Sys2Proof.Machine.execModeTimeout e ch s
  | .moduleTempSample e m temp => Sys2Proof.Machine.execModuleTempSample e m temp s
  | .nmxGo src w => Sys2Proof.Machine.execNmxGo src w s
  | .nmxComplete e p fail => Sys2Proof.Machine.execNmxComplete e p fail s
  | .xlateStart src off => Sys2Proof.Machine.execXlateStart src off s
  | .dgxGo src w list fail => Sys2Proof.Machine.execDgxGo src w list fail s
  | .dgxComplete e p host fail upset => Sys2Proof.Machine.execDgxComplete e p host fail upset s
  | .digestPreempt e lane => Sys2Proof.Machine.execDigestPreempt e lane s
  | .digestResume e ctx => Sys2Proof.Machine.execDigestResume e ctx s
  | .digestLaneFail e lane => Sys2Proof.Machine.execDigestLaneFail e lane s
  | .compressLaneFail e lane => Sys2Proof.Machine.execCompressLaneFail e lane s
  | .heartbeat e heard => Sys2Proof.Machine.execHeartbeat e heard s
  | .peerUnreachable e peer => Sys2Proof.Machine.execPeerUnreachable e peer s
  | .noQuorum e => Sys2Proof.Machine.execNoQuorum e s
  | .propose leader => Sys2Proof.Machine.execPropose leader s
  | .proposeReceived e => Sys2Proof.Machine.execProposeReceived e s
  | .viewFormed => Sys2Proof.Machine.execViewFormed s
  | .viewProposeTimeout => Sys2Proof.Machine.execViewProposeTimeout s
  | .departureAnnouncement e reason => Sys2Proof.Machine.execDepartureAnnouncement e reason s
  | .engineJoin e => Sys2Proof.Machine.execEngineJoin e s
  | .configPrepare answers => Sys2Proof.Machine.execConfigPrepare answers s
  | .configCommit answers => Sys2Proof.Machine.execConfigCommit answers s
  | .configPhaseTimeout e => Sys2Proof.Machine.execConfigPhaseTimeout e s
  | .splitWindowExpiry => Sys2Proof.Machine.execSplitWindowExpiry s
  | .taiEdge tai => Sys2Proof.Machine.execTaiEdge tai s
  | .offsetMeasure drift => Sys2Proof.Machine.execOffsetMeasure drift s
  | .timeSourceLoss src => Sys2Proof.Machine.execTimeSourceLoss src s
  | .timeSourceLock src tai => Sys2Proof.Machine.execTimeSourceLock src tai s
  | .timeSuspectSet e => Sys2Proof.Machine.execTimeSuspectSet e s
  | .timeSuspectClear e => Sys2Proof.Machine.execTimeSuspectClear e s
  | .timeLeave e => Sys2Proof.Machine.execTimeLeave e s
  | .timeJoinRecheck e => Sys2Proof.Machine.execTimeJoinRecheck e s
  | .ppsPulse width tai => Sys2Proof.Machine.execPpsPulse width tai s
  | .leaseClaimCheck got => Sys2Proof.Machine.execLeaseClaimCheck got s
  | .leaseRenew reach got => Sys2Proof.Machine.execLeaseRenew reach got s
  | .allotExtend others => Sys2Proof.Machine.execAllotExtend others s
  | .allotExtendCheck others => Sys2Proof.Machine.execAllotExtendCheck others s
  | .startupLeaseClaim others => Sys2Proof.Machine.execStartupLeaseClaim others s
  | .faultDetect e f => Sys2Proof.Machine.execFaultDetect e f s
  | .ddrChannelRebuild e ch => Sys2Proof.Machine.execDdrChannelRebuild e ch s
  | .spareGroupSwitch e peer => Sys2Proof.Machine.execSpareGroupSwitch e peer s
  | .faultClear e blk bits => Sys2Proof.Machine.execFaultClear e blk bits s
  | .faultInject e blk bits => Sys2Proof.Machine.execFaultInject e blk bits s
  | .fltLock e blk => Sys2Proof.Machine.execFltLock e blk s
  | .cycleCheck e found => Sys2Proof.Machine.execCycleCheck e found s
  | .idleTimerExpiry e => Sys2Proof.Machine.execIdleTimerExpiry e s
  | .powerExit e => Sys2Proof.Machine.execPowerExit e s
  | .powerExitComplete e => Sys2Proof.Machine.execPowerExitComplete e s
  | .sensorSample e temps draw => Sys2Proof.Machine.execSensorSample e temps draw s
  | .capEvaluate watts => Sys2Proof.Machine.execCapEvaluate watts s
  | .clockLevelChange e => Sys2Proof.Machine.execClockLevelChange e s
  | .busbarOvervoltage mv dur => Sys2Proof.Machine.execBusbarOvervoltage mv dur s
  | .busbarUndervoltage mv dur => Sys2Proof.Machine.execBusbarUndervoltage mv dur s
  | .powerOn redfish mv dur failed => Sys2Proof.Machine.execPowerOn redfish mv dur failed s
  | .provisionalTimeout e => Sys2Proof.Machine.execProvisionalTimeout e s
  | .orderlyShutdown grace => Sys2Proof.Machine.execOrderlyShutdown grace s
  | .graceExpiry => Sys2Proof.Machine.execGraceExpiry s
  | .sanitiseComplete fail => Sys2Proof.Machine.execSanitiseComplete fail s
  | .formatComplete fail => Sys2Proof.Machine.execFormatComplete fail s
  | .scmFailover => Sys2Proof.Machine.execScmFailover s
  | .bothScmFail => Sys2Proof.Machine.execBothScmFail s
  | .tamperDetect e src => Sys2Proof.Machine.execTamperDetect e src s
  | .reserveRecharged e => Sys2Proof.Machine.execReserveRecharged e s
  | .debugTimeout e => Sys2Proof.Machine.execDebugTimeout e s
  | .challengeLockoutEnd e => Sys2Proof.Machine.execChallengeLockoutEnd e s
  | .engineReset e failed => Sys2Proof.Machine.execEngineReset e failed s
  | .redfishPowerOff => Sys2Proof.Machine.execRedfishPowerOff s
  | .locateRequest e => Sys2Proof.Machine.execLocateRequest e s
  | .recoveryDownload e image => Sys2Proof.Machine.execRecoveryDownload e image s
  | .cellLoss sled => Sys2Proof.Machine.execCellLoss sled s
  | .scmRecovery scm => Sys2Proof.Machine.execScmRecovery scm s
  | .reservedOpcode op m => Sys2Proof.Machine.execReservedOpcode op m s

end Sys2Proof.Machine
end

