-- ==== Sys2Proof/Machine/Clock.lean ====
section
/-! DEFINITION. The passing of time: one tick of every engine's counter, which step takes when no command waits (14 Time;
log 2). -/

namespace Sys2Proof.Machine

/-- Slewing runs at 500 parts in a million: one nanosecond in every 2,000 is lengthened or shortened (R307). -/
def slewPeriod : Nat := 2000

/-- One nanosecond of one engine's counter, with the slewing that is still to apply. -/
def Clock.tick (c : Clock) (now : Nat) : Clock :=
  if c.slew = 0 || now % slewPeriod ≠ 0 then { c with now := c.now + 1 }
  else if 0 < c.slew then { c with now := c.now + 2, slew := c.slew - 1 }
  else { c with slew := c.slew + 1 }

/-- One nanosecond of one engine: the counter of a powered engine runs, the keeper's real-time counter always (R49). -/
def Engine.tick (x : Engine) (now : Nat) : Engine :=
  { x with clock := if x.powered then x.clock.tick now else x.clock,
           keeper := if x.keeper.cellLost then x.keeper else { x.keeper with rtc := x.keeper.rtc + 1 } }

/-- One nanosecond passes. -/
def State.tick (s : State) : State :=
  { s with now := s.now + 1, engines := s.engines.map (fun x => x.tick s.now) }

end Sys2Proof.Machine
end

