-- ==== Sys2Proof/Machine/Tick.lean ====
section
/-! DEFINITION. What the shelf does by itself as a nanosecond passes: counters run, channels come back from PROCESSOR mode,
engines become idle or leave a low state for work, the wear of the journal is reported, mailbox commands whose wait is over go on,
and an orderly shutdown goes on to its end (R205, R376, R377, R418, R425; logs 2, 122). -/

namespace Sys2Proof.Machine

/-- Every channel whose window has ended is back in MEMORY mode (Table 9-2). -/
def Engine.settleChannels (x : Engine) (now : Nat) : Engine := { x with channels := x.channels.map (fun c => c.settle now) }

/-- An engine begins to be idle, with the timers that are then in force; one with work is not idle, and an exit starts from a
low state (R376, R377, R382). -/
def State.noteIdle (s : State) (e : EngId) : State :=
  let x := s.eng e
  if !x.powered || !x.runs then s
  else if s.idle e then
    if x.power.idleSince.isSome then s
    else s.modEng e (fun x => { x with power := { x.power with idleSince := some s.now, inForce := x.power.timers } })
  else if x.power.low && x.power.exitDue.isNone then s.wake e
  else if x.power.idleSince.isNone then s
  else s.modEng e (fun x => { x with power := { x.power with idleSince := none } })

/-- The wear of a journal past 90 % and its turning read-only each raise FLASH_ERR once (R425). -/
def State.noteWear (s : State) (e : EngId) : State :=
  let j := (s.eng e).journal
  let due := if j.readOnly then 2 else if 90 < j.wear then 1 else 0
  if (s.eng e).powered && j.wornTold < due then
    (s.modEng e (fun x => { x with journal := { x.journal with wornTold := due } })).mgmtFault e 2
  else s

/-- One nanosecond of the whole shelf. -/
def State.passTime (s : State) : State :=
  let s1 := s.modEngines 0xFFFF (fun _ x => x.settleChannels s.now)
  let s2 := (List.finRange 16).foldl (fun s e => (s.noteIdle e).noteWear e) s1
  (s2.partIds.foldl (fun s p => s.retryJobs p) s2).shutdownCheck.tick

end Sys2Proof.Machine
end

