-- ==== Sys2Proof/Safety.lean ====
section
/-! DEFINITION. What counts as a safe run, the invariant of the shelf (every byte memory is in canonical form, every
lifecycle is one of Table 19-1, and a provisional image is one that a rise of the security version counter waits for), and
when a mailbox command starts at once. -/

namespace Sys2Proof.Machine

/-- A step of a state runs: it answers a next state, neither a fault nor a refusal. -/
def Runs (s : State) : Prop := ∃ t, step s = .next t

/-- Every byte memory of the shelf is in canonical form: the pool of every engine and every store volume. -/
def State.memoriesWf (s : State) : Bool :=
  s.engines.toList.all (fun x => x.pool.wf) && s.store.volumes.all (fun v => v.bytes.wf) &&
    s.store.parked.all (fun v => v.bytes.wf)

/-- An engine is sound: its pool is in canonical form, its lifecycle is one of Table 19-1, and while its image is
provisional the image's security version is above the engine's counter (R411). -/
def Engine.Sound (x : Engine) : Prop :=
  x.pool.wf = true ∧ x.lifecycle ≤ 3 ∧ (x.fw.provisional = true → x.fw.counter < x.fw.sec.toNat)

/-- The invariant of the shelf: every engine is sound, and every store volume is in canonical form. -/
def State.Sound (s : State) : Prop :=
  (∀ e, (s.eng e).Sound) ∧ (∀ v ∈ s.store.volumes, v.bytes.wf = true) ∧ (∀ v ∈ s.store.parked, v.bytes.wf = true)

/-! ### A mailbox command that starts at once (R82, R87, R104) -/

/-- The call that a request makes of a mailbox and a partition; a command accepted during an orderly shutdown is late (R418). -/
def mbxCall (m : MbxReq) (op : Nat) (k : MbxKey) (p : PartId) (s : State) : Call :=
  { eng := m.eng, key := k, part := p, path := m.path, cmd := commandBytes op m, buf := m.buf, fail := m.fail,
    flash := m.flash, late := s.shutdown.isSome }

/-- A call waits for no view (R299), and passes every check that the commands share (R93, R305, R408, R414). -/
def Call.passes (c : Call) (s : State) (sp : CmdSpec) : Bool := !c.awaits s sp && (checkCommand c s sp).isNone

/-- The state in which a request has been accepted: BUSY is set, DONE cleared, the bytes copied (R82). -/
def State.accepted (s : State) (op : Nat) (m : MbxReq) (k : MbxKey) (p : PartId) : State :=
  (s.acceptMailbox m k p (commandBytes op m)).wakeFor m.eng op

/-- The result of a call goes to its mailbox, and what waited behind it may start. -/
def Call.finish (c : Call) (r : State × Result) : State :=
  (r.1.trimLent.modMailbox c.eng c.key (fun b => { b with job := b.job.map (fun j => j.after r.2) })).startJobs c.eng 64

/-- A request reaches a free mailbox of an engine that runs the opcode in its power state, where fewer than four commands run
and none is accepted and waiting to start; it is not for the direct path, and no closed gate holds it (R82, R87, R104, R107, R181,
R401). -/
def Starts (op : Nat) (m : MbxReq) (s : State) (k : MbxKey) (p : PartId) : Prop :=
  (m.path ≠ .redfish ∨ s.runsDirect m.eng (commandBytes op m) = false) ∧
  (op ∈ ([0x40, 0x42, 0x43, 0x45] : List Nat) → (s.part p).cut.any (fun d => hasEngine d.gates m.eng) = false) ∧
  s.requestKey m = some (k, p) ∧ (s.mailbox m.eng k).job = none ∧
  k.all (fun q => !(s.win m.eng q).resetting) = true ∧ (s.eng m.eng).power.admits op = true ∧
  mbxKeys.all (fun j => ((s.eng m.eng).mbx j).job.all Job.running) = true ∧
  (mbxKeys.filter (fun j => ((s.eng m.eng).mbx j).job.isSome)).length < 4

end Sys2Proof.Machine
end

