-- ==== Sys2Proof/Certificates/Slice0/Obligations.lean ====
section
/-! DEFINITION. The statements for the provers: what each command leaves, where it completes, what every step keeps. A row of
the mailbox is stated by a claim: the condition on the call under which it completes, and the state and response it leaves. -/

namespace Sys2Proof.Machine

/-! ### Mailbox commands -/

/-- What a mailbox command does: the condition under which it completes at once, and the state and response that it leaves. -/
structure Meaning where
  holds : Bool
  result : State × Result

/-- A request that starts at once completes as the claim of its row says, wherever the claim's condition holds of the state in
which it has been accepted (R82, R87). -/
def Answers (op : Nat) (mk : MbxReq → Instr) (f : Call → State → Meaning) : Prop :=
  ∀ m s k p, Starts op m s k p → (f (mbxCall m op k p s) (s.accepted op m k p)).holds = true →
    exec (mk m) s = .next ((mbxCall m op k p s).finish (f (mbxCall m op k p s) (s.accepted op m k p)).result)

/-- The mailbox rows with their opcodes. -/
def mailboxRows : List (Nat × (MbxReq → Instr)) :=
  [(0x01, .identify), (0x02, .getLog), (0x03, .setFeature), (0x04, .getFeature),
   (0x10, .fwDownload), (0x11, .fwCommit), (0x12, .fwActivate), (0x13, .fwQuery),
   (0x20, .format), (0x21, .sanitise), (0x22, .sanitiseStatus),
   (0x30, .partCreate), (0x31, .partDelete), (0x32, .partModify), (0x33, .partQuery), (0x34, .partReset),
   (0x35, .qosSet), (0x36, .qosQuery),
   (0x40, .regTensor), (0x41, .regClass), (0x42, .stepPolicy), (0x43, .reshape), (0x44, .stateQuery),
   (0x45, .tensorDrop),
   (0x50, .epochCut), (0x51, .epochCommit), (0x52, .epochRelease), (0x53, .epochQuery), (0x54, .rebase),
   (0x60, .restoreOpen), (0x61, .restoreMap), (0x62, .restoreRun), (0x63, .reshard), (0x64, .restoreQuery),
   (0x65, .restoreClose),
   (0x70, .progLoad), (0x71, .progUnload), (0x72, .spinLoad), (0x73, .spinUnload), (0x74, .progQuery),
   (0x80, .tideSet), (0x81, .tideQuery), (0x82, .kvConfig), (0x83, .kvQuery),
   (0x90, .secQuery), (0x91, .provision), (0x92, .seal), (0x93, .retire), (0x94, .keyLoad),
   (0x95, .keyGenerate), (0x96, .keyZeroise), (0x97, .keyBind), (0x98, .keeperChallenge), (0x99, .keeperRespond),
   (0x9A, .keeperClose),
   (0xA0, .memberQuery), (0xA1, .memberExclude), (0xA2, .memberAdmit), (0xA3, .timeQuery), (0xA4, .timeSet),
   (0xA5, .leaseQuery), (0xA6, .leaseClaim), (0xA7, .leaseRelease)]

/-- IDENTIFY: the engine structure goes to the host buffer; the shelf structure waits for the completion, which fills it
(R95–R97, MailboxEvents). -/
def claimIdentify (c : Call) (s : State) : Meaning where
  holds := c.passes s { used := [(8, 1)], desc := true, bad := [(8, 1 < c.fld 8 1)] }
  result := if c.fld 8 1 = 0 then writeBuffer c s (s.engineStruct c.eng) [] else (s, .wait .view)

/-- GET_LOG: the page from OFFSET on goes to the host buffer, with its GENERATION and total length; where the flash gives only its
first bytes, those go there and the command ends with SC_MEDIUM_ERROR (R98, R99, R106). -/
def claimGetLog (c : Call) (s : State) : Meaning :=
  let id := c.fld 8 1
  let known := 1 ≤ id && id ≤ 7
  let page := s.logPageOf c.eng c.part id
  let off := c.fld 16 8
  let data := page.drop off
  let body := rspFields [(8, 8, field page 16 8), (16, 8, page.length)]
  let k := c.flash.getD data.length
  { holds :=
      c.passes s
        { used := [(8, 1), (16, 8)], desc := true, p0 := known && id ≠ 3 && id ≠ 4,
          bad := [(8, !known), (16, off % 8 ≠ 0 || (known && page.length < off))] },
    result := if k < min c.dlen data.length then
        let r := writeBuffer c s (data.take k) body
        (r.1, match r.2 with
          | .done .ok _ b => .done .mediumError 0xFFFF b
          | x => x)
      else writeBuffer c s data body }

/-- SET_FEATURE: the value is set in its scope; that of STORE_TARGETS comes from the host buffer (R102, R103). -/
def claimSetFeature (c : Call) (s : State) : Meaning :=
  let fid := c.fld 8 2
  let f := featureFields c fid
  { holds :=
      c.passes s
        { used := [(8, 4)] ++ f.1, desc := fid = 2, p0 := fid ≠ 6, config := configCommand c.cmd,
          reads := fid = 2, dataErr := if fid = 2 then c.data.bind targetsError else none,
          bad := f.2 ++ [(10, !(featureScopes fid).contains (c.fld 10 1)), (11, 1 < c.fld 11 1)] } &&
      (fid ≠ 2 || c.data.isSome),
    result := setFeatureValue c s fid (if fid = 2 then c.data.getD [] else slice c.cmd 16 32) }

/-- GET_FEATURE: the value in force, saved or default; that of STORE_TARGETS goes to the host buffer (R102). -/
def claimGetFeature (c : Call) (s : State) : Meaning :=
  let fid := c.fld 8 2
  let known := 1 ≤ fid && fid ≤ 8
  let v := match c.fld 10 1 with
    | 0 => s.featureNow fid c.eng c.part
    | 1 => s.featureSaved fid c.eng c.part
    | _ => featureDefault fid
  { holds := c.passes s { used := [(8, 3)], desc := fid = 2, bad := [(8, !known), (10, 2 < c.fld 10 1)] },
    result := if fid = 2 then writeBuffer c s v (rspFields [(16, 4, v.length)]) else (s, .ok (padTo 56 (zeros 8 ++ v))) }

/-- FW_DOWNLOAD: the next piece of an image joins the staging area of every engine that is named; FIRST empties it before. Hot copies
make way for it (R249). -/
def claimFwDownload (c : Call) (s : State) : Meaning :=
  let es := c.viewEngines s 14
  let first := natBit (c.fld 12 1) 0
  let off := c.fld 8 4
  { holds :=
      c.passes s
        { used := [(8, 5), (14, 2)], desc := true, p0 := true, reads := true, needs := es,
          bad := [(12, 1 < c.fld 12 1),
                (8, (maskEngines es).any (fun e => (if first then 0 else (s.eng e).fw.staged.length) ≠ off))] } &&
      off + c.dlen ≤ 134217728 && c.data.isSome,
    result := ((s.modEngines es (fun _ x =>
        { x with fw := { x.fw with staged := (if first then [] else x.fw.staged) ++ c.data.getD [] } })).trimHots es,
      .ok (withDoneLen [] (c.data.getD []).length)) }

/-- FW_COMMIT: a whole, authentic image within the counter goes from the staging areas to the slot that is not in use; the
journal notes it (R409–R411). -/
def claimFwCommit (c : Call) (s : State) : Meaning :=
  let es := c.viewEngines s 14
  let slot : Fin 2 := if c.fld 8 1 = 0 then 0 else 1
  let info := imageInfo (s.eng ((maskEngines es).headD c.eng)).fw.staged
  { holds :=
      c.passes s
        { used := [(8, 2), (14, 2)], p0 := true, needs := es,
          bad := [(8, 1 < c.fld 8 1), (9, 1 < c.fld 9 1)] } &&
      (maskEngines es).all (fun e =>
        let f := (s.eng e).fw
        imageShaped f.staged && imageAuthentic e f.staged && (imageInfo f.staged).sec.toNat ≤ 128 && f.active ≠ slot &&
          f.counter ≤ (imageInfo f.staged).sec.toNat),
    result := ((maskEngines es).foldl (fun s e =>
        let s1 := s.modEng e (fun x =>
          { x with fw := { x.fw with slots := x.fw.slots.set slot.val (some x.fw.staged) slot.isLt,
                                     next := if natBit (c.fld 9 1) 0 then slot else x.fw.next } })
        s1.fwJournal e 0 slot (imageInfo (s1.eng e).fw.staged)) s,
      .ok (rspFields [(8, 1, info.major.toNat), (9, 1, info.minor.toNat), (10, 2, info.patch.toNat),
        (12, 1, info.sec.toNat)])) }

/-- FW_ACTIVATE: the engine leaves the view and resets into the slot that NEXT names (R412). -/
def claimFwActivate (c : Call) (s : State) : Meaning :=
  let n := c.fld 8 1
  let e := (engId? n).getD 0
  let f := (s.eng e).fw
  let next := f.bootable e f.next
  let rest := s.joinedMask &&& ~~~(engineBit e)
  { holds :=
      c.passes s
        { used := [(8, 1)], p0 := true, bad := [(8, 15 < n)],
          needs := if n < 16 then engineBit e else 0 } &&
      next.all (fun x => s.buildFits rest x.major x.minor) && 9 ≤ maskCount rest && next.isSome &&
      (s.parity ≠ 0 || (s.partsOn e).isEmpty) && s.membership.activation.all (fun a => a = e) && !s.reshardRuns,
    result :=
      let s2 := (s.leave e 1 0).resetEngineNow e []
      ({ (s2.fwJournal e 1 f.next (next.getD (imageInfo []))) with
           membership := { s2.membership with activation := some e } }, .ok []) }

/-- FW_QUERY: slots, NEXT, counter and staging of an engine. -/
def claimFwQuery (c : Call) (s : State) : Meaning :=
  let n := c.fld 8 1
  let e := (engId? n).getD 0
  let f := (s.eng e).fw
  { holds := c.passes s { used := [(8, 1)], bad := [(8, 15 < n)], needs := if n < 16 then engineBit e else 0 },
    result := (s, .ok (rspFields ([(8, 1, f.active.val), (9, 1, f.next.val), (10, 1, f.counter), (11, 1, 128 - f.counter),
      (12, 4, f.staged.length)] ++ slotFields f e 0 16 ++ slotFields f e 1 32))) }

/-- FORMAT: a format campaign starts, and the journal of every engine notes it (R413, R422). -/
def claimFormat (c : Call) (s : State) : Meaning :=
  let vs := s.store.volumes
  { holds :=
      c.passes s
        { used := [(8, 1)], p0 := true, bad := [(8, 1 < c.fld 8 1)], split := true,
          step9 := true } &&
      !s.journalWorn c.eng && s.campaigns.isEmpty && !s.foreignLease && !s.savedTargets.isEmpty &&
      vs.all (fun v => s.connected v) && vs.all (fun v => v.fits && 65792 ≤ v.blocks) &&
      (natBit (c.fld 8 1) 0 || (List.range vs.length).all (fun i => (s.superblockOf i).isNone)) && !s.campaignsFull,
    result :=
      let r := s.startCampaign .format none
      let s2 := r.2.journalAll 2 0xFF (formatPayload 0 0 (slice s.savedTargets 0 16))
      ({ s2 with store := { s2.store with format := some { accepted := s.time c.eng, campaign := r.1 } } },
       .ok (rspFields [(40, 2, r.1)])) }

/-- SANITISE: in crypto-erase mode the keys in scope go and the sanitise is complete at once; the other modes start a campaign,
and mode 2 erases the keys and the state of every partition first (R414, R422). -/
def claimSanitise (c : Call) (s : State) : Meaning :=
  let mode := c.fld 8 1
  let scope := c.fld 9 1
  let n := c.fld 10 1
  let p := (partId? n).getD 0
  let san : Sanitise := { state := 1, mode := mode, scope := scope, part := n, percent := 0, status := .ok,
                          start := s.time c.eng, finish := 0, campaign := none }
  let s1 := s.journalAll 3 n (sanitisePayload mode scope n 0 0)
  let i := s1.startCampaign .sanitise none
  let s3 := if mode = 2 then
      (i.2.partIds.foldl (fun s p => s.discardState p)
        ((i.2.cryptoErase none).journalAll 3 n (sanitisePayload mode scope n 1 0))).modEngines s.joinedMask (fun _ x =>
          x.initialise s.now)
    else i.2
  { holds :=
      c.passes s
        { used := [(8, 3)], p0 := true, split := true, step9 := mode = 3,
          bad := [(8, mode = 0 || 3 < mode), (9, 1 < scope || (scope = 1 && mode ≠ 1)), (10, 63 < n)] } &&
      !s.journalWorn c.eng && s.sanitise.state ≠ 1 && s.store.format.isNone && (mode = 1 || s.campaigns.isEmpty) &&
      (scope ≠ 1 || s.exists_ p) && (mode ≠ 3 || s.leaseHeld) && (mode = 1 || !s.campaignsFull),
    result := if mode = 1 then
        ((((s1.cryptoErase (if scope = 1 then some p else none)).journalAll 3 n (sanitisePayload mode scope n 1 0)).journalAll
          3 n (sanitisePayload mode scope n 3 0)).sanitised { san with state := 2, percent := 100, finish := s.time c.eng },
         .ok (rspFields [(40, 2, 0xFFFF)]))
      else
        ({ s3 with sanitise := { san with campaign := some i.1 },
                   campaigns := if mode = 2 then s3.campaigns.filter (fun x => x.id = i.1) else s3.campaigns },
         .ok (rspFields [(40, 2, i.1)])) }

/-- SANITISE_STATUS: the last sanitise, and the wear of this engine's journal. -/
def claimSanitiseStatus (c : Call) (s : State) : Meaning :=
  let z := s.sanitise
  { holds := c.passes s {},
    result := (s, .ok (rspFields [(8, 1, z.state), (9, 1, z.mode), (10, 1, z.scope), (11, 1, z.part), (12, 1, z.percent),
      (13, 1, (statusCode z.status).toNat), (16, 8, z.start.toNat), (24, 8, z.finish.toNat),
      (32, 1, (s.eng c.eng).journal.wear), (33, 1, bit (s.eng c.eng).journal.readOnly)])) }

/-- PART_CREATE: the adoption of a record that names the new partition starts (R74, R301). -/
def claimPartCreate (c : Call) (s : State) : Meaning :=
  let n := c.fld 8 1
  let p := (partId? n).getD 0
  let members := BitVec.ofNat 16 (c.fld 10 2)
  { holds :=
      c.passes s
        { used := [(8, 6), (16, 8)], p0 := true, config := true, needs := members,
          bad := [(8, n = 0 || 63 < n || s.exists_ p), (9, 1 < c.fld 9 1), (10, members = 0), (12, c.fld 12 2 = 0)] } &&
      !s.streamsOver p members (c.fld 12 2),
    result := startAdoption c s (s.record.setPart p
      { members := members, expert := natBit (c.fld 9 1) 0, streams := c.fld 12 2, poolGib := c.fld 16 4,
        stageGib := c.fld 20 4, gids := [], qos := [], mslot := none, dslot := none, verify := 0 }) }

/-- PART_DELETE: the adoption of a record without the partition starts (R76, R301). -/
def claimPartDelete (c : Call) (s : State) : Meaning :=
  let n := c.fld 8 1
  let p := (partId? n).getD 0
  { holds :=
      c.passes s
        { used := [(8, 2)], p0 := true, config := true,
          bad := [(8, n = 0 || 63 < n), (9, 1 < c.fld 9 1)] } &&
      s.exists_ p && (!s.hasWork p || natBit (c.fld 9 1) 0),
    result := startAdoption c s (s.record.delPart p) }

/-- PART_MODIFY: the adoption of a record with the fields that MODIFY names starts (R75, R301). -/
def claimPartModify (c : Call) (s : State) : Meaning :=
  let n := c.fld 8 1
  let p := (partId? n).getD 0
  let cfg := (s.cfg p).getD PartCfg.initial
  let rights := natBit (c.fld 14 1) 0
  let strm := natBit (c.fld 14 1) 1
  let quota := natBit (c.fld 14 1) 2
  { holds :=
      c.passes s
        { used := [(8, 2), (12, 3), (16, 8)], p0 := true, config := true,
          bad := [(8, 63 < n), (9, 1 < c.fld 9 1), (12, strm && c.fld 12 2 = 0), (14, 7 < c.fld 14 1)] } &&
      s.exists_ p &&
      (!(rights && !natBit (c.fld 9 1) 0) ||
        ((s.part p).programs.isEmpty && (s.part p).spins.isEmpty && !s.unitsBusy p)) &&
      (!strm || ((maskEngines cfg.members).all (fun e => (s.win e p).idleFrom (c.fld 12 2)) &&
        !s.streamsOver p cfg.members (c.fld 12 2))),
    result := startAdoption c s (s.record.setPart p
      { cfg with expert := if rights then natBit (c.fld 9 1) 0 else cfg.expert,
                 streams := if strm then c.fld 12 2 else cfg.streams,
                 poolGib := if quota then c.fld 16 4 else cfg.poolGib,
                 stageGib := if quota then c.fld 20 4 else cfg.stageGib }) }

/-- PART_QUERY: the record's entry of a partition with its state; state 0 for one that does not exist (Table 3-3). -/
def claimPartQuery (c : Call) (s : State) : Meaning :=
  let n := c.fld 8 1
  let p := (partId? n).getD 0
  let cfg := (s.cfg p).getD PartCfg.initial
  { holds := c.passes s { used := [(8, 1)], bad := [(8, 63 < n)], deny := c.part ≠ 0 && n ≠ c.part.val },
    result := (s, .ok (if !s.exists_ p then rspFields [(8, 1, n)] else
      rspFields [(8, 1, n), (9, 1, bit cfg.expert + 2 * bit (p = 0)), (10, 2, cfg.members.toNat),
        (12, 2, (s.fencedOf p).toNat), (14, 2, cfg.streams), (16, 4, (s.win c.eng p).rstSeq.toNat),
        (20, 1, s.partState p), (24, 4, cfg.poolGib), (28, 4, cfg.stageGib)])) }

/-- PART_RESET: the reset of the partition starts, with this engine as the requesting one (Table 3-7). -/
def claimPartReset (c : Call) (s : State) : Meaning :=
  let n := c.fld 8 1
  let p := (partId? n).getD 0
  { holds := c.passes s { used := [(8, 2)], bad := [(8, 63 < n), (9, 1 < c.fld 9 1)], deny := c.part ≠ 0 && n ≠ c.part.val } &&
      s.exists_ p,
    result := (s.startReset p c.eng (c.fld 9 1 = 1) false, .ok []) }

/-- QOS_SET: the adoption of a record with the new weights and cap on the engines named starts (R70, R301). -/
def claimQosSet (c : Call) (s : State) : Meaning :=
  let n := c.fld 8 1
  let p := (partId? n).getD 0
  let mask := BitVec.ofNat 16 (c.fld 16 2)
  let es := enginesOr mask (s.members p)
  let cfg := (s.cfg p).getD PartCfg.initial
  { holds :=
      c.passes s
        { used := [(8, 5), (16, 2)], p0 := true, config := true, needs := mask,
          bad := [(8, 63 < n), (9, 3 < c.fld 9 1), (10, c.fld 10 1 = 0), (11, c.fld 11 1 = 0),
                (12, c.fld 12 1 = 0 || 100 < c.fld 12 1), (16, s.exists_ p && mask &&& ~~~cfg.members ≠ 0)] } &&
      s.exists_ p,
    result := startAdoption c s (s.record.setPart p
      { cfg with qos := cfg.qos.filter (fun q => !(q.2.1 = c.fld 9 1 && (maskEngines es).any (fun e => e.val = q.1))) ++
          (maskEngines es).map (fun e => (e.val, c.fld 9 1, byteAt c.cmd 10, byteAt c.cmd 11, byteAt c.cmd 12)) }) }

/-- QOS_QUERY: weights, cap, bucket, grant and stalls of one pool on this engine, and its tokens per tick (Table 3-9). -/
def claimQosQuery (c : Call) (s : State) : Meaning :=
  let n := c.fld 8 1
  let p := (partId? n).getD 0
  { holds := c.passes s { used := [(8, 2)], bad := [(8, 63 < n), (9, 3 < c.fld 9 1)], deny := c.part ≠ 0 && n ≠ c.part.val } &&
      s.exists_ p,
    result := (s, .ok (qosBytes ((s.win c.eng p).qos.toList.getD (c.fld 9 1) QosPool.reset) ++
      natLe 4 (s.poolTokens c.eng (c.fld 9 1)))) }

/-- REG_TENSOR: with no copier running the tensor is placed and registered, and the response gives its charge (R147). -/
def claimRegTensor (c : Call) (s : State) : Meaning :=
  let p := c.part
  let x := s.part p
  let cls := c.fld 12 1
  let parent := if dependentClass cls then (x.tensor? (c.fld 28 4)).filter (fun m => m.cls = 1) else none
  let t := askedTensor c x (s.members p) s.parity parent
  let done := s.registerAll p t
  { holds :=
      c.passes s
        { used := [(8, 25), (34, 2)],
          bad := [(8, c.fld 8 4 = 0 || (x.tensor? (c.fld 8 4)).isSome), (12, 6 < cls),
                (13, c.fld 13 1 ≠ 0xFF && !knownFormat (c.fld 13 1)), (14, 2 < c.fld 14 1),
                (15, if cls = 5 then 2 < c.fld 15 1 else c.fld 15 1 ≠ 0),
                (16, c.fld 16 8 = 0 || 2 ^ 40 < c.fld 16 8 * max 1 (c.fld 24 4)), (24, c.fld 24 4 = 0),
                (28, cls ≤ 6 && !dependentClass cls && c.fld 28 4 ≠ 0),
                (32, c.fld 32 1 ≠ 0 && !(12 ≤ c.fld 32 1 && c.fld 32 1 ≤ 24))] } &&
      !x.restoring && cls ≠ 4 && (!dependentClass cls || parent.isSome) && !badLayout c t (s.members p) parent &&
      x.tensors.length < 262144 && s.roomFor p t && !x.copying && done.isSome,
    result := (done.getD s, .ok (rspFields [(8, 8, t.charge)])) }

/-- REG_CLASS: the defaults of a class for tensors registered afterwards change (R148). -/
def claimRegClass (c : Call) (s : State) : Meaning :=
  let cls := c.fld 8 1
  { holds :=
      c.passes s
        { used := [(8, 3)],
          bad := [(8, 6 < cls), (9, !knownFormat (c.fld 9 1)), (10, 1 < c.fld 10 1)] } &&
      !(s.part c.part).restoring && (classFormats cls).contains (c.fld 9 1),
    result := (s.modPart c.part (fun x =>
        { x with classFmt := Vector.ofFn (fun i => if i.val = cls then c.fld 9 1 else x.classFmt[i]),
                 classTwin := Vector.ofFn (fun i => if i.val = cls then decide (c.fld 10 1 = 1) else x.classTwin[i]) }),
      .ok []) }

/-- STEP_POLICY: the policy is taken, and the PRECOND tensors that it needs are made (R149, R150). -/
def claimStepPolicy (c : Call) (s : State) : Meaning :=
  let p := c.part
  let x := s.part p
  let pol := c.cmd.drop 8
  let s1 := s.modPart p (fun x => x.takePolicy pol (if c.fld 22 1 = 1 then some (c.fld 16 6) else none))
  let done := s1.setPreconds p pol
  { holds := c.passes s { used := [(8, 15), (24, 40)], bad := policyBad c } && !x.restoring &&
      (!x.step.stepped || x.lastPolicy.all (fun q => policyShape q = policyShape pol)) &&
      (c.fld 22 1 ≠ 1 || !x.stepping) &&
      (c.fld 8 1 ≠ 0xFF || x.programs.any (fun g => g.handle.toNat = c.fld 60 4)) && done.isSome,
    result := (done.getD s, .ok []) }

/-- RESHAPE: with nothing to wait for, the contributor count and its map change (R285–R288). -/
def claimReshape (c : Call) (s : State) : Meaning :=
  let p := c.part
  let x := s.part p
  let new := c.fld 8 2
  let mode := c.fld 10 1
  let d := c.data.getD []
  { holds := !s.reshaping p &&
      c.passes s { used := [(8, 3)], desc := true, bad := [(8, new = 0 || 4096 < new), (10, 1 < mode)] } &&
      !x.restoring && x.policy.isSome && c.dlen = 2 * x.step.contributors && c.data.isSome &&
      !badMap (mapEntries d) new mode && !x.copying && x.step.phase ≠ 2 && x.step.phase ≠ 3 && !s.pushing p,
    result := (s.modPart p (fun x => x.reshape new mode (mapEntries d)), .ok (withDoneLen [] c.dlen)) }

/-- STATE_QUERY: a tensor's registration, a rider's length, the step, or the contributors that are missing, which go to the
host buffer (06). -/
def claimStateQuery (c : Call) (s : State) : Meaning :=
  let x := s.part c.part
  let sel := c.fld 8 1
  let id := c.fld 12 4
  { holds :=
      c.passes s
        { used := [(8, 1), (12, 4)], desc := sel = 3,
          bad := [(8, 3 < sel), (12, (sel = 1 && 4095 < id) || (2 ≤ sel && id ≠ 0))] } && !x.restoring &&
      (sel ≠ 0 || (x.tensor? id).isSome) && (sel ≠ 1 || (assocGet x.riders id).isSome),
    result := match sel with
      | 0 => (s, .ok ((x.tensor? id).elim [] (fun t => rspFields [(8, 1, t.cls), (9, 1, t.fmt), (10, 1, bit t.twin),
          (11, 1, t.hostFmt), (16, 8, t.rows), (24, 4, t.cols), (28, 4, t.parent.toNat), (32, 8, t.charge),
          (40, 1, bit (!t.poison.isEmpty)), (41, 1, bit (x.preconditioned t))])))
      | 1 => (s, .ok (rspFields [(16, 4, (assocGetD x.riders id []).length)]))
      | 2 => (s, .ok (rspFields [(16, 6, x.step.completed), (24, 1, x.step.phase), (28, 4, min x.step.skip 0xFFFFFFFF),
          (32, 2, x.step.contributors)]))
      | _ => writeBuffer c s x.missing [] }

/-- TENSOR_DROP: with no step and no copier a tensor without dependants goes, and its space is free. -/
def claimTensorDrop (c : Call) (s : State) : Meaning :=
  let p := c.part
  let x := s.part p
  let id := c.fld 8 4
  { holds := c.passes s { used := [(8, 4)] } && !x.restoring && (x.tensor? id).isSome &&
      (x.dependants (BitVec.ofNat 32 id)).isEmpty && !x.stepping && !x.copying,
    result := (s.unregister p (fun t => t.id.toNat = id), .ok []) }

/-- EPOCH_CUT: the cut is declared, and the command waits for its instant (R181, R186). -/
def claimEpochCut (c : Call) (s : State) : Meaning :=
  let p := c.part
  let kind := c.fld 8 1
  let commit := natBit (c.fld 9 1) 1
  let drain := natBit (c.fld 9 1) 0 || commit
  { holds := c.passes s { used := [(8, 2)], bad := [(8, 2 < kind), (9, 3 < c.fld 9 1)], step9 := drain } &&
      !(s.part p).restoring && (s.cutChecks p kind drain).all (fun q => !q.1),
    result := (s.declareCut p { eng := c.eng, key := some c.key, kind := kind, drain := drain, commit := commit, gates := 0,
                                final := false, reseed := false }, .wait .cutInstant) }

/-- EPOCH_COMMIT: an epoch that is not committed starts to drain with COMMIT; the response gives the campaign. -/
def claimEpochCommit (c : Call) (s : State) : Meaning :=
  let p := c.part
  let n := c.fld 8 6
  let ep := (s.part p).epoch? n
  let committed := ep.any (fun q => q.state = 5)
  let s1 := if committed then s else s.startDrain p n true
  { holds := c.passes s { used := [(8, 6)], step9 := true } && !(s.part p).restoring && ep.isSome &&
      !ep.any (fun q => q.state = 6) && !(s.eng c.eng).clock.suspect &&
      (committed || !ep.any (fun q => q.campaign.isNone) || !s.campaignsFull),
    result := (s1, .ok (campaignField (((s1.part p).epoch? n).bind Epoch.campaign))) }

/-- EPOCH_RELEASE: the epoch, or with CHAIN the epochs that rest on it too, are released. -/
def claimEpochRelease (c : Call) (s : State) : Meaning :=
  let p := c.part
  let x := s.part p
  let n := c.fld 8 6
  let chain := natBit (c.fld 14 1) 0
  let gone := if chain then x.chainFrom n else [n]
  { holds := c.passes s { used := [(8, 7)], bad := [(14, 1 < c.fld 14 1)] } && !x.restoring &&
      (x.epoch? n).isSome && (chain || x.epochs.all (fun ep => !(ep.kind = 2 && ep.base = n && ep.state ≠ 5))),
    result := (gone.foldl (fun s k => s.releaseEpoch p k) s, .ok (rspFields [(8, 1, gone.length)])) }

/-- EPOCH_QUERY: one epoch in flight, or the partition's epochs, next number, last commit and cut, and generation. -/
def claimEpochQuery (c : Call) (s : State) : Meaning :=
  let p := c.part
  let x := s.part p
  let sel := c.fld 8 1
  { holds := c.passes s { used := [(8, 1), (12, 6)], bad := [(8, 1 < sel), (12, sel = 1 && c.fld 12 6 ≠ 0)] } &&
      !x.restoring && (sel ≠ 0 || (x.epoch? (c.fld 12 6)).isSome),
    result := (s, .ok (if sel = 0 then
        (x.epoch? (c.fld 12 6)).elim [] (fun ep => rspFields [(8, 1, ep.state), (9, 1, ep.kind),
          (10, 1, s.copyPct ep), (11, 1, ep.drainPct), (12, 2, ep.campaign.getD 0xFFFF), (16, 6, ep.base),
          (24, 8, ep.cutTime.toNat), (32, 6, ep.image.completed), (40, 8, ep.rawBytes),
          (48, 8, (ep.shards.map Shard.codedLen).sum), (56, 8, ep.commitTime.toNat)])
      else rspFields [(8, 1, x.epochs.length), (9, 1, bit x.exhausted + 2 * bit (s.lends p) + 4 * bit (!x.deltaOk)),
        (16, 6, if x.exhausted then 0 else x.nextEpoch), (24, 6, x.lastCommitted), (32, 6, x.lastCut),
        (40, 4, x.gen.getD 0xFFFFFFFF)])) }

/-- REBASE: a new generation of the partition is opened in the store. -/
def claimRebase (c : Call) (s : State) : Meaning :=
  let p := c.part
  let done := (s.openGen p).toOption
  { holds := c.passes s { split := true, step9 := true } && !(s.part p).restoring &&
      (s.part p).epochs.isEmpty && done.isSome,
    result := (done.getD s, .ok (rspFields [(8, 4, ((done.getD s).part p).gen.getD 0xFFFFFFFF)])) }

/-- RESTORE_OPEN: a session opens on the chain of epochs up to the one named, whose manifests all verify (R289, R294). -/
def claimRestoreOpen (c : Call) (s : State) : Meaning :=
  let p := c.part
  let x := s.part p
  let gen := c.fld 8 4
  let replace := natBit (c.fld 18 1) 0
  let mslot := c.fld 19 1
  let dslot := if c.fld 20 1 = 0xFF then none else some (c.fld 20 1)
  let n := if c.fld 12 6 = 0 then s.latestEpoch gen else c.fld 12 6
  let chain := if s.genReadable gen then s.epochChain gen 16 n else none
  let rs := chain.getD []
  let ms := rs.map s.readManifest
  let key := (s.keyOf c.eng p mslot 2).map KeySlot.key
  let m := ms.getLast?.getD []
  let ses : Restore :=
    { state := 1, gen := gen, n := n, chain := ms, replace := replace, dslot := dslot, mslot := mslot, map := [],
      contributors := 0, mode := 0, cmap := [], replay := 0, until_ := 0, strict := false, campaign := none, paid := 0,
      status := .ok, poisoned := 0, loaded := 0, records := 0,
      rawTotal := (ms.flatMap manifestShards |>.map (fun h => field h 32 8)).sum }
  { holds :=
      c.passes s
        { used := [(8, 13)], step9 := true,
          bad := [(18, 1 < c.fld 18 1), (19, 63 < mslot), (20, 63 < c.fld 20 1 && c.fld 20 1 ≠ 0xFF)] } &&
      (x.tensors.isEmpty || replace) && x.restore.isNone && x.reshard.isNone && !s.hasCampaign p &&
      (!replace || x.epochs.isEmpty) && chain.isSome && key.isSome &&
      ms.all (fun m => field m 31 1 ≠ 1 || (dslot.bind (fun d => s.dataKeyOn c.eng p d m)).isSome) &&
      (rs.zip ms).all (fun q => manifestFits q.2 q.1 && key.any (fun k => sealFits q.2 k)) &&
      (s.superblockOf 0).all (fun b => field b 10 2 ≤ 1) && ms.all (fun m => !manifestOdd m),
    result := (s.modPart p (fun x => { x with restore := some ses }),
      .ok (rspFields [(8, 6, n), (14, 1, field m 22 1), (16, 4, field m 52 4),
        (20, 4, (ms.map (fun m => field m 56 4)).sum), (24, 8, field m 80 8), (32, 8, field m 88 8),
        (40, 6, field m 40 6), (46, 2, field m 46 2), (48, 1, field m 30 1)])) }

/-- RESTORE_MAP: the session takes the tensors' new IDs and the contributor map (R292). -/
def claimRestoreMap (c : Call) (s : State) : Meaning :=
  let p := c.part
  let x := s.part p
  let m := (x.restore.map (fun r => r.chain.getLast?.getD [])).getD []
  let ts := manifestTensors m
  let cn := 2 * field m 46 2
  let dl := c.dlen
  let d := c.data.getD []
  { holds :=
      c.passes s
        { desc := true, reads := true,
          bad := [(60, dl < 16 || (x.restore.isSome && !decide ((dl - 16) % 16 = 0) &&
            !(decide (16 + cn ≤ dl) && decide ((dl - 16 - cn) % 16 = 0))))],
          dataErr := c.data.bind (fun d => restoreMapError d dl (if x.restore.isSome then some cn else none)) } &&
      x.restore.any (fun r => r.state = 1) && c.data.isSome &&
      (restoreEntries d).all (fun e => ts.any (fun t => field t 0 4 = e.1)) && !badRestoreMap d ts,
    result := (s.modPart p (fun x => { x with restore := x.restore.map (fun r =>
        { r with map := restoreEntries d, contributors := field d 4 2, mode := field d 6 1, cmap := restoreCmap d }) }),
      .ok (withDoneLen [] dl)) }

/-- RESTORE_RUN: the restore campaign starts on a partition whose state is cleared (R290, R294). -/
def claimRestoreRun (c : Call) (s : State) : Meaning :=
  let p := c.part
  let x := s.part p
  let replay := c.fld 8 1
  { holds :=
      c.passes s
        { used := [(8, 2), (16, 8)], split := true,
          bad := [(8, 2 < replay), (9, 1 < c.fld 9 1), (16, replay ≠ 2 && c.fld 16 8 ≠ 0)] } &&
      x.restore.any (fun r => r.state = 1 &&
        (replay = 0 || (s.genReadable r.gen && decide (s.latestEpoch r.gen = r.n))) && (x.tensors.isEmpty || r.replace) &&
        s.parity + 1 ≤ maskCount (s.members p) && !s.restoreOver p (r.chain.getLast?.getD []) r.map) && !s.campaignsFull,
    result :=
      let i := s.startCampaign .restore (some p)
      ((i.2.clearState p).modPart p (fun y => { y with restore := x.restore.map (fun r =>
          r.run replay (natBit (c.fld 9 1) 0) (BitVec.ofNat 64 (c.fld 16 8)) i.1) }), .ok (rspFields [(40, 2, i.1)])) }

/-- RESTORE_QUERY of a session: its state, progress, status and counts. -/
def claimRestoreQuery (c : Call) (s : State) : Meaning where
  holds := c.passes s {}
  result := (s, .ok ((s.part c.part).restore.elim [] (fun r => rspFields [(8, 1, r.state), (9, 1, bit (r.records ≠ 0)),
    (10, 1, if r.state = 3 then 100 else if r.rawTotal = 0 then 0 else r.loaded * 100 / r.rawTotal),
    (11, 1, (statusCode r.status).toNat), (12, 4, r.poisoned), (16, 8, r.loaded), (24, 8, r.records)])))

/-- RESTORE_CLOSE: the session ends; a restore that runs is given up with the state it has built. -/
def claimRestoreClose (c : Call) (s : State) : Meaning :=
  let p := c.part
  let r := (s.part p).restore
  let runs := r.any (fun q => q.state = 2)
  { holds := c.passes s {} && r.isSome,
    result := ((if runs then (s.clearState p).endCampaign (r.bind Restore.campaign) else s).modPart p
        (fun x => { x with restore := none }),
      .ok [BitVec.ofNat 8 (if runs then 4 else (r.map Restore.state).getD 0)]) }

/-- RESHARD: the adoption behind the re-shard of a partition starts (R281, R294). -/
def claimReshard (c : Call) (s : State) : Meaning :=
  let n := c.fld 8 1
  let p := (partId? n).getD 0
  let x := s.part p
  let m := BitVec.ofNat 16 (c.fld 10 2)
  let r : Reshard := { members := m, parity := s.parity, rebuild := false, campaign := none, requester := none }
  { holds :=
      c.passes s
        { used := [(8, 1), (10, 2)], p0 := true, config := true,
          bad := [(8, 63 < n), (10, m = 0 || m &&& ~~~s.joinedMask ≠ 0)] } &&
      s.exists_ p && x.reshard.isNone && x.restore.isNone && s.parity + 1 ≤ maskCount m &&
      s.placementFits p r.placement && !s.streamsOver p m (s.streams p) && !s.campaignsFull,
    result := startAdoption c s s.record }

/-- PROG_LOAD: a container that passes the checks is kept under a new handle (R164–R167). -/
def claimProgLoad (c : Call) (s : State) : Meaning :=
  let p := c.part
  let d := c.data.getD []
  let b := d.take (field d 8 4)
  let x := parseFxp d
  let fused := x.chains.filter (x.fuses (0 < s.parity))
  let split := x.chains.length - fused.length
  { holds := c.passes s { desc := true, expert := true, split := true, reads := true, needs := s.members p } && c.data.isSome &&
      !fxpForbidden d &&
      bodyDigestOk d 128 64 && fxpShaped d && x.chains.all (fun h => !(h.fuse = 1) || x.fuses (0 < s.parity) h) &&
      x.spins.all (fun h => (s.part p).spins.any (fun q => q.digest = h)) && !s.programOver p b (0 < split),
    result :=
      let r := s.freshHandle ((s.part p).programs.map Program.handle)
      (r.2.modPart p (fun y =>
          { y with programs := y.programs ++ [{ handle := r.1, bytes := b, fused := fused.length, split := split }] }),
       .ok (withDoneLen (rspFields [(8, 4, r.1.toNat), (12, 4, fused.length), (16, 4, split)]) c.dlen)) }

/-- PROG_UNLOAD: a program that no policy names goes. -/
def claimProgUnload (c : Call) (s : State) : Meaning :=
  let h := c.fld 8 4
  let x := s.part c.part
  { holds := c.passes s { used := [(8, 4)], expert := true } &&
      x.programs.any (fun g => g.handle.toNat = h) && !x.names h,
    result := (s.modPart c.part (fun y => { y with programs := y.programs.filter (fun g => g.handle.toNat ≠ h) }), .ok []) }

/-- SPIN_LOAD: a spin that passes the checks is kept under a new handle. -/
def claimSpinLoad (c : Call) (s : State) : Meaning :=
  let p := c.part
  let d := c.data.getD []
  { holds := c.passes s { desc := true, expert := true, split := true, reads := true, needs := s.members p } && c.data.isSome &&
      bodyDigestOk d 64 32 && spinShaped d && (s.part p).spins.length < 8 &&
      (maskEngines (s.members p)).all (fun e => (s.spinsOn e).length < 32),
    result :=
      let r := s.freshHandle ((s.part p).spins.map Spin.handle)
      (r.2.modPart p (fun y =>
          { y with spins := y.spins ++ [{ handle := r.1, bytes := d.take (field d 8 4), uses := 0 }] }),
       .ok (withDoneLen (rspFields [(8, 4, r.1.toNat)]) c.dlen)) }

/-- SPIN_UNLOAD: a spin that no loaded program names goes, and the fabric slots that hold it are free. -/
def claimSpinUnload (c : Call) (s : State) : Meaning :=
  let h := c.fld 8 4
  let x := s.part c.part
  let sp := x.spins.find? (fun q => q.handle.toNat = h)
  { holds := c.passes s { used := [(8, 4)], expert := true } && sp.isSome &&
      x.programs.all (fun g => (parseFxp g.bytes).spins.all (fun d => !sp.any (fun q => q.digest = d))),
    result := ((s.modPart c.part (fun y => { y with spins := y.spins.filter (fun q => q.handle.toNat ≠ h) })).modEngines 0xFFFF
        (fun _ y => { y with resident := y.resident.map (fun r =>
          if r.any (fun v => v.part = c.part && v.handle.toNat = h) then none else r) }), .ok []) }

/-- PROG_QUERY: what a loaded program or spin is made of and whether it is in use; zeros for a handle that names none. -/
def claimProgQuery (c : Call) (s : State) : Meaning :=
  let h := c.fld 12 4
  let x := s.part c.part
  let res := (s.eng c.eng).resident.toList.any (fun r => r.any (fun v => v.part = c.part && v.handle.toNat = h))
  { holds := c.passes s { used := [(8, 1), (12, 4)], bad := [(8, 1 < c.fld 8 1)] },
    result := (s, .ok (if c.fld 8 1 = 0 then
        (x.programs.find? (fun g => g.handle.toNat = h)).elim [] (fun g =>
          rspFields [(8, 1, if x.names h then 2 else 1), (12, 4, (parseFxp g.bytes).chains.length), (16, 4, g.fused),
            (20, 4, (parseFxp g.bytes).maxLive (0 < s.parity)), (24, 8, if 0 < g.split then Config.splitBytes g.bytes else 0)])
      else (x.spins.find? (fun q => q.handle.toNat = h)).elim [] (fun q =>
        rspFields [(8, 1, if res then 2 else 1), (12, 4, field q.bytes 12 1), (16, 4, field q.bytes 13 1),
          (20, 4, min q.uses 0xFFFFFFFF), (24, 8, q.bytes.length)]))) }

/-- TIDE_SET: with no turn in progress the other personality starts a turn at the time the response gives (R17, R18, R23). -/
def claimTideSet (c : Call) (s : State) : Meaning :=
  let flood := decide (c.fld 8 1 = 1)
  let t := s.time c.eng
  { holds := c.passes s { used := [(8, 1)], p0 := true, bad := [(8, 1 < c.fld 8 1)] } && s.tide.turn = 0,
    result := (if flood = s.tide.flood then s else s.startTurn flood t, .ok (rspFields [(8, 8, t.toNat)])) }

/-- TIDE_QUERY: the personality, the turn and what is lent. -/
def claimTideQuery (c : Call) (s : State) : Meaning :=
  let t := s.tide
  { holds := c.passes s {},
    result := (s, .ok (rspFields [(8, 1, bit t.flood), (9, 1, t.turn), (16, 8, t.lending.toNat), (24, 8, t.held.toNat),
      (32, 8, t.started.toNat), (40, 8, t.completed.toNat), (48, 8, s.lentBytes)])) }

/-- KV_CONFIG: the element format and method of pages put afterwards. -/
def claimKvConfig (c : Call) (s : State) : Meaning where
  holds := c.passes s { used := [(8, 2)], bad := [(8, 4 < c.fld 8 1 && c.fld 8 1 ≠ 0xFF), (9, 4 < c.fld 9 1)] }
  result := (s.modPart c.part (fun x => { x with kvElem := byteAt c.cmd 8, kvMethod := byteAt c.cmd 9 }), .ok [])

/-- KV_QUERY: counts and bytes of the pages whose body stands on the engines named. -/
def claimKvQuery (c : Call) (s : State) : Meaning :=
  let x := s.part c.part
  let mask := BitVec.ofNat 16 (c.fld 8 2)
  let m := enginesOr mask (s.members c.part)
  let ks := x.kv.filter (fun k => hasEngine m k.body)
  { holds := c.passes s { used := [(8, 2)], needs := mask, bad := [(8, mask &&& ~~~s.members c.part ≠ 0)] },
    result := (s, .ok (rspFields [(8, 8, ks.length), (16, 8, (ks.map KvPage.raw).sum),
      (24, 8, (ks.map (fun k => k.home.length)).sum), (32, 8, (ks.filter (fun k => k.hot.isSome)).length),
      (40, 8, (ks.filter KvPage.lent).length), (48, 8, (ks.filter KvPage.poisoned).length), (56, 8, x.kvOverhead m)])) }

/-- SEC_QUERY: lifecycle, debug state, alarm, key slots in use, and the generation of a slot that the caller may see. -/
def claimSecQuery (c : Call) (s : State) : Meaning :=
  let n := c.fld 8 1
  let x := s.eng c.eng
  let k := x.keeper.slots.toList.getD n KeySlot.empty
  let cfg := (s.cfg c.part).getD PartCfg.initial
  let mask := (x.keeper.slots.toList.zipIdx.map (fun (y, i) => if y.usage ≠ 0 then 2 ^ i else 0)).sum
  { holds := c.passes s { used := [(8, 1)], bad := [(8, 63 < n)] } &&
      (n = 0 || k.usage = 0 || k.owner = c.part || c.part = 0),
    result := (s, .ok (rspFields [(8, 1, x.lifecycle), (9, 1, x.debug), (10, 1, bit x.hold + 2 * bit x.keeper.lost),
      (11, 1, x.keeper.reserve), (12, 4, x.keeper.cellMv), (16, 8, x.keeper.alarm.toNat), (24, 1, x.keeper.arm.toNat),
      (25, 1, x.keeper.activeNow s.now), (32, 8, mask), (40, 1, cfg.mslot.getD 255), (41, 1, cfg.dslot.getD 255),
      (48, 4, if n = 0 then 0 else k.gen.toNat)])) }

/-- PROVISION: the owner key and the anchor reach every engine of the view, where every zeroisation has verified (R389, R402,
R405). -/
def claimProvision (c : Call) (s : State) : Meaning :=
  let es := if c.direct s then engineBit c.eng else s.joinedMask
  let d := c.data.getD []
  let pub := slice d 32 96
  { holds := c.passes s { desc := true, p0 := true, reads := true, bad := [(60, c.dlen ≠ 128)] } &&
      (maskEngines es).all (fun e => !(s.eng e).keeper.zeroFailed) &&
      (maskEngines es).all (fun e => (s.eng e).lifecycle = 0 || (s.eng e).keeper.isArmed 2) &&
      (maskEngines es).all (fun e => 2 ≤ (s.eng e).keeper.reserve) && c.data.isSome &&
      (maskEngines es).all (fun e => (s.eng e).anchor.all (fun a => a = keyAnchor pub)),
    result := ((maskEngines es).foldl (fun s e => s.provisionOne e (d.take 32) pub) s, .ok (withDoneLen [] 128)) }

/-- SEAL: every engine of the view is sealed with the ARM mask given (R403). -/
def claimSeal (c : Call) (s : State) : Meaning where
  holds := c.passes s { used := [(8, 1)], p0 := true } &&
    (maskEngines s.joinedMask).all (fun e => (s.eng e).lifecycle = 1)
  result := ((maskEngines s.joinedMask).foldl (fun s e => s.sealOne e (byteAt c.cmd 8 &&& 0x7F)) s, .ok [])

/-- RETIRE: the engine's keys are zeroised, its lifecycle is RETIRED, and it leaves the view (R399). -/
def claimRetire (c : Call) (s : State) : Meaning :=
  let n := c.fld 8 1
  let e := (engId? n).getD 0
  { holds :=
      c.passes s
        { used := [(8, 1)], p0 := true, bad := [(8, 15 < n)],
          needs := if n < 16 then engineBit e else 0 } &&
      (s.eng e).keeper.isArmed 3 && (!s.joined e || 10 ≤ maskCount s.joinedMask),
    result := ((((s.zeroAll e).modEng e (fun x =>
        { x with lifecycle := 3, hold := false, keeper := { x.keeper with armed := none } })).closeDebug e).leave e 4 0,
      .ok []) }

/-- KEY_LOAD: a blob that unwraps on every engine named fills the slot there (R391, R402). -/
def claimKeyLoad (c : Call) (s : State) : Meaning :=
  let es := c.keyEngines s (c.fld 10 2)
  let i := (slotOf (c.fld 8 1)).getD 0
  let d := c.data.getD []
  let keys := (maskEngines es).map (fun e => (e, (kwpUnwrap (s.slot e 0).key d).bind (parseBlob c.part)))
  { holds :=
      c.passes s
        { used := [(8, 1), (10, 2)], desc := true, reads := true, needs := es,
          bad := [(8, (slotOf (c.fld 8 1)).isNone), (10, c.foreignEngines s (c.fld 10 2))] } &&
      (slotOf (c.fld 8 1)).isSome && (keyChecks c s es i).all (fun q => !q.1) && c.data.isSome &&
      keys.all (fun o => o.2.isSome),
    result := (keys.foldl (fun s o => match o.2 with | some k => s.fillSlot o.1 i k | none => s) s,
      .ok (withDoneLen [] d.length)) }

/-- KEY_GENERATE whose transfer works: a key that nothing constrains fills the slot on every engine named, and its wrapped
blob goes to the host (R391, R402). -/
def claimKeyGenerate (c : Call) (s : State) : Meaning :=
  let es := c.keyEngines s (c.fld 10 2)
  let len := c.fld 12 2
  let i := (slotOf (c.fld 8 1)).getD 0
  let r := s.draw (8 * len)
  let k : KeySlot := { usage := c.fld 9 1, owner := c.part, keyId := BitVec.ofNat 64 (c.fld 16 8), key := natLe len r.1.toNat,
                       gen := 0 }
  let plain := natLe 1 k.usage ++ [0] ++ natLe 2 len ++ zeros 4 ++ natLe 8 k.keyId.toNat ++ k.key
  let w := writeBuffer c r.2 (kwpWrap (s.slot c.eng 0).key plain) []
  { holds :=
      c.passes s
        { used := [(8, 2), (10, 4), (16, 8)], desc := true, needs := es,
          bad := [(8, (slotOf (c.fld 8 1)).isNone), (10, c.foreignEngines s (c.fld 10 2)), (60, c.dlen < 152)] } &&
      (slotOf (c.fld 8 1)).isSome && (keyChecks c s es i).all (fun q => !q.1) && usageFits (c.fld 9 1) len && c.fail.isNone,
    result := ((maskEngines es).foldl (fun s e => s.fillSlot e i k) w.1, w.2) }

/-- KEY_ZEROISE: the slot is empty on every engine named, under a new SLOT_GEN (R390, R402). -/
def claimKeyZeroise (c : Call) (s : State) : Meaning :=
  let es := c.keyEngines s (c.fld 10 2)
  let n := c.fld 8 1
  let cfg := (s.cfg c.part).getD PartCfg.initial
  let i := (slotOf n).getD 0
  { holds :=
      c.passes s
        { used := [(8, 1), (10, 2)], needs := es,
          bad := [(8, (slotOf n).isNone), (10, c.foreignEngines s (c.fld 10 2))] } && (slotOf n).isSome &&
      (maskEngines es).all (fun e => (s.eng e).lifecycle ≠ 0 && (s.eng e).keeper.slots[i].usage ≠ 0 &&
        (s.eng e).keeper.slots[i].owner = c.part) && cfg.mslot ≠ some n && cfg.dslot ≠ some n,
    result := ((maskEngines es).foldl (fun s e => s.zeroSlot e i) s, .ok []) }

/-- KEY_BIND: the adoption of a record with the partition's MANIFEST and DATA slots starts (R404, R301). -/
def claimKeyBind (c : Call) (s : State) : Meaning :=
  let m := slotOf (c.fld 8 1)
  let d := slotOf (c.fld 9 1)
  { holds :=
      c.passes s
        { used := [(8, 2)], config := true,
          bad := [(8, m.isNone), (9, d.isNone && c.fld 9 1 ≠ 255)] } &&
      (maskEngines (s.members c.part)).all (fun e => (s.eng e).lifecycle ≠ 0) &&
      m.all (fun i => s.holdsUsage c.part i 2) && d.all (fun i => s.holdsUsage c.part i 3),
    result := startAdoption c s (s.record.setPart c.part
      { (s.cfg c.part).getD PartCfg.initial with mslot := m.map Fin.val, dslot := d.map Fin.val }) }

/-- KEEPER_CHALLENGE whose transfer works: a fresh challenge is outstanding, and goes to the host (R396, R397). -/
def claimKeeperChallenge (c : Call) (s : State) : Meaning :=
  let purpose := c.fld 8 1
  let n := c.fld 9 1
  let e := (engId? n).getD 0
  let r := s.draw 256
  let t := s.keeperTime e
  let msg := challengeMsg e purpose r.1 t
  let w := writeBuffer c r.2 msg []
  { holds :=
      c.passes s
        { used := [(8, 2)], desc := true, p0 := true, needs := if n < 16 then engineBit e else 0,
          bad := [(8, purpose = 0 || 4 < purpose), (9, 15 < n), (60, c.dlen < 64)] } &&
      (s.eng e).keeper.refuseUntil.isNone && (s.eng e).permits purpose && c.fail.isNone,
    result := (w.1.modKeeper e (fun k => { k with challenge := some (msg, t) }), w.2) }

/-- KEEPER_RESPOND to the outstanding challenge: on a digest lane of the engine, a good response takes effect for its purpose,
another one is counted as rejected (R268, R397, R398). -/
def claimKeeperRespond (c : Call) (s : State) : Meaning :=
  let n := c.fld 9 1
  let e := (engId? n).getD 0
  let d := c.data.getD []
  let ch := (s.eng e).keeper.challenge.getD ([], 0)
  let lane := s.shelfLane e .bridge
  let u := lane.2.freeLane e .bridge
  { holds :=
      c.passes s
        { used := [(9, 1)], desc := true, p0 := true, reads := true, needs := if n < 16 then engineBit e else 0,
          bad := [(9, 15 < n), (60, c.dlen ≠ 192)] } &&
      c.data.isSome && (s.eng e).keeper.challenge.isSome && lane.1.isSome,
    result := if u.responseGood e ch d then
        ((u.modKeeper e (fun k => { k with challenge := none, failures := 0 })).acceptPurpose e (byteAt ch.1 16).toNat,
         .ok (withDoneLen [] 192))
      else (u.modKeeper e Keeper.reject, .done .digestMismatch 0xFFFF (withDoneLen [] 192)) }

/-- KEEPER_CLOSE: the debug state of the engine is CLOSED (R398). -/
def claimKeeperClose (c : Call) (s : State) : Meaning :=
  let n := c.fld 9 1
  let e := (engId? n).getD 0
  { holds :=
      c.passes s
        { used := [(9, 1)], p0 := true, bad := [(9, 15 < n)],
          needs := if n < 16 then engineBit e else 0 },
    result := (s.closeDebug e, .ok []) }

/-- MEMBER_QUERY: the view, its members and the record's sequence number (14). -/
def claimMemberQuery (c : Call) (s : State) : Meaning :=
  let m := s.membership
  { holds := c.passes s {},
    result := (s, .ok (putBytes (rspFields [(8, 4, (m.view.map View.num).getD 0),
        (12, 1, (m.view.elim 0xFF (fun v => v.leader.val))), (13, 1, bit m.windowAt.isSome), (14, 2, s.joinedMask.toNat),
        (32, 8, s.record.seq), (40, 8, (m.windowAt.map BitVec.toNat).getD 0),
        (48, 8, (m.view.elim 0 (fun v => v.formedAt.toNat)))])
      8 ((List.finRange 16).map s.memberByte))) }

/-- MEMBER_EXCLUDE: the adoption of a record that excludes the engine starts (R301, R312). -/
def claimMemberExclude (c : Call) (s : State) : Meaning :=
  let n := c.fld 8 1
  let e := (engId? n).getD 0
  { holds :=
      c.passes s
        { used := [(8, 1)], p0 := true, config := true, bad := [(8, 15 < n)] } &&
      9 ≤ maskCount (s.joinedMask &&& ~~~engineBit e),
    result := startAdoption c s { s.record with excluded := s.record.excluded ||| engineBit e,
                                                admitted := s.record.admitted &&& ~~~engineBit e } }

/-- MEMBER_ADMIT: the adoption of a record that no longer excludes the engine, or admits a foreign one, starts (R303). -/
def claimMemberAdmit (c : Call) (s : State) : Meaning :=
  let n := c.fld 8 1
  let e := (engId? n).getD 0
  let foreign := (s.eng e).member.reason = 1
  { holds := c.passes s { used := [(8, 1)], p0 := true, config := true, bad := [(8, 15 < n)] } &&
      (hasEngine s.record.excluded e || foreign),
    result := startAdoption c s
      { s.record with excluded := s.record.excluded &&& ~~~engineBit e,
                      admitted := if foreign then s.record.admitted ||| engineBit e else s.record.admitted } }

/-- TIME_QUERY: shelf time, the source in use, the bound and the offsets (R306–R309). -/
def claimTimeQuery (c : Call) (s : State) : Meaning :=
  let t := s.timeSrc
  let far := (maskEngines s.joinedMask).foldl (fun m e => max m (s.offset e).natAbs) 0
  { holds := c.passes s {},
    result := (s, .ok (rspFields [(8, 8, (s.time c.eng).toNat), (16, 1, timeState t.row),
      (17, 1, if t.timeSet then 5 else t.row), (18, 2, s.suspectMask.toNat), (20, 4, sat32 s.timeBound),
      (24, 4, ((s.offset c.eng) % 4294967296).toNat), (28, 4, sat32 far), (32, 1, t.row)])) }

/-- TIME_SET: with no PTP source in use it runs, to set the time as it completes (R307, R318). -/
def claimTimeSet (c : Call) (s : State) : Meaning where
  holds := c.passes s { used := [(8, 12)], p0 := true, bad := [(16, c.fld 16 4 = 0 || 1000000 < c.fld 16 4)] } &&
    !s.timeSrc.ptp
  result := (s, .wait .timeSet)

/-- LEASE_QUERY: the lease's slot, state, times, runs and free extents; 0xFF without a lease (Table 14-3). -/
def claimLeaseQuery (c : Call) (s : State) : Meaning :=
  let l := s.store.lease
  { holds := c.passes s {},
    result := (s, .ok (if l.state = 0 then rspFields [(8, 1, 0xFF)] else
      rspFields [(8, 1, l.slot), (9, 1, l.state), (16, 8, l.expiry.toNat), (24, 8, l.renewed.toNat),
        (32, 2, l.allot.length), (40, 8, s.freeExtents), (48, 4, l.nextGen)])) }

/-- LEASE_CLAIM: the claim is written to a slot that nobody holds, and the command waits for its check (R315, R318). -/
def claimLeaseClaim (c : Call) (s : State) : Meaning :=
  let n := c.fld 8 1
  let slot := if n = 0xFF then s.freeSlot else some n
  { holds := c.passes s { used := [(8, 1)], p0 := true, config := true, bad := [(8, 15 < n && n ≠ 0xFF)] } &&
      !s.leaseHeld && s.reaches 0 && s.store.lease.state ≠ 1 && slot.isSome && !slot.any s.slotHeld,
    result := (s.claim (slot.getD 0) (some (c.eng, c.key)), .wait .leaseCheck) }

/-- LEASE_RELEASE: the adoption behind the release of the lease starts (R318). -/
def claimLeaseRelease (c : Call) (s : State) : Meaning where
  holds := c.passes s { p0 := true, config := true } && s.leaseHeld &&
    !s.anyCampaign [.drain, .restore, .format]
  result := startAdoption c s s.record

/-! ### Stream commands -/

/-- A written command joins the end of its stream's queue, and its engine wakes (R109, R111). -/
def streamAccepted (op : Nat) (q : StkReq) (s : State) : State :=
  let a : StreamAt := { eng := q.eng, part := q.part, stream := q.stream }
  let task := BitVec.ofNat 8 op :: padTo 55 q.body
  let s1 := (s.touch q.eng).modStream a (fun x => { x with task := task })
  ((s1.modEng q.eng (fun y => { y with orderCount := y.orderCount + 1 })).modStream a (fun x =>
    { x with queue := x.queue ++ [{ task := task, path := q.path, storeClass := x.storeClass,
                                    order := (s1.eng q.eng).orderCount, phase := .queued, waits := Waits.none, lockAt := none,
                                    lockOn := 0, data := [], dataFail := false, tokens := Vector.replicate 4 0 }] })).wake q.eng

/-- The stream row of an opcode is accepted: the stream exists, its window is not being reset, DEPTH is below 8, it is not
halted, and no orderly shutdown runs. -/
def Accepts (op : Nat) (mk : StkReq → Instr) : Prop :=
  ∀ q s, s.reachesWindow q.eng q.part q.path = true → q.stream < s.streams q.part →
    (s.win q.eng q.part).resetting = false →
    (s.stream { eng := q.eng, part := q.part, stream := q.stream }).queue.length < 8 →
    (s.stream { eng := q.eng, part := q.part, stream := q.stream }).halted = false → s.shutdown = none →
    exec (mk q) s = .next (streamAccepted op q s)

/-- A command of a stream meets nothing that stops or holds it, and does its work next. Either it waits in the queue and no
check, fence, low engine, lock or wait of R112, R129–R132 stands against it, or it runs already. It then draws its tokens, has
its data, an A-port that does not pause, and a compression lane where its page needs one. `r` is the run and `u` the state in
which it holds its locks, tokens and lane. -/
def Unhindered (s : State) (a : StreamAt) (i : Nat) (r : Run) (u : State) : Prop :=
  s.streamLive a = true ∧ (s.eng a.eng).runs = true ∧ (s.eng a.eng).power.low = false ∧ r.at_ = a ∧
  (∃ q s1 q1 t, (s.stream a).queue[i]? = some q ∧ s.fenceHolds a i q = false ∧
    ((q.phase = .running ∧ s1 = s) ∨
      (q.phase = .queued ∧ s.streamForm a q = none ∧ s.lowEngines a q = 0 ∧
        (match q.lock (s.part a.part) with
          | some l => s.askLocks a i l = (s1, true)
          | none => s1 = s) ∧
        s1.stateHolds a q = false ∧ s1.streamCheck a q = none)) ∧
    (s1.stream a).queue[i]? = some q1 ∧ s1.runHolds a q1 = false ∧ t = s1.takeAllTokens a i q1 ∧
    (t.stream a).queue[i]? = some r.slot ∧ (r.slot.sends && t.paused a.eng r.slot.path) = false ∧
    t.codes a r.slot = (u, true)) ∧
  (r.slot.dataFail = true ∨ r.slot.lacks = none) ∧ r.slot.dataDone = true

/-- What a reading command delivers to its host buffer (R123). -/
def Run.delivery (r : Run) (bytes : List Byte) : Delivery :=
  { eng := r.at_.eng, part := r.at_.part, path := r.slot.path, addr := BitVec.ofNat 64 (r.slot.fld 0x28 8),
    key := BitVec.ofNat 32 (r.slot.fld 0x0C 4), bytes := bytes, mixed := 0 }

/-- An unhindered command of an opcode, on a condition, ends with a status in the state that `f` gives (R112, R114). -/
def Runs1 (op : Nat) (f : Run → State → Option State) : Prop :=
  ∀ s a i r u v, Unhindered s a i r u → r.slot.op = op → f r u = some v →
    exec (.streamCommandStart a i r.fail) s = .next (v.finishSlot a i .ok (if op = 0x06 && r.slot.len = 0 then
      (((u.part a.part).page? (BitVec.ofNat 64 r.slot.obj)).map KvPage.raw).getD 0 else r.slot.len))

/-- READ delivers the stored bytes of its range; of an ACCUM tensor, its partial sums (R123). -/
def doneRead (r : Run) (u : State) : Option State :=
  match (u.part r.at_.part).tensor? r.slot.obj with
  | some t =>
    let bs := u.readable t r.slot.off r.slot.len
    if bs.2 = none && r.fail.host = none then
      some (u.deliver (r.delivery (if t.cls = 5 then Memory.readBytes t.accMemory r.slot.off r.slot.len else bs.1)))
    else none
  | none => none

/-- A durable write joins the stream log, whose volume can be reached and takes it, before it has its effect (R121, R122, R227).
-/
def Run.logged (r : Run) (u : State) : Option State :=
  if !r.slot.durable then some u
  else if r.fail.store || !u.logReach r.at_.part r.at_.eng then none
  else (u.logKey r.at_.part r.at_.eng).bind (fun key =>
    u.appendLog r.at_.part r.at_.eng r.slot.op r.slot.obj r.slot.off r.slot.data key)

/-- WRITE puts its data into the tensor; with durability it joins the stream log (R121, R122). -/
def doneWrite (r : Run) (u : State) : Option State :=
  match (u.part r.at_.part).tensor? r.slot.obj with
  | some t =>
    if (u.writable t r.slot.off r.slot.data.length).2.isSome || r.slot.dataFail then none
    else (r.logged u).map (fun v => v.writeTensor r.at_.part t r.slot.off r.slot.data)
  | none => none

/-- WEIGHT_PULL delivers the range as it stands once its step has completed (R142). -/
def doneWeightPull (r : Run) (u : State) : Option State :=
  match (u.part r.at_.part).tensor? r.slot.obj with
  | some t =>
    let bs := u.readable t r.slot.off r.slot.len
    if r.slot.epoch ≤ (u.part r.at_.part).step.completed && bs.2 = none && r.fail.host = none then
      some (u.deliver (r.delivery bs.1))
    else none
  | none => none

/-- KV_PUT codes its page under KV_CONFIG and places it (R251). -/
def doneKvPut (r : Run) (u : State) : Option State :=
  let x := u.part r.at_.part
  let key := BitVec.ofNat 64 r.slot.obj
  if r.slot.dataFail || (u.lockedDir r.at_.part r.slot).all u.lost then none
  else u.putPage r.at_.part key r.slot.len (encodeCBlock x.kvMethod.toNat x.kvElem.toNat r.slot.data)

/-- KV_GET delivers the page from its hot copy, else its home copy, and leaves a hot copy as far as stage memory allows; a probe
moves nothing (R117, R249, R252). -/
def doneKvGet (r : Run) (u : State) : Option State :=
  match (u.part r.at_.part).page? (BitVec.ofNat 64 r.slot.obj) with
  | some k =>
    if k.poisoned then none
    else if r.slot.len = 0 then some u
    else match decodeCBlock (k.hot.getD k.home) k.raw none with
    | .ok raw =>
      if r.fail.host = none then
        some ((u.warmPage r.at_.part k.key).deliver (r.delivery raw))
      else none
    | .error _ => none
  | none => none

/-- KV_DROP removes the page (R252). -/
def doneKvDrop (r : Run) (u : State) : Option State :=
  let key := BitVec.ofNat 64 r.slot.obj
  if ((u.part r.at_.part).page? key).isSome then some (u.modPart r.at_.part (fun x => x.delPage key)) else none

/-- RIDER_PUT replaces the whole rider; with durability it joins the stream log (R145, R122). -/
def doneRiderPut (r : Run) (u : State) : Option State :=
  if r.slot.dataFail then none
  else (r.logged u).map (fun v =>
    v.modPart r.at_.part (fun x => { x with riders := assocSet x.riders r.slot.obj r.slot.data }))

/-- RIDER_GET delivers the live rider, or the one that an epoch captured (R145). -/
def doneRiderGet (r : Run) (u : State) : Option State :=
  if r.fail.host = none then
    (assocGet ((u.part r.at_.part).ridersOf r.slot.epoch) r.slot.obj).map (fun b => u.deliver (r.delivery b))
  else none

/-- GRAD_PUSH adds its elements to the sums of the ACCUM tensor and sets its bits; the step is open then, and hot copies give way to
the sums in stage memory (R139, R249). -/
def donePush (r : Run) (u : State) : Option State :=
  let p := r.at_.part
  match (u.part p).tensor? r.slot.obj with
  | some t =>
    if r.slot.dataFail || (u.objectStop p r.slot).isSome || (u.pushStop t r.slot).isSome then none
    else some (((u.modTensor p t.id (fun t => t.push r.slot)).modPart p (fun x =>
      { x with step := { x.step with phase := if x.step.phase = 0 then 1 else x.step.phase } })).trimHots t.place.members)
  | none => none

/-- The pool cells, as (engine, address), of `n` stored bytes of a tensor from an offset and of their parity (R137, R276). -/
def State.cells (s : State) (t : Tensor) (off n : Nat) : List (EngId × Nat) :=
  (List.range n).flatMap (fun i =>
    let k := (off + i) / t.stripeBytes
    let pl := t.home k
    let j := k / pl.data * t.stripeBytes + (off + i) % t.stripeBytes
    (pl.dataEngine k :: (List.range pl.parity).map (pl.parityEngine (k / pl.data))).map (fun e =>
      (e, (s.eng e).phys (pl.addr e j))))

/-- The pool cells that deriving a range of WEIGHT tensors from their MASTER stores to, one tensor after the other (R135). -/
def State.weightCells (s : State) (p : PartId) (m : Tensor) (step first count : Nat) : List Tensor → List (EngId × Nat)
  | [] => []
  | w :: ws =>
    let xs := (s.elemsAt m first count).zipIdx.map (fun (x, i) =>
      (x, roundingOf (s.part p).stochastic step 0 w.rid.toNat (first + i)))
    s.cells w (w.at_ first) (encodeElems w.format xs).length ++
      (s.deriveOne p w step first (s.elemsAt m first count)).weightCells p m step first count ws

/-- The pool cells that a WRITE stores to: those of its range, and for a MASTER those of the WEIGHT elements that derive from
it (R121, R135). -/
def State.writeCells (s : State) (p : PartId) (t : Tensor) (off : Nat) (data : List Byte) : List (EngId × Nat) :=
  s.cells t off data.length ++ (if t.cls = 1 then
    (s.putTensor t off data).weightCells p t (s.part p).step.completed (off / 4) (ceilDiv data.length 4)
      (((s.part p).dependants t.id).filter (fun w => w.cls = 0)) else [])

/-- The stream rows with their opcodes. -/
def streamRows : List (Nat × (StkReq → Instr)) :=
  [(0x01, .read), (0x02, .write), (0x03, .gradPush), (0x04, .weightPull), (0x05, .kvPut), (0x06, .kvGet), (0x07, .kvDrop),
   (0x08, .flush), (0x09, .riderPut), (0x0A, .riderGet), (0x0B, .fence)]

/-- A write to a control register of an existing stream on an engine that serves its window. -/
def StreamServed (s : State) (a : StreamAt) : Prop :=
  s.hasWindow a.eng a.part = true ∧ s.serves a.eng = true ∧ a.stream < s.streams a.part

/-- STK_CTRL of a stream is written with a word: by HALT or RESUME, or as a register through a P-port. -/
def ControlWrites (s : State) (a : StreamAt) (w : Word) (c : Instr) : Prop :=
  (w.getLsbD 0 = true ∧ c = .halt a w) ∨ (w.getLsbD 1 = true ∧ c = .resume a w) ∨
    ∃ path, s.reachesWindow a.eng a.part path = true ∧
      c = .registerWrite { eng := a.eng, part := a.part, path := path, via := .memory } (streamOff a.stream 0x3C) (natLe 4 w.toNat)

/-- A command of a mailbox row ends with a status other than SC_OK and without effect; or it waits, without effect, for the view that
forms without an engine which has left (R299). -/
def Refused (r : Nat × (MbxReq → Instr)) (m : MbxReq) (s : State) (k : MbxKey) (p : PartId) : Prop :=
  (∃ st off, st ≠ .ok ∧ exec (r.2 m) s = .next ((mbxCall m r.1 k p s).finish (s.accepted r.1 m k p, .done st off []))) ∨
  ((∃ x, (s.accepted r.1 m k p).awaitsView m.eng x = true) ∧
    exec (r.2 m) s = .next ((mbxCall m r.1 k p s).finish (s.accepted r.1 m k p, .wait .engine)))

/-- The opcodes that Table 4-1 leaves reserved: those of no mailbox row. -/
def reservedOp (op : Nat) : Bool := op < 256 && !mailboxRows.any (fun r => r.1 = op)

end Sys2Proof.Machine

section Statements

open Sys2Proof Sys2Proof.Machine

/-- A step runs the command at the front of the queue (R82, R109). The queue is the model's form of the commands that arrive.
-/
def Obligations.StepRunsFrontCommand : Prop :=
  ∀ s c rest, s.pending = c :: rest → step s = exec c { s with pending := rest }

/-- On an empty queue one nanosecond passes (the model's choice, log 2) (R306, R376). The model's choice: log 2. -/
def Obligations.EmptyQueuePassesTime : Prop :=
  ∀ s, s.pending = [] → step s = .next s.passTime ∧ s.passTime.now = s.now + 1 ∧ s.passTime.pending = []

/-- Every command of the table answers a next state, and touches neither queue nor clock (R1). That no command stops is a
property of the model: the spec gives each row an effect. -/
def Obligations.EveryCommandRuns : Prop :=
  ∀ c s, ∃ t, exec c s = .next t ∧ t.pending = s.pending ∧ t.now = s.now

/-- The reset state is sound (R389, R411). -/
def Obligations.ResetIsSound : Prop :=
  State.reset.Sound ∧ State.reset.memoriesWf = true

/-- Every step keeps soundness (R198, R389, R411). -/
def Obligations.StepsKeepSoundness : Prop :=
  ∀ s t, s.Sound → step s = .next t → t.Sound

/-- No step lowers a lifecycle or a security version counter, or changes an owner anchor (R389, R411). -/
def Obligations.OneWayStateNeverFalls : Prop :=
  ∀ s t e, s.Sound → step s = .next t →
    (s.eng e).lifecycle ≤ (t.eng e).lifecycle ∧ (t.eng e).lifecycle ≤ 3 ∧
    (s.eng e).fw.counter ≤ (t.eng e).fw.counter ∧ ∀ a, (s.eng e).anchor = some a → (t.eng e).anchor = some a

/-- The tier at power-on: EBB, no pages, KV_CONFIG at its default (R260). -/
def Obligations.TierAtPowerOn : Prop :=
  ∀ s, (s = State.reset ∨ ∃ u cause b, s = State.powerOff u cause b) → s.tide.flood = false ∧ s.tide.turn = 0 ∧
    ∀ p, (s.part p).kv = [] ∧ (s.part p).kvElem = 0x01 ∧ (s.part p).kvMethod = 0

/-- Reset and power-off leave no partition state, no view, empty streams and windows (R29, R134, R335, R363). Values that the
spec gives no reset for are the model's choice (logs 5 to 15). -/
def Obligations.ResetHoldsNoPartitionState : Prop :=
  ∀ s, (s = State.reset ∨ ∃ u cause b, s = State.powerOff u cause b) →
    s.tide.lending = 0 ∧ s.joinedMask = 0 ∧ s.campaigns = [] ∧ s.store.lease = Lease.none ∧
    (∀ p, (s.part p).tensors = [] ∧ (s.part p).riders = [] ∧ (s.part p).policy = none ∧ (s.part p).epochs = [] ∧
      (s.part p).programs = [] ∧ (s.part p).spins = [] ∧ (s.part p).deltaOk = false) ∧
    (∀ e p n, (s.win e p).stream n =
      { task := zeros 56, storeClass := false, haltOnErr := true, lastSc := 0, done := false, halted := false,
        overrun := false, doneTag := 0, doneCount := 0, failOffset := 0, queue := [] }) ∧
    (∀ e p, (s.win e p).dbFlag = Vector.replicate 64 0 ∧ (s.win e p).pflt = 0 ∧ (s.win e p).mbx.job = none) ∧
    (∀ e, (s.eng e).pool = [] ∧ (s.eng e).qps = [] ∧ (s.eng e).fenced = false ∧ (s.eng e).debug = 0)

/-- IDENTIFY, GET_LOG, SET_FEATURE and GET_FEATURE complete as chapter 04 says (R82, R87, R95, R98, R102). -/
def Obligations.AdminCommandsAnswer : Prop :=
  Answers 0x01 .identify claimIdentify ∧
  Answers 0x02 .getLog claimGetLog ∧
  Answers 0x03 .setFeature claimSetFeature ∧
  Answers 0x04 .getFeature claimGetFeature

/-- The firmware commands complete as chapter 20 says (R82, R87, R420, R421). -/
def Obligations.FirmwareCommandsAnswer : Prop :=
  Answers 0x10 .fwDownload claimFwDownload ∧
  Answers 0x11 .fwCommit claimFwCommit ∧
  Answers 0x12 .fwActivate claimFwActivate ∧
  Answers 0x13 .fwQuery claimFwQuery

/-- FORMAT, SANITISE and SANITISE_STATUS complete as chapter 20 says (R82, R413, R414, R422). -/
def Obligations.FormatAndSanitiseCommandsAnswer : Prop :=
  Answers 0x20 .format claimFormat ∧
  Answers 0x21 .sanitise claimSanitise ∧
  Answers 0x22 .sanitiseStatus claimSanitiseStatus

/-- The partition and QoS commands complete as chapter 03 says (R66, R70, R73, R74, R75, R76, R82, R87). -/
def Obligations.PartitionCommandsAnswer : Prop :=
  Answers 0x30 .partCreate claimPartCreate ∧
  Answers 0x31 .partDelete claimPartDelete ∧
  Answers 0x32 .partModify claimPartModify ∧
  Answers 0x33 .partQuery claimPartQuery ∧
  Answers 0x34 .partReset claimPartReset ∧
  Answers 0x35 .qosSet claimQosSet ∧
  Answers 0x36 .qosQuery claimQosQuery

/-- REG_TENSOR, REG_CLASS, STEP_POLICY, RESHAPE, STATE_QUERY and TENSOR_DROP complete as chapter 06 says (R82, R87, R147,
R148, R149, R152, R153, R285). -/
def Obligations.TensorCommandsAnswer : Prop :=
  Answers 0x40 .regTensor claimRegTensor ∧
  Answers 0x41 .regClass claimRegClass ∧
  Answers 0x42 .stepPolicy claimStepPolicy ∧
  Answers 0x43 .reshape claimReshape ∧
  Answers 0x44 .stateQuery claimStateQuery ∧
  Answers 0x45 .tensorDrop claimTensorDrop

/-- EPOCH_CUT, EPOCH_COMMIT, EPOCH_RELEASE, EPOCH_QUERY and REBASE complete as chapter 08 says (R82, R87, R188, R189, R190,
R191, R192). -/
def Obligations.EpochCommandsAnswer : Prop :=
  Answers 0x50 .epochCut claimEpochCut ∧
  Answers 0x51 .epochCommit claimEpochCommit ∧
  Answers 0x52 .epochRelease claimEpochRelease ∧
  Answers 0x53 .epochQuery claimEpochQuery ∧
  Answers 0x54 .rebase claimRebase

/-- The restore commands and RESHARD complete as chapter 13 says (R82, R87, R281, R290, R294). -/
def Obligations.RestoreCommandsAnswer : Prop :=
  Answers 0x60 .restoreOpen claimRestoreOpen ∧
  Answers 0x61 .restoreMap claimRestoreMap ∧
  Answers 0x62 .restoreRun claimRestoreRun ∧
  Answers 0x63 .reshard claimReshard ∧
  Answers 0x64 .restoreQuery claimRestoreQuery ∧
  Answers 0x65 .restoreClose claimRestoreClose

/-- PROG_LOAD, PROG_UNLOAD, SPIN_LOAD, SPIN_UNLOAD and PROG_QUERY complete as chapter 07 says (R82, R87, R170, R171, R172). -/
def Obligations.ProgramCommandsAnswer : Prop :=
  Answers 0x70 .progLoad claimProgLoad ∧
  Answers 0x71 .progUnload claimProgUnload ∧
  Answers 0x72 .spinLoad claimSpinLoad ∧
  Answers 0x73 .spinUnload claimSpinUnload ∧
  Answers 0x74 .progQuery claimProgQuery

/-- TIDE_SET, TIDE_QUERY, KV_CONFIG and KV_QUERY complete as chapters 01 and 11 say (R16, R82, R87, R250, R258). -/
def Obligations.TideAndPageCommandsAnswer : Prop :=
  Answers 0x80 .tideSet claimTideSet ∧
  Answers 0x81 .tideQuery claimTideQuery ∧
  Answers 0x82 .kvConfig claimKvConfig ∧
  Answers 0x83 .kvQuery claimKvQuery

/-- The security and key commands complete as chapter 19 says (R82, R87, R391, R396, R398, R400, R402, R403, R404). -/
def Obligations.KeeperCommandsAnswer : Prop :=
  Answers 0x90 .secQuery claimSecQuery ∧
  Answers 0x91 .provision claimProvision ∧
  Answers 0x92 .seal claimSeal ∧
  Answers 0x93 .retire claimRetire ∧
  Answers 0x94 .keyLoad claimKeyLoad ∧
  Answers 0x95 .keyGenerate claimKeyGenerate ∧
  Answers 0x96 .keyZeroise claimKeyZeroise ∧
  Answers 0x97 .keyBind claimKeyBind ∧
  Answers 0x98 .keeperChallenge claimKeeperChallenge ∧
  Answers 0x99 .keeperRespond claimKeeperRespond ∧
  Answers 0x9A .keeperClose claimKeeperClose

/-- The membership, time and lease commands complete as chapter 14 says (R82, R87, R308, R315, R317, R318). -/
def Obligations.MembershipCommandsAnswer : Prop :=
  Answers 0xA0 .memberQuery claimMemberQuery ∧
  Answers 0xA1 .memberExclude claimMemberExclude ∧
  Answers 0xA2 .memberAdmit claimMemberAdmit ∧
  Answers 0xA3 .timeQuery claimTimeQuery ∧
  Answers 0xA4 .timeSet claimTimeSet ∧
  Answers 0xA5 .leaseQuery claimLeaseQuery ∧
  Answers 0xA6 .leaseClaim claimLeaseClaim ∧
  Answers 0xA7 .leaseRelease claimLeaseRelease

/-- A finished mailbox command is posted; IDENTIFY of the shelf and TIME_SET have their effect as they complete; a hang of the firmware
drops its command (R82, R87, R97, R105, R318). -/
def Obligations.MailboxEvents : Prop :=
  (∀ s e p j rsp, (s.eng e).powered = true → (s.eng e).fenced = false → (s.mailbox e (some p)).job = some j →
    j.phase = .ready rsp →
    let t := ((s.modMailbox e (some p) (fun m => { m with rsp := rsp, job := none, done := true, seq := m.seq + 1 })).errorLog e p
      rsp).signal e p 1 1 0
    exec (.mailboxCompletion e (some p)) s = .next ((t.retryJobs j.part).startJobs e 65)) ∧
  (∀ s e j rsp, (s.eng e).powered = true → (s.eng e).fenced = false → (s.mailbox e none).job = some j → j.phase = .ready rsp →
    let t := (s.modMailbox e none (fun m => { m with rsp := rsp, job := none, done := true, seq := m.seq + 1 })).errorLog e
      (mbxPart none) rsp
    exec (.mailboxCompletion e none) s =
      .next (((if j.lost then t else t.send (.redfishMailbox e rsp)).retryJobs j.part).startJobs e 65)) ∧
  (∀ s e k j, (s.eng e).powered = true → (s.eng e).fenced = false → (s.mailbox e k).job = some j →
    (j.phase = .waiting .view ∨ j.phase = .waiting .timeSet) →
    let r := if j.phase = .waiting .view then writeBuffer (j.call e k) s (s.shelfStruct e) []
      else (s.timeSet (field j.cmd 8 8 + (s.now - j.since)) (field j.cmd 16 4), .ok [])
    let t := (r.1.modMailbox e k (fun m => { m with job := m.job.map (fun j => j.after r.2) })).completeMailbox e k
    exec (.mailboxCompletion e k) s = .next ((t.retryJobs j.part).startJobs e 65)) ∧
  (∀ s e k, (s.mailbox e k).job.isSome = true → (s.eng e).runs = true →
    exec (.firmwareHang e k) s = .next (((s.modMailbox e k (fun m => { m with job := none })).modEng e (fun x =>
      { x with hung := true })).detect e { plainFault 7 0 0 with master := 0x7000 }))

/-- While BUSY is 1, a mailbox ignores writes and sets OVERRUN (R83). -/
def Obligations.BusyMailboxIgnoresCommands : Prop :=
  (∀ r ∈ mailboxRows, ∀ m s k p, (m.path ≠ .redfish ∨ s.runsDirect m.eng (commandBytes r.1 m) = false) →
    s.requestKey m = some (k, p) → (s.mailbox m.eng k).job.isSome = true →
    exec (r.2 m) s = .next (s.modMailbox m.eng k (fun b => { b with overrun := true }))) ∧
  (∀ src s n v, src.via = .memory → s.reachesWindow src.eng src.part src.path = true →
    (s.win src.eng src.part).mbx.job.isSome = true → n < 16 →
    exec (.registerWrite src (0x1000 + 4 * n) (natLe 4 v)) s = .next ((s.touch src.eng).modWin src.eng src.part (fun w =>
      { w with mbx := { w.mbx with overrun := true } })))

/-- The seventeen query commands change nothing but what they deliver, whether they end at once or wait (R82, R95, R98, R299,
R414). -/
def Obligations.QueriesOnlyReport : Prop :=
  ∀ r ∈ mailboxRows, r.1 ∈ ([0x01, 0x02, 0x04, 0x13, 0x22, 0x33, 0x36, 0x44, 0x53, 0x64, 0x74, 0x81, 0x83, 0x90, 0xA0, 0xA3, 0xA5] :
      List Nat) → ∀ m s k p, Starts r.1 m s k p →
    ∃ t z, exec (r.2 m) s = .next ((mbxCall m r.1 k p s).finish (t, z)) ∧
      { t with delivered := s.delivered } = { s.accepted r.1 m k p with delivered := s.delivered }

/-- A command that belongs to partition 0 has no effect from another partition (R88, R90, R93). -/
def Obligations.PartitionZeroCommands : Prop :=
  ∀ r ∈ mailboxRows, r.1 ∈ ([0x10, 0x11, 0x12, 0x20, 0x21, 0x30, 0x31, 0x32, 0x35, 0x63, 0x80, 0x91, 0x92, 0x93, 0x98, 0x99, 0x9A,
      0xA1, 0xA2, 0xA4, 0xA6, 0xA7] : List Nat) → ∀ m s k p, Starts r.1 m s k p → p ≠ 0 → Refused r m s k p

/-- While a sanitise runs, every command in its scope outside the query set has no effect (R93, R285, R414). -/
def Obligations.SanitiseRefusesCommands : Prop :=
  ∀ r ∈ mailboxRows, r.1 ∉ ([0x01, 0x02, 0x04, 0x13, 0x21, 0x22, 0x33, 0x53, 0x81, 0x90, 0xA0, 0xA3, 0xA5] : List Nat) →
    ∀ m s k p, Starts r.1 m s k p → (r.1 = 0x43 → (s.accepted r.1 m k p).reshaping p = false) → s.sanitise.state = 1 →
    (s.sanitise.scope = 0 ∨ s.sanitise.part = p.val) → Refused r m s k p

/-- An engine that is not joined refuses every mailbox command (R56, R285, R311). -/
def Obligations.UnjoinedEnginesRefuse : Prop :=
  ∀ r ∈ mailboxRows, ∀ m s k p, Starts r.1 m s k p → s.joined m.eng = false →
    (r.1 = 0x43 → (s.accepted r.1 m k p).reshaping p = false) →
    ((s.eng m.eng).member.state ≠ 5 →
      exec (r.2 m) s = .next ((mbxCall m r.1 k p s).finish (s.accepted r.1 m k p, .done .notJoined 0xFFFF []))) ∧
    ((s.eng m.eng).member.state = 5 → r.1 ∉ ([0x01, 0x02, 0x04] : List Nat) →
      exec (r.2 m) s = .next ((mbxCall m r.1 k p s).finish (s.accepted r.1 m k p, .done .noQuorum 0xFFFF [])))

/-- A reserved opcode completes with SC_INVALID_OPCODE and does nothing else (R12). -/
def Obligations.ReservedOpcodesAreInvalid : Prop :=
  (∀ op m s k p, Starts op.toNat m s k p → reservedOp op.toNat = true → s.joined m.eng = true →
    (s.eng m.eng).member.state ≠ 5 →
    exec (.reservedOpcode op m) s =
      .next ((mbxCall m op.toNat k p s).finish (s.accepted op.toNat m k p, .done .invalidOpcode 0 []))) ∧
  (∀ s a i q fail, s.streamLive a = true → (s.stream a).queue[i]? = some q → q.phase = .queued → (q.op = 0 ∨ 0x0B < q.op) →
    s.fenceHolds a i q = false → (s.eng a.eng).power.low = false → s.joined a.eng = true →
    (s.eng a.eng).member.state ≠ 5 →
    exec (.streamCommandStart a i fail) s = .next (s.finishSlot a i .invalidOpcode 0))

/-- TIDE_SET of the personality in force, and TIDE_SET during a turn, take no action (R23). -/
def Obligations.TideSetAnswers : Prop :=
  ∀ m s k p, Starts 0x80 m s k p →
    let c := mbxCall m 0x80 k p s
    let u := s.accepted 0x80 m k p
    c.passes u { used := [(8, 1)], p0 := true, bad := [(8, 1 < c.fld 8 1)] } = true →
    (s.tide.turn ≠ 0 → exec (.tideSet m) s = .next (c.finish (u, .done .busy 0xFFFF []))) ∧
    (s.tide.turn = 0 → (c.fld 8 1 = 1 ↔ s.tide.flood = true) →
      ∃ body, exec (.tideSet m) s = .next (c.finish (u, .done .ok 0xFFFF body)))

/-- POWER_CAP takes 0 or 10,000 to 21,000 W (R383). -/
def Obligations.PowerCapValues : Prop :=
  (∀ m s k, Starts 0x03 m s k 0 →
    let c := mbxCall m 0x03 k 0 s
    let u := s.accepted 0x03 m k 0
    let v := c.fld 16 4
    let sp : CmdSpec := { used := [(8, 4), (16, 4)], p0 := true, config := configCommand c.cmd,
                          bad := [(10, c.fld 10 1 ≠ 1), (11, 1 < c.fld 11 1)] }
    c.fld 8 2 = 4 → c.passes u sp = true →
    (v = 0 ∨ (10000 ≤ v ∧ v ≤ 21000) → exec (.setFeature m) s = .next (c.finish (setFeatureValue c u 4 (slice c.cmd 16 32)))) ∧
    (¬(v = 0 ∨ (10000 ≤ v ∧ v ≤ 21000)) → exec (.setFeature m) s = .next (c.finish (u, .done .invalidField 16 [])))) ∧
  (∀ (s : State) v, (s.applyFeature 4 0xFFFF 0 v).powerCap = field v 0 4) ∧ featureDefault 4 = zeros 32 ∧ State.reset.powerCap = 0

/-- A stream command is accepted at the end of its stream's queue (R109, R111). -/
def Obligations.StreamCommandsAreAccepted : Prop :=
  Accepts 0x01 .read ∧ Accepts 0x02 .write ∧ Accepts 0x03 .gradPush ∧ Accepts 0x04 .weightPull ∧ Accepts 0x05 .kvPut ∧
    Accepts 0x06 .kvGet ∧ Accepts 0x07 .kvDrop ∧ Accepts 0x08 .flush ∧ Accepts 0x09 .riderPut ∧ Accepts 0x0A .riderGet ∧
    Accepts 0x0B .fence

/-- Each stream command, when nothing hinders it, has its effect and finishes with SC_OK (R112, R117, R119, R121, R122, R123,
R139, R142, R145, R251, R252). -/
def Obligations.StreamCommandsRun : Prop :=
  Runs1 0x01 doneRead ∧ Runs1 0x02 doneWrite ∧ Runs1 0x04 doneWeightPull ∧ Runs1 0x05 doneKvPut ∧ Runs1 0x06 doneKvGet ∧
    Runs1 0x07 doneKvDrop ∧ Runs1 0x09 doneRiderPut ∧ Runs1 0x0A doneRiderGet ∧ Runs1 0x08 (fun _ u => some u) ∧
    Runs1 0x0B (fun _ u => some u) ∧
    ∀ s a i r u v, Unhindered s a i r u → r.slot.op = 0x03 → donePush r u = some v →
      exec (.streamCommandStart a i r.fail) s = .next ((v.finishSlot a i .ok r.slot.len).wakeJobs a.part [.pushes])

/-- A WRITE leaves every other byte alone, and reading commands store nothing (R121, R123, R135, R137, R276). -/
def Obligations.StreamFrames : Prop :=
  (∀ s a i r u v t, Unhindered s a i r u → r.slot.op = 0x02 → (u.part a.part).tensor? r.slot.obj = some t →
    doneWrite r u = some v →
    ∃ z, exec (.streamCommandStart a i r.fail) s = .next z ∧ ∀ e addr,
      (e, addr) ∉ u.writeCells a.part t r.slot.off r.slot.data → Memory.read (z.eng e).pool addr = Memory.read (s.eng e).pool addr) ∧
  (∀ s a i r u v, Unhindered s a i r u →
    (r.slot.op = 0x01 ∧ doneRead r u = some v ∨ r.slot.op = 0x04 ∧ doneWeightPull r u = some v ∨
      r.slot.op = 0x06 ∧ doneKvGet r u = some v ∨ r.slot.op = 0x0A ∧ doneRiderGet r u = some v ∨
      (r.slot.op = 0x08 ∨ r.slot.op = 0x0B) ∧ v = u) →
    ∃ z, exec (.streamCommandStart a i r.fail) s = .next z ∧
      (∀ e addr, Memory.read (z.eng e).pool addr = Memory.read (s.eng e).pool addr) ∧
      (∀ q, (z.part q).tensors = (s.part q).tensors ∧ (z.part q).riders = (s.part q).riders ∧
        (z.part q).step = (s.part q).step ∧ (z.part q).policy = (s.part q).policy ∧ (z.part q).epochs = (s.part q).epochs ∧
        (r.slot.op ≠ 0x06 → z.part q = s.part q)) ∧
      z.record = s.record ∧ z.store = s.store ∧ z.membership = s.membership)

/-- A command written while DEPTH is 8 is ignored and sets OVERRUN (R110). -/
def Obligations.FullStreamIgnoresCommands : Prop :=
  ∀ q s r, r ∈ streamRows → s.reachesWindow q.eng q.part q.path = true → q.stream < s.streams q.part →
    (s.win q.eng q.part).resetting = false →
    8 ≤ (s.stream { eng := q.eng, part := q.part, stream := q.stream }).queue.length →
    exec (r.2 q) s = .next ((s.touch q.eng).modStream { eng := q.eng, part := q.part, stream := q.stream } (fun x =>
      { x with task := BitVec.ofNat 8 r.1 :: padTo 55 q.body, overrun := true }))

/-- CLASS may change only while DEPTH is 0 (R120). -/
def Obligations.ClassChangesOnlyWhenEmpty : Prop :=
  ∀ s a w c, StreamServed s a → a.stream < 4096 → ControlWrites s a w c →
    (w.getLsbD 2 ≠ (s.stream a).storeClass → (s.stream a).queue ≠ [] →
      exec c s = .next ((s.touch a.eng).modStream a (fun x => { x with overrun := true }))) ∧
    ((s.stream a).queue = [] → ¬(w.getLsbD 0 = true ∧ w.getLsbD 1 = true) →
      ∃ t, exec c s = .next t ∧ (t.stream a).storeClass = w.getLsbD 2)

/-- HALT ends the queued commands, RESUME clears HALTED, both together are ignored (R127, R128). -/
def Obligations.HaltAndResume : Prop :=
  (∀ s a w c, StreamServed s a → a.stream < 4096 → ControlWrites s a w c → w.getLsbD 0 = true → w.getLsbD 1 = true →
    exec c s = .next ((s.touch a.eng).modStream a (fun x => { x with overrun := true }))) ∧
  (∀ s a w c, StreamServed s a → a.stream < 4096 → ControlWrites s a w c → w.getLsbD 0 = false → w.getLsbD 1 = true →
    ((s.stream a).queue = [] ∨ w.getLsbD 2 = (s.stream a).storeClass) →
    exec c s = .next ((s.touch a.eng).modStream a (fun x =>
      { x with storeClass := w.getLsbD 2, haltOnErr := w.getLsbD 3, halted := false }))) ∧
  (∀ s a w c, StreamServed s a → a.stream < 4096 → ControlWrites s a w c → w.getLsbD 0 = true → w.getLsbD 1 = false →
    ((s.stream a).queue = [] ∨ w.getLsbD 2 = (s.stream a).storeClass) →
    ∃ t, exec c s = .next t ∧ (t.stream a).halted = true ∧ (t.stream a).queue = (s.stream a).queue.map (fun q =>
      match q.phase with
      | .queued => q.finish .streamHalted 0
      | _ => q)) ∧
  (∀ q s r, r ∈ streamRows → s.reachesWindow q.eng q.part q.path = true → q.stream < s.streams q.part →
    (s.win q.eng q.part).resetting = false →
    (s.stream { eng := q.eng, part := q.part, stream := q.stream }).queue.length < 8 →
    (s.stream { eng := q.eng, part := q.part, stream := q.stream }).halted = true →
    ∃ t z, exec (r.2 q) s = .next t ∧
      (t.stream { eng := q.eng, part := q.part, stream := q.stream }).queue.getLast? = some z ∧
      z.task = BitVec.ofNat 8 r.1 :: padTo 55 q.body ∧ z.phase = .finished .streamHalted 0)

/-- Completions are posted in order and acknowledged; host data joins its command, which then asks for a compression lane where its
page needs one (R113, R114, R337, R341). -/
def Obligations.StreamEvents : Prop :=
  ((∀ s a q sc off rest, s.streamLive a = true → (s.stream a).queue = q :: rest → q.phase = .finished sc off →
    (s.stream a).done = false →
    let t := s.modStream a (fun x => { x with failOffset := BitVec.ofNat 64 off, doneTag := q.tag,
                                              doneCount := x.doneCount + 1, lastSc := statusCode sc, done := true })
    exec (.streamCompletionPost a) s = .next (match (s.win a.eng a.part).vectorOf a.stream with
      | some v => if q.silent then t else t.signal a.eng a.part v 0 a.stream
      | none => t)) ∧
  (∀ s a, s.streamLive a = true → ((s.stream a).done = true ∨ (s.stream a).queue.head?.all (fun q => !q.isFinished) = true) →
    exec (.streamCompletionPost a) s = .next s) ∧
  (∀ s a, StreamServed s a → (s.stream a).done = true →
    exec (.doneAcknowledge a) s = .next ((s.touch a.eng).modStream a (fun x =>
      { x with done := false, queue := x.queue.drop 1 })))) ∧
  (∀ s a i q q1 data fail, s.streamLive a = true → (s.stream a).queue[i]? = some q → q.takesData = true → q.isFinished = false →
    q.dataFail = false → q.lockOn ≠ 0 → s.fenceHolds a i q = false → (s.eng a.eng).runs = true →
    (s.eng a.eng).power.low = false → s.paused a.eng q.path = false →
    (q.phase = .running ∨ (q.phase = .queued ∧ s.streamForm a q = none ∧ s.lowEngines a q = 0 ∧ s.stateHolds a q = false ∧
      s.streamCheck a q = none)) →
    min data.length (q.len - q.data.length) ≤ 4194304 →
    let need := ceilDiv (q.data.length + min data.length (q.len - q.data.length)) 4096
    ((s.takeTokens a i 0 need).stream a).queue[i]? = some q1 → need ≤ q1.tokens[0] →
    let q2 : Slot := { q1 with data := q1.data ++ data.take (q.len - q.data.length), dataFail := fail, phase := .running,
                               waits := Waits.none }
    let s2 := (s.takeTokens a i 0 need).modSlot a i (fun _ => q2)
    exec (.hostDataFetch a i data fail) s = .next (if q2.dataDone then (s2.codes a q2).1 else s2))

/-- WEIGHT_PULL of a step to come waits with WAIT_STATE set (R118, R142, R154). -/
def Obligations.WeightPullWaitsForItsStep : Prop :=
  ∀ s a i q s1 fail, s.streamLive a = true → (s.eng a.eng).runs = true → (s.eng a.eng).power.low = false →
    (s.stream a).queue[i]? = some q → q.phase = .queued → q.op = 0x04 → s.fenceHolds a i q = false →
    s.streamForm a q = none → s.lowEngines a q = 0 →
    s.askLocks a i { kind := 0, cls := 0, obj := q.obj, lo := q.off, hi := q.off + q.len } = (s1, true) →
    (s.part a.part).step.completed < q.epoch → (s.part a.part).step.phase ≠ 4 →
    exec (.streamCommandStart a i fail) s = .next (s1.modSlot a i (fun x =>
      { x with waits := { lock := false, token := false, power := false, state := true } }))

/-- Register writes of a window reach their register, and EVR_EN starts the ring; an atomic operation gets a NAK, a request with a
PASID prefix completes as unsupported, and a configuration write reaches its function's registers (R32, R36, R37, R62, R65, R426,
R427). -/
def Obligations.WindowAccesses : Prop :=
  (∀ src s off v, src.via = .memory → s.reachesWindow src.eng src.part src.path = true → s.listed src.part off = true → regAt off = (off, 4) →
    exec (.registerWrite src off (natLe 4 v)) s =
      .next ((s.touch src.eng).writeReg src.eng src.part src.path off 4 (v % 2 ^ 32))) ∧
  (∀ src s off data, s.reachesWindow src.eng src.part src.path = false → exec (.registerWrite src off data) s = .next s) ∧
  (∀ src s n v, src.via = .memory → s.reachesWindow src.eng src.part src.path = true → n < 64 →
    exec (.registerWrite src (0x800 + 8 * n) (natLe 8 v)) s = .next ((s.touch src.eng).modWin src.eng src.part (fun w =>
      { w with dbFlag := Vector.ofFn (fun i => if i.val = n then BitVec.ofNat 64 v else w.dbFlag[i]) }))) ∧
  (∀ src s, src.via = .memory → s.reachesWindow src.eng src.part src.path = true →
    (s.win src.eng src.part).ints.ring.en = false →
    exec (.evrEnable src) s = .next ((s.touch src.eng).modRing src.eng src.part (fun r =>
      { r with en := true, sBase := r.base, sRkey := r.rkey, sQpn := r.qpn, sLog2 := r.log2, prod := 0, phase := true,
               disabled := false }))) ∧
  (∀ src s off data n, src.via = .atomic → src.path = .aport n → s.reachesWindow src.eng src.part src.path = true →
    exec (.registerWrite src off data) s = .next (s.send (.nak src.eng n))) ∧
  (∀ src s off data i, src.via = .pasid → src.path = .pport i → s.reachesWindow src.eng src.part src.path = true →
    exec (.registerWrite src off data) s =
      .next ((s.send (.unsupported src.eng i.val src.part)).aerError src.eng i src.part 0x00100000#32)) ∧
  (∀ src s off data i reg, src.via = .config reg → src.path = .pport i → s.reachesWindow src.eng src.part src.path = true →
    exec (.registerWrite src off data) s = .next (s.modEng src.eng (fun x =>
      { x with funcs := x.funcs.set i.val (x.funcs[i].set src.part.val ((x.funcs[i][src.part]).write reg (leNat data))
          src.part.isLt) i.isLt })))

/-- A write that names no register, or that the rights do not reach, changes nothing but is detected (R62, R357, R426, R427).
-/
def Obligations.UnreachedRegistersAreFaults : Prop :=
  (∀ src s off v, src.via = .memory → s.reachesWindow src.eng src.part src.path = true → s.listed src.part off = false → regAt off = (off, 4) →
    exec (.registerWrite src off (natLe 4 v)) s =
      .next (((s.touch src.eng).setPflt src.eng src.part 4).detect src.eng
        { blk := 9, src := 0, unit := 0, addr := BitVec.ofNat 64 off, master := s.accessMaster src.part off, access := 0x1,
          part := some src.part, status := 0, clear := false })) ∧
  (∀ src s, src.via = .memory → s.reachesWindow src.eng src.part src.path = true → s.expert src.part = false →
    (∀ w, exec (.nmxGo src w) s = .next ((s.touch src.eng).badAccess src.eng src.part 0x100000)) ∧
    (∀ off, exec (.xlateStart src off) s = .next ((s.touch src.eng).badAccess src.eng src.part 0x100018)) ∧
    (∀ w list fail, exec (.dgxGo src w list fail) s = .next ((s.touch src.eng).badAccess src.eng src.part 0x108080)) ∧
    (∀ n, n < 0x8000 → ∀ v, exec (.registerWrite src (0x100000 + n / 4 * 4) (natLe 4 v)) s = .next
      ((s.touch src.eng).badAccess src.eng src.part (0x100000 + n / 4 * 4))))

/-- Held events, ring failure, coalescing and pending MSI-X act as chapter 03 says (R63, R64, R65, R79). -/
def Obligations.InterruptEvents : Prop :=
  (∀ s e p, s.hasWindow e p = true → s.serves e = true → exec (.heldEventsRelease e p) s = .next (s.ringFlush e p 33)) ∧
  (∀ s e p, s.hasWindow e p = true → s.serves e = true → (s.win e p).ints.ring.en = true →
    let q := (s.win e p).ints.ring.sQpn.toNat
    exec (.evrFailure e p) s = .next (((s.modRing e p (fun r => { r with disabled := true })).modEng e (fun x =>
      { x with qps := x.qps.map (fun c => if c.num = q && c.part = p then { c with ready := false } else c) })).detect e
        { plainFault 9 2 0 with access := 0x7, part := some p })) ∧
  (∀ s e p v ev rest, s.hasWindow e p = true → s.serves e = true → (s.win e p).ints.coal[v] = ev :: rest →
    ev.time.toNat + 1000 * (s.win e p).ints.coalUsec v ≤ (s.time e).toNat →
    exec (.coalesceTimeout e p v) s = .next ((s.setCoal e p v []).route e p v (ev :: rest))) ∧
  (∀ s e p v (port : Fin 2), s.hasWindow e p = true → s.serves e = true → (s.win e p).ints.routeOf v = port.val →
    exec (.msixPendingRelease e p v) s = .next (if s.msixOpen e p port v && (s.win e p).ints.pba.getLsbD v.val then
      (s.modWin e p (fun w => { w with ints := { w.ints with pba := setBit w.ints.pba v.val false } })).toMsix e p port v
    else s))

/-- Function-level resets, reset-done and QoS ticks act as chapter 03 says (R37, R68, R70, R77). -/
def Obligations.PartitionResets : Prop :=
  ((∀ s e port p, s.hasWindow e p = true → s.serves e = true →
    exec (.functionLevelReset e port p) s = .next ((s.modEng e (fun x =>
      { x with funcs := x.funcs.set port.val (x.funcs[port].set p.val
          { enable := false, mask := false, mps := 128, mrrs := 512, aerUnc := x.funcs[port][p].aerUnc,
            aerCor := x.funcs[port][p].aerCor } p.isLt) port.isLt })).startReset p e true false)) ∧
  (∀ s p r, (s.part p).resetting = some r → s.resetDue p = true → r.delete = false → r.next = false →
    exec (.resetDone p) s = .next (s.finishReset p r)) ∧
  (∀ s p r, (s.part p).resetting = some r → s.resetDue p = true → r.delete = true →
    exec (.resetDone p) s = .next (((s.finishReset p r).deletePartition p).answerJobs (fun j =>
      j.waitsFor .resetDone && j.op = 0x31 && field j.cmd 8 1 = p.val) .ok [])) ∧
  (∀ s p r, (s.part p).resetting = some r → s.resetDue p = true → r.delete = false → r.next = true →
    exec (.resetDone p) s = .next ((s.finishReset p r).startReset p r.eng true true)) ∧
  (∀ s p, (s.part p).resetting = none ∨ s.resetDue p = false → exec (.resetDone p) s = .next s) ∧
  (∀ s e, s.joined e = true → (s.eng e).tickAt ≤ (s.time e).toNat / 10000 →
    exec (.qosTick e) s = .next (((List.finRange 4).foldl (fun s i => s.tickPool e i) s).modEng e (fun x =>
      { x with tickAt := (s.time e).toNat / 10000 + 1 })))) ∧
  (∀ s e port p r, s.hasWindow e p = true → s.serves e = true → (s.part p).resetting = some r →
    ∃ t, exec (.functionLevelReset e port p) s = .next t ∧
      (t.part p).resetting = some { r with cancel := true })

/-- Queue pairs, links, pauses and congestion marks act as chapters 02 and 16 say (R30, R33, R34, R53, R59). -/
def Obligations.PortEvents : Prop :=
  (∀ s e port p gid data qpn mtu, (s.eng e).runs = true → ((s.eng e).ports[(Fin.ofNat 22 port.val : Fin 22)]).linkUp = true →
    (s.eng e).qps.any (fun q => q.num = qpn) = false → partId? (byteAt data 0).toNat = some p → s.joined e = true →
    s.hasWindow e p = true → (s.cfg p).any (fun c => c.gids.contains gid) = true → (s.eng e).qps.length < 16384 →
    1024 ≤ mtu →
    let m := if 4096 ≤ mtu then 4096 else if 2048 ≤ mtu then 2048 else 1024
    exec (.rdmaConnectRequest e port true gid data { qpn, mtu }) s = .next (((s.windowKey e p).2.modEng e (fun x =>
      { x with qps := x.qps ++ [{ num := qpn, part := p, port := port.val, mtu := m, ready := true, cuts := 0, lastCnp := none }] })
        ).send (.connectAccept e qpn (s.windowKey e p).1 0x1000000))) ∧
  (∀ s e port rc gid data qpn mtu, (s.eng e).runs = true →
    ((s.eng e).ports[(Fin.ofNat 22 port.val : Fin 22)]).linkUp = true →
    (s.eng e).qps.any (fun q => q.num = qpn) = false → (s.admitsQp e rc gid data = none ∨ mtu < 1024) →
    exec (.rdmaConnectRequest e port rc gid data { qpn, mtu }) s = .next (s.send (.connectReject e))) ∧
  (∀ s e port rate width flit, (s.eng e).portsRun = true → ((s.eng e).ports[port]).fenced = false →
    ((s.eng e).ports[port]).linkUp = false → modeAllowed port.val rate.val width.val flit = true →
    let t := s.modEng e (fun x => x.modPort port (fun q => q.up rate.val width.val flit x.clock.now))
    exec (.linkUp e port (.trained rate width flit)) s = .next (if portKind port.val = 1 then t.reconnect else t)) ∧
  (∀ s e port, (s.eng e).portsRun = true → ((s.eng e).ports[port]).fenced = false → ((s.eng e).ports[port]).linkUp = false →
    exec (.linkUp e port .none) s = .next (s.detect e
      { plainFault 8 1 port.val with master := BitVec.ofNat 16 (0x8000 + port.val) })) ∧
  (∀ s e port errs, (s.eng e).portsRun = true → ((s.eng e).ports[port]).linkUp = true →
    let t := (s.modEng e (fun x => x.modPort port (fun q => (q.errors errs).down x.clock.now))).detect e
      { plainFault 8 0 port.val with master := BitVec.ofNat 16 (0x8000 + port.val) }
    exec (.linkDown e port { retrain := false, errs }) s = .next (if 16 ≤ port.val && port.val < 20 then t.pruneQueues else t)) ∧
  (∀ s e port errs, (s.eng e).portsRun = true → ((s.eng e).ports[port]).linkUp = true →
    let t := s.modEng e (fun x => x.modPort port (fun q => (q.errors errs).retrain s.now))
    exec (.linkDown e port { retrain := true, errs }) s = .next (if 16 < ((t.eng e).ports[port]).storms.length then
      t.detect e { plainFault 8 3 port.val with master := BitVec.ofNat 16 (0x8000 + port.val) } else t)) ∧
  (∀ s e (port : Fin 20) dur, let n : Fin 22 := Fin.ofNat 22 port.val
    (s.eng e).portsRun = true → ((s.eng e).ports[n]).linkUp = true → ((s.eng e).ports[n]).pfcOn = true →
    exec (.pfcPauseReceived e port dur) s = .next (s.modEng e (fun x =>
      { x with ports := x.ports.set n.val { x.ports[n] with pausedUntil := s.now + dur } n.isLt }))) ∧
  (∀ s e (port : Fin 20) fill, (s.eng e).portsRun = true → ((s.eng e).ports[(Fin.ofNat 22 port.val : Fin 22)]).linkUp = true →
    ((s.eng e).ports[(Fin.ofNat 22 port.val : Fin 22)]).pfcOn = true →
    exec (.pfcPauseSend e port fill) s = .next (if 75 < fill then s.send (.pause e port.val ((s.eng e).ports[(Fin.ofNat 22 port.val : Fin 22)]).pfcPrio) else s)) ∧
  (∀ s e qpn q, (s.eng e).portsRun = true → (s.eng e).qps.find? (fun q => q.num = qpn) = some q → q.ready = true →
    (∀ t, q.lastCnp = some t → t + 50000 ≤ s.now) →
    exec (.ecnCeReceived e qpn) s = .next ((s.modQp e qpn (fun q => { q with lastCnp := some s.now })).send (.cnp e qpn))) ∧
  (∀ s e qpn, (s.eng e).portsRun = true → (s.eng e).qps.any (fun q => q.num = qpn) = true →
    exec (.cnpReceived e qpn) s = .next (s.modQp e qpn (fun q => if q.ready then { q with cuts := q.cuts + 1 } else q))) ∧
  (∀ s e qpn t, (s.eng e).portsRun = true → (s.eng e).qps.any (fun q => q.num = qpn) = false → s.sportPair e qpn = some t →
    exec (.cnpReceived e qpn) s = .next (s.modPair t (fun c => { c with cuts := c.cuts + 1 })) ∧
    ((∀ v n, s.volume t.1 = some v → (v.pair t.2.1 t.2.2).lastCnp = some n → n + 50000 ≤ s.now) →
      exec (.ecnCeReceived e qpn) s = .next ((s.modPair t (fun c => { c with lastCnp := some s.now })).send (.cnp e qpn))))

/-- A step begins, gathers statistics, updates and ends as chapter 06 says; a spin takes its slot (R141, R143, R154, R168). -/
def Obligations.StepEngineEvents : Prop :=
  (∀ s p pol, (s.part p).step.phase = 1 → (s.part p).policy = some pol → (s.part p).bitmapsFull = true →
    exec (.stepBegin p) s = .next (s.modPart p (fun x =>
      let y := x.adoptPolicy
      { y with step := { y.step with phase := 2, gscale := polWord (y.policy.getD []) 48 } }))) ∧
  (∀ s p, (s.part p).step.phase = 2 → (s.part p).foundNonfinite = false → (s.part p).resharding = false →
    ((s.part p).cut = none ∨ (s.part p).step.scale ≠ none) →
    exec (.statisticsComplete p) s = .next (s.modPart p (fun x =>
      let y := x.adoptPolicy
      { y with step := { y.step with phase := 3, clip := x.clipFactor (y.policy.getD []), spun := s.residents p } }))) ∧
  (∀ s p, (s.part p).step.phase = 2 → (s.part p).foundNonfinite = true →
    ((s.part p).cut = none ∨ (s.part p).step.scale ≠ none) →
    exec (.statisticsComplete p) s = .next (s.nonfiniteStep p)) ∧
  (∀ s p u, (s.part p).step.phase = 3 → s.canUpdate p ((s.part p).policy.getD []) = true →
    (s.part p).masters.any (fun m => ((s.part p).stepTensors ((s.part p).policy.getD []) m).any s.stripeGone) = false →
    s.updateAll p ((s.part p).policy.getD []) = some u →
    exec (.stepComplete p) s = .next ((u.modPart p Partition.endStep).stepEnded p)) ∧
  (∀ s p, (s.part p).step.phase = 3 → s.canUpdate p ((s.part p).policy.getD []) = true →
    (s.part p).masters.any (fun m => ((s.part p).stepTensors ((s.part p).policy.getD []) m).any s.stripeGone) = true →
    exec (.stepComplete p) s = .next (s.failUpdate p)) ∧
  (∀ s e p handle g, (s.part p).step.phase = 3 → (s.part p).stepProgram = some g →
    ((s.part p).spinsNamed (parseFxp g.bytes)).contains handle = true →
    (s.eng e).resident.toList.any (fun r => r.any (fun v => v.part = p && v.handle = handle)) = false →
    hasEngine (s.members p) e = true → s.lost e = false →
    exec (.spinSwap e p handle) s = .next ((s.modEng e (fun y =>
      { y with uses := y.uses + 1,
               resident := y.resident.set y.spinSlot (some { part := p, handle := handle, used := y.uses + 1 }) })).modPart p (fun x =>
        { x with step := { x.step with spun := (e.val, handle.toNat) :: x.step.spun } })))

/-- Gates, the cut instant and the copier act as chapter 08 says (R181, R182, R185). -/
def Obligations.CutEvents : Prop :=
  (∀ s p e d, (s.part p).cut = some d → hasEngine (s.liveMembers p) e = true → (s.part p).step.holdsCut = false →
    exec (.cutGateMessage p e) s = .next ((s.modPart p (fun x =>
      { x with cut := some { d with gates := d.gates ||| engineBit e } })).wake e)) ∧
  (∀ s p d u ep, (s.part p).cut = some d → (s.part p).step.holdsCut = false →
    s.liveMembers p &&& ~~~d.gates = 0 → s.changing p = false → (s.part p).step.phase ≠ 4 → (s.part p).tensors ≠ [] →
    s.cutNow p d = (u, some ep) →
    exec (.cutInstant p) s =
      .next (((if d.reseed then u.reseeded p else u).answerCut d .ok (cutResponse ep)).wakeJobs p [.step])) ∧
  (∀ s p d, (s.part p).cut = some d → (s.part p).step.holdsCut = false → s.liveMembers p &&& ~~~d.gates = 0 →
    s.changing p = false → ((s.part p).step.phase = 4 ∨ (s.part p).tensors = []) →
    exec (.cutInstant p) s = .next (s.dropCut p d)) ∧
  (∀ s p d, (s.part p).cut = some d →
    ((s.part p).step.holdsCut = true ∨ s.liveMembers p &&& ~~~d.gates ≠ 0 ∨ s.changing p = true) →
    exec (.cutInstant p) s = .next s) ∧
  (∀ s p n ep, (s.part p).epoch? n = some ep → ep.state = 1 → ep.paused = false →
    (s.part p).epochs.any (fun q => q.state = 1 && q.n < n) = false → s.walkOver p ep = true →
    exec (.copierDone p n) s = .next (((s.modEpoch p n (fun q =>
      ({ q with state := 2, walk := [], copied := [] } : Epoch).refresh)).wakeJobs
      p [.copier]).kickReshards)) ∧
  (∀ s p n ep, (s.part p).epoch? n = some ep → ep.paused = true → ep.state ≠ 6 →
    exec (.copierResume p n) s = .next (s.stageEpoch p n))

/-- A drain writes shards, verifies them, builds the manifest, commits and retires as chapter 10 says, over lanes and STORE tokens
that it holds (R72, R223, R229, R230, R231, R235, R236, R237, R268, R341). -/
def Obligations.Drains : Prop :=
  ((∀ s p n i ep h s1 s2 ptr u, (s.part p).draining n = some ep → ep.shards[i]? = some h → h.objLen ≠ 0 → h.phase = 0 →
    s.mayWrite = true → s.payShard p n i (s.keyEngine h.src) h = (true, s1) →
    s1.codecLane (s.keyEngine h.src) (.drain p n i) = (s2, true) → s2.takeBlocks (blocksFor h.objLen) = some (ptr, u) →
    s2.storeGoes (ptrVol ptr) = true →
    (let w := u.modEng (s.keyEngine h.src) (fun x => x.dropBlock (.drain p n i))
     exec (.shardWriteComplete p n i .ok) s = .next ((((w.writePtr ptr h.obj false).setShard p n i (fun h =>
      { h with ptr := ptr, phase := 1, flushed := (w.volume (ptrVol ptr)).all (fun x => !x.cache), paid := 0 })).flushDrain p n
        h.src).modEpoch p n Epoch.refresh)) ∧
    exec (.shardWriteComplete p n i .mediaError) s = .next (u.setShard p n i (fun h => h.again ptr)) ∧
    exec (.shardWriteComplete p n i .transportError) s = .next (s2.loseConnection (ptrVol ptr))) ∧
  (∀ s p n i ep h s1 s2 res, (s.part p).draining n = some ep → ep.shards[i]? = some h → h.objLen ≠ 0 → h.phase = 0 →
    s.mayWrite = true → s.payShard p n i (s.keyEngine h.src) h = (true, s1) →
    s1.codecLane (s.keyEngine h.src) (.drain p n i) = (s2, true) → s2.takeBlocks (blocksFor h.objLen) = none →
    exec (.shardWriteComplete p n i res) s = .next (s2.mgmtFault (s.keyEngine h.src) 6)) ∧
  (∀ s p n i ep h b s1 l s2, (s.part p).draining n = some ep → ep.shards[i]? = some h → h.phase = 1 → h.flushed = true →
    s.verifyWaits p n i ep h = (false, s1) → s1.shelfLane (s.keyEngine h.src) (.shard p n i) = (some l, s2) →
    let s3 := (if ep.verify = 1 then s2.storeRead h.ptr (blocksFor h.objLen) else s2).freeLane (s2.keyEngine h.src) (.shard p n i)
    (h.verifies ep.verify b = true →
      let t := ((h.old.foldl (fun s o => s.freeRun o) s3).setShard p n i (fun h =>
        { h with phase := 2, obj := [], old := [] })).modEng (Fin.ofNat 16 h.src) (fun x =>
          { x with epochUsed := x.epochUsed - h.objLen })
      exec (.shardVerified p n i { got := .bytes b, upset := none }) s =
        .next ((if ep.paused then t else t.stageEpoch p n).endPlainDrain p n)) ∧
    (h.verifies ep.verify b = false →
      let t := (s3.setShard p n i (fun h => { h.again h.ptr with fails := h.fails + 1 })).modEpoch p n (fun q =>
        { q with status := if ep.verify = 1 then .readbackMismatch else .digestMismatch })
      exec (.shardVerified p n i { got := .bytes b, upset := none }) s =
        .next (if ((t.part p).epoch? n).any (fun q => q.shards[i]?.any (fun h => 3 ≤ h.fails)) then t.failEpoch p n
          else t.modEpoch p n Epoch.refresh))) ∧
  (∀ s p n e ep gen i k l s1 ptr u, (s.part p).draining n = some ep → ep.gen = some gen → ep.commit = true → ep.state = 4 →
    ep.shards.all (fun h => h.phase = 2) = true → ep.manifest = [] → s.mayStamp e = true → s.mayWrite = true →
    ep.mslot = some i → s.keyOf e p i 2 = some k → s.shelfLane e (.seal p n) = (some l, s1) →
    let m := manifestBytes p ep gen k.key ((ep.dslot.bind (fun j => s.keyOf e p j 3)).elim 0 KeySlot.keyId) ep.dslot.isSome
    (s1.freeLane e (.seal p n)).takeBlocks (blocksFor m.length) = some (ptr, u) → s.storeGoes (ptrVol ptr) = true →
    exec (.manifestBuild p n { eng := e, res := .ok }) s = .next ((u.writePtr ptr (padTo (roundUp m.length blockBytes) m) true).modEpoch p n
      (fun q => { q with manifest := m, mptr := ptr, mchecked := false })) ∧
    exec (.manifestBuild p n { eng := e, res := .mediaError }) s = .next (u.modEpoch p n (fun q => { q with mold := ptr :: q.mold }))) ∧
  (∀ s p n ep b l s1, (s.part p).draining n = some ep → ep.manifest ≠ [] → ep.mchecked = false →
    s.storeGoes (ptrVol ep.mptr) = true → s.shelfLane s.firstJoined (.check p n) = (some l, s1) →
    let t := (s1.storeRead ep.mptr (blocksFor ep.manifest.length)).freeLane s.firstJoined (.check p n)
    (sha256 b = sha256 ep.manifest ∧ b.drop (b.length - 48) = ep.manifest.drop (ep.manifest.length - 48) →
      exec (.manifestReadback p n { got := .bytes b, upset := none }) s =
        .next (t.modEpoch p n (fun q => { q with mchecked := true, tries := 0 }))) ∧
    (sha256 b ≠ sha256 ep.manifest →
      exec (.manifestReadback p n { got := .bytes b, upset := none }) s = .next ((t.modEpoch p n (fun q =>
        { q with manifest := [], mptr := 0, mold := q.mptr :: q.mold })).commitFails p n))) ∧
  (∀ s p n e ep gen g, (s.part p).draining n = some ep → ep.gen = some gen → s.readGen gen = some g → ep.mchecked = true →
    s.mayStamp e = true → s.mayWrite = true → s.baseCommitted gen ep = true → s.storeGoes (ptrVol (ringPtr g n)) = true →
    exec (.commitRecordWritten p n e .ok) s = .next ((s.writePtr (ringPtr g n) (commitRecord p e ep gen (s.time e)) true
      ).committed p n e gen ep (s.time e)) ∧
    exec (.commitRecordWritten p n e .mediaError) s = .next (s.commitFails p n) ∧
    exec (.commitRecordWritten p n e .transportError) s = .next (s.loseConnection (ptrVol (ringPtr g n)))) ∧
  (∀ s p n g, (s.liveGens.filter (fun g => genPart g.2 = p.val)).find? (fun g => s.mayWrite && (s.retirable g.1).contains n &&
      !s.restoreReads g.1 n && s.reachesEpoch g.1 n) = some g →
    exec (.epochRetire p n) s = .next (s.retireEpoch g.1 n)) ∧
  (∀ s p n, ((s.part p).draining n).isSome = true →
    exec (.drainRetry p n) s = .next ((s.reconnect.freeWaiting).resumeDrains))) ∧
  (∀ s p n e ep gen g, (s.part p).draining n = some ep → ep.gen = some gen → s.readGen gen = some g → ep.mchecked = true →
    s.mayStamp e = true → s.mayWrite = true → s.baseCommitted gen ep = true → s.storeGoes (ptrVol (ringPtr g n)) = true →
    ∃ t q, exec (.commitRecordWritten p n e .ok) s = .next t ∧ (t.part p).epoch? n = some q ∧ q.state = 5 ∧
      q.commitTime = s.time e ∧ q.pinned = false ∧ q.campaign = none ∧ n ≤ (t.part p).lastCommitted ∧
      (∀ j, j ≠ p → t.part j = s.part j))

/-- Flood and ebb turns act as chapters 01 and 11 say (R17, R25, R26, R256, R257). -/
def Obligations.TideEvents : Prop :=
  (∀ s p, s.wantsFinal p = true → (s.part p).hasTwins = true → (s.part p).cutless = false → s.ownCutWaits p = false →
    exec (.finalEbbCut p) s = .next (s.ownCut p true)) ∧
  (∀ s p, s.wantsFinal p = true → (s.part p).hasTwins = true → (s.part p).cutless = true →
    exec (.finalEbbCut p) s = .next { s with tide := { s.tide with held := setBit s.tide.held p.val true,
                                                                   waits := setBit s.tide.waits p.val false } }) ∧
  (∀ s p, s.wantsFinal p = true → (s.part p).hasTwins = false →
    exec (.finalEbbCut p) s = .next { s with tide := { s.tide with waits := setBit s.tide.waits p.val false } }) ∧
  (∀ s p, s.tide.flood = true → s.tide.turn ≠ 2 → s.tide.ready.getLsbD p.val = true → (s.part p).hasTwins = true →
    (s.part p).pins = false → (s.part p).epochs.any (fun ep => ep.state = 1) = false →
    (s.tide.held.getLsbD p.val = false ∨ s.tide.turn = 0) →
    let t := { s.tide with lending := setBit s.tide.lending p.val true, held := setBit s.tide.held p.val false,
                           waits := setBit s.tide.waits p.val false, ready := setBit s.tide.ready p.val false }
    exec (.partitionLend p) s = .next { s with tide := t }) ∧
  (∀ s, s.tide.turn = 1 → (∀ p ∈ s.partIds, s.tide.waits.getLsbD p.val = true → (s.part p).hasTwins = false) →
    exec .floodTurnComplete s = .next ({ s with tide := { s.tide with turn := 0, completed := s.shelfTime } }).tideEvent) ∧
  (∀ s p, s.tide.turn = 2 → s.tide.waits.getLsbD p.val = true → s.dropLent.lentPages p = false → (s.part p).hasTwins = true →
    (s.part p).cutless = false → s.dropLent.ownCutWaits p = false →
    exec (.reseedCut p) s = .next (s.dropLent.ownCut p false)) ∧
  (∀ s p, s.tide.turn = 2 → s.tide.waits.getLsbD p.val = true → s.dropLent.lentPages p = false →
    ((s.part p).hasTwins = false ∨ (s.part p).cutless = true) →
    exec (.reseedCut p) s = .next ((s.dropLent.reseeded p).modPart p (fun x => { x with nextFull := true }))) ∧
  (∀ s, s.tide.turn = 2 → (∀ p ∈ s.partIds, s.tide.waits.getLsbD p.val = false) →
    exec .ebbTurnComplete s = .next ({ s with tide := { s.tide with turn := 0, completed := s.shelfTime } }).tideEvent)

/-- Stripes move, re-shards and rebuilds end or start, and restores complete or fail as chapter 13 says (R279, R281, R283, R291,
R295). -/
def Obligations.ReshardEvents : Prop :=
  (∀ s p tid stripe r t d, (s.part p).reshard = some r → (s.part p).tensor? tid.toNat = some t → t.dest = some d →
    (s.part p).resharding = true → s.reshardHit p r = false → stripe < t.stripes → t.moved.contains stripe = false →
    t.place.dataEngine stripe ≠ d.dataEngine stripe →
    exec (.stripeMoveComplete p tid stripe) s = .next (s.moveStripe p t stripe)) ∧
  (∀ s p r, (s.part p).reshard = some r → (s.part p).resharding = true → s.reshardHit p r = false →
    (s.part p).tensors.all Tensor.allMoved = true →
    (r.members = s.members p → exec (.reshardComplete p) s = .next (s.endReshard p r)) ∧
    (r.members ≠ s.members p → s.recordChanging = false → exec (.reshardComplete p) s =
      .next (s.adopt (s.record.setPart p { (s.cfg p).getD PartCfg.initial with members := r.members }) [] p none))) ∧
  (∀ s p, s.exists_ p = true → (s.part p).rebuildWait = true → s.partDead p = false → s.configInProgress = false →
    (s.part p).reshard = none → (s.fencedOf p ≠ 0 ∨ (s.part p).gone ≠ 0) → (s.part p).canReshard = true →
    (s.part p).epochs.any (fun ep => ep.state = 2) = false → s.campaignsFull = false →
    s.parity + 1 ≤ maskCount (s.liveMembers p &&& ~~~(s.part p).gone) →
    exec (.rebuildStart p) s = .next (s.rebuildOrWait p
      { members := s.liveMembers p &&& ~~~(s.part p).gone, parity := s.parity, rebuild := true, campaign := none,
        requester := none })) ∧
  (∀ s p r s1 s2 bad, (s.part p).restore = some r → r.state = 2 → maskCount (s.fencedOf p) ≤ s.parity →
    (∀ v, v < s.store.volumes.length → s.storeGoes v = true) → s.payRestore p r = (true, s1) →
    s1.restoreLanes p = (true, s2) →
    exec (.restoreComplete { part := p, bad }) s = .next ((s2.finishRestore p r bad).endLanes p)) ∧
  (∀ s p r bad, (s.part p).restore = some r → r.state = 2 → s.parity < maskCount (s.fencedOf p) →
    exec (.restoreComplete { part := p, bad }) s = .next (s.failRestore p .fenced))

/-- Near-memory programs, translation, windows and temperatures act as chapter 09 says (R206, R207, R208, R209, R211, R212, R213,
R214, R216). -/
def Obligations.NearMemoryEvents : Prop :=
  (∀ src s w st i, src.via = .memory → s.reachesWindow src.eng src.part src.path = true → s.expert src.part = true →
    let t := (s.touch src.eng).modNmx src.eng src.part (fun n => n.control w)
    (t.win src.eng src.part).nmx.busy = false →
    t.nmxCheck src.eng src.part (t.win src.eng src.part).nmx = some (st, i) →
    exec (.nmxGo src w) s = .next (t.endNmx src.eng src.part st i)) ∧
  (∀ src s w, src.via = .memory → s.reachesWindow src.eng src.part src.path = true → s.expert src.part = true →
    let t := (s.touch src.eng).modNmx src.eng src.part (fun n => n.control w)
    let n := (t.win src.eng src.part).nmx
    n.busy = false → t.nmxCheck src.eng src.part n = none →
    exec (.nmxGo src w) s = .next ((t.modNmx src.eng src.part (fun m =>
      { m with busy := true, prog := n.program 1024 n.start.toNat, next := 0, row := 0, failed := none })).lockNmx
      src.eng src.part)) ∧
  (∀ s e p (last : Fin 1024), s.serves e = true → (s.eng e).power.low = false →
    let s1 := s.lockNmx e p
    let n := (s1.win e p).nmx
    n.busy = true → n.locked = true →
    (∀ st, n.failed = some (st, last.val) → exec (.nmxComplete e p last) s = .next (s1.endNmx e p st last.val)) ∧
    (∀ q b, n.failed = none → n.prog.length ≤ n.next → n.prog = q ++ [(last.val, b)] →
      exec (.nmxComplete e p last) s = .next (s1.endNmx e p .ok 0))) ∧
  (∀ src s off t a, src.via = .memory → s.reachesWindow src.eng src.part src.path = true → s.expert src.part = true →
    (s.part src.part).tensor? (s.win src.eng src.part).nmx.xTid.toNat = some t → off.toNat < t.bytes →
    (s.touch src.eng).translate t off.toNat = (src.eng, a) →
    exec (.xlateStart src off) s = .next ((s.touch src.eng).modNmx src.eng src.part (fun n =>
      { n with xOff := off, xPool := BitVec.ofNat 64 a.1, xArray := arrayWord (undoAddr a.1), xValid := true,
               xEngine := BitVec.ofNat 4 src.eng.val, xProtected := a.2 }))) ∧
  (∀ s e (ch : Fin 16) out, s.windowable e ch = true → ((s.eng e).channels[ch]).slot ≠ some (s.now / 65536) →
    let s1 := s.modChannel e ch (fun c =>
      { c with processor := true, since := s.now, stuck := out.stuck, slot := some (s.now / 65536),
               budget := levelBudget c.level - c.borrowed - 2 * c.refresh.length, borrowed := 0, acts := [], refresh := [] })
    let s2 := ((s1.partIds.filter (fun p => s1.hasWindow e p)).foldl (fun s p => s.lockNmx e p) s1).copyWindow e ch
    exec (.maintenanceWindow e { ch, out }) s = .next (s2.expertRows e ch out 0 ((s2.eng e).channels[ch]).budget)) ∧
  (∀ s e (ch : Fin 16) out, (s.windowable e ch = false ∨ ((s.eng e).channels[ch]).slot = some (s.now / 65536)) →
    exec (.maintenanceWindow e { ch, out }) s = .next s) ∧
  (∀ s e ch out, s.windowable e ch = true →
    exec (.demandWindow e { ch, out }) s = .next (s.partIds.foldl (fun s p =>
      ((s.part p).epochs.filter (fun ep => ep.state = 1)).foldl (fun s ep =>
        (s.waitedBlocks p ep e ch).foldl (fun s b => s.demandOne p ep.n e ch out.stuck b) s) s) s)) ∧
  (∀ s e ch, s.serves e = true → ((s.eng e).channels[ch]).processor = true → ((s.eng e).channels[ch]).stuck = true →
    ((s.eng e).channels[ch]).since + 10000 ≤ s.now →
    exec (.modeTimeout e ch) s = .next ((s.modChannel e ch (fun c => { c with processor := false, stuck := false })).detect e
      { plainFault 4 4 ch.val with access := 0xB })) ∧
  (∀ s e m temp, (s.eng e).powered = true →
    exec (.moduleTempSample e m temp) s = .next (s.sampleSensors e (26 + m.val) [temp]))

/-- Digest jobs start, finish, are preempted and resume as chapter 12 says (R259, R268, R269, R272, R273, R274). -/
def Obligations.DigestEvents : Prop :=
  (∀ src s w list fail, src.via = .memory → s.reachesWindow src.eng src.part src.path = true → s.expert src.part = true →
    let t := (s.touch src.eng).modWin src.eng src.part (fun x => { x with dgx := x.dgx.control w })
    let d := (t.win src.eng src.part).dgx
    let raw := chunks 32 (padTo (32 * min 4096 (jobFrags d.job)) list)
    let r := dgxJob d src.path raw ((t.eng src.eng).jobKey d.job).gen s.now
    d.run = none →
    exec (.dgxGo src w list fail) s = .next (match t.dgxCheck src.eng src.part r raw fail with
      | some (st, i) => t.endDgx src.eng src.part st i
      | none => (t.modWin src.eng src.part (fun x => { x with dgx := { x.dgx with run := some r } })).grantLanes src.eng)) ∧
  (∀ s e p host upset r lane msg, s.serves e = true → (s.eng e).power.low = false →
    ((s.grantLanes e).win e p).dgx.run = some r → r.lane = some lane → ((s.grantLanes e).eng e).keyLost r = none →
    (s.grantLanes e).gather p none r.frags.zipIdx host = (msg, none) →
    exec (.dgxComplete e p host none upset) s = .next (((s.grantLanes e).finishDgx e p r lane msg upset).grantLanes e)) ∧
  (∀ s e (lane : Fin 64) j w, (s.eng e).lanes[lane] = some j → s.serves e = true →
    (s.eng e).digestWaits.any (fun v => v.cls < j.work.cls && ((s.eng e).freeLanes ((s.eng e).workAlg v)).isEmpty) = true →
    j.since + 10000 ≤ s.now → (s.eng e).contexts.length < 256 →
    (s.eng e).digestWaits.find? (fun v => some v.cls = (s.eng e).waitingClass) = some w →
    let t := s.modEng e (fun x =>
      { x with contexts := x.contexts ++ [{ work := j.work, bytes := x.savedBytes j.work }],
               digestWaits := x.digestWaits.filter (fun v => v ≠ w),
               lanes := x.lanes.set lane.val (some { work := w, since := s.now }) lane.isLt })
    exec (.digestPreempt e lane) s = .next (match j.work with
      | .dgx p => t.modRun e p (fun r => { r with lane := none, saved := true })
      | _ => t)) ∧
  (∀ s e ctx c l u, (s.eng e).contexts[ctx]? = some c → s.serves e = true →
    (s.eng e).digestWaits.any (fun w => w.cls < c.work.cls) = false →
    s.pick ((s.eng e).freeLanes ((s.eng e).workAlg c.work)) = (some l, u) →
    let t := u.modEng e (fun x => { x with contexts := x.contexts.eraseIdx ctx })
    exec (.digestResume e ctx) s = .next (match c.work with
      | .dgx p => t.giveLane e p l
      | w => t.modEng e (fun x => { x with lanes := x.lanes.mapIdx (fun i j =>
          if i = l then some { work := w, since := s.now } else j) }))) ∧
  (∀ s e (lane : Fin 64), s.serves e = true → exec (.digestLaneFail e lane) s = .next ((s.detect e
    { plainFault 2 2 lane.val with master := BitVec.ofNat 16 (0x3000 + lane.val) }).grantLanes e)) ∧
  (∀ s e (lane : Fin 32), s.serves e = true → exec (.compressLaneFail e lane) s = .next ((s.detect e
    { plainFault 3 2 lane.val with master := BitVec.ofNat 16 (0x4000 + lane.val) }).pruneLanes e))

/-- Heartbeats, proposals, views, departures, joins and the split window act as chapter 14 says (R297, R298, R305, R311,
R312). -/
def Obligations.Membership : Prop :=
  ((∀ s e heard, s.serves e = true →
    let ls := (maskEngines heard).filter (fun x => x ≠ e && s.serves x)
    exec (.heartbeat e heard) s = .next ((e :: ls).foldl (fun s x => s.noteQuorum x) (ls.foldl (fun s x => s.modEng x (fun y =>
      { y with member := { y.member with heard := y.member.heard.set e.val s.now e.isLt,
                                         unreachable := setBit y.member.unreachable e.val false } })) s))) ∧
  (∀ s e (peer : EngId), s.serves e = true → e ≠ peer → (s.eng e).member.heard[peer] + 20000000 ≤ s.now →
    exec (.peerUnreachable e peer) s = .next ((List.finRange 16).foldl (fun s x => if s.serves x then s.noteQuorum x else s)
      (s.modEng e (fun x =>
        { x with member := { x.member with unreachable := x.member.unreachable ||| (1#16 <<< peer.val) } })))) ∧
  (∀ s e t, s.joined e = true → (s.eng e).member.lostSince = some t → t + 100000000 ≤ s.now →
    exec (.noQuorum e) s = .next (s.loseQuorum e)) ∧
  (∀ s leader, let set := s.proposalSet leader
    let num := max s.membership.lastView (s.eng leader).member.accepted + 1
    s.leader? = some leader → 9 ≤ maskCount set → (∀ v, s.membership.view = some v → ¬(v.set = set ∧ v.formed = set)) →
    num ≤ 0xFFFFFFFF → s.longLost set = true → (∀ q, s.membership.proposal = some q → q.leader ≠ leader) →
    let q : Proposal := { num := num, set := set, leader := leader, accepted := 0, since := s.now }
    exec (.propose leader) s = .next (({ s with membership := { s.membership with proposal := some q } }).accept leader)) ∧
  (∀ s e q, s.membership.proposal = some q → s.serves e = true → hasEngine q.set e = true →
    (s.eng e).member.accepted < q.num → (∀ x ∈ maskEngines q.set, s.reachesPeer e x = true) →
    let t := s.modEng e (fun x => { x with member := { x.member with accepted := q.num } })
    exec (.proposeReceived e) s = .next { t with membership :=
      { t.membership with proposal := some { q with accepted := q.accepted ||| engineBit e } } }) ∧
  (∀ s q, s.membership.proposal = some q → q.accepted = q.set → s.now ≤ q.since + 10000000 →
    exec .viewFormed s = .next (s.newView q.num q.set)) ∧
  (∀ s q, s.membership.proposal = some q → q.accepted ≠ q.set → q.since + 10000000 ≤ s.now → q.num < 0xFFFFFFFF →
    9 ≤ maskCount (q.accepted ||| engineBit q.leader) →
    let r : Proposal := { num := q.num + 1, set := q.accepted ||| engineBit q.leader, leader := q.leader, accepted := 0,
                          since := s.now }
    exec .viewProposeTimeout s = .next (({ s with membership := { s.membership with proposal := some r } }).accept q.leader)) ∧
  (∀ s e reason st, s.joined e = true →
    ((reason = 3 ∧ st = 4) ∨ (reason = 4 ∧ st = 4) ∨ (reason = 5 ∧ st = 7) ∨ (reason = 6 ∧ st = 6)) →
    exec (.departureAnnouncement e reason) s = .next (s.leave e st reason)) ∧
  (∀ s e c, s.joined e = false → s.mayOffer e = true → 9 ≤ maskCount s.joinedMask → s.membership.lastView ≠ 0xFFFFFFFF →
    (∀ x ∈ maskEngines s.joinedMask, s.reachesPeer e x = true ∧ s.reachesPeer x e = true) →
    (c = .engineJoin e ∨ (c = .timeJoinRecheck e ∧ (s.eng e).member.state = 4 ∧ (s.eng e).member.reason = 3)) →
    (s.disagrees s.joinedMask e = none →
      exec c s = .next (s.newView (s.membership.lastView + 1) (s.joinedMask ||| engineBit e))) ∧
    ∀ r, r ≠ 0 → s.disagrees s.joinedMask e = some r → exec c s = .next (s.modEng e (fun x =>
      { x with member := { x.member with state := (if r = 5 then 7 else 4), reason := r } })))) ∧
  (∀ s a b, s.membership.windowAt.isSome = true → s.membership.windowSince + 7200000000000 ≤ s.now → s.minors = [a, b] →
    let at_ (v : Byte) : List EngId := (maskEngines s.joinedMask).filter (fun e => (s.eng e).fw.minor = v)
    ((at_ a).length < (at_ b).length → 9 + (at_ a).length ≤ maskCount s.joinedMask → at_ a ≠ [] →
      exec .splitWindowExpiry s = .next ((at_ a).foldl (fun s e => s.leave e 4 4) s)) ∧
    ((at_ b).length < (at_ a).length → 9 + (at_ b).length ≤ maskCount s.joinedMask → at_ b ≠ [] →
      exec .splitWindowExpiry s = .next ((at_ b).foldl (fun s e => s.leave e 4 4) s)) ∧
    (((at_ a).length = (at_ b).length ∨ maskCount s.joinedMask < 9 + min (at_ a).length (at_ b).length) →
      s.membership.splitHeld = false → exec .splitWindowExpiry s = .next
        (({ s with membership := { s.membership with splitHeld := true } }).mgmtFault s.firstJoined 8)))

/-- A configuration record is prepared, committed and made current in two phases (R301). -/
def Obligations.ConfigurationAdoption : Prop :=
  (∀ s a answers, s.adoption = some a → a.commit = false → s.joinedMask &&& ~~~(a.acked ||| (answers &&& s.joinedMask)) ≠ 0 →
    exec (.configPrepare answers) s = .next { s with adoption := some { a with acked := a.acked ||| (answers &&& s.joinedMask) } }) ∧
  (∀ s a answers, s.adoption = some a → a.commit = false → s.joinedMask &&& ~~~(a.acked ||| (answers &&& s.joinedMask)) = 0 →
    let b : Adoption := { a with acked := a.acked ||| (answers &&& s.joinedMask), commit := true, since := s.now }
    exec (.configPrepare answers) s = .next { s with adoption := some b }) ∧
  (∀ s a answers, s.adoption = some a → a.commit = true → s.joinedMask &&& ~~~(a.current ||| (answers &&& s.joinedMask)) = 0 →
    exec (.configCommit answers) s = .next
      (((({ s with record := a.record, adoption := none } : State).modEngines s.joinedMask (fun _ x =>
        { x with record := some a.record.seq })).memberEvent 5 0xFF 0).applyConfig
          { a with current := a.current ||| (answers &&& s.joinedMask) } s.record)) ∧
  (∀ s a answers, s.adoption = some a → a.commit = true → s.joinedMask &&& ~~~(a.current ||| (answers &&& s.joinedMask)) ≠ 0 →
    let b : Adoption := { a with current := a.current ||| (answers &&& s.joinedMask) }
    exec (.configCommit answers) s = .next { s with adoption := some b }) ∧
  (∀ s a e, s.adoption = some a → s.joined e = true → hasEngine (if a.commit then a.current else a.acked) e = false →
    a.since + 1000000000 ≤ s.now →
    ∃ t, exec (.configPhaseTimeout e) s = .next t ∧
      (a.commit = true → exec (.configCommit 0) (s.leave e 4 7) = .next t) ∧
      (a.commit = false → exec (.configPrepare 0) (s.leave e 4 7) = .next t)) ∧
  (∀ s e, (∀ a, s.adoption = some a → s.joined e = false ∨ hasEngine (if a.commit then a.current else a.acked) e = true ∨
      s.now < a.since + 1000000000) → exec (.configPhaseTimeout e) s = .next s)

/-- Time of day, offsets, sources and TIME_SUSPECT act as chapter 14 says (R44, R307, R308, R309, R310). -/
def Obligations.TimeEvents : Prop :=
  (∀ s tai, s.plant.powered = true → s.scmUp = true →
    let u := s.modEngines 0xFFFF (fun _ x => if x.powered then
      { x with clock := x.clock.takeStep, keeper := { x.keeper with rtc := x.clock.takeStep.now.toNat } } else x)
    let v : State := { u with timeSrc := { u.timeSrc with todSet := u.timeSrc.todSet || u.timeSrc.row = 0 } }
    exec (.taiEdge tai) s = .next (v.steerAll (v.edgeTime tai) false).noteCalm) ∧
  (∀ s tai, s.plant.powered = true → s.scmUp = false →
    let u := s.modEngines 0xFFFF (fun _ x => if x.powered then
      { x with clock := x.clock.takeStep, keeper := { x.keeper with rtc := x.clock.takeStep.now.toNat } } else x)
    exec (.taiEdge tai) s = .next u.steerToMedian.noteCalm) ∧
  (∀ s drift, let u := s.modEngines 0xFFFF (fun e x =>
      if !x.powered then x
      else if 0 ≤ drift[e] then { x with clock := { x.clock with now := x.clock.now + BitVec.ofInt 64 drift[e] } }
      else { x with clock := { x.clock with slew := x.clock.slew + drift[e] } })
    exec (.offsetMeasure drift) s = .next (if s.scmUp then u else u.steerToMedian).noteCalm) ∧
  (∀ s, exec (.timeSourceLoss .ptp) s = .next (({ s with timeSrc := { s.timeSrc with ptp := false } }).selectSource.noteCalm) ∧
    exec (.timeSourceLoss .pps) s = .next (({ s with timeSrc := { s.timeSrc with pps := false } }).selectSource.noteCalm) ∧
    exec (.timeSourceLoss .tenMhz) s = .next (({ s with timeSrc := { s.timeSrc with ten := false } }).selectSource.noteCalm)) ∧
  (∀ s src tai, let u := ({ s with timeSrc := (match src with
        | .ptp => { s.timeSrc with ptp := true }
        | .pps => { s.timeSrc with pps := true }
        | .tenMhz => { s.timeSrc with ten := true }) }).selectSource
    (u.timeSrc.row = s.timeSrc.row ∨ 1 < u.timeSrc.row → exec (.timeSourceLock src tai) s = .next u.noteCalm) ∧
    (u.timeSrc.row ≠ s.timeSrc.row → u.timeSrc.row ≤ 1 →
      let v : State := { u with timeSrc := { u.timeSrc with todSet := u.timeSrc.todSet || u.timeSrc.row = 0 } }
      exec (.timeSourceLock src tai) s = .next (v.steerAll (v.edgeTime tai) true).noteCalm)) ∧
  (∀ s e, (s.eng e).powered = true → (s.eng e).clock.suspect = false → 50000 < s.skew e →
    let t := s.modEng e (fun x => { x with clock := { x.clock with suspect := true, calmSince := none } })
    exec (.timeSuspectSet e) s = .next (if s.joined e then t.memberEvent 8 e.val 0 else t)) ∧
  (∀ s e c, (s.eng e).powered = true → (s.eng e).clock.suspect = true → s.timeSrc.todSet = true → s.skew e ≤ 25000 →
    (s.eng e).clock.calmSince = some c → c + 1000000000 ≤ s.now →
    let t := s.modEng e (fun x => { x with clock := { x.clock with suspect := false } })
    exec (.timeSuspectClear e) s = .next (if s.joined e then t.memberEvent 9 e.val 0 else t)) ∧
  (∀ s e, s.joined e = true → 5000000 < (s.offset e).natAbs → exec (.timeLeave e) s = .next (s.leave e 4 3)) ∧
  (∀ s width tai, 50 ≤ width → s.timeSrc.pps = true → s.timeSrc.row = 1 →
    exec (.ppsPulse width tai) s = .next (s.steerAll (s.edgeTime tai) false).noteCalm) ∧
  (∀ s width tai, width < 50 → exec (.ppsPulse width tai) s = .next s)

/-- Leases are checked, renewed and extended as chapter 14 says (R315, R316, R317, R322). -/
def Obligations.LeaseEvents : Prop :=
  (∀ s got t, s.store.lease.state = 1 → s.reaches 0 = true → s.adoption = none → s.store.lease.claimAt = some t →
    t + 15000000000 ≤ s.now →
    exec (.leaseClaimCheck got) s = .next (if (s.overwriteSlot got).nonceStands then (s.overwriteSlot got).claimed
      else (s.overwriteSlot got).claimLost)) ∧
  (∀ s got, s.store.lease.state = 2 → s.reaches 0 = true → (s.overwriteSlot got).nonceStands = true →
    let u := s.overwriteSlot got
    let l : Lease := { s.store.lease with expiry := u.shelfTime + 60000000000, renewed := u.shelfTime,
                                          seq := s.store.lease.seq + 1 }
    exec (.leaseRenew true got) s = .next ((({ u with store := { u.store with lease := l } }).writeLease 1).freeWaiting)) ∧
  (∀ s got, s.store.lease.state = 2 → s.reaches 0 = true → (s.overwriteSlot got).nonceStands = false →
    let u := s.overwriteSlot got
    let l : Lease := { s.store.lease with state := 3 }
    exec (.leaseRenew true got) s =
      .next ((({ u with store := { u.store with lease := l } }).memberEvent 12 0xFF 0).mgmtFault u.firstJoined 5)) ∧
  (∀ s others r, let u := s.othersWrote others
    s.mayWrite = true → s.reaches 0 = true → u.store.lease.extendAt = none → u.store.lease.allot.length < 64 →
    (∀ t, u.store.lease.retryAt = some t → t ≤ s.now) →
    (u.store.lease.allot = [] ∨ u.freeExtents * 100 < u.allotted ∨ u.drainWaits = true) → u.nextRun = some r →
    let l : Lease := { u.store.lease with allot := u.store.lease.allot ++ [r], seq := u.store.lease.seq + 1,
                                          extendAt := some u.now, retryAt := none }
    exec (.allotExtend others) s = .next (({ u with store := { u.store with lease := l } }).writeLease 1)) ∧
  (∀ s others t, let u := s.othersWrote others
    s.mayWrite = true → s.reaches 0 = true → u.store.lease.extendAt = some t → t + 15000000000 ≤ s.now →
    (u.extendLoses = false → let l : Lease := { u.store.lease with extendAt := none }
      exec (.allotExtendCheck others) s =
        .next ((({ u with store := { u.store with lease := l } }).memberEvent 14 0xFF 0).resumeDrains)) ∧
    (u.extendLoses = true → let v := u.draw 64
      let l : Lease := { u.store.lease with allot := u.store.lease.allot.dropLast, seq := u.store.lease.seq + 1, extendAt := none,
                                            retryAt := some (s.now + 1000000000 + v.1.toNat % 9000000001) }
      exec (.allotExtendCheck others) s = .next (({ v.2 with store := { v.2.store with lease := l } }).writeLease 1))) ∧
  (∀ s others i, s.store.step9 = false → 9 ≤ maskCount s.joinedMask → s.targets.isEmpty = false →
    s.store.volumes.all (fun x => s.carries x) = true →
    let u := (s.othersWrote others).attachAll
    u.superblockFits 0 = true → u.store.lease.state ≠ 1 → u.store.lease.state ≠ 2 →
    (∀ t, u.store.lease.retryAt = some t → t ≤ u.now) → u.reaches 0 = true → u.ownSlot = some i →
    exec (.startupLeaseClaim others) s = .next (u.claim i none))

/-- Faults are detected, cleared, forced and locked as chapter 17 says (R348, R356, R360, R362, R366, R367, R368). -/
def Obligations.FaultEvents : Prop :=
  (∀ s e f, (s.eng e).powered = true → f.unit < blockUnits f.blk.val →
    let t := ((s.consequence e f).detect e f).countUe e f
    exec (.faultDetect e f) s = .next (if (t.eng e).fenced || f.blk.val = 8 then t.pruneQueues else t).kickReshards) ∧
  (∀ s e (ch : Fin 16), ((s.eng e).flt[(4 : Fin 11)]).isFenced ch.val = true → s.lost e = false →
    let rows := (s.eng e).lostRows.filter (fun r => r.2 = ch.val)
    rows ≠ [] →
    let t := rows.foldl (fun s r => s.rebuildRow e r.1 r.2) s
    (t.eng e).lostRows.filter (fun r => r.2 = ch.val) = [] →
    exec (.ddrChannelRebuild e ch) s = .next ((t.endCampaign ((t.campaigns.find? (fun c => c.kind = .ddr)).map Campaign.id)).faultLog
      e (faultEntry (s.time e) (plainFault 4 0 ch.val) 1 6 ((s.eng e).avail 4)))) ∧
  (∀ s (e peer : EngId), e ≠ peer → (((s.eng e).flt[(6 : Fin 11)]).isFenced peer.val = true ∨
      ((s.eng peer).flt[(6 : Fin 11)]).isFenced e.val = true) →
    (s.eng e).powered = true → (s.eng e).spare = none → ((s.eng e).flt[(6 : Fin 11)]).isFenced e.val = false →
    (s.eng peer).powered = true → (s.eng peer).spare = none → ((s.eng peer).flt[(6 : Fin 11)]).isFenced peer.val = false →
    exec (.spareGroupSwitch e peer) s = .next ((s.modEng e (fun x => { x with spare := some peer })).modEng peer (fun x =>
      { x with spare := some e }))) ∧
  (∀ s e blk bits, (s.eng e).powered = true → exec (.faultClear e blk bits) s = .next (s.clearFaults e blk bits)) ∧
  (∀ s e blk bits, s.serves e = true → exec (.faultInject e blk bits) s = .next (s.injectFaults e blk bits)) ∧
  (∀ s e (blk : Fin 11), s.serves e = true → exec (.fltLock e blk) s = .next (s.modEng e (fun x =>
    { x with flt := x.flt.set blk.val { x.flt[blk] with lock := true } blk.isLt }))) ∧
  (∀ s e c, s.joined e = true → exec (.cycleCheck e (some c)) s = .next (if c.rerunnable then
      s.detect e { plainFault 7 3 0 with master := 0x7000 }
    else c.masters.foldl (fun s m => s.detect e { plainFault 7 4 0 with master := m }) s)) ∧
  (∀ s e, exec (.cycleCheck e none) s = .next s)

/-- A detected fault acts at the severity its source has (R353, R356, R359, R363, R365). -/
def Obligations.FaultSeverities : Prop :=
  ∀ (s : State) e d sev, (s.eng e).powered = true → d.clear = false → s.masked e d = false →
    levelSource d.blk.val d.src.val = false → sev = ((s.eng e).flt[d.blk]).sevOf d.src.val →
    (sev = 0 → s.detect e d = s) ∧
    (sev = 1 → (((s.detect e d).eng e).flt[d.blk]).status = ((s.eng e).flt[d.blk]).status ||| (1#32 <<< d.src.val) ∧
      ((s.eng e).hung = false →
        ((s.detect e d).eng e).logs.fault.getLast? = some (faultEntry (s.time e) d 1 0 ((s.eng e).avail d.blk))) ∧
      ((s.eng e).hung = true → ((s.detect e d).eng e).logs.fault = (s.eng e).logs.fault) ∧
      (s.detect e d).outbox = s.outbox ∧ ((s.detect e d).eng e).fenced = (s.eng e).fenced) ∧
    (sev = 2 → ((s.detect e d).eng e).fenced = (s.eng e).fenced ∧
      (((s.detect e d).eng e).flt[d.blk]).status = ((s.eng e).flt[d.blk]).status ||| (1#32 <<< d.src.val) ∧
      (s.plant.scm[s.plant.activeScm] ≠ .failed →
        (s.detect e d).outbox.head? = some (.redfishEvent (some e) d.blk.val d.src.val) ∧
        ((s.eng e).hung = false → ∃ n, (s.detect e d).redfishLog = n :: s.redfishLog ∧ n.1 = e.val))) ∧
    (3 ≤ sev → engineBlock d.blk = true ∨ sev = 4 →
      s.detect e d = ((s.actLog e d sev false false).actNotify e d).fenceEngine e d sev) ∧
    (sev = 3 → engineBlock d.blk = false →
      s.detect e d = ((s.actLog e d 3 false false).actNotify e d).fenceUnit e d 3)

/-- Once LOCK is set, FLT_SEV ignores writes until engine reset (R367). -/
def Obligations.LockedSeveritiesIgnoreWrites : Prop :=
  (∀ s e (blk : Fin 11), s.serves e = true → ∃ t, exec (.fltLock e blk) s = .next t ∧ ((t.eng e).flt[blk]).lock = true) ∧
  (∀ src s (blk : Fin 11) o v, src.via = .memory → s.reachesWindow src.eng src.part src.path = true → src.part = 0 →
    ((s.eng src.eng).flt[blk]).lock = true → o ∈ [0x08, 0x0C, 0x10, 0x14] →
    ∃ t, exec (.registerWrite src (0x10A000 + 0x100 * blk.val + o) (natLe 4 v)) s = .next t ∧
      ((t.eng src.eng).flt[blk]) = ((s.eng src.eng).flt[blk])) ∧
  (∀ src s (blk b : Fin 11) v, src.via = .memory → s.reachesWindow src.eng src.part src.path = true → src.part = 0 →
    ((s.eng src.eng).flt[blk]).lock = true →
    ∃ t, exec (.registerWrite src (0x10A000 + 0x100 * b.val + 0x18) (natLe 4 v)) s = .next t ∧
      ((t.eng src.eng).flt[blk]).lock = true) ∧
  (∀ x e off (blk : Fin 11), ((Engine.restart x e off).flt[blk]).lock = false)

/-- Low states, sensors, the power cap and clock levels act as chapter 18 says (R131, R373, R376, R377, R378, R380). -/
def Obligations.PowerEvents : Prop :=
  (∀ s e since, s.joined e = true → (s.eng e).runs = true → s.idle e = true → (s.eng e).power.exitDue = none →
    (s.eng e).power.idleSince = some since →
    let st := idleState (s.eng e).power.inForce (s.now - since)
    (s.eng e).power.state < st →
    exec (.idleTimerExpiry e) s = .next (s.modEng e (fun x => { x with power := { x.power with state := st } }))) ∧
  (∀ s e, (s.eng e).powered = true → (s.eng e).power.low = true → exec (.powerExit e) s = .next (s.wake e)) ∧
  (∀ s e t, (s.eng e).power.low = true → (s.eng e).power.exitDue = some t → t ≤ s.now →
    let u := (s.modEng e (fun x =>
      { x with power := { x.power with state := 0, exitDue := none, idleSince := none } })).startJobs e 65
    let v := u.powerWaits.foldl (fun s q => s.tryStream q.1 q.2 { store := false, host := none }) u
    exec (.powerExitComplete e) s = .next (((List.finRange 64).foldl (fun s p => s.lockNmx e p) v).grantLanes e)) ∧
  (∀ s e temps draw cell, (s.eng e).powered = true → exec (.sensorSample e temps { draw, cell }) s =
    let u := (s.modEng e (fun x => { x with power := { x.power with draw := draw } })).sampleSensors e 0 temps
    .next ((u.modEng e (fun x => { x with keeper := { x.keeper with cellMv := cell } })).levelFault e (plainFault 10 1 0)
      (cell < 2600))) ∧
  (∀ s watts, s.plant.powered = true → s.scmUp = true → s.joinedMask ≠ 0 → s.powerCap = 0 →
    exec (.capEvaluate watts) s = .next (s.setCap { s.cap.measure watts with level := 0, unmet := false })) ∧
  (∀ s watts, s.plant.powered = true → s.scmUp = true → s.joinedMask ≠ 0 → s.powerCap ≠ 0 → s.powerCap < watts →
    (s.cap.measure watts).level < 4 → let l := (s.cap.measure watts).level + 1
    exec (.capEvaluate watts) s = .next (s.setCap { s.cap.measure watts with level := l, lastAverage := some (l, watts) })) ∧
  (∀ s watts, s.plant.powered = true → s.scmUp = true → s.joinedMask ≠ 0 → s.powerCap ≠ 0 → s.powerCap < watts →
    4 ≤ (s.cap.measure watts).level →
    exec (.capEvaluate watts) s = .next ((s.setCap { s.cap.measure watts with unmet := true }).send .capUnmet)) ∧
  (∀ s watts, s.plant.powered = true → s.scmUp = true → s.joinedMask ≠ 0 → s.powerCap ≠ 0 → watts ≤ s.powerCap →
    let c := s.cap.measure watts
    let l := if c.level ≠ 0 && c.mayRise watts s.powerCap then c.level - 1 else c.level
    exec (.capEvaluate watts) s = .next (s.setCap { c with unmet := false, level := l })) ∧
  (∀ (s : State) (c : PowerCap), (s.setCap c).cap = c ∧ ∀ e, (((s.setCap c).eng e).logs.thermalGen = (s.eng e).logs.thermalGen ∨
    ((s.eng e).powered = true ∧ ((s.setCap c).eng e).logs.thermalGen = (s.eng e).logs.thermalGen + 1 ∧
      (c.level ≠ s.cap.level ∨ c.unmet ≠ s.cap.unmet)))) ∧
  (∀ s e, (s.eng e).powered = true → (s.eng e).power.level ≠ s.levelWanted e →
    exec (.clockLevelChange e) s = .next (s.modEng e (fun x =>
      { x with power := { x.power with level := s.levelWanted e, levelAt := x.clock.now },
               logs := { x.logs with thermalGen := x.logs.thermalGen + 1 } })))

/-- The busbar, power-on and power-off, the SCMs and engine resets act as chapters 02, 17 and 20 say (R43, R46, R54, R55,
R363, R371, R375, R407, R410, R411, R418). -/
def Obligations.PlantEvents : Prop :=
  (∀ s mv dur, s.plant.powered = true → (63000 < mv ∨ (60000 < mv ∧ 100000000 < dur)) →
    exec (.busbarOvervoltage mv dur) s = .next (s.powerOff 1 true)) ∧
  (∀ s mv dur, ¬(63000 < mv ∨ (60000 < mv ∧ 100000000 < dur)) → exec (.busbarOvervoltage mv dur) s = .next s) ∧
  (∀ s mv dur, s.plant.powered = true → mv < 40000 → (38000 ≤ mv ∨ dur ≤ 5000000) →
    exec (.busbarUndervoltage mv dur) s = .next s.busLow) ∧
  (∀ s mv dur, s.plant.powered = true → mv < 38000 → 5000000 < dur →
    exec (.busbarUndervoltage mv dur) s = .next (s.powerOff 1 false)) ∧
  (∀ s mv dur, 40000 ≤ mv → exec (.busbarUndervoltage mv dur) s = .next s) ∧
  (∀ s mv dur failed, s.plant.powered = false → (s.plant.busbar = false ∨ s.plant.offCause = 1) → 41000 < mv → mv ≤ 60000 →
    2000000000 ≤ dur → exec (.powerOn false mv dur failed) s = .next (s.powerUp failed)) ∧
  (∀ s mv dur failed, s.plant.powered = false → s.plant.busbar = true → 2 ≤ s.plant.offCause → 40000 ≤ mv → mv ≤ 60000 →
    s.scmUp = true → exec (.powerOn true mv dur failed) s = .next ((s.powerUp failed).send (.redfishAccepted true))) ∧
  (∀ s grace, s.plant.powered = true → s.scmUp = true → s.shutdown = none → grace ≤ 3600 →
    exec (.orderlyShutdown grace) s = .next ((({ s with shutdown := some { grace := grace, since := s.now, abandoned := 0 } }).send
      (.redfishAccepted true)).shutdownCheck)) ∧
  (∀ s d, s.shutdown = some d → d.since + d.grace * 1000000000 ≤ s.now →
    exec .graceExpiry s = .next s.abandonEpochs.shutdownCheck) ∧
  (∀ s, s.plant.powered = true → s.scmUp = true →
    exec .redfishPowerOff s = .next ((s.powerOff 3 true).send (.redfishAccepted true))) ∧
  (∀ s, ¬(s.plant.powered = true ∧ s.scmUp = true) →
    exec .redfishPowerOff s = .next (s.send (.redfishAccepted false))) ∧
  (∀ s (a b : Fin 2), s.plant.busbar = true → s.plant.activeScm = a → b ≠ a → s.plant.scm[a] ≠ .failed →
    let p : Plant := { s.plant with scm := s.plant.scm.set a.val .failed a.isLt,
                                    activeScm := if s.plant.scm[b] = .failed then a else b }
    exec .scmFailover s = .next ({ s with plant := p }).endRedfish.selectSource.scmFaults) ∧
  (∀ s, s.plant.busbar = true →
    let p : Plant := { s.plant with scm := Vector.replicate 2 .failed }
    exec .bothScmFail s = .next ({ s with plant := p }).endRedfish.selectSource.scmFaults) ∧
  (∀ s scm, s.plant.busbar = true → s.plant.scm[scm] ≠ .up →
    let p : Plant := { s.plant with scm := s.plant.scm.set scm.val .up scm.isLt,
                                    activeScm := if s.plant.scm[s.plant.activeScm] = .failed then scm else s.plant.activeScm }
    exec (.scmRecovery scm) s = .next ({ s with plant := p }).selectSource.scmFaults) ∧
  (∀ s e failed, (s.eng e).powered = true →
    exec (.engineReset e failed) s = .next ((s.leave e 4 0).resetEngineNow e failed).pruneQueues.kickReshards) ∧
  (∀ s e, (s.eng e).powered = true → (s.eng e).fw.provisional = true → s.joined e = false →
    (s.eng e).fw.bootAt + 600000000000 ≤ s.now →
    let f := (s.eng e).fw
    let o := otherSlot f.run
    exec (.provisionalTimeout e) s = .next (((s.modEng e (fun x => { x with fw := { x.fw with next := o } })).resetEngineNow e
      []).fwJournal e 3 o ((f.info e o).getD { major := f.major, minor := f.minor, patch := f.patch, sec := f.sec, time := 0 }))) ∧
  (∀ s e image, let g : Firmware := { (s.eng e).fw with slots := (s.eng e).fw.slots.set 0 (some image) }
    (s.eng e).powered = true → (s.eng e).fw.booted = false → (g.bootable e 0).isSome = true →
    exec (.recoveryDownload e image) s = .next ((s.modEng e (fun x => { x with fw := g })).resetEngineNow e [])) ∧
  (∀ s e, (s.eng e).powered = true → exec (.locateRequest e) s = .next (s.modEng e (fun x => { x with locate := true })))

/-- Tamper, the reserve, debug timeouts, lockouts and cell loss act as chapter 19 says (R49, R389, R392, R393, R397, R398). -/
def Obligations.Keeper : Prop :=
  ((∀ s e (src : Fin 8) dur bad, src ≠ 7 → ((s.eng e).powered = true ∨ (s.eng e).lifecycle ≠ 3) →
    ((src ≠ 0 ∧ src ≠ 6) ∨ 1000 ≤ dur) →
    exec (.tamperDetect e { src, dur, bad }) s = .next (s.tamper e src dur bad).kickReshards) ∧
  (∀ s e (src : Fin 8) dur bad, (src = 0 ∨ src = 6) → dur < 1000 → exec (.tamperDetect e { src, dur, bad }) s = .next s) ∧
  (∀ s e dur bad, ((s.eng e).powered = true ∨ (s.eng e).lifecycle ≠ 3) →
    exec (.tamperDetect e { src := 7, dur, bad }) s = .next (if (s.eng e).lifecycle = 1 then
      ((s.zeroSlots e (fun _ => true)).newWrapKey e).tamper e 7 0 false else s.tamper e 7 0 bad)) ∧
  (∀ s e, (s.eng e).powered = true → exec (.reserveRecharged e) s = .next (s.modEng e (fun x =>
    { x with keeper := { x.keeper with reserve := 2 } }))) ∧
  (∀ s e, (s.eng e).debug ≠ 0 → (s.eng e).debugAt + 28800000000000 ≤ s.now →
    exec (.debugTimeout e) s = .next (s.modEng e (fun x => { x with debug := 0, debugAt := 0 }))) ∧
  (∀ s e t, (s.eng e).keeper.refuseUntil = some t → t ≤ (s.eng e).keeper.rtc →
    exec (.challengeLockoutEnd e) s = .next (s.modEng e (fun x => { x with keeper := { x.keeper with refuseUntil := none } }))) ∧
  (∀ s sled, s.plant.busbar = false → ∃ t, exec (.cellLoss sled) s = .next t ∧ ∀ e : EngId,
    (e.val / 2 = sled.val → (t.eng e).keeper.lost = true ∧ (t.eng e).keeper.cellLost = true ∧ (t.eng e).keeper.wrapKey = 0 ∧
      (t.eng e).keeper.slots = (s.eng e).keeper.slots.map (fun x => { KeySlot.empty with gen := x.gen }) ∧
      { t.eng e with keeper := (s.eng e).keeper } = s.eng e) ∧
    (e.val / 2 ≠ sled.val → t.eng e = s.eng e)) ∧
  (∀ s sled, s.plant.busbar = true → exec (.cellLoss sled) s = .next s)) ∧
  ((∀ s e (src : Fin 8) dur bad, (s.eng e).lifecycle = 2 → (s.eng e).hold = false → src ≠ 7 →
    (s.eng e).keeper.arm.getLsbD src.val = true → ((src ≠ 0 ∧ src ≠ 6) ∨ 1000 ≤ dur) →
    let z := s.zeroAll e
    let u := if s.plant.busbar then z else z.modKeeper e (fun k => { k with reserve := k.reserve - 1 })
    let b := if bad then u.modKeeper e (fun k => k.badZero s.plant.busbar) else u
    let v := (b.modKeeper e (fun k =>
      { k with alarm := setBit (alarmAfter k src.val (!s.plant.busbar)) 16 true,
               active := k.active.set src.val (s.now + dur) src.isLt })).modEng
        e (fun x => { x with hold := true, debug := 0, debugAt := 0 })
    exec (.tamperDetect e { src, dur, bad }) s = .next (if (s.eng e).powered then (v.modEng e Engine.stopPorts).leave e 4 6 else v).kickReshards) ∧
  (∀ (s : State) (e : EngId), ((s.zeroAll e).eng e).keeper.wrapKey = 0 ∧ ∀ i : Fin 64, (((s.zeroAll e).eng e).keeper.slots[i]).usage = 0 ∧
    (((s.zeroAll e).eng e).keeper.slots[i]).key = []) ∧
  (∀ s e (src : Fin 8) dur bad, src ≠ 7 → (s.eng e).lifecycle ≠ 3 → ((src ≠ 0 ∧ src ≠ 6) ∨ 1000 ≤ dur) →
    ((s.eng e).lifecycle ≠ 2 ∨ (s.eng e).keeper.arm.getLsbD src.val = false) →
    exec (.tamperDetect e { src, dur, bad }) s = .next (s.modKeeper e (fun k =>
      { k with alarm := setBit (alarmAfter k src.val (!s.plant.busbar)) 16 (s.eng e).hold,
               active := k.active.set src.val (s.now + dur) src.isLt })).kickReshards))

/-- A sanitise or format campaign ends as chapter 20 says (R415, R424). -/
def Obligations.CampaignsComplete : Prop :=
  (∀ s, s.sanitise.state = 1 → s.sanitise.mode ≠ 2 →
    let z := s.sanitise
    exec (.sanitiseComplete none) s = .next (((s.endCampaign z.campaign).namespaceErase.journalAll 3 z.part
      (sanitisePayload z.mode z.scope z.part 3 s.store.lease.extents.length)).sanitised
        { z with state := 2, percent := 100, finish := s.shelfTime, campaign := none })) ∧
  (∀ s, s.sanitise.state = 1 → s.sanitise.mode = 2 →
    let z := s.sanitise
    exec (.sanitiseComplete none) s = .next ((((s.endCampaign z.campaign).overwrite.journalAll 3 z.part
      (sanitisePayload z.mode z.scope z.part 2 0)).journalAll 3 z.part (sanitisePayload z.mode z.scope z.part 3 0)).sanitised
        { z with state := 2, percent := 100, finish := s.shelfTime, campaign := none })) ∧
  (∀ s n, s.sanitise.state = 1 →
    let z := s.sanitise
    let u := if z.mode = 2 then (s.endCampaign z.campaign).overwrite
      else (s.endCampaign z.campaign).eraseExtents 0 (s.store.lease.extents.take n)
    let v := (u.journalAll 3 z.part (sanitisePayload z.mode z.scope z.part 4 (if z.mode = 2 then 0 else n))).mgmtFault
      u.firstJoined 2
    let y : Sanitise := { z with state := 3, status := if z.mode = 2 then .readbackMismatch else .mediumError,
                                 finish := s.shelfTime, campaign := none }
    exec (.sanitiseComplete (some n)) s =
      .next { v with sanitise := y, sanitiseFailed := z.name :: v.sanitiseFailed.filter (fun f => f ≠ z.name) }) ∧
  (∀ s fail, s.sanitise.state ≠ 1 → exec (.sanitiseComplete fail) s = .next s) ∧
  (∀ s f v, s.store.format = some f →
    let u := ((s.endCampaign (some f.campaign)).formatDown f.accepted (v + 1)).journalAll 2 0xFF
      (formatPayload 3 v (slice s.savedTargets 0 16))
    exec (.formatComplete (some v)) s = .next { u with store := { u.store with format := none, formatFailed := true } }) ∧
  (∀ s f i, s.store.format = some f →
    let u := (((s.endCampaign (some f.campaign)).formatDown f.accepted 0).journalAll 2 0xFF
      (formatPayload 2 0 (slice s.savedTargets 0 16))).attachAll
    let v := ({ u with store := { u.store with format := none, formatFailed := false } } : State).leaveStore
    v.ownSlot = some i → exec (.formatComplete none) s = .next (v.claim i none)) ∧
  (∀ s fail, s.store.format = none → exec (.formatComplete fail) s = .next s)

/-- A timed event that comes before its time does nothing (R64, R131, R297, R298, R301, R305, R309, R311, R315, R397, R398,
R411, R418). The model sends timed events as commands and checks their time itself. -/
def Obligations.EarlyTimersDoNothing : Prop :=
  (∀ s e, (∀ t, (s.eng e).member.lostSince = some t → s.now < t + 100000000) → exec (.noQuorum e) s = .next s) ∧
  (∀ s e (peer : EngId), s.now < (s.eng e).member.heard[peer] + 20000000 → exec (.peerUnreachable e peer) s = .next s) ∧
  (∀ s q, s.membership.proposal = some q → s.now < q.since + 10000000 → exec .viewProposeTimeout s = .next s) ∧
  (∀ s q, s.membership.proposal = some q → q.since + 10000000 < s.now → exec .viewFormed s = .next s) ∧
  (∀ s a e, s.adoption = some a → s.now < a.since + 1000000000 → exec (.configPhaseTimeout e) s = .next s) ∧
  (∀ s, s.now < s.membership.windowSince + 7200000000000 → exec .splitWindowExpiry s = .next s) ∧
  (∀ s e, (∀ t, (s.eng e).clock.calmSince = some t → s.now < t + 1000000000) → exec (.timeSuspectClear e) s = .next s) ∧
  (∀ s got, (∀ t, s.store.lease.claimAt = some t → s.now < t + 15000000000) → exec (.leaseClaimCheck got) s = .next s) ∧
  (∀ s e p v, (∀ ev ∈ (s.win e p).ints.coal[v], (s.time e).toNat < ev.time.toNat + 1000 * (s.win e p).ints.coalUsec v) →
    exec (.coalesceTimeout e p v) s = .next s) ∧
  (∀ s e (ch : Fin 16), s.now < ((s.eng e).channels[ch]).since + 10000 → exec (.modeTimeout e ch) s = .next s) ∧
  (∀ s e, s.now < (s.eng e).fw.bootAt + 600000000000 → exec (.provisionalTimeout e) s = .next s) ∧
  (∀ s e, s.now < (s.eng e).debugAt + 28800000000000 → exec (.debugTimeout e) s = .next s) ∧
  (∀ s e, (∀ t, (s.eng e).keeper.refuseUntil = some t → (s.eng e).keeper.rtc < t) →
    exec (.challengeLockoutEnd e) s = .next s) ∧
  (∀ s e, (∀ t, (s.eng e).power.exitDue = some t → s.now < t) → exec (.powerExitComplete e) s = .next s) ∧
  (∀ s, (∀ d, s.shutdown = some d → s.now < d.since + d.grace * 1000000000) → exec .graceExpiry s = .next s)

end Statements
end

