-- ==== Sys2Proof/Laws/Memory.lean ====
section
/-! SUPPORT. The sparse byte memory: what a write changes, and that every operation keeps the canonical form. -/

namespace Sys2Proof.Machine

theorem Memory.wf_cons {c : Host.Cell} {m : Memory} :
    Memory.wf (c :: m) = true ↔ c.2 ≠ 0 ∧ (∀ d ∈ m, c.1 < d.1) ∧ Memory.wf m = true := by
  obtain ⟨a, b⟩ := c
  simp [Memory.wf, and_assoc]

theorem Memory.mem_write {m : Memory} {x : Nat} {v : Byte} {c : Host.Cell} (h : c ∈ Memory.write m x v) :
    c.1 = x ∨ c ∈ m := by
  induction m with
  | nil =>
    simp only [Memory.write] at h
    split at h <;> simp_all
  | cons d m ih =>
    obtain ⟨a, b⟩ := d
    simp only [Memory.write] at h
    split at h
    · split at h
      · exact .inr h
      · rcases List.mem_cons.1 h with rfl | h
        · exact .inl rfl
        · exact .inr h
    · split at h
      · split at h
        · exact .inr (List.mem_cons_of_mem _ h)
        · rcases List.mem_cons.1 h with rfl | h
          · exact .inl (by simp_all)
          · exact .inr (List.mem_cons_of_mem _ h)
      · rcases List.mem_cons.1 h with rfl | h
        · exact .inr (by simp)
        · rcases ih h with h | h
          · exact .inl h
          · exact .inr (List.mem_cons_of_mem _ h)

/-- Writing a byte keeps the canonical form. -/
theorem Memory.wf_write {m : Memory} (x : Nat) (v : Byte) (h : Memory.wf m = true) : Memory.wf (Memory.write m x v) = true := by
  induction m with
  | nil =>
    simp only [Memory.write]
    split
    · rfl
    · rename_i hv
      simpa [Memory.wf] using hv
  | cons d m ih =>
    obtain ⟨a, b⟩ := d
    obtain ⟨hb, hlt, hm⟩ := Memory.wf_cons.1 h
    simp only [Memory.write]
    split
    · rename_i hx
      split
      · exact h
      · rename_i hv
        refine Memory.wf_cons.2 ⟨hv, ?_, h⟩
        intro d hd
        rcases List.mem_cons.1 hd with rfl | hd
        · exact hx
        · exact Nat.lt_trans hx (hlt d hd)
    · rename_i hx
      split
      · split
        · exact hm
        · rename_i hv
          exact Memory.wf_cons.2 ⟨hv, hlt, hm⟩
      · rename_i hne
        refine Memory.wf_cons.2 ⟨hb, ?_, ih hm⟩
        intro d hd
        rcases Memory.mem_write hd with hd | hd
        · rw [hd]
          exact Nat.lt_of_le_of_ne (Nat.le_of_not_lt hx) (fun e => hne e.symm)
        · exact hlt d hd

/-- Writing a byte string keeps the canonical form. -/
theorem Memory.wf_writeBytes {m : Memory} (a : Nat) (bs : List Byte) (h : Memory.wf m = true) :
    Memory.wf (Memory.writeBytes m a bs) = true := by
  induction bs generalizing m a with
  | nil => exact h
  | cons b bs ih => exact ih (a + 1) (Memory.wf_write a b h)

/-- Dropping entries keeps the canonical form. -/
theorem Memory.wf_filter {m : Memory} (f : Host.Cell → Bool) (h : Memory.wf m = true) :
    Memory.wf (m.filter f) = true := by
  induction m with
  | nil => rfl
  | cons d m ih =>
    obtain ⟨hb, hlt, hm⟩ := Memory.wf_cons.1 h
    rw [List.filter_cons]
    split
    · exact Memory.wf_cons.2 ⟨hb, fun c hc => hlt c (List.mem_of_mem_filter hc), ih hm⟩
    · exact ih hm

/-- Clearing a range keeps the canonical form. -/
theorem Memory.wf_clear {m : Memory} (lo hi : Nat) (h : Memory.wf m = true) : Memory.wf (Memory.clear m lo hi) = true :=
  Memory.wf_filter _ h

theorem Memory.read_of_lt {m : Memory} {x : Nat} (h : ∀ c ∈ m, x < c.1) : Memory.read m x = 0 := by
  induction m with
  | nil => rfl
  | cons d m ih =>
    obtain ⟨a, b⟩ := d
    have hx : x < a := h (a, b) (by simp)
    simp only [Memory.read]
    rw [if_neg (Nat.ne_of_lt hx)]
    exact ih (fun c hc => h c (List.mem_cons_of_mem _ hc))

/-- A byte reads back as it was written. -/
theorem Memory.read_write_same {m : Memory} (x : Nat) (v : Byte) (h : Memory.wf m = true) :
    Memory.read (Memory.write m x v) x = v := by
  induction m with
  | nil =>
    simp only [Memory.write]
    split
    · simp_all [Memory.read]
    · simp [Memory.read]
  | cons d m ih =>
    obtain ⟨a, b⟩ := d
    obtain ⟨_, hlt, hm⟩ := Memory.wf_cons.1 h
    simp only [Memory.write]
    split
    · rename_i hx
      split
      · rename_i hv
        rw [hv]
        refine Memory.read_of_lt (fun c hc => ?_)
        rcases List.mem_cons.1 hc with rfl | hc
        · exact hx
        · exact Nat.lt_trans hx (hlt c hc)
      · simp [Memory.read]
    · split
      · rename_i hxa
        split
        · rename_i hv
          rw [hv]
          exact Memory.read_of_lt (fun c hc => hxa ▸ hlt c hc)
        · simp [Memory.read, hxa]
      · rename_i hne
        simp only [Memory.read]
        rw [if_neg hne]
        exact ih hm

/-- A write leaves every other address alone. -/
theorem Memory.read_write_other {m : Memory} (x y : Nat) (v : Byte) (hne : y ≠ x) :
    Memory.read (Memory.write m x v) y = Memory.read m y := by
  induction m with
  | nil =>
    simp only [Memory.write]
    split
    · rfl
    · simp [Memory.read, hne]
  | cons d m ih =>
    obtain ⟨a, b⟩ := d
    simp only [Memory.write]
    split
    · split
      · rfl
      · simp [Memory.read, hne]
    · split
      · rename_i hxa
        split
        · have hya : y ≠ a := hxa ▸ hne
          simp [Memory.read, hya]
        · have hya : y ≠ a := hxa ▸ hne
          simp [Memory.read, hya]
      · simp only [Memory.read]
        split
        · rfl
        · exact ih

/-- Two memories in canonical form that read alike at every address are the same memory. -/
theorem Memory.ext_of_wf {m n : Memory} (hm : Memory.wf m = true) (hn : Memory.wf n = true)
    (h : ∀ x, Memory.read m x = Memory.read n x) : m = n := by
  induction m generalizing n with
  | nil =>
    cases n with
    | nil => rfl
    | cons d n =>
      obtain ⟨a, b⟩ := d
      have := h a
      simp [Memory.read] at this
      exact absurd this.symm (Memory.wf_cons.1 hn).1
  | cons c m ih =>
    obtain ⟨a, b⟩ := c
    obtain ⟨hb, hlt, hm'⟩ := Memory.wf_cons.1 hm
    cases n with
    | nil =>
      have := h a
      simp [Memory.read] at this
      exact absurd this hb
    | cons d n =>
      obtain ⟨a', b'⟩ := d
      obtain ⟨hb', hlt', hn'⟩ := Memory.wf_cons.1 hn
      have haa : a = a' := by
        rcases Nat.lt_trichotomy a a' with hl | he | hg
        · have h1 := h a
          rw [Memory.read_of_lt (m := (a', b') :: n) (x := a) (fun c hc => by
            rcases List.mem_cons.1 hc with rfl | hc
            · exact hl
            · exact Nat.lt_trans hl (hlt' c hc))] at h1
          simp [Memory.read] at h1
          exact absurd h1 hb
        · exact he
        · have h1 := h a'
          rw [Memory.read_of_lt (m := (a, b) :: m) (x := a') (fun c hc => by
            rcases List.mem_cons.1 hc with rfl | hc
            · exact hg
            · exact Nat.lt_trans hg (hlt c hc))] at h1
          simp [Memory.read] at h1
          exact absurd h1.symm hb'
      subst haa
      have hbb : b = b' := by simpa [Memory.read] using h a
      subst hbb
      congr 1
      refine ih hm' hn' (fun x => ?_)
      by_cases hx : x = a
      · subst hx
        rw [Memory.read_of_lt hlt, Memory.read_of_lt hlt']
      · simpa [Memory.read, hx] using h x

theorem Memory.read_clear {m : Memory} (lo hi x : Nat) (h : Memory.wf m = true) :
    Memory.read (Memory.clear m lo hi) x = if lo ≤ x ∧ x < hi then 0 else Memory.read m x := by
  induction m with
  | nil => simp [Memory.clear, Memory.read]
  | cons d m ih =>
    obtain ⟨a, b⟩ := d
    obtain ⟨_, hlt, hm⟩ := Memory.wf_cons.1 h
    have ih := ih hm
    unfold Memory.clear at ih ⊢
    rw [List.filter_cons]
    by_cases ha : lo ≤ a ∧ a < hi
    · rw [if_neg (by simp [ha]), ih]
      by_cases hx : lo ≤ x ∧ x < hi
      · simp [hx]
      · have : x ≠ a := fun e => hx (e ▸ ha)
        simp [hx, Memory.read, this]
    · rw [if_pos (by simp only [Bool.not_eq_true', Bool.and_eq_false_iff, decide_eq_false_iff_not]; omega)]
      by_cases hxa : x = a
      · subst hxa
        simp only [Memory.read, if_true, if_neg ha]
      · simp only [Memory.read, if_neg hxa, ih]

end Sys2Proof.Machine
end

