-- ==== Sys2Proof/Laws/Keeps.lean ====
section
/-! SUPPORT. What every operation keeps: soundness, the one-way lifecycle (R389), the anti-rollback counter (R411), the owner
anchor (R389), the queue and the clock of the block. One lemma for each operation follows, in the files Keeps*. -/

namespace Sys2Proof.Machine

/-- What an update of one engine keeps. -/
structure EngKeeps (x y : Engine) : Prop where
  sound : x.Sound → y.Sound
  life : x.Sound → x.lifecycle ≤ y.lifecycle
  counter : x.Sound → x.fw.counter ≤ y.fw.counter
  anchor : ∀ a, x.anchor = some a → y.anchor = some a

theorem EngKeeps.refl (x : Engine) : EngKeeps x x := ⟨id, fun _ => le_rfl, fun _ => le_rfl, fun _ h => h⟩

theorem EngKeeps.trans {x y z : Engine} (h : EngKeeps x y) (k : EngKeeps y z) : EngKeeps x z :=
  ⟨fun a => k.sound (h.sound a), fun a => (h.life a).trans (k.life (h.sound a)),
   fun a => (h.counter a).trans (k.counter (h.sound a)), fun a e => k.anchor a (h.anchor a e)⟩

/-- An update that leaves the pool, the lifecycle, the anchor and the running image alone. -/
theorem EngKeeps.same {w x y : Engine} (h : EngKeeps w x) (hp : y.pool = x.pool) (hl : y.lifecycle = x.lifecycle)
    (ha : y.anchor = x.anchor) (hc : y.fw.counter = x.fw.counter) (hv : y.fw.provisional = x.fw.provisional)
    (hs : y.fw.sec = x.fw.sec) : EngKeeps w y :=
  h.trans ⟨fun k => by simpa [Engine.Sound, hp, hl, hc, hv, hs] using k, fun _ => hl ▸ le_rfl, fun _ => hc ▸ le_rfl,
    fun _ k => ha ▸ k⟩

/-- A record update that leaves the pool, the lifecycle, the anchor and the running image alone. -/
theorem EngKeeps.upd {w x : Engine} {y0 y1 y2 y3 y4 y5 y6 y7 y8 y9 y10 y11 y12 y13 y14 y15 y16 y17 y18 y19 y20 y21 y22
      y23 y24 y25 y26 y27 y28 y29 y30 y31 y32 y33 y34 y35 y36 y37 y38 y39 y40 y41 y42 y43 y44 y45}
    (h : EngKeeps w x) (hc : y9.counter = x.fw.counter) (hv : y9.provisional = x.fw.provisional) (hs : y9.sec = x.fw.sec) :
    EngKeeps w ⟨y0, y1, y2, y3, y4, x.lifecycle, x.anchor, y5, y6, y7, y8, y9, y10, y11, y12, y13, y14, y15, y16, y17,
      y18, y19, y20, x.pool, y21, y22, y23, y24, y25, y26, y27, y28, y29, y30, y31, y32, y33, y34, y35, y36, y37, y38,
      y39, y40, y41, y42, y43, y44, y45⟩ := h.same rfl rfl rfl hc hv hs

/-- An update that leaves all but the pool alone, and keeps its canonical form. -/
theorem EngKeeps.pool {w x y : Engine} (h : EngKeeps w x) (hp : x.pool.wf = true → y.pool.wf = true)
    (hl : y.lifecycle = x.lifecycle) (ha : y.anchor = x.anchor) (hc : y.fw.counter = x.fw.counter)
    (hv : y.fw.provisional = x.fw.provisional) (hs : y.fw.sec = x.fw.sec) : EngKeeps w y :=
  h.trans ⟨fun k => ⟨hp k.1, by simpa [hl] using k.2.1, by simpa [hc, hv, hs] using k.2.2⟩, fun _ => hl ▸ le_rfl,
    fun _ => hc ▸ le_rfl, fun _ k => ha ▸ k⟩

/-- An update of the lifecycle and the anchor in their one direction. -/
theorem EngKeeps.own {w x y : Engine} (h : EngKeeps w x) (hp : y.pool = x.pool) (hw : y.fw = x.fw)
    (hl : x.lifecycle ≤ 3 → x.lifecycle ≤ y.lifecycle ∧ y.lifecycle ≤ 3)
    (ha : ∀ a, x.anchor = some a → y.anchor = some a) : EngKeeps w y :=
  h.trans ⟨fun k => ⟨hp ▸ k.1, (hl k.2.1).2, hw ▸ k.2.2⟩, fun k => (hl k.2.1).1, fun _ => hw ▸ le_rfl, ha⟩

/-- An update of the running image, and of the counter upwards. -/
theorem EngKeeps.image {w x y : Engine} (h : EngKeeps w x) (hp : x.pool.wf = true → y.pool.wf = true)
    (hl : y.lifecycle = x.lifecycle) (ha : y.anchor = x.anchor) (hc : x.Sound → x.fw.counter ≤ y.fw.counter)
    (hv : x.Sound → y.fw.provisional = true → y.fw.counter < y.fw.sec.toNat) : EngKeeps w y :=
  h.trans ⟨fun k => ⟨hp k.1, by simpa [hl] using k.2.1, hv k⟩, fun _ => hl ▸ le_rfl, hc, fun _ k => ha ▸ k⟩

theorem EngKeeps.foldl {α : Type} {x : Engine} {l : List α} {f : Engine → α → Engine} {y : Engine} (h : EngKeeps x y)
    (hf : ∀ z a, EngKeeps x z → EngKeeps x (f z a)) : EngKeeps x (l.foldl f y) := by
  induction l generalizing y with
  | nil => exact h
  | cons a l ih => exact ih (hf y a h)

/-- Every volume of the store is in canonical form. -/
def Store.Wf (x : Store) : Prop := (∀ v ∈ x.volumes, v.bytes.wf = true) ∧ (∀ v ∈ x.parked, v.bytes.wf = true)

/-- What an update of the shelf keeps. -/
structure Keeps (s t : State) : Prop where
  eng : ∀ e, EngKeeps (s.eng e) (t.eng e)
  store : s.store.Wf → t.store.Wf
  queue : t.pending = s.pending
  clock : t.now = s.now

theorem Keeps.refl (s : State) : Keeps s s := ⟨fun _ => EngKeeps.refl _, id, rfl, rfl⟩

theorem Keeps.trans {s t u : State} (h : Keeps s t) (k : Keeps t u) : Keeps s u :=
  ⟨fun e => (h.eng e).trans (k.eng e), fun a => k.store (h.store a), k.queue.trans h.queue, k.clock.trans h.clock⟩

theorem Keeps.sound {s t : State} (h : Keeps s t) (k : s.Sound) : t.Sound :=
  ⟨fun e => (h.eng e).sound (k.1 e), (h.store k.2).1, (h.store k.2).2⟩

/-- An update that leaves the engines, the volumes, the queue and the clock alone. -/
theorem Keeps.same {r s t : State} (h : Keeps r s) (he : t.engines = s.engines) (hv : t.store.volumes = s.store.volumes)
    (hp : t.store.parked = s.store.parked) (hq : t.pending = s.pending) (hc : t.now = s.now) : Keeps r t :=
  h.trans ⟨fun e => by
    have : t.eng e = s.eng e := by simp [State.eng, he]
    rw [this]
    exact EngKeeps.refl _, fun k => by simpa [Store.Wf, hv, hp] using k, hq, hc⟩

/-- A record update that leaves the engines, the volumes, the queue and the clock alone. -/
theorem Keeps.upd {r s : State} {x0 x1 x2 x3 x4 x5 x6 x7 x8 x9 x10 x11 x12 x13 x14 x15 x16 x17 x18}
    (h : Keeps r s) (hv : x12.volumes = s.store.volumes) (hp : x12.parked = s.store.parked) :
    Keeps r ⟨s.pending, s.now, x0, x1, x2, x3, x4, x5, x6, x7, x8, x9, x10, x11, x12, x13, x14, x15, x16, x17,
      s.engines, x18⟩ := h.same rfl hv hp rfl rfl

/-- An update of the volumes that keeps their canonical form. -/
theorem Keeps.vols {r s t : State} (h : Keeps r s) (he : t.engines = s.engines) (hv : s.store.Wf → t.store.Wf)
    (hq : t.pending = s.pending) (hc : t.now = s.now) : Keeps r t :=
  h.trans ⟨fun e => by
    have : t.eng e = s.eng e := by simp [State.eng, he]
    rw [this]
    exact EngKeeps.refl _, hv, hq, hc⟩

theorem Keeps.setLease {r s : State} (h : Keeps r s) (l : Lease) : Keeps r { s with store := { s.store with lease := l } } :=
  h.same rfl rfl rfl rfl rfl

theorem Keeps.setEng {r s : State} {e : EngId} {x : Engine} (h : Keeps r s) (hx : EngKeeps (s.eng e) x) :
    Keeps r (s.setEng e x) :=
  h.trans ⟨fun i => by
    by_cases hi : i = e
    · subst hi
      simpa [State.setEng, State.eng] using hx
    · have hne : e.val ≠ i.val := fun k => hi (Fin.ext k.symm)
      have : (s.setEng e x).eng i = s.eng i := by simp [State.setEng, State.eng, hne]
      rw [this]
      exact EngKeeps.refl _, id, rfl, rfl⟩

theorem Keeps.modEng {r s : State} {e : EngId} {f : Engine → Engine} (h : Keeps r s)
    (hf : ∀ x, EngKeeps x (f x)) : Keeps r (s.modEng e f) := h.setEng (hf _)

theorem Keeps.modEngines {r s : State} {m : BitVec 16} {f : EngId → Engine → Engine} (h : Keeps r s)
    (hf : ∀ e x, EngKeeps x (f e x)) : Keeps r (s.modEngines m f) :=
  h.trans ⟨fun i => by
    have : (s.modEngines m f).eng i = if hasEngine m i then f i (s.eng i) else s.eng i := by
      simp [State.modEngines, State.eng]
    rw [this]
    split
    · exact hf _ _
    · exact EngKeeps.refl _, id, rfl, rfl⟩

theorem Keeps.foldl {α : Type} {r s : State} {l : List α} {f : State → α → State} (h : Keeps r s)
    (hf : ∀ t a, Keeps r t → Keeps r (f t a)) : Keeps r (l.foldl f s) := by
  induction l generalizing s with
  | nil => exact h
  | cons a l ih => exact ih (hf s a h)

theorem Keeps.foldlSnd {α β : Type} {r : State} {p : β × State} {l : List α} {f : β × State → α → β × State}
    (h : Keeps r p.2) (hf : ∀ q a, Keeps r q.2 → Keeps r (f q a).2) : Keeps r (l.foldl f p).2 := by
  induction l generalizing p with
  | nil => exact h
  | cons a l ih => exact ih (hf p a h)

theorem Keeps.foldlFst {α β : Type} {r : State} {p : State × β} {l : List α} {f : State × β → α → State × β}
    (h : Keeps r p.1) (hf : ∀ q a, Keeps r q.1 → Keeps r (f q a).1) : Keeps r (l.foldl f p).1 := by
  induction l generalizing p with
  | nil => exact h
  | cons a l ih => exact ih (hf p a h)

theorem Keeps.ofSnd {α : Type} {r t : State} {p : α × State} {a : α} (h : Keeps r p.2) (e : p = (a, t)) : Keeps r t := by
  subst e
  exact h

theorem Keeps.ofFst {α : Type} {r t : State} {p : State × α} {a : α} (h : Keeps r p.1) (e : p = (t, a)) : Keeps r t := by
  subst e
  exact h

theorem Keeps.setPart {r s : State} {p : PartId} {x : Partition} (h : Keeps r s) : Keeps r (s.setPart p x) :=
  h.same rfl rfl rfl rfl rfl

theorem Keeps.modPart {r s : State} {p : PartId} {f : Partition → Partition} (h : Keeps r s) : Keeps r (s.modPart p f) :=
  h.same rfl rfl rfl rfl rfl

theorem EngKeeps.setWin {w x : Engine} {p : PartId} {v : Window} (h : EngKeeps w x) : EngKeeps w (x.setWin p v) :=
  h.same rfl rfl rfl rfl rfl rfl

theorem Keeps.modWin {r s : State} {e : EngId} {p : PartId} {f : Window → Window} (h : Keeps r s) :
    Keeps r (s.modWin e p f) := h.modEng (fun _ => (EngKeeps.refl _).setWin)

theorem Keeps.modStream {r s : State} {a : StreamAt} {f : Stream → Stream} (h : Keeps r s) : Keeps r (s.modStream a f) :=
  h.modWin

theorem Keeps.modCfg {r s : State} {p : PartId} {f : PartCfg → PartCfg} (h : Keeps r s) : Keeps r (s.modCfg p f) :=
  h.same rfl rfl rfl rfl rfl

theorem Keeps.draw {r s : State} {w : Nat} (h : Keeps r s) : Keeps r (s.draw w).2 := h.same rfl rfl rfl rfl rfl

theorem Keeps.pick {α : Type} {r s : State} {l : List α} (h : Keeps r s) : Keeps r (s.pick l).2 := h.same rfl rfl rfl rfl rfl

theorem Keeps.send {r s : State} {m : Message} (h : Keeps r s) : Keeps r (s.send m) := h.same rfl rfl rfl rfl rfl

theorem Keeps.deliver {r s : State} {d : Delivery} (h : Keeps r s) : Keeps r (s.deliver d) := by
  unfold State.deliver
  split
  · exact h
  · exact h.same rfl rfl rfl rfl rfl

theorem Keeps.forEngines {r s : State} {es : List EngId} {f : State → EngId → State} (h : Keeps r s)
    (hf : ∀ t a, Keeps r t → Keeps r (f t a)) : Keeps r (s.forEngines es f) := h.foldl hf

theorem Keeps.startCampaign {r s : State} {k : CampaignKind} {p : Option PartId} (h : Keeps r s) :
    Keeps r (s.startCampaign k p).2 := h.same rfl rfl rfl rfl rfl

theorem Keeps.endCampaign {r s : State} {i : Option Nat} (h : Keeps r s) : Keeps r (s.endCampaign i) :=
  h.same rfl rfl rfl rfl rfl

end Sys2Proof.Machine
end

