-- ==== Sys2Proof/Laws/KeepsInterrupts.lean ====
section
/-! SUPPORT. What the operations of Machine/Interrupts keep (Laws/Keeps). -/

namespace Sys2Proof.Machine

theorem State.modRing_keeps {r : State} : ∀ (s : State) e p f, Keeps r s → Keeps r (State.modRing s e p f) := by
  intro s e p f h0
  unfold State.modRing
  try dsimp only
  repeat' first
    | with_reducible assumption | with_reducible apply Keeps.modWin | with_reducible exact EngKeeps.refl _ | (intro _)
    | with_reducible refine EngKeeps.upd ?_ rfl rfl rfl | with_reducible refine Keeps.upd ?_ rfl rfl

theorem State.ringWriteOne_keeps {r : State} : ∀ (s : State) e p, Keeps r s → Keeps r (State.ringWriteOne s e p) := by
  intro s e p h0
  unfold State.ringWriteOne
  try dsimp only
  repeat' first
    | with_reducible assumption | with_reducible apply Keeps.deliver | with_reducible apply State.modRing_keeps
    | with_reducible exact EngKeeps.refl _ | (intro _) | with_reducible refine Keeps.ofSnd ?_ (by assumption)
    | with_reducible refine Keeps.ofFst ?_ (by assumption) | split | with_reducible refine EngKeeps.upd ?_ rfl rfl rfl
    | with_reducible refine Keeps.upd ?_ rfl rfl

theorem State.ringFlush_keeps {r : State} : ∀ (s : State) e p a0, Keeps r s → Keeps r (State.ringFlush s e p a0) := by
  intro s e p a0 h0
  unfold State.ringFlush
  try dsimp only
  repeat' first
    | with_reducible assumption | with_reducible apply State.ringWriteOne_keeps
    | with_reducible apply State.ringFlush_keeps | with_reducible exact EngKeeps.refl _ | (intro _) | split

theorem State.setPflt_keeps {r : State} : ∀ (s : State) e p b, Keeps r s → Keeps r (State.setPflt s e p b) := by
  intro s e p b h0
  unfold State.setPflt
  try dsimp only
  repeat' first
    | with_reducible assumption | with_reducible apply Keeps.modWin | with_reducible exact EngKeeps.refl _ | (intro _)
    | split | with_reducible refine EngKeeps.upd ?_ rfl rfl rfl | with_reducible refine Keeps.upd ?_ rfl rfl

theorem State.toRing_keeps {r : State} : ∀ (s : State) e p v evs, Keeps r s → Keeps r (State.toRing s e p v evs) := by
  intro s e p v evs h0
  unfold State.toRing
  try dsimp only
  repeat' first
    | with_reducible assumption | with_reducible apply State.modRing_keeps | with_reducible apply State.ringFlush_keeps
    | with_reducible apply State.setPflt_keeps | with_reducible exact EngKeeps.refl _ | (intro _) | split

theorem State.toMsix_keeps {r : State} : ∀ (s : State) e p port v, Keeps r s → Keeps r (State.toMsix s e p port v) := by
  intro s e p port v h0
  unfold State.toMsix
  try dsimp only
  repeat' first
    | with_reducible assumption | with_reducible apply Keeps.send | with_reducible apply Keeps.modWin
    | with_reducible exact EngKeeps.refl _ | (intro _) | split | with_reducible refine EngKeeps.upd ?_ rfl rfl rfl
    | with_reducible refine Keeps.upd ?_ rfl rfl

theorem State.route_keeps {r : State} : ∀ (s : State) e p v evs, Keeps r s → Keeps r (State.route s e p v evs) := by
  intro s e p v evs h0
  unfold State.route
  try dsimp only
  repeat' first
    | with_reducible assumption | with_reducible apply State.toMsix_keeps | with_reducible apply State.toRing_keeps
    | with_reducible exact EngKeeps.refl _ | (intro _) | with_reducible refine Keeps.ofSnd ?_ (by assumption)
    | with_reducible refine Keeps.ofFst ?_ (by assumption) | split | with_reducible refine EngKeeps.upd ?_ rfl rfl rfl
    | with_reducible refine Keeps.upd ?_ rfl rfl

theorem State.setCoal_keeps {r : State} : ∀ (s : State) e p v evs, Keeps r s → Keeps r (State.setCoal s e p v evs) := by
  intro s e p v evs h0
  unfold State.setCoal
  try dsimp only
  repeat' first
    | with_reducible assumption | with_reducible apply Keeps.modWin | with_reducible exact EngKeeps.refl _ | (intro _)
    | with_reducible refine EngKeeps.upd ?_ rfl rfl rfl | with_reducible refine Keeps.upd ?_ rfl rfl

theorem State.signal_keeps {r : State} : ∀ (s : State) e p v source stream, Keeps r s →
    Keeps r (State.signal s e p v source stream) := by
  intro s e p v source stream h0
  unfold State.signal
  try dsimp only
  repeat' first
    | with_reducible assumption | with_reducible apply Keeps.modWin | with_reducible apply State.route_keeps
    | with_reducible apply State.setCoal_keeps | with_reducible exact EngKeeps.refl _ | (intro _) | split
    | with_reducible refine EngKeeps.upd ?_ rfl rfl rfl | with_reducible refine Keeps.upd ?_ rfl rfl

theorem State.signalBlock_keeps {r : State} : ∀ (s : State) e p v, Keeps r s → Keeps r (State.signalBlock s e p v) := by
  intro s e p v h0
  unfold State.signalBlock
  try dsimp only
  repeat' first
    | with_reducible assumption | with_reducible apply Keeps.draw | with_reducible apply State.signal_keeps
    | with_reducible exact EngKeeps.refl _ | (intro _) | split

theorem State.signalV0_keeps {r : State} : ∀ (s : State) e p b, Keeps r s → Keeps r (State.signalV0 s e p b) := by
  intro s e p b h0
  unfold State.signalV0
  try dsimp only
  repeat' first
    | with_reducible assumption | with_reducible apply Keeps.modWin | with_reducible apply State.signal_keeps
    | with_reducible exact EngKeeps.refl _ | (intro _) | with_reducible refine EngKeeps.upd ?_ rfl rfl rfl
    | with_reducible refine Keeps.upd ?_ rfl rfl

theorem State.faultEvent_keeps {r : State} : ∀ (s : State) p, Keeps r s → Keeps r (State.faultEvent s p) := by
  intro s p h0
  unfold State.faultEvent
  try dsimp only
  repeat' first
    | with_reducible assumption | with_reducible apply State.signalV0_keeps | with_reducible apply Keeps.foldl
    | with_reducible apply Keeps.foldlSnd | with_reducible apply Keeps.foldlFst | with_reducible apply EngKeeps.foldl
    | with_reducible exact EngKeeps.refl _ | (intro _)

theorem State.pfltEvent_keeps {r : State} : ∀ (s : State) e p b, Keeps r s → Keeps r (State.pfltEvent s e p b) := by
  intro s e p b h0
  unfold State.pfltEvent
  try dsimp only
  repeat' first
    | with_reducible assumption | with_reducible apply State.setPflt_keeps | with_reducible apply State.signalV0_keeps
    | with_reducible exact EngKeeps.refl _ | (intro _)

theorem State.tideEvent_keeps {r : State} : ∀ (s : State), Keeps r s → Keeps r (State.tideEvent s) := by
  intro s h0
  unfold State.tideEvent
  try dsimp only
  repeat' first
    | with_reducible assumption | with_reducible apply State.signalV0_keeps | with_reducible apply Keeps.foldl
    | with_reducible apply Keeps.foldlSnd | with_reducible apply Keeps.foldlFst | with_reducible apply EngKeeps.foldl
    | with_reducible exact EngKeeps.refl _ | (intro _)

end Sys2Proof.Machine
end

