-- ==== Sys2Proof/Laws/KeepsPool.lean ====
section
/-! SUPPORT. What the operations of Machine/Pool keep (Laws/Keeps). -/

namespace Sys2Proof.Machine

theorem Keeps.pool {r s : State} {e : EngId} {f : Engine → Engine} (h : Keeps r s)
    (hf : ∀ x, x.pool.wf = true → (f x).pool.wf = true) (hl : ∀ x, (f x).lifecycle = x.lifecycle)
    (ha : ∀ x, (f x).anchor = x.anchor) (hw : ∀ x, (f x).fw = x.fw) : Keeps r (s.modEng e f) :=
  h.modEng (fun x => (EngKeeps.refl x).pool (hf x) (hl x) (ha x) (by rw [hw]) (by rw [hw]) (by rw [hw]))

theorem Memory.wf_foldl {α : Type} {l : List α} {f : Memory → α → Memory} {m : Memory} (h : Memory.wf m = true)
    (hf : ∀ n a, Memory.wf n = true → Memory.wf (f n a) = true) : Memory.wf (l.foldl f m) = true := by
  induction l generalizing m with
  | nil => exact h
  | cons a l ih => exact ih (hf m a h)

theorem Keeps.foldlM {α β : Type} {r : State} {l : List α} {f : β → α → Option β} {g : β → State} {b c : β}
    (h : Keeps r (g b)) (hf : ∀ b a c, Keeps r (g b) → f b a = some c → Keeps r (g c)) (hc : l.foldlM f b = some c) :
    Keeps r (g c) := by
  induction l generalizing b with
  | nil =>
    simp only [List.foldlM_nil, Option.pure_def, Option.some.injEq] at hc
    exact hc ▸ h
  | cons a l ih =>
    simp only [List.foldlM_cons, Option.bind_eq_bind, Option.bind_eq_some_iff] at hc
    obtain ⟨b', h1, h2⟩ := hc
    exact ih (hf b a b' h h1) h2

theorem State.putPool_keeps {r : State} : ∀ (s : State) e a v, Keeps r s → Keeps r (State.putPool s e a v) := by
  intro s e a v h0
  unfold State.putPool
  split
  · exact h0
  · exact h0.pool (fun x hx => Memory.wf_write _ _ hx) (fun _ => rfl) (fun _ => rfl) (fun _ => rfl)

theorem State.putPlace_keeps {r : State} : ∀ (s : State) pl e off v, Keeps r s → Keeps r (State.putPlace s pl e off v) := by
  intro s pl e off v h0
  unfold State.putPlace
  try dsimp only
  repeat' first
    | with_reducible assumption | with_reducible apply State.putPool_keeps | with_reducible exact EngKeeps.refl _
    | (intro _) | split

theorem State.bumpParity_keeps {r : State} : ∀ (s : State) t0 pl k0 j d, Keeps r s →
    Keeps r (State.bumpParity s t0 pl k0 j d) := by
  intro s t0 pl k0 j d h0
  unfold State.bumpParity
  try dsimp only
  repeat' first
    | with_reducible assumption | with_reducible apply State.putPlace_keeps | with_reducible apply Keeps.foldl
    | with_reducible apply Keeps.foldlSnd | with_reducible apply Keeps.foldlFst | with_reducible apply EngKeeps.foldl
    | with_reducible exact EngKeeps.refl _ | (intro _) | with_reducible refine Keeps.ofSnd ?_ (by assumption)
    | with_reducible refine Keeps.ofFst ?_ (by assumption) | split | with_reducible refine EngKeeps.upd ?_ rfl rfl rfl
    | with_reducible refine Keeps.upd ?_ rfl rfl

theorem State.putStripeByte_keeps {r : State} : ∀ (s : State) t0 k0 j v, Keeps r s →
    Keeps r (State.putStripeByte s t0 k0 j v) := by
  intro s t0 k0 j v h0
  unfold State.putStripeByte
  try dsimp only
  repeat' first
    | with_reducible assumption | with_reducible apply State.putPlace_keeps
    | with_reducible apply State.bumpParity_keeps | with_reducible exact EngKeeps.refl _ | (intro _)
    | with_reducible refine Keeps.ofSnd ?_ (by assumption) | with_reducible refine Keeps.ofFst ?_ (by assumption)
    | split | with_reducible refine EngKeeps.upd ?_ rfl rfl rfl | with_reducible refine Keeps.upd ?_ rfl rfl

theorem State.putTensor_keeps {r : State} : ∀ (s : State) t0 off a0, Keeps r s → Keeps r (State.putTensor s t0 off a0) := by
  intro s t0 off a0 h0
  unfold State.putTensor
  try dsimp only
  repeat' first
    | with_reducible assumption | with_reducible apply State.putStripeByte_keeps
    | with_reducible apply State.putTensor_keeps | with_reducible exact EngKeeps.refl _ | (intro _) | split

theorem State.takeWhole_keeps {r : State} : ∀ (s : State) e twin, Keeps r s → ∀ y z, State.takeWhole s e twin = some (y, z) →
    Keeps r z := by
  intro s e twin h0 t u hu
  simp only [State.takeWhole, Option.map_eq_some_iff, Prod.mk.injEq] at hu
  obtain ⟨_, _, _, rfl⟩ := hu
  exact h0.draw.modEng (fun x => (EngKeeps.refl x).same rfl rfl rfl rfl rfl rfl)

theorem State.replaceRow_keeps {r : State} : ∀ (s : State) e twin u0 ch, Keeps r s →
    ∀ z, State.replaceRow s e twin u0 ch = some z → Keeps r z := by
  intro s e twin u ch h0 t ht
  simp only [State.replaceRow] at ht
  split at ht
  · cases ht
    exact h0.modEng (fun x => (EngKeeps.refl x).same rfl rfl rfl rfl rfl rfl)
  · simp only [Option.map_eq_some_iff] at ht
    obtain ⟨⟨v, s1⟩, h1, rfl⟩ := ht
    exact (State.takeWhole_keeps _ _ _ h0 _ _ h1).modEng (fun x => (EngKeeps.refl x).same rfl rfl rfl rfl rfl rfl)

theorem State.takeUnit_keeps {r : State} : ∀ (s : State) e twin, Keeps r s → ∀ y z, State.takeUnit s e twin = some (y, z) →
    Keeps r z := by
  intro s e twin h0 t u hu
  simp only [State.takeUnit, Option.bind_eq_bind, Option.bind_eq_some_iff, Option.pure_def, Option.some.injEq,
    Prod.mk.injEq] at hu
  obtain ⟨⟨v, s1⟩, h1, s2, h2, _, rfl⟩ := hu
  exact Keeps.foldlM (g := id) (State.takeWhole_keeps _ _ _ h0 _ _ h1)
    (fun b a c hb hc => State.replaceRow_keeps _ _ _ _ _ hb _ hc) h2

theorem State.takeUnits_keeps {r : State} : ∀ (s : State) e twin a, Keeps r s →
    ∀ y z, State.takeUnits s e twin a = some (y, z) → Keeps r z := by
  intro s e twin n h0
  induction n generalizing s with
  | zero =>
    intro t u hu
    simp only [State.takeUnits, Option.some.injEq, Prod.mk.injEq] at hu
    exact hu.2 ▸ h0
  | succ n ih =>
    intro t u hu
    simp only [State.takeUnits, Option.bind_eq_bind, Option.bind_eq_some_iff, Option.pure_def, Option.some.injEq,
      Prod.mk.injEq] at hu
    obtain ⟨⟨v, s1⟩, h1, ⟨vs, s2⟩, h2, _, rfl⟩ := hu
    exact ih _ (State.takeUnit_keeps _ _ _ h0 _ _ h1) _ _ h2

theorem State.takePlacement_keeps {r : State} : ∀ (s : State) t pl, Keeps r s →
    ∀ y z, State.takePlacement s t pl = some (y, z) → Keeps r z := by
  intro s t pl h0 p u hu
  simp only [State.takePlacement] at hu
  refine Keeps.foldlM (g := Prod.snd) (b := (_, s)) (c := (p, u)) h0 ?_ hu
  intro b a c hb hc
  simp only [Option.bind_eq_bind, Option.bind_eq_some_iff, Option.pure_def, Option.some.injEq] at hc
  obtain ⟨⟨us, s1⟩, h1, rfl⟩ := hc
  exact State.takeUnits_keeps _ _ _ _ hb _ _ h1

theorem State.freePlacement_keeps {r : State} : ∀ (s : State) pl, Keeps r s → Keeps r (State.freePlacement s pl) := by
  intro s pl h0
  unfold State.freePlacement
  refine Keeps.foldl h0 (fun t a ht => ?_)
  dsimp only
  split
  · exact ht.pool (fun x hx => Memory.wf_foldl (Memory.wf_foldl hx (fun _ _ h => Memory.wf_clear _ _ h))
      (fun _ _ h => Memory.wf_clear _ _ (Memory.wf_clear _ _ h))) (fun _ => rfl) (fun _ => rfl) (fun _ => rfl)
  · exact ht

theorem State.modTensor_keeps {r : State} : ∀ (s : State) p id f, Keeps r s → Keeps r (State.modTensor s p id f) := by
  intro s p id f h0
  unfold State.modTensor
  try dsimp only
  repeat' first
    | with_reducible assumption | with_reducible apply Keeps.modPart | with_reducible exact EngKeeps.refl _ | (intro _)
    | split | with_reducible refine EngKeeps.upd ?_ rfl rfl rfl | with_reducible refine Keeps.upd ?_ rfl rfl

theorem State.poisonDead_keeps {r : State} : ∀ (s : State) p, Keeps r s → Keeps r (State.poisonDead s p) := by
  intro s p h0
  unfold State.poisonDead
  try dsimp only
  repeat' first
    | with_reducible assumption | with_reducible apply Keeps.modPart | with_reducible exact EngKeeps.refl _ | (intro _)
    | split | with_reducible refine EngKeeps.upd ?_ rfl rfl rfl | with_reducible refine Keeps.upd ?_ rfl rfl

end Sys2Proof.Machine
end

