-- ==== Sys2Proof/Laws/KeepsStoreOps.lean ====
section
/-! SUPPORT. What the operations of Machine/StoreOps keep (Laws/Keeps). -/

namespace Sys2Proof.Machine

theorem State.modVolume_keeps {r : State} : ∀ (s : State) v f, Keeps r s →
    (∀ x : Volume, x.bytes.wf = true → (f x).bytes.wf = true) → Keeps r (State.modVolume s v f) := by
  intro s v f h0 hf
  refine h0.vols rfl (fun k => ⟨fun x hx => ?_, k.2⟩) rfl rfl
  simp only [State.modVolume, List.mem_map, Prod.exists] at hx
  obtain ⟨a, i, ha, rfl⟩ := hx
  have hm : a ∈ s.store.volumes := List.fst_mem_of_mem_zipIdx ha
  split
  · exact hf _ (k.1 _ hm)
  · exact k.1 _ hm

theorem State.issue_keeps {r : State} : ∀ (s : State) c, Keeps r s → Keeps r (State.issue s c) := by
  intro s c h0
  unfold State.issue
  try dsimp only
  repeat' first
    | with_reducible assumption | with_reducible exact EngKeeps.refl _ | (intro _)
    | with_reducible refine EngKeeps.upd ?_ rfl rfl rfl | with_reducible refine Keeps.upd ?_ rfl rfl

theorem State.writeBlocks_keeps {r : State} : ∀ (s : State) v lba bs, Keeps r s →
    Keeps r (State.writeBlocks s v lba bs) := by
  intro s v lba bs h0
  unfold State.writeBlocks
  try dsimp only
  repeat' first
    | with_reducible assumption | exact fun (_ : Volume) h => h
    | exact fun (_ : Volume) h => Memory.wf_writeBytes _ _ h | exact fun (_ : Volume) h => Memory.wf_clear _ _ h
    | exact fun (_ : Volume) h => by split <;> exact h | with_reducible apply State.modVolume_keeps
    | with_reducible exact EngKeeps.refl _ | (intro _) | with_reducible refine EngKeeps.upd ?_ rfl rfl rfl
    | with_reducible refine Keeps.upd ?_ rfl rfl

theorem State.storeWrite_keeps {r : State} : ∀ (s : State) v lba bs fua, Keeps r s →
    Keeps r (State.storeWrite s v lba bs fua) := by
  intro s v lba bs fua h0
  unfold State.storeWrite
  try dsimp only
  repeat' first
    | with_reducible assumption | exact fun (_ : Volume) h => h
    | exact fun (_ : Volume) h => Memory.wf_writeBytes _ _ h | exact fun (_ : Volume) h => Memory.wf_clear _ _ h
    | exact fun (_ : Volume) h => by split <;> exact h | with_reducible apply State.issue_keeps
    | with_reducible apply State.writeBlocks_keeps | with_reducible apply State.modVolume_keeps
    | with_reducible apply Keeps.foldl | with_reducible apply Keeps.foldlSnd | with_reducible apply Keeps.foldlFst
    | with_reducible apply EngKeeps.foldl | with_reducible exact EngKeeps.refl _ | (intro _) | split
    | with_reducible refine EngKeeps.upd ?_ rfl rfl rfl | with_reducible refine Keeps.upd ?_ rfl rfl

theorem State.writePtr_keeps {r : State} : ∀ (s : State) p bs fua, Keeps r s → Keeps r (State.writePtr s p bs fua) := by
  intro s p bs fua h0
  unfold State.writePtr
  try dsimp only
  repeat' first
    | with_reducible assumption | with_reducible apply State.storeWrite_keeps | with_reducible exact EngKeeps.refl _
    | (intro _)

theorem State.storeRead_keeps {r : State} : ∀ (s : State) p n, Keeps r s → Keeps r (State.storeRead s p n) := by
  intro s p n h0
  unfold State.storeRead
  try dsimp only
  repeat' first
    | with_reducible assumption | with_reducible apply State.issue_keeps | with_reducible exact EngKeeps.refl _
    | (intro _)

theorem State.flushVolume_keeps {r : State} : ∀ (s : State) v, Keeps r s → Keeps r (State.flushVolume s v) := by
  intro s v h0
  unfold State.flushVolume
  try dsimp only
  repeat' first
    | with_reducible assumption | exact fun (_ : Volume) h => h
    | exact fun (_ : Volume) h => Memory.wf_writeBytes _ _ h | exact fun (_ : Volume) h => Memory.wf_clear _ _ h
    | exact fun (_ : Volume) h => by split <;> exact h | with_reducible apply State.issue_keeps
    | with_reducible apply State.modVolume_keeps | with_reducible exact EngKeeps.refl _ | (intro _)
    | with_reducible refine EngKeeps.upd ?_ rfl rfl rfl | with_reducible refine Keeps.upd ?_ rfl rfl

theorem State.zeroBlocks_keeps {r : State} : ∀ (s : State) v lba n, Keeps r s → Keeps r (State.zeroBlocks s v lba n) := by
  intro s v lba n h0
  unfold State.zeroBlocks
  try dsimp only
  repeat' first
    | with_reducible assumption | exact fun (_ : Volume) h => h
    | exact fun (_ : Volume) h => Memory.wf_writeBytes _ _ h | exact fun (_ : Volume) h => Memory.wf_clear _ _ h
    | exact fun (_ : Volume) h => by split <;> exact h | with_reducible apply State.modVolume_keeps
    | with_reducible exact EngKeeps.refl _ | (intro _) | with_reducible refine EngKeeps.upd ?_ rfl rfl rfl
    | with_reducible refine Keeps.upd ?_ rfl rfl

theorem State.writeZeroes_keeps {r : State} : ∀ (s : State) v lba n, Keeps r s → Keeps r (State.writeZeroes s v lba n) := by
  intro s v lba n h0
  unfold State.writeZeroes
  try dsimp only
  repeat' first
    | with_reducible assumption | with_reducible apply State.zeroBlocks_keeps | with_reducible apply State.issue_keeps
    | with_reducible exact EngKeeps.refl _ | (intro _)

theorem State.deallocate_keeps {r : State} : ∀ (s : State) v lba n, Keeps r s → Keeps r (State.deallocate s v lba n) := by
  intro s v lba n h0
  unfold State.deallocate
  try dsimp only
  repeat' first
    | with_reducible assumption | with_reducible apply State.zeroBlocks_keeps | with_reducible apply State.issue_keeps
    | with_reducible exact EngKeeps.refl _ | (intro _)

theorem State.writeLease_keeps {r : State} : ∀ (s : State) state, Keeps r s → Keeps r (State.writeLease s state) := by
  intro s state h0
  unfold State.writeLease
  try dsimp only
  repeat' first
    | with_reducible assumption | with_reducible apply State.storeWrite_keeps | with_reducible exact EngKeeps.refl _
    | (intro _)

/-- Opening queues leaves the bytes of a volume alone. -/
@[simp] theorem State.openQueues_bytes (s : State) (r : DWord) (x : Volume) : (s.openQueues r x).bytes = x.bytes := by
  unfold State.openQueues; rfl
theorem State.connectAll_keeps {r : State} : ∀ (s : State), Keeps r s → Keeps r (State.connectAll s) := by
  intro s h0
  unfold State.connectAll
  refine h0.foldl (fun t i ht => ?_)
  show Keeps r ((t.draw 64).2.modVolume i (fun x => (t.draw 64).2.openQueues (t.draw 64).1 x))
  exact State.modVolume_keeps _ _ _ (ht.draw (w := 64)) (fun x h => by rw [State.openQueues_bytes]; exact h)

theorem State.pruneQueues_keeps {r : State} : ∀ (s : State), Keeps r s → Keeps r (State.pruneQueues s) := by
  intro s h0
  refine h0.vols rfl (fun k => ⟨fun x hx => ?_, k.2⟩) rfl rfl
  simp only [State.pruneQueues, List.mem_map] at hx
  obtain ⟨a, ha, rfl⟩ := hx
  rw [State.openQueues_bytes]
  exact k.1 _ ha

theorem State.loseConnection_keeps {r : State} : ∀ (s : State) v, Keeps r s → Keeps r (State.loseConnection s v) := by
  intro s v h0
  unfold State.loseConnection
  try dsimp only
  repeat' first
    | with_reducible assumption | exact fun (_ : Volume) h => h
    | exact fun (_ : Volume) h => Memory.wf_writeBytes _ _ h | exact fun (_ : Volume) h => Memory.wf_clear _ _ h
    | exact fun (_ : Volume) h => by split <;> exact h | with_reducible apply State.modVolume_keeps
    | with_reducible exact EngKeeps.refl _ | (intro _) | with_reducible refine Keeps.ofSnd ?_ (by assumption)
    | with_reducible refine Keeps.ofFst ?_ (by assumption) | split | with_reducible refine EngKeeps.upd ?_ rfl rfl rfl
    | with_reducible refine Keeps.upd ?_ rfl rfl

theorem State.takeBlocks_keeps {r : State} : ∀ (s : State) blocks, Keeps r s → ∀ y z, State.takeBlocks s blocks = some (y, z) →
    Keeps r z := by
  intro s blocks h0 y z hz
  simp only [State.takeBlocks, Option.map_eq_some_iff, Prod.mk.injEq] at hz
  obtain ⟨_, _, _, rfl⟩ := hz
  exact h0.pick.same rfl rfl rfl rfl rfl

theorem State.freeBlocks_keeps {r : State} : ∀ (s : State) u0, Keeps r s → Keeps r (State.freeBlocks s u0) := by
  intro s u0 h0
  unfold State.freeBlocks
  try dsimp only
  repeat' first
    | with_reducible assumption | with_reducible apply State.deallocate_keeps | with_reducible exact EngKeeps.refl _
    | (intro _) | split | with_reducible refine EngKeeps.upd ?_ rfl rfl rfl
    | with_reducible refine Keeps.upd ?_ rfl rfl

theorem State.freeRun_keeps {r : State} : ∀ (s : State) p, Keeps r s → Keeps r (State.freeRun s p) := by
  intro s p h0
  unfold State.freeRun
  try dsimp only
  repeat' first
    | with_reducible assumption | with_reducible apply State.freeBlocks_keeps | with_reducible exact EngKeeps.refl _
    | (intro _) | with_reducible refine Keeps.ofSnd ?_ (by assumption)
    | with_reducible refine Keeps.ofFst ?_ (by assumption) | split | with_reducible refine EngKeeps.upd ?_ rfl rfl rfl
    | with_reducible refine Keeps.upd ?_ rfl rfl

theorem State.freeWaiting_keeps {r : State} : ∀ (s : State), Keeps r s → Keeps r (State.freeWaiting s) := by
  intro s h0
  unfold State.freeWaiting
  try dsimp only
  repeat' first
    | with_reducible assumption | with_reducible apply State.freeBlocks_keeps | with_reducible apply Keeps.foldl
    | with_reducible apply Keeps.foldlSnd | with_reducible apply Keeps.foldlFst | with_reducible apply EngKeeps.foldl
    | with_reducible exact EngKeeps.refl _ | (intro _)

theorem State.freshNonce_keeps {r : State} : ∀ (s : State), Keeps r s → Keeps r (State.freshNonce s).2 := by
  intro s h0
  unfold State.freshNonce
  try dsimp only
  repeat' first
    | with_reducible assumption | with_reducible apply Keeps.draw | with_reducible exact EngKeeps.refl _ | (intro _)
    | with_reducible refine Keeps.ofSnd ?_ (by assumption) | with_reducible refine Keeps.ofFst ?_ (by assumption)
    | split | with_reducible refine EngKeeps.upd ?_ rfl rfl rfl | with_reducible refine Keeps.upd ?_ rfl rfl

theorem State.journal_keeps {r : State} : ∀ (s : State) e type part payload, Keeps r s →
    Keeps r (State.journal s e type part payload) := by
  intro s e type part payload h0
  unfold State.journal
  try dsimp only
  repeat' first
    | with_reducible assumption | with_reducible apply Keeps.modEng | with_reducible exact EngKeeps.refl _ | (intro _)
    | split | with_reducible refine EngKeeps.upd ?_ rfl rfl rfl | with_reducible refine Keeps.upd ?_ rfl rfl

end Sys2Proof.Machine
end

