-- ==== Sys2Proof/Laws/KeepsLoss.lean ====
section
/-! SUPPORT. What the operations of Machine/Loss keep (Laws/Keeps). -/

namespace Sys2Proof.Machine

theorem State.modEpoch_keeps {r : State} : ∀ (s : State) p n f, Keeps r s → Keeps r (State.modEpoch s p n f) := by
  intro s p n f h0
  unfold State.modEpoch
  try dsimp only
  repeat' first
    | with_reducible assumption | with_reducible apply Keeps.modPart | with_reducible exact EngKeeps.refl _ | (intro _)
    | split | with_reducible refine EngKeeps.upd ?_ rfl rfl rfl | with_reducible refine Keeps.upd ?_ rfl rfl

theorem State.endDigests_keeps {r : State} : ∀ (s : State) f, Keeps r s → Keeps r (State.endDigests s f) := by
  intro s f h0
  unfold State.endDigests
  try dsimp only
  repeat' first
    | with_reducible assumption | with_reducible apply Keeps.modEngines | with_reducible exact EngKeeps.refl _
    | (intro _) | with_reducible refine EngKeeps.upd ?_ rfl rfl rfl | with_reducible refine Keeps.upd ?_ rfl rfl

theorem State.freeStaged_keeps {r : State} : ∀ (s : State) ep, Keeps r s → Keeps r (State.freeStaged s ep) := by
  intro s ep h0
  unfold State.freeStaged
  try dsimp only
  repeat' first
    | with_reducible assumption | with_reducible apply Keeps.modEngines | with_reducible exact EngKeeps.refl _
    | (intro _) | with_reducible refine EngKeeps.upd ?_ rfl rfl rfl | with_reducible refine Keeps.upd ?_ rfl rfl

theorem State.freeEpochBlocks_keeps {r : State} : ∀ (s : State) ep, Keeps r s → Keeps r (State.freeEpochBlocks s ep) := by
  intro s ep h0
  unfold State.freeEpochBlocks
  try dsimp only
  repeat' first
    | with_reducible assumption | with_reducible apply State.freeRun_keeps | with_reducible apply Keeps.foldl
    | with_reducible apply Keeps.foldlSnd | with_reducible apply Keeps.foldlFst | with_reducible apply EngKeeps.foldl
    | with_reducible exact EngKeeps.refl _ | (intro _)

theorem State.hold_keeps {r : State} : ∀ (s : State) p, Keeps r s → Keeps r (State.hold s p) := by
  intro s p h0
  unfold State.hold
  try dsimp only
  repeat' first
    | with_reducible assumption | with_reducible exact EngKeeps.refl _ | (intro _)
    | with_reducible refine EngKeeps.upd ?_ rfl rfl rfl | with_reducible refine Keeps.upd ?_ rfl rfl

theorem State.failEpochOne_keeps {r : State} : ∀ (s : State) p n, Keeps r s → Keeps r (State.failEpochOne s p n) := by
  intro s p n h0
  unfold State.failEpochOne
  try dsimp only
  repeat' first
    | with_reducible assumption | with_reducible apply State.freeStaged_keeps
    | with_reducible apply State.freeEpochBlocks_keeps | with_reducible apply Keeps.endCampaign
    | with_reducible apply State.endDigests_keeps | with_reducible apply State.modEpoch_keeps
    | with_reducible apply Keeps.modPart | with_reducible apply State.hold_keeps
    | with_reducible apply State.faultEvent_keeps | with_reducible exact EngKeeps.refl _ | (intro _)
    | with_reducible refine Keeps.ofSnd ?_ (by assumption) | with_reducible refine Keeps.ofFst ?_ (by assumption)
    | split | with_reducible refine EngKeeps.upd ?_ rfl rfl rfl | with_reducible refine Keeps.upd ?_ rfl rfl

theorem State.failEpoch_keeps {r : State} : ∀ (s : State) p n, Keeps r s → Keeps r (State.failEpoch s p n) := by
  intro s p n h0
  unfold State.failEpoch
  try dsimp only
  repeat' first
    | with_reducible assumption | with_reducible apply State.failEpochOne_keeps | with_reducible apply Keeps.foldl
    | with_reducible apply Keeps.foldlSnd | with_reducible apply Keeps.foldlFst | with_reducible apply EngKeeps.foldl
    | with_reducible exact EngKeeps.refl _ | (intro _) | split

theorem State.setShard_keeps {r : State} : ∀ (s : State) p n i f, Keeps r s → Keeps r (State.setShard s p n i f) := by
  intro s p n i f h0
  unfold State.setShard
  try dsimp only
  repeat' first
    | with_reducible assumption | with_reducible apply State.modEpoch_keeps | with_reducible exact EngKeeps.refl _
    | (intro _) | split | with_reducible refine EngKeeps.upd ?_ rfl rfl rfl
    | with_reducible refine Keeps.upd ?_ rfl rfl

theorem State.shardFails_keeps {r : State} : ∀ (s : State) p n i st, Keeps r s → Keeps r (State.shardFails s p n i st) := by
  intro s p n i st h0
  unfold State.shardFails
  try dsimp only
  repeat' first
    | with_reducible assumption | with_reducible apply State.setShard_keeps | with_reducible apply State.modEpoch_keeps
    | with_reducible apply State.failEpoch_keeps | with_reducible exact EngKeeps.refl _ | (intro _) | split
    | with_reducible refine EngKeeps.upd ?_ rfl rfl rfl | with_reducible refine Keeps.upd ?_ rfl rfl

theorem State.failUncommitted_keeps {r : State} : ∀ (s : State) p, Keeps r s → Keeps r (State.failUncommitted s p) := by
  intro s p h0
  unfold State.failUncommitted
  try dsimp only
  repeat' first
    | with_reducible assumption | with_reducible apply State.failEpoch_keeps | with_reducible apply Keeps.foldl
    | with_reducible apply Keeps.foldlSnd | with_reducible apply Keeps.foldlFst | with_reducible apply EngKeeps.foldl
    | with_reducible exact EngKeeps.refl _ | (intro _)

theorem State.clearAccum_keeps {r : State} : ∀ (s : State) p e, Keeps r s → Keeps r (State.clearAccum s p e) := by
  intro s p e h0
  unfold State.clearAccum
  try dsimp only
  repeat' first
    | with_reducible assumption | with_reducible apply Keeps.modPart | with_reducible apply State.faultEvent_keeps
    | with_reducible exact EngKeeps.refl _ | (intro _) | split | with_reducible refine EngKeeps.upd ?_ rfl rfl rfl
    | with_reducible refine Keeps.upd ?_ rfl rfl

theorem State.failStep_keeps {r : State} : ∀ (s : State) p, Keeps r s → Keeps r (State.failStep s p) := by
  intro s p h0
  unfold State.failStep
  try dsimp only
  repeat' first
    | with_reducible assumption | with_reducible apply Keeps.modPart | with_reducible exact EngKeeps.refl _ | (intro _)
    | with_reducible refine EngKeeps.upd ?_ rfl rfl rfl | with_reducible refine Keeps.upd ?_ rfl rfl

theorem State.failLost_keeps {r : State} : ∀ (s : State) p, Keeps r s → Keeps r (State.failLost s p) := by
  intro s p h0
  unfold State.failLost
  try dsimp only
  repeat' first
    | with_reducible assumption | with_reducible apply State.failEpoch_keeps | with_reducible apply Keeps.foldl
    | with_reducible apply Keeps.foldlSnd | with_reducible apply Keeps.foldlFst | with_reducible apply EngKeeps.foldl
    | with_reducible exact EngKeeps.refl _ | (intro _)

theorem State.partLoses_keeps {r : State} : ∀ (s : State) e p, Keeps r s → Keeps r (State.partLoses s e p) := by
  intro s e p h0
  unfold State.partLoses
  try dsimp only
  repeat' first
    | with_reducible assumption | with_reducible apply State.clearAccum_keeps | with_reducible apply Keeps.modPart
    | with_reducible apply State.failLost_keeps | with_reducible apply State.poisonDead_keeps
    | with_reducible apply State.failUncommitted_keeps | with_reducible exact EngKeeps.refl _ | (intro _) | split
    | with_reducible refine EngKeeps.upd ?_ rfl rfl rfl | with_reducible refine Keeps.upd ?_ rfl rfl

theorem State.engineLost_keeps {r : State} : ∀ (s : State) e, Keeps r s → Keeps r (State.engineLost s e) := by
  intro s e h0
  unfold State.engineLost
  try dsimp only
  repeat' first
    | with_reducible assumption | with_reducible apply State.partLoses_keeps | with_reducible apply Keeps.foldl
    | with_reducible apply Keeps.foldlSnd | with_reducible apply Keeps.foldlFst | with_reducible apply EngKeeps.foldl
    | with_reducible exact EngKeeps.refl _ | (intro _) | split

theorem State.loseGone_keeps {r : State} : ∀ (s : State) gone, Keeps r s → Keeps r (State.loseGone s gone) := by
  intro s gone h0
  unfold State.loseGone
  try dsimp only
  repeat' first
    | with_reducible assumption | with_reducible apply State.engineLost_keeps | with_reducible apply Keeps.foldl
    | with_reducible apply Keeps.foldlSnd | with_reducible apply Keeps.foldlFst | with_reducible apply EngKeeps.foldl
    | with_reducible exact EngKeeps.refl _ | (intro _)

theorem State.memberLog_keeps {r : State} : ∀ (s : State) event eng reason, Keeps r s →
    Keeps r (State.memberLog s event eng reason) := by
  intro s event eng reason h0
  unfold State.memberLog
  try dsimp only
  repeat' first
    | with_reducible assumption | with_reducible exact EngKeeps.refl _ | (intro _)
    | with_reducible refine EngKeeps.upd ?_ rfl rfl rfl | with_reducible refine Keeps.upd ?_ rfl rfl

theorem State.memberJournal_keeps {r : State} : ∀ (s : State) event eng reason, Keeps r s →
    Keeps r (State.memberJournal s event eng reason) := by
  intro s event eng reason h0
  unfold State.memberJournal
  try dsimp only
  repeat' first
    | with_reducible assumption | with_reducible apply State.journal_keeps | with_reducible apply Keeps.foldl
    | with_reducible apply Keeps.foldlSnd | with_reducible apply Keeps.foldlFst | with_reducible apply EngKeeps.foldl
    | with_reducible exact EngKeeps.refl _ | (intro _) | split

theorem State.memberEvent_keeps {r : State} : ∀ (s : State) event eng reason, Keeps r s →
    Keeps r (State.memberEvent s event eng reason) := by
  intro s event eng reason h0
  unfold State.memberEvent
  try dsimp only
  repeat' first
    | with_reducible assumption | with_reducible apply State.memberLog_keeps
    | with_reducible apply State.memberJournal_keeps | with_reducible exact EngKeeps.refl _ | (intro _)

theorem State.checkWindow_keeps {r : State} : ∀ (s : State), Keeps r s → Keeps r (State.checkWindow s) := by
  intro s h0
  unfold State.checkWindow
  try dsimp only
  repeat' first
    | with_reducible assumption | with_reducible apply State.memberEvent_keeps | with_reducible exact EngKeeps.refl _
    | (intro _) | with_reducible refine Keeps.ofSnd ?_ (by assumption)
    | with_reducible refine Keeps.ofFst ?_ (by assumption) | split | with_reducible refine EngKeeps.upd ?_ rfl rfl rfl
    | with_reducible refine Keeps.upd ?_ rfl rfl

theorem State.modMailbox_keeps {r : State} : ∀ (s : State) e k0 f, Keeps r s → Keeps r (State.modMailbox s e k0 f) := by
  intro s e k0 f h0
  unfold State.modMailbox
  try dsimp only
  repeat' first
    | with_reducible assumption | with_reducible apply Keeps.modWin | with_reducible apply Keeps.modEng
    | with_reducible exact EngKeeps.refl _ | (intro _) | with_reducible refine Keeps.ofSnd ?_ (by assumption)
    | with_reducible refine Keeps.ofFst ?_ (by assumption) | split | with_reducible refine EngKeeps.upd ?_ rfl rfl rfl
    | with_reducible refine Keeps.upd ?_ rfl rfl

theorem State.answer_keeps {r : State} : ∀ (s : State) e k0 st body, Keeps r s → Keeps r (State.answer s e k0 st body) := by
  intro s e k0 st body h0
  unfold State.answer
  try dsimp only
  repeat' first
    | with_reducible assumption | with_reducible apply State.modMailbox_keeps | with_reducible exact EngKeeps.refl _
    | (intro _) | with_reducible refine EngKeeps.upd ?_ rfl rfl rfl | with_reducible refine Keeps.upd ?_ rfl rfl

theorem State.answerConfig_keeps {r : State} : ∀ (s : State) e k0 st body, Keeps r s →
    Keeps r (State.answerConfig s e k0 st body) := by
  intro s e k0 st body h0
  unfold State.answerConfig
  try dsimp only
  repeat' first
    | with_reducible assumption | with_reducible apply State.answer_keeps | with_reducible apply State.modMailbox_keeps
    | with_reducible exact EngKeeps.refl _ | (intro _) | split | with_reducible refine EngKeeps.upd ?_ rfl rfl rfl
    | with_reducible refine Keeps.upd ?_ rfl rfl

theorem State.dropAdoption_keeps {r : State} : ∀ (s : State) bump, Keeps r s → Keeps r (State.dropAdoption s bump) := by
  intro s bump h0
  unfold State.dropAdoption
  try dsimp only
  repeat' first
    | with_reducible assumption | with_reducible apply State.answerConfig_keeps
    | with_reducible apply State.answer_keeps | with_reducible exact EngKeeps.refl _ | (intro _)
    | with_reducible refine Keeps.ofSnd ?_ (by assumption) | with_reducible refine Keeps.ofFst ?_ (by assumption)
    | split | with_reducible refine EngKeeps.upd ?_ rfl rfl rfl | with_reducible refine Keeps.upd ?_ rfl rfl

theorem State.formView_keeps {r : State} : ∀ (s : State) set, Keeps r s → Keeps r (State.formView s set) := by
  intro s set h0
  unfold State.formView
  try dsimp only
  repeat' first
    | with_reducible assumption | with_reducible apply State.memberEvent_keeps
    | with_reducible apply State.checkWindow_keeps | with_reducible apply State.dropAdoption_keeps
    | with_reducible exact EngKeeps.refl _ | (intro _) | with_reducible refine Keeps.ofSnd ?_ (by assumption)
    | with_reducible refine Keeps.ofFst ?_ (by assumption) | split | with_reducible refine EngKeeps.upd ?_ rfl rfl rfl
    | with_reducible refine Keeps.upd ?_ rfl rfl

theorem State.quorumCheck_keeps {r : State} : ∀ (s : State), Keeps r s → Keeps r (State.quorumCheck s) := by
  intro s h0
  unfold State.quorumCheck
  try dsimp only
  repeat' first
    | with_reducible assumption | with_reducible apply State.dropAdoption_keeps | with_reducible exact EngKeeps.refl _
    | (intro _) | split

theorem State.depart_keeps {r : State} : ∀ (s : State) e st reason, Keeps r s → Keeps r (State.depart s e st reason) := by
  intro s e st reason h0
  unfold State.depart
  try dsimp only
  repeat' first
    | with_reducible assumption | with_reducible apply Keeps.modEng | with_reducible apply State.formView_keeps
    | with_reducible apply State.memberEvent_keeps | with_reducible apply State.quorumCheck_keeps
    | with_reducible apply State.engineLost_keeps | with_reducible apply State.loseGone_keeps
    | with_reducible exact EngKeeps.refl _ | (intro _) | split | with_reducible refine EngKeeps.upd ?_ rfl rfl rfl
    | with_reducible refine Keeps.upd ?_ rfl rfl

end Sys2Proof.Machine
end

