-- ==== Sys2Proof/Laws/KeepsFaults.lean ====
section
/-! SUPPORT. What the operations of Machine/Faults keep (Laws/Keeps). -/

namespace Sys2Proof.Machine

theorem State.modFlt_keeps {r : State} : ∀ (s : State) e b f, Keeps r s → Keeps r (State.modFlt s e b f) := by
  intro s e b f h0
  unfold State.modFlt
  try dsimp only
  repeat' first
    | with_reducible assumption | with_reducible apply Keeps.modEng | with_reducible exact EngKeeps.refl _ | (intro _)
    | with_reducible refine EngKeeps.upd ?_ rfl rfl rfl | with_reducible refine Keeps.upd ?_ rfl rfl

theorem State.faultLog_keeps {r : State} : ∀ (s : State) e n, Keeps r s → Keeps r (State.faultLog s e n) := by
  intro s e n h0
  unfold State.faultLog
  try dsimp only
  repeat' first
    | with_reducible assumption | with_reducible apply Keeps.modEng | with_reducible exact EngKeeps.refl _ | (intro _)
    | split | with_reducible refine EngKeeps.upd ?_ rfl rfl rfl | with_reducible refine Keeps.upd ?_ rfl rfl

theorem State.actLog_keeps {r : State} : ∀ (s : State) e d sev forced dry, Keeps r s →
    Keeps r (State.actLog s e d sev forced dry) := by
  intro s e d sev forced dry h0
  unfold State.actLog
  try dsimp only
  repeat' first
    | with_reducible assumption | with_reducible apply State.modFlt_keeps | with_reducible apply State.faultLog_keeps
    | with_reducible exact EngKeeps.refl _ | (intro _) | with_reducible refine EngKeeps.upd ?_ rfl rfl rfl
    | with_reducible refine Keeps.upd ?_ rfl rfl

theorem State.actNotify_keeps {r : State} : ∀ (s : State) e d, Keeps r s → Keeps r (State.actNotify s e d) := by
  intro s e d h0
  unfold State.actNotify
  try dsimp only
  repeat' first
    | with_reducible assumption | with_reducible apply State.signalV0_keeps | with_reducible apply Keeps.send
    | with_reducible exact EngKeeps.refl _ | (intro _) | split

theorem Engine.stopPairs_keeps {w : Engine} : ∀ (x : Engine) f, EngKeeps w x → EngKeeps w (Engine.stopPairs x f) := by
  intro x f h0
  unfold Engine.stopPairs
  try dsimp only
  repeat' first
    | with_reducible assumption | with_reducible exact EngKeeps.refl _ | (intro _) | split
    | with_reducible refine EngKeeps.upd ?_ rfl rfl rfl

theorem Engine.portChanged_keeps {w : Engine} : ∀ (x : Engine), EngKeeps w x → EngKeeps w (Engine.portChanged x) := by
  intro x h0
  unfold Engine.portChanged
  try dsimp only
  repeat' first
    | with_reducible assumption | with_reducible exact EngKeeps.refl _ | (intro _)
    | with_reducible refine EngKeeps.upd ?_ rfl rfl rfl

theorem Engine.modPort_keeps {w : Engine} : ∀ (x : Engine) n f, EngKeeps w x → EngKeeps w (Engine.modPort x n f) := by
  intro x n f h0
  unfold Engine.modPort
  try dsimp only
  repeat' first
    | with_reducible assumption | with_reducible apply Engine.portChanged_keeps | with_reducible exact EngKeeps.refl _
    | (intro _) | with_reducible refine EngKeeps.upd ?_ rfl rfl rfl

theorem Engine.stopPort_keeps {w : Engine} : ∀ (x : Engine) n, EngKeeps w x → EngKeeps w (Engine.stopPort x n) := by
  intro x n h0
  unfold Engine.stopPort
  try dsimp only
  repeat' first
    | with_reducible assumption | with_reducible apply Engine.stopPairs_keeps
    | with_reducible apply Engine.portChanged_keeps | with_reducible exact EngKeeps.refl _ | (intro _) | split
    | with_reducible refine EngKeeps.upd ?_ rfl rfl rfl

theorem Engine.stopPorts_keeps {w : Engine} : ∀ (x : Engine), EngKeeps w x → EngKeeps w (Engine.stopPorts x) := by
  intro x h0
  unfold Engine.stopPorts
  try dsimp only
  repeat' first
    | with_reducible assumption | with_reducible apply Engine.stopPairs_keeps
    | with_reducible apply Engine.portChanged_keeps | with_reducible exact EngKeeps.refl _ | (intro _) | split
    | with_reducible refine EngKeeps.upd ?_ rfl rfl rfl

theorem State.loseChannel_keeps {r : State} : ∀ (s : State) e ch, Keeps r s → Keeps r (State.loseChannel s e ch) := by
  intro s e ch h0
  unfold State.loseChannel
  try dsimp only
  repeat' first
    | with_reducible assumption | with_reducible apply Keeps.modEng | with_reducible apply State.failEpoch_keeps
    | with_reducible apply Keeps.modPart | with_reducible apply Keeps.startCampaign | with_reducible apply Keeps.foldl
    | with_reducible apply Keeps.foldlSnd | with_reducible apply Keeps.foldlFst | with_reducible apply EngKeeps.foldl
    | with_reducible exact EngKeeps.refl _ | (intro _) | split | with_reducible refine EngKeeps.upd ?_ rfl rfl rfl
    | with_reducible refine Keeps.upd ?_ rfl rfl

theorem State.onChannel_keeps {r : State} : ∀ (s : State), Keeps r s → Keeps r (State.onChannel s).2 := by
  intro s h0
  unfold State.onChannel
  try dsimp only
  repeat' first
    | with_reducible assumption | with_reducible apply Keeps.draw | with_reducible exact EngKeeps.refl _ | (intro _)
    | with_reducible refine Keeps.ofSnd ?_ (by assumption) | with_reducible refine Keeps.ofFst ?_ (by assumption)
    | split

theorem State.losePseudo_keeps {r : State} : ∀ (s : State) e, Keeps r s → Keeps r (State.losePseudo s e) := by
  intro s e h0
  unfold State.losePseudo
  try dsimp only
  repeat' first
    | with_reducible assumption | with_reducible apply Keeps.modPart | with_reducible apply State.onChannel_keeps
    | with_reducible apply State.failEpoch_keeps | with_reducible apply State.clearAccum_keeps
    | with_reducible apply Keeps.foldl | with_reducible apply Keeps.foldlSnd | with_reducible apply Keeps.foldlFst
    | with_reducible apply EngKeeps.foldl | with_reducible exact EngKeeps.refl _ | (intro _)
    | with_reducible refine Keeps.ofSnd ?_ (by assumption) | with_reducible refine Keeps.ofFst ?_ (by assumption)
    | split | with_reducible refine EngKeeps.upd ?_ rfl rfl rfl | with_reducible refine Keeps.upd ?_ rfl rfl

theorem State.endDgx_keeps {r : State} : ∀ (s : State) e p sc frag, Keeps r s → Keeps r (State.endDgx s e p sc frag) := by
  intro s e p sc frag h0
  unfold State.endDgx
  try dsimp only
  repeat' first
    | with_reducible assumption | with_reducible apply Keeps.modWin | with_reducible apply State.signalBlock_keeps
    | with_reducible exact EngKeeps.refl _ | (intro _) | with_reducible refine EngKeeps.upd ?_ rfl rfl rfl
    | with_reducible refine Keeps.upd ?_ rfl rfl

theorem Engine.awaitLane_keeps {w : Engine} : ∀ (x : Engine) w0, EngKeeps w x → EngKeeps w (Engine.awaitLane x w0) := by
  intro x w0 h0
  unfold Engine.awaitLane
  try dsimp only
  repeat' first
    | with_reducible assumption | with_reducible exact EngKeeps.refl _ | (intro _) | split
    | with_reducible refine EngKeeps.upd ?_ rfl rfl rfl

theorem State.laneJobFails_keeps {r : State} : ∀ (s : State) e w0, Keeps r s → Keeps r (State.laneJobFails s e w0) := by
  intro s e w0 h0
  unfold State.laneJobFails
  try dsimp only
  repeat' first
    | with_reducible assumption | with_reducible apply State.endDgx_keeps | with_reducible apply State.shardFails_keeps
    | with_reducible apply Keeps.modEng | with_reducible apply Engine.awaitLane_keeps
    | with_reducible exact EngKeeps.refl _ | (intro _) | with_reducible refine Keeps.ofSnd ?_ (by assumption)
    | with_reducible refine Keeps.ofFst ?_ (by assumption) | split | with_reducible refine EngKeeps.upd ?_ rfl rfl rfl
    | with_reducible refine Keeps.upd ?_ rfl rfl

theorem State.endSaved_keeps {r : State} : ∀ (s : State) e, Keeps r s → Keeps r (State.endSaved s e) := by
  intro s e h0
  unfold State.endSaved
  try dsimp only
  repeat' first
    | with_reducible assumption | with_reducible apply Keeps.modEng | with_reducible apply State.endDgx_keeps
    | with_reducible apply Keeps.foldl | with_reducible apply Keeps.foldlSnd | with_reducible apply Keeps.foldlFst
    | with_reducible apply EngKeeps.foldl | with_reducible exact EngKeeps.refl _ | (intro _) | split
    | with_reducible refine EngKeeps.upd ?_ rfl rfl rfl | with_reducible refine Keeps.upd ?_ rfl rfl

theorem State.loseLane_keeps {r : State} : ∀ (s : State) e lane, Keeps r s → Keeps r (State.loseLane s e lane) := by
  intro s e lane h0
  unfold State.loseLane
  try dsimp only
  repeat' first
    | with_reducible assumption | with_reducible apply Keeps.modEng | with_reducible apply State.laneJobFails_keeps
    | with_reducible apply State.endSaved_keeps | with_reducible exact EngKeeps.refl _ | (intro _)
    | with_reducible refine Keeps.ofSnd ?_ (by assumption) | with_reducible refine Keeps.ofFst ?_ (by assumption)
    | split | with_reducible refine EngKeeps.upd ?_ rfl rfl rfl | with_reducible refine Keeps.upd ?_ rfl rfl

theorem State.unitLost_keeps {r : State} : ∀ (s : State) e d, Keeps r s → Keeps r (State.unitLost s e d) := by
  intro s e d h0
  unfold State.unitLost
  try dsimp only
  repeat' first
    | with_reducible assumption | with_reducible apply State.loseLane_keeps
    | with_reducible apply State.loseChannel_keeps | with_reducible apply State.losePseudo_keeps
    | with_reducible apply Keeps.modEng | with_reducible apply Engine.stopPort_keeps
    | with_reducible exact EngKeeps.refl _ | (intro _) | with_reducible refine Keeps.ofSnd ?_ (by assumption)
    | with_reducible refine Keeps.ofFst ?_ (by assumption) | split | with_reducible refine EngKeeps.upd ?_ rfl rfl rfl
    | with_reducible refine Keeps.upd ?_ rfl rfl

theorem State.fenceEngine_keeps {r : State} : ∀ (s : State) e d sev, Keeps r s → Keeps r (State.fenceEngine s e d sev) := by
  intro s e d sev h0
  unfold State.fenceEngine
  try dsimp only
  repeat' first
    | with_reducible assumption | with_reducible apply State.modFlt_keeps | with_reducible apply State.faultLog_keeps
    | with_reducible apply Keeps.modEng | with_reducible apply Engine.stopPorts_keeps
    | with_reducible apply State.depart_keeps | with_reducible apply State.pfltEvent_keeps
    | with_reducible apply Keeps.foldl | with_reducible apply Keeps.foldlSnd | with_reducible apply Keeps.foldlFst
    | with_reducible apply EngKeeps.foldl | with_reducible exact EngKeeps.refl _ | (intro _) | split
    | with_reducible refine EngKeeps.upd ?_ rfl rfl rfl | with_reducible refine Keeps.upd ?_ rfl rfl

theorem State.fenceUnit_keeps {r : State} : ∀ (s : State) e d sev, Keeps r s → Keeps r (State.fenceUnit s e d sev) := by
  intro s e d sev h0
  unfold State.fenceUnit
  try dsimp only
  repeat' first
    | with_reducible assumption | with_reducible apply State.faultLog_keeps | with_reducible apply State.modFlt_keeps
    | with_reducible apply State.fenceEngine_keeps | with_reducible apply State.pfltEvent_keeps
    | with_reducible apply State.unitLost_keeps | with_reducible apply Keeps.foldl
    | with_reducible apply Keeps.foldlSnd | with_reducible apply Keeps.foldlFst | with_reducible apply EngKeeps.foldl
    | with_reducible exact EngKeeps.refl _ | (intro _) | split | with_reducible refine EngKeeps.upd ?_ rfl rfl rfl
    | with_reducible refine Keeps.upd ?_ rfl rfl

theorem State.actFault_keeps {r : State} : ∀ (s : State) e d sev forced dry, Keeps r s →
    Keeps r (State.actFault s e d sev forced dry) := by
  intro s e d sev forced dry h0
  unfold State.actFault
  try dsimp only
  repeat' first
    | with_reducible assumption | with_reducible apply State.actLog_keeps | with_reducible apply State.actNotify_keeps
    | with_reducible apply State.fenceUnit_keeps | with_reducible apply State.fenceEngine_keeps
    | with_reducible exact EngKeeps.refl _ | (intro _) | split

theorem State.detect_keeps {r : State} : ∀ (s : State) e d, Keeps r s → Keeps r (State.detect s e d) := by
  intro s e d h0
  unfold State.detect
  try dsimp only
  repeat' first
    | with_reducible assumption | with_reducible apply State.modFlt_keeps | with_reducible apply State.actFault_keeps
    | with_reducible exact EngKeeps.refl _ | (intro _) | split | with_reducible refine EngKeeps.upd ?_ rfl rfl rfl
    | with_reducible refine Keeps.upd ?_ rfl rfl

theorem State.mgmtFault_keeps {r : State} : ∀ (s : State) e src, Keeps r s → Keeps r (State.mgmtFault s e src) := by
  intro s e src h0
  unfold State.mgmtFault
  try dsimp only
  repeat' first
    | with_reducible assumption | with_reducible apply State.detect_keeps | with_reducible exact EngKeeps.refl _
    | (intro _) | with_reducible refine EngKeeps.upd ?_ rfl rfl rfl | with_reducible refine Keeps.upd ?_ rfl rfl

theorem State.nearEnd_keeps {r : State} : ∀ (s : State) before, Keeps r s → Keeps r (State.nearEnd s before) := by
  intro s before h0
  unfold State.nearEnd
  try dsimp only
  repeat' first
    | with_reducible assumption | with_reducible apply State.mgmtFault_keeps | with_reducible exact EngKeeps.refl _
    | (intro _) | split

theorem State.leave_keeps {r : State} : ∀ (s : State) e st reason, Keeps r s → Keeps r (State.leave s e st reason) := by
  intro s e st reason h0
  unfold State.leave
  try dsimp only
  repeat' first
    | with_reducible assumption | with_reducible apply State.fenceEngine_keeps
    | with_reducible apply State.depart_keeps | with_reducible apply State.nearEnd_keeps
    | with_reducible exact EngKeeps.refl _ | (intro _) | split | with_reducible refine EngKeeps.upd ?_ rfl rfl rfl
    | with_reducible refine Keeps.upd ?_ rfl rfl

theorem State.relevel_keeps {r : State} : ∀ (s : State) e b src, Keeps r s → Keeps r (State.relevel s e b src) := by
  intro s e b src h0
  unfold State.relevel
  try dsimp only
  repeat' first
    | with_reducible assumption | with_reducible apply State.actFault_keeps | with_reducible exact EngKeeps.refl _
    | (intro _) | split

theorem State.clearFaults_keeps {r : State} : ∀ (s : State) e b w0, Keeps r s → Keeps r (State.clearFaults s e b w0) := by
  intro s e b w0 h0
  unfold State.clearFaults
  try dsimp only
  repeat' first
    | with_reducible assumption | with_reducible apply State.modFlt_keeps | with_reducible apply State.faultLog_keeps
    | with_reducible apply State.relevel_keeps | with_reducible apply Keeps.foldl | with_reducible apply Keeps.foldlSnd
    | with_reducible apply Keeps.foldlFst | with_reducible apply EngKeeps.foldl | with_reducible exact EngKeeps.refl _
    | (intro _) | split | with_reducible refine EngKeeps.upd ?_ rfl rfl rfl
    | with_reducible refine Keeps.upd ?_ rfl rfl

theorem State.injectFaults_keeps {r : State} : ∀ (s : State) e b w0, Keeps r s → Keeps r (State.injectFaults s e b w0) := by
  intro s e b w0 h0
  unfold State.injectFaults
  try dsimp only
  repeat' first
    | with_reducible assumption | with_reducible apply State.actFault_keeps | with_reducible apply Keeps.foldl
    | with_reducible apply Keeps.foldlSnd | with_reducible apply Keeps.foldlFst | with_reducible apply EngKeeps.foldl
    | with_reducible exact EngKeeps.refl _ | (intro _) | split | with_reducible refine EngKeeps.upd ?_ rfl rfl rfl
    | with_reducible refine Keeps.upd ?_ rfl rfl

end Sys2Proof.Machine
end

