-- ==== Sys2Proof/Laws/KeepsCommand.lean ====
section
/-! SUPPORT. What the operations of Machine/Command keep (Laws/Keeps). -/

namespace Sys2Proof.Machine

theorem refuse_keeps {r : State} : ∀ (s : State) st, Keeps r s → Keeps r (refuse s st).1 := by
  intro s st h0
  unfold refuse
  try dsimp only
  repeat' first
    | with_reducible assumption | with_reducible exact EngKeeps.refl _ | (intro _)

theorem badField_keeps {r : State} : ∀ (s : State) off, Keeps r s → Keeps r (badField s off).1 := by
  intro s off h0
  unfold badField
  try dsimp only
  repeat' first
    | with_reducible assumption | with_reducible exact EngKeeps.refl _ | (intro _)

theorem guarded_keeps {r : State} : ∀ c (s : State) sp k, Keeps r s → Keeps r k.1 → Keeps r (guarded c s sp k).1 := by
  intro c s sp k h0 h1
  unfold guarded
  repeat' first
    | with_reducible assumption | split

theorem ordered_keeps {r : State} : ∀ (s : State) cs k, Keeps r s → Keeps r k.1 → Keeps r (ordered s cs k).1 := by
  intro s cs k h0 h1
  unfold ordered
  repeat' first
    | with_reducible assumption | with_reducible apply refuse_keeps | split

theorem writeBuffer_keeps {r : State} : ∀ c (s : State) data body, Keeps r s → Keeps r (writeBuffer c s data body).1 := by
  intro c s data body h0
  unfold writeBuffer
  try dsimp only
  repeat' first
    | with_reducible assumption | with_reducible apply Keeps.deliver | with_reducible exact EngKeeps.refl _ | (intro _)
    | with_reducible refine Keeps.ofSnd ?_ (by assumption) | with_reducible refine Keeps.ofFst ?_ (by assumption)
    | split | with_reducible refine EngKeeps.upd ?_ rfl rfl rfl | with_reducible refine Keeps.upd ?_ rfl rfl

theorem withData_keeps {r : State} : ∀ c (s : State) k, Keeps r s → (∀ a0, Keeps r (k a0).1) → Keeps r (withData c s k).1 := by
  intro c s k h0 h1
  unfold withData
  split
  · exact h1 _
  · exact h0

theorem State.adopt_keeps {r : State} : ∀ (s : State) r0 cmd p src, Keeps r s → Keeps r (State.adopt s r0 cmd p src) := by
  intro s r0 cmd p src h0
  unfold State.adopt
  try dsimp only
  repeat' first
    | with_reducible assumption | with_reducible exact EngKeeps.refl _ | (intro _)
    | with_reducible refine EngKeeps.upd ?_ rfl rfl rfl | with_reducible refine Keeps.upd ?_ rfl rfl

theorem startAdoption_keeps {r : State} : ∀ c (s : State) r0, Keeps r s → Keeps r (startAdoption c s r0).1 := by
  intro c s r0 h0
  unfold startAdoption
  try dsimp only
  repeat' first
    | with_reducible assumption | with_reducible apply State.adopt_keeps | with_reducible exact EngKeeps.refl _
    | (intro _) | split

end Sys2Proof.Machine
end

