-- ==== Sys2Proof/Laws/KeepsTimeOps.lean ====
section
/-! SUPPORT. What the operations of Machine/TimeOps keep (Laws/Keeps). -/

namespace Sys2Proof.Machine

theorem State.selectSource_keeps {r : State} : ∀ (s : State), Keeps r s → Keeps r (State.selectSource s) := by
  intro s h0
  unfold State.selectSource
  try dsimp only
  repeat' first
    | with_reducible assumption | with_reducible exact EngKeeps.refl _ | (intro _) | split
    | with_reducible refine EngKeeps.upd ?_ rfl rfl rfl | with_reducible refine Keeps.upd ?_ rfl rfl

theorem State.steerAll_keeps {r : State} : ∀ (s : State) src mayStep, Keeps r s →
    Keeps r (State.steerAll s src mayStep) := by
  intro s src mayStep h0
  unfold State.steerAll
  try dsimp only
  repeat' first
    | with_reducible assumption | with_reducible apply Keeps.modEngines | with_reducible exact EngKeeps.refl _
    | (intro _) | split | with_reducible refine EngKeeps.upd ?_ rfl rfl rfl
    | with_reducible refine Keeps.upd ?_ rfl rfl

theorem State.timeSet_keeps {r : State} : ∀ (s : State) tai boundUs, Keeps r s → Keeps r (State.timeSet s tai boundUs) := by
  intro s tai boundUs h0
  unfold State.timeSet
  try dsimp only
  repeat' first
    | with_reducible assumption | with_reducible apply State.steerAll_keeps | with_reducible exact EngKeeps.refl _
    | (intro _) | with_reducible refine EngKeeps.upd ?_ rfl rfl rfl | with_reducible refine Keeps.upd ?_ rfl rfl

end Sys2Proof.Machine
end

