-- ==== Sys2Proof/Laws/KeepsAdmin.lean ====
section
/-! SUPPORT. What the operations of Machine/Admin keep (Laws/Keeps). -/

namespace Sys2Proof.Machine

theorem State.setCap_keeps {r : State} : ∀ (s : State) c, Keeps r s → Keeps r (State.setCap s c) := by
  intro s c h0
  unfold State.setCap
  try dsimp only
  repeat' first
    | with_reducible assumption | with_reducible apply Keeps.modEngines | with_reducible exact EngKeeps.refl _
    | (intro _) | split | with_reducible refine EngKeeps.upd ?_ rfl rfl rfl
    | with_reducible refine Keeps.upd ?_ rfl rfl

theorem State.applyFeature_keeps {r : State} : ∀ (s : State) fid es p v, Keeps r s →
    Keeps r (State.applyFeature s fid es p v) := by
  intro s fid es p v h0
  unfold State.applyFeature
  try dsimp only
  repeat' first
    | with_reducible assumption | with_reducible apply Keeps.modEng | with_reducible apply Keeps.modEngines
    | with_reducible apply State.setCap_keeps | with_reducible apply Keeps.modPart
    | with_reducible apply State.selectSource_keeps | with_reducible apply Keeps.foldl
    | with_reducible apply Keeps.foldlSnd | with_reducible apply Keeps.foldlFst | with_reducible apply EngKeeps.foldl
    | with_reducible exact EngKeeps.refl _ | (intro _) | with_reducible refine Keeps.ofSnd ?_ (by assumption)
    | with_reducible refine Keeps.ofFst ?_ (by assumption) | split | with_reducible refine EngKeeps.upd ?_ rfl rfl rfl
    | with_reducible refine Keeps.upd ?_ rfl rfl

theorem State.loadFeatures_keeps {r : State} : ∀ (s : State), Keeps r s → Keeps r (State.loadFeatures s) := by
  intro s h0
  unfold State.loadFeatures
  try dsimp only
  repeat' first
    | with_reducible assumption | with_reducible apply Keeps.modEngines | with_reducible apply Keeps.modPart
    | with_reducible apply State.applyFeature_keeps | with_reducible apply Keeps.foldl
    | with_reducible apply Keeps.foldlSnd | with_reducible apply Keeps.foldlFst | with_reducible apply EngKeeps.foldl
    | with_reducible exact EngKeeps.refl _ | (intro _) | with_reducible refine EngKeeps.upd ?_ rfl rfl rfl
    | with_reducible refine Keeps.upd ?_ rfl rfl

theorem setFeatureValue_keeps {r : State} : ∀ c (s : State) fid v, Keeps r s → Keeps r (setFeatureValue c s fid v).1 := by
  intro c s fid v h0
  unfold setFeatureValue
  try dsimp only
  repeat' first
    | with_reducible assumption | with_reducible apply refuse_keeps | with_reducible apply startAdoption_keeps
    | with_reducible apply State.applyFeature_keeps | with_reducible exact EngKeeps.refl _ | (intro _) | split

theorem cmdSetFeature_keeps {r : State} : ∀ c (s : State), Keeps r s → Keeps r (cmdSetFeature c s).1 := by
  intro c s h0
  unfold cmdSetFeature
  try dsimp only
  repeat' first
    | with_reducible assumption | with_reducible apply guarded_keeps | with_reducible apply withData_keeps
    | with_reducible apply setFeatureValue_keeps | with_reducible exact EngKeeps.refl _ | (intro _)
    | with_reducible refine Keeps.ofSnd ?_ (by assumption) | with_reducible refine Keeps.ofFst ?_ (by assumption)
    | split | with_reducible refine EngKeeps.upd ?_ rfl rfl rfl | with_reducible refine Keeps.upd ?_ rfl rfl

theorem cmdGetFeature_keeps {r : State} : ∀ c (s : State), Keeps r s → Keeps r (cmdGetFeature c s).1 := by
  intro c s h0
  unfold cmdGetFeature
  try dsimp only
  repeat' first
    | with_reducible assumption | with_reducible apply guarded_keeps | with_reducible apply writeBuffer_keeps
    | with_reducible exact EngKeeps.refl _ | (intro _) | with_reducible refine Keeps.ofSnd ?_ (by assumption)
    | with_reducible refine Keeps.ofFst ?_ (by assumption) | split | with_reducible refine EngKeeps.upd ?_ rfl rfl rfl
    | with_reducible refine Keeps.upd ?_ rfl rfl

theorem cmdIdentify_keeps {r : State} : ∀ c (s : State), Keeps r s → Keeps r (cmdIdentify c s).1 := by
  intro c s h0
  unfold cmdIdentify
  try dsimp only
  repeat' first
    | with_reducible assumption | with_reducible apply guarded_keeps | with_reducible apply writeBuffer_keeps
    | with_reducible exact EngKeeps.refl _ | (intro _) | split

theorem copyPage_keeps {r : State} : ∀ c (s : State) data body, Keeps r s → Keeps r (copyPage c s data body).1 := by
  intro c s data body h0
  unfold copyPage
  try dsimp only
  repeat' first
    | with_reducible assumption | with_reducible apply writeBuffer_keeps | with_reducible exact EngKeeps.refl _
    | (intro _) | with_reducible refine Keeps.ofSnd ?_ (by assumption)
    | with_reducible refine Keeps.ofFst ?_ (by assumption) | split | with_reducible refine EngKeeps.upd ?_ rfl rfl rfl
    | with_reducible refine Keeps.upd ?_ rfl rfl

theorem cmdGetLog_keeps {r : State} : ∀ c (s : State), Keeps r s → Keeps r (cmdGetLog c s).1 := by
  intro c s h0
  unfold cmdGetLog
  try dsimp only
  repeat' first
    | with_reducible assumption | with_reducible apply guarded_keeps | with_reducible apply copyPage_keeps
    | with_reducible exact EngKeeps.refl _ | (intro _)

end Sys2Proof.Machine
end

