-- ==== Sys2Proof/Laws/KeepsTensorOps.lean ====
section
/-! SUPPORT. What the operations of Machine/TensorOps keep (Laws/Keeps). -/

namespace Sys2Proof.Machine

theorem State.putElems_keeps {r : State} : ∀ (s : State) t0 first stoch step site xs, Keeps r s →
    Keeps r (State.putElems s t0 first stoch step site xs) := by
  intro s t0 first stoch step site xs h0
  unfold State.putElems
  try dsimp only
  repeat' first
    | with_reducible assumption | with_reducible apply State.putTensor_keeps | with_reducible exact EngKeeps.refl _
    | (intro _)

theorem State.deriveOne_keeps {r : State} : ∀ (s : State) p w0 step first xs, Keeps r s →
    Keeps r (State.deriveOne s p w0 step first xs) := by
  intro s p w0 step first xs h0
  unfold State.deriveOne
  try dsimp only
  repeat' first
    | with_reducible assumption | with_reducible apply State.putElems_keeps | with_reducible exact EngKeeps.refl _
    | (intro _)

theorem State.deriveWeight_keeps {r : State} : ∀ (s : State) p m step first count, Keeps r s →
    Keeps r (State.deriveWeight s p m step first count) := by
  intro s p m step first count h0
  unfold State.deriveWeight
  try dsimp only
  repeat' first
    | with_reducible assumption | with_reducible apply State.deriveOne_keeps | with_reducible apply Keeps.foldl
    | with_reducible apply Keeps.foldlSnd | with_reducible apply Keeps.foldlFst | with_reducible apply EngKeeps.foldl
    | with_reducible exact EngKeeps.refl _ | (intro _)

theorem State.writeTensor_keeps {r : State} : ∀ (s : State) p t0 off data, Keeps r s →
    Keeps r (State.writeTensor s p t0 off data) := by
  intro s p t0 off data h0
  unfold State.writeTensor
  try dsimp only
  repeat' first
    | with_reducible assumption | with_reducible apply State.putTensor_keeps
    | with_reducible apply State.deriveWeight_keeps | with_reducible exact EngKeeps.refl _ | (intro _) | split

theorem State.freshTensorId_keeps {r : State} : ∀ (s : State) p, Keeps r s → Keeps r (State.freshTensorId s p).2 := by
  intro s p h0
  unfold State.freshTensorId
  try dsimp only
  repeat' first
    | with_reducible assumption | with_reducible apply Keeps.draw | with_reducible exact EngKeeps.refl _ | (intro _)
    | with_reducible refine Keeps.ofSnd ?_ (by assumption) | with_reducible refine Keeps.ofFst ?_ (by assumption)
    | split

theorem State.register_keeps {r : State} : ∀ (s : State) p t, Keeps r s → ∀ z, State.register s p t = some z → Keeps r z := by
  intro s p t h0 z hz
  simp only [State.register, Option.map_eq_some_iff] at hz
  obtain ⟨⟨pl, s1⟩, h1, rfl⟩ := hz
  exact (State.takePlacement_keeps _ _ _ h0 _ _ h1).modPart

theorem State.unregister_keeps {r : State} : ∀ (s : State) p f, Keeps r s → Keeps r (State.unregister s p f) := by
  intro s p f h0
  unfold State.unregister
  try dsimp only
  repeat' first
    | with_reducible assumption | with_reducible apply State.freePlacement_keeps | with_reducible apply Keeps.modPart
    | with_reducible apply Keeps.foldl | with_reducible apply Keeps.foldlSnd | with_reducible apply Keeps.foldlFst
    | with_reducible apply EngKeeps.foldl | with_reducible exact EngKeeps.refl _ | (intro _)
    | with_reducible refine Keeps.ofSnd ?_ (by assumption) | with_reducible refine Keeps.ofFst ?_ (by assumption)
    | split | with_reducible refine EngKeeps.upd ?_ rfl rfl rfl | with_reducible refine Keeps.upd ?_ rfl rfl

theorem State.makePrecond_keeps {r : State} : ∀ (s : State) p m pol, Keeps r s → ∀ z, State.makePrecond s p m pol = some z →
    Keeps r z := by
  intro s p m pol h0 z hz
  simp only [State.makePrecond] at hz
  split at hz
  · exact State.register_keeps _ _ _ (State.freshTensorId_keeps _ _ h0) _ hz
  · cases hz

theorem State.setPreconds_keeps {r : State} : ∀ (s : State) p pol, Keeps r s → ∀ z, State.setPreconds s p pol = some z →
    Keeps r z := by
  intro s p pol h0 z hz
  simp only [State.setPreconds] at hz
  refine Keeps.foldlM (g := id) ?_ (fun b a c hb hc => State.makePrecond_keeps _ _ _ _ hb _ hc) hz
  simp only [id]
  split
  · exact State.unregister_keeps _ _ _ h0
  · exact h0

end Sys2Proof.Machine
end

