-- ==== Sys2Proof/Laws/KeepsManifest.lean ====
section
/-! SUPPORT. What the operations of Machine/Manifest keep (Laws/Keeps). -/

namespace Sys2Proof.Machine

theorem State.freeCommitted_keeps {r : State} : ∀ (s : State) gen commit, Keeps r s →
    Keeps r (State.freeCommitted s gen commit) := by
  intro s gen commit h0
  unfold State.freeCommitted
  try dsimp only
  repeat' first
    | with_reducible assumption | with_reducible apply State.freeRun_keeps | with_reducible apply Keeps.foldl
    | with_reducible apply Keeps.foldlSnd | with_reducible apply Keeps.foldlFst | with_reducible apply EngKeeps.foldl
    | with_reducible exact EngKeeps.refl _ | (intro _)

theorem State.retireEpoch_keeps {r : State} : ∀ (s : State) gen n, Keeps r s → Keeps r (State.retireEpoch s gen n) := by
  intro s gen n h0
  unfold State.retireEpoch
  try dsimp only
  repeat' first
    | with_reducible assumption | with_reducible apply State.writePtr_keeps
    | with_reducible apply State.freeCommitted_keeps | with_reducible exact EngKeeps.refl _ | (intro _)
    | with_reducible refine Keeps.ofSnd ?_ (by assumption) | with_reducible refine Keeps.ofFst ?_ (by assumption)
    | split | with_reducible refine EngKeeps.upd ?_ rfl rfl rfl | with_reducible refine Keeps.upd ?_ rfl rfl

theorem State.retireGen_keeps {r : State} : ∀ (s : State) gen, Keeps r s → Keeps r (State.retireGen s gen) := by
  intro s gen h0
  unfold State.retireGen
  try dsimp only
  repeat' first
    | with_reducible assumption | with_reducible apply State.retireEpoch_keeps
    | with_reducible apply State.storeWrite_keeps | with_reducible apply State.freeRun_keeps
    | with_reducible apply Keeps.foldl | with_reducible apply Keeps.foldlSnd | with_reducible apply Keeps.foldlFst
    | with_reducible apply EngKeeps.foldl | with_reducible exact EngKeeps.refl _ | (intro _)
    | with_reducible refine Keeps.ofSnd ?_ (by assumption) | with_reducible refine Keeps.ofFst ?_ (by assumption)
    | split | with_reducible refine EngKeeps.upd ?_ rfl rfl rfl | with_reducible refine Keeps.upd ?_ rfl rfl

theorem Keeps.genTaken {r s : State} {ns : List Nat} {ps : List Nat} {t : State} (h : Keeps r s)
    (ht : ns.foldlM (fun (a : List Nat × State) n => (a.2.takeBlocks n).map (fun r => (a.1 ++ [r.1], r.2)))
      (([], s) : List Nat × State) = some (ps, t)) : Keeps r t := by
  refine Keeps.foldlM (g := Prod.snd) (b := ([], s)) (c := (ps, t)) h (fun b n c hb hc => ?_) ht
  simp only [Option.map_eq_some_iff] at hc
  obtain ⟨⟨q, u⟩, h1, rfl⟩ := hc
  exact State.takeBlocks_keeps _ _ hb _ _ h1

theorem Keeps.genRing {r s : State} (h : Keeps r s) (rs : List (Nat × Nat)) (v lba : Nat) (b : List Byte) :
    Keeps r ((rs.foldl (fun s r => s.writeZeroes (ptrVol r.1) (ptrLba r.1) r.2) s.freshNonce.2).storeWrite v lba b true) :=
  State.storeWrite_keeps _ _ _ _ _ (Keeps.foldl (State.freshNonce_keeps _ h) (fun _ _ ht => State.writeZeroes_keeps _ _ _ _ ht))

theorem Keeps.genLease {r s : State} (h : Keeps r s) (l : Lease) :
    Keeps r (({ s with store := { s.store with lease := l } } : State).writeLease 1) :=
  State.writeLease_keeps _ _ (Keeps.upd h rfl rfl)

theorem Keeps.genRetire {r s : State} (h : Keeps r s) (gs : List Nat) : Keeps r (gs.foldl (fun s g => s.retireGen g) s) :=
  Keeps.foldl h (fun _ _ ht => State.retireGen_keeps _ _ ht)

theorem State.openGen_keeps {r : State} : ∀ (s : State) p, Keeps r s → ∀ z, s.openGen p = .ok z → Keeps r z := by
  intro s p h0 z hz
  unfold State.openGen at hz
  extract_lets l gen blocks runs at hz
  split at hz
  · cases hz
  · split at hz
    · cases hz
    · split at hz
      · cases hz
      · have hr : runs = (4096 :: List.replicate 16 blocks).foldlM (fun (a : List Nat × State) n =>
            (a.2.takeBlocks n).map (fun r => (a.1 ++ [r.1], r.2))) (([], s) : List Nat × State) := rfl
        clear_value runs
        cases runs with
        | none => cases hz
        | some q =>
          obtain ⟨ps, s1⟩ := q
          have k1 := h0.genTaken hr.symm
          have hz := Except.ok.inj hz
          rw [← hz]
          refine Keeps.genRetire (Keeps.modPart (Keeps.genLease ?_ _)) _
          exact k1.genRing _ _ _ _

theorem State.ensureGen_keeps {r : State} : ∀ (s : State) p, Keeps r s → Keeps r (State.ensureGen s p) := by
  intro s p h0
  unfold State.ensureGen
  dsimp only
  split
  · exact h0
  · split
    · rename_i s1 h1
      exact (State.openGen_keeps _ _ h0 _ h1).modPart
    · exact h0

end Sys2Proof.Machine
end

