-- ==== Sys2Proof/Laws/KeepsKeyOps.lean ====
section
/-! SUPPORT. What the operations of Machine/KeyOps keep (Laws/Keeps). -/

namespace Sys2Proof.Machine

theorem State.modKeeper_keeps {r : State} : ∀ (s : State) e f, Keeps r s → Keeps r (State.modKeeper s e f) := by
  intro s e f h0
  unfold State.modKeeper
  try dsimp only
  repeat' first
    | with_reducible assumption | with_reducible apply Keeps.modEng | with_reducible exact EngKeeps.refl _ | (intro _)
    | with_reducible refine EngKeeps.upd ?_ rfl rfl rfl | with_reducible refine Keeps.upd ?_ rfl rfl

theorem State.fillSlot_keeps {r : State} : ∀ (s : State) e i k0, Keeps r s → Keeps r (State.fillSlot s e i k0) := by
  intro s e i k0 h0
  unfold State.fillSlot
  try dsimp only
  repeat' first
    | with_reducible assumption | with_reducible apply Keeps.draw | with_reducible apply State.modKeeper_keeps
    | with_reducible exact EngKeeps.refl _ | (intro _) | with_reducible refine Keeps.ofSnd ?_ (by assumption)
    | with_reducible refine Keeps.ofFst ?_ (by assumption) | split | with_reducible refine EngKeeps.upd ?_ rfl rfl rfl
    | with_reducible refine Keeps.upd ?_ rfl rfl

theorem State.zeroSlot_keeps {r : State} : ∀ (s : State) e i, Keeps r s → Keeps r (State.zeroSlot s e i) := by
  intro s e i h0
  unfold State.zeroSlot
  try dsimp only
  repeat' first
    | with_reducible assumption | with_reducible apply State.fillSlot_keeps | with_reducible exact EngKeeps.refl _
    | (intro _)

theorem State.zeroSlots_keeps {r : State} : ∀ (s : State) e f, Keeps r s → Keeps r (State.zeroSlots s e f) := by
  intro s e f h0
  unfold State.zeroSlots
  try dsimp only
  repeat' first
    | with_reducible assumption | with_reducible apply State.zeroSlot_keeps | with_reducible apply Keeps.foldl
    | with_reducible apply Keeps.foldlSnd | with_reducible apply Keeps.foldlFst | with_reducible apply EngKeeps.foldl
    | with_reducible exact EngKeeps.refl _ | (intro _) | split

theorem State.zeroAll_keeps {r : State} : ∀ (s : State) e, Keeps r s → Keeps r (State.zeroAll s e) := by
  intro s e h0
  unfold State.zeroAll
  try dsimp only
  repeat' first
    | with_reducible assumption | with_reducible apply State.zeroSlot_keeps
    | with_reducible apply State.modKeeper_keeps | with_reducible apply Keeps.foldl
    | with_reducible apply Keeps.foldlSnd | with_reducible apply Keeps.foldlFst | with_reducible apply EngKeeps.foldl
    | with_reducible exact EngKeeps.refl _ | (intro _) | with_reducible refine EngKeeps.upd ?_ rfl rfl rfl
    | with_reducible refine Keeps.upd ?_ rfl rfl

theorem State.newWrapKey_keeps {r : State} : ∀ (s : State) e, Keeps r s → Keeps r (State.newWrapKey s e) := by
  intro s e h0
  unfold State.newWrapKey
  try dsimp only
  repeat' first
    | with_reducible assumption | with_reducible apply Keeps.draw | with_reducible apply State.modKeeper_keeps
    | with_reducible exact EngKeeps.refl _ | (intro _) | with_reducible refine Keeps.ofSnd ?_ (by assumption)
    | with_reducible refine Keeps.ofFst ?_ (by assumption) | split | with_reducible refine EngKeeps.upd ?_ rfl rfl rfl
    | with_reducible refine Keeps.upd ?_ rfl rfl

theorem State.closeDebug_keeps {r : State} : ∀ (s : State) e, Keeps r s → Keeps r (State.closeDebug s e) := by
  intro s e h0
  unfold State.closeDebug
  try dsimp only
  repeat' first
    | with_reducible assumption | with_reducible apply Keeps.modEng | with_reducible exact EngKeeps.refl _ | (intro _)
    | with_reducible refine EngKeeps.upd ?_ rfl rfl rfl | with_reducible refine Keeps.upd ?_ rfl rfl

theorem State.tamper_keeps {r : State} : ∀ (s : State) e src dur bad, Keeps r s →
    Keeps r (State.tamper s e src dur bad) := by
  intro s e src dur bad h0
  unfold State.tamper
  try dsimp only
  repeat' first
    | with_reducible assumption | with_reducible apply State.hold_keeps | with_reducible apply State.zeroAll_keeps
    | with_reducible apply State.modKeeper_keeps | with_reducible apply Keeps.modEng
    | with_reducible apply State.closeDebug_keeps | with_reducible apply Engine.stopPorts_keeps
    | with_reducible apply State.leave_keeps | with_reducible exact EngKeeps.refl _ | (intro _) | split
    | with_reducible refine EngKeeps.upd ?_ rfl rfl rfl | with_reducible refine Keeps.upd ?_ rfl rfl

end Sys2Proof.Machine
end

