-- ==== Sys2Proof/Laws/KeepsPartOps.lean ====
section
/-! SUPPORT. What the operations of Machine/PartOps keep (Laws/Keeps). -/

namespace Sys2Proof.Machine

theorem State.errorLog_keeps {r : State} : ∀ (s : State) e p rsp, Keeps r s → Keeps r (State.errorLog s e p rsp) := by
  intro s e p rsp h0
  unfold State.errorLog
  try dsimp only
  repeat' first
    | with_reducible assumption | with_reducible apply Keeps.modEng | with_reducible exact EngKeeps.refl _ | (intro _)
    | split | with_reducible refine EngKeeps.upd ?_ rfl rfl rfl | with_reducible refine Keeps.upd ?_ rfl rfl

theorem State.completeMailbox_keeps {r : State} : ∀ (s : State) e k0, Keeps r s →
    Keeps r (State.completeMailbox s e k0) := by
  intro s e k0 h0
  unfold State.completeMailbox
  try dsimp only
  repeat' first
    | with_reducible assumption | with_reducible apply State.modMailbox_keeps
    | with_reducible apply State.errorLog_keeps | with_reducible apply State.signal_keeps
    | with_reducible apply Keeps.send | with_reducible exact EngKeeps.refl _ | (intro _)
    | with_reducible refine Keeps.ofSnd ?_ (by assumption) | with_reducible refine Keeps.ofFst ?_ (by assumption)
    | split | with_reducible refine EngKeeps.upd ?_ rfl rfl rfl | with_reducible refine Keeps.upd ?_ rfl rfl

theorem State.answerJobs_keeps {r : State} : ∀ (s : State) f st body, Keeps r s →
    Keeps r (State.answerJobs s f st body) := by
  intro s f st body h0
  unfold State.answerJobs
  try dsimp only
  repeat' first
    | with_reducible assumption | with_reducible apply Keeps.modEngines | with_reducible exact EngKeeps.refl _
    | (intro _) | with_reducible refine EngKeeps.upd ?_ rfl rfl rfl | with_reducible refine Keeps.upd ?_ rfl rfl

theorem Engine.returnTokens_keeps {w : Engine} : ∀ (x : Engine) f, EngKeeps w x → EngKeeps w (Engine.returnTokens x f) := by
  intro x f h0
  unfold Engine.returnTokens
  try dsimp only
  repeat' first
    | with_reducible assumption | with_reducible exact EngKeeps.refl _ | (intro _)
    | with_reducible refine EngKeeps.upd ?_ rfl rfl rfl

theorem State.stopSlot_keeps {r : State} : ∀ (s : State) p q, Keeps r s → Keeps r (State.stopSlot s p q).1 := by
  intro s p q h0
  unfold State.stopSlot
  try dsimp only
  repeat' first
    | with_reducible assumption | with_reducible apply State.writeTensor_keeps | with_reducible apply Keeps.modPart
    | with_reducible exact EngKeeps.refl _ | (intro _) | with_reducible refine Keeps.ofSnd ?_ (by assumption)
    | with_reducible refine Keeps.ofFst ?_ (by assumption) | split | with_reducible refine EngKeeps.upd ?_ rfl rfl rfl
    | with_reducible refine Keeps.upd ?_ rfl rfl

theorem State.cancelStream_keeps {r : State} : ∀ (s : State) a qs, Keeps r s → Keeps r (State.cancelStream s a qs) := by
  intro s a qs h0
  unfold State.cancelStream
  try dsimp only
  repeat' first
    | with_reducible assumption | with_reducible apply State.stopSlot_keeps | with_reducible apply Keeps.modStream
    | with_reducible apply Keeps.foldl | with_reducible apply Keeps.foldlSnd | with_reducible apply Keeps.foldlFst
    | with_reducible apply EngKeeps.foldl | with_reducible exact EngKeeps.refl _ | (intro _) | split
    | with_reducible refine EngKeeps.upd ?_ rfl rfl rfl | with_reducible refine Keeps.upd ?_ rfl rfl

theorem State.cancelWindow_keeps {r : State} : ∀ (s : State) p e, Keeps r s → Keeps r (State.cancelWindow s p e) := by
  intro s p e h0
  unfold State.cancelWindow
  try dsimp only
  repeat' first
    | with_reducible assumption | with_reducible apply Keeps.modEng | with_reducible apply Engine.returnTokens_keeps
    | with_reducible apply EngKeeps.setWin | with_reducible apply State.cancelStream_keeps
    | with_reducible apply Keeps.foldl | with_reducible apply Keeps.foldlSnd | with_reducible apply Keeps.foldlFst
    | with_reducible apply EngKeeps.foldl | with_reducible exact EngKeeps.refl _ | (intro _)
    | with_reducible refine EngKeeps.upd ?_ rfl rfl rfl | with_reducible refine Keeps.upd ?_ rfl rfl

theorem State.cancelAll_keeps {r : State} : ∀ (s : State) p, Keeps r s → Keeps r (State.cancelAll s p) := by
  intro s p h0
  unfold State.cancelAll
  try dsimp only
  repeat' first
    | with_reducible assumption | with_reducible apply State.cancelWindow_keeps | with_reducible apply Keeps.foldl
    | with_reducible apply Keeps.foldlSnd | with_reducible apply Keeps.foldlFst | with_reducible apply EngKeeps.foldl
    | with_reducible exact EngKeeps.refl _ | (intro _)

theorem State.startReset_keeps {r : State} : ∀ (s : State) p e cancel delete, Keeps r s →
    Keeps r (State.startReset s p e cancel delete) := by
  intro s p e cancel delete h0
  unfold State.startReset
  try dsimp only
  repeat' first
    | with_reducible assumption | with_reducible apply Keeps.modPart | with_reducible apply State.cancelAll_keeps
    | with_reducible apply Keeps.modEngines | with_reducible apply EngKeeps.setWin
    | with_reducible exact EngKeeps.refl _ | (intro _) | with_reducible refine Keeps.ofSnd ?_ (by assumption)
    | with_reducible refine Keeps.ofFst ?_ (by assumption) | split | with_reducible refine EngKeeps.upd ?_ rfl rfl rfl
    | with_reducible refine Keeps.upd ?_ rfl rfl

theorem Engine.clearWindow_keeps {w : Engine} : ∀ (x : Engine) p, EngKeeps w x → EngKeeps w (Engine.clearWindow x p) := by
  intro x p h0
  unfold Engine.clearWindow
  try dsimp only
  repeat' first
    | with_reducible assumption | with_reducible apply EngKeeps.setWin | with_reducible exact EngKeeps.refl _
    | (intro _) | with_reducible refine EngKeeps.upd ?_ rfl rfl rfl

theorem State.freeState_keeps {r : State} : ∀ (s : State) p, Keeps r s → Keeps r (State.freeState s p) := by
  intro s p h0
  unfold State.freeState
  try dsimp only
  repeat' first
    | with_reducible assumption | with_reducible apply State.freePlacement_keeps
    | with_reducible apply State.freeStaged_keeps | with_reducible apply Keeps.endCampaign
    | with_reducible apply State.freeEpochBlocks_keeps | with_reducible apply Keeps.foldl
    | with_reducible apply Keeps.foldlSnd | with_reducible apply Keeps.foldlFst | with_reducible apply EngKeeps.foldl
    | with_reducible exact EngKeeps.refl _ | (intro _) | with_reducible refine Keeps.ofSnd ?_ (by assumption)
    | with_reducible refine Keeps.ofFst ?_ (by assumption) | split | with_reducible refine EngKeeps.upd ?_ rfl rfl rfl
    | with_reducible refine Keeps.upd ?_ rfl rfl

theorem State.discardState_keeps {r : State} : ∀ (s : State) p, Keeps r s → Keeps r (State.discardState s p) := by
  intro s p h0
  unfold State.discardState
  try dsimp only
  repeat' first
    | with_reducible assumption | with_reducible apply State.freeState_keeps
    | with_reducible apply State.endDigests_keeps | with_reducible apply Keeps.modPart
    | with_reducible exact EngKeeps.refl _ | (intro _) | with_reducible refine EngKeeps.upd ?_ rfl rfl rfl
    | with_reducible refine Keeps.upd ?_ rfl rfl

theorem Engine.dropWindow_keeps {w : Engine} : ∀ (x : Engine) p, EngKeeps w x → EngKeeps w (Engine.dropWindow x p) := by
  intro x p h0
  unfold Engine.dropWindow
  try dsimp only
  repeat' first
    | with_reducible assumption | with_reducible apply EngKeeps.setWin | with_reducible exact EngKeeps.refl _
    | (intro _) | with_reducible refine EngKeeps.upd ?_ rfl rfl rfl

theorem State.deletePartition_keeps {r : State} : ∀ (s : State) p, Keeps r s → Keeps r (State.deletePartition s p) := by
  intro s p h0
  unfold State.deletePartition
  try dsimp only
  repeat' first
    | with_reducible assumption | with_reducible apply State.discardState_keeps | with_reducible apply Keeps.setPart
    | with_reducible apply State.zeroSlots_keeps | with_reducible apply Keeps.modEngines
    | with_reducible apply Engine.dropWindow_keeps | with_reducible apply Keeps.foldl
    | with_reducible apply Keeps.foldlSnd | with_reducible apply Keeps.foldlFst | with_reducible apply EngKeeps.foldl
    | with_reducible exact EngKeeps.refl _ | (intro _) | with_reducible refine EngKeeps.upd ?_ rfl rfl rfl
    | with_reducible refine Keeps.upd ?_ rfl rfl

end Sys2Proof.Machine
end

