-- ==== Sys2Proof/Laws/KeepsEpochOps.lean ====
section
/-! SUPPORT. What the operations of Machine/EpochOps keep (Laws/Keeps). -/

namespace Sys2Proof.Machine

theorem State.declareCut_keeps {r : State} : ∀ (s : State) p d, Keeps r s → Keeps r (State.declareCut s p d) := by
  intro s p d h0
  unfold State.declareCut
  try dsimp only
  repeat' first
    | with_reducible assumption | with_reducible apply Keeps.modPart | with_reducible exact EngKeeps.refl _ | (intro _)
    | with_reducible refine EngKeeps.upd ?_ rfl rfl rfl | with_reducible refine Keeps.upd ?_ rfl rfl

theorem State.stageShard_keeps {r : State} : ∀ (s : State) p n i, Keeps r s → Keeps r (State.stageShard s p n i) := by
  intro s p n i h0
  unfold State.stageShard
  try dsimp only
  repeat' first
    | with_reducible assumption | with_reducible apply State.failEpoch_keeps
    | with_reducible apply State.freshNonce_keeps | with_reducible apply State.modEpoch_keeps
    | with_reducible apply State.setShard_keeps | with_reducible apply Keeps.modEng
    | with_reducible exact EngKeeps.refl _ | (intro _) | with_reducible refine Keeps.ofSnd ?_ (by assumption)
    | with_reducible refine Keeps.ofFst ?_ (by assumption) | split | with_reducible refine EngKeeps.upd ?_ rfl rfl rfl
    | with_reducible refine Keeps.upd ?_ rfl rfl

theorem State.stageEpoch_keeps {r : State} : ∀ (s : State) p n, Keeps r s → Keeps r (State.stageEpoch s p n) := by
  intro s p n h0
  unfold State.stageEpoch
  try dsimp only
  repeat' first
    | with_reducible assumption | with_reducible apply State.ensureGen_keeps
    | with_reducible apply State.modEpoch_keeps | with_reducible apply State.stageShard_keeps
    | with_reducible apply Keeps.foldl | with_reducible apply Keeps.foldlSnd | with_reducible apply Keeps.foldlFst
    | with_reducible apply EngKeeps.foldl | with_reducible exact EngKeeps.refl _ | (intro _) | split
    | with_reducible refine EngKeeps.upd ?_ rfl rfl rfl | with_reducible refine Keeps.upd ?_ rfl rfl

theorem State.startDrain_keeps {r : State} : ∀ (s : State) p n commit, Keeps r s →
    Keeps r (State.startDrain s p n commit) := by
  intro s p n commit h0
  unfold State.startDrain
  try dsimp only
  repeat' first
    | with_reducible assumption | with_reducible apply State.modEpoch_keeps | with_reducible apply Keeps.startCampaign
    | with_reducible apply State.stageEpoch_keeps | with_reducible exact EngKeeps.refl _ | (intro _)
    | with_reducible refine Keeps.ofSnd ?_ (by assumption) | with_reducible refine Keeps.ofFst ?_ (by assumption)
    | split | with_reducible refine EngKeeps.upd ?_ rfl rfl rfl | with_reducible refine Keeps.upd ?_ rfl rfl

theorem State.releaseEpoch_keeps {r : State} : ∀ (s : State) p n, Keeps r s → Keeps r (State.releaseEpoch s p n) := by
  intro s p n h0
  unfold State.releaseEpoch
  try dsimp only
  repeat' first
    | with_reducible assumption | with_reducible apply State.freeStaged_keeps | with_reducible apply Keeps.endCampaign
    | with_reducible apply State.endDigests_keeps | with_reducible apply State.freeEpochBlocks_keeps
    | with_reducible apply Keeps.modPart | with_reducible exact EngKeeps.refl _ | (intro _)
    | with_reducible refine Keeps.ofSnd ?_ (by assumption) | with_reducible refine Keeps.ofFst ?_ (by assumption)
    | split | with_reducible refine EngKeeps.upd ?_ rfl rfl rfl | with_reducible refine Keeps.upd ?_ rfl rfl

theorem State.countOn_keeps {r : State} : ∀ (s : State) p, Keeps r s → Keeps r (State.countOn s p) := by
  intro s p h0
  unfold State.countOn
  try dsimp only
  repeat' first
    | with_reducible assumption | with_reducible apply Keeps.modPart | with_reducible apply Keeps.foldl
    | with_reducible apply Keeps.foldlSnd | with_reducible apply Keeps.foldlFst | with_reducible apply EngKeeps.foldl
    | with_reducible exact EngKeeps.refl _ | (intro _) | split | with_reducible refine EngKeeps.upd ?_ rfl rfl rfl
    | with_reducible refine Keeps.upd ?_ rfl rfl

theorem State.cutNow_keeps {r : State} : ∀ (s : State) p d, Keeps r s → Keeps r (State.cutNow s p d).1 := by
  intro s p d h0
  unfold State.cutNow
  try dsimp only
  repeat' first
    | with_reducible assumption | with_reducible apply State.countOn_keeps | with_reducible apply State.ensureGen_keeps
    | with_reducible apply Keeps.modPart | with_reducible apply State.startDrain_keeps
    | with_reducible apply Keeps.foldl | with_reducible apply Keeps.foldlSnd | with_reducible apply Keeps.foldlFst
    | with_reducible apply EngKeeps.foldl | with_reducible exact EngKeeps.refl _ | (intro _) | split
    | with_reducible refine EngKeeps.upd ?_ rfl rfl rfl | with_reducible refine Keeps.upd ?_ rfl rfl

end Sys2Proof.Machine
end

