-- ==== Sys2Proof/Laws/KeepsEpochs.lean ====
section
/-! SUPPORT. What the operations of Machine/Epochs keep (Laws/Keeps). -/

namespace Sys2Proof.Machine

theorem cmdEpochCut_keeps {r : State} : ∀ c (s : State), Keeps r s → Keeps r (cmdEpochCut c s).1 := by
  intro c s h0
  unfold cmdEpochCut
  try dsimp only
  repeat' first
    | with_reducible assumption | with_reducible apply guarded_keeps | with_reducible apply ordered_keeps
    | with_reducible apply State.declareCut_keeps | with_reducible exact EngKeeps.refl _ | (intro _)

theorem cmdEpochCommit_keeps {r : State} : ∀ c (s : State), Keeps r s → Keeps r (cmdEpochCommit c s).1 := by
  intro c s h0
  unfold cmdEpochCommit
  try dsimp only
  repeat' first
    | with_reducible assumption | with_reducible apply guarded_keeps | with_reducible apply ordered_keeps
    | with_reducible apply State.startDrain_keeps | with_reducible exact EngKeeps.refl _ | (intro _) | split

theorem cmdEpochRelease_keeps {r : State} : ∀ c (s : State), Keeps r s → Keeps r (cmdEpochRelease c s).1 := by
  intro c s h0
  unfold cmdEpochRelease
  try dsimp only
  repeat' first
    | with_reducible assumption | with_reducible apply guarded_keeps | with_reducible apply ordered_keeps
    | with_reducible apply State.releaseEpoch_keeps | with_reducible apply Keeps.foldl
    | with_reducible apply Keeps.foldlSnd | with_reducible apply Keeps.foldlFst | with_reducible apply EngKeeps.foldl
    | with_reducible exact EngKeeps.refl _ | (intro _) | split

theorem cmdEpochQuery_keeps {r : State} : ∀ c (s : State), Keeps r s → Keeps r (cmdEpochQuery c s).1 := by
  intro c s h0
  unfold cmdEpochQuery
  try dsimp only
  repeat' first
    | with_reducible assumption | with_reducible apply guarded_keeps | with_reducible apply ordered_keeps
    | with_reducible apply refuse_keeps | with_reducible exact EngKeeps.refl _ | (intro _)
    | with_reducible refine Keeps.ofSnd ?_ (by assumption) | with_reducible refine Keeps.ofFst ?_ (by assumption)
    | split | with_reducible refine EngKeeps.upd ?_ rfl rfl rfl | with_reducible refine Keeps.upd ?_ rfl rfl

theorem cmdRebase_keeps {r : State} : ∀ c (s : State), Keeps r s → Keeps r (cmdRebase c s).1 := by
  intro c s h0
  unfold cmdRebase
  dsimp only
  refine guarded_keeps _ _ _ _ h0 (ordered_keeps _ _ _ h0 ?_)
  split
  · rename_i s1 h1
    exact State.openGen_keeps _ _ h0 _ h1
  · exact h0

end Sys2Proof.Machine
end

