-- ==== Sys2Proof/Laws/KeepsPartitions.lean ====
section
/-! SUPPORT. What the operations of Machine/Partitions keep (Laws/Keeps). -/

namespace Sys2Proof.Machine

theorem cmdPartCreate_keeps {r : State} : ∀ c (s : State), Keeps r s → Keeps r (cmdPartCreate c s).1 := by
  intro c s h0
  unfold cmdPartCreate
  try dsimp only
  repeat' first
    | with_reducible assumption | with_reducible apply guarded_keeps | with_reducible apply ordered_keeps
    | with_reducible apply startAdoption_keeps | with_reducible apply Keeps.setPart
    | with_reducible exact EngKeeps.refl _ | (intro _)

theorem cmdPartDelete_keeps {r : State} : ∀ c (s : State), Keeps r s → Keeps r (cmdPartDelete c s).1 := by
  intro c s h0
  unfold cmdPartDelete
  try dsimp only
  repeat' first
    | with_reducible assumption | with_reducible apply guarded_keeps | with_reducible apply ordered_keeps
    | with_reducible apply startAdoption_keeps | with_reducible exact EngKeeps.refl _ | (intro _)

theorem cmdPartModify_keeps {r : State} : ∀ c (s : State), Keeps r s → Keeps r (cmdPartModify c s).1 := by
  intro c s h0
  unfold cmdPartModify
  try dsimp only
  repeat' first
    | with_reducible assumption | with_reducible apply guarded_keeps | with_reducible apply ordered_keeps
    | with_reducible apply startAdoption_keeps | with_reducible apply Keeps.setPart
    | with_reducible exact EngKeeps.refl _ | (intro _) | split | with_reducible refine EngKeeps.upd ?_ rfl rfl rfl
    | with_reducible refine Keeps.upd ?_ rfl rfl

theorem cmdPartQuery_keeps {r : State} : ∀ c (s : State), Keeps r s → Keeps r (cmdPartQuery c s).1 := by
  intro c s h0
  unfold cmdPartQuery
  try dsimp only
  repeat' first
    | with_reducible assumption | with_reducible apply guarded_keeps | with_reducible exact EngKeeps.refl _ | (intro _)
    | split

theorem cmdPartReset_keeps {r : State} : ∀ c (s : State), Keeps r s → Keeps r (cmdPartReset c s).1 := by
  intro c s h0
  unfold cmdPartReset
  try dsimp only
  repeat' first
    | with_reducible assumption | with_reducible apply guarded_keeps | with_reducible apply ordered_keeps
    | with_reducible apply State.startReset_keeps | with_reducible exact EngKeeps.refl _ | (intro _)

theorem cmdQosSet_keeps {r : State} : ∀ c (s : State), Keeps r s → Keeps r (cmdQosSet c s).1 := by
  intro c s h0
  unfold cmdQosSet
  try dsimp only
  repeat' first
    | with_reducible assumption | with_reducible apply guarded_keeps | with_reducible apply ordered_keeps
    | with_reducible apply startAdoption_keeps | with_reducible apply Keeps.setPart
    | with_reducible exact EngKeeps.refl _ | (intro _) | with_reducible refine EngKeeps.upd ?_ rfl rfl rfl
    | with_reducible refine Keeps.upd ?_ rfl rfl

theorem cmdQosQuery_keeps {r : State} : ∀ c (s : State), Keeps r s → Keeps r (cmdQosQuery c s).1 := by
  intro c s h0
  unfold cmdQosQuery
  try dsimp only
  repeat' first
    | with_reducible assumption | with_reducible apply guarded_keeps | with_reducible apply ordered_keeps
    | with_reducible exact EngKeeps.refl _ | (intro _)

theorem State.tickPool_keeps {r : State} : ∀ (s : State) e pool, Keeps r s → Keeps r (State.tickPool s e pool) := by
  intro s e pool h0
  unfold State.tickPool
  try dsimp only
  repeat' first
    | with_reducible assumption | with_reducible apply Keeps.modEng | with_reducible apply EngKeeps.setWin
    | with_reducible apply Keeps.foldl | with_reducible apply Keeps.foldlSnd | with_reducible apply Keeps.foldlFst
    | with_reducible apply EngKeeps.foldl | with_reducible exact EngKeeps.refl _ | (intro _)
    | with_reducible refine Keeps.ofSnd ?_ (by assumption) | with_reducible refine Keeps.ofFst ?_ (by assumption)
    | split | with_reducible refine EngKeeps.upd ?_ rfl rfl rfl | with_reducible refine Keeps.upd ?_ rfl rfl

theorem execQosTick_keeps {r : State} : ∀ e (s : State), Keeps r s → ∀ z, execQosTick e s = .next z → Keeps r z := by
  intro e s h0 u hu
  unfold execQosTick at hu
  dsimp only at hu
  (repeat' split at hu) <;> (injection hu with hu; subst hu)
  all_goals repeat' first
    | with_reducible assumption | with_reducible apply Keeps.modEng | with_reducible apply State.tickPool_keeps
    | with_reducible apply Keeps.foldl | with_reducible apply Keeps.foldlSnd | with_reducible apply Keeps.foldlFst
    | with_reducible apply EngKeeps.foldl | with_reducible exact EngKeeps.refl _ | (intro _) | split
    | with_reducible refine EngKeeps.upd ?_ rfl rfl rfl

end Sys2Proof.Machine
end

