-- ==== Sys2Proof/Laws/KeepsEngineOps.lean ====
section
/-! SUPPORT. What the operations of Machine/EngineOps keep (Laws/Keeps). -/

namespace Sys2Proof.Machine

theorem State.fwJournal_keeps {r : State} : ∀ (s : State) e event slot x, Keeps r s →
    Keeps r (State.fwJournal s e event slot x) := by
  intro s e event slot x h0
  unfold State.fwJournal
  try dsimp only
  repeat' first
    | with_reducible assumption | with_reducible apply State.journal_keeps | with_reducible exact EngKeeps.refl _
    | (intro _)

theorem State.runImage_keeps {r : State} : ∀ (s : State) e i x fallback, Keeps r s →
    Keeps r (State.runImage s e i x fallback) := by
  intro s e i x fallback h0
  unfold State.runImage
  refine State.fwJournal_keeps _ _ _ _ _ (Keeps.modEng h0 (fun y => ?_))
  exact (EngKeeps.refl y).image id rfl rfl (fun _ => le_rfl) (fun _ h => by simpa using h)

theorem State.boot_keeps {r : State} : ∀ (s : State) e, Keeps r s → Keeps r (State.boot s e) := by
  intro s e h0
  unfold State.boot
  dsimp only
  split
  · exact State.runImage_keeps _ _ _ _ _ h0
  · exact State.runImage_keeps _ _ _ _ _ h0
  · refine Keeps.modEng h0 (fun y => ?_)
    exact (EngKeeps.refl y).image id rfl rfl (fun _ => le_rfl) (fun _ h => by simp at h)

theorem Engine.restart_keeps {w : Engine} : ∀ (x : Engine) e off, EngKeeps w x → EngKeeps w (Engine.restart x e off) := by
  intro x e off h0
  unfold Engine.restart
  dsimp only
  split <;> exact h0.image (fun _ => rfl) rfl rfl (fun _ => le_rfl) (fun k h => k.2.2 h)

theorem Engine.initialise_keeps {w : Engine} : ∀ (x : Engine) now, EngKeeps w x → EngKeeps w (Engine.initialise x now) := by
  intro x now h0
  unfold Engine.initialise
  try dsimp only
  repeat' first
    | with_reducible assumption | with_reducible exact EngKeeps.refl _ | (intro _)
    | with_reducible refine EngKeeps.upd ?_ rfl rfl rfl

theorem Engine.offer_keeps {w : Engine} : ∀ (x : Engine) now, EngKeeps w x → EngKeeps w (Engine.offer x now) := by
  intro x now h0
  unfold Engine.offer
  try dsimp only
  repeat' first
    | with_reducible assumption | with_reducible apply Engine.initialise_keeps | with_reducible exact EngKeeps.refl _
    | (intro _) | with_reducible refine EngKeeps.upd ?_ rfl rfl rfl

theorem State.restoreQos_keeps {r : State} : ∀ (s : State) e, Keeps r s → Keeps r (State.restoreQos s e) := by
  intro s e h0
  unfold State.restoreQos
  try dsimp only
  repeat' first
    | with_reducible assumption | with_reducible apply Keeps.modWin | with_reducible apply Keeps.foldl
    | with_reducible apply Keeps.foldlSnd | with_reducible apply Keeps.foldlFst | with_reducible apply EngKeeps.foldl
    | with_reducible exact EngKeeps.refl _ | (intro _) | with_reducible refine Keeps.ofSnd ?_ (by assumption)
    | with_reducible refine Keeps.ofFst ?_ (by assumption) | split | with_reducible refine EngKeeps.upd ?_ rfl rfl rfl
    | with_reducible refine Keeps.upd ?_ rfl rfl

theorem State.resetEngineNow_keeps {r : State} : ∀ (s : State) e failed, Keeps r s →
    Keeps r (State.resetEngineNow s e failed) := by
  intro s e failed h0
  unfold State.resetEngineNow
  try dsimp only
  repeat' first
    | with_reducible assumption | with_reducible apply Keeps.modEng | with_reducible apply Engine.restart_keeps
    | with_reducible apply Engine.offer_keeps | with_reducible apply State.boot_keeps
    | with_reducible apply State.restoreQos_keeps | with_reducible apply State.detect_keeps
    | with_reducible apply Keeps.foldl | with_reducible apply Keeps.foldlSnd | with_reducible apply Keeps.foldlFst
    | with_reducible apply EngKeeps.foldl | with_reducible exact EngKeeps.refl _ | (intro _)

end Sys2Proof.Machine
end

