-- ==== Sys2Proof/Laws/KeepsKvOps.lean ====
section
/-! SUPPORT. What the operations of Machine/KvOps keep (Laws/Keeps). -/

namespace Sys2Proof.Machine

theorem State.takeSlot_keeps {r : State} : ∀ (s : State) e p lent len, Keeps r s →
    ∀ y z, State.takeSlot s e p lent len = some (y, z) → Keeps r z := by
  intro s e p lent len h0 y z hz
  simp only [State.takeSlot] at hz
  split at hz
  · simp only [Option.some.injEq, Prod.mk.injEq] at hz
    exact hz.2 ▸ h0
  · split at hz
    · simp only [Option.map_eq_some_iff, Prod.mk.injEq] at hz
      obtain ⟨_, _, _, rfl⟩ := hz
      exact h0.pick
    · simp only [Option.map_eq_some_iff, Prod.mk.injEq] at hz
      obtain ⟨_, _, _, rfl⟩ := hz
      exact h0.draw

theorem State.coolPage_keeps {r : State} : ∀ (s : State) p key, Keeps r s → Keeps r (State.coolPage s p key) := by
  intro s p key h0
  unfold State.coolPage
  try dsimp only
  repeat' first
    | with_reducible assumption | with_reducible apply Keeps.modPart | with_reducible exact EngKeeps.refl _ | (intro _)
    | split | with_reducible refine EngKeeps.upd ?_ rfl rfl rfl | with_reducible refine Keeps.upd ?_ rfl rfl

theorem Keeps.cooled {r : State} (n : Nat) (size : List (PartId × KvPage) → Nat) (l : List (PartId × KvPage)) :
    ∀ q : State × List (PartId × KvPage), Keeps r q.1 → Keeps r (l.foldl (fun (r : State × List (PartId × KvPage)) k =>
      if n < size r.2 then (r.1.coolPage k.1 k.2.key, r.2.drop 1) else r) q).1 := by
  induction l with
  | nil => exact fun _ h => h
  | cons k l ih =>
    intro q h
    rw [List.foldl_cons]
    apply ih
    split
    · exact State.coolPage_keeps _ _ _ h
    · exact h

theorem State.trimHot_keeps {r : State} : ∀ (s : State) e, Keeps r s → Keeps r (State.trimHot s e) := by
  intro s e h
  unfold State.trimHot
  extract_lets size
  exact Keeps.cooled (s.hotRoom e) size (s.hotPages e) (s, s.hotPages e) h

theorem State.trimHots_keeps {r : State} : ∀ (s : State) m, Keeps r s → Keeps r (State.trimHots s m) := by
  intro s m h0
  unfold State.trimHots
  try dsimp only
  repeat' first
    | with_reducible assumption | with_reducible apply State.trimHot_keeps | with_reducible apply Keeps.foldl
    | with_reducible apply Keeps.foldlSnd | with_reducible apply Keeps.foldlFst | with_reducible apply EngKeeps.foldl
    | with_reducible exact EngKeeps.refl _ | (intro _)

theorem State.warmPage_keeps {r : State} : ∀ (s : State) p key, Keeps r s → Keeps r (State.warmPage s p key) := by
  intro s p key h0
  unfold State.warmPage
  try dsimp only
  repeat' first
    | with_reducible assumption | with_reducible apply Keeps.modEng | with_reducible apply Keeps.modPart
    | with_reducible apply State.trimHot_keeps | with_reducible exact EngKeeps.refl _ | (intro _)
    | with_reducible refine Keeps.ofSnd ?_ (by assumption) | with_reducible refine Keeps.ofFst ?_ (by assumption)
    | split | with_reducible refine EngKeeps.upd ?_ rfl rfl rfl | with_reducible refine Keeps.upd ?_ rfl rfl

theorem State.putPage_keeps {r : State} : ∀ (s : State) p key raw coded, Keeps r s →
    ∀ z, State.putPage s p key raw coded = some z → Keeps r z := by
  intro s p key raw coded h0 z hz
  simp only [State.putPage, Option.bind_eq_bind, Option.bind_eq_some_iff] at hz
  obtain ⟨dir, _, ⟨lent, body⟩, _, hz⟩ := hz
  dsimp only at hz
  split at hz
  · cases hz
  · simp only [Option.bind_eq_some_iff, Option.pure_def, Option.some.injEq] at hz
    obtain ⟨⟨a, s2⟩, h2, rfl⟩ := hz
    exact State.warmPage_keeps _ _ _ (State.takeSlot_keeps _ _ _ _ _ h0.modPart _ _ h2).modPart

theorem State.dropLent_keeps {r : State} : ∀ (s : State), Keeps r s → Keeps r (State.dropLent s) := by
  intro s h0
  unfold State.dropLent
  try dsimp only
  repeat' first
    | with_reducible assumption | with_reducible apply Keeps.modPart | with_reducible apply Keeps.foldl
    | with_reducible apply Keeps.foldlSnd | with_reducible apply Keeps.foldlFst | with_reducible apply EngKeeps.foldl
    | with_reducible exact EngKeeps.refl _ | (intro _) | split | with_reducible refine EngKeeps.upd ?_ rfl rfl rfl
    | with_reducible refine Keeps.upd ?_ rfl rfl

theorem State.trimLent_keeps {r : State} : ∀ (s : State), Keeps r s → Keeps r (State.trimLent s) := by
  intro s h0
  unfold State.trimLent
  try dsimp only
  repeat' first
    | with_reducible assumption | with_reducible apply Keeps.modPart | with_reducible apply Keeps.foldl
    | with_reducible apply Keeps.foldlSnd | with_reducible apply Keeps.foldlFst | with_reducible apply EngKeeps.foldl
    | with_reducible exact EngKeeps.refl _ | (intro _) | split | with_reducible refine EngKeeps.upd ?_ rfl rfl rfl
    | with_reducible refine Keeps.upd ?_ rfl rfl

theorem State.lend_keeps {r : State} : ∀ (s : State) p, Keeps r s → Keeps r (State.lend s p) := by
  intro s p h0
  unfold State.lend
  try dsimp only
  repeat' first
    | with_reducible assumption | with_reducible exact EngKeeps.refl _ | (intro _)
    | with_reducible refine EngKeeps.upd ?_ rfl rfl rfl | with_reducible refine Keeps.upd ?_ rfl rfl

end Sys2Proof.Machine
end

