-- ==== Sys2Proof/Laws/KeepsFirmwareCmds.lean ====
section
/-! SUPPORT. What the operations of Machine/FirmwareCmds keep (Laws/Keeps). -/

namespace Sys2Proof.Machine

theorem cmdFwDownload_keeps {r : State} : ∀ c (s : State), Keeps r s → Keeps r (cmdFwDownload c s).1 := by
  intro c s h0
  unfold cmdFwDownload
  try dsimp only
  repeat' first
    | with_reducible assumption | with_reducible apply guarded_keeps | with_reducible apply ordered_keeps
    | with_reducible apply withData_keeps | with_reducible apply Keeps.modEngines
    | with_reducible apply State.trimHots_keeps | with_reducible exact EngKeeps.refl _ | (intro _) | split
    | with_reducible refine EngKeeps.upd ?_ rfl rfl rfl | with_reducible refine Keeps.upd ?_ rfl rfl

theorem cmdFwCommit_keeps {r : State} : ∀ c (s : State), Keeps r s → Keeps r (cmdFwCommit c s).1 := by
  intro c s h0
  unfold cmdFwCommit
  try dsimp only
  repeat' first
    | with_reducible assumption | with_reducible apply guarded_keeps | with_reducible apply ordered_keeps
    | with_reducible apply Keeps.modEng | with_reducible apply State.fwJournal_keeps | with_reducible apply Keeps.foldl
    | with_reducible apply Keeps.foldlSnd | with_reducible apply Keeps.foldlFst | with_reducible apply EngKeeps.foldl
    | with_reducible exact EngKeeps.refl _ | (intro _) | split | with_reducible refine EngKeeps.upd ?_ rfl rfl rfl
    | with_reducible refine Keeps.upd ?_ rfl rfl

theorem cmdFwActivate_keeps {r : State} : ∀ c (s : State), Keeps r s → Keeps r (cmdFwActivate c s).1 := by
  intro c s h0
  unfold cmdFwActivate
  try dsimp only
  repeat' first
    | with_reducible assumption | with_reducible apply guarded_keeps | with_reducible apply ordered_keeps
    | with_reducible apply State.leave_keeps | with_reducible apply State.resetEngineNow_keeps
    | with_reducible apply State.fwJournal_keeps | with_reducible exact EngKeeps.refl _ | (intro _) | split
    | with_reducible refine EngKeeps.upd ?_ rfl rfl rfl | with_reducible refine Keeps.upd ?_ rfl rfl

theorem cmdFwQuery_keeps {r : State} : ∀ c (s : State), Keeps r s → Keeps r (cmdFwQuery c s).1 := by
  intro c s h0
  unfold cmdFwQuery
  try dsimp only
  repeat' first
    | with_reducible assumption | with_reducible apply guarded_keeps | with_reducible exact EngKeeps.refl _ | (intro _)
    | split

end Sys2Proof.Machine
end

