-- ==== Sys2Proof/Laws/KeepsStoreAttach.lean ====
section
/-! SUPPORT. What the operations of Machine/StoreAttach keep (Laws/Keeps). -/

namespace Sys2Proof.Machine

theorem State.reconnect_keeps {r : State} : ∀ (s : State), Keeps r s → Keeps r (State.reconnect s) := by
  intro s h0
  unfold State.reconnect
  try dsimp only
  repeat' first
    | with_reducible assumption | with_reducible apply State.connectAll_keeps | with_reducible apply State.issue_keeps
    | with_reducible apply State.detect_keeps | with_reducible apply Keeps.foldl | with_reducible apply Keeps.foldlSnd
    | with_reducible apply Keeps.foldlFst | with_reducible apply EngKeeps.foldl | with_reducible exact EngKeeps.refl _
    | (intro _) | split

theorem State.attachAll_keeps {r : State} : ∀ (s : State), Keeps r s → Keeps r (State.attachAll s) := by
  intro s h0
  unfold State.attachAll
  try dsimp only
  repeat' first
    | with_reducible assumption | exact fun (_ : Volume) h => h
    | exact fun (_ : Volume) h => Memory.wf_writeBytes _ _ h | exact fun (_ : Volume) h => Memory.wf_clear _ _ h
    | exact fun (_ : Volume) h => by split <;> exact h | with_reducible apply State.modVolume_keeps
    | with_reducible apply State.detect_keeps | with_reducible apply Keeps.foldl | with_reducible apply Keeps.foldlSnd
    | with_reducible apply Keeps.foldlFst | with_reducible apply EngKeeps.foldl | with_reducible exact EngKeeps.refl _
    | (intro _) | split | with_reducible refine EngKeeps.upd ?_ rfl rfl rfl
    | with_reducible refine Keeps.upd ?_ rfl rfl

theorem State.leaveStore_keeps {r : State} : ∀ (s : State), Keeps r s → Keeps r (State.leaveStore s) := by
  intro s h0
  unfold State.leaveStore
  try dsimp only
  repeat' first
    | with_reducible assumption | with_reducible exact EngKeeps.refl _ | (intro _)
    | with_reducible refine EngKeeps.upd ?_ rfl rfl rfl | with_reducible refine Keeps.upd ?_ rfl rfl

theorem State.useTargets_keeps {r : State} : ∀ (s : State), Keeps r s → Keeps r (State.useTargets s) := by
  intro s h0
  refine h0.vols rfl (fun k => ⟨fun x hx => ?_, fun x hx => ?_⟩) rfl rfl
  · simp only [State.useTargets, List.mem_map] at hx
    obtain ⟨i, _, rfl⟩ := hx
    generalize hf : List.find? _ _ = o
    cases o with
    | none => rfl
    | some v =>
      rcases List.mem_append.1 (List.mem_of_find?_eq_some hf) with h | h
      · exact k.1 _ h
      · exact k.2 _ h
  · simp only [State.useTargets, List.mem_map] at hx
    obtain ⟨v, hv, rfl⟩ := hx
    rcases List.mem_append.1 (List.mem_of_mem_filter hv) with h | h
    · exact k.1 v h
    · exact k.2 v h

theorem State.othersWrote_keeps {r : State} : ∀ (s : State) rs, Keeps r s → Keeps r (State.othersWrote s rs) := by
  intro s rs h0
  unfold State.othersWrote
  try dsimp only
  repeat' first
    | with_reducible assumption | with_reducible apply State.writeBlocks_keeps | with_reducible apply Keeps.foldl
    | with_reducible apply Keeps.foldlSnd | with_reducible apply Keeps.foldlFst | with_reducible apply EngKeeps.foldl
    | with_reducible exact EngKeeps.refl _ | (intro _) | split

theorem State.claim_keeps {r : State} : ∀ (s : State) slot by_, Keeps r s → Keeps r (State.claim s slot by_) := by
  intro s slot by_ h0
  unfold State.claim
  try dsimp only
  repeat' first
    | with_reducible assumption | with_reducible apply Keeps.draw | with_reducible apply State.writeLease_keeps
    | with_reducible exact EngKeeps.refl _ | (intro _) | with_reducible refine Keeps.ofSnd ?_ (by assumption)
    | with_reducible refine Keeps.ofFst ?_ (by assumption) | split | with_reducible refine EngKeeps.upd ?_ rfl rfl rfl
    | with_reducible refine Keeps.upd ?_ rfl rfl

end Sys2Proof.Machine
end

