-- ==== Sys2Proof/Laws/KeepsFormatSanitise.lean ====
section
/-! SUPPORT. What the operations of Machine/FormatSanitise keep (Laws/Keeps). -/

namespace Sys2Proof.Machine

theorem State.journalAll_keeps {r : State} : ∀ (s : State) type part payload, Keeps r s →
    Keeps r (State.journalAll s type part payload) := by
  intro s type part payload h0
  unfold State.journalAll
  try dsimp only
  repeat' first
    | with_reducible assumption | with_reducible apply State.journal_keeps | with_reducible apply Keeps.foldl
    | with_reducible apply Keeps.foldlSnd | with_reducible apply Keeps.foldlFst | with_reducible apply EngKeeps.foldl
    | with_reducible exact EngKeeps.refl _ | (intro _)

theorem cmdFormat_keeps {r : State} : ∀ c (s : State), Keeps r s → Keeps r (cmdFormat c s).1 := by
  intro c s h0
  unfold cmdFormat
  try dsimp only
  repeat' first
    | with_reducible assumption | with_reducible apply guarded_keeps | with_reducible apply ordered_keeps
    | with_reducible apply Keeps.startCampaign | with_reducible apply State.journalAll_keeps
    | with_reducible exact EngKeeps.refl _ | (intro _) | with_reducible refine Keeps.ofSnd ?_ (by assumption)
    | with_reducible refine Keeps.ofFst ?_ (by assumption) | split | with_reducible refine EngKeeps.upd ?_ rfl rfl rfl
    | with_reducible refine Keeps.upd ?_ rfl rfl

theorem State.formatVolume_keeps {r : State} : ∀ (s : State) accepted i, Keeps r s →
    Keeps r (State.formatVolume s accepted i) := by
  intro s accepted i h0
  unfold State.formatVolume
  try dsimp only
  repeat' first
    | with_reducible assumption | with_reducible apply State.writeZeroes_keeps
    | with_reducible apply State.deallocate_keeps | with_reducible apply State.storeWrite_keeps
    | with_reducible apply State.journalAll_keeps | with_reducible exact EngKeeps.refl _ | (intro _)

theorem State.formatDown_keeps {r : State} : ∀ (s : State) accepted last, Keeps r s →
    Keeps r (State.formatDown s accepted last) := by
  intro s accepted last h0
  unfold State.formatDown
  try dsimp only
  repeat' first
    | with_reducible assumption | with_reducible apply State.formatVolume_keeps | with_reducible apply Keeps.foldl
    | with_reducible apply Keeps.foldlSnd | with_reducible apply Keeps.foldlFst | with_reducible apply EngKeeps.foldl
    | with_reducible exact EngKeeps.refl _ | (intro _)

theorem execFormatComplete_keeps {r : State} : ∀ fail (s : State), Keeps r s →
    ∀ z, execFormatComplete fail s = .next z → Keeps r z := by
  intro fail s h0 u hu
  unfold execFormatComplete at hu
  repeat' first | (injection hu with hu; subst hu) | split at hu
  all_goals try dsimp only
  repeat' first
    | with_reducible assumption | with_reducible apply Keeps.endCampaign | with_reducible apply State.formatDown_keeps
    | with_reducible apply State.journalAll_keeps | with_reducible apply State.attachAll_keeps
    | with_reducible apply State.leaveStore_keeps | with_reducible apply State.claim_keeps
    | with_reducible exact EngKeeps.refl _ | (intro _) | with_reducible refine Keeps.ofSnd ?_ (by assumption)
    | with_reducible refine Keeps.ofFst ?_ (by assumption) | split | with_reducible refine EngKeeps.upd ?_ rfl rfl rfl
    | with_reducible refine Keeps.upd ?_ rfl rfl

theorem State.cryptoErase_keeps {r : State} : ∀ (s : State) scope, Keeps r s → Keeps r (State.cryptoErase s scope) := by
  intro s scope h0
  unfold State.cryptoErase
  try dsimp only
  repeat' first
    | with_reducible assumption | with_reducible apply State.zeroSlots_keeps
    | with_reducible apply State.newWrapKey_keeps | with_reducible apply Keeps.foldl
    | with_reducible apply Keeps.foldlSnd | with_reducible apply Keeps.foldlFst | with_reducible apply EngKeeps.foldl
    | with_reducible exact EngKeeps.refl _ | (intro _) | split | with_reducible refine EngKeeps.upd ?_ rfl rfl rfl
    | with_reducible refine Keeps.upd ?_ rfl rfl

theorem State.sanitised_keeps {r : State} : ∀ (s : State) z0, Keeps r s → Keeps r (State.sanitised s z0) := by
  intro s z0 h0
  unfold State.sanitised
  try dsimp only
  repeat' first
    | with_reducible assumption | with_reducible exact EngKeeps.refl _ | (intro _)
    | with_reducible refine EngKeeps.upd ?_ rfl rfl rfl | with_reducible refine Keeps.upd ?_ rfl rfl

theorem cmdSanitise_keeps {r : State} : ∀ c (s : State), Keeps r s → Keeps r (cmdSanitise c s).1 := by
  intro c s h0
  unfold cmdSanitise
  try dsimp only
  repeat' first
    | with_reducible assumption | with_reducible apply guarded_keeps | with_reducible apply ordered_keeps
    | with_reducible apply State.journalAll_keeps | with_reducible apply State.cryptoErase_keeps
    | with_reducible apply State.sanitised_keeps | with_reducible apply Keeps.startCampaign
    | with_reducible apply State.discardState_keeps | with_reducible apply Keeps.modEngines
    | with_reducible apply Engine.initialise_keeps | with_reducible apply Keeps.foldl
    | with_reducible apply Keeps.foldlSnd | with_reducible apply Keeps.foldlFst | with_reducible apply EngKeeps.foldl
    | with_reducible exact EngKeeps.refl _ | (intro _) | with_reducible refine Keeps.ofSnd ?_ (by assumption)
    | with_reducible refine Keeps.ofFst ?_ (by assumption) | split | with_reducible refine EngKeeps.upd ?_ rfl rfl rfl
    | with_reducible refine Keeps.upd ?_ rfl rfl

theorem State.eraseExtent_keeps {r : State} : ∀ (s : State) ptr, Keeps r s → Keeps r (State.eraseExtent s ptr) := by
  intro s ptr h0
  unfold State.eraseExtent
  try dsimp only
  repeat' first
    | with_reducible assumption | with_reducible apply State.writeZeroes_keeps
    | with_reducible apply State.deallocate_keeps | with_reducible exact EngKeeps.refl _ | (intro _)

theorem State.eraseExtents_keeps {r : State} : ∀ (s : State) a0 a1, Keeps r s → Keeps r (State.eraseExtents s a0 a1) := by
  intro s a0 a1 h0
  unfold State.eraseExtents
  try dsimp only
  repeat' first
    | with_reducible assumption | with_reducible apply State.eraseExtent_keeps
    | with_reducible apply State.journalAll_keeps | with_reducible apply State.eraseExtents_keeps
    | with_reducible exact EngKeeps.refl _ | (intro _) | split

theorem Keeps.eraseGen {r s : State} (h : Keeps r s) (lba : Nat) (g : List Byte) :
    Keeps r (if sealedOk "WLMGN001" g && genState g ≠ 0 then s.storeWrite 0 lba (sealRec (putLe (g.take 4064) 10 1 0)) true
      else s) := by
  split
  · exact State.storeWrite_keeps _ _ _ _ _ h
  · exact h

theorem Keeps.eraseGens {r s : State} (h : Keeps r s) (l : Lease) (is : List Nat) :
    Keeps r (is.foldl (fun s i =>
      let lba := 64 + l.slot * 2048 + i
      let r := s.readBlocks 0 lba 4096
      if sealedOk "WLMGN001" r && genState r ≠ 0 then s.storeWrite 0 lba (sealRec (putLe (r.take 4064) 10 1 0)) true else s)
      s) :=
  Keeps.foldl h (fun _ _ ht => ht.eraseGen _ _)

theorem State.namespaceErase_keeps {r : State} : ∀ (s : State), Keeps r s → Keeps r (State.namespaceErase s) := by
  intro s h0
  unfold State.namespaceErase
  exact State.leaveStore_keeps _ (State.writeLease_keeps _ _
    (((State.eraseExtents_keeps _ _ _ h0).eraseGens s.store.lease _).setLease _))

theorem State.overwrite_keeps {r : State} : ∀ (s : State), Keeps r s → Keeps r (State.overwrite s) := by
  intro s h0
  unfold State.overwrite
  refine h0.modEngines (fun e x => ?_)
  split
  · exact (EngKeeps.refl x).pool (fun _ => rfl) rfl rfl rfl rfl rfl
  · exact EngKeeps.refl x

theorem execSanitiseComplete_keeps {r : State} : ∀ fail (s : State), Keeps r s →
    ∀ z, execSanitiseComplete fail s = .next z → Keeps r z := by
  intro fail s h0 u hu
  unfold execSanitiseComplete at hu
  repeat' first | (injection hu with hu; subst hu) | split at hu
  all_goals try dsimp only
  repeat' first
    | with_reducible assumption | with_reducible apply Keeps.endCampaign | with_reducible apply State.overwrite_keeps
    | with_reducible apply State.journalAll_keeps | with_reducible apply State.namespaceErase_keeps
    | with_reducible apply State.sanitised_keeps | with_reducible apply State.eraseExtents_keeps
    | with_reducible apply State.mgmtFault_keeps | with_reducible exact EngKeeps.refl _ | (intro _)
    | with_reducible refine Keeps.ofSnd ?_ (by assumption) | with_reducible refine Keeps.ofFst ?_ (by assumption)
    | split | with_reducible refine EngKeeps.upd ?_ rfl rfl rfl | with_reducible refine Keeps.upd ?_ rfl rfl

theorem cmdSanitiseStatus_keeps {r : State} : ∀ c (s : State), Keeps r s → Keeps r (cmdSanitiseStatus c s).1 := by
  intro c s h0
  unfold cmdSanitiseStatus
  try dsimp only
  repeat' first
    | with_reducible assumption | with_reducible apply guarded_keeps | with_reducible apply State.journal_keeps
    | with_reducible exact EngKeeps.refl _ | (intro _)

theorem State.resumeWork_keeps {r : State} : ∀ (s : State), Keeps r s → Keeps r (State.resumeWork s) := by
  intro s h0
  unfold State.resumeWork
  try dsimp only
  repeat' first
    | with_reducible assumption | with_reducible apply Keeps.startCampaign | with_reducible exact EngKeeps.refl _
    | (intro _) | with_reducible refine Keeps.ofSnd ?_ (by assumption)
    | with_reducible refine Keeps.ofFst ?_ (by assumption) | split | with_reducible refine EngKeeps.upd ?_ rfl rfl rfl
    | with_reducible refine Keeps.upd ?_ rfl rfl

end Sys2Proof.Machine
end

