-- ==== Sys2Proof/Laws/KeepsLanes.lean ====
section
/-! SUPPORT. What the operations of Machine/Lanes keep (Laws/Keeps). -/

namespace Sys2Proof.Machine

theorem State.shelfLane_keeps {r : State} : ∀ (s : State) e w0, Keeps r s → Keeps r (State.shelfLane s e w0).2 := by
  intro s e w0 h0
  unfold State.shelfLane
  try dsimp only
  repeat' first
    | with_reducible assumption | with_reducible apply Keeps.pick | with_reducible apply Keeps.modEng
    | with_reducible apply Engine.awaitLane_keeps | with_reducible exact EngKeeps.refl _ | (intro _)
    | with_reducible refine Keeps.ofSnd ?_ (by assumption) | with_reducible refine Keeps.ofFst ?_ (by assumption)
    | split | with_reducible refine EngKeeps.upd ?_ rfl rfl rfl | with_reducible refine Keeps.upd ?_ rfl rfl

theorem State.freeLane_keeps {r : State} : ∀ (s : State) e w0, Keeps r s → Keeps r (State.freeLane s e w0) := by
  intro s e w0 h0
  unfold State.freeLane
  try dsimp only
  repeat' first
    | with_reducible assumption | with_reducible apply Keeps.modEng | with_reducible exact EngKeeps.refl _ | (intro _)
    | with_reducible refine EngKeeps.upd ?_ rfl rfl rfl | with_reducible refine Keeps.upd ?_ rfl rfl

end Sys2Proof.Machine
end

