-- ==== Sys2Proof/Laws/KeepsKeys.lean ====
section
/-! SUPPORT. What the operations of Machine/Keys keep (Laws/Keeps). -/

namespace Sys2Proof.Machine

theorem cmdSecQuery_keeps {r : State} : ∀ c (s : State), Keeps r s → Keeps r (cmdSecQuery c s).1 := by
  intro c s h0
  unfold cmdSecQuery
  try dsimp only
  repeat' first
    | with_reducible assumption | with_reducible apply guarded_keeps | with_reducible apply ordered_keeps
    | with_reducible apply State.hold_keeps | with_reducible exact EngKeeps.refl _ | (intro _) | split

theorem State.provisionOne_keeps {r : State} : ∀ (s : State) e key pub, Keeps r s → Keeps r (State.provisionOne s e key pub) := by
  intro s e key pub h0
  unfold State.provisionOne
  dsimp only
  have hx (x : Engine) (k : Keeper) : EngKeeps x
      { x with anchor := some (x.anchor.getD (keyAnchor pub)), lifecycle := if x.lifecycle = 0 then 1 else x.lifecycle,
               hold := false, keeper := k } := by
    refine (EngKeeps.refl x).own rfl rfl (fun h3 => ?_) (fun a ha => ?_)
    · dsimp only
      split <;> omega
    · simp [ha]
  repeat' first
    | with_reducible assumption | with_reducible apply State.closeDebug_keeps | with_reducible apply State.newWrapKey_keeps
    | with_reducible apply State.fillSlot_keeps | with_reducible apply Keeps.modEng | (intro _) | with_reducible apply hx | split

theorem cmdProvision_keeps {r : State} : ∀ c (s : State), Keeps r s → Keeps r (cmdProvision c s).1 := by
  intro c s h0
  unfold cmdProvision
  try dsimp only
  repeat' first
    | with_reducible assumption | with_reducible apply guarded_keeps | with_reducible apply ordered_keeps
    | with_reducible apply withData_keeps | with_reducible apply State.provisionOne_keeps
    | with_reducible apply Keeps.foldl | with_reducible apply Keeps.foldlSnd | with_reducible apply Keeps.foldlFst
    | with_reducible apply EngKeeps.foldl | with_reducible exact EngKeeps.refl _ | (intro _) | split

theorem State.sealOne_keeps {r : State} : ∀ (s : State) e arm, Keeps r s → Keeps r (State.sealOne s e arm) := by
  intro s e arm h0
  unfold State.sealOne
  refine State.closeDebug_keeps _ _ (Keeps.modEng h0 (fun x => ?_))
  split
  · rename_i h1
    refine (EngKeeps.refl x).own rfl rfl (fun _ => ?_) (fun a ha => ha)
    dsimp only
    omega
  · exact EngKeeps.refl x

theorem cmdSeal_keeps {r : State} : ∀ c (s : State), Keeps r s → Keeps r (cmdSeal c s).1 := by
  intro c s h0
  unfold cmdSeal
  try dsimp only
  repeat' first
    | with_reducible assumption | with_reducible apply guarded_keeps | with_reducible apply ordered_keeps
    | with_reducible apply State.sealOne_keeps | with_reducible apply Keeps.foldl | with_reducible apply Keeps.foldlSnd
    | with_reducible apply Keeps.foldlFst | with_reducible apply EngKeeps.foldl | with_reducible exact EngKeeps.refl _
    | (intro _)

theorem cmdRetire_keeps {r : State} : ∀ c (s : State), Keeps r s → Keeps r (cmdRetire c s).1 := by
  intro c s h0
  unfold cmdRetire
  dsimp only
  have hx (x : Engine) (k : Keeper) : EngKeeps x { x with lifecycle := 3, hold := false, keeper := k } :=
    (EngKeeps.refl x).own rfl rfl (fun h => ⟨h, le_refl 3⟩) (fun a ha => ha)
  repeat' first
    | with_reducible assumption | with_reducible apply guarded_keeps | with_reducible apply ordered_keeps
    | with_reducible apply State.leave_keeps | with_reducible apply State.closeDebug_keeps
    | with_reducible apply State.zeroAll_keeps | with_reducible apply Keeps.modEng | (intro _) | with_reducible apply hx

theorem cmdKeyLoad_keeps {r : State} : ∀ c (s : State), Keeps r s → Keeps r (cmdKeyLoad c s).1 := by
  intro c s h0
  unfold cmdKeyLoad
  try dsimp only
  repeat' first
    | with_reducible assumption | with_reducible apply guarded_keeps | with_reducible apply badField_keeps
    | with_reducible apply ordered_keeps | with_reducible apply withData_keeps
    | with_reducible apply State.fillSlot_keeps | with_reducible apply Keeps.foldl
    | with_reducible apply Keeps.foldlSnd | with_reducible apply Keeps.foldlFst | with_reducible apply EngKeeps.foldl
    | with_reducible exact EngKeeps.refl _ | (intro _) | with_reducible refine Keeps.ofSnd ?_ (by assumption)
    | with_reducible refine Keeps.ofFst ?_ (by assumption) | split | with_reducible refine EngKeeps.upd ?_ rfl rfl rfl
    | with_reducible refine Keeps.upd ?_ rfl rfl

theorem cmdKeyGenerate_keeps {r : State} : ∀ c (s : State), Keeps r s → Keeps r (cmdKeyGenerate c s).1 := by
  intro c s h0
  unfold cmdKeyGenerate
  refine guarded_keeps _ _ _ _ h0 ?_
  split
  · exact badField_keeps _ _ h0
  · refine ordered_keeps _ _ _ h0 ?_
    have hw (d b) : Keeps r (writeBuffer c (s.draw (8 * c.fld 12 2)).2 d b).1 := writeBuffer_keeps _ _ _ _ h0.draw
    dsimp only
    split
    · rename_i heq
      refine Keeps.foldl ?_ (fun t a ht => State.fillSlot_keeps _ _ _ _ ht)
      exact (congrArg (fun q => Keeps r q.1) heq).mp (hw _ _)
    · exact hw _ _

theorem cmdKeyZeroise_keeps {r : State} : ∀ c (s : State), Keeps r s → Keeps r (cmdKeyZeroise c s).1 := by
  intro c s h0
  unfold cmdKeyZeroise
  try dsimp only
  repeat' first
    | with_reducible assumption | with_reducible apply guarded_keeps | with_reducible apply badField_keeps
    | with_reducible apply ordered_keeps | with_reducible apply State.zeroSlot_keeps | with_reducible apply Keeps.foldl
    | with_reducible apply Keeps.foldlSnd | with_reducible apply Keeps.foldlFst | with_reducible apply EngKeeps.foldl
    | with_reducible exact EngKeeps.refl _ | (intro _) | with_reducible refine Keeps.ofSnd ?_ (by assumption)
    | with_reducible refine Keeps.ofFst ?_ (by assumption) | split | with_reducible refine EngKeeps.upd ?_ rfl rfl rfl
    | with_reducible refine Keeps.upd ?_ rfl rfl

theorem cmdKeyBind_keeps {r : State} : ∀ c (s : State), Keeps r s → Keeps r (cmdKeyBind c s).1 := by
  intro c s h0
  unfold cmdKeyBind
  try dsimp only
  repeat' first
    | with_reducible assumption | with_reducible apply guarded_keeps | with_reducible apply ordered_keeps
    | with_reducible apply startAdoption_keeps | with_reducible apply Keeps.setPart
    | with_reducible exact EngKeeps.refl _ | (intro _) | with_reducible refine EngKeeps.upd ?_ rfl rfl rfl
    | with_reducible refine Keeps.upd ?_ rfl rfl

theorem cmdKeeperChallenge_keeps {r : State} : ∀ c (s : State), Keeps r s → Keeps r (cmdKeeperChallenge c s).1 := by
  intro c s h0
  unfold cmdKeeperChallenge
  refine guarded_keeps _ _ _ _ h0 (ordered_keeps _ _ _ h0 ?_)
  have hw (d b) : Keeps r (writeBuffer c (s.draw 256).2 d b).1 := writeBuffer_keeps _ _ _ _ h0.draw
  dsimp only
  split
  · rename_i heq
    have h1 := hw (challengeMsg ((engId? (c.fld 9 1)).getD 0) (c.fld 8 1) (s.draw 256).1
      (s.keeperTime ((engId? (c.fld 9 1)).getD 0))) []
    rw [heq] at h1
    dsimp only at h1 ⊢
    exact State.modKeeper_keeps _ _ _ h1
  · exact hw _ _

theorem State.acceptPurpose_keeps {r : State} : ∀ (s : State) e purpose, Keeps r s →
    Keeps r (State.acceptPurpose s e purpose) := by
  intro s e purpose h0
  unfold State.acceptPurpose
  try dsimp only
  repeat' first
    | with_reducible assumption | with_reducible apply Keeps.modEng | with_reducible apply State.modKeeper_keeps
    | with_reducible exact EngKeeps.refl _ | (intro _) | with_reducible refine Keeps.ofSnd ?_ (by assumption)
    | with_reducible refine Keeps.ofFst ?_ (by assumption) | split | with_reducible refine EngKeeps.upd ?_ rfl rfl rfl
    | with_reducible refine Keeps.upd ?_ rfl rfl

theorem answerKeeper_keeps {r : State} : ∀ (s : State) e ch d, Keeps r s → Keeps r (answerKeeper s e ch d).1 := by
  intro s e ch d h0
  unfold answerKeeper
  try dsimp only
  repeat' first
    | with_reducible assumption | with_reducible apply State.modKeeper_keeps
    | with_reducible apply State.acceptPurpose_keeps | with_reducible exact EngKeeps.refl _ | (intro _) | split
    | with_reducible refine EngKeeps.upd ?_ rfl rfl rfl | with_reducible refine Keeps.upd ?_ rfl rfl

theorem cmdKeeperRespond_keeps {r : State} : ∀ c (s : State), Keeps r s → Keeps r (cmdKeeperRespond c s).1 := by
  intro c s h0
  unfold cmdKeeperRespond
  try dsimp only
  repeat' first
    | with_reducible assumption | with_reducible apply guarded_keeps | with_reducible apply withData_keeps
    | with_reducible apply refuse_keeps | with_reducible apply State.shelfLane_keeps
    | with_reducible apply answerKeeper_keeps | with_reducible apply State.freeLane_keeps
    | with_reducible exact EngKeeps.refl _ | (intro _) | with_reducible refine Keeps.ofSnd ?_ (by assumption)
    | with_reducible refine Keeps.ofFst ?_ (by assumption) | split | with_reducible refine EngKeeps.upd ?_ rfl rfl rfl
    | with_reducible refine Keeps.upd ?_ rfl rfl

theorem cmdKeeperClose_keeps {r : State} : ∀ c (s : State), Keeps r s → Keeps r (cmdKeeperClose c s).1 := by
  intro c s h0
  unfold cmdKeeperClose
  try dsimp only
  repeat' first
    | with_reducible assumption | with_reducible apply guarded_keeps | with_reducible apply State.closeDebug_keeps
    | with_reducible exact EngKeeps.refl _ | (intro _) | split

end Sys2Proof.Machine
end

