-- ==== Sys2Proof/Laws/KeepsMembers.lean ====
section
/-! SUPPORT. What the operations of Machine/Members keep (Laws/Keeps). -/

namespace Sys2Proof.Machine

theorem cmdMemberQuery_keeps {r : State} : ∀ c (s : State), Keeps r s → Keeps r (cmdMemberQuery c s).1 := by
  intro c s h0
  unfold cmdMemberQuery
  try dsimp only
  repeat' first
    | with_reducible assumption | with_reducible apply guarded_keeps | with_reducible exact EngKeeps.refl _ | (intro _)

theorem cmdMemberExclude_keeps {r : State} : ∀ c (s : State), Keeps r s → Keeps r (cmdMemberExclude c s).1 := by
  intro c s h0
  unfold cmdMemberExclude
  try dsimp only
  repeat' first
    | with_reducible assumption | with_reducible apply guarded_keeps | with_reducible apply ordered_keeps
    | with_reducible apply startAdoption_keeps | with_reducible exact EngKeeps.refl _ | (intro _)
    | with_reducible refine EngKeeps.upd ?_ rfl rfl rfl | with_reducible refine Keeps.upd ?_ rfl rfl

theorem cmdMemberAdmit_keeps {r : State} : ∀ c (s : State), Keeps r s → Keeps r (cmdMemberAdmit c s).1 := by
  intro c s h0
  unfold cmdMemberAdmit
  try dsimp only
  repeat' first
    | with_reducible assumption | with_reducible apply guarded_keeps | with_reducible apply ordered_keeps
    | with_reducible apply startAdoption_keeps | with_reducible exact EngKeeps.refl _ | (intro _) | split
    | with_reducible refine EngKeeps.upd ?_ rfl rfl rfl | with_reducible refine Keeps.upd ?_ rfl rfl

theorem cmdTimeQuery_keeps {r : State} : ∀ c (s : State), Keeps r s → Keeps r (cmdTimeQuery c s).1 := by
  intro c s h0
  unfold cmdTimeQuery
  try dsimp only
  repeat' first
    | with_reducible assumption | with_reducible apply guarded_keeps | with_reducible apply State.timeSet_keeps
    | with_reducible apply Keeps.foldl | with_reducible apply Keeps.foldlSnd | with_reducible apply Keeps.foldlFst
    | with_reducible apply EngKeeps.foldl | with_reducible exact EngKeeps.refl _ | (intro _) | split

theorem cmdTimeSet_keeps {r : State} : ∀ c (s : State), Keeps r s → Keeps r (cmdTimeSet c s).1 := by
  intro c s h0
  unfold cmdTimeSet
  try dsimp only
  repeat' first
    | with_reducible assumption | with_reducible apply guarded_keeps | with_reducible apply ordered_keeps
    | with_reducible apply State.timeSet_keeps | with_reducible exact EngKeeps.refl _ | (intro _)

theorem cmdLeaseQuery_keeps {r : State} : ∀ c (s : State), Keeps r s → Keeps r (cmdLeaseQuery c s).1 := by
  intro c s h0
  unfold cmdLeaseQuery
  try dsimp only
  repeat' first
    | with_reducible assumption | with_reducible apply guarded_keeps | with_reducible exact EngKeeps.refl _ | (intro _)
    | split

theorem cmdLeaseClaim_keeps {r : State} : ∀ c (s : State), Keeps r s → Keeps r (cmdLeaseClaim c s).1 := by
  intro c s h0
  unfold cmdLeaseClaim
  try dsimp only
  repeat' first
    | with_reducible assumption | with_reducible apply guarded_keeps | with_reducible apply ordered_keeps
    | with_reducible apply State.claim_keeps | with_reducible exact EngKeeps.refl _ | (intro _) | split

theorem cmdLeaseRelease_keeps {r : State} : ∀ c (s : State), Keeps r s → Keeps r (cmdLeaseRelease c s).1 := by
  intro c s h0
  unfold cmdLeaseRelease
  try dsimp only
  repeat' first
    | with_reducible assumption | with_reducible apply guarded_keeps | with_reducible apply ordered_keeps
    | with_reducible apply startAdoption_keeps | with_reducible exact EngKeeps.refl _ | (intro _)

end Sys2Proof.Machine
end

