-- ==== Sys2Proof/Laws/KeepsPower.lean ====
section
/-! SUPPORT. What the operations of Machine/Power keep (Laws/Keeps). -/

namespace Sys2Proof.Machine

theorem Engine.wake_keeps {w : Engine} : ∀ (x : Engine) now, EngKeeps w x → EngKeeps w (Engine.wake x now) := by
  intro x now h0
  unfold Engine.wake
  try dsimp only
  repeat' first
    | with_reducible assumption | with_reducible exact EngKeeps.refl _ | (intro _) | split
    | with_reducible refine EngKeeps.upd ?_ rfl rfl rfl

theorem State.wake_keeps {r : State} : ∀ (s : State) e, Keeps r s → Keeps r (State.wake s e) := by
  intro s e h0
  unfold State.wake
  try dsimp only
  repeat' first
    | with_reducible assumption | with_reducible apply Keeps.modEng | with_reducible apply Engine.wake_keeps
    | with_reducible exact EngKeeps.refl _ | (intro _)

theorem State.wakeAll_keeps {r : State} : ∀ (s : State) m, Keeps r s → Keeps r (State.wakeAll s m) := by
  intro s m h0
  unfold State.wakeAll
  try dsimp only
  repeat' first
    | with_reducible assumption | with_reducible apply Keeps.modEngines | with_reducible apply Engine.wake_keeps
    | with_reducible apply State.wake_keeps | with_reducible exact EngKeeps.refl _ | (intro _)

end Sys2Proof.Machine
end

