-- ==== Sys2Proof/Laws/KeepsTensors.lean ====
section
/-! SUPPORT. What the operations of Machine/Tensors keep (Laws/Keeps). -/

namespace Sys2Proof.Machine

theorem State.registerAll_keeps {r : State} : ∀ (s : State) p t, Keeps r s → ∀ z, State.registerAll s p t = some z →
    Keeps r z := by
  intro s p t h0 z hz
  simp only [State.registerAll, Option.bind_eq_bind, Option.bind_eq_some_iff, Option.pure_def] at hz
  obtain ⟨s1, h1, hz⟩ := hz
  have k1 := State.register_keeps _ _ _ h0.modPart _ h1
  have hd (s2 : State) (k2 : Keeps r s2) (h3 : (match (if t.cls = 0 then (s2.part p).tensor? t.parent.toNat else none),
      (s2.part p).tensor? t.id.toNat with
    | some m, some w => some (s2.deriveOne p w (s2.part p).step.completed 0 (s2.elemsAt m 0 m.elems))
    | _, _ => some s2) = some z) : Keeps r z := by
    split at h3
    · exact Option.some.inj h3 ▸ State.deriveOne_keeps _ _ _ _ _ _ k2
    · exact Option.some.inj h3 ▸ k2
  split at hz
  · obtain ⟨s2, h2, hz⟩ := Option.bind_eq_some_iff.1 hz
    exact hd s2 (State.setPreconds_keeps _ _ _ k1 _ h2) hz
  · exact hd s1 k1 hz

theorem cmdRegTensor_keeps {r : State} : ∀ c (s : State), Keeps r s → Keeps r (cmdRegTensor c s).1 := by
  intro c s h0
  unfold cmdRegTensor
  try dsimp only
  repeat' first
    | with_reducible assumption | with_reducible apply guarded_keeps | with_reducible apply ordered_keeps
    | refine State.registerAll_keeps _ _ _ ?_ _ (by with_reducible assumption) | with_reducible apply refuse_keeps
    | with_reducible exact EngKeeps.refl _ | (intro _) | with_reducible refine Keeps.ofSnd ?_ (by assumption)
    | with_reducible refine Keeps.ofFst ?_ (by assumption) | split | with_reducible refine EngKeeps.upd ?_ rfl rfl rfl
    | with_reducible refine Keeps.upd ?_ rfl rfl

theorem cmdRegClass_keeps {r : State} : ∀ c (s : State), Keeps r s → Keeps r (cmdRegClass c s).1 := by
  intro c s h0
  unfold cmdRegClass
  try dsimp only
  repeat' first
    | with_reducible assumption | with_reducible apply guarded_keeps | with_reducible apply ordered_keeps
    | with_reducible apply Keeps.modPart | with_reducible exact EngKeeps.refl _ | (intro _) | split
    | with_reducible refine EngKeeps.upd ?_ rfl rfl rfl | with_reducible refine Keeps.upd ?_ rfl rfl

theorem cmdStepPolicy_keeps {r : State} : ∀ c (s : State), Keeps r s → Keeps r (cmdStepPolicy c s).1 := by
  intro c s h0
  unfold cmdStepPolicy
  try dsimp only
  repeat' first
    | with_reducible assumption | with_reducible apply guarded_keeps | with_reducible apply ordered_keeps
    | with_reducible apply Keeps.modPart | refine State.setPreconds_keeps _ _ _ ?_ _ (by with_reducible assumption)
    | with_reducible apply refuse_keeps | with_reducible exact EngKeeps.refl _ | (intro _)
    | with_reducible refine Keeps.ofSnd ?_ (by assumption) | with_reducible refine Keeps.ofFst ?_ (by assumption)
    | split | with_reducible refine EngKeeps.upd ?_ rfl rfl rfl | with_reducible refine Keeps.upd ?_ rfl rfl

theorem cmdReshape_keeps {r : State} : ∀ c (s : State), Keeps r s → Keeps r (cmdReshape c s).1 := by
  intro c s h0
  unfold cmdReshape
  try dsimp only
  repeat' first
    | with_reducible assumption | with_reducible apply guarded_keeps | with_reducible apply ordered_keeps
    | with_reducible apply badField_keeps | with_reducible apply withData_keeps | with_reducible apply Keeps.modPart
    | with_reducible exact EngKeeps.refl _ | (intro _) | split | with_reducible refine EngKeeps.upd ?_ rfl rfl rfl
    | with_reducible refine Keeps.upd ?_ rfl rfl

theorem cmdStateQuery_keeps {r : State} : ∀ c (s : State), Keeps r s → Keeps r (cmdStateQuery c s).1 := by
  intro c s h0
  unfold cmdStateQuery
  try dsimp only
  repeat' first
    | with_reducible assumption | with_reducible apply guarded_keeps | with_reducible apply ordered_keeps
    | with_reducible apply refuse_keeps | with_reducible apply writeBuffer_keeps | with_reducible exact EngKeeps.refl _
    | (intro _) | with_reducible refine Keeps.ofSnd ?_ (by assumption)
    | with_reducible refine Keeps.ofFst ?_ (by assumption) | split | with_reducible refine EngKeeps.upd ?_ rfl rfl rfl
    | with_reducible refine Keeps.upd ?_ rfl rfl

theorem cmdTensorDrop_keeps {r : State} : ∀ c (s : State), Keeps r s → Keeps r (cmdTensorDrop c s).1 := by
  intro c s h0
  unfold cmdTensorDrop
  try dsimp only
  repeat' first
    | with_reducible assumption | with_reducible apply guarded_keeps | with_reducible apply ordered_keeps
    | with_reducible apply State.unregister_keeps | with_reducible exact EngKeeps.refl _ | (intro _) | split

end Sys2Proof.Machine
end

