-- ==== Sys2Proof/Laws/KeepsPrograms.lean ====
section
/-! SUPPORT. What the operations of Machine/Programs keep (Laws/Keeps). -/

namespace Sys2Proof.Machine

theorem State.freshHandle_keeps {r : State} : ∀ (s : State) used, Keeps r s → Keeps r (State.freshHandle s used).2 := by
  intro s used h0
  unfold State.freshHandle
  try dsimp only
  repeat' first
    | with_reducible assumption | with_reducible apply Keeps.draw | with_reducible exact EngKeeps.refl _ | (intro _)
    | with_reducible refine Keeps.ofSnd ?_ (by assumption) | with_reducible refine Keeps.ofFst ?_ (by assumption)
    | split

theorem cmdProgLoad_keeps {r : State} : ∀ c (s : State), Keeps r s → Keeps r (cmdProgLoad c s).1 := by
  intro c s h0
  unfold cmdProgLoad
  try dsimp only
  repeat' first
    | with_reducible assumption | with_reducible apply guarded_keeps | with_reducible apply withData_keeps
    | with_reducible apply ordered_keeps | with_reducible apply State.freshHandle_keeps
    | with_reducible apply Keeps.modPart | with_reducible exact EngKeeps.refl _ | (intro _)
    | with_reducible refine Keeps.ofSnd ?_ (by assumption) | with_reducible refine Keeps.ofFst ?_ (by assumption)
    | split | with_reducible refine EngKeeps.upd ?_ rfl rfl rfl | with_reducible refine Keeps.upd ?_ rfl rfl

theorem cmdProgUnload_keeps {r : State} : ∀ c (s : State), Keeps r s → Keeps r (cmdProgUnload c s).1 := by
  intro c s h0
  unfold cmdProgUnload
  try dsimp only
  repeat' first
    | with_reducible assumption | with_reducible apply guarded_keeps | with_reducible apply ordered_keeps
    | with_reducible apply Keeps.modPart | with_reducible exact EngKeeps.refl _ | (intro _)
    | with_reducible refine EngKeeps.upd ?_ rfl rfl rfl | with_reducible refine Keeps.upd ?_ rfl rfl

theorem cmdSpinLoad_keeps {r : State} : ∀ c (s : State), Keeps r s → Keeps r (cmdSpinLoad c s).1 := by
  intro c s h0
  unfold cmdSpinLoad
  try dsimp only
  repeat' first
    | with_reducible assumption | with_reducible apply guarded_keeps | with_reducible apply withData_keeps
    | with_reducible apply ordered_keeps | with_reducible apply State.freshHandle_keeps
    | with_reducible apply Keeps.modPart | with_reducible exact EngKeeps.refl _ | (intro _)
    | with_reducible refine Keeps.ofSnd ?_ (by assumption) | with_reducible refine Keeps.ofFst ?_ (by assumption)
    | split | with_reducible refine EngKeeps.upd ?_ rfl rfl rfl | with_reducible refine Keeps.upd ?_ rfl rfl

theorem cmdSpinUnload_keeps {r : State} : ∀ c (s : State), Keeps r s → Keeps r (cmdSpinUnload c s).1 := by
  intro c s h0
  unfold cmdSpinUnload
  try dsimp only
  repeat' first
    | with_reducible assumption | with_reducible apply guarded_keeps | with_reducible apply ordered_keeps
    | with_reducible apply Keeps.modPart | with_reducible apply Keeps.modEngines | with_reducible exact EngKeeps.refl _
    | (intro _) | split | with_reducible refine EngKeeps.upd ?_ rfl rfl rfl
    | with_reducible refine Keeps.upd ?_ rfl rfl

theorem cmdProgQuery_keeps {r : State} : ∀ c (s : State), Keeps r s → Keeps r (cmdProgQuery c s).1 := by
  intro c s h0
  unfold cmdProgQuery
  try dsimp only
  repeat' first
    | with_reducible assumption | with_reducible apply guarded_keeps | with_reducible exact EngKeeps.refl _ | (intro _)
    | with_reducible refine Keeps.ofSnd ?_ (by assumption) | with_reducible refine Keeps.ofFst ?_ (by assumption)
    | split | with_reducible refine EngKeeps.upd ?_ rfl rfl rfl | with_reducible refine Keeps.upd ?_ rfl rfl

end Sys2Proof.Machine
end

