-- ==== Sys2Proof/Laws/KeepsStreamLog.lean ====
section
/-! SUPPORT. What the operations of Machine/StreamLog keep (Laws/Keeps). -/

namespace Sys2Proof.Machine

theorem State.appendLog_keeps {r : State} : ∀ (s : State) p e op id off data key, Keeps r s →
    ∀ z, State.appendLog s p e op id off data key = some z → Keeps r z := by
  intro s p e op id off data key h0 z hz
  unfold State.appendLog at hz
  split at hz
  · cases hz
  · extract_lets ring lsn n left pad t s1 s2 at hz
    clear_value pad
    split at hz
    · cases hz
    · have hz := Option.some.inj hz
      rw [← hz]
      refine Keeps.modPart (State.writePtr_keeps _ _ _ _ ?_)
      dsimp only [s1]
      split
      · exact h0
      · exact State.writePtr_keeps _ _ _ _ h0

end Sys2Proof.Machine
end

