-- ==== Sys2Proof/Laws/KeepsRestoreOps.lean ====
section
/-! SUPPORT. What the operations of Machine/RestoreOps keep (Laws/Keeps). -/

namespace Sys2Proof.Machine

theorem State.putContexts_keeps {r : State} : ∀ (s : State) p b, Keeps r s → Keeps r (State.putContexts s p b) := by
  intro s p b h0
  unfold State.putContexts
  try dsimp only
  repeat' first
    | with_reducible assumption | with_reducible apply Keeps.modWin | with_reducible apply Keeps.modStream
    | with_reducible apply Keeps.foldl | with_reducible apply Keeps.foldlSnd | with_reducible apply Keeps.foldlFst
    | with_reducible apply EngKeeps.foldl | with_reducible exact EngKeeps.refl _ | (intro _) | split
    | with_reducible refine EngKeeps.upd ?_ rfl rfl rfl | with_reducible refine Keeps.upd ?_ rfl rfl

theorem State.placeRestored_keeps {r : State} : ∀ (s : State) p r0 x, Keeps r s → ∀ z, State.placeRestored s p r0 x = some z →
    Keeps r z := by
  intro s p r0 x h0 z hz
  simp only [State.placeRestored, Option.map_eq_some_iff] at hz
  obtain ⟨s1, h1, rfl⟩ := hz
  have k1 := State.register_keeps _ _ _ h0 _ h1
  split
  · exact k1
  · split
    · exact Keeps.foldl k1 (fun t c ht => State.putTensor_keeps _ _ _ _ ht)
    · exact k1

theorem State.clearState_keeps {r : State} : ∀ (s : State) p, Keeps r s → Keeps r (State.clearState s p) := by
  intro s p h0
  unfold State.clearState
  try dsimp only
  repeat' first
    | with_reducible assumption | with_reducible apply State.unregister_keeps | with_reducible apply Keeps.modPart
    | with_reducible exact EngKeeps.refl _ | (intro _) | with_reducible refine EngKeeps.upd ?_ rfl rfl rfl
    | with_reducible refine Keeps.upd ?_ rfl rfl

theorem State.putCounters_keeps {r : State} : ∀ (s : State) p ses m r0, Keeps r s →
    Keeps r (State.putCounters s p ses m r0) := by
  intro s p ses m r0 h0
  unfold State.putCounters
  try dsimp only
  repeat' first
    | with_reducible assumption | with_reducible apply Keeps.modPart | with_reducible apply Keeps.foldl
    | with_reducible apply Keeps.foldlSnd | with_reducible apply Keeps.foldlFst | with_reducible apply EngKeeps.foldl
    | with_reducible exact EngKeeps.refl _ | (intro _) | with_reducible refine Keeps.ofSnd ?_ (by assumption)
    | with_reducible refine Keeps.ofFst ?_ (by assumption) | split | with_reducible refine EngKeeps.upd ?_ rfl rfl rfl
    | with_reducible refine Keeps.upd ?_ rfl rfl

theorem State.replayOne_keeps {r : State} : ∀ (s : State) p ids x, Keeps r s → Keeps r (State.replayOne s p ids x) := by
  intro s p ids x h0
  unfold State.replayOne
  try dsimp only
  repeat' first
    | with_reducible assumption | with_reducible apply Keeps.modPart | with_reducible apply State.writeTensor_keeps
    | with_reducible exact EngKeeps.refl _ | (intro _) | with_reducible refine Keeps.ofSnd ?_ (by assumption)
    | with_reducible refine Keeps.ofFst ?_ (by assumption) | split | with_reducible refine EngKeeps.upd ?_ rfl rfl rfl
    | with_reducible refine Keeps.upd ?_ rfl rfl

theorem State.issueReads_keeps {r : State} : ∀ (s : State) ms again, Keeps r s → Keeps r (State.issueReads s ms again) := by
  intro s ms again h0
  unfold State.issueReads
  try dsimp only
  repeat' first
    | with_reducible assumption | with_reducible apply State.storeRead_keeps | with_reducible apply Keeps.foldl
    | with_reducible apply Keeps.foldlSnd | with_reducible apply Keeps.foldlFst | with_reducible apply EngKeeps.foldl
    | with_reducible exact EngKeeps.refl _ | (intro _)

theorem State.reportDamage_keeps {r : State} : ∀ (s : State) p ids d, Keeps r s →
    Keeps r (State.reportDamage s p ids d) := by
  intro s p ids d h0
  unfold State.reportDamage
  try dsimp only
  repeat' first
    | with_reducible assumption | with_reducible apply State.detect_keeps | with_reducible exact EngKeeps.refl _
    | (intro _) | with_reducible refine Keeps.ofSnd ?_ (by assumption)
    | with_reducible refine Keeps.ofFst ?_ (by assumption) | split | with_reducible refine EngKeeps.upd ?_ rfl rfl rfl
    | with_reducible refine Keeps.upd ?_ rfl rfl

theorem State.failRestore_keeps {r : State} : ∀ (s : State) p st, Keeps r s → Keeps r (State.failRestore s p st) := by
  intro s p st h0
  unfold State.failRestore
  try dsimp only
  repeat' first
    | with_reducible assumption | with_reducible apply State.clearState_keeps | with_reducible apply Keeps.endCampaign
    | with_reducible apply Keeps.modPart | with_reducible exact EngKeeps.refl _ | (intro _)
    | with_reducible refine EngKeeps.upd ?_ rfl rfl rfl | with_reducible refine Keeps.upd ?_ rfl rfl

theorem State.finishRestore_keeps {r : State} : ∀ (s : State) p ses bad, Keeps r s →
    Keeps r (State.finishRestore s p ses bad) := by
  intro s p ses bad h0
  unfold State.finishRestore
  extract_lets m r0 lost sr ids s0 ts es
  have kr : Keeps r sr := State.issueReads_keeps _ _ _ h0
  have k0 : Keeps r s0 := Keeps.foldl kr (fun _ _ ht => State.releaseEpoch_keeps _ _ _ ht)
  clear_value r0 ids m lost es ts s0 sr
  split
  · exact State.failRestore_keeps _ _ _ (Keeps.foldl kr (fun _ _ ht => State.reportDamage_keeps _ _ _ _ ht))
  · generalize hq : ts.foldlM (fun s x => s.placeRestored p r0 x) (s0.clearState p) = q
    cases q with
    | none => exact State.failRestore_keeps _ _ _ k0
    | some s1 =>
      have k1 : Keeps r s1 := Keeps.foldlM (g := id) (State.clearState_keeps _ _ k0)
        (fun b x c hb hc => State.placeRestored_keeps _ _ _ _ hb _ hc) hq
      refine Keeps.modPart (Keeps.endCampaign (Keeps.foldl (Keeps.foldl ?_ (fun _ _ ht => State.replayOne_keeps _ _ _ _ ht))
        (fun _ _ ht => State.reportDamage_keeps _ _ _ _ ht)))
      exact State.putContexts_keeps _ _ _ (State.putCounters_keeps _ _ _ _ _ k1)

end Sys2Proof.Machine
end

