-- ==== Sys2Proof/Laws/KeepsReshardOps.lean ====
section
/-! SUPPORT. What the operations of Machine/ReshardOps keep (Laws/Keeps). -/

namespace Sys2Proof.Machine

theorem State.giveDest_keeps {r : State} : ∀ (s : State) p t pl, Keeps r s → ∀ z, State.giveDest s p t pl = some z →
    Keeps r z := by
  intro s p t pl h0 z hz
  simp only [State.giveDest, Option.map_eq_some_iff] at hz
  obtain ⟨⟨q, s1⟩, h1, rfl⟩ := hz
  exact State.modTensor_keeps _ _ _ _ (State.takePlacement_keeps _ _ _ h0 _ _ h1)

theorem State.giveDests_keeps {r : State} : ∀ (s : State) p pl, Keeps r s → ∀ z, State.giveDests s p pl = some z → Keeps r z := by
  intro s p pl h0 z hz
  exact Keeps.foldlM (g := id) h0 (fun b a c hb hc => State.giveDest_keeps _ _ _ _ hb _ hc) hz

theorem State.zeroStripe_keeps {r : State} : ∀ (s : State) t0 k0, Keeps r s → Keeps r (State.zeroStripe s t0 k0) := by
  intro s t0 k0 h0
  unfold State.zeroStripe
  try dsimp only
  repeat' first
    | with_reducible assumption | with_reducible apply State.putStripeByte_keeps | with_reducible apply Keeps.foldl
    | with_reducible apply Keeps.foldlSnd | with_reducible apply Keeps.foldlFst | with_reducible apply EngKeeps.foldl
    | with_reducible exact EngKeeps.refl _ | (intro _)

theorem State.fillStripe_keeps {r : State} : ∀ (s : State) t0 k0 bs, Keeps r s → Keeps r (State.fillStripe s t0 k0 bs) := by
  intro s t0 k0 bs h0
  unfold State.fillStripe
  try dsimp only
  repeat' first
    | with_reducible assumption | with_reducible apply State.putStripeByte_keeps | with_reducible apply Keeps.foldl
    | with_reducible apply Keeps.foldlSnd | with_reducible apply Keeps.foldlFst | with_reducible apply EngKeeps.foldl
    | with_reducible exact EngKeeps.refl _ | (intro _) | with_reducible refine Keeps.ofSnd ?_ (by assumption)
    | with_reducible refine Keeps.ofFst ?_ (by assumption) | split | with_reducible refine EngKeeps.upd ?_ rfl rfl rfl
    | with_reducible refine Keeps.upd ?_ rfl rfl

theorem State.moveStripe_keeps {r : State} : ∀ (s : State) p t0 k0, Keeps r s → Keeps r (State.moveStripe s p t0 k0) := by
  intro s p t0 k0 h0
  unfold State.moveStripe
  try dsimp only
  repeat' first
    | with_reducible assumption | with_reducible apply State.zeroStripe_keeps
    | with_reducible apply State.modTensor_keeps | with_reducible apply State.fillStripe_keeps
    | with_reducible exact EngKeeps.refl _ | (intro _) | with_reducible refine EngKeeps.upd ?_ rfl rfl rfl
    | with_reducible refine Keeps.upd ?_ rfl rfl

theorem State.unmoveStripe_keeps {r : State} : ∀ (s : State) p t0 k0, Keeps r s →
    Keeps r (State.unmoveStripe s p t0 k0) := by
  intro s p t0 k0 h0
  unfold State.unmoveStripe
  try dsimp only
  repeat' first
    | with_reducible assumption | with_reducible apply State.zeroStripe_keeps
    | with_reducible apply State.modTensor_keeps | with_reducible apply State.fillStripe_keeps
    | with_reducible exact EngKeeps.refl _ | (intro _) | with_reducible refine EngKeeps.upd ?_ rfl rfl rfl
    | with_reducible refine Keeps.upd ?_ rfl rfl

theorem State.moveStripes_keeps {r : State} : ∀ (s : State) p id ks, Keeps r s → Keeps r (State.moveStripes s p id ks) := by
  intro s p id ks h0
  unfold State.moveStripes
  try dsimp only
  repeat' first
    | with_reducible assumption | with_reducible apply State.moveStripe_keeps | with_reducible apply Keeps.foldl
    | with_reducible apply Keeps.foldlSnd | with_reducible apply Keeps.foldlFst | with_reducible apply EngKeeps.foldl
    | with_reducible exact EngKeeps.refl _ | (intro _) | with_reducible refine Keeps.ofSnd ?_ (by assumption)
    | with_reducible refine Keeps.ofFst ?_ (by assumption) | split | with_reducible refine EngKeeps.upd ?_ rfl rfl rfl
    | with_reducible refine Keeps.upd ?_ rfl rfl

theorem State.dropDest_keeps {r : State} : ∀ (s : State) p id, Keeps r s → Keeps r (State.dropDest s p id) := by
  intro s p id h0
  unfold State.dropDest
  try dsimp only
  repeat' first
    | with_reducible assumption | with_reducible apply State.unmoveStripe_keeps
    | with_reducible apply State.freePlacement_keeps | with_reducible apply State.modTensor_keeps
    | with_reducible apply Keeps.foldl | with_reducible apply Keeps.foldlSnd | with_reducible apply Keeps.foldlFst
    | with_reducible apply EngKeeps.foldl | with_reducible exact EngKeeps.refl _ | (intro _)
    | with_reducible refine Keeps.ofSnd ?_ (by assumption) | with_reducible refine Keeps.ofFst ?_ (by assumption)
    | split | with_reducible refine EngKeeps.upd ?_ rfl rfl rfl | with_reducible refine Keeps.upd ?_ rfl rfl

theorem State.dropDests_keeps {r : State} : ∀ (s : State) p, Keeps r s → Keeps r (State.dropDests s p) := by
  intro s p h0
  unfold State.dropDests
  try dsimp only
  repeat' first
    | with_reducible assumption | with_reducible apply State.dropDest_keeps | with_reducible apply Keeps.foldl
    | with_reducible apply Keeps.foldlSnd | with_reducible apply Keeps.foldlFst | with_reducible apply EngKeeps.foldl
    | with_reducible exact EngKeeps.refl _ | (intro _)

theorem State.startReshard_keeps {r : State} : ∀ (s : State) p r0, Keeps r s → ∀ z, State.startReshard s p r0 = some z →
    Keeps r z := by
  intro s p r0 h0 z hz
  simp only [State.startReshard] at hz
  split at hz
  · cases hz
  · simp only [Option.map_eq_some_iff] at hz
    obtain ⟨s1, h1, rfl⟩ := hz
    exact (State.giveDests_keeps _ _ _ h0 _ h1).startCampaign.modPart

theorem State.answerReshard_keeps {r : State} : ∀ (s : State) r0 st body, Keeps r s →
    Keeps r (State.answerReshard s r0 st body) := by
  intro s r0 st body h0
  unfold State.answerReshard
  try dsimp only
  repeat' first
    | with_reducible assumption | with_reducible apply State.answer_keeps | with_reducible exact EngKeeps.refl _
    | (intro _) | with_reducible refine Keeps.ofSnd ?_ (by assumption)
    | with_reducible refine Keeps.ofFst ?_ (by assumption) | split | with_reducible refine EngKeeps.upd ?_ rfl rfl rfl
    | with_reducible refine Keeps.upd ?_ rfl rfl

theorem State.kickReshard_keeps {r : State} : ∀ (s : State) p, Keeps r s → Keeps r (State.kickReshard s p) := by
  intro s p h0
  unfold State.kickReshard
  try dsimp only
  repeat' first
    | with_reducible assumption | refine State.startReshard_keeps _ _ _ ?_ _ (by with_reducible assumption)
    | with_reducible apply State.answerReshard_keeps | with_reducible apply Keeps.modPart
    | with_reducible exact EngKeeps.refl _ | (intro _) | with_reducible refine Keeps.ofSnd ?_ (by assumption)
    | with_reducible refine Keeps.ofFst ?_ (by assumption) | split | with_reducible refine EngKeeps.upd ?_ rfl rfl rfl
    | with_reducible refine Keeps.upd ?_ rfl rfl

theorem State.kickReshards_keeps {r : State} : ∀ (s : State), Keeps r s → Keeps r (State.kickReshards s) := by
  intro s h0
  unfold State.kickReshards
  try dsimp only
  repeat' first
    | with_reducible assumption | with_reducible apply State.kickReshard_keeps | with_reducible apply Keeps.foldl
    | with_reducible apply Keeps.foldlSnd | with_reducible apply Keeps.foldlFst | with_reducible apply EngKeeps.foldl
    | with_reducible exact EngKeeps.refl _ | (intro _)

theorem State.settleTensor_keeps {r : State} : ∀ (s : State) p r0 id, Keeps r s → Keeps r (State.settleTensor s p r0 id) := by
  intro s p r0 id h0
  unfold State.settleTensor
  extract_lets s0
  have k0 : Keeps r s0 := by
    dsimp only [s0]
    split
    · split
      · exact h0
      · rename_i t _ _
        cases hg : s.giveDest p t r0.placement with
        | none => exact h0
        | some s1 => exact State.giveDest_keeps _ _ _ _ h0 _ hg
    · exact h0
  clear_value s0
  split
  · exact k0
  · split
    · exact k0
    · exact State.modTensor_keeps _ _ _ _ (State.freePlacement_keeps _ _ (State.moveStripes_keeps _ _ _ _ k0))

theorem Engine.haltStreams_keeps {w : Engine} : ∀ (x : Engine) p, EngKeeps w x → EngKeeps w (Engine.haltStreams x p) := by
  intro x p h0
  unfold Engine.haltStreams
  try dsimp only
  repeat' first
    | with_reducible assumption | with_reducible apply EngKeeps.setWin | with_reducible exact EngKeeps.refl _
    | (intro _) | with_reducible refine EngKeeps.upd ?_ rfl rfl rfl

theorem State.shiftMembers_keeps {r : State} : ∀ (s : State) p old, Keeps r s → Keeps r (State.shiftMembers s p old) := by
  intro s p old h0
  unfold State.shiftMembers
  try dsimp only
  repeat' first
    | with_reducible assumption | with_reducible apply Keeps.modEngines | with_reducible apply Engine.haltStreams_keeps
    | with_reducible apply Engine.dropWindow_keeps | with_reducible exact EngKeeps.refl _ | (intro _)

theorem State.endReshard_keeps {r : State} : ∀ (s : State) p r0, Keeps r s → Keeps r (State.endReshard s p r0) := by
  intro s p r0 h0
  unfold State.endReshard
  try dsimp only
  repeat' first
    | with_reducible assumption | with_reducible apply State.settleTensor_keeps
    | with_reducible apply Keeps.endCampaign | with_reducible apply Keeps.modPart
    | with_reducible apply State.answerReshard_keeps | with_reducible apply State.kickReshards_keeps
    | with_reducible apply Keeps.foldl | with_reducible apply Keeps.foldlSnd | with_reducible apply Keeps.foldlFst
    | with_reducible apply EngKeeps.foldl | with_reducible exact EngKeeps.refl _ | (intro _) | split
    | with_reducible refine EngKeeps.upd ?_ rfl rfl rfl | with_reducible refine Keeps.upd ?_ rfl rfl

theorem State.membersAdopted_keeps {r : State} : ∀ (s : State) p old, Keeps r s →
    Keeps r (State.membersAdopted s p old) := by
  intro s p old h0
  unfold State.membersAdopted
  try dsimp only
  repeat' first
    | with_reducible assumption | with_reducible apply State.shiftMembers_keeps
    | with_reducible apply State.endReshard_keeps | with_reducible exact EngKeeps.refl _ | (intro _)
    | with_reducible refine Keeps.ofSnd ?_ (by assumption) | with_reducible refine Keeps.ofFst ?_ (by assumption)
    | split | with_reducible refine EngKeeps.upd ?_ rfl rfl rfl | with_reducible refine Keeps.upd ?_ rfl rfl

end Sys2Proof.Machine
end

