-- ==== Sys2Proof/Laws/KeepsRestores.lean ====
section
/-! SUPPORT. What the operations of Machine/Restores keep (Laws/Keeps). -/

namespace Sys2Proof.Machine

theorem cmdRestoreOpen_keeps {r : State} : ∀ c (s : State), Keeps r s → Keeps r (cmdRestoreOpen c s).1 := by
  intro c s h0
  unfold cmdRestoreOpen
  try dsimp only
  repeat' first
    | with_reducible assumption | with_reducible apply guarded_keeps | with_reducible apply ordered_keeps
    | with_reducible apply Keeps.modPart | with_reducible exact EngKeeps.refl _ | (intro _) | split
    | with_reducible refine EngKeeps.upd ?_ rfl rfl rfl | with_reducible refine Keeps.upd ?_ rfl rfl

theorem cmdRestoreMap_keeps {r : State} : ∀ c (s : State), Keeps r s → Keeps r (cmdRestoreMap c s).1 := by
  intro c s h0
  unfold cmdRestoreMap
  try dsimp only
  repeat' first
    | with_reducible assumption | with_reducible apply guarded_keeps | with_reducible apply ordered_keeps
    | with_reducible apply withData_keeps | with_reducible apply refuse_keeps | with_reducible apply badField_keeps
    | with_reducible apply Keeps.modPart | with_reducible exact EngKeeps.refl _ | (intro _) | split
    | with_reducible refine EngKeeps.upd ?_ rfl rfl rfl | with_reducible refine Keeps.upd ?_ rfl rfl

theorem cmdRestoreRun_keeps {r : State} : ∀ c (s : State), Keeps r s → Keeps r (cmdRestoreRun c s).1 := by
  intro c s h0
  unfold cmdRestoreRun
  try dsimp only
  repeat' first
    | with_reducible assumption | with_reducible apply guarded_keeps | with_reducible apply refuse_keeps
    | with_reducible apply ordered_keeps | with_reducible apply Keeps.startCampaign
    | with_reducible apply State.clearState_keeps | with_reducible apply Keeps.modPart
    | with_reducible exact EngKeeps.refl _ | (intro _) | with_reducible refine Keeps.ofSnd ?_ (by assumption)
    | with_reducible refine Keeps.ofFst ?_ (by assumption) | split | with_reducible refine EngKeeps.upd ?_ rfl rfl rfl
    | with_reducible refine Keeps.upd ?_ rfl rfl

theorem cmdReshard_keeps {r : State} : ∀ c (s : State), Keeps r s → Keeps r (cmdReshard c s).1 := by
  intro c s h0
  unfold cmdReshard
  try dsimp only
  repeat' first
    | with_reducible assumption | with_reducible apply guarded_keeps | with_reducible apply ordered_keeps
    | with_reducible apply startAdoption_keeps | with_reducible exact EngKeeps.refl _ | (intro _)

theorem cmdRestoreQuery_keeps {r : State} : ∀ c (s : State), Keeps r s → Keeps r (cmdRestoreQuery c s).1 := by
  intro c s h0
  unfold cmdRestoreQuery
  try dsimp only
  repeat' first
    | with_reducible assumption | with_reducible apply guarded_keeps | with_reducible exact EngKeeps.refl _ | (intro _)
    | with_reducible refine Keeps.ofSnd ?_ (by assumption) | with_reducible refine Keeps.ofFst ?_ (by assumption)
    | split | with_reducible refine EngKeeps.upd ?_ rfl rfl rfl | with_reducible refine Keeps.upd ?_ rfl rfl

theorem cmdRestoreClose_keeps {r : State} : ∀ c (s : State), Keeps r s → Keeps r (cmdRestoreClose c s).1 := by
  intro c s h0
  unfold cmdRestoreClose
  try dsimp only
  repeat' first
    | with_reducible assumption | with_reducible apply guarded_keeps | with_reducible apply refuse_keeps
    | with_reducible apply State.clearState_keeps | with_reducible apply Keeps.endCampaign
    | with_reducible apply Keeps.modPart | with_reducible exact EngKeeps.refl _ | (intro _)
    | with_reducible refine Keeps.ofSnd ?_ (by assumption) | with_reducible refine Keeps.ofFst ?_ (by assumption)
    | split | with_reducible refine EngKeeps.upd ?_ rfl rfl rfl | with_reducible refine Keeps.upd ?_ rfl rfl

end Sys2Proof.Machine
end

