-- ==== Sys2Proof/Laws/KeepsTide.lean ====
section
/-! SUPPORT. What the operations of Machine/Tide keep (Laws/Keeps). -/

namespace Sys2Proof.Machine

theorem State.startTurn_keeps {r : State} : ∀ (s : State) flood time, Keeps r s →
    Keeps r (State.startTurn s flood time) := by
  intro s flood time h0
  unfold State.startTurn
  try dsimp only
  repeat' first
    | with_reducible assumption | with_reducible apply State.tideEvent_keeps | with_reducible apply Keeps.modPart
    | with_reducible apply State.dropLent_keeps | with_reducible apply Keeps.foldl
    | with_reducible apply Keeps.foldlSnd | with_reducible apply Keeps.foldlFst | with_reducible apply EngKeeps.foldl
    | with_reducible exact EngKeeps.refl _ | (intro _) | split | with_reducible refine EngKeeps.upd ?_ rfl rfl rfl
    | with_reducible refine Keeps.upd ?_ rfl rfl

theorem cmdTideSet_keeps {r : State} : ∀ c (s : State), Keeps r s → Keeps r (cmdTideSet c s).1 := by
  intro c s h0
  unfold cmdTideSet
  try dsimp only
  repeat' first
    | with_reducible assumption | with_reducible apply guarded_keeps | with_reducible apply ordered_keeps
    | with_reducible apply State.startTurn_keeps | with_reducible exact EngKeeps.refl _ | (intro _) | split

theorem cmdTideQuery_keeps {r : State} : ∀ c (s : State), Keeps r s → Keeps r (cmdTideQuery c s).1 := by
  intro c s h0
  unfold cmdTideQuery
  try dsimp only
  repeat' first
    | with_reducible assumption | with_reducible apply guarded_keeps | with_reducible exact EngKeeps.refl _ | (intro _)

theorem cmdKvConfig_keeps {r : State} : ∀ c (s : State), Keeps r s → Keeps r (cmdKvConfig c s).1 := by
  intro c s h0
  unfold cmdKvConfig
  try dsimp only
  repeat' first
    | with_reducible assumption | with_reducible apply guarded_keeps | with_reducible apply Keeps.modPart
    | with_reducible exact EngKeeps.refl _ | (intro _) | with_reducible refine EngKeeps.upd ?_ rfl rfl rfl
    | with_reducible refine Keeps.upd ?_ rfl rfl

theorem cmdKvQuery_keeps {r : State} : ∀ c (s : State), Keeps r s → Keeps r (cmdKvQuery c s).1 := by
  intro c s h0
  unfold cmdKvQuery
  try dsimp only
  repeat' first
    | with_reducible assumption | with_reducible apply guarded_keeps | with_reducible exact EngKeeps.refl _ | (intro _)

end Sys2Proof.Machine
end

