-- ==== Sys2Proof/Laws/KeepsMailbox.lean ====
section
/-! SUPPORT. What the operations of Machine/Mailbox keep (Laws/Keeps). -/

namespace Sys2Proof.Machine

theorem cmdInvalid_keeps {r : State} : ∀ c (s : State), Keeps r s → Keeps r (cmdInvalid c s).1 := by
  intro c s h0
  unfold cmdInvalid
  try dsimp only
  repeat' first
    | with_reducible assumption | with_reducible apply refuse_keeps | with_reducible exact EngKeeps.refl _ | (intro _)
    | split

theorem runCommand_keeps {r : State} : ∀ c (s : State), Keeps r s → Keeps r (runCommand c s).1 := by
  intro c s h0
  unfold runCommand
  try dsimp only
  repeat' first
    | with_reducible assumption | with_reducible apply cmdIdentify_keeps | with_reducible apply cmdGetLog_keeps
    | with_reducible apply cmdSetFeature_keeps | with_reducible apply cmdGetFeature_keeps
    | with_reducible apply cmdFwDownload_keeps | with_reducible apply cmdFwCommit_keeps
    | with_reducible apply cmdFwActivate_keeps | with_reducible apply cmdFwQuery_keeps
    | with_reducible apply cmdFormat_keeps | with_reducible apply cmdSanitise_keeps
    | with_reducible apply cmdSanitiseStatus_keeps | with_reducible apply cmdPartCreate_keeps
    | with_reducible apply cmdPartDelete_keeps | with_reducible apply cmdPartModify_keeps
    | with_reducible apply cmdPartQuery_keeps | with_reducible apply cmdPartReset_keeps
    | with_reducible apply cmdQosSet_keeps | with_reducible apply cmdQosQuery_keeps
    | with_reducible apply cmdRegTensor_keeps | with_reducible apply cmdRegClass_keeps
    | with_reducible apply cmdStepPolicy_keeps | with_reducible apply cmdReshape_keeps
    | with_reducible apply cmdStateQuery_keeps | with_reducible apply cmdTensorDrop_keeps
    | with_reducible apply cmdEpochCut_keeps | with_reducible apply cmdEpochCommit_keeps
    | with_reducible apply cmdEpochRelease_keeps | with_reducible apply cmdEpochQuery_keeps
    | with_reducible apply cmdRebase_keeps | with_reducible apply cmdRestoreOpen_keeps
    | with_reducible apply cmdRestoreMap_keeps | with_reducible apply cmdRestoreRun_keeps
    | with_reducible apply cmdReshard_keeps | with_reducible apply cmdRestoreQuery_keeps
    | with_reducible apply cmdRestoreClose_keeps | with_reducible apply cmdProgLoad_keeps
    | with_reducible apply cmdProgUnload_keeps | with_reducible apply cmdSpinLoad_keeps
    | with_reducible apply cmdSpinUnload_keeps | with_reducible apply cmdProgQuery_keeps
    | with_reducible apply cmdTideSet_keeps | with_reducible apply cmdTideQuery_keeps
    | with_reducible apply cmdKvConfig_keeps | with_reducible apply cmdKvQuery_keeps
    | with_reducible apply cmdSecQuery_keeps | with_reducible apply cmdProvision_keeps
    | with_reducible apply cmdSeal_keeps | with_reducible apply cmdRetire_keeps | with_reducible apply cmdKeyLoad_keeps
    | with_reducible apply cmdKeyGenerate_keeps | with_reducible apply cmdKeyZeroise_keeps
    | with_reducible apply cmdKeyBind_keeps | with_reducible apply cmdKeeperChallenge_keeps
    | with_reducible apply cmdKeeperRespond_keeps | with_reducible apply cmdKeeperClose_keeps
    | with_reducible apply cmdMemberQuery_keeps | with_reducible apply cmdMemberExclude_keeps
    | with_reducible apply cmdMemberAdmit_keeps | with_reducible apply cmdTimeQuery_keeps
    | with_reducible apply cmdTimeSet_keeps | with_reducible apply cmdLeaseQuery_keeps
    | with_reducible apply cmdLeaseClaim_keeps | with_reducible apply cmdLeaseRelease_keeps
    | with_reducible apply cmdInvalid_keeps | with_reducible exact EngKeeps.refl _ | (intro _)
    | with_reducible refine Keeps.ofSnd ?_ (by assumption) | with_reducible refine Keeps.ofFst ?_ (by assumption)
    | split | with_reducible refine EngKeeps.upd ?_ rfl rfl rfl | with_reducible refine Keeps.upd ?_ rfl rfl

theorem State.runJob_keeps {r : State} : ∀ (s : State) e k0 j, Keeps r s → Keeps r (State.runJob s e k0 j) := by
  intro s e k0 j h0
  unfold State.runJob
  try dsimp only
  repeat' first
    | with_reducible assumption | with_reducible apply runCommand_keeps | with_reducible apply State.trimLent_keeps
    | with_reducible apply State.modMailbox_keeps | with_reducible exact EngKeeps.refl _ | (intro _)
    | with_reducible refine Keeps.ofSnd ?_ (by assumption) | with_reducible refine Keeps.ofFst ?_ (by assumption)
    | split | with_reducible refine EngKeeps.upd ?_ rfl rfl rfl | with_reducible refine Keeps.upd ?_ rfl rfl

theorem State.startJobs_keeps {r : State} : ∀ (s : State) e a0, Keeps r s → Keeps r (State.startJobs s e a0) := by
  intro s e a0 h0
  unfold State.startJobs
  try dsimp only
  repeat' first
    | with_reducible assumption | with_reducible apply State.runJob_keeps | with_reducible apply State.startJobs_keeps
    | with_reducible exact EngKeeps.refl _ | (intro _) | with_reducible refine Keeps.ofSnd ?_ (by assumption)
    | with_reducible refine Keeps.ofFst ?_ (by assumption) | split | with_reducible refine EngKeeps.upd ?_ rfl rfl rfl
    | with_reducible refine Keeps.upd ?_ rfl rfl

theorem State.wakeJobs_keeps {r : State} : ∀ (s : State) p ws, Keeps r s → Keeps r (State.wakeJobs s p ws) := by
  intro s p ws h0
  unfold State.wakeJobs
  try dsimp only
  repeat' first
    | with_reducible assumption | with_reducible apply Keeps.modEngines | with_reducible apply State.startJobs_keeps
    | with_reducible apply Keeps.foldl | with_reducible apply Keeps.foldlSnd | with_reducible apply Keeps.foldlFst
    | with_reducible apply EngKeeps.foldl | with_reducible exact EngKeeps.refl _ | (intro _) | split
    | with_reducible refine EngKeeps.upd ?_ rfl rfl rfl | with_reducible refine Keeps.upd ?_ rfl rfl

theorem State.retryJobs_keeps {r : State} : ∀ (s : State) p, Keeps r s → Keeps r (State.retryJobs s p) := by
  intro s p h0
  unfold State.retryJobs
  try dsimp only
  repeat' first
    | with_reducible assumption | with_reducible apply State.wakeJobs_keeps | with_reducible exact EngKeeps.refl _
    | (intro _) | split

theorem State.acceptMailbox_keeps {r : State} : ∀ (s : State) m k0 p cmd, Keeps r s →
    Keeps r (State.acceptMailbox s m k0 p cmd) := by
  intro s m k0 p cmd h0
  unfold State.acceptMailbox
  try dsimp only
  repeat' first
    | with_reducible assumption | with_reducible apply Keeps.modEng | with_reducible apply State.modMailbox_keeps
    | with_reducible exact EngKeeps.refl _ | (intro _) | with_reducible refine EngKeeps.upd ?_ rfl rfl rfl
    | with_reducible refine Keeps.upd ?_ rfl rfl

theorem State.wakeFor_keeps {r : State} : ∀ (s : State) e op, Keeps r s → Keeps r (State.wakeFor s e op) := by
  intro s e op h0
  unfold State.wakeFor
  try dsimp only
  repeat' first
    | with_reducible assumption | with_reducible apply Engine.wake_keeps | with_reducible apply State.wake_keeps
    | with_reducible exact EngKeeps.refl _ | (intro _) | split

theorem State.directAction_keeps {r : State} : ∀ (s : State) m cmd, Keeps r s → Keeps r (State.directAction s m cmd) := by
  intro s m cmd h0
  unfold State.directAction
  try dsimp only
  repeat' first
    | with_reducible assumption | with_reducible apply runCommand_keeps | with_reducible apply Keeps.send
    | with_reducible exact EngKeeps.refl _ | (intro _) | with_reducible refine Keeps.ofSnd ?_ (by assumption)
    | with_reducible refine Keeps.ofFst ?_ (by assumption) | split | with_reducible refine EngKeeps.upd ?_ rfl rfl rfl
    | with_reducible refine Keeps.upd ?_ rfl rfl

theorem submitMailbox_keeps {r : State} : ∀ op m (s : State), Keeps r s → Keeps r (submitMailbox op m s) := by
  intro op m s h0
  unfold submitMailbox
  try dsimp only
  repeat' first
    | with_reducible assumption | with_reducible apply State.directAction_keeps
    | with_reducible apply State.modMailbox_keeps | with_reducible apply State.acceptMailbox_keeps
    | with_reducible apply State.wakeFor_keeps | with_reducible apply State.startJobs_keeps
    | with_reducible exact EngKeeps.refl _ | (intro _) | with_reducible refine Keeps.ofSnd ?_ (by assumption)
    | with_reducible refine Keeps.ofFst ?_ (by assumption) | split | with_reducible refine EngKeeps.upd ?_ rfl rfl rfl
    | with_reducible refine Keeps.upd ?_ rfl rfl

theorem State.atCompletion_keeps {r : State} : ∀ (s : State) e k0, Keeps r s → Keeps r (State.atCompletion s e k0) := by
  intro s e k0 h0
  unfold State.atCompletion
  try dsimp only
  repeat' first
    | with_reducible assumption | with_reducible apply State.modMailbox_keeps | with_reducible apply writeBuffer_keeps
    | with_reducible apply State.timeSet_keeps | with_reducible exact EngKeeps.refl _ | (intro _)
    | with_reducible refine Keeps.ofSnd ?_ (by assumption) | with_reducible refine Keeps.ofFst ?_ (by assumption)
    | split | with_reducible refine EngKeeps.upd ?_ rfl rfl rfl | with_reducible refine Keeps.upd ?_ rfl rfl

theorem execMailboxCompletion_keeps {r : State} : ∀ e k0 (s : State), Keeps r s →
    ∀ z, execMailboxCompletion e k0 s = .next z → Keeps r z := by
  intro e k0 s h0 u hu
  unfold execMailboxCompletion at hu
  repeat' first | (injection hu with hu; subst hu) | split at hu
  all_goals try dsimp only
  repeat' first
    | with_reducible assumption | with_reducible apply State.atCompletion_keeps
    | with_reducible apply State.completeMailbox_keeps | with_reducible apply State.retryJobs_keeps
    | with_reducible apply State.startJobs_keeps | with_reducible exact EngKeeps.refl _ | (intro _)
    | with_reducible refine Keeps.ofSnd ?_ (by assumption) | with_reducible refine Keeps.ofFst ?_ (by assumption)
    | split | with_reducible refine EngKeeps.upd ?_ rfl rfl rfl | with_reducible refine Keeps.upd ?_ rfl rfl

theorem execFirmwareHang_keeps {r : State} : ∀ e k0 (s : State), Keeps r s → ∀ z, execFirmwareHang e k0 s = .next z →
    Keeps r z := by
  intro e k0 s h0 u hu
  unfold execFirmwareHang at hu
  repeat' first | (injection hu with hu; subst hu) | split at hu
  all_goals try dsimp only
  repeat' first
    | with_reducible assumption | with_reducible apply State.modMailbox_keeps | with_reducible apply Keeps.modEng
    | with_reducible apply State.mgmtFault_keeps | with_reducible exact EngKeeps.refl _ | (intro _) | split
    | with_reducible refine EngKeeps.upd ?_ rfl rfl rfl | with_reducible refine Keeps.upd ?_ rfl rfl

theorem execIdentify_keeps {r : State} : ∀ m (s : State), Keeps r s → ∀ z, execIdentify m s = .next z → Keeps r z := by
  intro m s h0 z hz
  cases hz
  exact submitMailbox_keeps _ _ _ h0

theorem execGetLog_keeps {r : State} : ∀ m (s : State), Keeps r s → ∀ z, execGetLog m s = .next z → Keeps r z := by
  intro m s h0 z hz
  cases hz
  exact submitMailbox_keeps _ _ _ h0

theorem execSetFeature_keeps {r : State} : ∀ m (s : State), Keeps r s → ∀ z, execSetFeature m s = .next z → Keeps r z := by
  intro m s h0 z hz
  cases hz
  exact submitMailbox_keeps _ _ _ h0

theorem execGetFeature_keeps {r : State} : ∀ m (s : State), Keeps r s → ∀ z, execGetFeature m s = .next z → Keeps r z := by
  intro m s h0 z hz
  cases hz
  exact submitMailbox_keeps _ _ _ h0

theorem execFwDownload_keeps {r : State} : ∀ m (s : State), Keeps r s → ∀ z, execFwDownload m s = .next z → Keeps r z := by
  intro m s h0 z hz
  cases hz
  exact submitMailbox_keeps _ _ _ h0

theorem execFwCommit_keeps {r : State} : ∀ m (s : State), Keeps r s → ∀ z, execFwCommit m s = .next z → Keeps r z := by
  intro m s h0 z hz
  cases hz
  exact submitMailbox_keeps _ _ _ h0

theorem execFwActivate_keeps {r : State} : ∀ m (s : State), Keeps r s → ∀ z, execFwActivate m s = .next z → Keeps r z := by
  intro m s h0 z hz
  cases hz
  exact submitMailbox_keeps _ _ _ h0

theorem execFwQuery_keeps {r : State} : ∀ m (s : State), Keeps r s → ∀ z, execFwQuery m s = .next z → Keeps r z := by
  intro m s h0 z hz
  cases hz
  exact submitMailbox_keeps _ _ _ h0

theorem execFormat_keeps {r : State} : ∀ m (s : State), Keeps r s → ∀ z, execFormat m s = .next z → Keeps r z := by
  intro m s h0 z hz
  cases hz
  exact submitMailbox_keeps _ _ _ h0

theorem execSanitise_keeps {r : State} : ∀ m (s : State), Keeps r s → ∀ z, execSanitise m s = .next z → Keeps r z := by
  intro m s h0 z hz
  cases hz
  exact submitMailbox_keeps _ _ _ h0

theorem execSanitiseStatus_keeps {r : State} : ∀ m (s : State), Keeps r s → ∀ z, execSanitiseStatus m s = .next z →
    Keeps r z := by
  intro m s h0 z hz
  cases hz
  exact submitMailbox_keeps _ _ _ h0

theorem execPartCreate_keeps {r : State} : ∀ m (s : State), Keeps r s → ∀ z, execPartCreate m s = .next z → Keeps r z := by
  intro m s h0 z hz
  cases hz
  exact submitMailbox_keeps _ _ _ h0

theorem execPartDelete_keeps {r : State} : ∀ m (s : State), Keeps r s → ∀ z, execPartDelete m s = .next z → Keeps r z := by
  intro m s h0 z hz
  cases hz
  exact submitMailbox_keeps _ _ _ h0

theorem execPartModify_keeps {r : State} : ∀ m (s : State), Keeps r s → ∀ z, execPartModify m s = .next z → Keeps r z := by
  intro m s h0 z hz
  cases hz
  exact submitMailbox_keeps _ _ _ h0

theorem execPartQuery_keeps {r : State} : ∀ m (s : State), Keeps r s → ∀ z, execPartQuery m s = .next z → Keeps r z := by
  intro m s h0 z hz
  cases hz
  exact submitMailbox_keeps _ _ _ h0

theorem execPartReset_keeps {r : State} : ∀ m (s : State), Keeps r s → ∀ z, execPartReset m s = .next z → Keeps r z := by
  intro m s h0 z hz
  cases hz
  exact submitMailbox_keeps _ _ _ h0

theorem execQosSet_keeps {r : State} : ∀ m (s : State), Keeps r s → ∀ z, execQosSet m s = .next z → Keeps r z := by
  intro m s h0 z hz
  cases hz
  exact submitMailbox_keeps _ _ _ h0

theorem execQosQuery_keeps {r : State} : ∀ m (s : State), Keeps r s → ∀ z, execQosQuery m s = .next z → Keeps r z := by
  intro m s h0 z hz
  cases hz
  exact submitMailbox_keeps _ _ _ h0

theorem execRegTensor_keeps {r : State} : ∀ m (s : State), Keeps r s → ∀ z, execRegTensor m s = .next z → Keeps r z := by
  intro m s h0 z hz
  cases hz
  exact submitMailbox_keeps _ _ _ h0

theorem execRegClass_keeps {r : State} : ∀ m (s : State), Keeps r s → ∀ z, execRegClass m s = .next z → Keeps r z := by
  intro m s h0 z hz
  cases hz
  exact submitMailbox_keeps _ _ _ h0

theorem execStepPolicy_keeps {r : State} : ∀ m (s : State), Keeps r s → ∀ z, execStepPolicy m s = .next z → Keeps r z := by
  intro m s h0 z hz
  cases hz
  exact submitMailbox_keeps _ _ _ h0

theorem execReshape_keeps {r : State} : ∀ m (s : State), Keeps r s → ∀ z, execReshape m s = .next z → Keeps r z := by
  intro m s h0 z hz
  cases hz
  exact submitMailbox_keeps _ _ _ h0

theorem execStateQuery_keeps {r : State} : ∀ m (s : State), Keeps r s → ∀ z, execStateQuery m s = .next z → Keeps r z := by
  intro m s h0 z hz
  cases hz
  exact submitMailbox_keeps _ _ _ h0

theorem execTensorDrop_keeps {r : State} : ∀ m (s : State), Keeps r s → ∀ z, execTensorDrop m s = .next z → Keeps r z := by
  intro m s h0 z hz
  cases hz
  exact submitMailbox_keeps _ _ _ h0

theorem execEpochCut_keeps {r : State} : ∀ m (s : State), Keeps r s → ∀ z, execEpochCut m s = .next z → Keeps r z := by
  intro m s h0 z hz
  cases hz
  exact submitMailbox_keeps _ _ _ h0

theorem execEpochCommit_keeps {r : State} : ∀ m (s : State), Keeps r s → ∀ z, execEpochCommit m s = .next z → Keeps r z := by
  intro m s h0 z hz
  cases hz
  exact submitMailbox_keeps _ _ _ h0

theorem execEpochRelease_keeps {r : State} : ∀ m (s : State), Keeps r s → ∀ z, execEpochRelease m s = .next z → Keeps r z := by
  intro m s h0 z hz
  cases hz
  exact submitMailbox_keeps _ _ _ h0

theorem execEpochQuery_keeps {r : State} : ∀ m (s : State), Keeps r s → ∀ z, execEpochQuery m s = .next z → Keeps r z := by
  intro m s h0 z hz
  cases hz
  exact submitMailbox_keeps _ _ _ h0

theorem execRebase_keeps {r : State} : ∀ m (s : State), Keeps r s → ∀ z, execRebase m s = .next z → Keeps r z := by
  intro m s h0 z hz
  cases hz
  exact submitMailbox_keeps _ _ _ h0

theorem execRestoreOpen_keeps {r : State} : ∀ m (s : State), Keeps r s → ∀ z, execRestoreOpen m s = .next z → Keeps r z := by
  intro m s h0 z hz
  cases hz
  exact submitMailbox_keeps _ _ _ h0

theorem execRestoreMap_keeps {r : State} : ∀ m (s : State), Keeps r s → ∀ z, execRestoreMap m s = .next z → Keeps r z := by
  intro m s h0 z hz
  cases hz
  exact submitMailbox_keeps _ _ _ h0

theorem execRestoreRun_keeps {r : State} : ∀ m (s : State), Keeps r s → ∀ z, execRestoreRun m s = .next z → Keeps r z := by
  intro m s h0 z hz
  cases hz
  exact submitMailbox_keeps _ _ _ h0

theorem execReshard_keeps {r : State} : ∀ m (s : State), Keeps r s → ∀ z, execReshard m s = .next z → Keeps r z := by
  intro m s h0 z hz
  cases hz
  exact submitMailbox_keeps _ _ _ h0

theorem execRestoreQuery_keeps {r : State} : ∀ m (s : State), Keeps r s → ∀ z, execRestoreQuery m s = .next z → Keeps r z := by
  intro m s h0 z hz
  cases hz
  exact submitMailbox_keeps _ _ _ h0

theorem execRestoreClose_keeps {r : State} : ∀ m (s : State), Keeps r s → ∀ z, execRestoreClose m s = .next z → Keeps r z := by
  intro m s h0 z hz
  cases hz
  exact submitMailbox_keeps _ _ _ h0

theorem execProgLoad_keeps {r : State} : ∀ m (s : State), Keeps r s → ∀ z, execProgLoad m s = .next z → Keeps r z := by
  intro m s h0 z hz
  cases hz
  exact submitMailbox_keeps _ _ _ h0

theorem execProgUnload_keeps {r : State} : ∀ m (s : State), Keeps r s → ∀ z, execProgUnload m s = .next z → Keeps r z := by
  intro m s h0 z hz
  cases hz
  exact submitMailbox_keeps _ _ _ h0

theorem execSpinLoad_keeps {r : State} : ∀ m (s : State), Keeps r s → ∀ z, execSpinLoad m s = .next z → Keeps r z := by
  intro m s h0 z hz
  cases hz
  exact submitMailbox_keeps _ _ _ h0

theorem execSpinUnload_keeps {r : State} : ∀ m (s : State), Keeps r s → ∀ z, execSpinUnload m s = .next z → Keeps r z := by
  intro m s h0 z hz
  cases hz
  exact submitMailbox_keeps _ _ _ h0

theorem execProgQuery_keeps {r : State} : ∀ m (s : State), Keeps r s → ∀ z, execProgQuery m s = .next z → Keeps r z := by
  intro m s h0 z hz
  cases hz
  exact submitMailbox_keeps _ _ _ h0

theorem execTideSet_keeps {r : State} : ∀ m (s : State), Keeps r s → ∀ z, execTideSet m s = .next z → Keeps r z := by
  intro m s h0 z hz
  cases hz
  exact submitMailbox_keeps _ _ _ h0

theorem execTideQuery_keeps {r : State} : ∀ m (s : State), Keeps r s → ∀ z, execTideQuery m s = .next z → Keeps r z := by
  intro m s h0 z hz
  cases hz
  exact submitMailbox_keeps _ _ _ h0

theorem execKvConfig_keeps {r : State} : ∀ m (s : State), Keeps r s → ∀ z, execKvConfig m s = .next z → Keeps r z := by
  intro m s h0 z hz
  cases hz
  exact submitMailbox_keeps _ _ _ h0

theorem execKvQuery_keeps {r : State} : ∀ m (s : State), Keeps r s → ∀ z, execKvQuery m s = .next z → Keeps r z := by
  intro m s h0 z hz
  cases hz
  exact submitMailbox_keeps _ _ _ h0

theorem execSecQuery_keeps {r : State} : ∀ m (s : State), Keeps r s → ∀ z, execSecQuery m s = .next z → Keeps r z := by
  intro m s h0 z hz
  cases hz
  exact submitMailbox_keeps _ _ _ h0

theorem execProvision_keeps {r : State} : ∀ m (s : State), Keeps r s → ∀ z, execProvision m s = .next z → Keeps r z := by
  intro m s h0 z hz
  cases hz
  exact submitMailbox_keeps _ _ _ h0

theorem execSeal_keeps {r : State} : ∀ m (s : State), Keeps r s → ∀ z, execSeal m s = .next z → Keeps r z := by
  intro m s h0 z hz
  cases hz
  exact submitMailbox_keeps _ _ _ h0

theorem execRetire_keeps {r : State} : ∀ m (s : State), Keeps r s → ∀ z, execRetire m s = .next z → Keeps r z := by
  intro m s h0 z hz
  cases hz
  exact submitMailbox_keeps _ _ _ h0

theorem execKeyLoad_keeps {r : State} : ∀ m (s : State), Keeps r s → ∀ z, execKeyLoad m s = .next z → Keeps r z := by
  intro m s h0 z hz
  cases hz
  exact submitMailbox_keeps _ _ _ h0

theorem execKeyGenerate_keeps {r : State} : ∀ m (s : State), Keeps r s → ∀ z, execKeyGenerate m s = .next z → Keeps r z := by
  intro m s h0 z hz
  cases hz
  exact submitMailbox_keeps _ _ _ h0

theorem execKeyZeroise_keeps {r : State} : ∀ m (s : State), Keeps r s → ∀ z, execKeyZeroise m s = .next z → Keeps r z := by
  intro m s h0 z hz
  cases hz
  exact submitMailbox_keeps _ _ _ h0

theorem execKeyBind_keeps {r : State} : ∀ m (s : State), Keeps r s → ∀ z, execKeyBind m s = .next z → Keeps r z := by
  intro m s h0 z hz
  cases hz
  exact submitMailbox_keeps _ _ _ h0

theorem execKeeperChallenge_keeps {r : State} : ∀ m (s : State), Keeps r s → ∀ z, execKeeperChallenge m s = .next z →
    Keeps r z := by
  intro m s h0 z hz
  cases hz
  exact submitMailbox_keeps _ _ _ h0

theorem execKeeperRespond_keeps {r : State} : ∀ m (s : State), Keeps r s → ∀ z, execKeeperRespond m s = .next z → Keeps r z := by
  intro m s h0 z hz
  cases hz
  exact submitMailbox_keeps _ _ _ h0

theorem execKeeperClose_keeps {r : State} : ∀ m (s : State), Keeps r s → ∀ z, execKeeperClose m s = .next z → Keeps r z := by
  intro m s h0 z hz
  cases hz
  exact submitMailbox_keeps _ _ _ h0

theorem execMemberQuery_keeps {r : State} : ∀ m (s : State), Keeps r s → ∀ z, execMemberQuery m s = .next z → Keeps r z := by
  intro m s h0 z hz
  cases hz
  exact submitMailbox_keeps _ _ _ h0

theorem execMemberExclude_keeps {r : State} : ∀ m (s : State), Keeps r s → ∀ z, execMemberExclude m s = .next z → Keeps r z := by
  intro m s h0 z hz
  cases hz
  exact submitMailbox_keeps _ _ _ h0

theorem execMemberAdmit_keeps {r : State} : ∀ m (s : State), Keeps r s → ∀ z, execMemberAdmit m s = .next z → Keeps r z := by
  intro m s h0 z hz
  cases hz
  exact submitMailbox_keeps _ _ _ h0

theorem execTimeQuery_keeps {r : State} : ∀ m (s : State), Keeps r s → ∀ z, execTimeQuery m s = .next z → Keeps r z := by
  intro m s h0 z hz
  cases hz
  exact submitMailbox_keeps _ _ _ h0

theorem execTimeSet_keeps {r : State} : ∀ m (s : State), Keeps r s → ∀ z, execTimeSet m s = .next z → Keeps r z := by
  intro m s h0 z hz
  cases hz
  exact submitMailbox_keeps _ _ _ h0

theorem execLeaseQuery_keeps {r : State} : ∀ m (s : State), Keeps r s → ∀ z, execLeaseQuery m s = .next z → Keeps r z := by
  intro m s h0 z hz
  cases hz
  exact submitMailbox_keeps _ _ _ h0

theorem execLeaseClaim_keeps {r : State} : ∀ m (s : State), Keeps r s → ∀ z, execLeaseClaim m s = .next z → Keeps r z := by
  intro m s h0 z hz
  cases hz
  exact submitMailbox_keeps _ _ _ h0

theorem execLeaseRelease_keeps {r : State} : ∀ m (s : State), Keeps r s → ∀ z, execLeaseRelease m s = .next z → Keeps r z := by
  intro m s h0 z hz
  cases hz
  exact submitMailbox_keeps _ _ _ h0

theorem execReservedOpcode_keeps {r : State} : ∀ op m (s : State), Keeps r s →
    ∀ z, execReservedOpcode op m s = .next z → Keeps r z := by
  intro op m s h0 u hu
  unfold execReservedOpcode at hu
  repeat' first | (injection hu with hu; subst hu) | split at hu
  all_goals try dsimp only
  repeat' first
    | with_reducible assumption | with_reducible apply submitMailbox_keeps | with_reducible exact EngKeeps.refl _
    | (intro _)

end Sys2Proof.Machine
end

