-- ==== Sys2Proof/Laws/KeepsConfigApply.lean ====
section
/-! SUPPORT. What the operations of Machine/ConfigApply keep (Laws/Keeps). -/

namespace Sys2Proof.Machine

theorem State.answerAdoption_keeps {r : State} : ∀ (s : State) a body, Keeps r s →
    Keeps r (State.answerAdoption s a body) := by
  intro s a body h0
  unfold State.answerAdoption
  try dsimp only
  repeat' first
    | with_reducible assumption | with_reducible apply State.answerConfig_keeps | with_reducible exact EngKeeps.refl _
    | (intro _) | with_reducible refine Keeps.ofSnd ?_ (by assumption)
    | with_reducible refine Keeps.ofFst ?_ (by assumption) | split | with_reducible refine EngKeeps.upd ?_ rfl rfl rfl
    | with_reducible refine Keeps.upd ?_ rfl rfl

theorem State.deferAdoption_keeps {r : State} : ∀ (s : State) a w0, Keeps r s → Keeps r (State.deferAdoption s a w0) := by
  intro s a w0 h0
  unfold State.deferAdoption
  try dsimp only
  repeat' first
    | with_reducible assumption | with_reducible apply State.modMailbox_keeps | with_reducible exact EngKeeps.refl _
    | (intro _) | with_reducible refine Keeps.ofSnd ?_ (by assumption)
    | with_reducible refine Keeps.ofFst ?_ (by assumption) | split | with_reducible refine EngKeeps.upd ?_ rfl rfl rfl
    | with_reducible refine Keeps.upd ?_ rfl rfl

theorem State.createPartition_keeps {r : State} : ∀ (s : State) p, Keeps r s → Keeps r (State.createPartition s p) := by
  intro s p h0
  unfold State.createPartition
  try dsimp only
  repeat' first
    | with_reducible assumption | with_reducible apply Keeps.modEngines | with_reducible apply Engine.dropWindow_keeps
    | with_reducible apply Keeps.setPart | with_reducible exact EngKeeps.refl _ | (intro _)

theorem State.cutStreams_keeps {r : State} : ∀ (s : State) p, Keeps r s → Keeps r (State.cutStreams s p) := by
  intro s p h0
  unfold State.cutStreams
  try dsimp only
  repeat' first
    | with_reducible assumption | with_reducible apply Keeps.modEngines | with_reducible apply EngKeeps.setWin
    | with_reducible exact EngKeeps.refl _ | (intro _) | with_reducible refine EngKeeps.upd ?_ rfl rfl rfl
    | with_reducible refine Keeps.upd ?_ rfl rfl

theorem State.useQos_keeps {r : State} : ∀ (s : State) p, Keeps r s → Keeps r (State.useQos s p) := by
  intro s p h0
  unfold State.useQos
  try dsimp only
  repeat' first
    | with_reducible assumption | with_reducible apply Keeps.modEngines | with_reducible apply EngKeeps.setWin
    | with_reducible exact EngKeeps.refl _ | (intro _) | with_reducible refine Keeps.ofSnd ?_ (by assumption)
    | with_reducible refine Keeps.ofFst ?_ (by assumption) | split | with_reducible refine EngKeeps.upd ?_ rfl rfl rfl
    | with_reducible refine Keeps.upd ?_ rfl rfl

theorem State.askReshard_keeps {r : State} : ∀ (s : State) p m src, Keeps r s → Keeps r (State.askReshard s p m src) := by
  intro s p m src h0
  unfold State.askReshard
  try dsimp only
  repeat' first
    | with_reducible assumption | with_reducible apply Keeps.modPart | with_reducible exact EngKeeps.refl _ | (intro _)
    | with_reducible refine EngKeeps.upd ?_ rfl rfl rfl | with_reducible refine Keeps.upd ?_ rfl rfl

theorem State.refitPrograms_keeps {r : State} : ∀ (s : State), Keeps r s → Keeps r (State.refitPrograms s) := by
  intro s h0
  unfold State.refitPrograms
  try dsimp only
  repeat' first
    | with_reducible assumption | with_reducible apply Keeps.modPart | with_reducible apply Keeps.foldl
    | with_reducible apply Keeps.foldlSnd | with_reducible apply Keeps.foldlFst | with_reducible apply EngKeeps.foldl
    | with_reducible exact EngKeeps.refl _ | (intro _) | with_reducible refine EngKeeps.upd ?_ rfl rfl rfl
    | with_reducible refine Keeps.upd ?_ rfl rfl

theorem State.reencode_keeps {r : State} : ∀ (s : State) a, Keeps r s → Keeps r (State.reencode s a) := by
  intro s a h0
  unfold State.reencode
  try dsimp only
  repeat' first
    | with_reducible assumption | with_reducible apply State.answerAdoption_keeps
    | with_reducible apply State.askReshard_keeps | with_reducible apply State.deferAdoption_keeps
    | with_reducible apply State.kickReshards_keeps | with_reducible apply Keeps.foldl
    | with_reducible apply Keeps.foldlSnd | with_reducible apply Keeps.foldlFst | with_reducible apply EngKeeps.foldl
    | with_reducible exact EngKeeps.refl _ | (intro _) | split

theorem State.useFeature_keeps {r : State} : ∀ (s : State) a, Keeps r s → Keeps r (State.useFeature s a) := by
  intro s a h0
  unfold State.useFeature
  try dsimp only
  repeat' first
    | with_reducible assumption | with_reducible apply State.applyFeature_keeps
    | with_reducible apply State.leaveStore_keeps | with_reducible apply State.useTargets_keeps
    | with_reducible apply State.reconnect_keeps | with_reducible apply State.attachAll_keeps
    | with_reducible apply State.answerAdoption_keeps | with_reducible apply State.refitPrograms_keeps
    | with_reducible apply State.reencode_keeps | with_reducible exact EngKeeps.refl _ | (intro _)
    | with_reducible refine Keeps.ofSnd ?_ (by assumption) | with_reducible refine Keeps.ofFst ?_ (by assumption)
    | split | with_reducible refine EngKeeps.upd ?_ rfl rfl rfl | with_reducible refine Keeps.upd ?_ rfl rfl

theorem State.releaseLease_keeps {r : State} : ∀ (s : State), Keeps r s → Keeps r (State.releaseLease s) := by
  intro s h0
  unfold State.releaseLease
  exact State.memberEvent_keeps _ _ _ _ ((State.writeLease_keeps _ _ (h0.setLease _)).setLease _)

theorem State.applyConfig_keeps {r : State} : ∀ (s : State) a old, Keeps r s → Keeps r (State.applyConfig s a old) := by
  intro s a old h0
  unfold State.applyConfig
  try dsimp only
  repeat' first
    | with_reducible assumption | with_reducible apply State.membersAdopted_keeps
    | with_reducible apply State.useFeature_keeps | with_reducible apply State.createPartition_keeps
    | with_reducible apply State.answerAdoption_keeps | with_reducible apply Keeps.setPart
    | with_reducible apply State.deferAdoption_keeps | with_reducible apply State.startReset_keeps
    | with_reducible apply State.cutStreams_keeps | with_reducible apply State.useQos_keeps
    | with_reducible apply State.askReshard_keeps | with_reducible apply State.kickReshards_keeps
    | with_reducible apply State.leave_keeps | with_reducible apply Keeps.modEng
    | with_reducible apply State.memberEvent_keeps | with_reducible apply State.releaseLease_keeps
    | with_reducible exact EngKeeps.refl _ | (intro _) | with_reducible refine Keeps.ofSnd ?_ (by assumption)
    | with_reducible refine Keeps.ofFst ?_ (by assumption) | split | with_reducible refine EngKeeps.upd ?_ rfl rfl rfl
    | with_reducible refine Keeps.upd ?_ rfl rfl

theorem State.finishAdoption_keeps {r : State} : ∀ (s : State) a, Keeps r s → Keeps r (State.finishAdoption s a) := by
  intro s a h0
  unfold State.finishAdoption
  try dsimp only
  repeat' first
    | with_reducible assumption | with_reducible apply Keeps.modEngines | with_reducible apply State.memberEvent_keeps
    | with_reducible apply State.applyConfig_keeps | with_reducible exact EngKeeps.refl _ | (intro _)
    | with_reducible refine EngKeeps.upd ?_ rfl rfl rfl | with_reducible refine Keeps.upd ?_ rfl rfl

theorem execConfigPrepare_keeps {r : State} : ∀ answers (s : State), Keeps r s →
    ∀ z, execConfigPrepare answers s = .next z → Keeps r z := by
  intro answers s h0 u hu
  unfold execConfigPrepare at hu
  repeat' first | (injection hu with hu; subst hu) | split at hu
  all_goals try dsimp only
  repeat' first
    | with_reducible assumption | with_reducible exact EngKeeps.refl _ | (intro _)
    | with_reducible refine Keeps.ofSnd ?_ (by assumption) | with_reducible refine Keeps.ofFst ?_ (by assumption)
    | split | with_reducible refine EngKeeps.upd ?_ rfl rfl rfl | with_reducible refine Keeps.upd ?_ rfl rfl

theorem execConfigCommit_keeps {r : State} : ∀ answers (s : State), Keeps r s →
    ∀ z, execConfigCommit answers s = .next z → Keeps r z := by
  intro answers s h0 u hu
  unfold execConfigCommit at hu
  repeat' first | (injection hu with hu; subst hu) | split at hu
  all_goals try dsimp only
  repeat' first
    | with_reducible assumption | with_reducible apply State.finishAdoption_keeps
    | with_reducible exact EngKeeps.refl _ | (intro _) | with_reducible refine Keeps.ofSnd ?_ (by assumption)
    | with_reducible refine Keeps.ofFst ?_ (by assumption) | split | with_reducible refine EngKeeps.upd ?_ rfl rfl rfl
    | with_reducible refine Keeps.upd ?_ rfl rfl

end Sys2Proof.Machine
end

