-- ==== Sys2Proof/Laws/KeepsStreamOps.lean ====
section
/-! SUPPORT. What the operations of Machine/StreamOps keep (Laws/Keeps). -/

namespace Sys2Proof.Machine

theorem State.modSlot_keeps {r : State} : ∀ (s : State) a i f, Keeps r s → Keeps r (State.modSlot s a i f) := by
  intro s a i f h0
  unfold State.modSlot
  try dsimp only
  repeat' first
    | with_reducible assumption | with_reducible apply Keeps.modStream | with_reducible exact EngKeeps.refl _
    | (intro _) | split | with_reducible refine EngKeeps.upd ?_ rfl rfl rfl
    | with_reducible refine Keeps.upd ?_ rfl rfl

theorem State.waitSlot_keeps {r : State} : ∀ (s : State) a i w0, Keeps r s → Keeps r (State.waitSlot s a i w0) := by
  intro s a i w0 h0
  unfold State.waitSlot
  try dsimp only
  repeat' first
    | with_reducible assumption | with_reducible apply State.modSlot_keeps | with_reducible exact EngKeeps.refl _
    | (intro _) | with_reducible refine EngKeeps.upd ?_ rfl rfl rfl | with_reducible refine Keeps.upd ?_ rfl rfl

theorem State.haltStream_keeps {r : State} : ∀ (s : State) a, Keeps r s → Keeps r (State.haltStream s a) := by
  intro s a h0
  unfold State.haltStream
  try dsimp only
  repeat' first
    | with_reducible assumption | with_reducible apply Keeps.modEng | with_reducible apply Engine.returnTokens_keeps
    | with_reducible apply Keeps.modStream | with_reducible exact EngKeeps.refl _ | (intro _)

theorem Engine.dropBlock_keeps {w : Engine} : ∀ (x : Engine) b, EngKeeps w x → EngKeeps w (Engine.dropBlock x b) := by
  intro x b h0
  unfold Engine.dropBlock
  try dsimp only
  repeat' first
    | with_reducible assumption | with_reducible exact EngKeeps.refl _ | (intro _) | split
    | with_reducible refine EngKeeps.upd ?_ rfl rfl rfl

theorem State.finishSlot_keeps {r : State} : ∀ (s : State) a i sc off, Keeps r s →
    Keeps r (State.finishSlot s a i sc off) := by
  intro s a i sc off h0
  unfold State.finishSlot
  try dsimp only
  repeat' first
    | with_reducible assumption | with_reducible apply State.modSlot_keeps | with_reducible apply Keeps.modEng
    | with_reducible apply Engine.returnTokens_keeps | with_reducible apply Engine.dropBlock_keeps
    | with_reducible apply State.haltStream_keeps | with_reducible exact EngKeeps.refl _ | (intro _)
    | with_reducible refine Keeps.ofSnd ?_ (by assumption) | with_reducible refine Keeps.ofFst ?_ (by assumption)
    | split | with_reducible refine EngKeeps.upd ?_ rfl rfl rfl | with_reducible refine Keeps.upd ?_ rfl rfl

theorem State.goStream_keeps {r : State} : ∀ (s : State) a path, Keeps r s → Keeps r (State.goStream s a path) := by
  intro s a path h0
  unfold State.goStream
  try dsimp only
  repeat' first
    | with_reducible assumption | with_reducible apply Keeps.modStream | with_reducible apply Keeps.modEng
    | with_reducible apply State.finishSlot_keeps | with_reducible apply Engine.wake_keeps
    | with_reducible apply State.wake_keeps | with_reducible exact EngKeeps.refl _ | (intro _) | split
    | with_reducible refine EngKeeps.upd ?_ rfl rfl rfl | with_reducible refine Keeps.upd ?_ rfl rfl

theorem State.controlStream_keeps {r : State} : ∀ (s : State) a w0, Keeps r s → Keeps r (State.controlStream s a w0) := by
  intro s a w0 h0
  unfold State.controlStream
  try dsimp only
  repeat' first
    | with_reducible assumption | with_reducible apply Keeps.modStream | with_reducible apply State.haltStream_keeps
    | with_reducible exact EngKeeps.refl _ | (intro _) | split | with_reducible refine EngKeeps.upd ?_ rfl rfl rfl
    | with_reducible refine Keeps.upd ?_ rfl rfl

theorem State.modPool_keeps {r : State} : ∀ (s : State) e p i f, Keeps r s → Keeps r (State.modPool s e p i f) := by
  intro s e p i f h0
  unfold State.modPool
  try dsimp only
  repeat' first
    | with_reducible assumption | with_reducible apply Keeps.modWin | with_reducible exact EngKeeps.refl _ | (intro _)
    | with_reducible refine EngKeeps.upd ?_ rfl rfl rfl | with_reducible refine Keeps.upd ?_ rfl rfl

theorem State.takeTokens_keeps {r : State} : ∀ (s : State) a i pool need, Keeps r s →
    Keeps r (State.takeTokens s a i pool need) := by
  intro s a i pool need h0
  unfold State.takeTokens
  try dsimp only
  repeat' first
    | with_reducible assumption | with_reducible apply State.modPool_keeps | with_reducible apply State.modSlot_keeps
    | with_reducible exact EngKeeps.refl _ | (intro _) | with_reducible refine Keeps.ofSnd ?_ (by assumption)
    | with_reducible refine Keeps.ofFst ?_ (by assumption) | split | with_reducible refine EngKeeps.upd ?_ rfl rfl rfl
    | with_reducible refine Keeps.upd ?_ rfl rfl

theorem State.takeAllTokens_keeps {r : State} : ∀ (s : State) a i q, Keeps r s → Keeps r (State.takeAllTokens s a i q) := by
  intro s a i q h0
  unfold State.takeAllTokens
  try dsimp only
  repeat' first
    | with_reducible assumption | with_reducible apply State.takeTokens_keeps | with_reducible apply Keeps.foldl
    | with_reducible apply Keeps.foldlSnd | with_reducible apply Keeps.foldlFst | with_reducible apply EngKeeps.foldl
    | with_reducible exact EngKeeps.refl _ | (intro _) | split

theorem State.payStore_keeps {r : State} : ∀ (s : State) e p need, Keeps r s → Keeps r (State.payStore s e p need).2 := by
  intro s e p need h0
  unfold State.payStore
  try dsimp only
  repeat' first
    | with_reducible assumption | with_reducible apply State.modPool_keeps | with_reducible exact EngKeeps.refl _
    | (intro _) | with_reducible refine EngKeeps.upd ?_ rfl rfl rfl | with_reducible refine Keeps.upd ?_ rfl rfl

theorem State.pruneLanes_keeps {r : State} : ∀ (s : State) e, Keeps r s → Keeps r (State.pruneLanes s e) := by
  intro s e h0
  unfold State.pruneLanes
  try dsimp only
  repeat' first
    | with_reducible assumption | with_reducible apply Keeps.modEng | with_reducible exact EngKeeps.refl _ | (intro _)
    | split | with_reducible refine EngKeeps.upd ?_ rfl rfl rfl | with_reducible refine Keeps.upd ?_ rfl rfl

theorem State.fillLane_keeps {r : State} : ∀ (s : State) e, Keeps r s → Keeps r (State.fillLane s e) := by
  intro s e h0
  unfold State.fillLane
  try dsimp only
  repeat' first
    | with_reducible assumption | with_reducible apply Keeps.pick | with_reducible apply Keeps.modEng
    | with_reducible exact EngKeeps.refl _ | (intro _) | with_reducible refine Keeps.ofSnd ?_ (by assumption)
    | with_reducible refine Keeps.ofFst ?_ (by assumption) | split | with_reducible refine EngKeeps.upd ?_ rfl rfl rfl
    | with_reducible refine Keeps.upd ?_ rfl rfl

theorem State.codecLane_keeps {r : State} : ∀ (s : State) e b, Keeps r s → Keeps r (State.codecLane s e b).1 := by
  intro s e b h0
  unfold State.codecLane
  try dsimp only
  repeat' first
    | with_reducible assumption | with_reducible apply State.pruneLanes_keeps | with_reducible apply Keeps.modEng
    | with_reducible apply State.fillLane_keeps | with_reducible apply Keeps.foldl
    | with_reducible apply Keeps.foldlSnd | with_reducible apply Keeps.foldlFst | with_reducible apply EngKeeps.foldl
    | with_reducible exact EngKeeps.refl _ | (intro _) | split | with_reducible refine EngKeeps.upd ?_ rfl rfl rfl
    | with_reducible refine Keeps.upd ?_ rfl rfl

end Sys2Proof.Machine
end

