-- ==== Sys2Proof/Laws/KeepsStreamCmds.lean ====
section
/-! SUPPORT. What the operations of Machine/StreamCmds keep (Laws/Keeps). -/

namespace Sys2Proof.Machine

theorem stopped_keeps {r : State} : ∀ (s : State) sc, Keeps r s → Keeps r (stopped s sc).1 := by
  intro s sc h0
  unfold stopped
  try dsimp only
  repeat' first
    | with_reducible assumption | with_reducible exact EngKeeps.refl _ | (intro _)

theorem Run.metPoison_keeps {r : State} : ∀ r0 (s : State), Keeps r s → Keeps r (Run.metPoison r0 s) := by
  intro r0 s h0
  unfold Run.metPoison
  try dsimp only
  repeat' first
    | with_reducible assumption | with_reducible apply State.pfltEvent_keeps | with_reducible exact EngKeeps.refl _
    | (intro _)

theorem Run.deliverRead_keeps {r : State} : ∀ r0 (s : State) data stop, Keeps r s →
    Keeps r (Run.deliverRead r0 s data stop).1 := by
  intro r0 s data stop h0
  unfold Run.deliverRead
  try dsimp only
  repeat' first
    | with_reducible assumption | with_reducible apply Keeps.deliver | with_reducible apply Run.metPoison_keeps
    | with_reducible exact EngKeeps.refl _ | (intro _) | with_reducible refine Keeps.ofSnd ?_ (by assumption)
    | with_reducible refine Keeps.ofFst ?_ (by assumption) | split | with_reducible refine EngKeeps.upd ?_ rfl rfl rfl
    | with_reducible refine Keeps.upd ?_ rfl rfl

theorem runRead_keeps {r : State} : ∀ r0 (s : State), Keeps r s → Keeps r (runRead r0 s).1 := by
  intro r0 s h0
  unfold runRead
  try dsimp only
  repeat' first
    | with_reducible assumption | with_reducible apply stopped_keeps | with_reducible apply Run.deliverRead_keeps
    | with_reducible exact EngKeeps.refl _ | (intro _) | with_reducible refine Keeps.ofSnd ?_ (by assumption)
    | with_reducible refine Keeps.ofFst ?_ (by assumption) | split | with_reducible refine EngKeeps.upd ?_ rfl rfl rfl
    | with_reducible refine Keeps.upd ?_ rfl rfl

theorem runWeightPull_keeps {r : State} : ∀ r0 (s : State), Keeps r s → Keeps r (runWeightPull r0 s).1 := by
  intro r0 s h0
  unfold runWeightPull
  try dsimp only
  repeat' first
    | with_reducible assumption | with_reducible apply stopped_keeps | with_reducible apply Run.deliverRead_keeps
    | with_reducible exact EngKeeps.refl _ | (intro _) | with_reducible refine Keeps.ofSnd ?_ (by assumption)
    | with_reducible refine Keeps.ofFst ?_ (by assumption) | split | with_reducible refine EngKeeps.upd ?_ rfl rfl rfl
    | with_reducible refine Keeps.upd ?_ rfl rfl

theorem State.mix_keeps {r : State} : ∀ (s : State) old new, Keeps r s → Keeps r (State.mix s old new).2 := by
  intro s old new h0
  unfold State.mix
  try dsimp only
  repeat' first
    | with_reducible assumption | with_reducible apply Keeps.draw | with_reducible exact EngKeeps.refl _ | (intro _)

theorem Run.partWrite_keeps {r : State} : ∀ r0 (s : State) t0 n, Keeps r s → Keeps r (Run.partWrite r0 s t0 n) := by
  intro r0 s t0 n h0
  unfold Run.partWrite
  try dsimp only
  repeat' first
    | with_reducible assumption | with_reducible apply State.writeTensor_keeps | with_reducible apply State.mix_keeps
    | with_reducible exact EngKeeps.refl _ | (intro _) | with_reducible refine Keeps.ofSnd ?_ (by assumption)
    | with_reducible refine Keeps.ofFst ?_ (by assumption) | split

theorem Run.logWrite_keeps {r : State} : ∀ r0 (s : State), Keeps r s → Keeps r (Run.logWrite r0 s).1 := by
  intro r0 s h0
  unfold Run.logWrite
  try dsimp only
  repeat' first
    | with_reducible assumption | refine State.appendLog_keeps _ _ _ _ _ _ _ _ ?_ _ (by with_reducible assumption)
    | with_reducible exact EngKeeps.refl _ | (intro _) | with_reducible refine Keeps.ofSnd ?_ (by assumption)
    | with_reducible refine Keeps.ofFst ?_ (by assumption) | split | with_reducible refine EngKeeps.upd ?_ rfl rfl rfl
    | with_reducible refine Keeps.upd ?_ rfl rfl

theorem Run.durably_keeps {r : State} : ∀ r0 (s : State) effect mixed, Keeps r s →
    (∀ u, Keeps r u → Keeps r (effect u)) → (∀ u, Keeps r u → Keeps r (mixed u)) → Keeps r (Run.durably r0 s effect mixed).1 := by
  intro r0 s effect mixed h0 he hm
  unfold Run.durably
  have hl := Run.logWrite_keeps r0 s h0
  split
  · exact he _ h0
  · split
    · exact he _ (hl.ofFst ‹_›)
    · exact hm _ (hl.ofFst ‹_›)
    · exact stopped_keeps _ _ (hl.ofFst ‹_›)

theorem runWrite_keeps {r : State} : ∀ r0 (s : State), Keeps r s → Keeps r (runWrite r0 s).1 := by
  intro r0 s h0
  unfold runWrite
  try dsimp only
  repeat' first
    | with_reducible assumption | with_reducible apply stopped_keeps | with_reducible apply Run.metPoison_keeps
    | with_reducible apply Run.partWrite_keeps | with_reducible apply Run.durably_keeps
    | with_reducible apply State.writeTensor_keeps | with_reducible exact EngKeeps.refl _ | (intro _)
    | with_reducible refine Keeps.ofSnd ?_ (by assumption) | with_reducible refine Keeps.ofFst ?_ (by assumption)
    | split | with_reducible refine EngKeeps.upd ?_ rfl rfl rfl | with_reducible refine Keeps.upd ?_ rfl rfl

theorem runGradPush_keeps {r : State} : ∀ r0 (s : State), Keeps r s → Keeps r (runGradPush r0 s).1 := by
  intro r0 s h0
  unfold runGradPush
  try dsimp only
  repeat' first
    | with_reducible assumption | with_reducible apply State.modTensor_keeps | with_reducible apply Keeps.modPart
    | with_reducible apply State.trimHots_keeps | with_reducible exact EngKeeps.refl _ | (intro _)
    | with_reducible refine Keeps.ofSnd ?_ (by assumption) | with_reducible refine Keeps.ofFst ?_ (by assumption)
    | split | with_reducible refine EngKeeps.upd ?_ rfl rfl rfl | with_reducible refine Keeps.upd ?_ rfl rfl

theorem runKvPut_keeps {r : State} : ∀ r0 (s : State), Keeps r s → Keeps r (runKvPut r0 s).1 := by
  intro r0 s h0
  unfold runKvPut
  try dsimp only
  repeat' first
    | with_reducible assumption | refine State.putPage_keeps _ _ _ _ _ ?_ _ (by with_reducible assumption)
    | with_reducible exact EngKeeps.refl _ | (intro _) | with_reducible refine Keeps.ofSnd ?_ (by assumption)
    | with_reducible refine Keeps.ofFst ?_ (by assumption) | split | with_reducible refine EngKeeps.upd ?_ rfl rfl rfl
    | with_reducible refine Keeps.upd ?_ rfl rfl

theorem Run.pageFault_keeps {r : State} : ∀ r0 (s : State) src off sc, Keeps r s →
    Keeps r (Run.pageFault r0 s src off sc) := by
  intro r0 s src off sc h0
  unfold Run.pageFault
  try dsimp only
  repeat' first
    | with_reducible assumption | with_reducible apply State.detect_keeps | with_reducible exact EngKeeps.refl _
    | (intro _) | with_reducible refine EngKeeps.upd ?_ rfl rfl rfl | with_reducible refine Keeps.upd ?_ rfl rfl

theorem Run.repairPage_keeps {r : State} : ∀ r0 (s : State) k0 f other, Keeps r s →
    Keeps r (Run.repairPage r0 s k0 f other).1 := by
  intro r0 s k0 f other h0
  unfold Run.repairPage
  try dsimp only
  repeat' first
    | with_reducible assumption | with_reducible apply Run.pageFault_keeps | with_reducible apply Keeps.modPart
    | refine State.putPage_keeps _ _ _ _ _ ?_ _ (by with_reducible assumption)
    | with_reducible apply Run.metPoison_keeps | with_reducible exact EngKeeps.refl _ | (intro _)
    | with_reducible refine Keeps.ofSnd ?_ (by assumption) | with_reducible refine Keeps.ofFst ?_ (by assumption)
    | split | with_reducible refine EngKeeps.upd ?_ rfl rfl rfl | with_reducible refine Keeps.upd ?_ rfl rfl

theorem runKvGet_keeps {r : State} : ∀ r0 (s : State), Keeps r s → Keeps r (runKvGet r0 s).1 := by
  intro r0 s h0
  unfold runKvGet
  try dsimp only
  repeat' first
    | with_reducible assumption | with_reducible apply stopped_keeps | with_reducible apply Run.metPoison_keeps
    | with_reducible apply Run.repairPage_keeps | with_reducible apply Run.deliverRead_keeps
    | with_reducible apply State.warmPage_keeps | with_reducible exact EngKeeps.refl _ | (intro _)
    | with_reducible refine Keeps.ofSnd ?_ (by assumption) | with_reducible refine Keeps.ofFst ?_ (by assumption)
    | split | with_reducible refine EngKeeps.upd ?_ rfl rfl rfl | with_reducible refine Keeps.upd ?_ rfl rfl

theorem runKvDrop_keeps {r : State} : ∀ r0 (s : State), Keeps r s → Keeps r (runKvDrop r0 s).1 := by
  intro r0 s h0
  unfold runKvDrop
  try dsimp only
  repeat' first
    | with_reducible assumption | with_reducible apply stopped_keeps | with_reducible apply Keeps.modPart
    | with_reducible exact EngKeeps.refl _ | (intro _) | split

theorem runRiderPut_keeps {r : State} : ∀ r0 (s : State), Keeps r s → Keeps r (runRiderPut r0 s).1 := by
  intro r0 s h0
  unfold runRiderPut
  try dsimp only
  repeat' first
    | with_reducible assumption | with_reducible apply State.mix_keeps | with_reducible apply Keeps.modPart
    | with_reducible apply Run.durably_keeps | with_reducible exact EngKeeps.refl _ | (intro _)
    | with_reducible refine Keeps.ofSnd ?_ (by assumption) | with_reducible refine Keeps.ofFst ?_ (by assumption)
    | split | with_reducible refine EngKeeps.upd ?_ rfl rfl rfl | with_reducible refine Keeps.upd ?_ rfl rfl

theorem runRiderGet_keeps {r : State} : ∀ r0 (s : State), Keeps r s → Keeps r (runRiderGet r0 s).1 := by
  intro r0 s h0
  unfold runRiderGet
  try dsimp only
  repeat' first
    | with_reducible assumption | with_reducible apply stopped_keeps | with_reducible apply Run.deliverRead_keeps
    | with_reducible exact EngKeeps.refl _ | (intro _) | with_reducible refine Keeps.ofSnd ?_ (by assumption)
    | with_reducible refine Keeps.ofFst ?_ (by assumption) | split | with_reducible refine EngKeeps.upd ?_ rfl rfl rfl
    | with_reducible refine Keeps.upd ?_ rfl rfl

theorem runFlush_keeps {r : State} : ∀ r0 (s : State), Keeps r s → Keeps r (runFlush r0 s).1 := by
  intro r0 s h0
  unfold runFlush
  try dsimp only
  repeat' first
    | with_reducible assumption | with_reducible exact EngKeeps.refl _ | (intro _)

theorem runStream_keeps {r : State} : ∀ r0 (s : State), Keeps r s → Keeps r (runStream r0 s).1 := by
  intro r0 s h0
  unfold runStream
  try dsimp only
  repeat' first
    | with_reducible assumption | with_reducible apply runRead_keeps | with_reducible apply runWrite_keeps
    | with_reducible apply runGradPush_keeps | with_reducible apply runWeightPull_keeps
    | with_reducible apply runKvPut_keeps | with_reducible apply runKvGet_keeps | with_reducible apply runKvDrop_keeps
    | with_reducible apply runRiderPut_keeps | with_reducible apply runRiderGet_keeps
    | with_reducible apply runFlush_keeps | with_reducible exact EngKeeps.refl _ | (intro _)
    | with_reducible refine Keeps.ofSnd ?_ (by assumption) | with_reducible refine Keeps.ofFst ?_ (by assumption)
    | split | with_reducible refine EngKeeps.upd ?_ rfl rfl rfl | with_reducible refine Keeps.upd ?_ rfl rfl

theorem State.codes_keeps {r : State} : ∀ (s : State) a q, Keeps r s → Keeps r (State.codes s a q).1 := by
  intro s a q h0
  unfold State.codes
  try dsimp only
  repeat' first
    | with_reducible assumption | with_reducible apply State.codecLane_keeps | with_reducible exact EngKeeps.refl _
    | (intro _) | split

theorem State.proceed_keeps {r : State} : ∀ (s : State) a i fail, Keeps r s → Keeps r (State.proceed s a i fail) := by
  intro s a i fail h0
  unfold State.proceed
  try dsimp only
  repeat' first
    | with_reducible assumption | with_reducible apply State.waitSlot_keeps
    | with_reducible apply State.takeAllTokens_keeps | with_reducible apply State.codes_keeps
    | with_reducible apply runStream_keeps | with_reducible apply State.finishSlot_keeps
    | with_reducible apply State.wakeJobs_keeps | with_reducible exact EngKeeps.refl _ | (intro _)
    | with_reducible refine Keeps.ofSnd ?_ (by assumption) | with_reducible refine Keeps.ofFst ?_ (by assumption)
    | split | with_reducible refine EngKeeps.upd ?_ rfl rfl rfl | with_reducible refine Keeps.upd ?_ rfl rfl

theorem State.askLocks_keeps {r : State} : ∀ (s : State) a i l, Keeps r s → Keeps r (State.askLocks s a i l).1 := by
  intro s a i l h0
  unfold State.askLocks
  try dsimp only
  repeat' first
    | with_reducible assumption | with_reducible apply State.modSlot_keeps | with_reducible exact EngKeeps.refl _
    | (intro _) | with_reducible refine Keeps.ofSnd ?_ (by assumption)
    | with_reducible refine Keeps.ofFst ?_ (by assumption) | split | with_reducible refine EngKeeps.upd ?_ rfl rfl rfl
    | with_reducible refine Keeps.upd ?_ rfl rfl

theorem State.begin_keeps {r : State} : ∀ (s : State) a i q, Keeps r s → Keeps r (State.begin s a i q).1 := by
  intro s a i q h0
  unfold State.begin
  try dsimp only
  repeat' first
    | with_reducible assumption | with_reducible apply State.finishSlot_keeps
    | with_reducible apply State.wakeAll_keeps | with_reducible apply State.waitSlot_keeps
    | with_reducible apply State.askLocks_keeps | with_reducible exact EngKeeps.refl _ | (intro _)
    | with_reducible refine Keeps.ofSnd ?_ (by assumption) | with_reducible refine Keeps.ofFst ?_ (by assumption)
    | split | with_reducible refine EngKeeps.upd ?_ rfl rfl rfl | with_reducible refine Keeps.upd ?_ rfl rfl

theorem State.tryStream_keeps {r : State} : ∀ (s : State) a i fail, Keeps r s → Keeps r (State.tryStream s a i fail) := by
  intro s a i fail h0
  unfold State.tryStream
  try dsimp only
  repeat' first
    | with_reducible assumption | with_reducible apply Engine.wake_keeps | with_reducible apply State.wake_keeps
    | with_reducible apply State.waitSlot_keeps | with_reducible apply State.begin_keeps
    | with_reducible apply State.proceed_keeps | with_reducible exact EngKeeps.refl _ | (intro _)
    | with_reducible refine Keeps.ofSnd ?_ (by assumption) | with_reducible refine Keeps.ofFst ?_ (by assumption)
    | split | with_reducible refine EngKeeps.upd ?_ rfl rfl rfl | with_reducible refine Keeps.upd ?_ rfl rfl

theorem State.fetchInto_keeps {r : State} : ∀ (s : State) a i data fail, Keeps r s →
    Keeps r (State.fetchInto s a i data fail) := by
  intro s a i data fail h0
  unfold State.fetchInto
  try dsimp only
  repeat' first
    | with_reducible assumption | with_reducible apply State.takeTokens_keeps
    | with_reducible apply State.waitSlot_keeps | with_reducible apply State.modSlot_keeps
    | with_reducible apply State.codes_keeps | with_reducible exact EngKeeps.refl _ | (intro _)
    | with_reducible refine Keeps.ofSnd ?_ (by assumption) | with_reducible refine Keeps.ofFst ?_ (by assumption)
    | split | with_reducible refine EngKeeps.upd ?_ rfl rfl rfl | with_reducible refine Keeps.upd ?_ rfl rfl

theorem State.fetchData_keeps {r : State} : ∀ (s : State) a i data fail, Keeps r s →
    Keeps r (State.fetchData s a i data fail) := by
  intro s a i data fail h0
  unfold State.fetchData
  try dsimp only
  repeat' first
    | with_reducible assumption | with_reducible apply State.begin_keeps | with_reducible apply State.fetchInto_keeps
    | with_reducible exact EngKeeps.refl _ | (intro _) | with_reducible refine Keeps.ofSnd ?_ (by assumption)
    | with_reducible refine Keeps.ofFst ?_ (by assumption) | split | with_reducible refine EngKeeps.upd ?_ rfl rfl rfl
    | with_reducible refine Keeps.upd ?_ rfl rfl

theorem State.postStream_keeps {r : State} : ∀ (s : State) a, Keeps r s → Keeps r (State.postStream s a) := by
  intro s a h0
  unfold State.postStream
  try dsimp only
  repeat' first
    | with_reducible assumption | with_reducible apply Keeps.modStream | with_reducible apply State.signal_keeps
    | with_reducible exact EngKeeps.refl _ | (intro _) | with_reducible refine Keeps.ofSnd ?_ (by assumption)
    | with_reducible refine Keeps.ofFst ?_ (by assumption) | split | with_reducible refine EngKeeps.upd ?_ rfl rfl rfl
    | with_reducible refine Keeps.upd ?_ rfl rfl

end Sys2Proof.Machine
end

