-- ==== Sys2Proof/Laws/KeepsProgramRun.lean ====
section
/-! SUPPORT. What the operations of Machine/ProgramRun keep (Laws/Keeps). -/

namespace Sys2Proof.Machine

theorem State.drawWords_keeps {r : State} : ∀ (s : State) n, Keeps r s → Keeps r (State.drawWords s n).2 := by
  intro s n h0
  unfold State.drawWords
  try dsimp only
  repeat' first
    | with_reducible assumption | with_reducible exact EngKeeps.refl _ | (intro _)
    | with_reducible refine EngKeeps.upd ?_ rfl rfl rfl | with_reducible refine Keeps.upd ?_ rfl rfl

theorem State.fillWords_keeps {r : State} : ∀ (s : State) xs n, Keeps r s → Keeps r (State.fillWords s xs n).2 := by
  intro s xs n h0
  unfold State.fillWords
  try dsimp only
  repeat' first
    | with_reducible assumption | with_reducible apply State.drawWords_keeps | with_reducible exact EngKeeps.refl _
    | (intro _) | with_reducible refine Keeps.ofSnd ?_ (by assumption)
    | with_reducible refine Keeps.ofFst ?_ (by assumption) | split

theorem ProgRun.operand_keeps {r : State} : ∀ r0 (s : State) v k0 ref, Keeps r s →
    Keeps r (ProgRun.operand r0 s v k0 ref).2 := by
  intro r0 s v k0 ref h0
  unfold ProgRun.operand
  try dsimp only
  repeat' first
    | with_reducible assumption | with_reducible apply State.drawWords_keeps | with_reducible exact EngKeeps.refl _
    | (intro _) | with_reducible refine Keeps.ofSnd ?_ (by assumption)
    | with_reducible refine Keeps.ofFst ?_ (by assumption) | split | with_reducible refine EngKeeps.upd ?_ rfl rfl rfl
    | with_reducible refine Keeps.upd ?_ rfl rfl

theorem State.spread_keeps {r : State} : ∀ (s : State) ref q n, Keeps r s → Keeps r (State.spread s ref q n).2 := by
  intro s ref q n h0
  unfold State.spread
  try dsimp only
  repeat' first
    | with_reducible assumption | with_reducible apply State.fillWords_keeps | with_reducible exact EngKeeps.refl _
    | (intro _) | with_reducible refine Keeps.ofSnd ?_ (by assumption)
    | with_reducible refine Keeps.ofFst ?_ (by assumption) | split | with_reducible refine EngKeeps.upd ?_ rfl rfl rfl
    | with_reducible refine Keeps.upd ?_ rfl rfl

theorem ProgRun.elementwise_keeps {r : State} : ∀ r0 (s : State) v k0 o, Keeps r s →
    Keeps r (ProgRun.elementwise r0 s v k0 o).2 := by
  intro r0 s v k0 o h0
  unfold ProgRun.elementwise
  try dsimp only
  repeat' first
    | with_reducible assumption | with_reducible apply ProgRun.operand_keeps | with_reducible apply State.spread_keeps
    | with_reducible exact EngKeeps.refl _ | (intro _) | with_reducible refine Keeps.ofSnd ?_ (by assumption)
    | with_reducible refine Keeps.ofFst ?_ (by assumption) | split

theorem ProgRun.reduceRow_keeps {r : State} : ∀ r0 (s : State) v k0 o, Keeps r s →
    Keeps r (ProgRun.reduceRow r0 s v k0 o).2 := by
  intro r0 s v k0 o h0
  unfold ProgRun.reduceRow
  try dsimp only
  repeat' first
    | with_reducible assumption | with_reducible apply ProgRun.operand_keeps | with_reducible exact EngKeeps.refl _
    | (intro _) | with_reducible refine Keeps.ofSnd ?_ (by assumption)
    | with_reducible refine Keeps.ofFst ?_ (by assumption) | split

theorem ProgRun.reduceAll_keeps {r : State} : ∀ r0 (s : State) v o, Keeps r s → Keeps r (ProgRun.reduceAll r0 s v o).2 := by
  intro r0 s v o h0
  unfold ProgRun.reduceAll
  try dsimp only
  repeat' first
    | with_reducible assumption | with_reducible apply ProgRun.operand_keeps | with_reducible apply Keeps.foldl
    | with_reducible apply Keeps.foldlSnd | with_reducible apply Keeps.foldlFst | with_reducible apply EngKeeps.foldl
    | with_reducible exact EngKeeps.refl _ | (intro _) | with_reducible refine Keeps.ofSnd ?_ (by assumption)
    | with_reducible refine Keeps.ofFst ?_ (by assumption) | split

theorem ProgRun.matmul_keeps {r : State} : ∀ r0 (s : State) v k o, Keeps r s → ∀ y z, ProgRun.matmul r0 s v k o = some (y, z) →
    Keeps r z := by
  intro r0 s v k o h0 y z hz
  have h1 := ProgRun.operand_keeps r0 _ v k o.a h0
  have h2 := ProgRun.operand_keeps r0 _ v k o.b h1
  have h3 := ProgRun.operand_keeps r0 _ v k o.aux h2
  unfold ProgRun.matmul at hz
  dsimp -zeta only at hz
  extract_lets aRows bRows a1 inner bT bInner outRows at hz
  clear_value outRows a1
  generalize hc : (if refKind o.aux = 2 then _ else _ : List Word × State) = c at hz
  have h4 : Keeps r c.2 := by
    rw [← hc]
    split
    · exact State.fillWords_keeps _ _ _ h3
    · exact h3
  generalize (if o.flag 2 = true then _ else _ : Option (List (List Word))) = g at hz
  cases g with
  | none => cases hz
  | some a2 =>
    dsimp only at hz
    split at hz
    · have e : _ = z := congrArg Prod.snd (Option.some.inj hz)
      rw [← e]
      exact State.spread_keeps _ _ _ _ h4
    · have e : _ = z := congrArg Prod.snd (Option.some.inj hz)
      rw [← e]
      exact State.drawWords_keeps _ _ h4

theorem ProgRun.spin_keeps {r : State} : ∀ r0 (s : State) v k0 o, Keeps r s → Keeps r (ProgRun.spin r0 s v k0 o).2 := by
  intro r0 s v k0 o h0
  unfold ProgRun.spin
  try dsimp only
  repeat' first
    | with_reducible assumption | with_reducible apply ProgRun.operand_keeps
    | with_reducible apply State.fillWords_keeps | with_reducible exact EngKeeps.refl _ | (intro _)
    | with_reducible refine Keeps.ofSnd ?_ (by assumption) | with_reducible refine Keeps.ofFst ?_ (by assumption)
    | split

theorem ProgRun.store_keeps {r : State} : ∀ r0 (s : State) v k0 o q, Keeps r s →
    Keeps r (ProgRun.store r0 s v k0 o q).1 := by
  intro r0 s v k0 o q h0
  unfold ProgRun.store
  try dsimp only
  repeat' first
    | with_reducible assumption | with_reducible apply State.fillWords_keeps
    | with_reducible apply State.putTensor_keeps | with_reducible exact EngKeeps.refl _ | (intro _)
    | with_reducible refine Keeps.ofSnd ?_ (by assumption) | with_reducible refine Keeps.ofFst ?_ (by assumption)
    | split | with_reducible refine EngKeeps.upd ?_ rfl rfl rfl | with_reducible refine Keeps.upd ?_ rfl rfl

theorem ProgRun.opStripe_keeps {r : State} : ∀ r0 (s : State) v k o, Keeps r s →
    ∀ y z, ProgRun.opStripe r0 s v k o = some (y, z) → Keeps r z := by
  intro r0 s v k o h0 y z hz
  simp only [ProgRun.opStripe] at hz
  split at hz
  · exact ProgRun.matmul_keeps _ _ _ _ _ h0 _ _ hz
  · exact (ProgRun.elementwise_keeps _ _ _ _ _ h0).ofSnd (Option.some.inj hz)
  · exact (ProgRun.reduceRow_keeps _ _ _ _ _ h0).ofSnd (Option.some.inj hz)
  · exact (ProgRun.operand_keeps _ _ _ _ _ h0).ofSnd (Option.some.inj hz)
  · exact (ProgRun.spin_keeps _ _ _ _ _ h0).ofSnd (Option.some.inj hz)

theorem ProgRun.runOp_keeps {r : State} : ∀ r0 acc o, Keeps r acc.1 → ∀ z y, ProgRun.runOp r0 acc o = some (z, y) →
    Keeps r z := by
  intro r0 acc o h0 z y hz
  simp only [ProgRun.runOp] at hz
  split at hz
  · exact (Keeps.foldlFst (ProgRun.reduceAll_keeps _ _ _ _ h0)
      (fun q k hq => ProgRun.store_keeps _ _ _ _ _ _ hq)).ofFst (Option.some.inj hz)
  · refine Keeps.foldlM (g := Prod.fst) (c := (z, y)) h0 (fun b a c hb hc => ?_) hz
    simp only [Option.map_eq_some_iff] at hc
    obtain ⟨⟨q, s1⟩, h1, rfl⟩ := hc
    exact ProgRun.store_keeps _ _ _ _ _ _ (ProgRun.opStripe_keeps _ _ _ _ _ hb _ _ h1)

theorem ProgRun.run_keeps {r : State} : ∀ r0 (s : State), Keeps r s → ∀ z, ProgRun.run r0 s = some z → Keeps r z := by
  intro r0 s h0 z hz
  simp only [ProgRun.run, Option.map_eq_some_iff] at hz
  obtain ⟨⟨q, v⟩, h1, rfl⟩ := hz
  exact Keeps.foldlM (g := Prod.fst) (b := (s, [])) (c := (q, v)) h0
    (fun b a c hb hc => ProgRun.runOp_keeps _ _ _ hb _ _ hc) h1

end Sys2Proof.Machine
end

