-- ==== Sys2Proof/Laws/KeepsStepEngine.lean ====
section
/-! SUPPORT. What the operations of Machine/StepEngine keep (Laws/Keeps). -/

namespace Sys2Proof.Machine

theorem execStepBegin_keeps {r : State} : ∀ p (s : State), Keeps r s → ∀ z, execStepBegin p s = .next z → Keeps r z := by
  intro p s h0 u hu
  unfold execStepBegin at hu
  repeat' first | (injection hu with hu; subst hu) | split at hu
  all_goals try dsimp only
  repeat' first
    | with_reducible assumption | with_reducible apply Keeps.modPart | with_reducible exact EngKeeps.refl _ | (intro _)
    | split | with_reducible refine EngKeeps.upd ?_ rfl rfl rfl | with_reducible refine Keeps.upd ?_ rfl rfl

theorem State.stepEnded_keeps {r : State} : ∀ (s : State) p, Keeps r s → Keeps r (State.stepEnded s p) := by
  intro s p h0
  unfold State.stepEnded
  try dsimp only
  repeat' first
    | with_reducible assumption | with_reducible apply Keeps.modPart | with_reducible apply State.wakeJobs_keeps
    | with_reducible apply State.kickReshards_keeps | with_reducible exact EngKeeps.refl _ | (intro _)
    | with_reducible refine Keeps.ofSnd ?_ (by assumption) | with_reducible refine Keeps.ofFst ?_ (by assumption)
    | split | with_reducible refine EngKeeps.upd ?_ rfl rfl rfl | with_reducible refine Keeps.upd ?_ rfl rfl

theorem State.nonfiniteStep_keeps {r : State} : ∀ (s : State) p, Keeps r s → Keeps r (State.nonfiniteStep s p) := by
  intro s p h0
  unfold State.nonfiniteStep
  try dsimp only
  repeat' first
    | with_reducible assumption | with_reducible apply State.failStep_keeps
    | with_reducible apply State.stepEnded_keeps | with_reducible apply Keeps.modPart
    | with_reducible exact EngKeeps.refl _ | (intro _) | split | with_reducible refine EngKeeps.upd ?_ rfl rfl rfl
    | with_reducible refine Keeps.upd ?_ rfl rfl

theorem execStatisticsComplete_keeps {r : State} : ∀ p (s : State), Keeps r s →
    ∀ z, execStatisticsComplete p s = .next z → Keeps r z := by
  intro p s h0 u hu
  unfold execStatisticsComplete at hu
  repeat' first | (injection hu with hu; subst hu) | split at hu
  all_goals try dsimp only
  repeat' first
    | with_reducible assumption | with_reducible apply State.nonfiniteStep_keeps | with_reducible apply Keeps.modPart
    | with_reducible exact EngKeeps.refl _ | (intro _) | split | with_reducible refine EngKeeps.upd ?_ rfl rfl rfl
    | with_reducible refine Keeps.upd ?_ rfl rfl

theorem State.failUpdate_keeps {r : State} : ∀ (s : State) p, Keeps r s → Keeps r (State.failUpdate s p) := by
  intro s p h0
  unfold State.failUpdate
  try dsimp only
  repeat' first
    | with_reducible assumption | with_reducible apply Keeps.draw | with_reducible apply Keeps.modPart
    | with_reducible apply State.failStep_keeps | with_reducible apply State.faultEvent_keeps
    | with_reducible apply State.stepEnded_keeps | with_reducible exact EngKeeps.refl _ | (intro _)
    | with_reducible refine Keeps.ofSnd ?_ (by assumption) | with_reducible refine Keeps.ofFst ?_ (by assumption)
    | split | with_reducible refine EngKeeps.upd ?_ rfl rfl rfl | with_reducible refine Keeps.upd ?_ rfl rfl

theorem StripeWork.block_keeps {r : State} (w : StripeWork) (p : PartId) (pol : List Byte) (pt : Tensor) (t br bc : Nat)
    (g mh : Block) (row col idx : Nat) (h : Keeps r w.st) : Keeps r (w.block p pol pt t br bc g mh row col idx).st := by
  unfold StripeWork.block
  extract_lets f f1 
  generalize hq : w.st.drawWords (br * bc) = q
  have h1 : Keeps r q.2 := hq ▸ State.drawWords_keeps _ _ h
  obtain ⟨a, b⟩ := q
  exact State.putElems_keeps _ _ _ _ _ _ _ h1

theorem StripeWork.kronecker_keeps {r : State} (w : StripeWork) (p : PartId) (pol : List Byte) (m pt : Tensor) (t k : Nat)
    (g mh : Block) (h : Keeps r w.st) : Keeps r (w.kronecker p pol m pt t k g mh).st := by
  have fold : ∀ {α : Type} (l : List α) (f : StripeWork → α → StripeWork) (w : StripeWork),
      (∀ w a, Keeps r w.st → Keeps r (f w a).st) → Keeps r w.st → Keeps r (l.foldl f w).st := by
    intro α l f w hf hw
    induction l generalizing w with
    | nil => exact hw
    | cons a l ih => exact ih _ (hf _ _ hw)
  unfold StripeWork.kronecker
  exact fold _ _ _ (fun w a hw => fold _ _ _ (fun w b hw => StripeWork.block_keeps _ _ _ _ _ _ _ _ _ _ _ _ hw) hw) h

theorem State.putMoment_keeps {r : State} : ∀ (s : State) p t0 first site xs, Keeps r s →
    Keeps r (State.putMoment s p t0 first site xs) := by
  intro s p t0 first site xs h0
  unfold State.putMoment
  try dsimp only
  repeat' first
    | with_reducible assumption | with_reducible apply State.putElems_keeps | with_reducible exact EngKeeps.refl _
    | (intro _) | with_reducible refine Keeps.ofSnd ?_ (by assumption)
    | with_reducible refine Keeps.ofFst ?_ (by assumption) | split | with_reducible refine EngKeeps.upd ?_ rfl rfl rfl
    | with_reducible refine Keeps.upd ?_ rfl rfl

theorem State.updateStripe_keeps {r : State} : ∀ (s : State) (p : PartId) (pol : List Byte) (m : Tensor) (k : Nat),
    Keeps r s → Keeps r (s.updateStripe p pol m k) := by
  intro s p pol m k h
  unfold State.updateStripe
  extract_lets x sp a acc gs ws t1 t2 ms msa msb vs dir s1 done s2
  have h1 : Keeps r s1 := State.putMoment_keeps _ _ _ _ _ _ (State.putMoment_keeps _ _ _ _ _ _ h)
  have hd : Keeps r done.1 := by
    unfold done
    clear_value s1
    split
    · exact State.putMoment_keeps _ _ _ _ _ _ h
    · split
      · exact StripeWork.kronecker_keeps _ _ _ _ _ _ _ _ _ h1
      · exact h1
  unfold s2
  clear_value done
  exact State.deriveWeight_keeps _ _ _ _ _ _ (State.putElems_keeps _ _ _ _ _ _ _ hd)

theorem State.updateMaster_keeps {r : State} : ∀ (s : State) p pol m, Keeps r s →
    Keeps r (State.updateMaster s p pol m) := by
  intro s p pol m h0
  unfold State.updateMaster
  try dsimp only
  repeat' first
    | with_reducible assumption | with_reducible apply State.updateStripe_keeps | with_reducible apply Keeps.foldl
    | with_reducible apply Keeps.foldlSnd | with_reducible apply Keeps.foldlFst | with_reducible apply EngKeeps.foldl
    | with_reducible exact EngKeeps.refl _ | (intro _)

theorem State.programMaster_keeps {r : State} : ∀ (s : State) p pol g m, Keeps r s →
    ∀ z, State.programMaster s p pol g m = some z → Keeps r z := by
  intro s p pol g m h0 z hz
  simp only [State.programMaster, Option.map_eq_some_iff] at hz
  obtain ⟨s2, h1, rfl⟩ := hz
  exact Keeps.foldl (ProgRun.run_keeps _ _ h0 _ h1) (fun t k ht => State.deriveWeight_keeps _ _ _ _ _ _ ht)

theorem Engine.useSpin_keeps {w : Engine} : ∀ (x : Engine) p h, EngKeeps w x → EngKeeps w (Engine.useSpin x p h) := by
  intro x p h h0
  unfold Engine.useSpin
  try dsimp only
  repeat' first
    | with_reducible assumption | with_reducible exact EngKeeps.refl _ | (intro _) | split
    | with_reducible refine EngKeeps.upd ?_ rfl rfl rfl

theorem State.useSpins_keeps {r : State} : ∀ (s : State) p hs, Keeps r s → Keeps r (State.useSpins s p hs) := by
  intro s p hs h0
  unfold State.useSpins
  try dsimp only
  repeat' first
    | with_reducible assumption | with_reducible apply Keeps.modPart | with_reducible apply Keeps.modEngines
    | with_reducible apply Engine.useSpin_keeps | with_reducible apply Keeps.foldl
    | with_reducible apply Keeps.foldlSnd | with_reducible apply Keeps.foldlFst | with_reducible apply EngKeeps.foldl
    | with_reducible exact EngKeeps.refl _ | (intro _) | with_reducible refine EngKeeps.upd ?_ rfl rfl rfl
    | with_reducible refine Keeps.upd ?_ rfl rfl

theorem State.updateAll_keeps {r : State} : ∀ (s : State) p pol, Keeps r s → ∀ z, State.updateAll s p pol = some z →
    Keeps r z := by
  intro s p pol h0 z hz
  simp only [State.updateAll] at hz
  split at hz
  · simp only [Option.map_eq_some_iff] at hz
    obtain ⟨s1, h1, rfl⟩ := hz
    exact State.useSpins_keeps _ _ _ (Keeps.foldlM (g := id) h0
      (fun b a c hb hc => State.programMaster_keeps _ _ _ _ _ hb _ hc) h1)
  · exact Option.some.inj hz ▸ Keeps.foldl h0 (fun t m ht => State.updateMaster_keeps _ _ _ _ ht)

theorem execStepComplete_keeps {r : State} : ∀ p (s : State), Keeps r s → ∀ z, execStepComplete p s = .next z →
    Keeps r z := by
  intro p s h0 u hu
  unfold execStepComplete at hu
  repeat' first | (injection hu with hu; subst hu) | split at hu
  all_goals try dsimp only
  repeat' first
    | with_reducible assumption | with_reducible apply State.failUpdate_keeps
    | refine State.updateAll_keeps _ _ _ ?_ _ (by with_reducible assumption) | with_reducible apply Keeps.modPart
    | with_reducible apply State.stepEnded_keeps | with_reducible exact EngKeeps.refl _ | (intro _)
    | with_reducible refine Keeps.ofSnd ?_ (by assumption) | with_reducible refine Keeps.ofFst ?_ (by assumption)
    | split | with_reducible refine EngKeeps.upd ?_ rfl rfl rfl | with_reducible refine Keeps.upd ?_ rfl rfl

theorem execSpinSwap_keeps {r : State} : ∀ e p handle (s : State), Keeps r s →
    ∀ z, execSpinSwap e p handle s = .next z → Keeps r z := by
  intro e p handle s h0 u hu
  unfold execSpinSwap at hu
  repeat' first | (injection hu with hu; subst hu) | split at hu
  all_goals try dsimp only
  repeat' first
    | with_reducible assumption | with_reducible apply Keeps.modEng | with_reducible apply Keeps.modPart
    | with_reducible exact EngKeeps.refl _ | (intro _) | split | with_reducible refine EngKeeps.upd ?_ rfl rfl rfl
    | with_reducible refine Keeps.upd ?_ rfl rfl

end Sys2Proof.Machine
end

