-- ==== Sys2Proof/Laws/KeepsCutRows.lean ====
section
/-! SUPPORT. What the operations of Machine/CutRows keep (Laws/Keeps). -/

namespace Sys2Proof.Machine

theorem execCutGateMessage_keeps {r : State} : ∀ p e (s : State), Keeps r s → ∀ z, execCutGateMessage p e s = .next z →
    Keeps r z := by
  intro p e s h0 u hu
  unfold execCutGateMessage at hu
  repeat' first | (injection hu with hu; subst hu) | split at hu
  all_goals try dsimp only
  repeat' first
    | with_reducible assumption | with_reducible apply Keeps.modPart | with_reducible apply Engine.wake_keeps
    | with_reducible apply State.wake_keeps | with_reducible exact EngKeeps.refl _ | (intro _) | split
    | with_reducible refine EngKeeps.upd ?_ rfl rfl rfl | with_reducible refine Keeps.upd ?_ rfl rfl

theorem State.answerCut_keeps {r : State} : ∀ (s : State) d st body, Keeps r s → Keeps r (State.answerCut s d st body) := by
  intro s d st body h0
  unfold State.answerCut
  try dsimp only
  repeat' first
    | with_reducible assumption | with_reducible apply State.answer_keeps | with_reducible exact EngKeeps.refl _
    | (intro _) | with_reducible refine Keeps.ofSnd ?_ (by assumption)
    | with_reducible refine Keeps.ofFst ?_ (by assumption) | split | with_reducible refine EngKeeps.upd ?_ rfl rfl rfl
    | with_reducible refine Keeps.upd ?_ rfl rfl

theorem State.reseeded_keeps {r : State} : ∀ (s : State) p, Keeps r s → Keeps r (State.reseeded s p) := by
  intro s p h0
  unfold State.reseeded
  try dsimp only
  repeat' first
    | with_reducible assumption | with_reducible exact EngKeeps.refl _ | (intro _)
    | with_reducible refine EngKeeps.upd ?_ rfl rfl rfl | with_reducible refine Keeps.upd ?_ rfl rfl

theorem State.dropCut_keeps {r : State} : ∀ (s : State) p d, Keeps r s → Keeps r (State.dropCut s p d) := by
  intro s p d h0
  unfold State.dropCut
  try dsimp only
  repeat' first
    | with_reducible assumption | with_reducible apply Keeps.modPart | with_reducible apply State.answerCut_keeps
    | with_reducible apply State.hold_keeps | with_reducible apply State.reseeded_keeps
    | with_reducible apply State.wakeJobs_keeps | with_reducible apply State.kickReshards_keeps
    | with_reducible exact EngKeeps.refl _ | (intro _) | split | with_reducible refine EngKeeps.upd ?_ rfl rfl rfl
    | with_reducible refine Keeps.upd ?_ rfl rfl

theorem execCutInstant_keeps {r : State} : ∀ p (s : State), Keeps r s → ∀ z, execCutInstant p s = .next z → Keeps r z := by
  intro p s h0 u hu
  unfold execCutInstant at hu
  repeat' first | (injection hu with hu; subst hu) | split at hu
  all_goals try dsimp only
  repeat' first
    | with_reducible assumption | with_reducible apply State.dropCut_keeps | with_reducible apply State.cutNow_keeps
    | with_reducible apply State.reseeded_keeps | with_reducible apply State.answerCut_keeps
    | with_reducible apply State.wakeJobs_keeps | with_reducible exact EngKeeps.refl _ | (intro _)
    | with_reducible refine Keeps.ofSnd ?_ (by assumption) | with_reducible refine Keeps.ofFst ?_ (by assumption)
    | split | with_reducible refine EngKeeps.upd ?_ rfl rfl rfl | with_reducible refine Keeps.upd ?_ rfl rfl

theorem execCopierDone_keeps {r : State} : ∀ p n (s : State), Keeps r s → ∀ z, execCopierDone p n s = .next z →
    Keeps r z := by
  intro p n s h0 u hu
  unfold execCopierDone at hu
  repeat' first | (injection hu with hu; subst hu) | split at hu
  all_goals try dsimp only
  repeat' first
    | with_reducible assumption | with_reducible apply State.modEpoch_keeps | with_reducible apply State.wakeJobs_keeps
    | with_reducible apply State.kickReshards_keeps | with_reducible exact EngKeeps.refl _ | (intro _)
    | with_reducible refine Keeps.ofSnd ?_ (by assumption) | with_reducible refine Keeps.ofFst ?_ (by assumption)
    | split | with_reducible refine EngKeeps.upd ?_ rfl rfl rfl | with_reducible refine Keeps.upd ?_ rfl rfl

theorem execCopierResume_keeps {r : State} : ∀ p n (s : State), Keeps r s → ∀ z, execCopierResume p n s = .next z →
    Keeps r z := by
  intro p n s h0 u hu
  unfold execCopierResume at hu
  repeat' first | (injection hu with hu; subst hu) | split at hu
  all_goals try dsimp only
  repeat' first
    | with_reducible assumption | with_reducible apply State.stageEpoch_keeps | with_reducible exact EngKeeps.refl _
    | (intro _) | split

theorem State.ownCut_keeps {r : State} : ∀ (s : State) p final, Keeps r s → Keeps r (State.ownCut s p final) := by
  intro s p final h0
  unfold State.ownCut
  try dsimp only
  repeat' first
    | with_reducible assumption | with_reducible apply State.declareCut_keeps | with_reducible exact EngKeeps.refl _
    | (intro _) | split

theorem execFinalEbbCut_keeps {r : State} : ∀ p (s : State), Keeps r s → ∀ z, execFinalEbbCut p s = .next z →
    Keeps r z := by
  intro p s h0 u hu
  unfold execFinalEbbCut at hu
  repeat' first | (injection hu with hu; subst hu) | split at hu
  all_goals try dsimp only
  repeat' first
    | with_reducible assumption | with_reducible apply State.hold_keeps | with_reducible apply State.ownCut_keeps
    | with_reducible exact EngKeeps.refl _ | (intro _) | split | with_reducible refine EngKeeps.upd ?_ rfl rfl rfl
    | with_reducible refine Keeps.upd ?_ rfl rfl

theorem execPartitionLend_keeps {r : State} : ∀ p (s : State), Keeps r s → ∀ z, execPartitionLend p s = .next z →
    Keeps r z := by
  intro p s h0 u hu
  unfold execPartitionLend at hu
  repeat' first | (injection hu with hu; subst hu) | split at hu
  all_goals try dsimp only
  repeat' first
    | with_reducible assumption | with_reducible apply State.lend_keeps | with_reducible exact EngKeeps.refl _
    | (intro _) | split | with_reducible refine EngKeeps.upd ?_ rfl rfl rfl
    | with_reducible refine Keeps.upd ?_ rfl rfl

theorem State.endTurn_keeps {r : State} : ∀ (s : State), Keeps r s → Keeps r (State.endTurn s) := by
  intro s h0
  unfold State.endTurn
  try dsimp only
  repeat' first
    | with_reducible assumption | with_reducible apply State.tideEvent_keeps | with_reducible exact EngKeeps.refl _
    | (intro _) | with_reducible refine EngKeeps.upd ?_ rfl rfl rfl | with_reducible refine Keeps.upd ?_ rfl rfl

theorem execFloodTurnComplete_keeps {r : State} : ∀ (s : State), Keeps r s → ∀ z, execFloodTurnComplete s = .next z →
    Keeps r z := by
  intro s h0 u hu
  unfold execFloodTurnComplete at hu
  repeat' first | (injection hu with hu; subst hu) | split at hu
  all_goals try dsimp only
  repeat' first
    | with_reducible assumption | with_reducible apply State.endTurn_keeps | with_reducible exact EngKeeps.refl _
    | (intro _) | split

theorem execReseedCut_keeps {r : State} : ∀ p (s : State), Keeps r s → ∀ z, execReseedCut p s = .next z → Keeps r z := by
  intro p s h0 u hu
  unfold execReseedCut at hu
  repeat' first | (injection hu with hu; subst hu) | split at hu
  all_goals try dsimp only
  repeat' first
    | with_reducible assumption | with_reducible apply State.dropLent_keeps | with_reducible apply State.reseeded_keeps
    | with_reducible apply Keeps.modPart | with_reducible apply State.ownCut_keeps
    | with_reducible exact EngKeeps.refl _ | (intro _) | split | with_reducible refine EngKeeps.upd ?_ rfl rfl rfl
    | with_reducible refine Keeps.upd ?_ rfl rfl

theorem execEbbTurnComplete_keeps {r : State} : ∀ (s : State), Keeps r s → ∀ z, execEbbTurnComplete s = .next z →
    Keeps r z := by
  intro s h0 u hu
  unfold execEbbTurnComplete at hu
  repeat' first | (injection hu with hu; subst hu) | split at hu
  all_goals try dsimp only
  repeat' first
    | with_reducible assumption | with_reducible apply State.endTurn_keeps | with_reducible exact EngKeeps.refl _
    | (intro _) | split

end Sys2Proof.Machine
end

