-- ==== Sys2Proof/Laws/KeepsHeat.lean ====
section
/-! SUPPORT. What the operations of Machine/Heat keep (Laws/Keeps). -/

namespace Sys2Proof.Machine

theorem Engine.takeLevels_keeps {w : Engine} : ∀ (x : Engine), EngKeeps w x → EngKeeps w (Engine.takeLevels x) := by
  intro x h0
  unfold Engine.takeLevels
  try dsimp only
  repeat' first
    | with_reducible assumption | with_reducible apply Keeps.foldl | with_reducible apply Keeps.foldlSnd
    | with_reducible apply Keeps.foldlFst | with_reducible apply EngKeeps.foldl | with_reducible exact EngKeeps.refl _
    | (intro _) | with_reducible refine EngKeeps.upd ?_ rfl rfl rfl

theorem State.levelFault_keeps {r : State} : ∀ (s : State) e d holds, Keeps r s →
    Keeps r (State.levelFault s e d holds) := by
  intro s e d holds h0
  unfold State.levelFault
  try dsimp only
  repeat' first
    | with_reducible assumption | with_reducible apply State.detect_keeps | with_reducible exact EngKeeps.refl _
    | (intro _) | split | with_reducible refine EngKeeps.upd ?_ rfl rfl rfl
    | with_reducible refine Keeps.upd ?_ rfl rfl

theorem State.thermalFaults_keeps {r : State} : ∀ (s : State) e, Keeps r s → Keeps r (State.thermalFaults s e) := by
  intro s e h0
  unfold State.thermalFaults
  try dsimp only
  repeat' first
    | with_reducible assumption | with_reducible apply State.levelFault_keeps | with_reducible apply State.detect_keeps
    | with_reducible exact EngKeeps.refl _ | (intro _) | split

theorem State.sampleSensors_keeps {r : State} : ∀ (s : State) e first rs, Keeps r s →
    Keeps r (State.sampleSensors s e first rs) := by
  intro s e first rs h0
  unfold State.sampleSensors
  try dsimp only
  repeat' first
    | with_reducible assumption | with_reducible apply Keeps.modEng | with_reducible apply Engine.takeLevels_keeps
    | with_reducible apply State.thermalFaults_keeps | with_reducible exact EngKeeps.refl _ | (intro _) | split
    | with_reducible refine EngKeeps.upd ?_ rfl rfl rfl | with_reducible refine Keeps.upd ?_ rfl rfl

end Sys2Proof.Machine
end

