-- ==== Sys2Proof/Laws/KeepsWindowOps.lean ====
section
/-! SUPPORT. What the operations of Machine/WindowOps keep (Laws/Keeps). -/

namespace Sys2Proof.Machine

theorem State.touch_keeps {r : State} : ∀ (s : State) e, Keeps r s → Keeps r (State.touch s e) := by
  intro s e h0
  unfold State.touch
  try dsimp only
  repeat' first
    | with_reducible assumption | with_reducible apply Engine.wake_keeps | with_reducible apply State.wake_keeps
    | with_reducible exact EngKeeps.refl _ | (intro _) | split

theorem Engine.modFunc_keeps {w : Engine} : ∀ (x : Engine) port p f, EngKeeps w x →
    EngKeeps w (Engine.modFunc x port p f) := by
  intro x port p f h0
  unfold Engine.modFunc
  try dsimp only
  repeat' first
    | with_reducible assumption | with_reducible exact EngKeeps.refl _ | (intro _)
    | with_reducible refine EngKeeps.upd ?_ rfl rfl rfl

theorem State.aerError_keeps {r : State} : ∀ (s : State) e port p b, Keeps r s → Keeps r (State.aerError s e port p b) := by
  intro s e port p b h0
  unfold State.aerError
  try dsimp only
  repeat' first
    | with_reducible assumption | with_reducible apply Keeps.modEng | with_reducible apply Engine.modFunc_keeps
    | with_reducible apply Engine.modPort_keeps | with_reducible apply State.detect_keeps
    | with_reducible exact EngKeeps.refl _ | (intro _) | with_reducible refine EngKeeps.upd ?_ rfl rfl rfl
    | with_reducible refine Keeps.upd ?_ rfl rfl

theorem State.otherAccess_keeps {r : State} : ∀ (s : State) src v, Keeps r s → Keeps r (State.otherAccess s src v) := by
  intro s src v h0
  unfold State.otherAccess
  try dsimp only
  repeat' first
    | with_reducible assumption | with_reducible apply Keeps.send | with_reducible apply State.aerError_keeps
    | with_reducible apply Keeps.modEng | with_reducible apply Engine.modFunc_keeps
    | with_reducible exact EngKeeps.refl _ | (intro _) | with_reducible refine Keeps.ofSnd ?_ (by assumption)
    | with_reducible refine Keeps.ofFst ?_ (by assumption) | split | with_reducible refine EngKeeps.upd ?_ rfl rfl rfl
    | with_reducible refine Keeps.upd ?_ rfl rfl

theorem State.access_keeps {r : State} : ∀ (s : State) src v f, Keeps r s → (∀ u, Keeps r u → Keeps r (f u)) →
    Keeps r (State.access s src v f) := by
  intro s src v f h0 hf0
  unfold State.access
  try dsimp only
  repeat' first
    | with_reducible assumption | with_reducible apply hf0 | with_reducible apply State.otherAccess_keeps
    | with_reducible apply State.touch_keeps | with_reducible exact EngKeeps.refl _ | (intro _) | split

theorem State.badAccess_keeps {r : State} : ∀ (s : State) e p off, Keeps r s → Keeps r (State.badAccess s e p off) := by
  intro s e p off h0
  unfold State.badAccess
  try dsimp only
  repeat' first
    | with_reducible assumption | with_reducible apply State.setPflt_keeps | with_reducible apply State.detect_keeps
    | with_reducible apply State.access_keeps | with_reducible exact EngKeeps.refl _ | (intro _)
    | with_reducible refine EngKeeps.upd ?_ rfl rfl rfl | with_reducible refine Keeps.upd ?_ rfl rfl

theorem State.submitStream_keeps {r : State} : ∀ (s : State) op q, Keeps r s → Keeps r (State.submitStream s op q) := by
  intro s op q h0
  unfold State.submitStream
  try dsimp only
  repeat' first
    | with_reducible assumption | with_reducible apply State.touch_keeps | with_reducible apply State.badAccess_keeps
    | with_reducible apply Keeps.modStream | with_reducible apply State.goStream_keeps
    | with_reducible exact EngKeeps.refl _ | (intro _) | split | with_reducible refine EngKeeps.upd ?_ rfl rfl rfl
    | with_reducible refine Keeps.upd ?_ rfl rfl

theorem State.onStream_keeps {r : State} : ∀ (s : State) a reg f, Keeps r s → (∀ a0, Keeps r a0 → Keeps r (f a0)) →
    Keeps r (State.onStream s a reg f) := by
  intro s a reg f h0 h1
  unfold State.onStream
  split
  · exact h0
  · split
    · exact State.badAccess_keeps _ _ _ _ (State.touch_keeps _ _ h0)
    · exact h1 _ (State.touch_keeps _ _ h0)

theorem State.controlWord_keeps {r : State} : ∀ (s : State) a w0, Keeps r s → Keeps r (State.controlWord s a w0) := by
  intro s a w0 h0
  unfold State.controlWord
  try dsimp only
  repeat' first
    | with_reducible assumption | with_reducible apply Keeps.modStream | with_reducible apply State.controlStream_keeps
    | with_reducible exact EngKeeps.refl _ | (intro _) | split | with_reducible refine EngKeeps.upd ?_ rfl rfl rfl
    | with_reducible refine Keeps.upd ?_ rfl rfl

end Sys2Proof.Machine
end

