-- ==== Sys2Proof/Laws/KeepsNearMem.lean ====
section
/-! SUPPORT. What the operations of Machine/NearMem keep (Laws/Keeps). -/

namespace Sys2Proof.Machine

theorem Engine.putRow_keeps {w : Engine} : ∀ (x : Engine) w0 bs, EngKeeps w x → EngKeeps w (Engine.putRow x w0 bs) := by
  intro x w0 bs h0
  exact h0.pool (fun k => Memory.wf_writeBytes _ _ (Memory.wf_writeBytes _ _ k)) rfl rfl rfl rfl rfl

theorem State.poisonRow_keeps {r : State} : ∀ (s : State) e p a, Keeps r s → Keeps r (State.poisonRow s e p a) := by
  intro s e p a h0
  unfold State.poisonRow
  try dsimp only
  repeat' first
    | with_reducible assumption | with_reducible apply State.modTensor_keeps | with_reducible exact EngKeeps.refl _
    | (intro _) | with_reducible refine Keeps.ofSnd ?_ (by assumption)
    | with_reducible refine Keeps.ofFst ?_ (by assumption) | split | with_reducible refine EngKeeps.upd ?_ rfl rfl rfl
    | with_reducible refine Keeps.upd ?_ rfl rfl

theorem State.scrubRow_keeps {r : State} : ∀ (s : State) e p a, Keeps r s → Keeps r (State.scrubRow s e p a) := by
  intro s e p a h0
  unfold State.scrubRow
  try dsimp only
  repeat' first
    | with_reducible assumption | with_reducible apply State.modTensor_keeps | with_reducible exact EngKeeps.refl _
    | (intro _) | with_reducible refine Keeps.ofSnd ?_ (by assumption)
    | with_reducible refine Keeps.ofFst ?_ (by assumption) | split | with_reducible refine EngKeeps.upd ?_ rfl rfl rfl
    | with_reducible refine Keeps.upd ?_ rfl rfl

theorem Engine.modChannel_keeps {w : Engine} : ∀ (x : Engine) ch f, EngKeeps w x →
    EngKeeps w (Engine.modChannel x ch f) := by
  intro x ch f h0
  unfold Engine.modChannel
  try dsimp only
  repeat' first
    | with_reducible assumption | with_reducible exact EngKeeps.refl _ | (intro _)
    | with_reducible refine EngKeeps.upd ?_ rfl rfl rfl

theorem State.modChannel_keeps {r : State} : ∀ (s : State) e ch f, Keeps r s → Keeps r (State.modChannel s e ch f) := by
  intro s e ch f h0
  unfold State.modChannel
  try dsimp only
  repeat' first
    | with_reducible assumption | with_reducible apply Keeps.modEng | with_reducible apply Engine.modChannel_keeps
    | with_reducible exact EngKeeps.refl _ | (intro _)

theorem State.modNmx_keeps {r : State} : ∀ (s : State) e p f, Keeps r s → Keeps r (State.modNmx s e p f) := by
  intro s e p f h0
  unfold State.modNmx
  try dsimp only
  repeat' first
    | with_reducible assumption | with_reducible apply Keeps.modWin | with_reducible exact EngKeeps.refl _ | (intro _)
    | with_reducible refine EngKeeps.upd ?_ rfl rfl rfl | with_reducible refine Keeps.upd ?_ rfl rfl

theorem State.endNmx_keeps {r : State} : ∀ (s : State) e p st at_, Keeps r s → Keeps r (State.endNmx s e p st at_) := by
  intro s e p st at_ h0
  unfold State.endNmx
  try dsimp only
  repeat' first
    | with_reducible assumption | with_reducible apply State.modNmx_keeps
    | with_reducible apply State.signalBlock_keeps | with_reducible exact EngKeeps.refl _ | (intro _)
    | with_reducible refine EngKeeps.upd ?_ rfl rfl rfl | with_reducible refine Keeps.upd ?_ rfl rfl

theorem State.lockNmx_keeps {r : State} : ∀ (s : State) e p, Keeps r s → Keeps r (State.lockNmx s e p) := by
  intro s e p h0
  unfold State.lockNmx
  try dsimp only
  repeat' first
    | with_reducible assumption | with_reducible apply State.modNmx_keeps | with_reducible exact EngKeeps.refl _
    | (intro _) | split | with_reducible refine EngKeeps.upd ?_ rfl rfl rfl
    | with_reducible refine Keeps.upd ?_ rfl rfl

theorem State.goNmx_keeps {r : State} : ∀ (s : State) e p w0, Keeps r s → Keeps r (State.goNmx s e p w0) := by
  intro s e p w0 h0
  unfold State.goNmx
  try dsimp only
  repeat' first
    | with_reducible assumption | with_reducible apply State.modNmx_keeps | with_reducible apply State.endNmx_keeps
    | with_reducible apply State.lockNmx_keeps | with_reducible exact EngKeeps.refl _ | (intro _)
    | with_reducible refine Keeps.ofSnd ?_ (by assumption) | with_reducible refine Keeps.ofFst ?_ (by assumption)
    | split | with_reducible refine EngKeeps.upd ?_ rfl rfl rfl | with_reducible refine Keeps.upd ?_ rfl rfl

theorem execNmxGo_keeps {r : State} : ∀ src w0 (s : State), Keeps r s → ∀ z, execNmxGo src w0 s = .next z → Keeps r z := by
  intro src w0 s h0 u hu
  unfold execNmxGo at hu
  repeat' first | (injection hu with hu; subst hu) | split at hu
  all_goals try dsimp only
  repeat' first
    | with_reducible assumption | with_reducible apply State.access_keeps | with_reducible apply State.badAccess_keeps
    | with_reducible apply State.goNmx_keeps | with_reducible exact EngKeeps.refl _ | (intro _) | split

theorem Engine.activate_keeps {w : Engine} : ∀ (x : Engine) w0, EngKeeps w x → EngKeeps w (Engine.activate x w0) := by
  intro x w0 h0
  unfold Engine.activate
  try dsimp only
  repeat' first
    | with_reducible assumption | with_reducible exact EngKeeps.refl _ | (intro _) | split
    | with_reducible refine EngKeeps.upd ?_ rfl rfl rfl

theorem State.nmxRow_keeps {r : State} : ∀ (s : State) e p b i, Keeps r s → Keeps r (State.nmxRow s e p b i) := by
  intro s e p b i h0
  unfold State.nmxRow
  try dsimp only
  repeat' first
    | with_reducible assumption | with_reducible apply Keeps.modEng | with_reducible apply Engine.putRow_keeps
    | with_reducible apply Engine.activate_keeps | with_reducible apply State.poisonRow_keeps
    | with_reducible apply State.scrubRow_keeps | with_reducible apply Keeps.foldl
    | with_reducible apply Keeps.foldlSnd | with_reducible apply Keeps.foldlFst | with_reducible apply EngKeeps.foldl
    | with_reducible exact EngKeeps.refl _ | (intro _) | split

theorem State.reparity_keeps {r : State} : ∀ (s : State) (s0 : State) t0 pl g j, Keeps r s →
    Keeps r (State.reparity s s0 t0 pl g j) := by
  intro s s0 t0 pl g j h0
  unfold State.reparity
  try dsimp only
  repeat' first
    | with_reducible assumption | with_reducible apply State.putPlace_keeps | with_reducible apply Keeps.foldl
    | with_reducible apply Keeps.foldlSnd | with_reducible apply Keeps.foldlFst | with_reducible apply EngKeeps.foldl
    | with_reducible exact EngKeeps.refl _ | (intro _) | with_reducible refine Keeps.ofSnd ?_ (by assumption)
    | with_reducible refine Keeps.ofFst ?_ (by assumption) | split | with_reducible refine EngKeeps.upd ?_ rfl rfl rfl
    | with_reducible refine Keeps.upd ?_ rfl rfl

theorem State.reparityRow_keeps {r : State} : ∀ (s : State) (s0 : State) e p a, Keeps r s →
    Keeps r (State.reparityRow s s0 e p a) := by
  intro s s0 e p a h0
  unfold State.reparityRow
  try dsimp only
  repeat' first
    | with_reducible assumption | with_reducible apply State.reparity_keeps | with_reducible apply Keeps.foldl
    | with_reducible apply Keeps.foldlSnd | with_reducible apply Keeps.foldlFst | with_reducible apply EngKeeps.foldl
    | with_reducible exact EngKeeps.refl _ | (intro _) | with_reducible refine Keeps.ofSnd ?_ (by assumption)
    | with_reducible refine Keeps.ofFst ?_ (by assumption) | split | with_reducible refine EngKeeps.upd ?_ rfl rfl rfl
    | with_reducible refine Keeps.upd ?_ rfl rfl

theorem State.nmxStep_keeps {r : State} : ∀ (s : State) e ch p hit, Keeps r s → Keeps r (State.nmxStep s e ch p hit) := by
  intro s e ch p hit h0
  unfold State.nmxStep
  try dsimp only
  repeat' first
    | with_reducible assumption | with_reducible apply State.nmxRow_keeps
    | with_reducible apply State.reparityRow_keeps | with_reducible apply Engine.modChannel_keeps
    | with_reducible apply State.modChannel_keeps | with_reducible apply State.poisonRow_keeps
    | with_reducible apply State.pfltEvent_keeps | with_reducible apply State.modNmx_keeps
    | with_reducible exact EngKeeps.refl _ | (intro _) | with_reducible refine Keeps.ofSnd ?_ (by assumption)
    | with_reducible refine Keeps.ofFst ?_ (by assumption) | split | with_reducible refine EngKeeps.upd ?_ rfl rfl rfl
    | with_reducible refine Keeps.upd ?_ rfl rfl

theorem State.expertRows_keeps {r : State} : ∀ (s : State) e ch out k0 a0, Keeps r s →
    Keeps r (State.expertRows s e ch out k0 a0) := by
  intro s e ch out k0 a0 h0
  unfold State.expertRows
  try dsimp only
  repeat' first
    | with_reducible assumption | with_reducible apply State.nmxStep_keeps
    | with_reducible apply State.expertRows_keeps | with_reducible exact EngKeeps.refl _ | (intro _)
    | with_reducible refine Keeps.ofSnd ?_ (by assumption) | with_reducible refine Keeps.ofFst ?_ (by assumption)
    | split | with_reducible refine EngKeeps.upd ?_ rfl rfl rfl | with_reducible refine Keeps.upd ?_ rfl rfl

theorem execNmxComplete_keeps {r : State} : ∀ e p last (s : State), Keeps r s →
    ∀ z, execNmxComplete e p last s = .next z → Keeps r z := by
  intro e p last s h0 u hu
  unfold execNmxComplete at hu
  repeat' first | (injection hu with hu; subst hu) | split at hu
  all_goals try dsimp only
  repeat' first
    | with_reducible assumption | with_reducible apply State.lockNmx_keeps | with_reducible apply State.endNmx_keeps
    | with_reducible exact EngKeeps.refl _ | (intro _) | with_reducible refine Keeps.ofSnd ?_ (by assumption)
    | with_reducible refine Keeps.ofFst ?_ (by assumption) | split | with_reducible refine EngKeeps.upd ?_ rfl rfl rfl
    | with_reducible refine Keeps.upd ?_ rfl rfl

theorem State.xlate_keeps {r : State} : ∀ (s : State) e p off, Keeps r s → Keeps r (State.xlate s e p off) := by
  intro s e p off h0
  unfold State.xlate
  try dsimp only
  repeat' first
    | with_reducible assumption | with_reducible apply Keeps.draw | with_reducible apply State.modNmx_keeps
    | with_reducible exact EngKeeps.refl _ | (intro _) | with_reducible refine Keeps.ofSnd ?_ (by assumption)
    | with_reducible refine Keeps.ofFst ?_ (by assumption) | split | with_reducible refine EngKeeps.upd ?_ rfl rfl rfl
    | with_reducible refine Keeps.upd ?_ rfl rfl

theorem execXlateStart_keeps {r : State} : ∀ src off (s : State), Keeps r s → ∀ z, execXlateStart src off s = .next z →
    Keeps r z := by
  intro src off s h0 u hu
  unfold execXlateStart at hu
  repeat' first | (injection hu with hu; subst hu) | split at hu
  all_goals try dsimp only
  repeat' first
    | with_reducible assumption | with_reducible apply State.access_keeps | with_reducible apply State.badAccess_keeps
    | with_reducible apply State.xlate_keeps | with_reducible exact EngKeeps.refl _ | (intro _) | split

theorem Engine.activateCopy_keeps {w : Engine} : ∀ (x : Engine) b credits, EngKeeps w x →
    EngKeeps w (Engine.activateCopy x b credits) := by
  intro x b credits h0
  unfold Engine.activateCopy
  try dsimp only
  repeat' first
    | with_reducible assumption | with_reducible apply Engine.activate_keeps | with_reducible apply Keeps.foldl
    | with_reducible apply Keeps.foldlSnd | with_reducible apply Keeps.foldlFst | with_reducible apply EngKeeps.foldl
    | with_reducible exact EngKeeps.refl _ | (intro _)

theorem State.walkOn_keeps {r : State} : ∀ (s : State) p n e ch pace a0, Keeps r s →
    Keeps r (State.walkOn s p n e ch pace a0).1 := by
  intro s p n e ch pace a0 h0
  unfold State.walkOn
  try dsimp only
  repeat' first
    | with_reducible assumption | with_reducible apply State.modEpoch_keeps | with_reducible apply Keeps.modEng
    | with_reducible apply Engine.activateCopy_keeps | with_reducible apply Engine.modChannel_keeps
    | with_reducible apply State.modChannel_keeps | with_reducible apply State.walkOn_keeps
    | with_reducible exact EngKeeps.refl _ | (intro _) | with_reducible refine Keeps.ofSnd ?_ (by assumption)
    | with_reducible refine Keeps.ofFst ?_ (by assumption) | split | with_reducible refine EngKeeps.upd ?_ rfl rfl rfl
    | with_reducible refine Keeps.upd ?_ rfl rfl

theorem State.walkFenced_keeps {r : State} : ∀ (s : State) p n e, Keeps r s → Keeps r (State.walkFenced s p n e) := by
  intro s p n e h0
  unfold State.walkFenced
  try dsimp only
  repeat' first
    | with_reducible assumption | with_reducible apply State.modEpoch_keeps | with_reducible apply Keeps.foldl
    | with_reducible apply Keeps.foldlSnd | with_reducible apply Keeps.foldlFst | with_reducible apply EngKeeps.foldl
    | with_reducible exact EngKeeps.refl _ | (intro _) | with_reducible refine EngKeeps.upd ?_ rfl rfl rfl
    | with_reducible refine Keeps.upd ?_ rfl rfl

theorem State.copyWindow_keeps {r : State} : ∀ (s : State) e ch, Keeps r s → Keeps r (State.copyWindow s e ch) := by
  intro s e ch h0
  unfold State.copyWindow
  try dsimp only
  repeat' first
    | with_reducible assumption | with_reducible apply State.walkOn_keeps | with_reducible apply State.walkFenced_keeps
    | with_reducible apply Keeps.foldl | with_reducible apply Keeps.foldlSnd | with_reducible apply Keeps.foldlFst
    | with_reducible apply EngKeeps.foldl | with_reducible exact EngKeeps.refl _ | (intro _)
    | with_reducible refine Keeps.ofSnd ?_ (by assumption) | with_reducible refine Keeps.ofFst ?_ (by assumption)
    | split

theorem execMaintenanceWindow_keeps {r : State} : ∀ e w (s : State), Keeps r s →
    ∀ z, execMaintenanceWindow e w s = .next z → Keeps r z := by
  intro e w s h0 u hu
  unfold execMaintenanceWindow at hu
  repeat' first | (injection hu with hu; subst hu) | split at hu
  all_goals try dsimp only
  repeat' first
    | with_reducible assumption | with_reducible apply Engine.modChannel_keeps
    | with_reducible apply State.modChannel_keeps | with_reducible apply State.lockNmx_keeps
    | with_reducible apply State.copyWindow_keeps | with_reducible apply State.expertRows_keeps
    | with_reducible apply Keeps.foldl | with_reducible apply Keeps.foldlSnd | with_reducible apply Keeps.foldlFst
    | with_reducible apply EngKeeps.foldl | with_reducible exact EngKeeps.refl _ | (intro _) | split

theorem State.demandOne_keeps {r : State} : ∀ (s : State) p n e ch stuck b, Keeps r s →
    Keeps r (State.demandOne s p n e ch stuck b) := by
  intro s p n e ch stuck b h0
  unfold State.demandOne
  try dsimp only
  repeat' first
    | with_reducible assumption | with_reducible apply State.modEpoch_keeps | with_reducible apply Keeps.modEng
    | with_reducible apply Engine.activateCopy_keeps | with_reducible apply Engine.modChannel_keeps
    | with_reducible apply State.modChannel_keeps | with_reducible exact EngKeeps.refl _ | (intro _)
    | with_reducible refine Keeps.ofSnd ?_ (by assumption) | with_reducible refine Keeps.ofFst ?_ (by assumption)
    | split | with_reducible refine EngKeeps.upd ?_ rfl rfl rfl | with_reducible refine Keeps.upd ?_ rfl rfl

theorem execDemandWindow_keeps {r : State} : ∀ e w (s : State), Keeps r s →
    ∀ z, execDemandWindow e w s = .next z → Keeps r z := by
  intro e w s h0 u hu
  unfold execDemandWindow at hu
  repeat' first | (injection hu with hu; subst hu) | split at hu
  all_goals try dsimp only
  repeat' first
    | with_reducible assumption | with_reducible apply State.demandOne_keeps | with_reducible apply Keeps.foldl
    | with_reducible apply Keeps.foldlSnd | with_reducible apply Keeps.foldlFst | with_reducible apply EngKeeps.foldl
    | with_reducible exact EngKeeps.refl _ | (intro _) | split

theorem execModeTimeout_keeps {r : State} : ∀ e ch (s : State), Keeps r s → ∀ z, execModeTimeout e ch s = .next z →
    Keeps r z := by
  intro e ch s h0 u hu
  unfold execModeTimeout at hu
  repeat' first | (injection hu with hu; subst hu) | split at hu
  all_goals try dsimp only
  repeat' first
    | with_reducible assumption | with_reducible apply Engine.modChannel_keeps
    | with_reducible apply State.modChannel_keeps | with_reducible apply State.detect_keeps
    | with_reducible apply State.access_keeps | with_reducible exact EngKeeps.refl _ | (intro _) | split
    | with_reducible refine EngKeeps.upd ?_ rfl rfl rfl | with_reducible refine Keeps.upd ?_ rfl rfl

theorem execModuleTempSample_keeps {r : State} : ∀ e m temp (s : State), Keeps r s →
    ∀ z, execModuleTempSample e m temp s = .next z → Keeps r z := by
  intro e m temp s h0 u hu
  unfold execModuleTempSample at hu
  repeat' first | (injection hu with hu; subst hu) | split at hu
  all_goals try dsimp only
  repeat' first
    | with_reducible assumption | with_reducible apply State.sampleSensors_keeps | with_reducible exact EngKeeps.refl _
    | (intro _) | split

end Sys2Proof.Machine
end

