-- ==== Sys2Proof/Laws/KeepsDigest.lean ====
section
/-! SUPPORT. What the operations of Machine/Digest keep (Laws/Keeps). -/

namespace Sys2Proof.Machine

theorem State.modRun_keeps {r : State} : ∀ (s : State) e p f, Keeps r s → Keeps r (State.modRun s e p f) := by
  intro s e p f h0
  unfold State.modRun
  try dsimp only
  repeat' first
    | with_reducible assumption | with_reducible apply Keeps.modWin
    | refine ProgRun.run_keeps _ _ ?_ _ (by with_reducible assumption) | with_reducible exact EngKeeps.refl _
    | (intro _) | with_reducible refine EngKeeps.upd ?_ rfl rfl rfl | with_reducible refine Keeps.upd ?_ rfl rfl

theorem State.lockDgx_keeps {r : State} : ∀ (s : State) e p, Keeps r s → Keeps r (State.lockDgx s e p) := by
  intro s e p h0
  unfold State.lockDgx
  try dsimp only
  repeat' first
    | with_reducible assumption | refine ProgRun.run_keeps _ _ ?_ _ (by with_reducible assumption)
    | with_reducible apply State.modRun_keeps | with_reducible exact EngKeeps.refl _ | (intro _)
    | with_reducible refine Keeps.ofSnd ?_ (by assumption) | with_reducible refine Keeps.ofFst ?_ (by assumption)
    | split | with_reducible refine EngKeeps.upd ?_ rfl rfl rfl | with_reducible refine Keeps.upd ?_ rfl rfl

theorem State.giveLane_keeps {r : State} : ∀ (s : State) e p lane, Keeps r s → Keeps r (State.giveLane s e p lane) := by
  intro s e p lane h0
  unfold State.giveLane
  try dsimp only
  repeat' first
    | with_reducible assumption | with_reducible apply Keeps.modEng | with_reducible apply State.modRun_keeps
    | with_reducible apply Keeps.modWin | with_reducible exact EngKeeps.refl _ | (intro _) | split
    | with_reducible refine EngKeeps.upd ?_ rfl rfl rfl | with_reducible refine Keeps.upd ?_ rfl rfl

theorem State.grantLane_keeps {r : State} : ∀ (s : State) e p, Keeps r s → Keeps r (State.grantLane s e p) := by
  intro s e p h0
  unfold State.grantLane
  try dsimp only
  repeat' first
    | with_reducible assumption | refine ProgRun.run_keeps _ _ ?_ _ (by with_reducible assumption)
    | with_reducible apply State.endDgx_keeps | with_reducible apply Keeps.pick
    | with_reducible apply State.giveLane_keeps | with_reducible exact EngKeeps.refl _ | (intro _)
    | with_reducible refine Keeps.ofSnd ?_ (by assumption) | with_reducible refine Keeps.ofFst ?_ (by assumption)
    | split | with_reducible refine EngKeeps.upd ?_ rfl rfl rfl | with_reducible refine Keeps.upd ?_ rfl rfl

theorem State.grantLanes_keeps {r : State} : ∀ (s : State) e, Keeps r s → Keeps r (State.grantLanes s e) := by
  intro s e h0
  unfold State.grantLanes
  try dsimp only
  repeat' first
    | with_reducible assumption | with_reducible apply State.lockDgx_keeps | with_reducible apply State.grantLane_keeps
    | with_reducible apply Keeps.foldl | with_reducible apply Keeps.foldlSnd | with_reducible apply Keeps.foldlFst
    | with_reducible apply EngKeeps.foldl | with_reducible exact EngKeeps.refl _ | (intro _)

theorem State.goDgx_keeps {r : State} : ∀ (s : State) e p path w0 list fail, Keeps r s →
    Keeps r (State.goDgx s e p path w0 list fail) := by
  intro s e p path w0 list fail h0
  unfold State.goDgx
  try dsimp only
  repeat' first
    | with_reducible assumption | with_reducible apply Keeps.modWin
    | refine ProgRun.run_keeps _ _ ?_ _ (by with_reducible assumption) | with_reducible apply State.endDgx_keeps
    | with_reducible apply State.grantLanes_keeps | with_reducible exact EngKeeps.refl _ | (intro _)
    | with_reducible refine Keeps.ofSnd ?_ (by assumption) | with_reducible refine Keeps.ofFst ?_ (by assumption)
    | split | with_reducible refine EngKeeps.upd ?_ rfl rfl rfl | with_reducible refine Keeps.upd ?_ rfl rfl

theorem execDgxGo_keeps {r : State} : ∀ src w0 list fail (s : State), Keeps r s →
    ∀ z, execDgxGo src w0 list fail s = .next z → Keeps r z := by
  intro src w0 list fail s h0 u hu
  unfold execDgxGo at hu
  repeat' first | (injection hu with hu; subst hu) | split at hu
  all_goals try dsimp only
  repeat' first
    | with_reducible assumption | with_reducible apply State.access_keeps | with_reducible apply State.badAccess_keeps
    | with_reducible apply State.goDgx_keeps | with_reducible exact EngKeeps.refl _ | (intro _) | split

theorem State.finishDgx_keeps {r : State} : ∀ (s : State) e p r0 lane msg upset, Keeps r s →
    Keeps r (State.finishDgx s e p r0 lane msg upset) := by
  intro s e p r0 lane msg upset h0
  unfold State.finishDgx
  try dsimp only
  repeat' first
    | with_reducible assumption | with_reducible apply State.detect_keeps | with_reducible apply State.access_keeps
    | refine ProgRun.run_keeps _ _ ?_ _ (by with_reducible assumption) | with_reducible apply State.freeLane_keeps
    | with_reducible apply State.endDgx_keeps | with_reducible apply Keeps.modWin
    | with_reducible apply State.signalBlock_keeps | with_reducible exact EngKeeps.refl _ | (intro _) | split
    | with_reducible refine EngKeeps.upd ?_ rfl rfl rfl | with_reducible refine Keeps.upd ?_ rfl rfl

theorem State.completeDgx_keeps {r : State} : ∀ (s : State) e p host fail upset, Keeps r s →
    Keeps r (State.completeDgx s e p host fail upset) := by
  intro s e p host fail upset h0
  unfold State.completeDgx
  try dsimp only
  repeat' first
    | with_reducible assumption | refine ProgRun.run_keeps _ _ ?_ _ (by with_reducible assumption)
    | with_reducible apply State.freeLane_keeps | with_reducible apply State.endDgx_keeps
    | with_reducible apply State.pfltEvent_keeps | with_reducible apply State.finishDgx_keeps
    | with_reducible exact EngKeeps.refl _ | (intro _) | with_reducible refine Keeps.ofSnd ?_ (by assumption)
    | with_reducible refine Keeps.ofFst ?_ (by assumption) | split | with_reducible refine EngKeeps.upd ?_ rfl rfl rfl
    | with_reducible refine Keeps.upd ?_ rfl rfl

theorem execDgxComplete_keeps {r : State} : ∀ e p host fail upset (s : State), Keeps r s →
    ∀ z, execDgxComplete e p host fail upset s = .next z → Keeps r z := by
  intro e p host fail upset s h0 u hu
  unfold execDgxComplete at hu
  repeat' first | (injection hu with hu; subst hu) | split at hu
  all_goals try dsimp only
  repeat' first
    | with_reducible assumption | with_reducible apply State.grantLanes_keeps
    | with_reducible apply State.completeDgx_keeps | with_reducible exact EngKeeps.refl _ | (intro _) | split

theorem execDigestPreempt_keeps {r : State} : ∀ e lane (s : State), Keeps r s →
    ∀ z, execDigestPreempt e lane s = .next z → Keeps r z := by
  intro e lane s h0 u hu
  unfold execDigestPreempt at hu
  repeat' first | (injection hu with hu; subst hu) | split at hu
  all_goals try dsimp only
  repeat' first
    | with_reducible assumption | with_reducible apply Keeps.modEng | with_reducible apply State.modRun_keeps
    | with_reducible exact EngKeeps.refl _ | (intro _) | with_reducible refine Keeps.ofSnd ?_ (by assumption)
    | with_reducible refine Keeps.ofFst ?_ (by assumption) | split | with_reducible refine EngKeeps.upd ?_ rfl rfl rfl
    | with_reducible refine Keeps.upd ?_ rfl rfl

theorem execDigestResume_keeps {r : State} : ∀ e ctx (s : State), Keeps r s → ∀ z, execDigestResume e ctx s = .next z →
    Keeps r z := by
  intro e ctx s h0 u hu
  unfold execDigestResume at hu
  repeat' first | (injection hu with hu; subst hu) | split at hu
  all_goals try dsimp only
  repeat' first
    | with_reducible assumption | with_reducible apply Keeps.pick | with_reducible apply Keeps.modEng
    | with_reducible apply State.giveLane_keeps | with_reducible exact EngKeeps.refl _ | (intro _)
    | with_reducible refine Keeps.ofSnd ?_ (by assumption) | with_reducible refine Keeps.ofFst ?_ (by assumption)
    | split | with_reducible refine EngKeeps.upd ?_ rfl rfl rfl | with_reducible refine Keeps.upd ?_ rfl rfl

theorem execDigestLaneFail_keeps {r : State} : ∀ e lane (s : State), Keeps r s →
    ∀ z, execDigestLaneFail e lane s = .next z → Keeps r z := by
  intro e lane s h0 u hu
  unfold execDigestLaneFail at hu
  repeat' first | (injection hu with hu; subst hu) | split at hu
  all_goals try dsimp only
  repeat' first
    | with_reducible assumption | with_reducible apply State.detect_keeps | with_reducible apply State.grantLanes_keeps
    | with_reducible exact EngKeeps.refl _ | (intro _) | split | with_reducible refine EngKeeps.upd ?_ rfl rfl rfl
    | with_reducible refine Keeps.upd ?_ rfl rfl

theorem execCompressLaneFail_keeps {r : State} : ∀ e lane (s : State), Keeps r s →
    ∀ z, execCompressLaneFail e lane s = .next z → Keeps r z := by
  intro e lane s h0 u hu
  unfold execCompressLaneFail at hu
  repeat' first | (injection hu with hu; subst hu) | split at hu
  all_goals try dsimp only
  repeat' first
    | with_reducible assumption | with_reducible apply State.detect_keeps | with_reducible apply State.pruneLanes_keeps
    | with_reducible exact EngKeeps.refl _ | (intro _) | split | with_reducible refine EngKeeps.upd ?_ rfl rfl rfl
    | with_reducible refine Keeps.upd ?_ rfl rfl

end Sys2Proof.Machine
end

