-- ==== Sys2Proof/Laws/KeepsWindowWrite.lean ====
section
/-! SUPPORT. What the operations of Machine/WindowWrite keep (Laws/Keeps). -/

namespace Sys2Proof.Machine

theorem State.writeLock_keeps {r : State} : ∀ (s : State) e b v, Keeps r s → Keeps r (State.writeLock s e b v) := by
  intro s e b v h0
  unfold State.writeLock
  try dsimp only
  repeat' first
    | with_reducible assumption | with_reducible apply State.modFlt_keeps | with_reducible exact EngKeeps.refl _
    | (intro _) | with_reducible refine EngKeeps.upd ?_ rfl rfl rfl | with_reducible refine Keeps.upd ?_ rfl rfl

theorem State.writeFlt_keeps {r : State} : ∀ (s : State) e b o v, Keeps r s → Keeps r (State.writeFlt s e b o v) := by
  intro s e b o v h0
  unfold State.writeFlt
  try dsimp only
  repeat' first
    | with_reducible assumption | with_reducible apply State.clearFaults_keeps
    | with_reducible apply State.writeLock_keeps | with_reducible apply State.injectFaults_keeps
    | with_reducible apply State.relevel_keeps | with_reducible apply State.modFlt_keeps
    | with_reducible apply Keeps.foldl | with_reducible apply Keeps.foldlSnd | with_reducible apply Keeps.foldlFst
    | with_reducible apply EngKeeps.foldl | with_reducible exact EngKeeps.refl _ | (intro _)
    | with_reducible refine Keeps.ofSnd ?_ (by assumption) | with_reducible refine Keeps.ofFst ?_ (by assumption)
    | split | with_reducible refine EngKeeps.upd ?_ rfl rfl rfl | with_reducible refine Keeps.upd ?_ rfl rfl

theorem State.hostBytes_keeps {r : State} : ∀ (s : State) n, Keeps r s → Keeps r (State.hostBytes s n).2 := by
  intro s n h0
  unfold State.hostBytes
  try dsimp only
  repeat' first
    | with_reducible assumption | with_reducible apply Keeps.draw | with_reducible exact EngKeeps.refl _ | (intro _)

theorem State.writeNmx_keeps {r : State} : ∀ (s : State) e p o v, Keeps r s → Keeps r (State.writeNmx s e p o v) := by
  intro s e p o v h0
  unfold State.writeNmx
  try dsimp only
  repeat' first
    | with_reducible assumption | with_reducible apply State.modNmx_keeps | with_reducible apply State.goNmx_keeps
    | with_reducible apply State.xlate_keeps | with_reducible exact EngKeeps.refl _ | (intro _)
    | with_reducible refine Keeps.ofSnd ?_ (by assumption) | with_reducible refine Keeps.ofFst ?_ (by assumption)
    | split | with_reducible refine EngKeeps.upd ?_ rfl rfl rfl | with_reducible refine Keeps.upd ?_ rfl rfl

theorem State.writeDgx_keeps {r : State} : ∀ (s : State) e p path o v, Keeps r s →
    Keeps r (State.writeDgx s e p path o v) := by
  intro s e p path o v h0
  unfold State.writeDgx
  try dsimp only
  repeat' first
    | with_reducible assumption | with_reducible apply State.hostBytes_keeps | with_reducible apply State.goDgx_keeps
    | with_reducible apply Keeps.modWin | with_reducible exact EngKeeps.refl _ | (intro _) | split
    | with_reducible refine EngKeeps.upd ?_ rfl rfl rfl | with_reducible refine Keeps.upd ?_ rfl rfl

theorem State.ringDoorbell_keeps {r : State} : ∀ (s : State) e p path, Keeps r s →
    Keeps r (State.ringDoorbell s e p path) := by
  intro s e p path h0
  unfold State.ringDoorbell
  try dsimp only
  repeat' first
    | with_reducible assumption | with_reducible apply State.hostBytes_keeps | with_reducible apply submitMailbox_keeps
    | with_reducible exact EngKeeps.refl _ | (intro _)

theorem State.writeStream_keeps {r : State} : ∀ (s : State) a path o w0 v, Keeps r s →
    Keeps r (State.writeStream s a path o w0 v) := by
  intro s a path o w0 v h0
  unfold State.writeStream
  try dsimp only
  repeat' first
    | with_reducible assumption | with_reducible apply Keeps.modStream | with_reducible apply State.goStream_keeps
    | with_reducible apply State.controlWord_keeps | with_reducible exact EngKeeps.refl _ | (intro _)
    | with_reducible refine Keeps.ofSnd ?_ (by assumption) | with_reducible refine Keeps.ofFst ?_ (by assumption)
    | split | with_reducible refine EngKeeps.upd ?_ rfl rfl rfl | with_reducible refine Keeps.upd ?_ rfl rfl

theorem State.writeReg_keeps {r : State} : ∀ (s : State) e p path o w0 v, Keeps r s →
    Keeps r (State.writeReg s e p path o w0 v) := by
  intro s e p path o w0 v h0
  unfold State.writeReg
  try dsimp only
  repeat' first
    | with_reducible assumption | with_reducible apply State.badAccess_keeps
    | with_reducible apply State.ringDoorbell_keeps | with_reducible apply Keeps.modWin
    | with_reducible apply State.writeStream_keeps | with_reducible apply State.writeNmx_keeps
    | with_reducible apply State.writeDgx_keeps | with_reducible apply State.writeFlt_keeps
    | with_reducible exact EngKeeps.refl _ | (intro _) | split

theorem State.writeWindow_keeps {r : State} : ∀ (s : State) e p path off a0 a1, Keeps r s →
    Keeps r (State.writeWindow s e p path off a0 a1) := by
  intro s e p path off a0 a1 h0
  unfold State.writeWindow
  try dsimp only
  repeat' first
    | with_reducible assumption | with_reducible apply State.writeReg_keeps
    | with_reducible apply State.writeWindow_keeps | with_reducible apply State.badAccess_keeps
    | with_reducible exact EngKeeps.refl _ | (intro _) | split

theorem execRegisterWrite_keeps {r : State} : ∀ src off data (s : State), Keeps r s →
    ∀ z, execRegisterWrite src off data s = .next z → Keeps r z := by
  intro src off data s h0 u hu
  unfold execRegisterWrite at hu
  repeat' first | (injection hu with hu; subst hu) | split at hu
  all_goals try dsimp only
  repeat' first
    | with_reducible assumption | with_reducible apply State.access_keeps
    | with_reducible apply State.writeWindow_keeps | with_reducible exact EngKeeps.refl _ | (intro _)

theorem execEvrEnable_keeps {r : State} : ∀ src (s : State), Keeps r s → ∀ z, execEvrEnable src s = .next z →
    Keeps r z := by
  intro src s h0 u hu
  unfold execEvrEnable at hu
  repeat' first | (injection hu with hu; subst hu) | split at hu
  all_goals try dsimp only
  repeat' first
    | with_reducible assumption | with_reducible apply State.access_keeps | with_reducible apply State.modRing_keeps
    | with_reducible exact EngKeeps.refl _ | (intro _)

theorem execHeldEventsRelease_keeps {r : State} : ∀ e p (s : State), Keeps r s →
    ∀ z, execHeldEventsRelease e p s = .next z → Keeps r z := by
  intro e p s h0 u hu
  unfold execHeldEventsRelease at hu
  repeat' first | (injection hu with hu; subst hu) | split at hu
  all_goals try dsimp only
  repeat' first
    | with_reducible assumption | with_reducible apply State.ringFlush_keeps | with_reducible exact EngKeeps.refl _
    | (intro _) | split

theorem execEvrFailure_keeps {r : State} : ∀ e p (s : State), Keeps r s → ∀ z, execEvrFailure e p s = .next z →
    Keeps r z := by
  intro e p s h0 u hu
  unfold execEvrFailure at hu
  repeat' first | (injection hu with hu; subst hu) | split at hu
  all_goals try dsimp only
  repeat' first
    | with_reducible assumption | with_reducible apply State.modRing_keeps | with_reducible apply Keeps.modEng
    | with_reducible apply State.detect_keeps | with_reducible apply State.access_keeps
    | with_reducible exact EngKeeps.refl _ | (intro _) | split | with_reducible refine EngKeeps.upd ?_ rfl rfl rfl
    | with_reducible refine Keeps.upd ?_ rfl rfl

theorem execCoalesceTimeout_keeps {r : State} : ∀ e p v (s : State), Keeps r s →
    ∀ z, execCoalesceTimeout e p v s = .next z → Keeps r z := by
  intro e p v s h0 u hu
  unfold execCoalesceTimeout at hu
  repeat' first | (injection hu with hu; subst hu) | split at hu
  all_goals try dsimp only
  repeat' first
    | with_reducible assumption | with_reducible apply State.setCoal_keeps | with_reducible apply State.route_keeps
    | with_reducible exact EngKeeps.refl _ | (intro _) | split

theorem State.releaseMsix_keeps {r : State} : ∀ (s : State) e p port v, Keeps r s →
    Keeps r (State.releaseMsix s e p port v) := by
  intro s e p port v h0
  unfold State.releaseMsix
  try dsimp only
  repeat' first
    | with_reducible assumption | with_reducible apply Keeps.modWin | with_reducible apply State.toMsix_keeps
    | with_reducible exact EngKeeps.refl _ | (intro _) | split | with_reducible refine EngKeeps.upd ?_ rfl rfl rfl
    | with_reducible refine Keeps.upd ?_ rfl rfl

theorem execMsixPendingRelease_keeps {r : State} : ∀ e p v (s : State), Keeps r s →
    ∀ z, execMsixPendingRelease e p v s = .next z → Keeps r z := by
  intro e p v s h0 u hu
  unfold execMsixPendingRelease at hu
  repeat' first | (injection hu with hu; subst hu) | split at hu
  all_goals try dsimp only
  repeat' first
    | with_reducible assumption | with_reducible apply State.releaseMsix_keeps | with_reducible exact EngKeeps.refl _
    | (intro _) | with_reducible refine Keeps.ofSnd ?_ (by assumption)
    | with_reducible refine Keeps.ofFst ?_ (by assumption) | split | with_reducible refine EngKeeps.upd ?_ rfl rfl rfl
    | with_reducible refine Keeps.upd ?_ rfl rfl

end Sys2Proof.Machine
end

