-- ==== Sys2Proof/Laws/KeepsPorts.lean ====
section
/-! SUPPORT. What the operations of Machine/Ports keep (Laws/Keeps). -/

namespace Sys2Proof.Machine

theorem execLinkUp_keeps {r : State} : ∀ e port mode (s : State), Keeps r s → ∀ z, execLinkUp e port mode s = .next z →
    Keeps r z := by
  intro e port mode s h0 z hz
  unfold execLinkUp at hz
  extract_lets x src none_ at hz
  have hn : Keeps r none_ := State.detect_keeps _ _ _ h0
  clear_value none_
  injection hz with hz
  rw [← hz]
  split
  · exact h0
  · split
    · exact hn
    · split
      · dsimp only
        have h1 (q : Engine → Port → Port) : Keeps r (s.modEng e (fun x => x.modPort port (q x))) :=
          h0.modEng (fun x => Engine.modPort_keeps _ _ _ (EngKeeps.refl x))
        split
        · exact State.reconnect_keeps _ (h1 _)
        · exact h1 _
      · exact hn

theorem execLinkDown_keeps {r : State} : ∀ e port loss (s : State), Keeps r s →
    ∀ z, execLinkDown e port loss s = .next z → Keeps r z := by
  intro e port loss s h0 u hu
  unfold execLinkDown at hu
  repeat' first | (injection hu with hu; subst hu) | split at hu
  all_goals try dsimp only
  repeat' first
    | with_reducible assumption | with_reducible apply Keeps.modEng | with_reducible apply Engine.modPort_keeps
    | with_reducible apply State.detect_keeps | with_reducible apply State.pruneQueues_keeps
    | with_reducible exact EngKeeps.refl _ | (intro _) | split | with_reducible refine EngKeeps.upd ?_ rfl rfl rfl
    | with_reducible refine Keeps.upd ?_ rfl rfl

theorem State.windowKey_keeps {r : State} : ∀ (s : State) e p, Keeps r s → Keeps r (State.windowKey s e p).2 := by
  intro s e p h0
  unfold State.windowKey
  try dsimp only
  repeat' first
    | with_reducible assumption | with_reducible apply Keeps.draw | with_reducible apply Keeps.modWin
    | with_reducible exact EngKeeps.refl _ | (intro _) | with_reducible refine Keeps.ofSnd ?_ (by assumption)
    | with_reducible refine Keeps.ofFst ?_ (by assumption) | split | with_reducible refine EngKeeps.upd ?_ rfl rfl rfl
    | with_reducible refine Keeps.upd ?_ rfl rfl

theorem execRdmaConnectRequest_keeps {r : State} : ∀ e port rc gid data qp (s : State), Keeps r s →
    ∀ z, execRdmaConnectRequest e port rc gid data qp s = .next z → Keeps r z := by
  intro e port rc gid data qp s h0 u hu
  unfold execRdmaConnectRequest at hu
  repeat' first | (injection hu with hu; subst hu) | split at hu
  all_goals try dsimp only
  repeat' first
    | with_reducible assumption | with_reducible apply State.windowKey_keeps | with_reducible apply Keeps.modEng
    | with_reducible apply Keeps.send | with_reducible exact EngKeeps.refl _ | (intro _)
    | with_reducible refine Keeps.ofSnd ?_ (by assumption) | with_reducible refine Keeps.ofFst ?_ (by assumption)
    | split | with_reducible refine EngKeeps.upd ?_ rfl rfl rfl | with_reducible refine Keeps.upd ?_ rfl rfl

theorem execPfcPauseReceived_keeps {r : State} : ∀ e port dur (s : State), Keeps r s →
    ∀ z, execPfcPauseReceived e port dur s = .next z → Keeps r z := by
  intro e port dur s h0 u hu
  unfold execPfcPauseReceived at hu
  repeat' first | (injection hu with hu; subst hu) | split at hu
  all_goals try dsimp only
  repeat' first
    | with_reducible assumption | with_reducible apply Keeps.modEng | with_reducible exact EngKeeps.refl _ | (intro _)
    | split | with_reducible refine EngKeeps.upd ?_ rfl rfl rfl | with_reducible refine Keeps.upd ?_ rfl rfl

theorem execPfcPauseSend_keeps {r : State} : ∀ e port fill (s : State), Keeps r s →
    ∀ z, execPfcPauseSend e port fill s = .next z → Keeps r z := by
  intro e port fill s h0 u hu
  unfold execPfcPauseSend at hu
  repeat' first | (injection hu with hu; subst hu) | split at hu
  all_goals try dsimp only
  repeat' first
    | with_reducible assumption | with_reducible apply Keeps.send | with_reducible exact EngKeeps.refl _ | (intro _)
    | split

theorem State.modQp_keeps {r : State} : ∀ (s : State) e qpn f, Keeps r s → Keeps r (State.modQp s e qpn f) := by
  intro s e qpn f h0
  unfold State.modQp
  try dsimp only
  repeat' first
    | with_reducible assumption | with_reducible apply Keeps.modEng | with_reducible exact EngKeeps.refl _ | (intro _)
    | split | with_reducible refine EngKeeps.upd ?_ rfl rfl rfl | with_reducible refine Keeps.upd ?_ rfl rfl

theorem State.modPair_keeps {r : State} : ∀ (s : State) t0 f, Keeps r s → Keeps r (State.modPair s t0 f) := by
  intro s t0 f h0
  unfold State.modPair
  try dsimp only
  repeat' first
    | with_reducible assumption | exact fun (_ : Volume) h => h
    | exact fun (_ : Volume) h => Memory.wf_writeBytes _ _ h | exact fun (_ : Volume) h => Memory.wf_clear _ _ h
    | exact fun (_ : Volume) h => by split <;> exact h | with_reducible apply State.modVolume_keeps
    | with_reducible exact EngKeeps.refl _ | (intro _) | with_reducible refine EngKeeps.upd ?_ rfl rfl rfl
    | with_reducible refine Keeps.upd ?_ rfl rfl

theorem execEcnCeReceived_keeps {r : State} : ∀ e qpn (s : State), Keeps r s →
    ∀ z, execEcnCeReceived e qpn s = .next z → Keeps r z := by
  intro e qpn s h0 u hu
  unfold execEcnCeReceived at hu
  repeat' first | (injection hu with hu; subst hu) | split at hu
  all_goals try dsimp only
  repeat' first
    | with_reducible assumption | with_reducible apply State.modQp_keeps | with_reducible apply Keeps.send
    | with_reducible apply State.modPair_keeps | with_reducible exact EngKeeps.refl _ | (intro _)
    | with_reducible refine Keeps.ofSnd ?_ (by assumption) | with_reducible refine Keeps.ofFst ?_ (by assumption)
    | split | with_reducible refine EngKeeps.upd ?_ rfl rfl rfl | with_reducible refine Keeps.upd ?_ rfl rfl

theorem execCnpReceived_keeps {r : State} : ∀ e qpn (s : State), Keeps r s → ∀ z, execCnpReceived e qpn s = .next z →
    Keeps r z := by
  intro e qpn s h0 u hu
  unfold execCnpReceived at hu
  repeat' first | (injection hu with hu; subst hu) | split at hu
  all_goals try dsimp only
  repeat' first
    | with_reducible assumption | with_reducible apply State.modQp_keeps | with_reducible apply State.modPair_keeps
    | with_reducible exact EngKeeps.refl _ | (intro _) | with_reducible refine Keeps.ofSnd ?_ (by assumption)
    | with_reducible refine Keeps.ofFst ?_ (by assumption) | split | with_reducible refine EngKeeps.upd ?_ rfl rfl rfl
    | with_reducible refine Keeps.upd ?_ rfl rfl

theorem execFunctionLevelReset_keeps {r : State} : ∀ e port p (s : State), Keeps r s →
    ∀ z, execFunctionLevelReset e port p s = .next z → Keeps r z := by
  intro e port p s h0 u hu
  unfold execFunctionLevelReset at hu
  repeat' first | (injection hu with hu; subst hu) | split at hu
  all_goals try dsimp only
  repeat' first
    | with_reducible assumption | with_reducible apply Keeps.modEng | with_reducible apply Engine.modFunc_keeps
    | with_reducible apply State.startReset_keeps | with_reducible exact EngKeeps.refl _ | (intro _) | split
    | with_reducible refine EngKeeps.upd ?_ rfl rfl rfl | with_reducible refine Keeps.upd ?_ rfl rfl

theorem State.postReady_keeps {r : State} : ∀ (s : State) p, Keeps r s → Keeps r (State.postReady s p) := by
  intro s p h0
  unfold State.postReady
  try dsimp only
  repeat' first
    | with_reducible assumption | with_reducible apply State.completeMailbox_keeps | with_reducible apply Keeps.foldl
    | with_reducible apply Keeps.foldlSnd | with_reducible apply Keeps.foldlFst | with_reducible apply EngKeeps.foldl
    | with_reducible exact EngKeeps.refl _ | (intro _)

theorem State.finishReset_keeps {r : State} : ∀ (s : State) p r0, Keeps r s → Keeps r (State.finishReset s p r0) := by
  intro s p r0 h0
  unfold State.finishReset
  try dsimp only
  repeat' first
    | with_reducible assumption | with_reducible apply State.postReady_keeps | with_reducible apply Keeps.modEngines
    | with_reducible apply Engine.clearWindow_keeps | with_reducible apply Keeps.modWin
    | with_reducible apply State.signalV0_keeps | with_reducible apply Keeps.modPart
    | with_reducible exact EngKeeps.refl _ | (intro _) | with_reducible refine EngKeeps.upd ?_ rfl rfl rfl
    | with_reducible refine Keeps.upd ?_ rfl rfl

theorem execResetDone_keeps {r : State} : ∀ p (s : State), Keeps r s → ∀ z, execResetDone p s = .next z → Keeps r z := by
  intro p s h0 u hu
  unfold execResetDone at hu
  repeat' first | (injection hu with hu; subst hu) | split at hu
  all_goals try dsimp only
  repeat' first
    | with_reducible assumption | with_reducible apply State.finishReset_keeps
    | with_reducible apply State.deletePartition_keeps | with_reducible apply State.answerJobs_keeps
    | with_reducible apply State.startReset_keeps | with_reducible exact EngKeeps.refl _ | (intro _)
    | with_reducible refine Keeps.ofSnd ?_ (by assumption) | with_reducible refine Keeps.ofFst ?_ (by assumption)
    | split | with_reducible refine EngKeeps.upd ?_ rfl rfl rfl | with_reducible refine Keeps.upd ?_ rfl rfl

end Sys2Proof.Machine
end

