-- ==== Sys2Proof/Laws/KeepsDrainRows.lean ====
section
/-! SUPPORT. What the operations of Machine/DrainRows keep (Laws/Keeps). -/

namespace Sys2Proof.Machine

theorem State.storeFull_keeps {r : State} : ∀ (s : State) e, Keeps r s → Keeps r (State.storeFull s e) := by
  intro s e h0
  unfold State.storeFull
  try dsimp only
  repeat' first
    | with_reducible assumption | with_reducible apply State.mgmtFault_keeps | with_reducible exact EngKeeps.refl _
    | (intro _)

theorem State.payShard_keeps {r : State} : ∀ (s : State) p n i e h, Keeps r s → Keeps r (State.payShard s p n i e h).2 := by
  intro s p n i e h h0
  unfold State.payShard
  try dsimp only
  repeat' first
    | with_reducible assumption | with_reducible apply State.payStore_keeps | with_reducible apply State.setShard_keeps
    | with_reducible exact EngKeeps.refl _ | (intro _) | with_reducible refine EngKeeps.upd ?_ rfl rfl rfl
    | with_reducible refine Keeps.upd ?_ rfl rfl

theorem State.flushDrain_keeps {r : State} : ∀ (s : State) p n src, Keeps r s → Keeps r (State.flushDrain s p n src) := by
  intro s p n src h0
  unfold State.flushDrain
  try dsimp only
  repeat' first
    | with_reducible assumption | with_reducible apply State.flushVolume_keeps
    | with_reducible apply State.modEpoch_keeps | with_reducible apply Keeps.foldl
    | with_reducible apply Keeps.foldlSnd | with_reducible apply Keeps.foldlFst | with_reducible apply EngKeeps.foldl
    | with_reducible exact EngKeeps.refl _ | (intro _) | with_reducible refine Keeps.ofSnd ?_ (by assumption)
    | with_reducible refine Keeps.ofFst ?_ (by assumption) | split | with_reducible refine EngKeeps.upd ?_ rfl rfl rfl
    | with_reducible refine Keeps.upd ?_ rfl rfl

theorem State.shardWritten_keeps {r : State} : ∀ (s : State) p n i ptr h, Keeps r s →
    Keeps r (State.shardWritten s p n i ptr h) := by
  intro s p n i ptr h h0
  unfold State.shardWritten
  try dsimp only
  repeat' first
    | with_reducible assumption | with_reducible apply State.writePtr_keeps | with_reducible apply State.setShard_keeps
    | with_reducible apply State.flushDrain_keeps | with_reducible apply State.modEpoch_keeps
    | with_reducible exact EngKeeps.refl _ | (intro _) | with_reducible refine EngKeeps.upd ?_ rfl rfl rfl
    | with_reducible refine Keeps.upd ?_ rfl rfl

theorem State.endShardWrite_keeps {r : State} : ∀ (s : State) p n i h res, Keeps r s →
    Keeps r (State.endShardWrite s p n i h res) := by
  intro s p n i h res h0
  unfold State.endShardWrite
  try dsimp only
  repeat' first
    | with_reducible assumption | refine State.takeBlocks_keeps _ _ ?_ _ _ (by with_reducible assumption)
    | with_reducible apply State.storeFull_keeps | with_reducible apply State.setShard_keeps
    | with_reducible apply State.loseConnection_keeps | with_reducible apply Keeps.modEng
    | with_reducible apply Engine.dropBlock_keeps | with_reducible apply State.shardWritten_keeps
    | with_reducible exact EngKeeps.refl _ | (intro _) | with_reducible refine Keeps.ofSnd ?_ (by assumption)
    | with_reducible refine Keeps.ofFst ?_ (by assumption) | split | with_reducible refine EngKeeps.upd ?_ rfl rfl rfl
    | with_reducible refine Keeps.upd ?_ rfl rfl

theorem execShardWriteComplete_keeps {r : State} : ∀ p n i res (s : State), Keeps r s →
    ∀ z, execShardWriteComplete p n i res s = .next z → Keeps r z := by
  intro p n i res s h0 u hu
  unfold execShardWriteComplete at hu
  repeat' first | (injection hu with hu; subst hu) | split at hu
  all_goals try dsimp only
  repeat' first
    | with_reducible assumption | with_reducible apply State.payShard_keeps
    | with_reducible apply State.codecLane_keeps | with_reducible apply State.endShardWrite_keeps
    | with_reducible exact EngKeeps.refl _ | (intro _) | with_reducible refine Keeps.ofSnd ?_ (by assumption)
    | with_reducible refine Keeps.ofFst ?_ (by assumption) | split | with_reducible refine EngKeeps.upd ?_ rfl rfl rfl
    | with_reducible refine Keeps.upd ?_ rfl rfl

theorem State.laneUpset_keeps {r : State} : ∀ (s : State) e lane, Keeps r s → Keeps r (State.laneUpset s e lane) := by
  intro s e lane h0
  unfold State.laneUpset
  try dsimp only
  repeat' first
    | with_reducible assumption | with_reducible apply State.detect_keeps | with_reducible apply State.access_keeps
    | with_reducible exact EngKeeps.refl _ | (intro _) | with_reducible refine EngKeeps.upd ?_ rfl rfl rfl
    | with_reducible refine Keeps.upd ?_ rfl rfl

theorem State.endPlainDrain_keeps {r : State} : ∀ (s : State) p n, Keeps r s → Keeps r (State.endPlainDrain s p n) := by
  intro s p n h0
  unfold State.endPlainDrain
  try dsimp only
  repeat' first
    | with_reducible assumption | with_reducible apply Keeps.endCampaign | with_reducible apply State.modEpoch_keeps
    | with_reducible exact EngKeeps.refl _ | (intro _) | with_reducible refine Keeps.ofSnd ?_ (by assumption)
    | with_reducible refine Keeps.ofFst ?_ (by assumption) | split | with_reducible refine EngKeeps.upd ?_ rfl rfl rfl
    | with_reducible refine Keeps.upd ?_ rfl rfl

theorem State.shardPasses_keeps {r : State} : ∀ (s : State) p n i ep h, Keeps r s →
    Keeps r (State.shardPasses s p n i ep h) := by
  intro s p n i ep h h0
  unfold State.shardPasses
  try dsimp only
  repeat' first
    | with_reducible assumption | with_reducible apply State.freeRun_keeps | with_reducible apply State.setShard_keeps
    | with_reducible apply Keeps.modEng | with_reducible apply State.stageEpoch_keeps
    | with_reducible apply State.endPlainDrain_keeps | with_reducible apply Keeps.foldl
    | with_reducible apply Keeps.foldlSnd | with_reducible apply Keeps.foldlFst | with_reducible apply EngKeeps.foldl
    | with_reducible exact EngKeeps.refl _ | (intro _) | split | with_reducible refine EngKeeps.upd ?_ rfl rfl rfl
    | with_reducible refine Keeps.upd ?_ rfl rfl

theorem State.verifyRead_keeps {r : State} : ∀ (s : State) ep h, Keeps r s → Keeps r (State.verifyRead s ep h) := by
  intro s ep h h0
  unfold State.verifyRead
  try dsimp only
  repeat' first
    | with_reducible assumption | with_reducible apply State.storeRead_keeps | with_reducible exact EngKeeps.refl _
    | (intro _) | split

theorem State.verifyWaits_keeps {r : State} : ∀ (s : State) p n i ep h, Keeps r s →
    Keeps r (State.verifyWaits s p n i ep h).2 := by
  intro s p n i ep h h0
  unfold State.verifyWaits
  try dsimp only
  repeat' first
    | with_reducible assumption | with_reducible apply State.payShard_keeps | with_reducible exact EngKeeps.refl _
    | (intro _) | split

theorem State.endVerify_keeps {r : State} : ∀ (s : State) p n i l ep h got upset, Keeps r s →
    Keeps r (State.endVerify s p n i l ep h got upset) := by
  intro s p n i l ep h got upset h0
  unfold State.endVerify
  try dsimp only
  repeat' first
    | with_reducible assumption | with_reducible apply State.verifyRead_keeps
    | with_reducible apply State.freeLane_keeps | with_reducible apply State.loseConnection_keeps
    | with_reducible apply State.shardFails_keeps | with_reducible apply State.laneUpset_keeps
    | with_reducible apply State.shardPasses_keeps | with_reducible exact EngKeeps.refl _ | (intro _)
    | with_reducible refine Keeps.ofSnd ?_ (by assumption) | with_reducible refine Keeps.ofFst ?_ (by assumption)
    | split | with_reducible refine EngKeeps.upd ?_ rfl rfl rfl | with_reducible refine Keeps.upd ?_ rfl rfl

theorem execShardVerified_keeps {r : State} : ∀ p n i read (s : State), Keeps r s →
    ∀ z, execShardVerified p n i read s = .next z → Keeps r z := by
  intro p n i read s h0 u hu
  unfold execShardVerified at hu
  repeat' first | (injection hu with hu; subst hu) | split at hu
  all_goals try dsimp only
  repeat' first
    | with_reducible assumption | with_reducible apply State.verifyWaits_keeps
    | with_reducible apply State.shelfLane_keeps | with_reducible apply State.endVerify_keeps
    | with_reducible exact EngKeeps.refl _ | (intro _) | with_reducible refine Keeps.ofSnd ?_ (by assumption)
    | with_reducible refine Keeps.ofFst ?_ (by assumption) | split | with_reducible refine EngKeeps.upd ?_ rfl rfl rfl
    | with_reducible refine Keeps.upd ?_ rfl rfl

theorem execManifestBuild_keeps {r : State} : ∀ p n w (s : State), Keeps r s →
    ∀ z, execManifestBuild p n w s = .next z → Keeps r z := by
  intro p n w s h0 u hu
  unfold execManifestBuild at hu
  repeat' first | (injection hu with hu; subst hu) | split at hu
  all_goals try dsimp only
  repeat' first
    | with_reducible assumption | with_reducible apply State.failEpoch_keeps
    | with_reducible apply State.shelfLane_keeps | with_reducible apply State.freeLane_keeps
    | refine State.takeBlocks_keeps _ _ ?_ _ _ (by with_reducible assumption)
    | with_reducible apply State.storeFull_keeps | with_reducible apply State.modEpoch_keeps
    | with_reducible apply State.loseConnection_keeps | with_reducible apply State.writePtr_keeps
    | with_reducible exact EngKeeps.refl _ | (intro _) | with_reducible refine Keeps.ofSnd ?_ (by assumption)
    | with_reducible refine Keeps.ofFst ?_ (by assumption) | split | with_reducible refine EngKeeps.upd ?_ rfl rfl rfl
    | with_reducible refine Keeps.upd ?_ rfl rfl

theorem State.commitFails_keeps {r : State} : ∀ (s : State) p n, Keeps r s → Keeps r (State.commitFails s p n) := by
  intro s p n h0
  unfold State.commitFails
  try dsimp only
  repeat' first
    | with_reducible assumption | with_reducible apply State.modEpoch_keeps
    | with_reducible apply State.failEpoch_keeps | with_reducible exact EngKeeps.refl _ | (intro _) | split
    | with_reducible refine EngKeeps.upd ?_ rfl rfl rfl | with_reducible refine Keeps.upd ?_ rfl rfl

theorem State.manifestFails_keeps {r : State} : ∀ (s : State) p n, Keeps r s → Keeps r (State.manifestFails s p n) := by
  intro s p n h0
  unfold State.manifestFails
  try dsimp only
  repeat' first
    | with_reducible assumption | with_reducible apply State.modEpoch_keeps
    | with_reducible apply State.commitFails_keeps | with_reducible exact EngKeeps.refl _ | (intro _)
    | with_reducible refine EngKeeps.upd ?_ rfl rfl rfl | with_reducible refine Keeps.upd ?_ rfl rfl

theorem execManifestReadback_keeps {r : State} : ∀ p n read (s : State), Keeps r s →
    ∀ z, execManifestReadback p n read s = .next z → Keeps r z := by
  intro p n read s h0 u hu
  unfold execManifestReadback at hu
  repeat' first | (injection hu with hu; subst hu) | split at hu
  all_goals try dsimp only
  repeat' first
    | with_reducible assumption | with_reducible apply State.shelfLane_keeps
    | with_reducible apply State.storeRead_keeps | with_reducible apply State.freeLane_keeps
    | with_reducible apply State.loseConnection_keeps | with_reducible apply State.manifestFails_keeps
    | with_reducible apply State.laneUpset_keeps | with_reducible apply State.modEpoch_keeps
    | with_reducible exact EngKeeps.refl _ | (intro _) | with_reducible refine Keeps.ofSnd ?_ (by assumption)
    | with_reducible refine Keeps.ofFst ?_ (by assumption) | split | with_reducible refine EngKeeps.upd ?_ rfl rfl rfl
    | with_reducible refine Keeps.upd ?_ rfl rfl

theorem State.committed_keeps {r : State} : ∀ (s : State) p n e gen ep time, Keeps r s →
    Keeps r (State.committed s p n e gen ep time) := by
  intro s p n e gen ep time h0
  unfold State.committed
  try dsimp only
  repeat' first
    | with_reducible assumption | with_reducible apply State.freeRun_keeps | with_reducible apply Keeps.endCampaign
    | with_reducible apply State.modEpoch_keeps | with_reducible apply Keeps.modPart
    | with_reducible apply State.journal_keeps | with_reducible apply Keeps.foldl | with_reducible apply Keeps.foldlSnd
    | with_reducible apply Keeps.foldlFst | with_reducible apply EngKeeps.foldl | with_reducible exact EngKeeps.refl _
    | (intro _) | split | with_reducible refine EngKeeps.upd ?_ rfl rfl rfl
    | with_reducible refine Keeps.upd ?_ rfl rfl

theorem execCommitRecordWritten_keeps {r : State} : ∀ p n e res (s : State), Keeps r s →
    ∀ z, execCommitRecordWritten p n e res s = .next z → Keeps r z := by
  intro p n e res s h0 u hu
  unfold execCommitRecordWritten at hu
  repeat' first | (injection hu with hu; subst hu) | split at hu
  all_goals try dsimp only
  repeat' first
    | with_reducible assumption | with_reducible apply State.commitFails_keeps
    | with_reducible apply State.loseConnection_keeps | with_reducible apply State.writePtr_keeps
    | with_reducible apply State.committed_keeps | with_reducible exact EngKeeps.refl _ | (intro _)
    | with_reducible refine Keeps.ofSnd ?_ (by assumption) | with_reducible refine Keeps.ofFst ?_ (by assumption)
    | split | with_reducible refine EngKeeps.upd ?_ rfl rfl rfl | with_reducible refine Keeps.upd ?_ rfl rfl

theorem execEpochRetire_keeps {r : State} : ∀ p n (s : State), Keeps r s → ∀ z, execEpochRetire p n s = .next z →
    Keeps r z := by
  intro p n s h0 u hu
  unfold execEpochRetire at hu
  repeat' first | (injection hu with hu; subst hu) | split at hu
  all_goals try dsimp only
  repeat' first
    | with_reducible assumption | with_reducible apply State.retireEpoch_keeps | with_reducible exact EngKeeps.refl _
    | (intro _) | with_reducible refine Keeps.ofSnd ?_ (by assumption)
    | with_reducible refine Keeps.ofFst ?_ (by assumption) | split | with_reducible refine EngKeeps.upd ?_ rfl rfl rfl
    | with_reducible refine Keeps.upd ?_ rfl rfl

theorem State.resumeDrains_keeps {r : State} : ∀ (s : State), Keeps r s → Keeps r (State.resumeDrains s) := by
  intro s h0
  unfold State.resumeDrains
  try dsimp only
  repeat' first
    | with_reducible assumption | with_reducible apply State.stageEpoch_keeps | with_reducible apply Keeps.foldl
    | with_reducible apply Keeps.foldlSnd | with_reducible apply Keeps.foldlFst | with_reducible apply EngKeeps.foldl
    | with_reducible exact EngKeeps.refl _ | (intro _) | split

theorem execDrainRetry_keeps {r : State} : ∀ p n (s : State), Keeps r s → ∀ z, execDrainRetry p n s = .next z →
    Keeps r z := by
  intro p n s h0 u hu
  unfold execDrainRetry at hu
  repeat' first | (injection hu with hu; subst hu) | split at hu
  all_goals try dsimp only
  repeat' first
    | with_reducible assumption | with_reducible apply State.reconnect_keeps
    | with_reducible apply State.freeWaiting_keeps | with_reducible apply State.resumeDrains_keeps
    | with_reducible exact EngKeeps.refl _ | (intro _) | split

end Sys2Proof.Machine
end

