-- ==== Sys2Proof/Laws/KeepsMembership.lean ====
section
/-! SUPPORT. What the operations of Machine/Membership keep (Laws/Keeps). -/

namespace Sys2Proof.Machine

theorem State.noteQuorum_keeps {r : State} : ∀ (s : State) e, Keeps r s → Keeps r (State.noteQuorum s e) := by
  intro s e h0
  unfold State.noteQuorum
  try dsimp only
  repeat' first
    | with_reducible assumption | with_reducible apply Keeps.modEng | with_reducible exact EngKeeps.refl _ | (intro _)
    | split | with_reducible refine EngKeeps.upd ?_ rfl rfl rfl | with_reducible refine Keeps.upd ?_ rfl rfl

theorem execHeartbeat_keeps {r : State} : ∀ e heard (s : State), Keeps r s → ∀ z, execHeartbeat e heard s = .next z →
    Keeps r z := by
  intro e heard s h0 u hu
  unfold execHeartbeat at hu
  repeat' first | (injection hu with hu; subst hu) | split at hu
  all_goals try dsimp only
  repeat' first
    | with_reducible assumption | with_reducible apply Keeps.modEng | with_reducible apply State.noteQuorum_keeps
    | with_reducible apply Keeps.foldl | with_reducible apply Keeps.foldlSnd | with_reducible apply Keeps.foldlFst
    | with_reducible apply EngKeeps.foldl | with_reducible exact EngKeeps.refl _ | (intro _) | split
    | with_reducible refine EngKeeps.upd ?_ rfl rfl rfl | with_reducible refine Keeps.upd ?_ rfl rfl

theorem execPeerUnreachable_keeps {r : State} : ∀ e peer (s : State), Keeps r s →
    ∀ z, execPeerUnreachable e peer s = .next z → Keeps r z := by
  intro e peer s h0 u hu
  unfold execPeerUnreachable at hu
  repeat' first | (injection hu with hu; subst hu) | split at hu
  all_goals try dsimp only
  repeat' first
    | with_reducible assumption | with_reducible apply Keeps.modEng | with_reducible apply State.noteQuorum_keeps
    | with_reducible apply Keeps.foldl | with_reducible apply Keeps.foldlSnd | with_reducible apply Keeps.foldlFst
    | with_reducible apply EngKeeps.foldl | with_reducible exact EngKeeps.refl _ | (intro _) | split
    | with_reducible refine EngKeeps.upd ?_ rfl rfl rfl | with_reducible refine Keeps.upd ?_ rfl rfl

theorem Run.breakOff_keeps {r : State} : ∀ r0 (s : State), Keeps r s → Keeps r (Run.breakOff r0 s) := by
  intro r0 s h0
  unfold Run.breakOff
  try dsimp only
  repeat' first
    | with_reducible assumption | with_reducible apply Run.partWrite_keeps | with_reducible apply State.mix_keeps
    | with_reducible apply Keeps.modPart | with_reducible exact EngKeeps.refl _ | (intro _)
    | with_reducible refine Keeps.ofSnd ?_ (by assumption) | with_reducible refine Keeps.ofFst ?_ (by assumption)
    | split | with_reducible refine EngKeeps.upd ?_ rfl rfl rfl | with_reducible refine Keeps.upd ?_ rfl rfl

theorem State.endCommands_keeps {r : State} : ∀ (s : State) e, Keeps r s → Keeps r (State.endCommands s e) := by
  intro s e h0
  unfold State.endCommands
  try dsimp only
  repeat' first
    | with_reducible assumption | with_reducible apply Run.breakOff_keeps | with_reducible apply Keeps.modEng
    | with_reducible apply Engine.returnTokens_keeps | with_reducible apply Keeps.foldl
    | with_reducible apply Keeps.foldlSnd | with_reducible apply Keeps.foldlFst | with_reducible apply EngKeeps.foldl
    | with_reducible exact EngKeeps.refl _ | (intro _) | with_reducible refine EngKeeps.upd ?_ rfl rfl rfl
    | with_reducible refine Keeps.upd ?_ rfl rfl

theorem State.loseQuorum_keeps {r : State} : ∀ (s : State) e, Keeps r s → Keeps r (State.loseQuorum s e) := by
  intro s e h0
  unfold State.loseQuorum
  try dsimp only
  repeat' first
    | with_reducible assumption | with_reducible apply State.endCommands_keeps | with_reducible apply Keeps.modEng
    | with_reducible apply State.memberEvent_keeps | with_reducible apply State.quorumCheck_keeps
    | with_reducible exact EngKeeps.refl _ | (intro _) | with_reducible refine EngKeeps.upd ?_ rfl rfl rfl
    | with_reducible refine Keeps.upd ?_ rfl rfl

theorem execNoQuorum_keeps {r : State} : ∀ e (s : State), Keeps r s → ∀ z, execNoQuorum e s = .next z → Keeps r z := by
  intro e s h0 u hu
  unfold execNoQuorum at hu
  repeat' first | (injection hu with hu; subst hu) | split at hu
  all_goals try dsimp only
  repeat' first
    | with_reducible assumption | with_reducible apply State.loseQuorum_keeps | with_reducible exact EngKeeps.refl _
    | (intro _) | split

theorem State.accept_keeps {r : State} : ∀ (s : State) e, Keeps r s → Keeps r (State.accept s e) := by
  intro s e h0
  unfold State.accept
  try dsimp only
  repeat' first
    | with_reducible assumption | with_reducible apply Keeps.modEng | with_reducible exact EngKeeps.refl _ | (intro _)
    | with_reducible refine Keeps.ofSnd ?_ (by assumption) | with_reducible refine Keeps.ofFst ?_ (by assumption)
    | split | with_reducible refine EngKeeps.upd ?_ rfl rfl rfl | with_reducible refine Keeps.upd ?_ rfl rfl

theorem State.sendProposal_keeps {r : State} : ∀ (s : State) leader num set, Keeps r s →
    Keeps r (State.sendProposal s leader num set) := by
  intro s leader num set h0
  unfold State.sendProposal
  try dsimp only
  repeat' first
    | with_reducible assumption | with_reducible apply State.accept_keeps | with_reducible exact EngKeeps.refl _
    | (intro _) | with_reducible refine EngKeeps.upd ?_ rfl rfl rfl | with_reducible refine Keeps.upd ?_ rfl rfl

theorem execPropose_keeps {r : State} : ∀ leader (s : State), Keeps r s → ∀ z, execPropose leader s = .next z →
    Keeps r z := by
  intro leader s h0 u hu
  unfold execPropose at hu
  repeat' first | (injection hu with hu; subst hu) | split at hu
  all_goals try dsimp only
  repeat' first
    | with_reducible assumption | with_reducible apply State.sendProposal_keeps | with_reducible exact EngKeeps.refl _
    | (intro _) | split

theorem execProposeReceived_keeps {r : State} : ∀ e (s : State), Keeps r s → ∀ z, execProposeReceived e s = .next z →
    Keeps r z := by
  intro e s h0 u hu
  unfold execProposeReceived at hu
  repeat' first | (injection hu with hu; subst hu) | split at hu
  all_goals try dsimp only
  repeat' first
    | with_reducible assumption | with_reducible apply State.accept_keeps | with_reducible exact EngKeeps.refl _
    | (intro _)

theorem execViewProposeTimeout_keeps {r : State} : ∀ (s : State), Keeps r s → ∀ z, execViewProposeTimeout s = .next z →
    Keeps r z := by
  intro s h0 u hu
  unfold execViewProposeTimeout at hu
  repeat' first | (injection hu with hu; subst hu) | split at hu
  all_goals try dsimp only
  repeat' first
    | with_reducible assumption | with_reducible apply State.sendProposal_keeps | with_reducible exact EngKeeps.refl _
    | (intro _) | with_reducible refine Keeps.ofSnd ?_ (by assumption)
    | with_reducible refine Keeps.ofFst ?_ (by assumption) | split | with_reducible refine EngKeeps.upd ?_ rfl rfl rfl
    | with_reducible refine Keeps.upd ?_ rfl rfl

theorem State.advanceCounter_keeps {r : State} : ∀ (s : State) e, Keeps r s → Keeps r (State.advanceCounter s e) := by
  intro s e h0
  unfold State.advanceCounter
  dsimp only
  split
  · exact h0
  · rename_i hp
    refine State.fwJournal_keeps _ _ _ _ _ (h0.setEng ?_)
    refine (EngKeeps.refl _).image id rfl rfl (fun k => ?_) (fun _ h => by simp at h)
    exact Nat.le_of_lt (k.2.2 (by simpa using hp))

theorem State.joinSeal_keeps {r : State} : ∀ (s : State) e, Keeps r s → Keeps r (State.joinSeal s e) := by
  intro s e h0
  unfold State.joinSeal
  try dsimp only
  repeat' first
    | with_reducible assumption | with_reducible apply State.sealOne_keeps | with_reducible exact EngKeeps.refl _
    | (intro _) | with_reducible refine Keeps.ofSnd ?_ (by assumption)
    | with_reducible refine Keeps.ofFst ?_ (by assumption) | split | with_reducible refine EngKeeps.upd ?_ rfl rfl rfl
    | with_reducible refine Keeps.upd ?_ rfl rfl

theorem State.joinOne_keeps {r : State} : ∀ (s : State) e, Keeps r s → Keeps r (State.joinOne s e) := by
  intro s e h0
  unfold State.joinOne
  dsimp only
  refine State.joinSeal_keeps _ _ (State.advanceCounter_keeps _ _ (Keeps.upd (h0.modEng (fun x => ?_)) rfl rfl))
  exact (EngKeeps.refl x).pool (fun _ => rfl) rfl rfl rfl rfl rfl

theorem State.firstView_keeps {r : State} : ∀ (s : State) set, Keeps r s → Keeps r (State.firstView s set) := by
  intro s set h0
  unfold State.firstView
  try dsimp only
  repeat' first
    | with_reducible assumption | with_reducible apply State.resumeWork_keeps
    | with_reducible apply ProgRun.store_keeps | with_reducible exact EngKeeps.refl _ | (intro _)
    | with_reducible refine Keeps.ofSnd ?_ (by assumption) | with_reducible refine Keeps.ofFst ?_ (by assumption)
    | split | with_reducible refine EngKeeps.upd ?_ rfl rfl rfl | with_reducible refine Keeps.upd ?_ rfl rfl

theorem State.loseAll_keeps {r : State} : ∀ (s : State), Keeps r s → Keeps r (State.loseAll s) := by
  intro s h0
  unfold State.loseAll
  try dsimp only
  repeat' first
    | with_reducible assumption | with_reducible apply State.discardState_keeps | with_reducible apply Keeps.foldl
    | with_reducible apply Keeps.foldlSnd | with_reducible apply Keeps.foldlFst | with_reducible apply EngKeeps.foldl
    | with_reducible exact EngKeeps.refl _ | (intro _)

theorem State.newView_keeps {r : State} : ∀ (s : State) num set, Keeps r s → Keeps r (State.newView s num set) := by
  intro s num set h0
  unfold State.newView
  try dsimp only
  repeat' first
    | with_reducible assumption | with_reducible apply State.loseQuorum_keeps
    | with_reducible apply State.firstView_keeps | with_reducible apply State.loseAll_keeps
    | with_reducible apply State.formView_keeps | with_reducible apply State.joinOne_keeps
    | with_reducible apply State.memberEvent_keeps | with_reducible apply State.loseGone_keeps
    | with_reducible apply State.nearEnd_keeps | with_reducible apply State.kickReshards_keeps
    | with_reducible apply Keeps.foldl | with_reducible apply Keeps.foldlSnd | with_reducible apply Keeps.foldlFst
    | with_reducible apply EngKeeps.foldl | with_reducible exact EngKeeps.refl _ | (intro _) | split
    | with_reducible refine EngKeeps.upd ?_ rfl rfl rfl | with_reducible refine Keeps.upd ?_ rfl rfl

theorem execViewFormed_keeps {r : State} : ∀ (s : State), Keeps r s → ∀ z, execViewFormed s = .next z → Keeps r z := by
  intro s h0 u hu
  unfold execViewFormed at hu
  repeat' first | (injection hu with hu; subst hu) | split at hu
  all_goals try dsimp only
  repeat' first
    | with_reducible assumption | with_reducible apply State.newView_keeps | with_reducible exact EngKeeps.refl _
    | (intro _) | with_reducible refine Keeps.ofSnd ?_ (by assumption)
    | with_reducible refine Keeps.ofFst ?_ (by assumption) | split | with_reducible refine EngKeeps.upd ?_ rfl rfl rfl
    | with_reducible refine Keeps.upd ?_ rfl rfl

theorem State.tryJoin_keeps {r : State} : ∀ (s : State) e, Keeps r s → Keeps r (State.tryJoin s e) := by
  intro s e h0
  unfold State.tryJoin
  try dsimp only
  repeat' first
    | with_reducible assumption | with_reducible apply Keeps.modEng | with_reducible apply State.newView_keeps
    | with_reducible exact EngKeeps.refl _ | (intro _) | with_reducible refine Keeps.ofSnd ?_ (by assumption)
    | with_reducible refine Keeps.ofFst ?_ (by assumption) | split | with_reducible refine EngKeeps.upd ?_ rfl rfl rfl
    | with_reducible refine Keeps.upd ?_ rfl rfl

theorem execEngineJoin_keeps {r : State} : ∀ e (s : State), Keeps r s → ∀ z, execEngineJoin e s = .next z → Keeps r z := by
  intro e s h0 u hu
  unfold execEngineJoin at hu
  repeat' first | (injection hu with hu; subst hu) | split at hu
  all_goals try dsimp only
  repeat' first
    | with_reducible assumption | with_reducible apply State.tryJoin_keeps | with_reducible exact EngKeeps.refl _
    | (intro _)

theorem execTimeJoinRecheck_keeps {r : State} : ∀ e (s : State), Keeps r s → ∀ z, execTimeJoinRecheck e s = .next z →
    Keeps r z := by
  intro e s h0 u hu
  unfold execTimeJoinRecheck at hu
  repeat' first | (injection hu with hu; subst hu) | split at hu
  all_goals try dsimp only
  repeat' first
    | with_reducible assumption | with_reducible apply State.tryJoin_keeps | with_reducible exact EngKeeps.refl _
    | (intro _) | split

theorem execDepartureAnnouncement_keeps {r : State} : ∀ e reason (s : State), Keeps r s →
    ∀ z, execDepartureAnnouncement e reason s = .next z → Keeps r z := by
  intro e reason s h0 u hu
  unfold execDepartureAnnouncement at hu
  repeat' first | (injection hu with hu; subst hu) | split at hu
  all_goals try dsimp only
  repeat' first
    | with_reducible assumption | with_reducible apply State.leave_keeps | with_reducible exact EngKeeps.refl _
    | (intro _) | split

theorem execConfigPhaseTimeout_keeps {r : State} : ∀ e (s : State), Keeps r s → ∀ z, execConfigPhaseTimeout e s = .next z →
    Keeps r z := by
  intro e s h0 z hz
  unfold execConfigPhaseTimeout at hz
  split at hz
  · cases hz
    exact h0
  · rename_i a _
    generalize (if a.commit = true then a.current else a.acked) = m at hz
    split at hz
    · split at hz
      · exact execConfigCommit_keeps _ _ (State.leave_keeps _ _ _ _ h0) _ hz
      · exact execConfigPrepare_keeps _ _ (State.leave_keeps _ _ _ _ h0) _ hz
    · cases hz
      exact h0

theorem execSplitWindowExpiry_keeps {r : State} : ∀ (s : State), Keeps r s → ∀ z, execSplitWindowExpiry s = .next z →
    Keeps r z := by
  intro s h0 u hu
  unfold execSplitWindowExpiry at hu
  repeat' first | (injection hu with hu; subst hu) | split at hu
  all_goals try dsimp only
  repeat' first
    | with_reducible assumption | with_reducible apply State.leave_keeps | with_reducible apply State.mgmtFault_keeps
    | with_reducible apply Keeps.foldl | with_reducible apply Keeps.foldlSnd | with_reducible apply Keeps.foldlFst
    | with_reducible apply EngKeeps.foldl | with_reducible exact EngKeeps.refl _ | (intro _)
    | with_reducible refine Keeps.ofSnd ?_ (by assumption) | with_reducible refine Keeps.ofFst ?_ (by assumption)
    | split | with_reducible refine EngKeeps.upd ?_ rfl rfl rfl | with_reducible refine Keeps.upd ?_ rfl rfl

end Sys2Proof.Machine
end

