-- ==== Sys2Proof/Laws/KeepsTimeRows.lean ====
section
/-! SUPPORT. What the operations of Machine/TimeRows keep (Laws/Keeps). -/

namespace Sys2Proof.Machine

theorem State.noteCalm_keeps {r : State} : ∀ (s : State), Keeps r s → Keeps r (State.noteCalm s) := by
  intro s h0
  unfold State.noteCalm
  try dsimp only
  repeat' first
    | with_reducible assumption | with_reducible apply Keeps.modEng | with_reducible apply Keeps.foldl
    | with_reducible apply Keeps.foldlSnd | with_reducible apply Keeps.foldlFst | with_reducible apply EngKeeps.foldl
    | with_reducible exact EngKeeps.refl _ | (intro _) | split | with_reducible refine EngKeeps.upd ?_ rfl rfl rfl
    | with_reducible refine Keeps.upd ?_ rfl rfl

theorem State.steerToMedian_keeps {r : State} : ∀ (s : State), Keeps r s → Keeps r (State.steerToMedian s) := by
  intro s h0
  unfold State.steerToMedian
  try dsimp only
  repeat' first
    | with_reducible assumption | with_reducible apply State.steerAll_keeps | with_reducible exact EngKeeps.refl _
    | (intro _) | split

theorem execTaiEdge_keeps {r : State} : ∀ tai (s : State), Keeps r s → ∀ z, execTaiEdge tai s = .next z → Keeps r z := by
  intro tai s h0 u hu
  unfold execTaiEdge at hu
  repeat' first | (injection hu with hu; subst hu) | split at hu
  all_goals try dsimp only
  repeat' first
    | with_reducible assumption | with_reducible apply Keeps.modEngines
    | with_reducible apply State.steerToMedian_keeps | with_reducible apply State.noteCalm_keeps
    | with_reducible apply State.steerAll_keeps | with_reducible exact EngKeeps.refl _ | (intro _) | split
    | with_reducible refine EngKeeps.upd ?_ rfl rfl rfl | with_reducible refine Keeps.upd ?_ rfl rfl

theorem execOffsetMeasure_keeps {r : State} : ∀ drift (s : State), Keeps r s →
    ∀ z, execOffsetMeasure drift s = .next z → Keeps r z := by
  intro drift s h0 u hu
  unfold execOffsetMeasure at hu
  repeat' first | (injection hu with hu; subst hu) | split at hu
  all_goals try dsimp only
  repeat' first
    | with_reducible assumption | with_reducible apply Keeps.modEngines
    | with_reducible apply State.steerToMedian_keeps | with_reducible apply State.noteCalm_keeps
    | with_reducible exact EngKeeps.refl _ | (intro _) | split | with_reducible refine EngKeeps.upd ?_ rfl rfl rfl
    | with_reducible refine Keeps.upd ?_ rfl rfl

theorem execTimeSourceLoss_keeps {r : State} : ∀ src (s : State), Keeps r s → ∀ z, execTimeSourceLoss src s = .next z →
    Keeps r z := by
  intro src s h0 u hu
  unfold execTimeSourceLoss at hu
  repeat' first | (injection hu with hu; subst hu) | split at hu
  all_goals try dsimp only
  repeat' first
    | with_reducible assumption | with_reducible apply State.selectSource_keeps
    | with_reducible apply State.noteCalm_keeps | with_reducible exact EngKeeps.refl _ | (intro _)
    | with_reducible refine Keeps.ofSnd ?_ (by assumption) | with_reducible refine Keeps.ofFst ?_ (by assumption)
    | split | with_reducible refine EngKeeps.upd ?_ rfl rfl rfl | with_reducible refine Keeps.upd ?_ rfl rfl

theorem execTimeSourceLock_keeps {r : State} : ∀ src tai (s : State), Keeps r s →
    ∀ z, execTimeSourceLock src tai s = .next z → Keeps r z := by
  intro src tai s h0 u hu
  unfold execTimeSourceLock at hu
  repeat' first | (injection hu with hu; subst hu) | split at hu
  all_goals try dsimp only
  repeat' first
    | with_reducible assumption | with_reducible apply State.selectSource_keeps
    | with_reducible apply State.steerAll_keeps | with_reducible apply State.noteCalm_keeps
    | with_reducible exact EngKeeps.refl _ | (intro _) | with_reducible refine Keeps.ofSnd ?_ (by assumption)
    | with_reducible refine Keeps.ofFst ?_ (by assumption) | split | with_reducible refine EngKeeps.upd ?_ rfl rfl rfl
    | with_reducible refine Keeps.upd ?_ rfl rfl

theorem execTimeSuspectSet_keeps {r : State} : ∀ e (s : State), Keeps r s → ∀ z, execTimeSuspectSet e s = .next z →
    Keeps r z := by
  intro e s h0 u hu
  unfold execTimeSuspectSet at hu
  repeat' first | (injection hu with hu; subst hu) | split at hu
  all_goals try dsimp only
  repeat' first
    | with_reducible assumption | with_reducible apply Keeps.modEng | with_reducible apply State.memberEvent_keeps
    | with_reducible exact EngKeeps.refl _ | (intro _) | split | with_reducible refine EngKeeps.upd ?_ rfl rfl rfl
    | with_reducible refine Keeps.upd ?_ rfl rfl

theorem execTimeSuspectClear_keeps {r : State} : ∀ e (s : State), Keeps r s → ∀ z, execTimeSuspectClear e s = .next z →
    Keeps r z := by
  intro e s h0 u hu
  unfold execTimeSuspectClear at hu
  repeat' first | (injection hu with hu; subst hu) | split at hu
  all_goals try dsimp only
  repeat' first
    | with_reducible assumption | with_reducible apply Keeps.modEng | with_reducible apply State.memberEvent_keeps
    | with_reducible exact EngKeeps.refl _ | (intro _) | split | with_reducible refine EngKeeps.upd ?_ rfl rfl rfl
    | with_reducible refine Keeps.upd ?_ rfl rfl

theorem execTimeLeave_keeps {r : State} : ∀ e (s : State), Keeps r s → ∀ z, execTimeLeave e s = .next z → Keeps r z := by
  intro e s h0 u hu
  unfold execTimeLeave at hu
  repeat' first | (injection hu with hu; subst hu) | split at hu
  all_goals try dsimp only
  repeat' first
    | with_reducible assumption | with_reducible apply State.leave_keeps | with_reducible exact EngKeeps.refl _
    | (intro _) | split

theorem execPpsPulse_keeps {r : State} : ∀ width tai (s : State), Keeps r s → ∀ z, execPpsPulse width tai s = .next z →
    Keeps r z := by
  intro width tai s h0 u hu
  unfold execPpsPulse at hu
  repeat' first | (injection hu with hu; subst hu) | split at hu
  all_goals try dsimp only
  repeat' first
    | with_reducible assumption | with_reducible apply State.steerAll_keeps | with_reducible apply State.noteCalm_keeps
    | with_reducible exact EngKeeps.refl _ | (intro _) | split

end Sys2Proof.Machine
end

