-- ==== Sys2Proof/Laws/KeepsLeaseRows.lean ====
section
/-! SUPPORT. What the operations of Machine/LeaseRows keep (Laws/Keeps). -/

namespace Sys2Proof.Machine

theorem State.takeUpGen_keeps {r : State} : ∀ (s : State) gens p, Keeps r s → Keeps r (State.takeUpGen s gens p) := by
  intro s gens p h0
  unfold State.takeUpGen
  try dsimp only
  repeat' first
    | with_reducible assumption | with_reducible apply ProgRun.store_keeps | with_reducible apply Keeps.modPart
    | with_reducible exact EngKeeps.refl _ | (intro _) | with_reducible refine Keeps.ofSnd ?_ (by assumption)
    | with_reducible refine Keeps.ofFst ?_ (by assumption) | split | with_reducible refine EngKeeps.upd ?_ rfl rfl rfl
    | with_reducible refine Keeps.upd ?_ rfl rfl

theorem State.rebuildMap_keeps {r : State} : ∀ (s : State), Keeps r s → Keeps r (State.rebuildMap s) := by
  intro s h0
  unfold State.rebuildMap
  dsimp only
  refine Keeps.foldl (h0.vols rfl (fun k => ⟨fun x hx => ?_, k.2⟩) rfl rfl) (fun t p ht => State.takeUpGen_keeps _ _ _ ht)
  simp only [List.mem_mapIdx] at hx
  obtain ⟨i, hi, rfl⟩ := hx
  exact Memory.wf_filter _ (k.1 _ (List.getElem_mem hi))

theorem State.overwriteSlot_keeps {r : State} : ∀ (s : State) got, Keeps r s → Keeps r (State.overwriteSlot s got) := by
  intro s got h0
  unfold State.overwriteSlot
  try dsimp only
  repeat' first
    | with_reducible assumption | with_reducible apply State.writeBlocks_keeps
    | with_reducible apply ProgRun.store_keeps | with_reducible exact EngKeeps.refl _ | (intro _)
    | with_reducible refine Keeps.ofSnd ?_ (by assumption) | with_reducible refine Keeps.ofFst ?_ (by assumption)
    | split | with_reducible refine EngKeeps.upd ?_ rfl rfl rfl | with_reducible refine Keeps.upd ?_ rfl rfl

theorem State.claimed_keeps {r : State} : ∀ (s : State), Keeps r s → Keeps r (State.claimed s) := by
  intro s h0
  unfold State.claimed
  try dsimp only
  repeat' first
    | with_reducible assumption | with_reducible apply ProgRun.store_keeps
    | with_reducible apply State.memberEvent_keeps | with_reducible apply State.rebuildMap_keeps
    | with_reducible apply State.resumeDrains_keeps | with_reducible apply State.adopt_keeps
    | with_reducible apply State.modMailbox_keeps | with_reducible exact EngKeeps.refl _ | (intro _)
    | with_reducible refine Keeps.ofSnd ?_ (by assumption) | with_reducible refine Keeps.ofFst ?_ (by assumption)
    | split | with_reducible refine EngKeeps.upd ?_ rfl rfl rfl | with_reducible refine Keeps.upd ?_ rfl rfl

theorem State.claimLost_keeps {r : State} : ∀ (s : State), Keeps r s → Keeps r (State.claimLost s) := by
  intro s h0
  unfold State.claimLost
  try dsimp only
  repeat' first
    | with_reducible assumption | with_reducible apply ProgRun.store_keeps | with_reducible apply State.answer_keeps
    | with_reducible exact EngKeeps.refl _ | (intro _) | with_reducible refine Keeps.ofSnd ?_ (by assumption)
    | with_reducible refine Keeps.ofFst ?_ (by assumption) | split | with_reducible refine EngKeeps.upd ?_ rfl rfl rfl
    | with_reducible refine Keeps.upd ?_ rfl rfl

theorem execLeaseClaimCheck_keeps {r : State} : ∀ got (s : State), Keeps r s →
    ∀ z, execLeaseClaimCheck got s = .next z → Keeps r z := by
  intro got s h0 u hu
  unfold execLeaseClaimCheck at hu
  repeat' first | (injection hu with hu; subst hu) | split at hu
  all_goals try dsimp only
  repeat' first
    | with_reducible assumption | with_reducible apply State.overwriteSlot_keeps
    | with_reducible apply ProgRun.store_keeps | with_reducible apply State.claimed_keeps
    | with_reducible apply State.claimLost_keeps | with_reducible exact EngKeeps.refl _ | (intro _) | split

theorem execStartupLeaseClaim_keeps {r : State} : ∀ others (s : State), Keeps r s →
    ∀ z, execStartupLeaseClaim others s = .next z → Keeps r z := by
  intro others s h0 u hu
  unfold execStartupLeaseClaim at hu
  repeat' first | (injection hu with hu; subst hu) | split at hu
  all_goals try dsimp only
  repeat' first
    | with_reducible assumption | with_reducible apply ProgRun.store_keeps | with_reducible apply State.reconnect_keeps
    | with_reducible apply State.attachAll_keeps | with_reducible apply State.othersWrote_keeps
    | with_reducible apply State.claim_keeps | with_reducible exact EngKeeps.refl _ | (intro _)
    | with_reducible refine Keeps.ofSnd ?_ (by assumption) | with_reducible refine Keeps.ofFst ?_ (by assumption)
    | split | with_reducible refine EngKeeps.upd ?_ rfl rfl rfl | with_reducible refine Keeps.upd ?_ rfl rfl

theorem execLeaseRenew_keeps {r : State} : ∀ reach got (s : State), Keeps r s →
    ∀ z, execLeaseRenew reach got s = .next z → Keeps r z := by
  intro reach got s h0 u hu
  unfold execLeaseRenew at hu
  repeat' first | (injection hu with hu; subst hu) | split at hu
  all_goals try dsimp only
  repeat' first
    | with_reducible assumption | with_reducible apply State.overwriteSlot_keeps
    | with_reducible apply ProgRun.store_keeps | with_reducible apply State.writeLease_keeps
    | with_reducible apply State.freeWaiting_keeps | with_reducible apply State.memberEvent_keeps
    | with_reducible apply State.mgmtFault_keeps | with_reducible exact EngKeeps.refl _ | (intro _) | split
    | with_reducible refine EngKeeps.upd ?_ rfl rfl rfl | with_reducible refine Keeps.upd ?_ rfl rfl

theorem execAllotExtend_keeps {r : State} : ∀ others (s : State), Keeps r s → ∀ z, execAllotExtend others s = .next z →
    Keeps r z := by
  intro others s h0 u hu
  unfold execAllotExtend at hu
  repeat' first | (injection hu with hu; subst hu) | split at hu
  all_goals try dsimp only
  repeat' first
    | with_reducible assumption | with_reducible apply State.othersWrote_keeps
    | with_reducible apply ProgRun.store_keeps | with_reducible apply State.writeLease_keeps
    | with_reducible exact EngKeeps.refl _ | (intro _) | with_reducible refine Keeps.ofSnd ?_ (by assumption)
    | with_reducible refine Keeps.ofFst ?_ (by assumption) | split | with_reducible refine EngKeeps.upd ?_ rfl rfl rfl
    | with_reducible refine Keeps.upd ?_ rfl rfl

theorem execAllotExtendCheck_keeps {r : State} : ∀ others (s : State), Keeps r s →
    ∀ z, execAllotExtendCheck others s = .next z → Keeps r z := by
  intro others s h0 u hu
  unfold execAllotExtendCheck at hu
  repeat' first | (injection hu with hu; subst hu) | split at hu
  all_goals try dsimp only
  repeat' first
    | with_reducible assumption | with_reducible apply State.othersWrote_keeps
    | with_reducible apply ProgRun.store_keeps | with_reducible apply Keeps.draw
    | with_reducible apply State.writeLease_keeps | with_reducible apply State.memberEvent_keeps
    | with_reducible apply State.resumeDrains_keeps | with_reducible exact EngKeeps.refl _ | (intro _)
    | with_reducible refine Keeps.ofSnd ?_ (by assumption) | with_reducible refine Keeps.ofFst ?_ (by assumption)
    | split | with_reducible refine EngKeeps.upd ?_ rfl rfl rfl | with_reducible refine Keeps.upd ?_ rfl rfl

end Sys2Proof.Machine
end

