-- ==== Sys2Proof/Laws/KeepsFaultRows.lean ====
section
/-! SUPPORT. What the operations of Machine/FaultRows keep (Laws/Keeps). -/

namespace Sys2Proof.Machine

theorem State.poolError_keeps {r : State} : ∀ (s : State) e a, Keeps r s → Keeps r (State.poolError s e a) := by
  intro s e a h0
  unfold State.poolError
  try dsimp only
  repeat' first
    | with_reducible assumption | with_reducible apply State.failEpoch_keeps | with_reducible apply Keeps.modPart
    | with_reducible apply Keeps.foldl | with_reducible apply Keeps.foldlSnd | with_reducible apply Keeps.foldlFst
    | with_reducible apply EngKeeps.foldl | with_reducible exact EngKeeps.refl _ | (intro _) | split
    | with_reducible refine EngKeeps.upd ?_ rfl rfl rfl | with_reducible refine Keeps.upd ?_ rfl rfl

theorem State.stageError_keeps {r : State} : ∀ (s : State) e, Keeps r s → Keeps r (State.stageError s e) := by
  intro s e h0
  unfold State.stageError
  try dsimp only
  repeat' first
    | with_reducible assumption | with_reducible apply State.onChannel_keeps
    | with_reducible apply State.failEpoch_keeps | with_reducible apply Keeps.foldl
    | with_reducible apply Keeps.foldlSnd | with_reducible apply Keeps.foldlFst | with_reducible apply EngKeeps.foldl
    | with_reducible exact EngKeeps.refl _ | (intro _) | with_reducible refine Keeps.ofSnd ?_ (by assumption)
    | with_reducible refine Keeps.ofFst ?_ (by assumption) | split

theorem State.msixRejected_keeps {r : State} : ∀ (s : State) e part, Keeps r s → Keeps r (State.msixRejected s e part) := by
  intro s e part h0
  unfold State.msixRejected
  try dsimp only
  repeat' first
    | with_reducible assumption | with_reducible apply Keeps.draw | with_reducible apply State.aerError_keeps
    | with_reducible apply Keeps.foldl | with_reducible apply Keeps.foldlSnd | with_reducible apply Keeps.foldlFst
    | with_reducible apply EngKeeps.foldl | with_reducible exact EngKeeps.refl _ | (intro _)
    | with_reducible refine Keeps.ofSnd ?_ (by assumption) | with_reducible refine Keeps.ofFst ?_ (by assumption)
    | split | with_reducible refine EngKeeps.upd ?_ rfl rfl rfl | with_reducible refine Keeps.upd ?_ rfl rfl

theorem State.consequence_keeps {r : State} : ∀ (s : State) e d, Keeps r s → Keeps r (State.consequence s e d) := by
  intro s e d h0
  unfold State.consequence
  try dsimp only
  repeat' first
    | with_reducible assumption | with_reducible apply State.poolError_keeps
    | with_reducible apply State.stageError_keeps | with_reducible apply Keeps.modEng
    | with_reducible apply Engine.modPort_keeps | with_reducible apply State.msixRejected_keeps
    | with_reducible exact EngKeeps.refl _ | (intro _) | with_reducible refine Keeps.ofSnd ?_ (by assumption)
    | with_reducible refine Keeps.ofFst ?_ (by assumption) | split | with_reducible refine EngKeeps.upd ?_ rfl rfl rfl
    | with_reducible refine Keeps.upd ?_ rfl rfl

theorem State.countUe_keeps {r : State} : ∀ (s : State) e d, Keeps r s → Keeps r (State.countUe s e d) := by
  intro s e d h0
  unfold State.countUe
  try dsimp only
  repeat' first
    | with_reducible assumption | with_reducible apply Keeps.modEng | with_reducible apply State.detect_keeps
    | with_reducible exact EngKeeps.refl _ | (intro _) | split | with_reducible refine EngKeeps.upd ?_ rfl rfl rfl
    | with_reducible refine Keeps.upd ?_ rfl rfl

theorem execFaultDetect_keeps {r : State} : ∀ e f (s : State), Keeps r s → ∀ z, execFaultDetect e f s = .next z →
    Keeps r z := by
  intro e f s h0 u hu
  unfold execFaultDetect at hu
  repeat' first | (injection hu with hu; subst hu) | split at hu
  all_goals try dsimp only
  repeat' first
    | with_reducible assumption | with_reducible apply State.consequence_keeps
    | with_reducible apply State.detect_keeps | with_reducible apply State.countUe_keeps
    | with_reducible apply State.pruneQueues_keeps | with_reducible apply State.kickReshards_keeps
    | with_reducible exact EngKeeps.refl _ | (intro _) | split

theorem State.rebuildRow_keeps {r : State} : ∀ (s : State) e u0 ch, Keeps r s → Keeps r (State.rebuildRow s e u0 ch) := by
  intro s e u0 ch h0
  unfold State.rebuildRow
  try dsimp only
  repeat' first
    | with_reducible assumption | with_reducible apply Keeps.modEng
    | refine State.replaceRow_keeps _ _ _ _ _ ?_ _ (by with_reducible assumption)
    | with_reducible apply State.putPool_keeps | with_reducible apply Keeps.foldl | with_reducible apply Keeps.foldlSnd
    | with_reducible apply Keeps.foldlFst | with_reducible apply EngKeeps.foldl | with_reducible exact EngKeeps.refl _
    | (intro _) | with_reducible refine Keeps.ofSnd ?_ (by assumption)
    | with_reducible refine Keeps.ofFst ?_ (by assumption) | split | with_reducible refine EngKeeps.upd ?_ rfl rfl rfl
    | with_reducible refine Keeps.upd ?_ rfl rfl

theorem execDdrChannelRebuild_keeps {r : State} : ∀ e ch (s : State), Keeps r s →
    ∀ z, execDdrChannelRebuild e ch s = .next z → Keeps r z := by
  intro e ch s h0 u hu
  unfold execDdrChannelRebuild at hu
  repeat' first | (injection hu with hu; subst hu) | split at hu
  all_goals try dsimp only
  repeat' first
    | with_reducible assumption | with_reducible apply Keeps.endCampaign | with_reducible apply State.rebuildRow_keeps
    | with_reducible apply State.faultLog_keeps | with_reducible apply Keeps.foldl
    | with_reducible apply Keeps.foldlSnd | with_reducible apply Keeps.foldlFst | with_reducible apply EngKeeps.foldl
    | with_reducible exact EngKeeps.refl _ | (intro _) | split

theorem execSpareGroupSwitch_keeps {r : State} : ∀ e peer (s : State), Keeps r s →
    ∀ z, execSpareGroupSwitch e peer s = .next z → Keeps r z := by
  intro e peer s h0 u hu
  unfold execSpareGroupSwitch at hu
  repeat' first | (injection hu with hu; subst hu) | split at hu
  all_goals try dsimp only
  repeat' first
    | with_reducible assumption | with_reducible apply Keeps.modEng | with_reducible exact EngKeeps.refl _ | (intro _)
    | split | with_reducible refine EngKeeps.upd ?_ rfl rfl rfl | with_reducible refine Keeps.upd ?_ rfl rfl

theorem execFaultClear_keeps {r : State} : ∀ e blk bits (s : State), Keeps r s →
    ∀ z, execFaultClear e blk bits s = .next z → Keeps r z := by
  intro e blk bits s h0 u hu
  unfold execFaultClear at hu
  repeat' first | (injection hu with hu; subst hu) | split at hu
  all_goals try dsimp only
  repeat' first
    | with_reducible assumption | with_reducible apply State.clearFaults_keeps | with_reducible exact EngKeeps.refl _
    | (intro _) | split

theorem execFaultInject_keeps {r : State} : ∀ e blk bits (s : State), Keeps r s →
    ∀ z, execFaultInject e blk bits s = .next z → Keeps r z := by
  intro e blk bits s h0 u hu
  unfold execFaultInject at hu
  repeat' first | (injection hu with hu; subst hu) | split at hu
  all_goals try dsimp only
  repeat' first
    | with_reducible assumption | with_reducible apply State.injectFaults_keeps | with_reducible exact EngKeeps.refl _
    | (intro _) | split

theorem execFltLock_keeps {r : State} : ∀ e blk (s : State), Keeps r s → ∀ z, execFltLock e blk s = .next z →
    Keeps r z := by
  intro e blk s h0 u hu
  unfold execFltLock at hu
  repeat' first | (injection hu with hu; subst hu) | split at hu
  all_goals try dsimp only
  repeat' first
    | with_reducible assumption | with_reducible apply State.modFlt_keeps | with_reducible exact EngKeeps.refl _
    | (intro _) | split | with_reducible refine EngKeeps.upd ?_ rfl rfl rfl
    | with_reducible refine Keeps.upd ?_ rfl rfl

theorem execCycleCheck_keeps {r : State} : ∀ e found (s : State), Keeps r s → ∀ z, execCycleCheck e found s = .next z →
    Keeps r z := by
  intro e found s h0 u hu
  unfold execCycleCheck at hu
  repeat' first | (injection hu with hu; subst hu) | split at hu
  all_goals try dsimp only
  repeat' first
    | with_reducible assumption | with_reducible apply State.detect_keeps | with_reducible apply Keeps.foldl
    | with_reducible apply Keeps.foldlSnd | with_reducible apply Keeps.foldlFst | with_reducible apply EngKeeps.foldl
    | with_reducible exact EngKeeps.refl _ | (intro _) | with_reducible refine Keeps.ofSnd ?_ (by assumption)
    | with_reducible refine Keeps.ofFst ?_ (by assumption) | split | with_reducible refine EngKeeps.upd ?_ rfl rfl rfl
    | with_reducible refine Keeps.upd ?_ rfl rfl

end Sys2Proof.Machine
end

