-- ==== Sys2Proof/Laws/KeepsPowerRows.lean ====
section
/-! SUPPORT. What the operations of Machine/PowerRows keep (Laws/Keeps). -/

namespace Sys2Proof.Machine

theorem execIdleTimerExpiry_keeps {r : State} : ∀ e (s : State), Keeps r s → ∀ z, execIdleTimerExpiry e s = .next z →
    Keeps r z := by
  intro e s h0 u hu
  unfold execIdleTimerExpiry at hu
  repeat' first | (injection hu with hu; subst hu) | split at hu
  all_goals try dsimp only
  repeat' first
    | with_reducible assumption | with_reducible apply Keeps.modEng | with_reducible exact EngKeeps.refl _ | (intro _)
    | split | with_reducible refine EngKeeps.upd ?_ rfl rfl rfl | with_reducible refine Keeps.upd ?_ rfl rfl

theorem execPowerExit_keeps {r : State} : ∀ e (s : State), Keeps r s → ∀ z, execPowerExit e s = .next z → Keeps r z := by
  intro e s h0 u hu
  unfold execPowerExit at hu
  repeat' first | (injection hu with hu; subst hu) | split at hu
  all_goals try dsimp only
  repeat' first
    | with_reducible assumption | with_reducible apply Engine.wake_keeps | with_reducible apply State.wake_keeps
    | with_reducible exact EngKeeps.refl _ | (intro _) | split

theorem execPowerExitComplete_keeps {r : State} : ∀ e (s : State), Keeps r s →
    ∀ z, execPowerExitComplete e s = .next z → Keeps r z := by
  intro e s h0 u hu
  unfold execPowerExitComplete at hu
  repeat' first | (injection hu with hu; subst hu) | split at hu
  all_goals try dsimp only
  repeat' first
    | with_reducible assumption | with_reducible apply Keeps.modEng | with_reducible apply State.startJobs_keeps
    | with_reducible apply State.tryStream_keeps | with_reducible apply ProgRun.store_keeps
    | with_reducible apply State.lockNmx_keeps | with_reducible apply State.grantLanes_keeps
    | with_reducible apply Keeps.foldl | with_reducible apply Keeps.foldlSnd | with_reducible apply Keeps.foldlFst
    | with_reducible apply EngKeeps.foldl | with_reducible exact EngKeeps.refl _ | (intro _) | split
    | with_reducible refine EngKeeps.upd ?_ rfl rfl rfl | with_reducible refine Keeps.upd ?_ rfl rfl

theorem State.sampleCell_keeps {r : State} : ∀ (s : State) e mv, Keeps r s → Keeps r (State.sampleCell s e mv) := by
  intro s e mv h0
  unfold State.sampleCell
  try dsimp only
  repeat' first
    | with_reducible assumption | with_reducible apply Keeps.modEng | with_reducible apply State.levelFault_keeps
    | with_reducible exact EngKeeps.refl _ | (intro _) | with_reducible refine EngKeeps.upd ?_ rfl rfl rfl
    | with_reducible refine Keeps.upd ?_ rfl rfl

theorem execSensorSample_keeps {r : State} : ∀ e temps meters (s : State), Keeps r s →
    ∀ z, execSensorSample e temps meters s = .next z → Keeps r z := by
  intro e temps meters s h0 u hu
  unfold execSensorSample at hu
  repeat' first | (injection hu with hu; subst hu) | split at hu
  all_goals try dsimp only
  repeat' first
    | with_reducible assumption | with_reducible apply Keeps.modEng | with_reducible apply Keeps.draw
    | with_reducible apply State.sampleSensors_keeps | with_reducible apply State.sampleCell_keeps
    | with_reducible exact EngKeeps.refl _ | (intro _) | split | with_reducible refine EngKeeps.upd ?_ rfl rfl rfl
    | with_reducible refine Keeps.upd ?_ rfl rfl

theorem execCapEvaluate_keeps {r : State} : ∀ watts (s : State), Keeps r s → ∀ z, execCapEvaluate watts s = .next z →
    Keeps r z := by
  intro watts s h0 u hu
  unfold execCapEvaluate at hu
  repeat' first | (injection hu with hu; subst hu) | split at hu
  all_goals try dsimp only
  repeat' first
    | with_reducible assumption | with_reducible apply State.setCap_keeps | with_reducible apply Keeps.send
    | with_reducible exact EngKeeps.refl _ | (intro _) | split | with_reducible refine EngKeeps.upd ?_ rfl rfl rfl
    | with_reducible refine Keeps.upd ?_ rfl rfl

theorem execClockLevelChange_keeps {r : State} : ∀ e (s : State), Keeps r s → ∀ z, execClockLevelChange e s = .next z →
    Keeps r z := by
  intro e s h0 u hu
  unfold execClockLevelChange at hu
  repeat' first | (injection hu with hu; subst hu) | split at hu
  all_goals try dsimp only
  repeat' first
    | with_reducible assumption | with_reducible apply Keeps.modEng | with_reducible exact EngKeeps.refl _ | (intro _)
    | split | with_reducible refine EngKeeps.upd ?_ rfl rfl rfl | with_reducible refine Keeps.upd ?_ rfl rfl

end Sys2Proof.Machine
end

