-- ==== Sys2Proof/Laws/KeepsPlantRows.lean ====
section
/-! SUPPORT. What the operations of Machine/PlantRows keep (Laws/Keeps). -/

namespace Sys2Proof.Machine

theorem State.powerOff_keeps {r : State} : ∀ (s : State) cause busbar, Keeps r s → Keeps r (State.powerOff s cause busbar) := by
  intro s cause busbar h0
  refine h0.trans ⟨fun e => ?_, fun k => ⟨fun v hv => ?_, k.2⟩, rfl, rfl⟩
  · have : (s.powerOff cause busbar).eng e = { (s.eng e).restart e true with
        powered := false, power := { ((s.eng e).restart e true).power with state := 4 } } := by
      simp [State.powerOff, State.eng]
    rw [this]
    exact (Engine.restart_keeps (s.eng e) e true (EngKeeps.refl _)).same rfl rfl rfl rfl rfl rfl
  · simp only [State.powerOff, List.mem_map] at hv
    obtain ⟨w, hw, rfl⟩ := hv
    exact k.1 w hw

theorem execBusbarOvervoltage_keeps {r : State} : ∀ mv dur (s : State), Keeps r s →
    ∀ z, execBusbarOvervoltage mv dur s = .next z → Keeps r z := by
  intro mv dur s h0 u hu
  unfold execBusbarOvervoltage at hu
  repeat' first | (injection hu with hu; subst hu) | split at hu
  all_goals try dsimp only
  repeat' first
    | with_reducible assumption | with_reducible apply State.powerOff_keeps | with_reducible exact EngKeeps.refl _
    | (intro _) | split

theorem State.busLow_keeps {r : State} : ∀ (s : State), Keeps r s → Keeps r (State.busLow s) := by
  intro s h0
  unfold State.busLow
  try dsimp only
  repeat' first
    | with_reducible assumption | with_reducible apply State.detect_keeps | with_reducible apply Keeps.foldl
    | with_reducible apply Keeps.foldlSnd | with_reducible apply Keeps.foldlFst | with_reducible apply EngKeeps.foldl
    | with_reducible exact EngKeeps.refl _ | (intro _) | with_reducible refine EngKeeps.upd ?_ rfl rfl rfl
    | with_reducible refine Keeps.upd ?_ rfl rfl

theorem execBusbarUndervoltage_keeps {r : State} : ∀ mv dur (s : State), Keeps r s →
    ∀ z, execBusbarUndervoltage mv dur s = .next z → Keeps r z := by
  intro mv dur s h0 u hu
  unfold execBusbarUndervoltage at hu
  repeat' first | (injection hu with hu; subst hu) | split at hu
  all_goals try dsimp only
  repeat' first
    | with_reducible assumption | with_reducible apply State.busLow_keeps | with_reducible apply State.powerOff_keeps
    | with_reducible exact EngKeeps.refl _ | (intro _) | split | with_reducible refine EngKeeps.upd ?_ rfl rfl rfl
    | with_reducible refine Keeps.upd ?_ rfl rfl

theorem State.keeperLost_keeps {r : State} : ∀ (s : State) e bad, Keeps r s → Keeps r (State.keeperLost s e bad) := by
  intro s e bad h0
  unfold State.keeperLost
  try dsimp only
  repeat' first
    | with_reducible assumption | with_reducible apply State.zeroSlots_keeps
    | with_reducible apply State.newWrapKey_keeps | with_reducible apply State.tamper_keeps
    | with_reducible exact EngKeeps.refl _ | (intro _) | split

theorem State.transferAlarm_keeps {r : State} : ∀ (s : State) e, Keeps r s → Keeps r (State.transferAlarm s e) := by
  intro s e h0
  unfold State.transferAlarm
  try dsimp only
  repeat' first
    | with_reducible assumption | with_reducible apply State.journal_keeps | with_reducible apply State.modKeeper_keeps
    | with_reducible exact EngKeeps.refl _ | (intro _) | split | with_reducible refine EngKeeps.upd ?_ rfl rfl rfl
    | with_reducible refine Keeps.upd ?_ rfl rfl

theorem State.startEngine_keeps {r : State} : ∀ (s : State) e, Keeps r s → Keeps r (State.startEngine s e) := by
  intro s e h0
  unfold State.startEngine
  try dsimp only
  repeat' first
    | with_reducible assumption | with_reducible apply Keeps.modEng | with_reducible apply Engine.restart_keeps
    | with_reducible apply Engine.offer_keeps | with_reducible apply State.boot_keeps
    | with_reducible apply State.keeperLost_keeps | with_reducible apply State.journal_keeps
    | with_reducible apply State.transferAlarm_keeps | with_reducible apply State.restoreQos_keeps
    | with_reducible exact EngKeeps.refl _ | (intro _) | split | with_reducible refine EngKeeps.upd ?_ rfl rfl rfl
    | with_reducible refine Keeps.upd ?_ rfl rfl

theorem State.powerUp_keeps {r : State} : ∀ (s : State) failed, Keeps r s → Keeps r (State.powerUp s failed) := by
  intro s failed h0
  unfold State.powerUp
  try dsimp only
  repeat' first
    | with_reducible assumption | with_reducible apply State.startEngine_keeps
    | with_reducible apply State.loadFeatures_keeps | with_reducible apply State.useTargets_keeps
    | with_reducible apply State.detect_keeps | with_reducible apply State.selectSource_keeps
    | with_reducible apply Keeps.foldl | with_reducible apply Keeps.foldlSnd | with_reducible apply Keeps.foldlFst
    | with_reducible apply EngKeeps.foldl | with_reducible exact EngKeeps.refl _ | (intro _) | split
    | with_reducible refine EngKeeps.upd ?_ rfl rfl rfl | with_reducible refine Keeps.upd ?_ rfl rfl

theorem execPowerOn_keeps {r : State} : ∀ redfish mv dur failed (s : State), Keeps r s →
    ∀ z, execPowerOn redfish mv dur failed s = .next z → Keeps r z := by
  intro redfish mv dur failed s h0 u hu
  unfold execPowerOn at hu
  repeat' first | (injection hu with hu; subst hu) | split at hu
  all_goals try dsimp only
  repeat' first
    | with_reducible assumption | with_reducible apply Keeps.send | with_reducible apply State.powerUp_keeps
    | with_reducible exact EngKeeps.refl _ | (intro _) | split

theorem State.abandonEpochs_keeps {r : State} : ∀ (s : State), Keeps r s → Keeps r (State.abandonEpochs s) := by
  intro s h0
  unfold State.abandonEpochs
  try dsimp only
  repeat' first
    | with_reducible assumption | with_reducible exact EngKeeps.refl _ | (intro _)
    | with_reducible refine EngKeeps.upd ?_ rfl rfl rfl | with_reducible refine Keeps.upd ?_ rfl rfl

theorem State.finishShutdown_keeps {r : State} : ∀ (s : State), Keeps r s → Keeps r (State.finishShutdown s) := by
  intro s h0
  unfold State.finishShutdown
  try dsimp only
  repeat' first
    | with_reducible assumption | with_reducible apply State.abandonEpochs_keeps
    | with_reducible apply State.journal_keeps | with_reducible apply State.powerOff_keeps
    | with_reducible apply Keeps.foldl | with_reducible apply Keeps.foldlSnd | with_reducible apply Keeps.foldlFst
    | with_reducible apply EngKeeps.foldl | with_reducible exact EngKeeps.refl _ | (intro _)

theorem State.shutdownCheck_keeps {r : State} : ∀ (s : State), Keeps r s → Keeps r (State.shutdownCheck s) := by
  intro s h0
  unfold State.shutdownCheck
  try dsimp only
  repeat' first
    | with_reducible assumption | with_reducible apply State.finishShutdown_keeps
    | with_reducible exact EngKeeps.refl _ | (intro _) | split

theorem execOrderlyShutdown_keeps {r : State} : ∀ grace (s : State), Keeps r s →
    ∀ z, execOrderlyShutdown grace s = .next z → Keeps r z := by
  intro grace s h0 u hu
  unfold execOrderlyShutdown at hu
  repeat' first | (injection hu with hu; subst hu) | split at hu
  all_goals try dsimp only
  repeat' first
    | with_reducible assumption | with_reducible apply Keeps.send | with_reducible apply State.shutdownCheck_keeps
    | with_reducible exact EngKeeps.refl _ | (intro _) | split | with_reducible refine EngKeeps.upd ?_ rfl rfl rfl
    | with_reducible refine Keeps.upd ?_ rfl rfl

theorem execGraceExpiry_keeps {r : State} : ∀ (s : State), Keeps r s → ∀ z, execGraceExpiry s = .next z → Keeps r z := by
  intro s h0 u hu
  unfold execGraceExpiry at hu
  repeat' first | (injection hu with hu; subst hu) | split at hu
  all_goals try dsimp only
  repeat' first
    | with_reducible assumption | with_reducible apply State.abandonEpochs_keeps
    | with_reducible apply State.shutdownCheck_keeps | with_reducible exact EngKeeps.refl _ | (intro _)
    | with_reducible refine Keeps.ofSnd ?_ (by assumption) | with_reducible refine Keeps.ofFst ?_ (by assumption)
    | split | with_reducible refine EngKeeps.upd ?_ rfl rfl rfl | with_reducible refine Keeps.upd ?_ rfl rfl

theorem execRedfishPowerOff_keeps {r : State} : ∀ (s : State), Keeps r s → ∀ z, execRedfishPowerOff s = .next z →
    Keeps r z := by
  intro s h0 u hu
  unfold execRedfishPowerOff at hu
  repeat' first | (injection hu with hu; subst hu) | split at hu
  all_goals try dsimp only
  repeat' first
    | with_reducible assumption | with_reducible apply State.powerOff_keeps | with_reducible apply Keeps.send
    | with_reducible exact EngKeeps.refl _ | (intro _) | split

theorem State.scmFaults_keeps {r : State} : ∀ (s : State), Keeps r s → Keeps r (State.scmFaults s) := by
  intro s h0
  unfold State.scmFaults
  try dsimp only
  repeat' first
    | with_reducible assumption | with_reducible apply State.levelFault_keeps | with_reducible apply Keeps.foldl
    | with_reducible apply Keeps.foldlSnd | with_reducible apply Keeps.foldlFst | with_reducible apply EngKeeps.foldl
    | with_reducible exact EngKeeps.refl _ | (intro _) | split

theorem State.endRedfish_keeps {r : State} : ∀ (s : State), Keeps r s → Keeps r (State.endRedfish s) := by
  intro s h0
  unfold State.endRedfish
  try dsimp only
  repeat' first
    | with_reducible assumption | with_reducible apply Keeps.modEngines | with_reducible exact EngKeeps.refl _
    | (intro _) | with_reducible refine EngKeeps.upd ?_ rfl rfl rfl | with_reducible refine Keeps.upd ?_ rfl rfl

theorem execScmFailover_keeps {r : State} : ∀ (s : State), Keeps r s → ∀ z, execScmFailover s = .next z → Keeps r z := by
  intro s h0 u hu
  unfold execScmFailover at hu
  repeat' first | (injection hu with hu; subst hu) | split at hu
  all_goals try dsimp only
  repeat' first
    | with_reducible assumption | with_reducible apply State.endRedfish_keeps
    | with_reducible apply State.selectSource_keeps | with_reducible apply State.scmFaults_keeps
    | with_reducible exact EngKeeps.refl _ | (intro _) | split | with_reducible refine EngKeeps.upd ?_ rfl rfl rfl
    | with_reducible refine Keeps.upd ?_ rfl rfl

theorem execBothScmFail_keeps {r : State} : ∀ (s : State), Keeps r s → ∀ z, execBothScmFail s = .next z → Keeps r z := by
  intro s h0 u hu
  unfold execBothScmFail at hu
  repeat' first | (injection hu with hu; subst hu) | split at hu
  all_goals try dsimp only
  repeat' first
    | with_reducible assumption | with_reducible apply State.endRedfish_keeps
    | with_reducible apply State.selectSource_keeps | with_reducible apply State.scmFaults_keeps
    | with_reducible exact EngKeeps.refl _ | (intro _) | split | with_reducible refine EngKeeps.upd ?_ rfl rfl rfl
    | with_reducible refine Keeps.upd ?_ rfl rfl

theorem execScmRecovery_keeps {r : State} : ∀ scm (s : State), Keeps r s → ∀ z, execScmRecovery scm s = .next z →
    Keeps r z := by
  intro scm s h0 u hu
  unfold execScmRecovery at hu
  repeat' first | (injection hu with hu; subst hu) | split at hu
  all_goals try dsimp only
  repeat' first
    | with_reducible assumption | with_reducible apply State.selectSource_keeps
    | with_reducible apply State.scmFaults_keeps | with_reducible exact EngKeeps.refl _ | (intro _) | split
    | with_reducible refine EngKeeps.upd ?_ rfl rfl rfl | with_reducible refine Keeps.upd ?_ rfl rfl

theorem execTamperDetect_keeps {r : State} : ∀ e t (s : State), Keeps r s →
    ∀ z, execTamperDetect e t s = .next z → Keeps r z := by
  intro e t s h0 u hu
  unfold execTamperDetect at hu
  repeat' first | (injection hu with hu; subst hu) | split at hu
  all_goals try dsimp only
  repeat' first
    | with_reducible assumption | with_reducible apply State.keeperLost_keeps | with_reducible apply State.tamper_keeps
    | with_reducible apply State.kickReshards_keeps | with_reducible exact EngKeeps.refl _ | (intro _) | split

theorem execReserveRecharged_keeps {r : State} : ∀ e (s : State), Keeps r s → ∀ z, execReserveRecharged e s = .next z →
    Keeps r z := by
  intro e s h0 u hu
  unfold execReserveRecharged at hu
  repeat' first | (injection hu with hu; subst hu) | split at hu
  all_goals try dsimp only
  repeat' first
    | with_reducible assumption | with_reducible apply State.modKeeper_keeps | with_reducible exact EngKeeps.refl _
    | (intro _) | split | with_reducible refine EngKeeps.upd ?_ rfl rfl rfl
    | with_reducible refine Keeps.upd ?_ rfl rfl

theorem execDebugTimeout_keeps {r : State} : ∀ e (s : State), Keeps r s → ∀ z, execDebugTimeout e s = .next z →
    Keeps r z := by
  intro e s h0 u hu
  unfold execDebugTimeout at hu
  repeat' first | (injection hu with hu; subst hu) | split at hu
  all_goals try dsimp only
  repeat' first
    | with_reducible assumption | with_reducible apply State.closeDebug_keeps | with_reducible exact EngKeeps.refl _
    | (intro _) | split

theorem execChallengeLockoutEnd_keeps {r : State} : ∀ e (s : State), Keeps r s →
    ∀ z, execChallengeLockoutEnd e s = .next z → Keeps r z := by
  intro e s h0 u hu
  unfold execChallengeLockoutEnd at hu
  repeat' first | (injection hu with hu; subst hu) | split at hu
  all_goals try dsimp only
  repeat' first
    | with_reducible assumption | with_reducible apply State.modKeeper_keeps | with_reducible exact EngKeeps.refl _
    | (intro _) | split | with_reducible refine EngKeeps.upd ?_ rfl rfl rfl
    | with_reducible refine Keeps.upd ?_ rfl rfl

theorem execCellLoss_keeps {r : State} : ∀ sled (s : State), Keeps r s → ∀ z, execCellLoss sled s = .next z →
    Keeps r z := by
  intro sled s h0 u hu
  unfold execCellLoss at hu
  repeat' first | (injection hu with hu; subst hu) | split at hu
  all_goals try dsimp only
  repeat' first
    | with_reducible assumption | with_reducible apply Keeps.draw | with_reducible apply State.modKeeper_keeps
    | with_reducible exact EngKeeps.refl _ | (intro _) | with_reducible refine Keeps.ofSnd ?_ (by assumption)
    | with_reducible refine Keeps.ofFst ?_ (by assumption) | split | with_reducible refine EngKeeps.upd ?_ rfl rfl rfl
    | with_reducible refine Keeps.upd ?_ rfl rfl

theorem execEngineReset_keeps {r : State} : ∀ e failed (s : State), Keeps r s →
    ∀ z, execEngineReset e failed s = .next z → Keeps r z := by
  intro e failed s h0 u hu
  unfold execEngineReset at hu
  repeat' first | (injection hu with hu; subst hu) | split at hu
  all_goals try dsimp only
  repeat' first
    | with_reducible assumption | with_reducible apply State.leave_keeps
    | with_reducible apply State.resetEngineNow_keeps | with_reducible apply State.pruneQueues_keeps
    | with_reducible apply State.kickReshards_keeps | with_reducible exact EngKeeps.refl _ | (intro _) | split

theorem execProvisionalTimeout_keeps {r : State} : ∀ e (s : State), Keeps r s →
    ∀ z, execProvisionalTimeout e s = .next z → Keeps r z := by
  intro e s h0 u hu
  unfold execProvisionalTimeout at hu
  repeat' first | (injection hu with hu; subst hu) | split at hu
  all_goals try dsimp only
  repeat' first
    | with_reducible assumption | refine ProgRun.run_keeps _ _ ?_ _ (by with_reducible assumption)
    | with_reducible apply Keeps.modEng | with_reducible apply State.resetEngineNow_keeps
    | with_reducible apply State.fwJournal_keeps | with_reducible exact EngKeeps.refl _ | (intro _) | split
    | with_reducible refine EngKeeps.upd ?_ rfl rfl rfl | with_reducible refine Keeps.upd ?_ rfl rfl

theorem execRecoveryDownload_keeps {r : State} : ∀ e image (s : State), Keeps r s →
    ∀ z, execRecoveryDownload e image s = .next z → Keeps r z := by
  intro e image s h0 u hu
  unfold execRecoveryDownload at hu
  injection hu with hu
  subst hu
  split
  · exact State.resetEngineNow_keeps _ _ _ (h0.setEng ((EngKeeps.refl _).same rfl rfl rfl rfl rfl rfl))
  · exact h0

theorem execLocateRequest_keeps {r : State} : ∀ e (s : State), Keeps r s → ∀ z, execLocateRequest e s = .next z →
    Keeps r z := by
  intro e s h0 u hu
  unfold execLocateRequest at hu
  repeat' first | (injection hu with hu; subst hu) | split at hu
  all_goals try dsimp only
  repeat' first
    | with_reducible assumption | with_reducible apply Keeps.modEng | with_reducible exact EngKeeps.refl _ | (intro _)
    | split | with_reducible refine EngKeeps.upd ?_ rfl rfl rfl | with_reducible refine Keeps.upd ?_ rfl rfl

end Sys2Proof.Machine
end

