-- ==== Sys2Proof/Laws/KeepsReshardRows.lean ====
section
/-! SUPPORT. What the operations of Machine/ReshardRows keep (Laws/Keeps). -/

namespace Sys2Proof.Machine

theorem execStripeMoveComplete_keeps {r : State} : ∀ p tid stripe (s : State), Keeps r s →
    ∀ z, execStripeMoveComplete p tid stripe s = .next z → Keeps r z := by
  intro p tid stripe s h0 u hu
  unfold execStripeMoveComplete at hu
  repeat' first | (injection hu with hu; subst hu) | split at hu
  all_goals try dsimp only
  repeat' first
    | with_reducible assumption | with_reducible apply State.moveStripe_keeps | with_reducible exact EngKeeps.refl _
    | (intro _) | with_reducible refine Keeps.ofSnd ?_ (by assumption)
    | with_reducible refine Keeps.ofFst ?_ (by assumption) | split | with_reducible refine EngKeeps.upd ?_ rfl rfl rfl
    | with_reducible refine Keeps.upd ?_ rfl rfl

theorem execReshardComplete_keeps {r : State} : ∀ p (s : State), Keeps r s → ∀ z, execReshardComplete p s = .next z →
    Keeps r z := by
  intro p s h0 u hu
  unfold execReshardComplete at hu
  repeat' first | (injection hu with hu; subst hu) | split at hu
  all_goals try dsimp only
  repeat' first
    | with_reducible assumption | with_reducible apply State.endReshard_keeps | with_reducible apply State.adopt_keeps
    | with_reducible apply Keeps.setPart | with_reducible exact EngKeeps.refl _ | (intro _)
    | with_reducible refine Keeps.ofSnd ?_ (by assumption) | with_reducible refine Keeps.ofFst ?_ (by assumption)
    | split | with_reducible refine EngKeeps.upd ?_ rfl rfl rfl | with_reducible refine Keeps.upd ?_ rfl rfl

theorem State.rebuildOrWait_keeps {r : State} : ∀ (s : State) p r0, Keeps r s → Keeps r (State.rebuildOrWait s p r0) := by
  intro s p rs h0
  unfold State.rebuildOrWait
  generalize hq : (if maskCount rs.members < rs.parity + 1 then none else s.startReshard p rs) = q
  cases q with
  | some z =>
    split at hq
    · cases hq
    · exact State.startReshard_keeps _ _ _ h0 _ hq
  | none =>
    exact State.mgmtFault_keeps _ _ _ (State.answerReshard_keeps _ _ _ _ h0.modPart)

theorem State.restartReshard_keeps {r : State} : ∀ (s : State) p r0, Keeps r s → Keeps r (State.restartReshard s p r0) := by
  intro s p r0 h0
  unfold State.restartReshard
  try dsimp only
  repeat' first
    | with_reducible assumption | with_reducible apply State.dropDests_keeps | with_reducible apply Keeps.endCampaign
    | with_reducible apply State.rebuildOrWait_keeps | with_reducible exact EngKeeps.refl _ | (intro _)
    | with_reducible refine EngKeeps.upd ?_ rfl rfl rfl | with_reducible refine Keeps.upd ?_ rfl rfl

theorem execRebuildStart_keeps {r : State} : ∀ p (s : State), Keeps r s → ∀ z, execRebuildStart p s = .next z →
    Keeps r z := by
  intro p s h0 u hu
  unfold execRebuildStart at hu
  repeat' first | (injection hu with hu; subst hu) | split at hu
  all_goals try dsimp only
  repeat' first
    | with_reducible assumption | with_reducible apply State.restartReshard_keeps | with_reducible apply Keeps.modPart
    | with_reducible apply State.kickReshards_keeps | with_reducible apply State.rebuildOrWait_keeps
    | with_reducible exact EngKeeps.refl _ | (intro _) | with_reducible refine Keeps.ofSnd ?_ (by assumption)
    | with_reducible refine Keeps.ofFst ?_ (by assumption) | split | with_reducible refine EngKeeps.upd ?_ rfl rfl rfl
    | with_reducible refine Keeps.upd ?_ rfl rfl

theorem State.payRestore_keeps {r : State} : ∀ (s : State) p r0, Keeps r s → Keeps r (State.payRestore s p r0).2 := by
  intro s p r0 h0
  unfold State.payRestore
  try dsimp only
  repeat' first
    | with_reducible assumption | with_reducible apply State.payStore_keeps | with_reducible apply Keeps.modPart
    | with_reducible apply Keeps.foldl | with_reducible apply Keeps.foldlSnd | with_reducible apply Keeps.foldlFst
    | with_reducible apply EngKeeps.foldl | with_reducible exact EngKeeps.refl _ | (intro _)
    | with_reducible refine EngKeeps.upd ?_ rfl rfl rfl | with_reducible refine Keeps.upd ?_ rfl rfl

theorem State.restoreLanes_keeps {r : State} : ∀ (s : State) p, Keeps r s → Keeps r (State.restoreLanes s p).2 := by
  intro s p h0
  unfold State.restoreLanes
  try dsimp only
  repeat' first
    | with_reducible assumption | with_reducible apply State.shelfLane_keeps
    | with_reducible apply State.codecLane_keeps | with_reducible apply Keeps.foldl
    | with_reducible apply Keeps.foldlSnd | with_reducible apply Keeps.foldlFst | with_reducible apply EngKeeps.foldl
    | with_reducible exact EngKeeps.refl _ | (intro _)

theorem State.endLanes_keeps {r : State} : ∀ (s : State) p, Keeps r s → Keeps r (State.endLanes s p) := by
  intro s p h0
  unfold State.endLanes
  try dsimp only
  repeat' first
    | with_reducible assumption | with_reducible apply State.freeLane_keeps | with_reducible apply Keeps.modEng
    | with_reducible apply Engine.dropBlock_keeps | with_reducible apply Keeps.foldl
    | with_reducible apply Keeps.foldlSnd | with_reducible apply Keeps.foldlFst | with_reducible apply EngKeeps.foldl
    | with_reducible exact EngKeeps.refl _ | (intro _)

theorem execRestoreComplete_keeps {r : State} : ∀ done (s : State), Keeps r s →
    ∀ z, execRestoreComplete done s = .next z → Keeps r z := by
  intro done s h0 u hu
  unfold execRestoreComplete at hu
  repeat' first | (injection hu with hu; subst hu) | split at hu
  all_goals try dsimp only
  repeat' first
    | with_reducible assumption | with_reducible apply State.failRestore_keeps
    | with_reducible apply ProgRun.store_keeps | with_reducible apply State.payRestore_keeps
    | with_reducible apply State.restoreLanes_keeps | with_reducible apply State.finishRestore_keeps
    | with_reducible apply State.endLanes_keeps | with_reducible exact EngKeeps.refl _ | (intro _)
    | with_reducible refine Keeps.ofSnd ?_ (by assumption) | with_reducible refine Keeps.ofFst ?_ (by assumption)
    | split | with_reducible refine EngKeeps.upd ?_ rfl rfl rfl | with_reducible refine Keeps.upd ?_ rfl rfl

end Sys2Proof.Machine
end

