-- ==== Sys2Proof/Laws/KeepsStreams.lean ====
section
/-! SUPPORT. What the operations of Machine/Streams keep (Laws/Keeps). -/

namespace Sys2Proof.Machine

theorem execRead_keeps {r : State} : ∀ q (s : State), Keeps r s → ∀ z, execRead q s = .next z → Keeps r z := by
  intro q s h0 u hu
  unfold execRead at hu
  repeat' first | (injection hu with hu; subst hu) | split at hu
  all_goals try dsimp only
  repeat' first
    | with_reducible assumption | with_reducible apply State.submitStream_keeps | with_reducible exact EngKeeps.refl _
    | (intro _)

theorem execWrite_keeps {r : State} : ∀ q (s : State), Keeps r s → ∀ z, execWrite q s = .next z → Keeps r z := by
  intro q s h0 u hu
  unfold execWrite at hu
  repeat' first | (injection hu with hu; subst hu) | split at hu
  all_goals try dsimp only
  repeat' first
    | with_reducible assumption | with_reducible apply State.submitStream_keeps | with_reducible exact EngKeeps.refl _
    | (intro _)

theorem execGradPush_keeps {r : State} : ∀ q (s : State), Keeps r s → ∀ z, execGradPush q s = .next z → Keeps r z := by
  intro q s h0 u hu
  unfold execGradPush at hu
  repeat' first | (injection hu with hu; subst hu) | split at hu
  all_goals try dsimp only
  repeat' first
    | with_reducible assumption | with_reducible apply State.submitStream_keeps | with_reducible exact EngKeeps.refl _
    | (intro _)

theorem execWeightPull_keeps {r : State} : ∀ q (s : State), Keeps r s → ∀ z, execWeightPull q s = .next z → Keeps r z := by
  intro q s h0 u hu
  unfold execWeightPull at hu
  repeat' first | (injection hu with hu; subst hu) | split at hu
  all_goals try dsimp only
  repeat' first
    | with_reducible assumption | with_reducible apply State.submitStream_keeps | with_reducible exact EngKeeps.refl _
    | (intro _)

theorem execKvPut_keeps {r : State} : ∀ q (s : State), Keeps r s → ∀ z, execKvPut q s = .next z → Keeps r z := by
  intro q s h0 u hu
  unfold execKvPut at hu
  repeat' first | (injection hu with hu; subst hu) | split at hu
  all_goals try dsimp only
  repeat' first
    | with_reducible assumption | with_reducible apply State.submitStream_keeps | with_reducible exact EngKeeps.refl _
    | (intro _)

theorem execKvGet_keeps {r : State} : ∀ q (s : State), Keeps r s → ∀ z, execKvGet q s = .next z → Keeps r z := by
  intro q s h0 u hu
  unfold execKvGet at hu
  repeat' first | (injection hu with hu; subst hu) | split at hu
  all_goals try dsimp only
  repeat' first
    | with_reducible assumption | with_reducible apply State.submitStream_keeps | with_reducible exact EngKeeps.refl _
    | (intro _)

theorem execKvDrop_keeps {r : State} : ∀ q (s : State), Keeps r s → ∀ z, execKvDrop q s = .next z → Keeps r z := by
  intro q s h0 u hu
  unfold execKvDrop at hu
  repeat' first | (injection hu with hu; subst hu) | split at hu
  all_goals try dsimp only
  repeat' first
    | with_reducible assumption | with_reducible apply State.submitStream_keeps | with_reducible exact EngKeeps.refl _
    | (intro _)

theorem execFlush_keeps {r : State} : ∀ q (s : State), Keeps r s → ∀ z, execFlush q s = .next z → Keeps r z := by
  intro q s h0 u hu
  unfold execFlush at hu
  repeat' first | (injection hu with hu; subst hu) | split at hu
  all_goals try dsimp only
  repeat' first
    | with_reducible assumption | with_reducible apply State.submitStream_keeps | with_reducible exact EngKeeps.refl _
    | (intro _)

theorem execRiderPut_keeps {r : State} : ∀ q (s : State), Keeps r s → ∀ z, execRiderPut q s = .next z → Keeps r z := by
  intro q s h0 u hu
  unfold execRiderPut at hu
  repeat' first | (injection hu with hu; subst hu) | split at hu
  all_goals try dsimp only
  repeat' first
    | with_reducible assumption | with_reducible apply State.submitStream_keeps | with_reducible exact EngKeeps.refl _
    | (intro _)

theorem execRiderGet_keeps {r : State} : ∀ q (s : State), Keeps r s → ∀ z, execRiderGet q s = .next z → Keeps r z := by
  intro q s h0 u hu
  unfold execRiderGet at hu
  repeat' first | (injection hu with hu; subst hu) | split at hu
  all_goals try dsimp only
  repeat' first
    | with_reducible assumption | with_reducible apply State.submitStream_keeps | with_reducible exact EngKeeps.refl _
    | (intro _)

theorem execFence_keeps {r : State} : ∀ q (s : State), Keeps r s → ∀ z, execFence q s = .next z → Keeps r z := by
  intro q s h0 u hu
  unfold execFence at hu
  repeat' first | (injection hu with hu; subst hu) | split at hu
  all_goals try dsimp only
  repeat' first
    | with_reducible assumption | with_reducible apply State.submitStream_keeps | with_reducible exact EngKeeps.refl _
    | (intro _)

theorem execStreamCommandStart_keeps {r : State} : ∀ loc slot fail (s : State), Keeps r s →
    ∀ z, execStreamCommandStart loc slot fail s = .next z → Keeps r z := by
  intro loc slot fail s h0 u hu
  unfold execStreamCommandStart at hu
  repeat' first | (injection hu with hu; subst hu) | split at hu
  all_goals try dsimp only
  repeat' first
    | with_reducible assumption | with_reducible apply State.tryStream_keeps | with_reducible exact EngKeeps.refl _
    | (intro _) | split

theorem execStreamCompletionPost_keeps {r : State} : ∀ loc (s : State), Keeps r s →
    ∀ z, execStreamCompletionPost loc s = .next z → Keeps r z := by
  intro loc s h0 u hu
  unfold execStreamCompletionPost at hu
  repeat' first | (injection hu with hu; subst hu) | split at hu
  all_goals try dsimp only
  repeat' first
    | with_reducible assumption | with_reducible apply State.postStream_keeps | with_reducible exact EngKeeps.refl _
    | (intro _) | split

theorem execDoneAcknowledge_keeps {r : State} : ∀ loc (s : State), Keeps r s →
    ∀ z, execDoneAcknowledge loc s = .next z → Keeps r z := by
  intro loc s h0 u hu
  unfold execDoneAcknowledge at hu
  repeat' first | (injection hu with hu; subst hu) | split at hu
  all_goals try dsimp only
  repeat' first
    | with_reducible assumption | with_reducible apply State.onStream_keeps | with_reducible apply Keeps.modStream
    | with_reducible exact EngKeeps.refl _ | (intro _)

theorem execHalt_keeps {r : State} : ∀ loc w0 (s : State), Keeps r s → ∀ z, execHalt loc w0 s = .next z → Keeps r z := by
  intro loc w0 s h0 u hu
  unfold execHalt at hu
  repeat' first | (injection hu with hu; subst hu) | split at hu
  all_goals try dsimp only
  repeat' first
    | with_reducible assumption | with_reducible apply State.onStream_keeps
    | with_reducible apply State.controlWord_keeps | with_reducible exact EngKeeps.refl _ | (intro _)

theorem execResume_keeps {r : State} : ∀ loc w0 (s : State), Keeps r s → ∀ z, execResume loc w0 s = .next z →
    Keeps r z := by
  intro loc w0 s h0 u hu
  unfold execResume at hu
  repeat' first | (injection hu with hu; subst hu) | split at hu
  all_goals try dsimp only
  repeat' first
    | with_reducible assumption | with_reducible apply State.onStream_keeps
    | with_reducible apply State.controlWord_keeps | with_reducible exact EngKeeps.refl _ | (intro _)

theorem execHostDataFetch_keeps {r : State} : ∀ loc slot data fail (s : State), Keeps r s →
    ∀ z, execHostDataFetch loc slot data fail s = .next z → Keeps r z := by
  intro loc slot data fail s h0 u hu
  unfold execHostDataFetch at hu
  repeat' first | (injection hu with hu; subst hu) | split at hu
  all_goals try dsimp only
  repeat' first
    | with_reducible assumption | with_reducible apply State.fetchData_keeps | with_reducible exact EngKeeps.refl _
    | (intro _) | split

end Sys2Proof.Machine
end

