-- ==== Sys2Proof/Laws/KeepsTick.lean ====
section
/-! SUPPORT. What the operations of Machine/Tick keep (Laws/Keeps). -/

namespace Sys2Proof.Machine

theorem Engine.settleChannels_keeps {w : Engine} : ∀ (x : Engine) now, EngKeeps w x →
    EngKeeps w (Engine.settleChannels x now) := by
  intro x now h0
  unfold Engine.settleChannels
  try dsimp only
  repeat' first
    | with_reducible assumption | with_reducible exact EngKeeps.refl _ | (intro _)
    | with_reducible refine EngKeeps.upd ?_ rfl rfl rfl

theorem State.noteIdle_keeps {r : State} : ∀ (s : State) e, Keeps r s → Keeps r (State.noteIdle s e) := by
  intro s e h0
  unfold State.noteIdle
  try dsimp only
  repeat' first
    | with_reducible assumption | with_reducible apply Keeps.modEng | with_reducible apply Engine.wake_keeps
    | with_reducible apply State.wake_keeps | with_reducible exact EngKeeps.refl _ | (intro _) | split
    | with_reducible refine EngKeeps.upd ?_ rfl rfl rfl | with_reducible refine Keeps.upd ?_ rfl rfl

theorem State.noteWear_keeps {r : State} : ∀ (s : State) e, Keeps r s → Keeps r (State.noteWear s e) := by
  intro s e h0
  unfold State.noteWear
  try dsimp only
  repeat' first
    | with_reducible assumption | with_reducible apply State.journal_keeps | with_reducible apply Keeps.modEng
    | with_reducible apply State.mgmtFault_keeps | with_reducible exact EngKeeps.refl _ | (intro _) | split
    | with_reducible refine EngKeeps.upd ?_ rfl rfl rfl | with_reducible refine Keeps.upd ?_ rfl rfl

end Sys2Proof.Machine
end

