-- ==== Sys2Proof/Laws/KeepsExec.lean ====
section
/-! SUPPORT. What every command keeps, and what an idle nanosecond keeps (Laws/Keeps). -/

namespace Sys2Proof.Machine

/-- Whatever a command does, it keeps what Keeps says. -/
theorem exec_keeps {c : Instr} {s t : State} (h : exec c s = .next t) : Keeps s t := by
  cases c
  · exact execIdentify_keeps _ _ (Keeps.refl s) t h
  · exact execGetLog_keeps _ _ (Keeps.refl s) t h
  · exact execSetFeature_keeps _ _ (Keeps.refl s) t h
  · exact execGetFeature_keeps _ _ (Keeps.refl s) t h
  · exact execFwDownload_keeps _ _ (Keeps.refl s) t h
  · exact execFwCommit_keeps _ _ (Keeps.refl s) t h
  · exact execFwActivate_keeps _ _ (Keeps.refl s) t h
  · exact execFwQuery_keeps _ _ (Keeps.refl s) t h
  · exact execFormat_keeps _ _ (Keeps.refl s) t h
  · exact execSanitise_keeps _ _ (Keeps.refl s) t h
  · exact execSanitiseStatus_keeps _ _ (Keeps.refl s) t h
  · exact execPartCreate_keeps _ _ (Keeps.refl s) t h
  · exact execPartDelete_keeps _ _ (Keeps.refl s) t h
  · exact execPartModify_keeps _ _ (Keeps.refl s) t h
  · exact execPartQuery_keeps _ _ (Keeps.refl s) t h
  · exact execPartReset_keeps _ _ (Keeps.refl s) t h
  · exact execQosSet_keeps _ _ (Keeps.refl s) t h
  · exact execQosQuery_keeps _ _ (Keeps.refl s) t h
  · exact execRegTensor_keeps _ _ (Keeps.refl s) t h
  · exact execRegClass_keeps _ _ (Keeps.refl s) t h
  · exact execStepPolicy_keeps _ _ (Keeps.refl s) t h
  · exact execReshape_keeps _ _ (Keeps.refl s) t h
  · exact execStateQuery_keeps _ _ (Keeps.refl s) t h
  · exact execTensorDrop_keeps _ _ (Keeps.refl s) t h
  · exact execEpochCut_keeps _ _ (Keeps.refl s) t h
  · exact execEpochCommit_keeps _ _ (Keeps.refl s) t h
  · exact execEpochRelease_keeps _ _ (Keeps.refl s) t h
  · exact execEpochQuery_keeps _ _ (Keeps.refl s) t h
  · exact execRebase_keeps _ _ (Keeps.refl s) t h
  · exact execRestoreOpen_keeps _ _ (Keeps.refl s) t h
  · exact execRestoreMap_keeps _ _ (Keeps.refl s) t h
  · exact execRestoreRun_keeps _ _ (Keeps.refl s) t h
  · exact execReshard_keeps _ _ (Keeps.refl s) t h
  · exact execRestoreQuery_keeps _ _ (Keeps.refl s) t h
  · exact execRestoreClose_keeps _ _ (Keeps.refl s) t h
  · exact execProgLoad_keeps _ _ (Keeps.refl s) t h
  · exact execProgUnload_keeps _ _ (Keeps.refl s) t h
  · exact execSpinLoad_keeps _ _ (Keeps.refl s) t h
  · exact execSpinUnload_keeps _ _ (Keeps.refl s) t h
  · exact execProgQuery_keeps _ _ (Keeps.refl s) t h
  · exact execTideSet_keeps _ _ (Keeps.refl s) t h
  · exact execTideQuery_keeps _ _ (Keeps.refl s) t h
  · exact execKvConfig_keeps _ _ (Keeps.refl s) t h
  · exact execKvQuery_keeps _ _ (Keeps.refl s) t h
  · exact execSecQuery_keeps _ _ (Keeps.refl s) t h
  · exact execProvision_keeps _ _ (Keeps.refl s) t h
  · exact execSeal_keeps _ _ (Keeps.refl s) t h
  · exact execRetire_keeps _ _ (Keeps.refl s) t h
  · exact execKeyLoad_keeps _ _ (Keeps.refl s) t h
  · exact execKeyGenerate_keeps _ _ (Keeps.refl s) t h
  · exact execKeyZeroise_keeps _ _ (Keeps.refl s) t h
  · exact execKeyBind_keeps _ _ (Keeps.refl s) t h
  · exact execKeeperChallenge_keeps _ _ (Keeps.refl s) t h
  · exact execKeeperRespond_keeps _ _ (Keeps.refl s) t h
  · exact execKeeperClose_keeps _ _ (Keeps.refl s) t h
  · exact execMemberQuery_keeps _ _ (Keeps.refl s) t h
  · exact execMemberExclude_keeps _ _ (Keeps.refl s) t h
  · exact execMemberAdmit_keeps _ _ (Keeps.refl s) t h
  · exact execTimeQuery_keeps _ _ (Keeps.refl s) t h
  · exact execTimeSet_keeps _ _ (Keeps.refl s) t h
  · exact execLeaseQuery_keeps _ _ (Keeps.refl s) t h
  · exact execLeaseClaim_keeps _ _ (Keeps.refl s) t h
  · exact execLeaseRelease_keeps _ _ (Keeps.refl s) t h
  · exact execMailboxCompletion_keeps _ _ _ (Keeps.refl s) t h
  · exact execFirmwareHang_keeps _ _ _ (Keeps.refl s) t h
  · exact execRead_keeps _ _ (Keeps.refl s) t h
  · exact execWrite_keeps _ _ (Keeps.refl s) t h
  · exact execGradPush_keeps _ _ (Keeps.refl s) t h
  · exact execWeightPull_keeps _ _ (Keeps.refl s) t h
  · exact execKvPut_keeps _ _ (Keeps.refl s) t h
  · exact execKvGet_keeps _ _ (Keeps.refl s) t h
  · exact execKvDrop_keeps _ _ (Keeps.refl s) t h
  · exact execFlush_keeps _ _ (Keeps.refl s) t h
  · exact execRiderPut_keeps _ _ (Keeps.refl s) t h
  · exact execRiderGet_keeps _ _ (Keeps.refl s) t h
  · exact execFence_keeps _ _ (Keeps.refl s) t h
  · exact execStreamCommandStart_keeps _ _ _ _ (Keeps.refl s) t h
  · exact execStreamCompletionPost_keeps _ _ (Keeps.refl s) t h
  · exact execDoneAcknowledge_keeps _ _ (Keeps.refl s) t h
  · exact execHalt_keeps _ _ _ (Keeps.refl s) t h
  · exact execResume_keeps _ _ _ (Keeps.refl s) t h
  · exact execRegisterWrite_keeps _ _ _ _ (Keeps.refl s) t h
  · exact execEvrEnable_keeps _ _ (Keeps.refl s) t h
  · exact execHeldEventsRelease_keeps _ _ _ (Keeps.refl s) t h
  · exact execEvrFailure_keeps _ _ _ (Keeps.refl s) t h
  · exact execCoalesceTimeout_keeps _ _ _ _ (Keeps.refl s) t h
  · exact execMsixPendingRelease_keeps _ _ _ _ (Keeps.refl s) t h
  · exact execFunctionLevelReset_keeps _ _ _ _ (Keeps.refl s) t h
  · exact execResetDone_keeps _ _ (Keeps.refl s) t h
  · exact execQosTick_keeps _ _ (Keeps.refl s) t h
  · exact execRdmaConnectRequest_keeps _ _ _ _ _ _ _ (Keeps.refl s) t h
  · exact execLinkUp_keeps _ _ _ _ (Keeps.refl s) t h
  · exact execLinkDown_keeps _ _ _ _ (Keeps.refl s) t h
  · exact execPfcPauseReceived_keeps _ _ _ _ (Keeps.refl s) t h
  · exact execPfcPauseSend_keeps _ _ _ _ (Keeps.refl s) t h
  · exact execEcnCeReceived_keeps _ _ _ (Keeps.refl s) t h
  · exact execCnpReceived_keeps _ _ _ (Keeps.refl s) t h
  · exact execHostDataFetch_keeps _ _ _ _ _ (Keeps.refl s) t h
  · exact execStepBegin_keeps _ _ (Keeps.refl s) t h
  · exact execStatisticsComplete_keeps _ _ (Keeps.refl s) t h
  · exact execStepComplete_keeps _ _ (Keeps.refl s) t h
  · exact execSpinSwap_keeps _ _ _ _ (Keeps.refl s) t h
  · exact execCutGateMessage_keeps _ _ _ (Keeps.refl s) t h
  · exact execCutInstant_keeps _ _ (Keeps.refl s) t h
  · exact execCopierDone_keeps _ _ _ (Keeps.refl s) t h
  · exact execCopierResume_keeps _ _ _ (Keeps.refl s) t h
  · rw [exec] at h
    exact execShardWriteComplete_keeps _ _ _ _ _ (Keeps.refl s) t h
  · exact execShardVerified_keeps _ _ _ _ _ (Keeps.refl s) t h
  · exact execManifestBuild_keeps _ _ _ _ (Keeps.refl s) t h
  · exact execManifestReadback_keeps _ _ _ _ (Keeps.refl s) t h
  · exact execCommitRecordWritten_keeps _ _ _ _ _ (Keeps.refl s) t h
  · rw [exec] at h
    exact execEpochRetire_keeps _ _ _ (Keeps.refl s) t h
  · exact execDrainRetry_keeps _ _ _ (Keeps.refl s) t h
  · exact execFinalEbbCut_keeps _ _ (Keeps.refl s) t h
  · exact execPartitionLend_keeps _ _ (Keeps.refl s) t h
  · exact execFloodTurnComplete_keeps _ (Keeps.refl s) t h
  · exact execReseedCut_keeps _ _ (Keeps.refl s) t h
  · exact execEbbTurnComplete_keeps _ (Keeps.refl s) t h
  · exact execReshardComplete_keeps _ _ (Keeps.refl s) t h
  · exact execStripeMoveComplete_keeps _ _ _ _ (Keeps.refl s) t h
  · exact execRebuildStart_keeps _ _ (Keeps.refl s) t h
  · exact execRestoreComplete_keeps _ _ (Keeps.refl s) t h
  · exact execMaintenanceWindow_keeps _ _ _ (Keeps.refl s) t h
  · exact execDemandWindow_keeps _ _ _ (Keeps.refl s) t h
  · exact execModeTimeout_keeps _ _ _ (Keeps.refl s) t h
  · exact execModuleTempSample_keeps _ _ _ _ (Keeps.refl s) t h
  · exact execNmxGo_keeps _ _ _ (Keeps.refl s) t h
  · exact execNmxComplete_keeps _ _ _ _ (Keeps.refl s) t h
  · exact execXlateStart_keeps _ _ _ (Keeps.refl s) t h
  · exact execDgxGo_keeps _ _ _ _ _ (Keeps.refl s) t h
  · exact execDgxComplete_keeps _ _ _ _ _ _ (Keeps.refl s) t h
  · exact execDigestPreempt_keeps _ _ _ (Keeps.refl s) t h
  · exact execDigestResume_keeps _ _ _ (Keeps.refl s) t h
  · exact execDigestLaneFail_keeps _ _ _ (Keeps.refl s) t h
  · exact execCompressLaneFail_keeps _ _ _ (Keeps.refl s) t h
  · exact execHeartbeat_keeps _ _ _ (Keeps.refl s) t h
  · exact execPeerUnreachable_keeps _ _ _ (Keeps.refl s) t h
  · exact execNoQuorum_keeps _ _ (Keeps.refl s) t h
  · exact execPropose_keeps _ _ (Keeps.refl s) t h
  · exact execProposeReceived_keeps _ _ (Keeps.refl s) t h
  · exact execViewFormed_keeps _ (Keeps.refl s) t h
  · exact execViewProposeTimeout_keeps _ (Keeps.refl s) t h
  · exact execDepartureAnnouncement_keeps _ _ _ (Keeps.refl s) t h
  · exact execEngineJoin_keeps _ _ (Keeps.refl s) t h
  · exact execConfigPrepare_keeps _ _ (Keeps.refl s) t h
  · exact execConfigCommit_keeps _ _ (Keeps.refl s) t h
  · exact execConfigPhaseTimeout_keeps _ _ (Keeps.refl s) t h
  · exact execSplitWindowExpiry_keeps _ (Keeps.refl s) t h
  · exact execTaiEdge_keeps _ _ (Keeps.refl s) t h
  · exact execOffsetMeasure_keeps _ _ (Keeps.refl s) t h
  · exact execTimeSourceLoss_keeps _ _ (Keeps.refl s) t h
  · exact execTimeSourceLock_keeps _ _ _ (Keeps.refl s) t h
  · exact execTimeSuspectSet_keeps _ _ (Keeps.refl s) t h
  · exact execTimeSuspectClear_keeps _ _ (Keeps.refl s) t h
  · exact execTimeLeave_keeps _ _ (Keeps.refl s) t h
  · exact execTimeJoinRecheck_keeps _ _ (Keeps.refl s) t h
  · exact execPpsPulse_keeps _ _ _ (Keeps.refl s) t h
  · exact execLeaseClaimCheck_keeps _ _ (Keeps.refl s) t h
  · exact execLeaseRenew_keeps _ _ _ (Keeps.refl s) t h
  · exact execAllotExtend_keeps _ _ (Keeps.refl s) t h
  · exact execAllotExtendCheck_keeps _ _ (Keeps.refl s) t h
  · exact execStartupLeaseClaim_keeps _ _ (Keeps.refl s) t h
  · exact execFaultDetect_keeps _ _ _ (Keeps.refl s) t h
  · exact execDdrChannelRebuild_keeps _ _ _ (Keeps.refl s) t h
  · exact execSpareGroupSwitch_keeps _ _ _ (Keeps.refl s) t h
  · exact execFaultClear_keeps _ _ _ _ (Keeps.refl s) t h
  · exact execFaultInject_keeps _ _ _ _ (Keeps.refl s) t h
  · exact execFltLock_keeps _ _ _ (Keeps.refl s) t h
  · exact execCycleCheck_keeps _ _ _ (Keeps.refl s) t h
  · exact execIdleTimerExpiry_keeps _ _ (Keeps.refl s) t h
  · exact execPowerExit_keeps _ _ (Keeps.refl s) t h
  · exact execPowerExitComplete_keeps _ _ (Keeps.refl s) t h
  · exact execSensorSample_keeps _ _ _ _ (Keeps.refl s) t h
  · exact execCapEvaluate_keeps _ _ (Keeps.refl s) t h
  · exact execClockLevelChange_keeps _ _ (Keeps.refl s) t h
  · exact execBusbarOvervoltage_keeps _ _ _ (Keeps.refl s) t h
  · exact execBusbarUndervoltage_keeps _ _ _ (Keeps.refl s) t h
  · exact execPowerOn_keeps _ _ _ _ _ (Keeps.refl s) t h
  · exact execProvisionalTimeout_keeps _ _ (Keeps.refl s) t h
  · exact execOrderlyShutdown_keeps _ _ (Keeps.refl s) t h
  · exact execGraceExpiry_keeps _ (Keeps.refl s) t h
  · exact execSanitiseComplete_keeps _ _ (Keeps.refl s) t h
  · exact execFormatComplete_keeps _ _ (Keeps.refl s) t h
  · exact execScmFailover_keeps _ (Keeps.refl s) t h
  · exact execBothScmFail_keeps _ (Keeps.refl s) t h
  · exact execTamperDetect_keeps _ _ _ (Keeps.refl s) t h
  · exact execReserveRecharged_keeps _ _ (Keeps.refl s) t h
  · exact execDebugTimeout_keeps _ _ (Keeps.refl s) t h
  · exact execChallengeLockoutEnd_keeps _ _ (Keeps.refl s) t h
  · exact execEngineReset_keeps _ _ _ (Keeps.refl s) t h
  · exact execRedfishPowerOff_keeps _ (Keeps.refl s) t h
  · exact execLocateRequest_keeps _ _ (Keeps.refl s) t h
  · exact execRecoveryDownload_keeps _ _ _ (Keeps.refl s) t h
  · exact execCellLoss_keeps _ _ (Keeps.refl s) t h
  · exact execScmRecovery_keeps _ _ (Keeps.refl s) t h
  · exact execReservedOpcode_keeps _ _ _ (Keeps.refl s) t h

/-- An idle nanosecond is an update that keeps what Keeps says, and then the clocks run. -/
theorem State.passTime_eq_tick (s : State) : ∃ u, Keeps s u ∧ s.passTime = u.tick := by
  refine ⟨_, State.shutdownCheck_keeps _ (Keeps.foldl (Keeps.foldl (Keeps.modEngines (Keeps.refl s) (fun _ x =>
    Engine.settleChannels_keeps x _ (EngKeeps.refl x))) (fun t e h => State.noteWear_keeps _ _ (State.noteIdle_keeps _ _ h)))
    (fun t p h => State.retryJobs_keeps _ _ h)), rfl⟩

/-- The clocks leave the pool, the lifecycle, the anchor and the image of an engine alone. -/
theorem State.tick_eng (s : State) (e : EngId) : EngKeeps (s.eng e) (s.tick.eng e) := by
  have : s.tick.eng e = (s.eng e).tick s.now := by simp [State.tick, State.eng]
  rw [this]
  exact (EngKeeps.refl _).same rfl rfl rfl rfl rfl rfl

end Sys2Proof.Machine
end

