-- ==== Sys2Proof/Laws/Mailbox.lean ====
section
/-! SUPPORT. What a mailbox request does: it starts at once under Starts, it sets OVERRUN while BUSY, it is ignored during a
partition reset (R82, R83, R87). -/

namespace Sys2Proof.Machine

/-- The mailbox of an engine after one mailbox of the state changed. -/
theorem State.modMailbox_mbx (s : State) (e : EngId) (k j : MbxKey) (f : Mailbox → Mailbox) :
    ((s.modMailbox e k f).eng e).mbx j = if j = k then f ((s.eng e).mbx j) else (s.eng e).mbx j := by
  cases k with
  | none => cases j <;> simp [State.modMailbox, State.modEng, State.setEng, State.eng, Engine.mbx]
  | some p =>
    cases j with
    | none => simp [State.modMailbox, State.modWin, State.modEng, State.setEng, State.eng, Engine.mbx, Engine.setWin]
    | some q =>
      by_cases h : q = p
      · subst h
        simp [State.modMailbox, State.modWin, State.modEng, State.setEng, State.eng, Engine.mbx, Engine.setWin]
      · have hv : p.val ≠ q.val := fun k => h (Fin.ext k.symm)
        simp [State.modMailbox, State.modWin, State.modEng, State.setEng, State.eng, Engine.mbx, Engine.setWin, h, hv]

theorem State.mailbox_eq (s : State) (e : EngId) (k : MbxKey) : s.mailbox e k = (s.eng e).mbx k := by
  cases k <;> rfl

theorem length_filterMap_le {α β : Type} (l : List α) (h : α → Option β) (p : α → Bool)
    (hp : ∀ a, (h a).isSome = true → p a = true) : (l.filterMap h).length ≤ (l.filter p).length := by
  induction l with
  | nil => simp
  | cons a l ih =>
    cases ha : h a with
    | none =>
      rw [List.filterMap_cons_none ha]
      exact ih.trans ((List.sublist_cons_self a l).filter p).length_le
    | some b =>
      rw [List.filterMap_cons_some ha, List.filter_cons_of_pos (hp a (by simp [ha]))]
      simpa using ih

theorem filterMap_single {α β : Type} [DecidableEq α] (l : List α) (k : α) (c : β) (hn : l.Nodup) (hk : k ∈ l) :
    l.filterMap (fun j => if j = k then some c else none) = [c] := by
  induction l with
  | nil => cases hk
  | cons a l ih =>
    rw [List.nodup_cons] at hn
    by_cases ha : a = k
    · subst ha
      have : l.filterMap (fun j => if j = a then some c else none) = [] := by
        rw [List.filterMap_eq_nil_iff]
        intro j hj
        rw [if_neg]
        rintro rfl
        exact hn.1 hj
      simp [this]
    · have hk' : k ∈ l := by
        rcases List.mem_cons.mp hk with h | h
        · exact absurd h.symm ha
        · exact h
      simp [ha, ih hn.2 hk']

theorem mbxKeys_nodup : mbxKeys.Nodup := by
  unfold mbxKeys
  rw [List.nodup_cons]
  exact ⟨by simp, (List.nodup_finRange 64).map (Option.some_injective _)⟩

theorem mem_mbxKeys (k : MbxKey) : k ∈ mbxKeys := by
  cases k <;> simp [mbxKeys]

/-- The one accepted command of an engine that may start is the next to start (R87). -/
theorem State.nextJob_one (s : State) (e : EngId) (k : MbxKey) (j : Job) (p : MbxKey → Bool)
    (hk : ((s.eng e).mbx k).job = some j) (hs : j.startable (s.eng e).power = true) (hg : s.gated e j = false)
    (ho : ∀ i, i ≠ k → ((s.eng e).mbx i).job.all Job.running = true)
    (hp : ∀ i, i ≠ k → ((s.eng e).mbx i).job.isSome = true → p i = true) (hc : (mbxKeys.filter p).length < 4) :
    s.nextJob e = some (k, j) := by
  generalize hx : s.eng e = x at *
  have hq : j.running = false := by
    unfold Job.startable at hs
    unfold Job.running
    cases h : j.phase <;> simp_all
  have hrun : ∀ i : Job, i.running = true → i.startable x.power = false := by
    intro i hi
    unfold Job.running at hi
    unfold Job.startable
    cases h : i.phase <;> simp_all
  have h1 : (mbxKeys.filterMap (fun i => ((x.mbx i).job.map (fun c => (i, c))).filter (fun c => c.2.running))).length < 4 := by
    refine lt_of_le_of_lt (length_filterMap_le _ _ p ?_) hc
    intro i hi
    by_cases h : i = k
    · subst h
      simp [hk, hq] at hi
    · refine hp i h ?_
      cases hj : (x.mbx i).job <;> simp_all
  have h2 : (mbxKeys.filterMap (fun i => ((x.mbx i).job.map (fun c => (i, c))).filter (fun c => c.2.startable x.power && !s.gated e c.2)))
      = [(k, j)] := by
    rw [← filterMap_single mbxKeys k (k, j) mbxKeys_nodup (mem_mbxKeys k)]
    refine List.filterMap_congr (fun i _ => ?_)
    by_cases h : i = k
    · subst h
      simp [hk, hs, hg]
    · have := ho i h
      cases hj : (x.mbx i).job with
      | none => simp [h]
      | some c =>
        rw [hj] at this
        simp only [Option.all_some] at this
        simp [h, hrun c this]
  unfold State.nextJob
  simp only [hx, List.filter_filterMap]
  rw [if_neg (by omega), h2]
  rfl

/-- The mailboxes of the engine once a request is accepted. -/
theorem State.accepted_mbx (s : State) (op : Nat) (m : MbxReq) (k i : MbxKey) (p : PartId) :
    ((s.accepted op m k p).eng m.eng).mbx i = if i = k then
      { (s.eng m.eng).mbx k with
        cmd := commandBytes op m, done := false,
        job := some { cmd := commandBytes op m, part := p, path := m.path, buf := m.buf, fail := m.fail,
                      flash := m.flash, order := (s.eng m.eng).orderCount, phase := .queued,
                      power := !(s.eng m.eng).power.admits (byteAt (commandBytes op m) 0).toNat, effect := false,
                      lost := false, since := s.now, late := s.shutdown.isSome } }
      else (s.eng m.eng).mbx i := by
  have hw : ∀ (t : State) (j : MbxKey), ((t.wakeFor m.eng op).eng m.eng).mbx j = (t.eng m.eng).mbx j := by
    intro t j
    unfold State.wakeFor
    split
    · rfl
    · cases j <;> simp [State.wake, State.modEng, State.setEng, State.eng, Engine.mbx, Engine.wake]
  have ho : ∀ (t : State) (n : Nat) (j : MbxKey),
      ((t.modEng m.eng (fun x => { x with orderCount := n })).eng m.eng).mbx j = (t.eng m.eng).mbx j := by
    intro t n j
    cases j <;> simp [State.modEng, State.setEng, State.eng, Engine.mbx]
  unfold State.accepted State.acceptMailbox
  rw [hw, State.modMailbox_mbx]
  by_cases h : i = k
  · subst h
    simp only [if_true]
    rw [show ((s.modEng m.eng (fun x => { x with orderCount := x.orderCount + 1 })).eng m.eng).mbx i = (s.eng m.eng).mbx i
      from ho s _ i]
  · simp only [h, if_false]
    exact ho s _ i

/-- Acceptance does not change the power state of the engine. -/
theorem State.accepted_state (s : State) (op : Nat) (m : MbxReq) (k : MbxKey) (p : PartId) :
    ((s.accepted op m k p).eng m.eng).power.state = (s.eng m.eng).power.state := by
  unfold State.accepted State.acceptMailbox State.wakeFor
  split <;> cases k <;>
    simp [State.wake, State.modMailbox, State.modWin, State.modEng, State.setEng, State.eng, Engine.setWin, Engine.wake]

theorem State.accepted_admits (s : State) (op n : Nat) (m : MbxReq) (k : MbxKey) (p : PartId) :
    ((s.accepted op m k p).eng m.eng).power.admits n = (s.eng m.eng).power.admits n := by
  simp only [PowerHeat.admits, PowerHeat.low, State.accepted_state]

/-- Acceptance changes no partition. -/
theorem State.accepted_part (s : State) (op : Nat) (m : MbxReq) (k : MbxKey) (p q : PartId) :
    (s.accepted op m k p).part q = s.part q := by
  unfold State.accepted State.acceptMailbox State.wakeFor
  split <;> cases k <;>
    simp [State.wake, State.modMailbox, State.modWin, State.modEng, State.setEng, State.part]

/-- The opcode of a request's bytes. -/
theorem commandBytes_op (op : Nat) (m : MbxReq) (h : op < 256) : (byteAt (commandBytes op m) 0).toNat = op := by
  simp [commandBytes, byteAt, Nat.mod_eq_of_lt h]

/-- A request that meets Starts is accepted, starts and runs its command, and then what waited may start. -/
theorem submitMailbox_starts {op : Nat} {m : MbxReq} {s : State} {k : MbxKey} {p : PartId} (hop : op < 256)
    (h : Starts op m s k p) :
    submitMailbox op m s = (mbxCall m op k p s).finish (runCommand (mbxCall m op k p s) (s.accepted op m k p)) := by
  obtain ⟨hj, hgate, hk, hfree, hres, hadm, hrun, hcnt⟩ := h
  rw [State.mailbox_eq] at hfree
  unfold submitMailbox
  rw [if_neg (by
    rcases hj with h | h <;> simp [h])]
  simp only [hk, State.mailbox_eq, hfree, Option.isSome_none, Bool.false_eq_true, if_false]
  rw [if_neg (by cases k <;> simp_all)]
  have hjob := State.nextJob_one (s.accepted op m k p) m.eng k _ (fun j => ((s.eng m.eng).mbx j).job.isSome)
    (by rw [State.accepted_mbx, if_pos rfl]) (by
      simp only [Job.startable, Job.op, State.accepted_admits, commandBytes_op _ _ hop]
      exact hadm) (by
      simp only [State.gated, Job.op, commandBytes_op _ _ hop, State.accepted_part]
      by_cases h : op ∈ ([0x40, 0x42, 0x43, 0x45] : List Nat)
      · simp [hgate h]
      · simp [List.contains_iff_mem, h]) (by
      intro i hi
      rw [State.accepted_mbx, if_neg hi]
      exact List.all_eq_true.mp hrun i (mem_mbxKeys i)) (by
      intro i hi ha
      rwa [State.accepted_mbx, if_neg hi] at ha) hcnt
  show (s.accepted op m k p).startJobs m.eng 65 = _
  rw [State.startJobs, hjob]
  rfl

end Sys2Proof.Machine
end

