-- ==== Sys2Proof/Laws/State.lean ====
section
/-! SUPPORT. The state after each of its updates: what every field is where the update leaves it alone, and what the parts that
were replaced are. -/

namespace Sys2Proof.Machine

/-! ### What an update replaces -/

@[simp] theorem State.eng_setEng (s : State) (e : EngId) (x : Engine) : (s.setEng e x).eng e = x := by
  simp [State.eng, State.setEng]

theorem State.eng_setEng_ne (s : State) {e i : EngId} (x : Engine) (h : i ≠ e) : (s.setEng e x).eng i = s.eng i := by
  have hv : e.val ≠ i.val := fun k => h (Fin.ext k.symm)
  simp [State.eng, State.setEng, hv]

@[simp] theorem State.eng_modEng (s : State) (e : EngId) (f : Engine → Engine) : (s.modEng e f).eng e = f (s.eng e) :=
  State.eng_setEng s e _

theorem State.eng_modEng_ne (s : State) {e i : EngId} (f : Engine → Engine) (h : i ≠ e) : (s.modEng e f).eng i = s.eng i :=
  State.eng_setEng_ne s _ h

@[simp] theorem State.eng_modEngines (s : State) (m : BitVec 16) (f : EngId → Engine → Engine) (e : EngId) :
    (s.modEngines m f).eng e = if hasEngine m e then f e (s.eng e) else s.eng e := by
  simp [State.eng, State.modEngines]

@[simp] theorem State.win_modWin (s : State) (e : EngId) (p : PartId) (f : Window → Window) :
    (s.modWin e p f).win e p = f (s.win e p) := by
  simp [State.win, State.modWin, Engine.setWin]

@[simp] theorem State.part_setPart (s : State) (p : PartId) (x : Partition) : (s.setPart p x).part p = x := by
  simp [State.part, State.setPart]

theorem State.part_setPart_ne (s : State) {p q : PartId} (x : Partition) (h : q ≠ p) : (s.setPart p x).part q = s.part q := by
  have hv : p.val ≠ q.val := fun k => h (Fin.ext k.symm)
  simp [State.part, State.setPart, hv]

@[simp] theorem State.part_modPart (s : State) (p : PartId) (f : Partition → Partition) : (s.modPart p f).part p = f (s.part p) :=
  State.part_setPart s p _

theorem State.part_modPart_ne (s : State) {p q : PartId} (f : Partition → Partition) (h : q ≠ p) :
    (s.modPart p f).part q = s.part q := State.part_setPart_ne s _ h

@[simp] theorem State.part_modEng (s : State) (e : EngId) (f : Engine → Engine) (p : PartId) : (s.modEng e f).part p = s.part p :=
  rfl

@[simp] theorem State.part_modWin (s : State) (e : EngId) (p q : PartId) (f : Window → Window) :
    (s.modWin e p f).part q = s.part q := rfl

@[simp] theorem State.eng_modPart (s : State) (p : PartId) (f : Partition → Partition) (e : EngId) :
    (s.modPart p f).eng e = s.eng e := rfl

@[simp] theorem State.win_modPart (s : State) (p q : PartId) (f : Partition → Partition) (e : EngId) :
    (s.modPart p f).win e q = s.win e q := rfl

/-! ### Replacing one engine leaves every other field alone -/

@[simp] theorem State.setEng_pending (s : State) (e : EngId) (x : Engine) : (s.setEng e x).pending = s.pending := rfl
@[simp] theorem State.setEng_now (s : State) (e : EngId) (x : Engine) : (s.setEng e x).now = s.now := rfl
@[simp] theorem State.setEng_freeCount (s : State) (e : EngId) (x : Engine) : (s.setEng e x).freeCount = s.freeCount := rfl
@[simp] theorem State.setEng_lockOrder (s : State) (e : EngId) (x : Engine) : (s.setEng e x).lockOrder = s.lockOrder := rfl
@[simp] theorem State.setEng_delivered (s : State) (e : EngId) (x : Engine) : (s.setEng e x).delivered = s.delivered := rfl
@[simp] theorem State.setEng_outbox (s : State) (e : EngId) (x : Engine) : (s.setEng e x).outbox = s.outbox := rfl
@[simp] theorem State.setEng_plant (s : State) (e : EngId) (x : Engine) : (s.setEng e x).plant = s.plant := rfl
@[simp] theorem State.setEng_membership (s : State) (e : EngId) (x : Engine) : (s.setEng e x).membership = s.membership := rfl
@[simp] theorem State.setEng_record (s : State) (e : EngId) (x : Engine) : (s.setEng e x).record = s.record := rfl
@[simp] theorem State.setEng_adoption (s : State) (e : EngId) (x : Engine) : (s.setEng e x).adoption = s.adoption := rfl
@[simp] theorem State.setEng_tide (s : State) (e : EngId) (x : Engine) : (s.setEng e x).tide = s.tide := rfl
@[simp] theorem State.setEng_campaigns (s : State) (e : EngId) (x : Engine) : (s.setEng e x).campaigns = s.campaigns := rfl
@[simp] theorem State.setEng_timeSrc (s : State) (e : EngId) (x : Engine) : (s.setEng e x).timeSrc = s.timeSrc := rfl
@[simp] theorem State.setEng_cap (s : State) (e : EngId) (x : Engine) : (s.setEng e x).cap = s.cap := rfl
@[simp] theorem State.setEng_store (s : State) (e : EngId) (x : Engine) : (s.setEng e x).store = s.store := rfl
@[simp] theorem State.setEng_sanitise (s : State) (e : EngId) (x : Engine) : (s.setEng e x).sanitise = s.sanitise := rfl
@[simp] theorem State.setEng_sanitiseFailed (s : State) (e : EngId) (x : Engine) : (s.setEng e x).sanitiseFailed = s.sanitiseFailed := rfl
@[simp] theorem State.setEng_shutdown (s : State) (e : EngId) (x : Engine) : (s.setEng e x).shutdown = s.shutdown := rfl
@[simp] theorem State.setEng_features (s : State) (e : EngId) (x : Engine) : (s.setEng e x).features = s.features := rfl
@[simp] theorem State.setEng_redfishLog (s : State) (e : EngId) (x : Engine) : (s.setEng e x).redfishLog = s.redfishLog := rfl
@[simp] theorem State.setEng_parts (s : State) (e : EngId) (x : Engine) : (s.setEng e x).parts = s.parts := rfl

/-! ### Updating one engine leaves every other field alone -/

@[simp] theorem State.modEng_pending (s : State) (e : EngId) (f : Engine → Engine) : (s.modEng e f).pending = s.pending := rfl
@[simp] theorem State.modEng_now (s : State) (e : EngId) (f : Engine → Engine) : (s.modEng e f).now = s.now := rfl
@[simp] theorem State.modEng_freeCount (s : State) (e : EngId) (f : Engine → Engine) : (s.modEng e f).freeCount = s.freeCount := rfl
@[simp] theorem State.modEng_lockOrder (s : State) (e : EngId) (f : Engine → Engine) : (s.modEng e f).lockOrder = s.lockOrder := rfl
@[simp] theorem State.modEng_delivered (s : State) (e : EngId) (f : Engine → Engine) : (s.modEng e f).delivered = s.delivered := rfl
@[simp] theorem State.modEng_outbox (s : State) (e : EngId) (f : Engine → Engine) : (s.modEng e f).outbox = s.outbox := rfl
@[simp] theorem State.modEng_plant (s : State) (e : EngId) (f : Engine → Engine) : (s.modEng e f).plant = s.plant := rfl
@[simp] theorem State.modEng_membership (s : State) (e : EngId) (f : Engine → Engine) : (s.modEng e f).membership = s.membership := rfl
@[simp] theorem State.modEng_record (s : State) (e : EngId) (f : Engine → Engine) : (s.modEng e f).record = s.record := rfl
@[simp] theorem State.modEng_adoption (s : State) (e : EngId) (f : Engine → Engine) : (s.modEng e f).adoption = s.adoption := rfl
@[simp] theorem State.modEng_tide (s : State) (e : EngId) (f : Engine → Engine) : (s.modEng e f).tide = s.tide := rfl
@[simp] theorem State.modEng_campaigns (s : State) (e : EngId) (f : Engine → Engine) : (s.modEng e f).campaigns = s.campaigns := rfl
@[simp] theorem State.modEng_timeSrc (s : State) (e : EngId) (f : Engine → Engine) : (s.modEng e f).timeSrc = s.timeSrc := rfl
@[simp] theorem State.modEng_cap (s : State) (e : EngId) (f : Engine → Engine) : (s.modEng e f).cap = s.cap := rfl
@[simp] theorem State.modEng_store (s : State) (e : EngId) (f : Engine → Engine) : (s.modEng e f).store = s.store := rfl
@[simp] theorem State.modEng_sanitise (s : State) (e : EngId) (f : Engine → Engine) : (s.modEng e f).sanitise = s.sanitise := rfl
@[simp] theorem State.modEng_sanitiseFailed (s : State) (e : EngId) (f : Engine → Engine) : (s.modEng e f).sanitiseFailed = s.sanitiseFailed := rfl
@[simp] theorem State.modEng_shutdown (s : State) (e : EngId) (f : Engine → Engine) : (s.modEng e f).shutdown = s.shutdown := rfl
@[simp] theorem State.modEng_features (s : State) (e : EngId) (f : Engine → Engine) : (s.modEng e f).features = s.features := rfl
@[simp] theorem State.modEng_redfishLog (s : State) (e : EngId) (f : Engine → Engine) : (s.modEng e f).redfishLog = s.redfishLog := rfl
@[simp] theorem State.modEng_parts (s : State) (e : EngId) (f : Engine → Engine) : (s.modEng e f).parts = s.parts := rfl

/-! ### Updating the engines of a mask leaves every other field alone -/

@[simp] theorem State.modEngines_pending (s : State) (m : BitVec 16) (f : EngId → Engine → Engine) : (s.modEngines m f).pending = s.pending := rfl
@[simp] theorem State.modEngines_now (s : State) (m : BitVec 16) (f : EngId → Engine → Engine) : (s.modEngines m f).now = s.now := rfl
@[simp] theorem State.modEngines_freeCount (s : State) (m : BitVec 16) (f : EngId → Engine → Engine) : (s.modEngines m f).freeCount = s.freeCount := rfl
@[simp] theorem State.modEngines_lockOrder (s : State) (m : BitVec 16) (f : EngId → Engine → Engine) : (s.modEngines m f).lockOrder = s.lockOrder := rfl
@[simp] theorem State.modEngines_delivered (s : State) (m : BitVec 16) (f : EngId → Engine → Engine) : (s.modEngines m f).delivered = s.delivered := rfl
@[simp] theorem State.modEngines_outbox (s : State) (m : BitVec 16) (f : EngId → Engine → Engine) : (s.modEngines m f).outbox = s.outbox := rfl
@[simp] theorem State.modEngines_plant (s : State) (m : BitVec 16) (f : EngId → Engine → Engine) : (s.modEngines m f).plant = s.plant := rfl
@[simp] theorem State.modEngines_membership (s : State) (m : BitVec 16) (f : EngId → Engine → Engine) : (s.modEngines m f).membership = s.membership := rfl
@[simp] theorem State.modEngines_record (s : State) (m : BitVec 16) (f : EngId → Engine → Engine) : (s.modEngines m f).record = s.record := rfl
@[simp] theorem State.modEngines_adoption (s : State) (m : BitVec 16) (f : EngId → Engine → Engine) : (s.modEngines m f).adoption = s.adoption := rfl
@[simp] theorem State.modEngines_tide (s : State) (m : BitVec 16) (f : EngId → Engine → Engine) : (s.modEngines m f).tide = s.tide := rfl
@[simp] theorem State.modEngines_campaigns (s : State) (m : BitVec 16) (f : EngId → Engine → Engine) : (s.modEngines m f).campaigns = s.campaigns := rfl
@[simp] theorem State.modEngines_timeSrc (s : State) (m : BitVec 16) (f : EngId → Engine → Engine) : (s.modEngines m f).timeSrc = s.timeSrc := rfl
@[simp] theorem State.modEngines_cap (s : State) (m : BitVec 16) (f : EngId → Engine → Engine) : (s.modEngines m f).cap = s.cap := rfl
@[simp] theorem State.modEngines_store (s : State) (m : BitVec 16) (f : EngId → Engine → Engine) : (s.modEngines m f).store = s.store := rfl
@[simp] theorem State.modEngines_sanitise (s : State) (m : BitVec 16) (f : EngId → Engine → Engine) : (s.modEngines m f).sanitise = s.sanitise := rfl
@[simp] theorem State.modEngines_sanitiseFailed (s : State) (m : BitVec 16) (f : EngId → Engine → Engine) : (s.modEngines m f).sanitiseFailed = s.sanitiseFailed := rfl
@[simp] theorem State.modEngines_shutdown (s : State) (m : BitVec 16) (f : EngId → Engine → Engine) : (s.modEngines m f).shutdown = s.shutdown := rfl
@[simp] theorem State.modEngines_features (s : State) (m : BitVec 16) (f : EngId → Engine → Engine) : (s.modEngines m f).features = s.features := rfl
@[simp] theorem State.modEngines_redfishLog (s : State) (m : BitVec 16) (f : EngId → Engine → Engine) : (s.modEngines m f).redfishLog = s.redfishLog := rfl
@[simp] theorem State.modEngines_parts (s : State) (m : BitVec 16) (f : EngId → Engine → Engine) : (s.modEngines m f).parts = s.parts := rfl

/-! ### Updating one window leaves every other field alone -/

@[simp] theorem State.modWin_pending (s : State) (e : EngId) (p : PartId) (f : Window → Window) : (s.modWin e p f).pending = s.pending := rfl
@[simp] theorem State.modWin_now (s : State) (e : EngId) (p : PartId) (f : Window → Window) : (s.modWin e p f).now = s.now := rfl
@[simp] theorem State.modWin_freeCount (s : State) (e : EngId) (p : PartId) (f : Window → Window) : (s.modWin e p f).freeCount = s.freeCount := rfl
@[simp] theorem State.modWin_lockOrder (s : State) (e : EngId) (p : PartId) (f : Window → Window) : (s.modWin e p f).lockOrder = s.lockOrder := rfl
@[simp] theorem State.modWin_delivered (s : State) (e : EngId) (p : PartId) (f : Window → Window) : (s.modWin e p f).delivered = s.delivered := rfl
@[simp] theorem State.modWin_outbox (s : State) (e : EngId) (p : PartId) (f : Window → Window) : (s.modWin e p f).outbox = s.outbox := rfl
@[simp] theorem State.modWin_plant (s : State) (e : EngId) (p : PartId) (f : Window → Window) : (s.modWin e p f).plant = s.plant := rfl
@[simp] theorem State.modWin_membership (s : State) (e : EngId) (p : PartId) (f : Window → Window) : (s.modWin e p f).membership = s.membership := rfl
@[simp] theorem State.modWin_record (s : State) (e : EngId) (p : PartId) (f : Window → Window) : (s.modWin e p f).record = s.record := rfl
@[simp] theorem State.modWin_adoption (s : State) (e : EngId) (p : PartId) (f : Window → Window) : (s.modWin e p f).adoption = s.adoption := rfl
@[simp] theorem State.modWin_tide (s : State) (e : EngId) (p : PartId) (f : Window → Window) : (s.modWin e p f).tide = s.tide := rfl
@[simp] theorem State.modWin_campaigns (s : State) (e : EngId) (p : PartId) (f : Window → Window) : (s.modWin e p f).campaigns = s.campaigns := rfl
@[simp] theorem State.modWin_timeSrc (s : State) (e : EngId) (p : PartId) (f : Window → Window) : (s.modWin e p f).timeSrc = s.timeSrc := rfl
@[simp] theorem State.modWin_cap (s : State) (e : EngId) (p : PartId) (f : Window → Window) : (s.modWin e p f).cap = s.cap := rfl
@[simp] theorem State.modWin_store (s : State) (e : EngId) (p : PartId) (f : Window → Window) : (s.modWin e p f).store = s.store := rfl
@[simp] theorem State.modWin_sanitise (s : State) (e : EngId) (p : PartId) (f : Window → Window) : (s.modWin e p f).sanitise = s.sanitise := rfl
@[simp] theorem State.modWin_sanitiseFailed (s : State) (e : EngId) (p : PartId) (f : Window → Window) : (s.modWin e p f).sanitiseFailed = s.sanitiseFailed := rfl
@[simp] theorem State.modWin_shutdown (s : State) (e : EngId) (p : PartId) (f : Window → Window) : (s.modWin e p f).shutdown = s.shutdown := rfl
@[simp] theorem State.modWin_features (s : State) (e : EngId) (p : PartId) (f : Window → Window) : (s.modWin e p f).features = s.features := rfl
@[simp] theorem State.modWin_redfishLog (s : State) (e : EngId) (p : PartId) (f : Window → Window) : (s.modWin e p f).redfishLog = s.redfishLog := rfl
@[simp] theorem State.modWin_parts (s : State) (e : EngId) (p : PartId) (f : Window → Window) : (s.modWin e p f).parts = s.parts := rfl

/-! ### Updating one stream leaves every other field alone -/

@[simp] theorem State.modStream_pending (s : State) (a : StreamAt) (f : Stream → Stream) : (s.modStream a f).pending = s.pending := rfl
@[simp] theorem State.modStream_now (s : State) (a : StreamAt) (f : Stream → Stream) : (s.modStream a f).now = s.now := rfl
@[simp] theorem State.modStream_freeCount (s : State) (a : StreamAt) (f : Stream → Stream) : (s.modStream a f).freeCount = s.freeCount := rfl
@[simp] theorem State.modStream_lockOrder (s : State) (a : StreamAt) (f : Stream → Stream) : (s.modStream a f).lockOrder = s.lockOrder := rfl
@[simp] theorem State.modStream_delivered (s : State) (a : StreamAt) (f : Stream → Stream) : (s.modStream a f).delivered = s.delivered := rfl
@[simp] theorem State.modStream_outbox (s : State) (a : StreamAt) (f : Stream → Stream) : (s.modStream a f).outbox = s.outbox := rfl
@[simp] theorem State.modStream_plant (s : State) (a : StreamAt) (f : Stream → Stream) : (s.modStream a f).plant = s.plant := rfl
@[simp] theorem State.modStream_membership (s : State) (a : StreamAt) (f : Stream → Stream) : (s.modStream a f).membership = s.membership := rfl
@[simp] theorem State.modStream_record (s : State) (a : StreamAt) (f : Stream → Stream) : (s.modStream a f).record = s.record := rfl
@[simp] theorem State.modStream_adoption (s : State) (a : StreamAt) (f : Stream → Stream) : (s.modStream a f).adoption = s.adoption := rfl
@[simp] theorem State.modStream_tide (s : State) (a : StreamAt) (f : Stream → Stream) : (s.modStream a f).tide = s.tide := rfl
@[simp] theorem State.modStream_campaigns (s : State) (a : StreamAt) (f : Stream → Stream) : (s.modStream a f).campaigns = s.campaigns := rfl
@[simp] theorem State.modStream_timeSrc (s : State) (a : StreamAt) (f : Stream → Stream) : (s.modStream a f).timeSrc = s.timeSrc := rfl
@[simp] theorem State.modStream_cap (s : State) (a : StreamAt) (f : Stream → Stream) : (s.modStream a f).cap = s.cap := rfl
@[simp] theorem State.modStream_store (s : State) (a : StreamAt) (f : Stream → Stream) : (s.modStream a f).store = s.store := rfl
@[simp] theorem State.modStream_sanitise (s : State) (a : StreamAt) (f : Stream → Stream) : (s.modStream a f).sanitise = s.sanitise := rfl
@[simp] theorem State.modStream_sanitiseFailed (s : State) (a : StreamAt) (f : Stream → Stream) : (s.modStream a f).sanitiseFailed = s.sanitiseFailed := rfl
@[simp] theorem State.modStream_shutdown (s : State) (a : StreamAt) (f : Stream → Stream) : (s.modStream a f).shutdown = s.shutdown := rfl
@[simp] theorem State.modStream_features (s : State) (a : StreamAt) (f : Stream → Stream) : (s.modStream a f).features = s.features := rfl
@[simp] theorem State.modStream_redfishLog (s : State) (a : StreamAt) (f : Stream → Stream) : (s.modStream a f).redfishLog = s.redfishLog := rfl
@[simp] theorem State.modStream_parts (s : State) (a : StreamAt) (f : Stream → Stream) : (s.modStream a f).parts = s.parts := rfl

/-! ### Replacing one partition leaves every other field alone -/

@[simp] theorem State.setPart_pending (s : State) (p : PartId) (x : Partition) : (s.setPart p x).pending = s.pending := rfl
@[simp] theorem State.setPart_now (s : State) (p : PartId) (x : Partition) : (s.setPart p x).now = s.now := rfl
@[simp] theorem State.setPart_freeCount (s : State) (p : PartId) (x : Partition) : (s.setPart p x).freeCount = s.freeCount := rfl
@[simp] theorem State.setPart_lockOrder (s : State) (p : PartId) (x : Partition) : (s.setPart p x).lockOrder = s.lockOrder := rfl
@[simp] theorem State.setPart_delivered (s : State) (p : PartId) (x : Partition) : (s.setPart p x).delivered = s.delivered := rfl
@[simp] theorem State.setPart_outbox (s : State) (p : PartId) (x : Partition) : (s.setPart p x).outbox = s.outbox := rfl
@[simp] theorem State.setPart_plant (s : State) (p : PartId) (x : Partition) : (s.setPart p x).plant = s.plant := rfl
@[simp] theorem State.setPart_membership (s : State) (p : PartId) (x : Partition) : (s.setPart p x).membership = s.membership := rfl
@[simp] theorem State.setPart_record (s : State) (p : PartId) (x : Partition) : (s.setPart p x).record = s.record := rfl
@[simp] theorem State.setPart_adoption (s : State) (p : PartId) (x : Partition) : (s.setPart p x).adoption = s.adoption := rfl
@[simp] theorem State.setPart_tide (s : State) (p : PartId) (x : Partition) : (s.setPart p x).tide = s.tide := rfl
@[simp] theorem State.setPart_campaigns (s : State) (p : PartId) (x : Partition) : (s.setPart p x).campaigns = s.campaigns := rfl
@[simp] theorem State.setPart_timeSrc (s : State) (p : PartId) (x : Partition) : (s.setPart p x).timeSrc = s.timeSrc := rfl
@[simp] theorem State.setPart_cap (s : State) (p : PartId) (x : Partition) : (s.setPart p x).cap = s.cap := rfl
@[simp] theorem State.setPart_store (s : State) (p : PartId) (x : Partition) : (s.setPart p x).store = s.store := rfl
@[simp] theorem State.setPart_sanitise (s : State) (p : PartId) (x : Partition) : (s.setPart p x).sanitise = s.sanitise := rfl
@[simp] theorem State.setPart_sanitiseFailed (s : State) (p : PartId) (x : Partition) : (s.setPart p x).sanitiseFailed = s.sanitiseFailed := rfl
@[simp] theorem State.setPart_shutdown (s : State) (p : PartId) (x : Partition) : (s.setPart p x).shutdown = s.shutdown := rfl
@[simp] theorem State.setPart_features (s : State) (p : PartId) (x : Partition) : (s.setPart p x).features = s.features := rfl
@[simp] theorem State.setPart_redfishLog (s : State) (p : PartId) (x : Partition) : (s.setPart p x).redfishLog = s.redfishLog := rfl
@[simp] theorem State.setPart_engines (s : State) (p : PartId) (x : Partition) : (s.setPart p x).engines = s.engines := rfl

/-! ### Updating one partition leaves every other field alone -/

@[simp] theorem State.modPart_pending (s : State) (p : PartId) (f : Partition → Partition) : (s.modPart p f).pending = s.pending := rfl
@[simp] theorem State.modPart_now (s : State) (p : PartId) (f : Partition → Partition) : (s.modPart p f).now = s.now := rfl
@[simp] theorem State.modPart_freeCount (s : State) (p : PartId) (f : Partition → Partition) : (s.modPart p f).freeCount = s.freeCount := rfl
@[simp] theorem State.modPart_lockOrder (s : State) (p : PartId) (f : Partition → Partition) : (s.modPart p f).lockOrder = s.lockOrder := rfl
@[simp] theorem State.modPart_delivered (s : State) (p : PartId) (f : Partition → Partition) : (s.modPart p f).delivered = s.delivered := rfl
@[simp] theorem State.modPart_outbox (s : State) (p : PartId) (f : Partition → Partition) : (s.modPart p f).outbox = s.outbox := rfl
@[simp] theorem State.modPart_plant (s : State) (p : PartId) (f : Partition → Partition) : (s.modPart p f).plant = s.plant := rfl
@[simp] theorem State.modPart_membership (s : State) (p : PartId) (f : Partition → Partition) : (s.modPart p f).membership = s.membership := rfl
@[simp] theorem State.modPart_record (s : State) (p : PartId) (f : Partition → Partition) : (s.modPart p f).record = s.record := rfl
@[simp] theorem State.modPart_adoption (s : State) (p : PartId) (f : Partition → Partition) : (s.modPart p f).adoption = s.adoption := rfl
@[simp] theorem State.modPart_tide (s : State) (p : PartId) (f : Partition → Partition) : (s.modPart p f).tide = s.tide := rfl
@[simp] theorem State.modPart_campaigns (s : State) (p : PartId) (f : Partition → Partition) : (s.modPart p f).campaigns = s.campaigns := rfl
@[simp] theorem State.modPart_timeSrc (s : State) (p : PartId) (f : Partition → Partition) : (s.modPart p f).timeSrc = s.timeSrc := rfl
@[simp] theorem State.modPart_cap (s : State) (p : PartId) (f : Partition → Partition) : (s.modPart p f).cap = s.cap := rfl
@[simp] theorem State.modPart_store (s : State) (p : PartId) (f : Partition → Partition) : (s.modPart p f).store = s.store := rfl
@[simp] theorem State.modPart_sanitise (s : State) (p : PartId) (f : Partition → Partition) : (s.modPart p f).sanitise = s.sanitise := rfl
@[simp] theorem State.modPart_sanitiseFailed (s : State) (p : PartId) (f : Partition → Partition) : (s.modPart p f).sanitiseFailed = s.sanitiseFailed := rfl
@[simp] theorem State.modPart_shutdown (s : State) (p : PartId) (f : Partition → Partition) : (s.modPart p f).shutdown = s.shutdown := rfl
@[simp] theorem State.modPart_features (s : State) (p : PartId) (f : Partition → Partition) : (s.modPart p f).features = s.features := rfl
@[simp] theorem State.modPart_redfishLog (s : State) (p : PartId) (f : Partition → Partition) : (s.modPart p f).redfishLog = s.redfishLog := rfl
@[simp] theorem State.modPart_engines (s : State) (p : PartId) (f : Partition → Partition) : (s.modPart p f).engines = s.engines := rfl

/-! ### Updating a partition's entry of the record leaves every other field alone -/

@[simp] theorem State.modCfg_pending (s : State) (p : PartId) (f : PartCfg → PartCfg) : (s.modCfg p f).pending = s.pending := rfl
@[simp] theorem State.modCfg_now (s : State) (p : PartId) (f : PartCfg → PartCfg) : (s.modCfg p f).now = s.now := rfl
@[simp] theorem State.modCfg_freeCount (s : State) (p : PartId) (f : PartCfg → PartCfg) : (s.modCfg p f).freeCount = s.freeCount := rfl
@[simp] theorem State.modCfg_lockOrder (s : State) (p : PartId) (f : PartCfg → PartCfg) : (s.modCfg p f).lockOrder = s.lockOrder := rfl
@[simp] theorem State.modCfg_delivered (s : State) (p : PartId) (f : PartCfg → PartCfg) : (s.modCfg p f).delivered = s.delivered := rfl
@[simp] theorem State.modCfg_outbox (s : State) (p : PartId) (f : PartCfg → PartCfg) : (s.modCfg p f).outbox = s.outbox := rfl
@[simp] theorem State.modCfg_plant (s : State) (p : PartId) (f : PartCfg → PartCfg) : (s.modCfg p f).plant = s.plant := rfl
@[simp] theorem State.modCfg_membership (s : State) (p : PartId) (f : PartCfg → PartCfg) : (s.modCfg p f).membership = s.membership := rfl
@[simp] theorem State.modCfg_adoption (s : State) (p : PartId) (f : PartCfg → PartCfg) : (s.modCfg p f).adoption = s.adoption := rfl
@[simp] theorem State.modCfg_tide (s : State) (p : PartId) (f : PartCfg → PartCfg) : (s.modCfg p f).tide = s.tide := rfl
@[simp] theorem State.modCfg_campaigns (s : State) (p : PartId) (f : PartCfg → PartCfg) : (s.modCfg p f).campaigns = s.campaigns := rfl
@[simp] theorem State.modCfg_timeSrc (s : State) (p : PartId) (f : PartCfg → PartCfg) : (s.modCfg p f).timeSrc = s.timeSrc := rfl
@[simp] theorem State.modCfg_cap (s : State) (p : PartId) (f : PartCfg → PartCfg) : (s.modCfg p f).cap = s.cap := rfl
@[simp] theorem State.modCfg_store (s : State) (p : PartId) (f : PartCfg → PartCfg) : (s.modCfg p f).store = s.store := rfl
@[simp] theorem State.modCfg_sanitise (s : State) (p : PartId) (f : PartCfg → PartCfg) : (s.modCfg p f).sanitise = s.sanitise := rfl
@[simp] theorem State.modCfg_sanitiseFailed (s : State) (p : PartId) (f : PartCfg → PartCfg) : (s.modCfg p f).sanitiseFailed = s.sanitiseFailed := rfl
@[simp] theorem State.modCfg_shutdown (s : State) (p : PartId) (f : PartCfg → PartCfg) : (s.modCfg p f).shutdown = s.shutdown := rfl
@[simp] theorem State.modCfg_features (s : State) (p : PartId) (f : PartCfg → PartCfg) : (s.modCfg p f).features = s.features := rfl
@[simp] theorem State.modCfg_redfishLog (s : State) (p : PartId) (f : PartCfg → PartCfg) : (s.modCfg p f).redfishLog = s.redfishLog := rfl
@[simp] theorem State.modCfg_engines (s : State) (p : PartId) (f : PartCfg → PartCfg) : (s.modCfg p f).engines = s.engines := rfl
@[simp] theorem State.modCfg_parts (s : State) (p : PartId) (f : PartCfg → PartCfg) : (s.modCfg p f).parts = s.parts := rfl

/-! ### Drawing a free value leaves every other field alone -/

@[simp] theorem State.draw_pending (s : State) (w : Nat) : (s.draw w).2.pending = s.pending := rfl
@[simp] theorem State.draw_now (s : State) (w : Nat) : (s.draw w).2.now = s.now := rfl
@[simp] theorem State.draw_lockOrder (s : State) (w : Nat) : (s.draw w).2.lockOrder = s.lockOrder := rfl
@[simp] theorem State.draw_delivered (s : State) (w : Nat) : (s.draw w).2.delivered = s.delivered := rfl
@[simp] theorem State.draw_outbox (s : State) (w : Nat) : (s.draw w).2.outbox = s.outbox := rfl
@[simp] theorem State.draw_plant (s : State) (w : Nat) : (s.draw w).2.plant = s.plant := rfl
@[simp] theorem State.draw_membership (s : State) (w : Nat) : (s.draw w).2.membership = s.membership := rfl
@[simp] theorem State.draw_record (s : State) (w : Nat) : (s.draw w).2.record = s.record := rfl
@[simp] theorem State.draw_adoption (s : State) (w : Nat) : (s.draw w).2.adoption = s.adoption := rfl
@[simp] theorem State.draw_tide (s : State) (w : Nat) : (s.draw w).2.tide = s.tide := rfl
@[simp] theorem State.draw_campaigns (s : State) (w : Nat) : (s.draw w).2.campaigns = s.campaigns := rfl
@[simp] theorem State.draw_timeSrc (s : State) (w : Nat) : (s.draw w).2.timeSrc = s.timeSrc := rfl
@[simp] theorem State.draw_cap (s : State) (w : Nat) : (s.draw w).2.cap = s.cap := rfl
@[simp] theorem State.draw_store (s : State) (w : Nat) : (s.draw w).2.store = s.store := rfl
@[simp] theorem State.draw_sanitise (s : State) (w : Nat) : (s.draw w).2.sanitise = s.sanitise := rfl
@[simp] theorem State.draw_sanitiseFailed (s : State) (w : Nat) : (s.draw w).2.sanitiseFailed = s.sanitiseFailed := rfl
@[simp] theorem State.draw_shutdown (s : State) (w : Nat) : (s.draw w).2.shutdown = s.shutdown := rfl
@[simp] theorem State.draw_features (s : State) (w : Nat) : (s.draw w).2.features = s.features := rfl
@[simp] theorem State.draw_redfishLog (s : State) (w : Nat) : (s.draw w).2.redfishLog = s.redfishLog := rfl
@[simp] theorem State.draw_engines (s : State) (w : Nat) : (s.draw w).2.engines = s.engines := rfl
@[simp] theorem State.draw_parts (s : State) (w : Nat) : (s.draw w).2.parts = s.parts := rfl

/-! ### Sending a message leaves every other field alone -/

@[simp] theorem State.send_pending (s : State) (m : Message) : (s.send m).pending = s.pending := rfl
@[simp] theorem State.send_now (s : State) (m : Message) : (s.send m).now = s.now := rfl
@[simp] theorem State.send_freeCount (s : State) (m : Message) : (s.send m).freeCount = s.freeCount := rfl
@[simp] theorem State.send_lockOrder (s : State) (m : Message) : (s.send m).lockOrder = s.lockOrder := rfl
@[simp] theorem State.send_delivered (s : State) (m : Message) : (s.send m).delivered = s.delivered := rfl
@[simp] theorem State.send_plant (s : State) (m : Message) : (s.send m).plant = s.plant := rfl
@[simp] theorem State.send_membership (s : State) (m : Message) : (s.send m).membership = s.membership := rfl
@[simp] theorem State.send_record (s : State) (m : Message) : (s.send m).record = s.record := rfl
@[simp] theorem State.send_adoption (s : State) (m : Message) : (s.send m).adoption = s.adoption := rfl
@[simp] theorem State.send_tide (s : State) (m : Message) : (s.send m).tide = s.tide := rfl
@[simp] theorem State.send_campaigns (s : State) (m : Message) : (s.send m).campaigns = s.campaigns := rfl
@[simp] theorem State.send_timeSrc (s : State) (m : Message) : (s.send m).timeSrc = s.timeSrc := rfl
@[simp] theorem State.send_cap (s : State) (m : Message) : (s.send m).cap = s.cap := rfl
@[simp] theorem State.send_store (s : State) (m : Message) : (s.send m).store = s.store := rfl
@[simp] theorem State.send_sanitise (s : State) (m : Message) : (s.send m).sanitise = s.sanitise := rfl
@[simp] theorem State.send_sanitiseFailed (s : State) (m : Message) : (s.send m).sanitiseFailed = s.sanitiseFailed := rfl
@[simp] theorem State.send_shutdown (s : State) (m : Message) : (s.send m).shutdown = s.shutdown := rfl
@[simp] theorem State.send_features (s : State) (m : Message) : (s.send m).features = s.features := rfl
@[simp] theorem State.send_redfishLog (s : State) (m : Message) : (s.send m).redfishLog = s.redfishLog := rfl
@[simp] theorem State.send_engines (s : State) (m : Message) : (s.send m).engines = s.engines := rfl
@[simp] theorem State.send_parts (s : State) (m : Message) : (s.send m).parts = s.parts := rfl

/-! ### Starting a campaign leaves every other field alone -/

@[simp] theorem State.startCampaign_pending (s : State) (k : CampaignKind) (p : Option PartId) : (s.startCampaign k p).2.pending = s.pending := rfl
@[simp] theorem State.startCampaign_now (s : State) (k : CampaignKind) (p : Option PartId) : (s.startCampaign k p).2.now = s.now := rfl
@[simp] theorem State.startCampaign_freeCount (s : State) (k : CampaignKind) (p : Option PartId) : (s.startCampaign k p).2.freeCount = s.freeCount := rfl
@[simp] theorem State.startCampaign_lockOrder (s : State) (k : CampaignKind) (p : Option PartId) : (s.startCampaign k p).2.lockOrder = s.lockOrder := rfl
@[simp] theorem State.startCampaign_delivered (s : State) (k : CampaignKind) (p : Option PartId) : (s.startCampaign k p).2.delivered = s.delivered := rfl
@[simp] theorem State.startCampaign_outbox (s : State) (k : CampaignKind) (p : Option PartId) : (s.startCampaign k p).2.outbox = s.outbox := rfl
@[simp] theorem State.startCampaign_plant (s : State) (k : CampaignKind) (p : Option PartId) : (s.startCampaign k p).2.plant = s.plant := rfl
@[simp] theorem State.startCampaign_membership (s : State) (k : CampaignKind) (p : Option PartId) : (s.startCampaign k p).2.membership = s.membership := rfl
@[simp] theorem State.startCampaign_record (s : State) (k : CampaignKind) (p : Option PartId) : (s.startCampaign k p).2.record = s.record := rfl
@[simp] theorem State.startCampaign_adoption (s : State) (k : CampaignKind) (p : Option PartId) : (s.startCampaign k p).2.adoption = s.adoption := rfl
@[simp] theorem State.startCampaign_tide (s : State) (k : CampaignKind) (p : Option PartId) : (s.startCampaign k p).2.tide = s.tide := rfl
@[simp] theorem State.startCampaign_timeSrc (s : State) (k : CampaignKind) (p : Option PartId) : (s.startCampaign k p).2.timeSrc = s.timeSrc := rfl
@[simp] theorem State.startCampaign_cap (s : State) (k : CampaignKind) (p : Option PartId) : (s.startCampaign k p).2.cap = s.cap := rfl
@[simp] theorem State.startCampaign_store (s : State) (k : CampaignKind) (p : Option PartId) : (s.startCampaign k p).2.store = s.store := rfl
@[simp] theorem State.startCampaign_sanitise (s : State) (k : CampaignKind) (p : Option PartId) : (s.startCampaign k p).2.sanitise = s.sanitise := rfl
@[simp] theorem State.startCampaign_sanitiseFailed (s : State) (k : CampaignKind) (p : Option PartId) : (s.startCampaign k p).2.sanitiseFailed = s.sanitiseFailed := rfl
@[simp] theorem State.startCampaign_shutdown (s : State) (k : CampaignKind) (p : Option PartId) : (s.startCampaign k p).2.shutdown = s.shutdown := rfl
@[simp] theorem State.startCampaign_features (s : State) (k : CampaignKind) (p : Option PartId) : (s.startCampaign k p).2.features = s.features := rfl
@[simp] theorem State.startCampaign_redfishLog (s : State) (k : CampaignKind) (p : Option PartId) : (s.startCampaign k p).2.redfishLog = s.redfishLog := rfl
@[simp] theorem State.startCampaign_engines (s : State) (k : CampaignKind) (p : Option PartId) : (s.startCampaign k p).2.engines = s.engines := rfl
@[simp] theorem State.startCampaign_parts (s : State) (k : CampaignKind) (p : Option PartId) : (s.startCampaign k p).2.parts = s.parts := rfl

/-! ### Ending a campaign leaves every other field alone -/

@[simp] theorem State.endCampaign_pending (s : State) (i : Option Nat) : (s.endCampaign i).pending = s.pending := rfl
@[simp] theorem State.endCampaign_now (s : State) (i : Option Nat) : (s.endCampaign i).now = s.now := rfl
@[simp] theorem State.endCampaign_freeCount (s : State) (i : Option Nat) : (s.endCampaign i).freeCount = s.freeCount := rfl
@[simp] theorem State.endCampaign_lockOrder (s : State) (i : Option Nat) : (s.endCampaign i).lockOrder = s.lockOrder := rfl
@[simp] theorem State.endCampaign_delivered (s : State) (i : Option Nat) : (s.endCampaign i).delivered = s.delivered := rfl
@[simp] theorem State.endCampaign_outbox (s : State) (i : Option Nat) : (s.endCampaign i).outbox = s.outbox := rfl
@[simp] theorem State.endCampaign_plant (s : State) (i : Option Nat) : (s.endCampaign i).plant = s.plant := rfl
@[simp] theorem State.endCampaign_membership (s : State) (i : Option Nat) : (s.endCampaign i).membership = s.membership := rfl
@[simp] theorem State.endCampaign_record (s : State) (i : Option Nat) : (s.endCampaign i).record = s.record := rfl
@[simp] theorem State.endCampaign_adoption (s : State) (i : Option Nat) : (s.endCampaign i).adoption = s.adoption := rfl
@[simp] theorem State.endCampaign_tide (s : State) (i : Option Nat) : (s.endCampaign i).tide = s.tide := rfl
@[simp] theorem State.endCampaign_timeSrc (s : State) (i : Option Nat) : (s.endCampaign i).timeSrc = s.timeSrc := rfl
@[simp] theorem State.endCampaign_cap (s : State) (i : Option Nat) : (s.endCampaign i).cap = s.cap := rfl
@[simp] theorem State.endCampaign_store (s : State) (i : Option Nat) : (s.endCampaign i).store = s.store := rfl
@[simp] theorem State.endCampaign_sanitise (s : State) (i : Option Nat) : (s.endCampaign i).sanitise = s.sanitise := rfl
@[simp] theorem State.endCampaign_sanitiseFailed (s : State) (i : Option Nat) : (s.endCampaign i).sanitiseFailed = s.sanitiseFailed := rfl
@[simp] theorem State.endCampaign_shutdown (s : State) (i : Option Nat) : (s.endCampaign i).shutdown = s.shutdown := rfl
@[simp] theorem State.endCampaign_features (s : State) (i : Option Nat) : (s.endCampaign i).features = s.features := rfl
@[simp] theorem State.endCampaign_redfishLog (s : State) (i : Option Nat) : (s.endCampaign i).redfishLog = s.redfishLog := rfl
@[simp] theorem State.endCampaign_engines (s : State) (i : Option Nat) : (s.endCampaign i).engines = s.engines := rfl
@[simp] theorem State.endCampaign_parts (s : State) (i : Option Nat) : (s.endCampaign i).parts = s.parts := rfl

end Sys2Proof.Machine
end

