-- ==== Sys2Proof/Laws/Store.lean ====
section
/-! SUPPORT. Records of the store volumes: what is written is read back, and a sealed record is found whole (R226). -/

namespace Sys2Proof.Machine

/-! ### Byte strings -/

@[simp] theorem length_natLe (n x : Nat) : (natLe n x).length = n := by
  induction n generalizing x with
  | zero => rfl
  | succ n ih => simp [natLe, ih]

@[simp] theorem length_natBe (n x : Nat) : (natBe n x).length = n := by simp [natBe]

@[simp] theorem length_zeros (n : Nat) : (zeros n).length = n := by simp [zeros]

@[simp] theorem length_padTo (n : Nat) (bs : List Byte) : (padTo n bs).length = n := by
  simp [padTo]; omega

@[simp] theorem length_slice (bs : List Byte) (off len : Nat) : (slice bs off len).length = len := by
  simp [slice]; omega

/-- A byte string padded to its own length is itself. -/
theorem padTo_length_eq (bs : List Byte) : padTo bs.length bs = bs := by simp [padTo, zeros]

/-- A slice inside the first of two strings is a slice of it. -/
theorem slice_append_left (a b : List Byte) (off len : Nat) (h : off + len ≤ a.length) :
    slice (a ++ b) off len = slice a off len := by
  have h1 : len - (a.length + b.length - off) = 0 := by omega
  have h2 : len - (a.length - off) = 0 := by omega
  simp only [slice, List.length_append, h1, h2, List.replicate_zero, List.append_nil]
  rw [List.drop_append_of_le_length (by omega), List.take_append_of_le_length (by simp; omega)]

/-- The slice that is the whole of the second of two strings. -/
theorem slice_append_right (a b : List Byte) : slice (a ++ b) a.length b.length = b := by
  simp [slice]

/-- A field inside the first of two strings is a field of it. -/
theorem field_append_left (a b : List Byte) (off len : Nat) (h : off + len ≤ a.length) :
    field (a ++ b) off len = field a off len := by
  simp only [field, slice_append_left a b off len h]

/-! ### Digests -/

theorem length_shaRound {w : Nat} (r : ShaRot) (v : List (BitVec w)) (k : BitVec w × BitVec w) :
    (shaRound r v k).length = v.length := by
  unfold shaRound; split <;> rfl

theorem length_shaBlock {w : Nat} (r : ShaRot) (ks h : List (BitVec w)) (blk : List Byte) :
    (shaBlock r ks h blk).length = h.length := by
  have key : ∀ (l : List (BitVec w × BitVec w)) (v : List (BitVec w)), (l.foldl (shaRound r) v).length = v.length := by
    intro l
    induction l with
    | nil => intro v; rfl
    | cons k l ih => intro v; rw [List.foldl_cons, ih, length_shaRound]
  simp [shaBlock, key]

theorem length_shaBlocks {w : Nat} (r : ShaRot) (ks h : List (BitVec w)) (bs : List Byte) :
    (shaBlocks r ks h bs).length = h.length := by
  unfold shaBlocks
  generalize chunks (w * 2) bs = l
  induction l generalizing h with
  | nil => rfl
  | cons c l ih => rw [List.foldl_cons, ih, length_shaBlock]

theorem length_shaBytes {w : Nat} (h : List (BitVec w)) : (shaBytes h).length = h.length * (w / 8) := by
  simp [shaBytes, List.length_flatMap]

/-- A SHA-256 digest has 32 bytes. -/
@[simp] theorem length_sha256 (m : List Byte) : (sha256 m).length = 32 := by
  rw [sha256, length_shaBytes, length_shaBlocks]; rfl

/-! ### Sealed records -/

@[simp] theorem length_sealRec (r : List Byte) : (sealRec r).length = 4096 := by simp [sealRec]

/-- A record of at most 4064 bytes that starts with its magic and version 1 is found whole once it is sealed. -/
theorem sealedOk_sealRec {magic : String} {a b : List Byte} (ha : 10 ≤ a.length)
    (hab : (a ++ b).length ≤ 4064) (h8 : a.take 8 = ascii magic) (hv : field a 8 2 = 1) :
    sealedOk magic (sealRec (a ++ b)) = true := by
  have hp : padTo 4064 (a ++ b) = a ++ (b ++ zeros (4064 - (a ++ b).length)) := by
    rw [padTo, List.take_of_length_le hab, List.append_assoc]
  have hl : (padTo 4064 (a ++ b)).length = 4064 := length_padTo _ _
  unfold sealedOk sealRec
  have e1 : (padTo 4064 (a ++ b) ++ sha256 (padTo 4064 (a ++ b))).take 8 = ascii magic := by
    rw [hp, List.append_assoc, List.take_append_of_le_length (by omega), h8]
  have e2 : field (padTo 4064 (a ++ b) ++ sha256 (padTo 4064 (a ++ b))) 8 2 = 1 := by
    rw [hp, List.append_assoc, field_append_left _ _ _ _ (by omega), hv]
  have e3 : slice (padTo 4064 (a ++ b) ++ sha256 (padTo 4064 (a ++ b))) 4064 32 = sha256 (padTo 4064 (a ++ b)) := by
    have := slice_append_right (padTo 4064 (a ++ b)) (sha256 (padTo 4064 (a ++ b)))
    rwa [hl, length_sha256] at this
  have e4 : (padTo 4064 (a ++ b) ++ sha256 (padTo 4064 (a ++ b))).take 4064 = padTo 4064 (a ++ b) := by
    rw [List.take_append_of_le_length (by omega), List.take_of_length_le (by omega)]
  simp [e1, e2, e3, e4]

/-- A field of a sealed record that lies in its first part. -/
theorem field_sealRec {a b : List Byte} (off len : Nat) (h : off + len ≤ a.length) (hab : (a ++ b).length ≤ 4064) :
    field (sealRec (a ++ b)) off len = field a off len := by
  rw [sealRec, padTo, List.take_of_length_le hab, List.append_assoc, List.append_assoc, field_append_left _ _ _ _ h]

/-! ### Written and read back -/

theorem Memory.read_writeBytes_lt {m : Memory} (a x : Nat) (bs : List Byte) (h : x < a) :
    Memory.read (Memory.writeBytes m a bs) x = Memory.read m x := by
  induction bs generalizing m a with
  | nil => rfl
  | cons b bs ih =>
    rw [Memory.writeBytes, ih (a + 1) (by omega), Memory.read_write_other _ _ _ (by omega)]

/-- A byte above the written ones is unchanged. -/
theorem Memory.read_writeBytes_ge {m : Memory} (a x : Nat) (bs : List Byte) (h : a + bs.length ≤ x) :
    Memory.read (Memory.writeBytes m a bs) x = Memory.read m x := by
  induction bs generalizing m a with
  | nil => rfl
  | cons b bs ih =>
    simp only [List.length_cons] at h
    rw [Memory.writeBytes, ih (a + 1) (by omega), Memory.read_write_other _ _ _ (by omega)]

/-- Bytes that have been written are read back. -/
theorem Memory.readBytes_writeBytes {m : Memory} (a : Nat) (bs : List Byte) (h : Memory.wf m = true) :
    Memory.readBytes (Memory.writeBytes m a bs) a bs.length = bs := by
  induction bs generalizing m a with
  | nil => rfl
  | cons b bs ih =>
    simp only [Memory.writeBytes, List.length_cons, Memory.readBytes]
    rw [Memory.read_writeBytes_lt _ _ _ (by omega), Memory.read_write_same _ _ h, ih _ (Memory.wf_write _ _ h)]

/-- Bytes apart from the written ones are unchanged. -/
theorem Memory.readBytes_writeBytes_other {m : Memory} (a x n : Nat) (bs : List Byte) (h : x + n ≤ a ∨ a + bs.length ≤ x) :
    Memory.readBytes (Memory.writeBytes m a bs) x n = Memory.readBytes m x n := by
  induction n generalizing x with
  | zero => rfl
  | succ n ih =>
    simp only [Memory.readBytes]
    rw [ih (x + 1) (by omega)]
    rcases h with h | h
    · rw [Memory.read_writeBytes_lt _ _ _ (by omega)]
    · rw [Memory.read_writeBytes_ge _ _ _ (by omega)]

end Sys2Proof.Machine
end

