-- ==== Sys2Proof/WellFormed.lean ====
section
/-! DEFINITION. Well-formed commands: what a host, Redfish or the plant can send at all. A command that is not well
formed names something that the interface cannot carry (a 65-byte block write, a ninth queue slot). -/

namespace Sys2Proof

/-- A mailbox command is 64 bytes: the row's opcode and 63 more (Table 4-2). -/
def MbxReq.wellFormed (m : MbxReq) : Bool := m.body.length = 63

/-- A stream command writes the task registers 0x00 to 0x37 and names a stream for which an engine has a window (R62, Table 3-3,
Table 5-1). -/
def StkReq.wellFormed (q : StkReq) : Bool := q.body.length = 55 && q.stream < 4096

/-- One of the 4,096 streams of an engine. -/
def StreamAt.wellFormed (a : StreamAt) : Bool := a.stream < 4096

/-- An access fits its path: atomics come through A-ports, PASID prefixes and configuration requests through P-ports. -/
def WinSrc.wellFormed (w : WinSrc) : Bool :=
  match w.via, w.path with
  | .memory, _ => true
  | .atomic, .aport _ => true
  | .pasid, .pport _ => true
  | .config _, .pport _ => true
  | _, _ => false

/-- Units of each fault block (Table 17-1). -/
def faultUnits (blk : Nat) : Nat := [64, 48, 64, 32, 16, 192, 16, 1, 22, 1, 1].getD blk 0

/-- A detection names a unit of its block (R356). -/
def Detection.wellFormed (d : Detection) : Bool := d.unit < faultUnits d.blk.val

/-- Well-formed commands, one line per constructor. -/
def Instr.wellFormed (i : Instr) : Bool :=
  match i with
  | .identify m => m.wellFormed
  | .getLog m => m.wellFormed
  | .setFeature m => m.wellFormed
  | .getFeature m => m.wellFormed
  | .fwDownload m => m.wellFormed
  | .fwCommit m => m.wellFormed
  | .fwActivate m => m.wellFormed
  | .fwQuery m => m.wellFormed
  | .format m => m.wellFormed
  | .sanitise m => m.wellFormed
  | .sanitiseStatus m => m.wellFormed
  | .partCreate m => m.wellFormed
  | .partDelete m => m.wellFormed
  | .partModify m => m.wellFormed
  | .partQuery m => m.wellFormed
  | .partReset m => m.wellFormed
  | .qosSet m => m.wellFormed
  | .qosQuery m => m.wellFormed
  | .regTensor m => m.wellFormed
  | .regClass m => m.wellFormed
  | .stepPolicy m => m.wellFormed
  | .reshape m => m.wellFormed
  | .stateQuery m => m.wellFormed
  | .tensorDrop m => m.wellFormed
  | .epochCut m => m.wellFormed
  | .epochCommit m => m.wellFormed
  | .epochRelease m => m.wellFormed
  | .epochQuery m => m.wellFormed
  | .rebase m => m.wellFormed
  | .restoreOpen m => m.wellFormed
  | .restoreMap m => m.wellFormed
  | .restoreRun m => m.wellFormed
  | .reshard m => m.wellFormed
  | .restoreQuery m => m.wellFormed
  | .restoreClose m => m.wellFormed
  | .progLoad m => m.wellFormed
  | .progUnload m => m.wellFormed
  | .spinLoad m => m.wellFormed
  | .spinUnload m => m.wellFormed
  | .progQuery m => m.wellFormed
  | .tideSet m => m.wellFormed
  | .tideQuery m => m.wellFormed
  | .kvConfig m => m.wellFormed
  | .kvQuery m => m.wellFormed
  | .secQuery m => m.wellFormed
  | .provision m => m.wellFormed
  | .seal m => m.wellFormed
  | .retire m => m.wellFormed
  | .keyLoad m => m.wellFormed
  | .keyGenerate m => m.wellFormed
  | .keyZeroise m => m.wellFormed
  | .keyBind m => m.wellFormed
  | .keeperChallenge m => m.wellFormed
  | .keeperRespond m => m.wellFormed
  | .keeperClose m => m.wellFormed
  | .memberQuery m => m.wellFormed
  | .memberExclude m => m.wellFormed
  | .memberAdmit m => m.wellFormed
  | .timeQuery m => m.wellFormed
  | .timeSet m => m.wellFormed
  | .leaseQuery m => m.wellFormed
  | .leaseClaim m => m.wellFormed
  | .leaseRelease m => m.wellFormed
  | .mailboxCompletion _ _ => true
  | .firmwareHang _ _ => true
  | .read q => q.wellFormed
  | .write q => q.wellFormed
  | .gradPush q => q.wellFormed
  | .weightPull q => q.wellFormed
  | .kvPut q => q.wellFormed
  | .kvGet q => q.wellFormed
  | .kvDrop q => q.wellFormed
  | .flush q => q.wellFormed
  | .riderPut q => q.wellFormed
  | .riderGet q => q.wellFormed
  | .fence q => q.wellFormed
  | .streamCommandStart loc slot _ => loc.wellFormed && slot < 8
  | .streamCompletionPost loc => loc.wellFormed
  | .doneAcknowledge loc => loc.wellFormed
  | .halt loc _ => loc.wellFormed
  | .resume loc _ => loc.wellFormed
  | .registerWrite src off data => src.wellFormed && !data.isEmpty && off + data.length ≤ 0x1000000
  | .evrEnable src => src.wellFormed
  | .heldEventsRelease _ _ => true
  | .evrFailure _ _ => true
  | .coalesceTimeout _ _ _ => true
  | .msixPendingRelease _ _ _ => true
  | .functionLevelReset _ _ _ => true
  | .resetDone _ => true
  | .qosTick _ => true
  | .rdmaConnectRequest _ _ _ gid _ qp => gid < 2 ^ 128 && qp.qpn < 2 ^ 24
  | .linkUp _ _ _ => true
  | .linkDown _ _ _ => true
  | .pfcPauseReceived _ _ _ => true
  | .pfcPauseSend _ _ fill => fill ≤ 100
  | .ecnCeReceived _ qpn => qpn < 2 ^ 24
  | .cnpReceived _ qpn => qpn < 2 ^ 24
  | .hostDataFetch loc slot _ _ => loc.wellFormed && slot < 8
  | .stepBegin _ => true
  | .statisticsComplete _ => true
  | .stepComplete _ => true
  | .spinSwap _ _ _ => true
  | .cutGateMessage _ _ => true
  | .cutInstant _ => true
  | .copierDone _ _ => true
  | .copierResume _ _ => true
  | .shardWriteComplete _ _ _ _ => true
  | .shardVerified _ _ _ _ => true
  | .manifestBuild _ _ _ => true
  | .manifestReadback _ _ _ => true
  | .commitRecordWritten _ _ _ _ => true
  | .epochRetire _ _ => true
  | .drainRetry _ _ => true
  | .finalEbbCut _ => true
  | .partitionLend _ => true
  | .floodTurnComplete => true
  | .reseedCut _ => true
  | .ebbTurnComplete => true
  | .reshardComplete _ => true
  | .stripeMoveComplete _ _ _ => true
  | .rebuildStart _ => true
  | .restoreComplete _ => true
  | .maintenanceWindow _ _ => true
  | .demandWindow _ _ => true
  | .modeTimeout _ _ => true
  | .moduleTempSample _ _ _ => true
  | .nmxGo src _ => src.wellFormed
  | .nmxComplete _ _ _ => true
  | .xlateStart src _ => src.wellFormed
  | .dgxGo src _ _ _ => src.wellFormed
  | .dgxComplete _ _ _ _ _ => true
  | .digestPreempt _ _ => true
  | .digestResume _ _ => true
  | .digestLaneFail _ _ => true
  | .compressLaneFail _ _ => true
  | .heartbeat _ _ => true
  | .peerUnreachable _ _ => true
  | .noQuorum _ => true
  | .propose _ => true
  | .proposeReceived _ => true
  | .viewFormed => true
  | .viewProposeTimeout => true
  | .departureAnnouncement _ _ => true
  | .engineJoin _ => true
  | .configPrepare _ => true
  | .configCommit _ => true
  | .configPhaseTimeout _ => true
  | .splitWindowExpiry => true
  | .taiEdge _ => true
  | .offsetMeasure _ => true
  | .timeSourceLoss _ => true
  | .timeSourceLock _ _ => true
  | .timeSuspectSet _ => true
  | .timeSuspectClear _ => true
  | .timeLeave _ => true
  | .timeJoinRecheck _ => true
  | .ppsPulse _ _ => true
  | .leaseClaimCheck _ => true
  | .leaseRenew _ _ => true
  | .allotExtend _ => true
  | .allotExtendCheck _ => true
  | .startupLeaseClaim _ => true
  | .faultDetect _ f => f.wellFormed
  | .ddrChannelRebuild _ _ => true
  | .spareGroupSwitch _ _ => true
  | .faultClear _ _ _ => true
  | .faultInject _ _ _ => true
  | .fltLock _ _ => true
  | .cycleCheck _ _ => true
  | .idleTimerExpiry _ => true
  | .powerExit _ => true
  | .powerExitComplete _ => true
  | .sensorSample _ temps _ => temps.length = 80
  | .capEvaluate _ => true
  | .clockLevelChange _ => true
  | .busbarOvervoltage _ _ => true
  | .busbarUndervoltage _ _ => true
  | .powerOn _ _ _ failed => failed.all (fun d => d.2.wellFormed)
  | .provisionalTimeout _ => true
  | .orderlyShutdown _ => true
  | .graceExpiry => true
  | .sanitiseComplete _ => true
  | .formatComplete _ => true
  | .scmFailover => true
  | .bothScmFail => true
  | .tamperDetect _ _ => true
  | .reserveRecharged _ => true
  | .debugTimeout _ => true
  | .challengeLockoutEnd _ => true
  | .engineReset _ failed => failed.all (fun d => d.wellFormed)
  | .redfishPowerOff => true
  | .locateRequest _ => true
  | .recoveryDownload _ _ => true
  | .cellLoss _ => true
  | .scmRecovery _ => true
  | .reservedOpcode _ m => m.wellFormed

end Sys2Proof
end

