-- ==== Sys2Proof/Tests/Slice0.lean ====
section
/-! SUPPORT. Tests: every check of WellFormed refuses a command that breaks it, and every statement with hypotheses has a
witness, a small state that meets them all. The states are built from the fields of the spec's registers and tables. -/

namespace Sys2Proof.Machine

set_option Elab.async false

/-! ### Well-formed commands -/

/-- A mailbox request with a body of the given length. -/
def mbxOf (n : Nat) : MbxReq :=
  { eng := 2, part := 0, path := .pport 0, body := List.replicate n 0, buf := [], fail := none, flash := none }

/-- A stream request with a body of the given length, on the given stream. -/
def stkOf (n stream : Nat) : StkReq :=
  { eng := 2, part := 0, path := .pport 0, stream := stream, body := List.replicate n 0 }

/-- A stream of a number. -/
def locOf (n : Nat) : StreamAt := { eng := 2, part := 0, stream := n }

/-- A detection of unit `n` of a block. -/
def detOf (blk : Fin 11) (n : Nat) : Detection :=
  { blk := blk, src := 0, unit := n, addr := 0, master := 0, access := 0, part := none, status := 0, clear := false }

/-- Ill-formed mailbox commands: a body of 62 bytes. -/
theorem test_short_mailbox_refused :
    ([.identify (mbxOf 62), .getLog (mbxOf 62), .setFeature (mbxOf 62), .getFeature (mbxOf 62), .fwDownload (mbxOf 62),
      .fwCommit (mbxOf 62), .fwActivate (mbxOf 62), .fwQuery (mbxOf 62), .format (mbxOf 62), .sanitise (mbxOf 62),
      .sanitiseStatus (mbxOf 62), .partCreate (mbxOf 62), .partDelete (mbxOf 62), .partModify (mbxOf 62),
      .partQuery (mbxOf 62), .partReset (mbxOf 62), .qosSet (mbxOf 62), .qosQuery (mbxOf 62), .regTensor (mbxOf 62),
      .regClass (mbxOf 62), .stepPolicy (mbxOf 62), .reshape (mbxOf 62), .stateQuery (mbxOf 62), .tensorDrop (mbxOf 62),
      .epochCut (mbxOf 62), .epochCommit (mbxOf 62), .epochRelease (mbxOf 62), .epochQuery (mbxOf 62), .rebase (mbxOf 62),
      .restoreOpen (mbxOf 62), .restoreMap (mbxOf 62), .restoreRun (mbxOf 62), .reshard (mbxOf 62),
      .restoreQuery (mbxOf 62), .restoreClose (mbxOf 62)] : List Instr).all (fun i => !i.wellFormed) = true := by decide

/-- More of them: a body of 64 bytes. -/
theorem test_long_mailbox_refused :
    ([.progLoad (mbxOf 64), .progUnload (mbxOf 64), .spinLoad (mbxOf 64), .spinUnload (mbxOf 64), .progQuery (mbxOf 64),
      .tideSet (mbxOf 64), .tideQuery (mbxOf 64), .kvConfig (mbxOf 64), .kvQuery (mbxOf 64), .secQuery (mbxOf 64),
      .provision (mbxOf 64), .seal (mbxOf 64), .retire (mbxOf 64), .keyLoad (mbxOf 64), .keyGenerate (mbxOf 64),
      .keyZeroise (mbxOf 64), .keyBind (mbxOf 64), .keeperChallenge (mbxOf 64), .keeperRespond (mbxOf 64),
      .keeperClose (mbxOf 64), .memberQuery (mbxOf 64), .memberExclude (mbxOf 64), .memberAdmit (mbxOf 64),
      .timeQuery (mbxOf 64), .timeSet (mbxOf 64), .leaseQuery (mbxOf 64), .leaseClaim (mbxOf 64),
      .leaseRelease (mbxOf 64), .reservedOpcode 0xFF (mbxOf 64)] : List Instr).all (fun i => !i.wellFormed) = true := by
  decide

/-- Ill-formed stream commands: a body of 54 bytes. -/
theorem test_short_stream_refused :
    ([.read (stkOf 54 0), .write (stkOf 54 0), .gradPush (stkOf 54 0), .weightPull (stkOf 54 0), .kvPut (stkOf 54 0),
      .kvGet (stkOf 54 0), .kvDrop (stkOf 54 0), .flush (stkOf 54 0), .riderPut (stkOf 54 0), .riderGet (stkOf 54 0),
      .fence (stkOf 54 0)] : List Instr).all (fun i => !i.wellFormed) = true := by decide

/-- A stream number of 4,096 is refused, in a command and in an event. -/
theorem test_stream_4096_refused :
    ([.read (stkOf 55 4096), .fence (stkOf 55 4096), .streamCommandStart (locOf 4096) 0 { host := none, store := false },
      .streamCompletionPost (locOf 4096), .doneAcknowledge (locOf 4096), .halt (locOf 4096) 0,
      .resume (locOf 4096) 0, .hostDataFetch (locOf 4096) 0 [] false] : List Instr).all
      (fun i => !i.wellFormed) = true := by decide

/-- A ninth queue slot is refused. -/
theorem test_ninth_slot_refused :
    ([.streamCommandStart (locOf 0) 8 { host := none, store := false }, .hostDataFetch (locOf 0) 8 [] false] :
      List Instr).all (fun i => !i.wellFormed) = true := by decide

/-- A write of no byte and a write beyond the window are refused. -/
theorem test_window_bounds_refused :
    ([.registerWrite ⟨2, 0, .pport 0, .memory⟩ 0 [], .registerWrite ⟨2, 0, .pport 0, .memory⟩ 0xFFFFFF [0, 0]] : List Instr).all
      (fun i => !i.wellFormed) = true := by decide

/-- Fields wider than the wire carries them: a GID, a queue-pair number, a buffer fill above 100 per cent. -/
theorem test_port_fields_refused :
    ([.ecnCeReceived 2 (2 ^ 24), .cnpReceived 2 (2 ^ 24), .pfcPauseSend 2 2 101] : List Instr).all
      (fun i => !i.wellFormed) = true := by decide

/-- A unit outside its fault block, and a sensor sample without one of its 80 temperatures. -/
theorem test_plant_fields_refused :
    ([.faultDetect 2 (detOf 1 48), .faultDetect 2 (detOf 10 1), .sensorSample 2 (List.replicate 79 none) { draw := 0, cell := 3000 },
      .powerOn true 48000 0 [(2, detOf 7 1)], .engineReset 2 [detOf 0 64]] : List Instr).all
      (fun i => !i.wellFormed) = true := by decide

/-! ### A shelf with all sixteen engines joined -/

/-- View 1 of all sixteen engines. -/
def wView : View := { num := 1, set := 0xFFFF, formed := 0xFFFF, leader := 0, formedAt := 0 }

/-- The shelf after its first view, with no store configured. -/
def wShelf : State :=
  let m : Membership := { State.reset.membership with view := some wView, lastView := 1 }
  let r : State := { State.reset with membership := m }
  { r.modEngines 0xFFFF (fun _ x => { x with member := { x.member with state := 3 } }) with
    store := { r.store with step9 := true } }

/-- Command bytes with fields (offset, width, value). -/
def wBody (fs : List (Nat × Nat × Nat)) : List Byte := (fs.foldl (fun b f => putLe b f.1 f.2.1 f.2.2) (zeros 64)).drop 1

/-- A request of partition 0 to engine 2 over its first P-port. -/
def wReq (fs : List (Nat × Nat × Nat)) (buf : List Byte) : MbxReq :=
  { eng := 2, part := 0, path := .pport 0, body := wBody fs, buf := buf, fail := none, flash := none }

/-- The request starts, and the claim of its row holds where it has been accepted. -/
def Claimed (op : Nat) (f : Call → State → Meaning) (m : MbxReq) (s : State) : Prop :=
  Starts op m s (some m.part) m.part ∧
    (f (mbxCall m op (some m.part) m.part s) (s.accepted op m (some m.part) m.part)).holds = true

/-- The shelf with partition 1 on every engine, sixteen streams on each. -/
def wTwo : State :=
  { wShelf with record := { wShelf.record with parts := [(0, PartCfg.initial), (1, { PartCfg.initial with streams := 16 })] } }

/-- A policy in bytes 8 to 63 of STEP_POLICY: MOMENTUM, no clipping. -/
def wPol : List Byte := (wBody [(8, 1, 1), (12, 2, 4), (36, 4, 0x3F800000)]).drop 7

/-- Partition 0 with a policy for four contributors. -/
def wPolicy : State :=
  wShelf.modPart 0 (fun x => { x with policy := some wPol, step := { x.step with contributors := 4 } })

/-- A BYTES tensor of 64 bytes, in one unit of each of sixteen engines. -/
def wTens : Tensor :=
  { id := 1, rid := 1, cls := 6, fmt := 7, twin := true, hostFmt := 0, rows := 64, cols := 1, parent := 0, log2 := 12,
    per := 4096, charge := 64,
    place := { members := 0xFFFF, parity := 2, units := (List.range 16).map (fun e => (e, [131072])), gone := 0 },
    dest := none, moved := [], poison := [], scrubbed := [], sums := [], bitmap := [], pushes := [] }

/-- Partition 0 with that tensor. -/
def wTensor : State := wShelf.modPart 0 (fun x => { x with tensors := [wTens] })

/-- An empty image. -/
def wImage : Image :=
  { tensors := [], riders := [], contexts := [], policy := [], contributors := 0, completed := 0, skip := 0, t := 0,
    parity := 2, members := 0xFFFF, lsn := Vector.replicate 16 0 }

/-- A full epoch that has been captured. -/
def wEp : Epoch :=
  { n := 1, kind := 1, base := 0, gen := none, state := 2, cutTime := 0, image := wImage, walk := [], copied := [], pinned := false,
    paused := false, drain := false, commit := false, campaign := none, verify := 0, mslot := none, dslot := none, shards := [],
    manifest := [], mptr := 0, mchecked := false, tries := 0, commitTime := 0, chain := 0, final := false, reseed := false,
    turn := 0, whileHeld := false, mold := [], status := .ok }

/-- Partition 0 with that epoch, on engines whose time is not suspect. -/
def wEpoch : State :=
  (wTensor.modPart 0 (fun x => { x with epochs := [wEp], nextEpoch := 2, lastCut := 1 })).modEngines 0xFFFF (fun _ x =>
    { x with clock := { x.clock with suspect := false } })

/-- An open restore session of an empty manifest. -/
def wRestore : Restore :=
  { state := 1, gen := 0, n := 1, chain := [zeros 256], replace := false, dslot := none, mslot := 5, map := [],
    contributors := 0, mode := 0, cmap := [], replay := 0, until_ := 0, strict := false, campaign := none, paid := 0, status := .ok,
    poisoned := 0, loaded := 0, records := 0, rawTotal := 0 }

/-- Partition 0 in that session. -/
def wSession : State := wShelf.modPart 0 (fun x => { x with restore := some wRestore })

/-- Partition 0 with EXPERT, a program and a spin loaded, neither in use. -/
def wProgram : State :=
  { wShelf.modPart 0 (fun x => { x with programs := [{ handle := 7, bytes := [], fused := 0, split := 0 }],
                                        spins := [{ handle := 9, bytes := zeros 64, uses := 0 }] }) with
    record := { wShelf.record with parts := [(0, { PartCfg.initial with expert := true })] } }

/-- Every keeper's reserve is charged. -/
def wCharged : State := wShelf.modEngines 0xFFFF (fun _ x => { x with keeper := { x.keeper with reserve := 2 } })

/-- A key slot of partition 0. -/
def wSlot (usage : Nat) : KeySlot := { usage := usage, owner := 0, keyId := 0, key := zeros 32, gen := 1 }

/-- Every engine is PROVISIONED, with its owner key in slot 0. -/
def wOwned : State :=
  wCharged.modEngines 0xFFFF (fun _ x =>
    { x with lifecycle := 1, keeper := { x.keeper with slots := x.keeper.slots.set 0 (wSlot 1) } })

/-- Slot 5 holds a MANIFEST key of partition 0 as well. -/
def wKeys : State :=
  wOwned.modEngines 0xFFFF (fun _ x => { x with keeper := { x.keeper with slots := x.keeper.slots.set 5 (wSlot 2) } })

/-- Engine 15 has accepted a response for RETIRE. -/
def wArmed : State := wOwned.modKeeper 15 (fun k => { k with armed := some { purpose := 3, deadline := 60000000000 } })

/-- Engine 2 has a challenge outstanding, and a lane for the bridge. -/
def wChallenge : State :=
  (wOwned.modKeeper 2 (fun k => { k with challenge := some (zeros 64, 0) })).modEng 2 (fun x =>
    { x with lanes := x.lanes.set 3 (some { work := .bridge, since := 0 }) })

/-- Engine 15 is excluded by the record. -/
def wExcluded : State := { wShelf with record := { wShelf.record with excluded := 0x8000 } }

/-- A blank volume of 65,792 blocks and more, attached. -/
def wVol : Volume :=
  { entry := zeros 256, blocks := 16777216, bytes := [], queues := Vector.replicate 64 1, pairs := [], attached := true, cache := false,
    dirty := [], lba := 4096, metaBytes := 0, protection := 0 }

/-- The shelf with that volume, which STORE_TARGETS names, and its ports up. -/
def wVolume : State :=
  { wShelf.modEngines 0xFFFF (fun _ x => { x with ports := x.ports.map (fun q => { q with linkUp := true }) }) with
    record := { wShelf.record with saved := [(2, 0, natLe 8 0 ++ zeros 312)] },
    features := [(2, 0, natLe 8 0 ++ zeros 312)],
    store := { wShelf.store with volumes := [wVol] } }

/-- A lease of slot 3 with an allotment of every extent. -/
def wLeaseRec : Lease :=
  { Lease.none with state := 2, slot := 3, expiry := 60000000000, nextGen := 1, allot := [(65536, 60000)] }

/-- The shelf holds that lease. -/
def wLease : State := { wVolume with store := { wVolume.store with lease := wLeaseRec } }

/-! ### Mailbox claims -/

theorem witness_identify : Claimed 0x01 claimIdentify (wReq [(60, 4, 4096)] ([])) wShelf := by
  unfold Claimed Starts; decide +kernel

theorem witness_getLog : Claimed 0x02 claimGetLog (wReq [(8, 1, 7), (60, 4, 4096)] ([])) wShelf := by
  unfold Claimed Starts; decide +kernel

theorem witness_setFeature : Claimed 0x03 claimSetFeature (wReq [(8, 2, 5), (16, 1, 4)] ([])) wShelf := by
  unfold Claimed Starts; decide +kernel

theorem witness_getFeature : Claimed 0x04 claimGetFeature (wReq [(8, 2, 8), (10, 1, 2)] ([])) wShelf := by
  unfold Claimed Starts; decide +kernel

theorem witness_fwDownload : Claimed 0x10 claimFwDownload (wReq [(12, 1, 1), (60, 4, 8)] ([1, 2, 3, 4, 5, 6, 7, 8])) wShelf := by
  unfold Claimed Starts; decide +kernel

theorem witness_fwQuery : Claimed 0x13 claimFwQuery (wReq [(8, 1, 15)] ([])) wShelf := by
  unfold Claimed Starts; decide +kernel

theorem witness_sanitise : Claimed 0x21 claimSanitise (wReq [(8, 1, 1), (9, 1, 1)] ([])) wShelf := by
  unfold Claimed Starts; decide +kernel

theorem witness_sanitise_overwrite : Claimed 0x21 claimSanitise (wReq [(8, 1, 2)] ([])) wShelf := by
  unfold Claimed Starts; decide +kernel

theorem witness_sanitiseStatus : Claimed 0x22 claimSanitiseStatus (wReq [] ([])) wShelf := by
  unfold Claimed Starts; decide +kernel

theorem witness_partCreate : Claimed 0x30 claimPartCreate (wReq [(8, 1, 63), (10, 2, 0xFFFF), (12, 2, 192)] ([])) wShelf := by
  unfold Claimed Starts; decide +kernel

theorem witness_partDelete : Claimed 0x31 claimPartDelete (wReq [(8, 1, 1)] ([])) wTwo := by
  unfold Claimed Starts; decide +kernel

theorem witness_partModify : Claimed 0x32 claimPartModify (wReq [(8, 1, 1), (9, 1, 1), (12, 2, 8), (14, 1, 7), (16, 4, 1), (20, 4, 1)] ([])) wTwo := by
  unfold Claimed Starts; decide +kernel

theorem witness_partQuery : Claimed 0x33 claimPartQuery (wReq [(8, 1, 63)] ([])) wShelf := by
  unfold Claimed Starts; decide +kernel

theorem witness_partReset : Claimed 0x34 claimPartReset (wReq [(8, 1, 1), (9, 1, 1)] ([])) wTwo := by
  unfold Claimed Starts; decide +kernel

theorem witness_qosSet : Claimed 0x35 claimQosSet (wReq [(9, 1, 3), (10, 1, 1), (11, 1, 255), (12, 1, 100)] ([])) wShelf := by
  unfold Claimed Starts; decide +kernel

theorem witness_qosQuery : Claimed 0x36 claimQosQuery (wReq [(9, 1, 3)] ([])) wShelf := by
  unfold Claimed Starts; decide +kernel

theorem witness_regClass : Claimed 0x41 claimRegClass (wReq [(8, 1, 0), (9, 1, 1), (10, 1, 1)] ([])) wShelf := by
  unfold Claimed Starts; decide +kernel

theorem witness_stepPolicy : Claimed 0x42 claimStepPolicy (wReq [(8, 1, 1), (12, 2, 4096), (36, 4, 0x3F800000)] ([])) wShelf := by
  unfold Claimed Starts; decide +kernel

theorem witness_reshape : Claimed 0x43 claimReshape (wReq [(8, 2, 4096), (60, 4, 8)] ([0, 0, 1, 0, 2, 0, 3, 0])) wPolicy := by
  unfold Claimed Starts; decide +kernel

theorem witness_stateQuery : Claimed 0x44 claimStateQuery (wReq [(8, 1, 2)] ([])) wShelf := by
  unfold Claimed Starts; decide +kernel

theorem witness_tensorDrop : Claimed 0x45 claimTensorDrop (wReq [(8, 4, 1)] ([])) wTensor := by
  unfold Claimed Starts; decide +kernel

theorem witness_epochCut : Claimed 0x50 claimEpochCut (wReq [(8, 1, 1)] ([])) wTensor := by
  unfold Claimed Starts; decide +kernel

theorem witness_epochCommit : Claimed 0x51 claimEpochCommit (wReq [(8, 6, 1)] ([])) wEpoch := by
  unfold Claimed Starts; decide +kernel

theorem witness_epochRelease : Claimed 0x52 claimEpochRelease (wReq [(8, 6, 1)] ([])) wEpoch := by
  unfold Claimed Starts; decide +kernel

theorem witness_epochQuery : Claimed 0x53 claimEpochQuery (wReq [(8, 1, 1)] ([])) wShelf := by
  unfold Claimed Starts; decide +kernel

theorem witness_restoreQuery : Claimed 0x64 claimRestoreQuery (wReq [] ([])) wShelf := by
  unfold Claimed Starts; decide +kernel

theorem witness_restoreClose : Claimed 0x65 claimRestoreClose (wReq [] ([])) wSession := by
  unfold Claimed Starts; decide +kernel

theorem witness_restoreMap : Claimed 0x61 claimRestoreMap (wReq [(60, 4, 16)] (List.replicate 16 0)) wSession := by
  unfold Claimed Starts; decide +kernel

theorem witness_restoreRun : Claimed 0x62 claimRestoreRun (wReq [] ([])) wSession := by
  unfold Claimed Starts; decide +kernel

theorem witness_reshard : Claimed 0x63 claimReshard (wReq [(8, 1, 1), (10, 2, 0x7FFF)] ([])) wTwo := by
  unfold Claimed Starts; decide +kernel

theorem witness_progUnload : Claimed 0x71 claimProgUnload (wReq [(8, 4, 7)] ([])) wProgram := by
  unfold Claimed Starts; decide +kernel

theorem witness_spinUnload : Claimed 0x73 claimSpinUnload (wReq [(8, 4, 9)] ([])) wProgram := by
  unfold Claimed Starts; decide +kernel

theorem witness_progQuery : Claimed 0x74 claimProgQuery (wReq [(8, 1, 1), (12, 4, 9)] ([])) wProgram := by
  unfold Claimed Starts; decide +kernel

theorem witness_tideSet : Claimed 0x80 claimTideSet (wReq [(8, 1, 1)] ([])) wShelf := by
  unfold Claimed Starts; decide +kernel

theorem witness_tideQuery : Claimed 0x81 claimTideQuery (wReq [] ([])) wShelf := by
  unfold Claimed Starts; decide +kernel

theorem witness_kvConfig : Claimed 0x82 claimKvConfig (wReq [(8, 1, 4), (9, 1, 4)] ([])) wShelf := by
  unfold Claimed Starts; decide +kernel

theorem witness_kvQuery : Claimed 0x83 claimKvQuery (wReq [] ([])) wShelf := by
  unfold Claimed Starts; decide +kernel

theorem witness_secQuery : Claimed 0x90 claimSecQuery (wReq [(8, 1, 63)] ([])) wShelf := by
  unfold Claimed Starts; decide +kernel

theorem witness_provision : Claimed 0x91 claimProvision (wReq [(60, 4, 128)] (zeros 128)) wCharged := by
  unfold Claimed Starts; decide +kernel

theorem witness_seal : Claimed 0x92 claimSeal (wReq [(8, 1, 0x7F)] ([])) wOwned := by
  unfold Claimed Starts; decide +kernel

theorem witness_retire : Claimed 0x93 claimRetire (wReq [(8, 1, 15)] ([])) wArmed := by
  unfold Claimed Starts; decide +kernel

theorem witness_keyGenerate : Claimed 0x95 claimKeyGenerate (wReq [(8, 1, 5), (9, 1, 2), (12, 2, 32), (60, 4, 152)] ([])) wOwned := by
  unfold Claimed Starts; decide +kernel

theorem witness_keyZeroise : Claimed 0x96 claimKeyZeroise (wReq [(8, 1, 5)] ([])) wKeys := by
  unfold Claimed Starts; decide +kernel

theorem witness_keyBind : Claimed 0x97 claimKeyBind (wReq [(8, 1, 5), (9, 1, 255)] ([])) wKeys := by
  unfold Claimed Starts; decide +kernel

theorem witness_keeperChallenge : Claimed 0x98 claimKeeperChallenge (wReq [(8, 1, 1), (9, 1, 15), (60, 4, 64)] ([])) wOwned := by
  unfold Claimed Starts; decide +kernel

theorem witness_keeperRespond : Claimed 0x99 claimKeeperRespond (wReq [(9, 1, 2), (60, 4, 192)] (zeros 192)) wChallenge := by
  unfold Claimed Starts; decide +kernel

theorem witness_keeperClose : Claimed 0x9A claimKeeperClose (wReq [(9, 1, 15)] ([])) wShelf := by
  unfold Claimed Starts; decide +kernel

theorem witness_memberQuery : Claimed 0xA0 claimMemberQuery (wReq [] ([])) wShelf := by
  unfold Claimed Starts; decide +kernel

theorem witness_memberExclude : Claimed 0xA1 claimMemberExclude (wReq [(8, 1, 15)] ([])) wShelf := by
  unfold Claimed Starts; decide +kernel

theorem witness_memberAdmit : Claimed 0xA2 claimMemberAdmit (wReq [(8, 1, 15)] ([])) wExcluded := by
  unfold Claimed Starts; decide +kernel

theorem witness_timeQuery : Claimed 0xA3 claimTimeQuery (wReq [] ([])) wShelf := by
  unfold Claimed Starts; decide +kernel

theorem witness_timeSet : Claimed 0xA4 claimTimeSet (wReq [(8, 8, 1000), (16, 4, 1000000)] ([])) wShelf := by
  unfold Claimed Starts; decide +kernel

theorem witness_leaseQuery : Claimed 0xA5 claimLeaseQuery (wReq [] ([])) wShelf := by
  unfold Claimed Starts; decide +kernel

theorem witness_leaseRelease : Claimed 0xA7 claimLeaseRelease (wReq [] ([])) wLease := by
  unfold Claimed Starts; decide +kernel

theorem witness_leaseClaim : Claimed 0xA6 claimLeaseClaim (wReq [(8, 1, 15)] ([])) wVolume := by
  unfold Claimed Starts; decide +kernel

theorem witness_format : Claimed 0x20 claimFormat (wReq [(8, 1, 1)] ([])) wVolume := by
  unfold Claimed Starts; decide +kernel

/-! ### Mailbox statements -/

/-- An accepted job in a phase. -/
def wJob (ph : JobPhase) : Job :=
  { cmd := zeros 64, part := 0, path := .pport 0, buf := [], fail := none, flash := none, order := 0, phase := ph, power := false,
    effect := false, lost := false, since := 0, late := false }

/-- The mailbox `k` of engine 2 holds that job. -/
def wBusy (k : MbxKey) (ph : JobPhase) : State := wShelf.modMailbox 2 k (fun b => { b with job := some (wJob ph) })

theorem witness_MailboxEvents_1 :
    ((wBusy (some 0) (.ready [0])).eng 2).powered = true ∧ ((wBusy (some 0) (.ready [0])).eng 2).fenced = false ∧
      ((wBusy (some 0) (.ready [0])).mailbox 2 (some 0)).job = some (wJob (.ready [0])) := by decide +kernel

theorem witness_MailboxEvents_2 :
    ((wBusy none (.ready [0])).eng 2).powered = true ∧ ((wBusy none (.ready [0])).eng 2).fenced = false ∧
      ((wBusy none (.ready [0])).mailbox 2 none).job = some (wJob (.ready [0])) := by decide +kernel

theorem witness_MailboxEvents_3 :
    ((wBusy (some 0) .queued).mailbox 2 (some 0)).job.isSome = true ∧ ((wBusy (some 0) .queued).eng 2).runs = true := by
  decide +kernel

theorem witness_BusyMailboxIgnoresCommands_1 :
    (0x01, Instr.identify) ∈ mailboxRows ∧ (wReq [] []).path ≠ .redfish ∧
      (wBusy (some 0) .queued).requestKey (wReq [] []) = some (some 0, 0) ∧
      ((wBusy (some 0) .queued).mailbox 2 (some 0)).job.isSome = true :=
  ⟨List.Mem.head _, by decide +kernel⟩

/-- An access to the window of partition 0 on engine 2. -/
def wSrc : WinSrc := { eng := 2, part := 0, path := .pport 0, via := .memory }

theorem witness_BusyMailboxIgnoresCommands_2 :
    (wBusy (some 0) .queued).reachesWindow wSrc.eng wSrc.part wSrc.path = true ∧
      ((wBusy (some 0) .queued).win wSrc.eng wSrc.part).mbx.job.isSome = true ∧ 15 < 16 := by decide +kernel

theorem witness_QueriesOnlyReport : ∃ r ∈ mailboxRows, r.1 ∈ ([0x01, 0xA5] : List Nat) ∧ Starts r.1 (wReq [] []) wShelf (some 0) 0 :=
  ⟨_, List.Mem.head _, by unfold Starts; decide +kernel⟩

/-- A request of partition 1 to engine 2. -/
def wReq1 : MbxReq := { eng := 2, part := 1, path := .pport 0, body := zeros 63, buf := [], fail := none, flash := none }

theorem witness_PartitionZeroCommands :
    (0x20, Instr.format) ∈ mailboxRows ∧ Starts 0x20 wReq1 wTwo (some 1) 1 ∧ (1 : PartId) ≠ 0 :=
  ⟨by simp [mailboxRows], by unfold Starts; decide +kernel⟩

/-- A sanitise of the whole shelf runs. -/
def wSanitising : State := { wShelf with sanitise := { wShelf.sanitise with state := 1, mode := 2 } }

theorem witness_SanitiseRefusesCommands :
    (0x40, Instr.regTensor) ∈ mailboxRows ∧ Starts 0x40 (wReq [] []) wSanitising (some 0) 0 ∧ wSanitising.sanitise.state = 1 ∧
      wSanitising.sanitise.scope = 0 :=
  ⟨by simp [mailboxRows], by unfold Starts; decide +kernel⟩

theorem witness_SanitiseRefusesCommands_reshape :
    (0x43, Instr.reshape) ∈ mailboxRows ∧ Starts 0x43 (wReq [] []) wSanitising (some 0) 0 ∧
      (wSanitising.accepted 0x43 (wReq [] []) (some 0) 0).reshaping 0 = false :=
  ⟨by simp [mailboxRows], by unfold Starts; decide +kernel⟩

theorem witness_UnjoinedEnginesRefuse_1 :
    (0x40, Instr.regTensor) ∈ mailboxRows ∧ Starts 0x40 (wReq [] []) State.reset (some 0) 0 ∧ State.reset.joined 2 = false ∧
      (State.reset.eng 2).member.state ≠ 5 :=
  ⟨by simp [mailboxRows], by unfold Starts; decide +kernel⟩

/-- Engine 2 has lost quorum. -/
def wLonely : State := State.reset.modEng 2 (fun x => { x with member := { x.member with state := 5 } })

theorem witness_UnjoinedEnginesRefuse_2 :
    (0x40, Instr.regTensor) ∈ mailboxRows ∧ Starts 0x40 (wReq [] []) wLonely (some 0) 0 ∧ wLonely.joined 2 = false ∧
      (wLonely.eng 2).member.state = 5 :=
  ⟨by simp [mailboxRows], by unfold Starts; decide +kernel⟩

theorem witness_ReservedOpcodesAreInvalid_1 :
    Starts (0xFF : BitVec 8).toNat (wReq [] []) wShelf (some 0) 0 ∧ reservedOp (0xFF : BitVec 8).toNat = true ∧
      reservedOp 0x00 = true ∧ reservedOp 0xA8 = true ∧ wShelf.joined 2 = true ∧ (wShelf.eng 2).member.state ≠ 5 := by
  unfold Starts; decide +kernel

theorem witness_TideSetAnswers_1 :
    let m := wReq [(8, 1, 1)] []
    let s : State := { wShelf with tide := { wShelf.tide with turn := 1, flood := true } }
    Starts 0x80 m s (some 0) 0 ∧ s.tide.turn ≠ 0 ∧ (mbxCall m 0x80 (some 0) 0 s).passes (s.accepted 0x80 m (some 0) 0)
      { used := [(8, 1)], p0 := true, bad := [(8, 1 < (mbxCall m 0x80 (some 0) 0 s).fld 8 1)] } = true := by
  intro m s; unfold Starts; decide +kernel

theorem witness_TideSetAnswers_2 :
    let m := wReq [] []
    Starts 0x80 m wShelf (some 0) 0 ∧ wShelf.tide.turn = 0 ∧ wShelf.tide.flood = false ∧ (mbxCall m 0x80 (some 0) 0 wShelf).fld 8 1 = 0 ∧
      (mbxCall m 0x80 (some 0) 0 wShelf).passes (wShelf.accepted 0x80 m (some 0) 0)
        { used := [(8, 1)], p0 := true, bad := [(8, 1 < (mbxCall m 0x80 (some 0) 0 wShelf).fld 8 1)] } = true := by
  intro m; unfold Starts; decide +kernel

/-- SET_FEATURE of POWER_CAP at shelf scope. -/
def wCapReq (v : Nat) : MbxReq := wReq [(8, 2, 4), (10, 1, 1), (16, 4, v)] []

/-- The call meets the hypotheses of PowerCapValues. -/
def wCapOk (v : Nat) : Prop :=
  let c := mbxCall (wCapReq v) 0x03 (some 0) 0 wShelf
  Starts 0x03 (wCapReq v) wShelf (some 0) 0 ∧ c.fld 8 2 = 4 ∧ c.fld 16 4 = v ∧
    c.passes (wShelf.accepted 0x03 (wCapReq v) (some 0) 0)
      { used := [(8, 4), (16, 4)], p0 := true, config := configCommand c.cmd,
        bad := [(10, c.fld 10 1 ≠ 1), (11, 1 < c.fld 11 1)] } = true

theorem witness_PowerCapValues : wCapOk 0 ∧ wCapOk 10000 ∧ wCapOk 21000 ∧ wCapOk 9999 ∧ wCapOk 21001 := by
  refine ⟨?_, ?_, ?_, ?_, ?_⟩ <;> (unfold wCapOk Starts; decide +kernel)

/-! ### Stream statements -/

/-- Stream 63 of partition 0 on engine 2. -/
def wAt : StreamAt := { eng := 2, part := 0, stream := 63 }

/-- Task registers with fields (offset, width, value). -/
def wTask (fs : List (Nat × Nat × Nat)) : List Byte := fs.foldl (fun b f => putLe b f.1 f.2.1 f.2.2) (zeros 56)

/-- A queued command with its tokens, and the data it has fetched. -/
def wCmd (ph : SlotPhase) (task data : List Byte) : Slot :=
  { task := task, path := .pport 0, storeClass := false, order := 0, phase := ph, waits := Waits.none, lockAt := none,
    lockOn := 0, data := data, dataFail := false, tokens := Vector.replicate 4 8 }

/-- Stream 63 holds a queue, in a state. -/
def State.wQueue (s : State) (qs : List Slot) : State := s.modStream wAt (fun x => { x with queue := qs })

/-- A stream command of partition 0. -/
def wStk : StkReq := { eng := 2, part := 0, path := .pport 1, stream := 63, body := zeros 55 }

theorem witness_StreamCommandsAreAccepted :
    let s := wShelf.wQueue (List.replicate 7 (wCmd .queued (zeros 56) []))
    s.reachesWindow wStk.eng wStk.part wStk.path = true ∧ wStk.stream < s.streams wStk.part ∧
      (s.win wStk.eng wStk.part).resetting = false ∧ (s.stream wAt).queue.length < 8 ∧ (s.stream wAt).halted = false ∧
      s.shutdown = none := by intro s; decide +kernel

theorem witness_FullStreamIgnoresCommands :
    let s := wShelf.wQueue (List.replicate 8 (wCmd .queued (zeros 56) []))
    (0x01, Instr.read) ∈ streamRows ∧ s.reachesWindow wStk.eng wStk.part wStk.path = true ∧ wStk.stream < s.streams wStk.part ∧
      (s.win wStk.eng wStk.part).resetting = false ∧ 8 ≤ (s.stream wAt).queue.length :=
  ⟨List.Mem.head _, by decide +kernel⟩

/-- A command that runs, and has its tokens, data and lane, is unhindered. -/
theorem unhindered_running {s : State} {a : StreamAt} {i : Nat} {q q1 : Slot} {f : TransferFail}
    (h : s.streamLive a = true ∧ (s.eng a.eng).runs = true ∧ (s.eng a.eng).power.low = false ∧
      (s.stream a).queue[i]? = some q ∧ s.fenceHolds a i q = false ∧ q.phase = .running ∧ s.runHolds a q = false ∧
      ((s.takeAllTokens a i q).stream a).queue[i]? = some q1 ∧ (q1.sends && (s.takeAllTokens a i q).paused a.eng q1.path) = false ∧
      ((s.takeAllTokens a i q).codes a q1).2 = true ∧ q1.lacks = none ∧ q1.dataDone = true) :
    Unhindered s a i { at_ := a, slot := q1, fail := f } ((s.takeAllTokens a i q).codes a q1).1 := by
  obtain ⟨h1, h2, h3, h4, h5, h6, h7, h8, h9, h10, h11, h12⟩ := h
  exact ⟨h1, h2, h3, rfl, ⟨q, s, q, _, h4, h5, .inl ⟨h6, rfl⟩, h4, h7, rfl, h8, h9, Prod.ext rfl h10⟩, .inr h11, h12⟩

/-- A stream command of the opcode meets the hypotheses of StreamCommandsRun. -/
def wRuns (op : Nat) (f : Run → State → Option State) : Prop :=
  ∃ s a i r u, Unhindered s a i r u ∧ r.slot.op = op ∧ (f r u).isSome = true

/-- Nothing fails outside the shelf. -/
def wFine : TransferFail := { host := none, store := false }

/-- The conditions of `wRuns` that can be computed, for one running command in stream 63. -/
theorem wRuns_of {op : Nat} {f : Run → State → Option State} (s : State) (q : Slot)
    (h : (s.wQueue [q]).streamLive wAt = true ∧ ((s.wQueue [q]).eng 2).runs = true ∧
      ((s.wQueue [q]).eng 2).power.low = false ∧
      ((s.wQueue [q]).stream wAt).queue[0]? = some q ∧ (s.wQueue [q]).fenceHolds wAt 0 q = false ∧ q.phase = .running ∧
      (s.wQueue [q]).runHolds wAt q = false ∧
      (((s.wQueue [q]).takeAllTokens wAt 0 q).stream wAt).queue[0]? = some q ∧
      (q.sends && ((s.wQueue [q]).takeAllTokens wAt 0 q).paused 2 q.path) = false ∧
      (((s.wQueue [q]).takeAllTokens wAt 0 q).codes wAt q).2 = true ∧ q.lacks = none ∧ q.dataDone = true)
    (h1 : q.op = op ∧
      (f { at_ := wAt, slot := q, fail := wFine } (((s.wQueue [q]).takeAllTokens wAt 0 q).codes wAt q).1).isSome = true) :
    wRuns op f :=
  ⟨s.wQueue [q], wAt, 0, { at_ := wAt, slot := q, fail := wFine }, _, unhindered_running h, h1⟩

/-- A running command. -/
def wOp (fs : List (Nat × Nat × Nat)) (data : List Byte) : Slot := wCmd .running (wTask fs) data

/-- A page of zeros, coded raw, on engine 2, its unit numbered as its length. -/
def wPage (key : DWord) (n : Nat) : KvPage :=
  { key := key, raw := n, dir := 2, body := 2, lent := false, addr := n * unitBytes, home := encodeCBlock 1 0xFF (zeros n),
    hot := none, hotAt := 0, poisoned := false }

/-- Two pages of key 5 and 6, a rider of eight, and a compression lane for the command. -/
def wPages : State :=
  (wTensor.modEng 2 (fun x => { x with clanes := x.clanes.set 0 (some (.kv 0 0)) })).modPart 0 (fun x =>
    { x with kv := [wPage 5 16, wPage 6 512],
             riders := [(4, zeros 8)] })

theorem witness_StreamCommandsRun_read : wRuns 0x01 doneRead :=
  wRuns_of wTensor (wOp [(0, 1, 1), (0x10, 8, 1), (0x18, 8, 56), (0x20, 8, 8)] []) (by decide +kernel) (by decide +kernel)

theorem witness_StreamCommandsRun_write : wRuns 0x02 doneWrite :=
  wRuns_of wTensor (wOp [(0, 1, 2), (0x10, 8, 1), (0x18, 8, 56), (0x20, 8, 8)] [1, 2, 3, 4, 5, 6, 7, 8]) (by decide +kernel)
    (by decide +kernel)

theorem witness_StreamCommandsRun_weightPull : wRuns 0x04 doneWeightPull :=
  wRuns_of wTensor (wOp [(0, 1, 4), (0x10, 8, 1), (0x20, 8, 8)] []) (by decide +kernel) (by decide +kernel)

theorem witness_StreamCommandsRun_kvPut : wRuns 0x05 doneKvPut :=
  wRuns_of wPages { wOp [(0, 1, 5), (0x10, 8, 18), (0x20, 8, 512)] (zeros 512) with lockOn := 0xFFFF } (by decide +kernel) (by decide +kernel)

theorem witness_StreamCommandsRun_kvGet : wRuns 0x06 doneKvGet :=
  wRuns_of wPages (wOp [(0, 1, 6), (0x10, 8, 5), (0x20, 8, 16)] []) (by decide +kernel) (by decide +kernel)

theorem witness_StreamCommandsRun_kvProbe : wRuns 0x06 doneKvGet :=
  wRuns_of wPages (wOp [(0, 1, 6), (0x10, 8, 5)] []) (by decide +kernel) (by decide +kernel)

theorem witness_StreamCommandsRun_kvDrop : wRuns 0x07 doneKvDrop :=
  wRuns_of wPages (wOp [(0, 1, 7), (0x10, 8, 5)] []) (by decide +kernel) (by decide +kernel)

theorem witness_StreamCommandsRun_riderPut : wRuns 0x09 doneRiderPut :=
  wRuns_of wPages (wOp [(0, 1, 9), (0x10, 8, 4095), (0x20, 8, 8)] (zeros 8)) (by decide +kernel) (by decide +kernel)

theorem witness_StreamCommandsRun_riderGet : wRuns 0x0A doneRiderGet :=
  wRuns_of wPages (wOp [(0, 1, 10), (0x10, 8, 4), (0x20, 8, 8)] []) (by decide +kernel) (by decide +kernel)

theorem witness_StreamCommandsRun_flush : wRuns 0x08 (fun _ u => some u) :=
  wRuns_of wShelf (wOp [(0, 1, 8)] []) (by decide +kernel) (by decide +kernel)

theorem witness_StreamCommandsRun_fence : wRuns 0x0B (fun _ u => some u) :=
  wRuns_of wShelf (wOp [(0, 1, 11)] []) (by decide +kernel) (by decide +kernel)

theorem witness_StreamFrames_1 : ∃ s a i r u t v, Unhindered s a i r u ∧ r.slot.op = 0x02 ∧
    (u.part a.part).tensor? r.slot.obj = some t ∧ doneWrite r u = some v := by
  obtain ⟨s, a, i, r, u, h, hop, hd⟩ := witness_StreamCommandsRun_write
  obtain ⟨v, hv⟩ := Option.isSome_iff_exists.mp hd
  have ha : r.at_ = a := h.2.2.2.1
  cases ht : (u.part a.part).tensor? r.slot.obj with
  | none => simp [doneWrite, ha, ht] at hv
  | some t => exact ⟨s, a, i, r, u, t, v, h, hop, ht, hv⟩

theorem witness_StreamFrames_2 : ∃ s a i r u v, Unhindered s a i r u ∧ r.slot.op = 0x01 ∧ doneRead r u = some v := by
  obtain ⟨s, a, i, r, u, h, hop, hd⟩ := witness_StreamCommandsRun_read
  obtain ⟨v, hv⟩ := Option.isSome_iff_exists.mp hd
  exact ⟨s, a, i, r, u, v, h, hop, hv⟩

theorem witness_ClassChangesOnlyWhenEmpty_1 :
    let s := wShelf.wQueue [wCmd .queued (zeros 56) []]
    StreamServed s wAt ∧ wAt.stream < 4096 ∧ (0x4#32).getLsbD 2 ≠ (s.stream wAt).storeClass ∧ (s.stream wAt).queue ≠ [] ∧
      s.reachesWindow 2 0 (.pport 0) = true := by
  intro s; unfold StreamServed; decide +kernel

theorem witness_ClassChangesOnlyWhenEmpty_2 :
    StreamServed wShelf wAt ∧ (wShelf.stream wAt).queue = [] ∧ ¬((0x5#32).getLsbD 0 = true ∧ (0x5#32).getLsbD 1 = true) ∧
      ControlWrites wShelf wAt 0x5 (.halt wAt 0x5) :=
  ⟨by unfold StreamServed; decide +kernel, by decide +kernel, by decide, .inl ⟨by decide, rfl⟩⟩

theorem witness_HaltAndResume_1 :
    StreamServed wShelf wAt ∧ ControlWrites wShelf wAt 0x3 (.halt wAt 0x3) ∧ ControlWrites wShelf wAt 0x3 (.resume wAt 0x3) ∧
      (0x3#32).getLsbD 0 = true ∧ (0x3#32).getLsbD 1 = true :=
  ⟨by unfold StreamServed; decide +kernel, .inl ⟨by decide, rfl⟩, .inr (.inl ⟨by decide, rfl⟩), by decide, by decide⟩

theorem witness_HaltAndResume_2 :
    StreamServed wShelf wAt ∧ ControlWrites wShelf wAt 0x2 (.resume wAt 0x2) ∧ (0x2#32).getLsbD 0 = false ∧
      (0x2#32).getLsbD 1 = true ∧ (wShelf.stream wAt).queue = [] :=
  ⟨by unfold StreamServed; decide +kernel, .inr (.inl ⟨by decide, rfl⟩), by decide, by decide, by decide +kernel⟩

theorem witness_HaltAndResume_3 :
    let s := wShelf.wQueue [wCmd .queued (zeros 56) []]
    StreamServed s wAt ∧ ControlWrites s wAt 0x1 (.halt wAt 0x1) ∧ (0x1#32).getLsbD 0 = true ∧ (0x1#32).getLsbD 1 = false ∧
      (0x1#32).getLsbD 2 = (s.stream wAt).storeClass :=
  ⟨by unfold StreamServed; decide +kernel, .inl ⟨by decide, rfl⟩, by decide, by decide, by decide +kernel⟩

theorem witness_HaltAndResume_4 :
    let s := wShelf.modStream wAt (fun x => { x with halted := true })
    (0x0B, Instr.fence) ∈ streamRows ∧ s.reachesWindow wStk.eng wStk.part wStk.path = true ∧ wStk.stream < s.streams wStk.part ∧
      (s.win wStk.eng wStk.part).resetting = false ∧ (s.stream wAt).queue.length < 8 ∧ (s.stream wAt).halted = true :=
  ⟨by simp [streamRows], by decide +kernel⟩

theorem witness_StreamEvents_1 :
    let s := wShelf.wQueue [wCmd (.finished .ok 0) (zeros 56) []]
    s.streamLive wAt = true ∧ (s.stream wAt).queue = [wCmd (.finished .ok 0) (zeros 56) []] ∧ (s.stream wAt).done = false := by
  intro s; decide +kernel

theorem witness_StreamEvents_2 : wShelf.streamLive wAt = true ∧ (wShelf.stream wAt).queue.head?.all (fun q => !q.isFinished) = true := by
  decide +kernel

theorem witness_StreamEvents_3 :
    let s := wShelf.modStream wAt (fun x => { x with done := true })
    StreamServed s wAt ∧ (s.stream wAt).done = true := by
  intro s; unfold StreamServed; decide +kernel

/-- A WRITE of eight bytes that holds its lock and waits for its data. -/
def wFetching : Slot := { wOp [(0, 1, 2), (0x10, 8, 1), (0x20, 8, 8)] [] with lockOn := 0x4 }

theorem witness_StreamEvents_4 :
    let s := wTensor.wQueue [wFetching]
    s.streamLive wAt = true ∧ (s.stream wAt).queue[0]? = some wFetching ∧ wFetching.takesData = true ∧
      wFetching.isFinished = false ∧ wFetching.dataFail = false ∧ wFetching.lockOn ≠ 0 ∧ s.fenceHolds wAt 0 wFetching = false ∧
      (s.eng 2).runs = true ∧ (s.eng 2).power.low = false ∧ wFetching.phase = .running ∧
      ((s.takeTokens wAt 0 0 1).stream wAt).queue[0]? = some wFetching ∧ 1 ≤ wFetching.tokens[0] := by
  intro s; decide +kernel

/-- A WEIGHT_PULL of step 1. -/
def wPull : Slot := wCmd .queued (wTask [(0, 1, 4), (0x10, 8, 1), (0x20, 8, 8), (0x30, 6, 1)]) []

/-- A WEIGHT tensor beside its MASTER, of 64 FP32 elements each. -/
def wWeights : State :=
  wShelf.modPart 0 (fun x => { x with
    tensors := [{ wTens with id := 2, cls := 1, fmt := 0, parent := 0, charge := 256 },
                { wTens with cls := 0, fmt := 0, parent := 2, charge := 256 }] })

theorem witness_WeightPullWaitsForItsStep :
    let s := wWeights.wQueue [wPull]
    s.streamLive wAt = true ∧ (s.eng 2).runs = true ∧ (s.eng 2).power.low = false ∧ (s.stream wAt).queue[0]? = some wPull ∧
      wPull.phase = .queued ∧ wPull.op = 0x04 ∧ s.fenceHolds wAt 0 wPull = false ∧ s.streamCheck wAt wPull = none ∧
      s.lowEngines wAt wPull = 0 ∧
      (s.askLocks wAt 0 { kind := 0, cls := 0, obj := wPull.obj, lo := wPull.off, hi := wPull.off + wPull.len }).2 = true ∧
      (s.part 0).step.completed < wPull.epoch ∧ (s.part 0).step.phase ≠ 4 := by
  intro s; decide +kernel

theorem witness_Unhindered_queued :
    let q := wCmd .queued (wTask [(0, 1, 1), (0x10, 8, 1), (0x20, 8, 8)]) []
    let s := wWeights.wQueue [q]
    s.streamLive wAt = true ∧ s.fenceHolds wAt 0 q = false ∧ s.streamCheck wAt q = none ∧ s.lowEngines wAt q = 0 ∧
      (s.askLocks wAt 0 { kind := 0, cls := 0, obj := 1, lo := 0, hi := 8 }).2 = true ∧
      (s.askLocks wAt 0 { kind := 0, cls := 0, obj := 1, lo := 0, hi := 8 }).1.stateHolds wAt q = false := by
  intro q s; decide +kernel

theorem witness_ReservedOpcodesAreInvalid_2 :
    let q := wCmd .queued (wTask [(0, 1, 0x0C)]) []
    let z := wCmd .queued (zeros 56) []
    let s := wShelf.wQueue [q, z]
    s.streamLive wAt = true ∧ (s.stream wAt).queue[0]? = some q ∧ (s.stream wAt).queue[1]? = some z ∧ q.phase = .queued ∧
      0x0B < q.op ∧ z.op = 0 ∧ s.fenceHolds wAt 0 q = false ∧ s.fenceHolds wAt 1 z = false ∧ (s.eng 2).power.low = false ∧
      s.joined 2 = true ∧ (s.eng 2).member.state ≠ 5 := by
  intro q z s; decide +kernel

/-! ### Windows, interrupts, resets, ports -/

theorem witness_WindowAccesses_1 :
    wShelf.reachesWindow 2 0 (.pport 0) = true ∧ wShelf.listed 0 0x1000 = true ∧ regAt 0x1000 = (0x1000, 4) := by decide +kernel

theorem witness_WindowAccesses_2 : wTwo.reachesWindow 2 5 (.pport 0) = false := by decide +kernel

theorem witness_WindowAccesses_3 : wShelf.reachesWindow 2 0 (.aport 7) = false ∧ wShelf.reachesWindow 2 0 (.pport 1) = true ∧
    (wShelf.win 2 0).ints.ring.en = false := by decide +kernel

theorem witness_UnreachedRegistersAreFaults_1 :
    wShelf.reachesWindow 2 0 (.pport 0) = true ∧ wShelf.listed 0 0x90000 = false ∧ regAt 0x90000 = (0x90000, 4) := by
  decide +kernel

theorem witness_UnreachedRegistersAreFaults_2 : wShelf.reachesWindow 2 0 (.pport 0) = true ∧ wShelf.expert 0 = false := by
  decide +kernel

theorem witness_InterruptEvents_1 : wShelf.hasWindow 2 0 = true ∧ wShelf.serves 2 = true ∧ (wShelf.win 2 0).ints.routeOf 0 = 3 := by
  decide +kernel

theorem witness_InterruptEvents_2 :
    let s := wShelf.modRing 2 0 (fun r => { r with en := true })
    s.hasWindow 2 0 = true ∧ s.serves 2 = true ∧ (s.win 2 0).ints.ring.en = true := by intro s; decide +kernel

theorem witness_InterruptEvents_3 :
    let ev : Event := { source := 0, stream := 63, time := 0 }
    let s := wShelf.setCoal 2 0 31 [ev]
    s.hasWindow 2 0 = true ∧ s.serves 2 = true ∧ (s.win 2 0).ints.coal[31] = [ev] ∧
      ev.time.toNat + 1000 * (s.win 2 0).ints.coalUsec 31 ≤ (s.time 2).toNat := by intro ev s; decide +kernel

theorem witness_InterruptEvents_4 :
    let s := wShelf.modWin 2 0 (fun w => { w with ints := { w.ints with route := w.ints.route.set 31 1 } })
    s.hasWindow 2 0 = true ∧ s.serves 2 = true ∧ (s.win 2 0).ints.routeOf 31 = 1 := by intro s; decide +kernel

/-- A reset of partition 1 is in progress. -/
def wResetting (r : PartReset) : State := wTwo.modPart 1 (fun x => { x with resetting := some r })

theorem witness_PartitionResets :
    wTwo.hasWindow 2 1 = true ∧ wTwo.serves 2 = true ∧ (wTwo.part 1).resetting = none ∧ wTwo.joined 2 = true ∧
      (wTwo.eng 2).tickAt ≤ (wTwo.time 2).toNat / 10000 ∧
      (wResetting ⟨2, true, false, false⟩).resetDue 1 = true ∧ (wResetting ⟨2, true, true, false⟩).resetDue 1 = true ∧
      (wResetting ⟨2, true, false, true⟩).resetDue 1 = true ∧
      ((wResetting ⟨2, true, false, true⟩).part 1).resetting = some ⟨2, true, false, true⟩ ∧
      (wResetting ⟨2, true, false, true⟩).hasWindow 2 1 = true := by decide +kernel

/-- Partition 0 admits GID 77, and every port of engine 2 has its link with flow control. -/
def wLinked : State :=
  { wShelf.modEng 2 (fun x => { x with
      ports := x.ports.map (fun q => { q with linkUp := true, pfcOn := true }),
      qps := [{ num := 9, part := 0, port := 15, mtu := 4096, ready := true, cuts := 0, lastCnp := none }] }) with
    record := { wShelf.record with parts := [(0, { PartCfg.initial with gids := [77] })] } }

theorem witness_PortEvents_1 :
    (wLinked.eng 2).runs = true ∧ ((wLinked.eng 2).ports[(Fin.ofNat 22 15 : Fin 22)]).linkUp = true ∧
      (wLinked.eng 2).qps.any (fun q => q.num = 10) = false ∧ partId? (byteAt [0] 0).toNat = some 0 ∧ wLinked.joined 2 = true ∧
      wLinked.hasWindow 2 0 = true ∧ (wLinked.cfg 0).any (fun c => c.gids.contains 77) = true ∧
      (wLinked.eng 2).qps.length < 16384 ∧ wLinked.admitsQp 2 true 78 [0] = none := by decide +kernel

theorem witness_PortEvents_2 :
    (wShelf.eng 2).portsRun = true ∧ ((wShelf.eng 2).ports[(16 : Fin 22)]).fenced = false ∧
      ((wShelf.eng 2).ports[(16 : Fin 22)]).linkUp = false ∧ ((wShelf.eng 2).ports[(21 : Fin 22)]).linkUp = false ∧
      (wLinked.eng 2).portsRun = true ∧ ((wLinked.eng 2).ports[(19 : Fin 22)]).linkUp = true ∧
      ((wLinked.eng 2).ports[(19 : Fin 22)]).pfcOn = true ∧
      (wLinked.eng 2).qps.find? (fun q => q.num = 9) =
        some { num := 9, part := 0, port := 15, mtu := 4096, ready := true, cuts := 0, lastCnp := none } := by decide +kernel

theorem witness_PortEvents_3 : modeAllowed 16 1 8 false = true ∧ modeAllowed 0 1 8 false = true ∧ modeAllowed 21 6 16 true = true := by
  decide

/-! ### Steps, cuts, drains, turns, re-shards -/

/-- An ACCUM tensor of a MASTER that every contributor has pushed into. -/
def wAccum : Tensor :=
  { wTens with id := 3, rid := 3, cls := 5, fmt := 0, parent := 2, twin := false, bitmap := [(0, 15)], pushes := [(0, 4)] }

/-- Partition 0 with WEIGHT, MASTER and ACCUM, a policy for four contributors, in a phase of its step. -/
def wStep (ph : Nat) : State :=
  wWeights.modPart 0 (fun x => { x with
    tensors := x.tensors ++ [wAccum], policy := some wPol,
    step := { x.step with contributors := 4, phase := ph, gscale := 0x3F800000 } })

theorem witness_StepEngineEvents_1 :
    ((wStep 1).part 0).step.phase = 1 ∧ ((wStep 1).part 0).policy = some wPol ∧ ((wStep 1).part 0).bitmapsFull = true := by
  decide +kernel

theorem witness_StepEngineEvents_2 :
    ((wStep 2).part 0).step.phase = 2 ∧ ((wStep 2).part 0).foundNonfinite = false ∧ ((wStep 2).part 0).resharding = false := by
  decide +kernel

/-- One sum of the ACCUM tensor is infinite. -/
def wInfinite : State :=
  (wStep 2).modTensor 0 3 (fun t => { t with sums := [(0, { sum := 0, posInf := true, negInf := false, nan := false, nanNeg := false })] })

theorem witness_StepEngineEvents_3 :
    (wInfinite.part 0).step.phase = 2 ∧ (wInfinite.part 0).foundNonfinite = true := by decide +kernel

theorem witness_StepEngineEvents_4 :
    ((wStep 3).part 0).step.phase = 3 ∧ (wStep 3).canUpdate 0 (((wStep 3).part 0).policy.getD []) = true ∧
      ((wStep 3).part 0).masters.any (fun m =>
        (((wStep 3).part 0).stepTensors (((wStep 3).part 0).policy.getD []) m).any (wStep 3).stripeGone) = false ∧
      ((wStep 3).updateAll 0 (((wStep 3).part 0).policy.getD [])).isSome = true := by decide +kernel

theorem witness_StepEngineEvents_5 :
    let s := (wStep 3).modTensor 0 2 (fun t => { t with poison := [0] })
    (s.part 0).step.phase = 3 ∧ s.canUpdate 0 ((s.part 0).policy.getD []) = true ∧
      (s.part 0).masters.any (fun m => ((s.part 0).stepTensors ((s.part 0).policy.getD []) m).any s.stripeGone) = true := by
  intro s; decide +kernel

/-- A cut of partition 0 is declared, with the gates of a mask closed. -/
def wCutting (gates : BitVec 16) (ts : List Tensor) (ph : Nat) : State :=
  wShelf.modPart 0 (fun x => { x with
    tensors := ts, step := { x.step with phase := ph },
    cut := some { eng := 2, key := some (some 0), kind := 1, drain := false, commit := false, gates := gates, final := false,
                  reseed := false } })

/-- The declaration in it. -/
def wDecl (gates : BitVec 16) : CutDecl :=
  { eng := 2, key := some (some 0), kind := 1, drain := false, commit := false, gates := gates, final := false, reseed := false }

theorem witness_CutEvents_1 :
    ((wCutting 0 [wTens] 0).part 0).cut = some (wDecl 0) ∧ hasEngine ((wCutting 0 [wTens] 0).liveMembers 0) 15 = true ∧
      ((wCutting 0 [wTens] 0).part 0).step.holdsCut = false := by decide +kernel

theorem witness_CutEvents_2 :
    let s := wCutting 0xFFFF [wTens] 0
    (s.part 0).cut = some (wDecl 0xFFFF) ∧ (s.part 0).step.holdsCut = false ∧ s.liveMembers 0 &&& ~~~(0xFFFF : BitVec 16) = 0 ∧
      s.changing 0 = false ∧ (s.part 0).step.phase ≠ 4 ∧ (s.part 0).tensors ≠ [] ∧ (s.cutNow 0 (wDecl 0xFFFF)).2.isSome = true := by
  intro s; decide +kernel

theorem witness_CutEvents_3 :
    let s := wCutting 0xFFFF [] 0
    let z := wCutting 0xFFFF [wTens] 4
    (s.part 0).cut = some (wDecl 0xFFFF) ∧ (s.part 0).step.holdsCut = false ∧ s.liveMembers 0 &&& ~~~(0xFFFF : BitVec 16) = 0 ∧
      s.changing 0 = false ∧ (s.part 0).tensors = [] ∧ (z.part 0).step.holdsCut = false ∧ (z.part 0).step.phase = 4 ∧
      z.changing 0 = false := by
  intro s z; decide +kernel

theorem witness_CutEvents_4 :
    ((wCutting 0x7FFF [wTens] 0).part 0).cut = some (wDecl 0x7FFF) ∧
      (wCutting 0x7FFF [wTens] 0).liveMembers 0 &&& ~~~(0x7FFF : BitVec 16) ≠ 0 ∧
      ((wCutting 0xFFFF [wTens] 3).part 0).step.holdsCut = true := by decide +kernel

/-- Partition 0 with one epoch in flight. -/
def wFlight (ep : Epoch) : State := wEpoch.modPart 0 (fun x => { x with epochs := [ep] })

theorem witness_CutEvents_5 :
    let s := wFlight { wEp with state := 1 }
    (s.part 0).epoch? 1 = some { wEp with state := 1 } ∧ (s.part 0).epochs.any (fun q => q.state = 1 && q.n < 1) = false := by
  intro s; decide +kernel

theorem witness_CutEvents_6 :
    ((wFlight { wEp with paused := true }).part 0).epoch? 1 = some { wEp with paused := true } := by decide +kernel

/-- Partition 0 waits for its final ebb epoch in a flood turn. -/
def wFlooding (ts : List Tensor) (ph : Nat) : State :=
  { wShelf.modPart 0 (fun x => { x with tensors := ts, step := { x.step with phase := ph } }) with
    tide := { wShelf.tide with flood := true, turn := 1, waits := 1 } }

theorem witness_TideEvents_1 :
    (wFlooding [wTens] 0).wantsFinal 0 = true ∧ ((wFlooding [wTens] 0).part 0).hasTwins = true ∧
      ((wFlooding [wTens] 0).part 0).cutless = false ∧ (wFlooding [wTens] 0).ownCutWaits 0 = false := by decide +kernel

theorem witness_TideEvents_2 :
    (wFlooding [wTens] 4).wantsFinal 0 = true ∧ ((wFlooding [wTens] 4).part 0).hasTwins = true ∧
      ((wFlooding [wTens] 4).part 0).cutless = true := by decide +kernel

theorem witness_TideEvents_3 :
    (wFlooding [] 0).wantsFinal 0 = true ∧ ((wFlooding [] 0).part 0).hasTwins = false := by decide +kernel

theorem witness_TideEvents_4 :
    let s : State := { wFlooding [wTens] 0 with tide := { (wFlooding [wTens] 0).tide with ready := 1 } }
    s.tide.flood = true ∧ s.tide.turn ≠ 2 ∧ s.tide.ready.getLsbD 0 = true ∧ (s.part 0).hasTwins = true := by
  intro s; decide +kernel

theorem witness_TideEvents_5 :
    (wFlooding [] 0).tide.turn = 1 ∧ ∀ p ∈ (wFlooding [] 0).partIds, (wFlooding [] 0).tide.waits.getLsbD p.val = true →
      ((wFlooding [] 0).part p).hasTwins = false := by decide +kernel

/-- An ebb turn in which the partitions of a mask still wait. -/
def wEbbing (ts : List Tensor) (ph : Nat) (waits : DWord) : State :=
  { wFlooding ts ph with tide := { wShelf.tide with turn := 2, waits := waits } }

theorem witness_TideEvents_6 :
    (wEbbing [wTens] 0 1).tide.turn = 2 ∧ (wEbbing [wTens] 0 1).tide.waits.getLsbD 0 = true ∧
      (wEbbing [wTens] 0 1).dropLent.lentPages 0 = false ∧ ((wEbbing [wTens] 0 1).part 0).hasTwins = true ∧
      ((wEbbing [wTens] 0 1).part 0).cutless = false ∧ (wEbbing [wTens] 0 1).dropLent.ownCutWaits 0 = false := by decide +kernel

theorem witness_TideEvents_7 :
    (wEbbing [] 0 1).tide.turn = 2 ∧ (wEbbing [] 0 1).tide.waits.getLsbD 0 = true ∧
      (wEbbing [] 0 1).dropLent.lentPages 0 = false ∧ ((wEbbing [] 0 1).part 0).hasTwins = false ∧
      ((wEbbing [wTens] 4 1).part 0).cutless = true ∧ (wEbbing [wTens] 4 1).dropLent.lentPages 0 = false := by decide +kernel

theorem witness_TideEvents_8 :
    (wEbbing [] 0 0).tide.turn = 2 ∧ ∀ p ∈ (wEbbing [] 0 0).partIds, (wEbbing [] 0 0).tide.waits.getLsbD p.val = false := by
  decide +kernel

/-- A re-shard of partition 0 onto engines 0 to 14 has begun. -/
def wResh : Reshard := { members := 0x7FFF, parity := 2, rebuild := false, campaign := some 0, requester := none }

/-- Its state, with the moved stripes of its one tensor. -/
def wMoving (moved : List Nat) : State :=
  wTensor.modPart 0 (fun x => { x with
    reshard := some wResh,
    tensors := [{ wTens with
      dest := some { wTens.place with members := 0x7FFE, units := (List.range 16).map (fun e => (e, [262144])) }, moved := moved }] })

/-- The tensor in it. -/
def wMovingTens (moved : List Nat) : Tensor :=
  { wTens with dest := some { wTens.place with members := 0x7FFE, units := (List.range 16).map (fun e => (e, [262144])) }, moved := moved }

theorem witness_ReshardEvents_1 :
    ((wMoving []).part 0).reshard = some wResh ∧ ((wMoving []).part 0).tensor? (1 : Word).toNat = some (wMovingTens []) ∧
      ((wMoving []).part 0).resharding = true ∧ (wMoving []).reshardHit 0 wResh = false ∧ 0 < (wMovingTens []).stripes ∧
      (wMovingTens []).moved.contains 0 = false ∧
      (wMovingTens []).place.dataEngine 0 ≠ ((wMovingTens []).dest.getD wTens.place).dataEngine 0 := by decide +kernel

theorem witness_ReshardEvents_2 :
    ((wMoving [0]).part 0).reshard = some wResh ∧ ((wMoving [0]).part 0).resharding = true ∧
      (wMoving [0]).reshardHit 0 wResh = false ∧ ((wMoving [0]).part 0).tensors.all Tensor.allMoved = true := by decide +kernel

/-- Partition 0 waits for a rebuild, with engine 15 out. -/
def wRebuild : State :=
  ({ wTensor with membership := { wTensor.membership with view := some { wView with set := 0x7FFF } } }).modPart 0 (fun x =>
    { x with rebuildWait := true })

theorem witness_ReshardEvents_3 :
    wRebuild.exists_ 0 = true ∧ (wRebuild.part 0).rebuildWait = true ∧ wRebuild.partDead 0 = false ∧ wRebuild.adoption = none ∧
      (wRebuild.part 0).reshard = none ∧ wRebuild.fencedOf 0 ≠ 0 ∧ (wRebuild.part 0).canReshard = true ∧
      (wRebuild.part 0).epochs.any (fun ep => ep.state = 2) = false ∧ wRebuild.campaignsFull = false ∧
      wRebuild.parity + 1 ≤ maskCount (wRebuild.liveMembers 0 &&& ~~~(wRebuild.part 0).gone) := by decide +kernel

theorem witness_ReshardEvents_4 :
    let s := wShelf.modPart 0 (fun x => { x with restore := some { wRestore with state := 2, campaign := some 0 } })
    (s.part 0).restore = some { wRestore with state := 2, campaign := some 0 } ∧ maskCount (s.fencedOf 0) ≤ s.parity ∧
      s.store.volumes.all (fun v => v.attached) = true := by intro s; decide +kernel

/-! ### Near memory and digests -/

/-- Partition 0 is EXPERT, with one BYTES tensor. -/
def wExpert : State :=
  { wTensor with record := { wShelf.record with parts := [(0, { PartCfg.initial with expert := true })] } }

/-- The entry COPY of one row to itself that ends a program. -/
def wEntry : BitVec 128 := 0x00000000000000000000000000000101#128

theorem witness_NearMemoryEvents_1 :
    let t := (wExpert.touch 2).modNmx 2 0 (fun n => n.control 0)
    wExpert.reachesWindow 2 0 (.pport 0) = true ∧ wExpert.expert 0 = true ∧ (t.win 2 0).nmx.busy = false ∧
      (t.nmxCheck 2 0 (t.win 2 0).nmx).isSome = true := by
  intro t; decide +kernel

theorem witness_NearMemoryEvents_4 :
    let s := wExpert.modNmx 2 0 (fun n => { n with xTid := 1 })
    let t := s.modNmx 0 0 (fun n => { n with xTid := 1 })
    t.reachesWindow 0 0 (.pport 0) = true ∧ t.expert 0 = true ∧ (t.part 0).tensor? (t.win 0 0).nmx.xTid.toNat = some wTens ∧
      (63 : DWord).toNat < wTens.bytes ∧ ((t.touch 0).translate wTens (63 : DWord).toNat).1 = 0 := by
  intro s t; decide +kernel

theorem witness_NearMemoryEvents_5 : wShelf.windowable 2 15 = true ∧ wShelf.windowable 2 0 = true ∧ (15 : Fin 16) ≠ 0 := by
  decide +kernel

theorem witness_NearMemoryEvents_8 :
    let s := wShelf.modChannel 2 15 (fun c => { c with processor := true })
    s.serves 2 = true ∧ ((s.eng 2).channels[(15 : Fin 16)]).processor = true ∧ (s.eng 2).powered = true := by
  intro s; decide +kernel

theorem witness_DigestEvents_1 :
    let t := (wExpert.touch 2).modWin 2 0 (fun x => { x with dgx := x.dgx.control 0 })
    wExpert.reachesWindow 2 0 (.pport 0) = true ∧ wExpert.expert 0 = true ∧ (t.win 2 0).dgx.run = none := by
  intro t; decide +kernel

/-- A digest job of no fragment that holds lane 3. -/
def wDigest : DgxRun :=
  { job := zeros 64, expect := zeros 64, ctx := [], frags := [], path := .pport 0, locked := true, lockAt := none, lockOn := [], lane := some 3, since := 0,
    saved := false, slotGen := 0 }

/-- Engine 2 runs that job, 10 µs after its start. -/
def wHashing : State :=
  let s := wExpert.modWin 2 0 (fun w => { w with dgx := { w.dgx with run := some wDigest } })
  { s.modEng 2 (fun x => { x with lanes := x.lanes.set 3 (some { work := .dgx 0, since := 0 }) }) with now := 10000 }

theorem witness_DigestEvents_2 :
    wHashing.serves 2 = true ∧ (wHashing.eng 2).power.low = false ∧
      ((wHashing.grantLanes 2).win 2 0).dgx.run = some wDigest ∧ wDigest.lane = some 3 ∧
      ((wHashing.grantLanes 2).eng 2).keyLost wDigest = none ∧
      (wHashing.grantLanes 2).gather 0 none wDigest.frags.zipIdx [] = ([], none) := by decide +kernel

theorem witness_DigestEvents_3 :
    (wHashing.eng 2).lanes[(3 : Fin 64)] = some { work := .dgx 0, since := 0 } ∧ wHashing.serves 2 = true ∧
      0 + 10000 ≤ wHashing.now ∧ (wHashing.eng 2).contexts.length < 256 := by decide +kernel

/-- Every lane but 63 runs, and the context area holds a job of partition 0. -/
def wPreempted : State :=
  wExpert.modEng 2 (fun x => { x with
    lanes := Vector.ofFn (fun i => if i.val = 63 then none else some { work := .restore 0, since := 0 }),
    contexts := [{ work := .dgx 0, bytes := [] }] })

/-- A pick from a list of one takes it. -/
theorem pick_one {α : Type} (s : State) (a : α) : (s.pick [a]).1 = some a := by
  simp [State.pick, Nat.mod_one]

theorem witness_DigestEvents_4 :
    (wPreempted.eng 2).contexts[0]? = some { work := .dgx 0, bytes := [] } ∧ wPreempted.serves 2 = true ∧
      (wPreempted.eng 2).freeLanes 0 ≠ [] ∧ (wPreempted.win 2 0).dgx.run = none ∧
      (wPreempted.pick ((wPreempted.eng 2).freeLanes 0)).1 = some 63 := by
  have h : (wPreempted.eng 2).freeLanes 0 = [63] := by decide +kernel
  refine ⟨by decide +kernel, by decide +kernel, ?_, by decide +kernel, ?_⟩
  · rw [h]; simp
  · rw [h]; exact pick_one _ _

/-! ### Membership, records, time -/

/-- Every engine runs build 1.0 and is within 25 µs of the median. -/
def wBuilt (s : State) : State :=
  s.modEngines 0xFFFF (fun _ x => { x with fw := { x.fw with major := 1, minor := 0 } })

theorem witness_Membership_1 :
    wShelf.serves 2 = true ∧
      (({ wShelf with now := 20000000 } : State).eng 2).member.heard[(3 : EngId)] + 20000000 ≤ 20000000 := by decide +kernel

theorem witness_Membership_3 :
    let s := { wShelf.modEng 2 (fun x => { x with member := { x.member with lostSince := some 0 } }) with now := 100000000 }
    s.joined 2 = true ∧ (s.eng 2).member.lostSince = some 0 ∧ 0 + 100000000 ≤ s.now := by intro s; decide +kernel

/-- Engine 15 is out of the view and has not been heard for 300 ms. -/
def wParted : State :=
  { wBuilt (wShelf.modEngines 0xFFFF (fun e x => { x with member := { x.member with
      unreachable := if e = 15 then 0x7FFF else 0x8000 } })) with now := 300000000 }

theorem witness_Membership_4 :
    wParted.leader? = some 0 ∧ 9 ≤ maskCount (wParted.proposalSet 0) ∧
      ¬((wView.set = wParted.proposalSet 0) ∧ wView.formed = wParted.proposalSet 0) ∧ wParted.membership.view = some wView ∧
      max wParted.membership.lastView (wParted.eng 0).member.accepted + 1 ≤ 0xFFFFFFFF ∧
      wParted.longLost (wParted.proposalSet 0) = true ∧ wParted.membership.proposal = none := by decide +kernel

/-- A proposal of view 2 by engine 0, sent at time 0. -/
def wProp (acc : BitVec 16) : Proposal := { num := 2, set := 0x7FFF, leader := 0, accepted := acc, since := 0 }

/-- The shelf with that proposal. -/
def wProposed (acc : BitVec 16) : State :=
  { wShelf with now := 10000000, membership := { wShelf.membership with proposal := some (wProp acc) } }

theorem witness_Membership_5 :
    (wProposed 1).membership.proposal = some (wProp 1) ∧ (wProposed 1).serves 14 = true ∧ hasEngine (wProp 1).set 14 = true ∧
      ((wProposed 1).eng 14).member.accepted < (wProp 1).num ∧
      ∀ x ∈ maskEngines (wProp 1).set, (wProposed 1).reachesPeer 14 x = true := by decide +kernel

theorem witness_Membership_6 :
    (wProposed 0x7FFF).membership.proposal = some (wProp 0x7FFF) ∧ (wProp 0x7FFF).accepted = (wProp 0x7FFF).set ∧
      (wProposed 0x7FFF).now ≤ (wProp 0x7FFF).since + 10000000 := by decide +kernel

theorem witness_Membership_7 :
    (wProposed 0x1FF).membership.proposal = some (wProp 0x1FF) ∧ (wProp 0x1FF).accepted ≠ (wProp 0x1FF).set ∧
      (wProp 0x1FF).since + 10000000 ≤ (wProposed 0x1FF).now ∧ (wProp 0x1FF).num < 0xFFFFFFFF ∧
      9 ≤ maskCount ((wProp 0x1FF).accepted ||| engineBit (wProp 0x1FF).leader) := by decide +kernel

/-- Engine 15 offers itself to the view of the other fifteen. -/
def wOffering (ex : BitVec 16) : State :=
  let s := wBuilt (wShelf.modEng 15 (fun x => { x with member := { x.member with state := 1 } }))
  { s with membership := { s.membership with view := some { wView with set := 0x7FFF, formed := 0x7FFF } },
           record := { s.record with excluded := ex } }

theorem witness_Membership_9 :
    (wOffering 0).joined 15 = false ∧ (wOffering 0).mayOffer 15 = true ∧ 9 ≤ maskCount (wOffering 0).joinedMask ∧
      (wOffering 0).membership.lastView ≠ 0xFFFFFFFF ∧
      (∀ x ∈ maskEngines (wOffering 0).joinedMask, (wOffering 0).reachesPeer 15 x = true ∧ (wOffering 0).reachesPeer x 15 = true) ∧
      (wOffering 0).disagrees (wOffering 0).joinedMask 15 = none ∧
      (wOffering 0x8000).disagrees (wOffering 0x8000).joinedMask 15 = some 5 := by decide +kernel

/-- The engines of a mask run minor 1 in an open split window that is over. -/
def wSplit (m : BitVec 16) : State :=
  let s := wBuilt wShelf
  { s.modEngines m (fun _ x => { x with fw := { x.fw with minor := 1 } }) with
    now := 7200000000000, membership := { s.membership with windowAt := some 0 } }

theorem witness_Membership_10 :
    (wSplit 0xFE00).membership.windowAt.isSome = true ∧
      (wSplit 0xFE00).membership.windowSince + 7200000000000 ≤ (wSplit 0xFE00).now ∧ (wSplit 0xFE00).minors = [0, 1] ∧
      9 + ((maskEngines (wSplit 0xFE00).joinedMask).filter (fun e => ((wSplit 0xFE00).eng e).fw.minor = 1)).length ≤
        maskCount (wSplit 0xFE00).joinedMask ∧
      (wSplit 0x01FF).minors = [1, 0] ∧ (wSplit 0xFF00).minors = [0, 1] ∧ (wSplit 0xFF00).membership.splitHeld = false := by
  decide +kernel

/-- A configuration change in a phase. -/
def wAdopt (commit : Bool) (done : BitVec 16) : Adoption :=
  { record := wShelf.record, leader := 0, cmd := zeros 64, part := 0, src := none, commit := commit, acked := done,
    current := done, since := 0 }

/-- The shelf in that change, one second later. -/
def wAdopting (commit : Bool) (done : BitVec 16) : State :=
  { wShelf with now := 1000000000, adoption := some (wAdopt commit done) }

theorem witness_ConfigurationAdoption :
    (wAdopting false 0x7FFF).adoption = some (wAdopt false 0x7FFF) ∧
      (wAdopting false 0x7FFF).joinedMask &&& ~~~((wAdopt false 0x7FFF).acked ||| ((0 : BitVec 16) &&& 0xFFFF)) ≠ 0 ∧
      (wAdopting false 0x7FFF).joinedMask &&& ~~~((wAdopt false 0x7FFF).acked ||| ((0x8000 : BitVec 16) &&& 0xFFFF)) = 0 ∧
      (wAdopting true 0x7FFF).adoption = some (wAdopt true 0x7FFF) ∧
      (wAdopting true 0x7FFF).joined 15 = true ∧ hasEngine (wAdopt true 0x7FFF).current 15 = false ∧
      (wAdopt true 0x7FFF).since + 1000000000 ≤ (wAdopting true 0x7FFF).now := by decide +kernel

/-- TIME_SET governs, and engine 2 is 60 µs from its source; it may also be calm since time 0, or far from the median. -/
def wSkewed (far : Int) (off : DWord) (suspect : Bool) : State :=
  let s := wShelf.modEng 2 (fun x => { x with clock :=
    { x.clock with srcOffset := far, now := x.clock.now + off, suspect := suspect, calmSince := some 0 } })
  { s with now := 1000000000, timeSrc := { s.timeSrc with timeSet := true, todSet := true, row := 0, boundSince := 1000000000 } }

theorem witness_TimeEvents_1 :
    wShelf.plant.powered = true ∧ wShelf.scmUp = true ∧ ((wSkewed 60000 0 false).eng 2).powered = true ∧
      ((wSkewed 60000 0 false).eng 2).clock.suspect = false ∧ 50000 < (wSkewed 60000 0 false).skew 2 := by decide +kernel

theorem witness_TimeEvents_2 :
    ((wSkewed 0 0 true).eng 2).powered = true ∧ ((wSkewed 0 0 true).eng 2).clock.suspect = true ∧
      (wSkewed 0 0 true).timeSrc.todSet = true ∧ (wSkewed 0 0 true).skew 2 ≤ 25000 ∧
      ((wSkewed 0 0 true).eng 2).clock.calmSince = some 0 ∧ 0 + 1000000000 ≤ (wSkewed 0 0 true).now := by decide +kernel

theorem witness_TimeEvents_3 :
    (wSkewed 0 6000000 true).joined 2 = true ∧ 5000000 < ((wSkewed 0 6000000 true).offset 2).natAbs := by decide +kernel

theorem witness_TimeEvents_4 :
    let u := ({ wShelf with timeSrc := { wShelf.timeSrc with ptp := true } } : State).selectSource
    let z := ({ wShelf with timeSrc := { wShelf.timeSrc with pps := true } } : State).selectSource
    u.timeSrc.row ≠ wShelf.timeSrc.row ∧ u.timeSrc.row ≤ 1 ∧ z.timeSrc.row = wShelf.timeSrc.row ∧
      ({ wShelf with timeSrc := { wShelf.timeSrc with pps := true, row := 1 } } : State).timeSrc.row = 1 ∧ 50 ≤ 50 ∧ 49 < 50 := by
  intro u z; decide +kernel

/-! ### Faults, power, plant, keepers, campaigns, timers -/

theorem witness_FaultEvents_1 :
    (wShelf.eng 2).powered = true ∧ (plainFault 4 4 15).unit < blockUnits (plainFault 4 4 15).blk.val ∧
      (plainFault 8 2 21).unit < blockUnits (plainFault 8 2 21).blk.val ∧ wShelf.serves 2 = true ∧ wShelf.joined 2 = true := by
  decide +kernel

/-- Channel 15 of engine 2 is fenced with the rows of one empty unit lost. -/
def wLostRow : State :=
  wShelf.modEng 2 (fun x => { x with
    flt := x.flt.set 4 { x.flt[(4 : Fin 11)] with fenced := setBit (x.flt[(4 : Fin 11)]).fenced 15 true }, lostRows := [(0, 15)] })

theorem witness_FaultEvents_2 :
    ((wLostRow.eng 2).flt[(4 : Fin 11)]).isFenced 15 = true ∧ wLostRow.lost 2 = false ∧
      (wLostRow.eng 2).lostRows.filter (fun r => r.2 = 15) ≠ [] ∧
      (((wLostRow.rebuildRow 2 0 15).eng 2).lostRows.filter (fun r => r.2 = 15)) = [] := by decide +kernel

/-- Group 3 of engine 2 is fenced. -/
def wGroup : State :=
  wShelf.modEng 2 (fun x => { x with
    flt := x.flt.set 6 { x.flt[(6 : Fin 11)] with fenced := setBit (x.flt[(6 : Fin 11)]).fenced 3 true } })

theorem witness_FaultEvents_3 :
    (2 : EngId) ≠ 3 ∧ ((wGroup.eng 2).flt[(6 : Fin 11)]).isFenced (3 : EngId).val = true ∧ (wGroup.eng 2).powered = true ∧
      (wGroup.eng 2).spare = none ∧ ((wGroup.eng 2).flt[(6 : Fin 11)]).isFenced 2 = false ∧ (wGroup.eng 3).powered = true ∧
      (wGroup.eng 3).spare = none ∧ ((wGroup.eng 3).flt[(6 : Fin 11)]).isFenced 3 = false := by decide +kernel

theorem witness_FaultSeverities_0 :
    let s := wShelf.modEng 2 (fun x => { x with flt := x.flt.set 4 { x.flt[(4 : Fin 11)] with sev := 0 } })
    (s.eng 2).powered = true ∧ (plainFault 4 2 0).clear = false ∧ s.masked 2 (plainFault 4 2 0) = false ∧ levelSource 4 2 = false ∧
      ((s.eng 2).flt[(4 : Fin 11)]).sevOf 2 = 0 := by intro s; decide +kernel

theorem witness_FaultSeverities_1 :
    let h := wShelf.modEng 2 (fun x => { x with hung := true })
    (wShelf.eng 2).powered = true ∧ wShelf.masked 2 (plainFault 0 0 0) = false ∧ levelSource 0 0 = false ∧
      ((wShelf.eng 2).flt[(0 : Fin 11)]).sevOf 0 = 1 ∧ (wShelf.eng 2).hung = false ∧
      (h.eng 2).hung = true ∧ h.masked 2 (plainFault 0 0 0) = false ∧ ((h.eng 2).flt[(0 : Fin 11)]).sevOf 0 = 1 := by
  intro h; decide +kernel

theorem witness_FaultSeverities_2 :
    wShelf.masked 2 (plainFault 7 9 0) = false ∧ levelSource 7 9 = false ∧ ((wShelf.eng 2).flt[(7 : Fin 11)]).sevOf 9 = 2 ∧
      wShelf.plant.scm[wShelf.plant.activeScm] ≠ .failed ∧ (wShelf.eng 2).hung = false := by decide +kernel

theorem witness_FaultSeverities_3 :
    wShelf.masked 2 (plainFault 7 0 0) = false ∧ levelSource 7 0 = false ∧ ((wShelf.eng 2).flt[(7 : Fin 11)]).sevOf 0 = 4 ∧
      engineBlock 7 = true ∧ wShelf.masked 2 (plainFault 8 6 21) = false ∧ levelSource 8 6 = false ∧
      ((wShelf.eng 2).flt[(8 : Fin 11)]).sevOf 6 = 3 ∧ engineBlock 8 = false := by decide +kernel

/-- LOCK of block 10 of engine 2 is set. -/
def wLocked : State :=
  wShelf.modEng 2 (fun x => { x with flt := x.flt.set 10 { x.flt[(10 : Fin 11)] with lock := true } })

theorem witness_LockedSeveritiesIgnoreWrites :
    wShelf.serves 2 = true ∧ wSrc.via = .memory ∧ wLocked.reachesWindow wSrc.eng wSrc.part wSrc.path = true ∧ wSrc.part = 0 ∧
      ((wLocked.eng wSrc.eng).flt[(10 : Fin 11)]).lock = true := by decide +kernel

/-- Engine 2 has been idle for an hour, in a low state from which it may be leaving. -/
def wIdle (state : Nat) (due : Option Nat) : State :=
  { wShelf.modEng 2 (fun x => { x with power := { x.power with idleSince := some 0, state := state, exitDue := due } }) with
    now := 3600000000000 }

theorem witness_PowerEvents_1 :
    (wIdle 0 none).joined 2 = true ∧ ((wIdle 0 none).eng 2).runs = true ∧ (wIdle 0 none).idle 2 = true ∧
      ((wIdle 0 none).eng 2).power.exitDue = none ∧ ((wIdle 0 none).eng 2).power.idleSince = some 0 ∧
      ((wIdle 0 none).eng 2).power.state <
        idleState ((wIdle 0 none).eng 2).power.inForce ((wIdle 0 none).now - 0) := by decide +kernel

theorem witness_PowerEvents_2 :
    ((wIdle 1 (some 3600000000000)).eng 2).powered = true ∧ ((wIdle 1 (some 3600000000000)).eng 2).power.low = true ∧
      ((wIdle 1 (some 3600000000000)).eng 2).power.exitDue = some 3600000000000 ∧
      3600000000000 ≤ (wIdle 1 (some 3600000000000)).now := by decide +kernel

/-- POWER_CAP holds a value, and the cap is at a level. -/
def wCapped (cap level : Nat) : State :=
  { wShelf with features := [(4, 0, natLe 4 cap)], cap := { wShelf.cap with level := level } }

theorem witness_PowerEvents_3 :
    wShelf.plant.powered = true ∧ wShelf.scmUp = true ∧ wShelf.joinedMask ≠ 0 ∧ wShelf.powerCap = 0 ∧
      (wCapped 10000 0).powerCap = 10000 ∧ (wCapped 10000 0).plant.powered = true ∧ (wCapped 10000 0).scmUp = true ∧
      (wCapped 10000 0).joinedMask ≠ 0 ∧ ((wCapped 10000 0).cap.measure 10001).level < 4 ∧
      (wCapped 10000 4).powerCap = 10000 ∧ 4 ≤ ((wCapped 10000 4).cap.measure 10001).level ∧
      (wShelf.eng 2).power.level ≠ (wCapped 10000 4).levelWanted 2 := by decide +kernel

theorem witness_PlantEvents_1 :
    let off : State := { wShelf with plant := { wShelf.plant with powered := false } }
    let dark : State := { wShelf with plant := { wShelf.plant with powered := false, busbar := false, offCause := 1 } }
    wShelf.plant.powered = true ∧ wShelf.scmUp = true ∧ wShelf.shutdown = none ∧ wShelf.plant.busbar = true ∧
      dark.plant.powered = false ∧ dark.plant.busbar = false ∧
      ({ off with plant := { off.plant with offCause := 3 } } : State).plant.powered = false ∧
      ({ off with plant := { off.plant with offCause := 3 } } : State).plant.busbar = true ∧
      ({ off with plant := { off.plant with offCause := 3 } } : State).scmUp = true ∧ ¬(off.plant.powered = true ∧ off.scmUp = true) := by
  intro off dark; decide +kernel

theorem witness_PlantEvents_2 :
    let s : State := { wShelf with shutdown := some { grace := 0, since := 0, abandoned := 0 } }
    let z : State := { wShelf with plant := { wShelf.plant with scm := wShelf.plant.scm.set 1 .failed } }
    s.shutdown = some { grace := 0, since := 0, abandoned := 0 } ∧ 0 + 0 * 1000000000 ≤ s.now ∧ wShelf.plant.activeScm = 0 ∧
      wShelf.plant.scm[(0 : Fin 2)] ≠ .failed ∧ z.plant.busbar = true ∧ z.plant.scm[(1 : Fin 2)] ≠ .up := by
  intro s z; decide +kernel

/-- Engine 2 started build 1.0.0 from slot 1 provisionally, and its time to commit is over; slot 0 holds nothing. -/
def wProvisional : State :=
  { wShelf.modEng 2 (fun x => { x with member := { x.member with state := 1 },
                                       fw := { x.fw with provisional := true, booted := false, bootAt := 0 } }) with
    membership := { wShelf.membership with view := some { wView with set := 0xFFFB } }, now := 600000000000 }

theorem witness_PlantEvents_3 :
    (wProvisional.eng 2).powered = true ∧ (wProvisional.eng 2).fw.provisional = true ∧ wProvisional.joined 2 = false ∧
      (wProvisional.eng 2).fw.bootAt + 600000000000 ≤ wProvisional.now ∧ (wProvisional.eng 2).fw.booted = false := by
  decide +kernel

/-- Engine 2 is in a lifecycle state, with every tamper source armed. -/
def wTampered (lc : Nat) : State :=
  (wShelf.modEng 2 (fun x => { x with lifecycle := lc })).modKeeper 2 (fun k => { k with arm := 0x7F })

theorem witness_Keeper_1 :
    (wShelf.eng 2).powered = true ∧ (1 : Fin 8) ≠ 7 ∧ ((1 : Fin 8) ≠ 0 ∧ (1 : Fin 8) ≠ 6) ∧ ((wTampered 2).eng 2).lifecycle = 2 ∧
      ((wTampered 2).eng 2).hold = false ∧ ((wTampered 2).eng 2).keeper.arm.getLsbD (6 : Fin 8).val = true ∧ 1000 ≤ 1000 ∧
      ((wTampered 1).eng 2).lifecycle ≠ 2 ∧ ((wTampered 1).eng 2).lifecycle ≠ 3 ∧
      ({ wShelf with plant := { wShelf.plant with busbar := false } } : State).plant.busbar = false ∧ wShelf.plant.busbar = true := by
  decide +kernel

theorem witness_Keeper_2 :
    let s : State := { wShelf.modEng 2 (fun x => { x with debug := 1, debugAt := 0 }) with now := 28800000000000 }
    let z := wShelf.modKeeper 2 (fun k => { k with refuseUntil := some 7, rtc := 7 })
    (s.eng 2).debug ≠ 0 ∧ (s.eng 2).debugAt + 28800000000000 ≤ s.now ∧ (z.eng 2).keeper.refuseUntil = some 7 ∧
      7 ≤ (z.eng 2).keeper.rtc := by intro s z; decide +kernel

/-- A sanitise campaign of a mode runs. -/
def wCleaning (mode : Nat) : State :=
  { wShelf with sanitise := { wShelf.sanitise with state := 1, mode := mode } }

theorem witness_CampaignsComplete_1 :
    (wCleaning 1).sanitise.state = 1 ∧ (wCleaning 1).sanitise.mode ≠ 2 ∧ (wCleaning 2).sanitise.state = 1 ∧
      (wCleaning 2).sanitise.mode = 2 ∧ wShelf.sanitise.state ≠ 1 ∧ wShelf.store.format = none := by decide +kernel

/-- A format of a store of no volume runs as campaign 1. -/
def wFormatting : State :=
  { wShelf with store := { wShelf.store with format := some { accepted := 0, campaign := 1 } } }

theorem witness_CampaignsComplete_2 :
    wFormatting.store.format = some { accepted := 0, campaign := 1 } ∧
      (let u := (((wFormatting.endCampaign (some 1)).formatDown 0 0).journalAll 2 0xFF
        (formatPayload 2 0 (slice wFormatting.savedTargets 0 16))).attachAll
       let v := ({ u with store := { u.store with format := none, formatFailed := false } } : State).leaveStore
       v.ownSlot = some 0) := by decide +kernel

theorem witness_EarlyTimersDoNothing :
    (∀ t, (wShelf.eng 2).member.lostSince = some t → wShelf.now < t + 100000000) ∧
      wShelf.now < (wShelf.eng 2).member.heard[(3 : EngId)] + 20000000 ∧
      (wProposed 1).membership.proposal = some (wProp 1) ∧ ({ wProposed 1 with now := 9999999 } : State).now < (wProp 1).since + 10000000 ∧
      (wProp 1).since + 10000000 < ({ wProposed 1 with now := 10000001 } : State).now ∧
      ({ wAdopting true 0 with now := 999999999 } : State).now < (wAdopt true 0).since + 1000000000 ∧
      wShelf.now < wShelf.membership.windowSince + 7200000000000 ∧
      (∀ t, (wShelf.eng 2).clock.calmSince = some t → wShelf.now < t + 1000000000) ∧
      (∀ t, wShelf.store.lease.claimAt = some t → wShelf.now < t + 15000000000) ∧
      (∀ ev ∈ (wShelf.win 2 0).ints.coal[(31 : Fin 32)], (wShelf.time 2).toNat < ev.time.toNat) ∧
      wShelf.now < ((wShelf.eng 2).channels[(15 : Fin 16)]).since + 10000 ∧
      wShelf.now < (wShelf.eng 2).fw.bootAt + 600000000000 ∧ wShelf.now < (wShelf.eng 2).debugAt + 28800000000000 ∧
      (∀ t, (wShelf.eng 2).keeper.refuseUntil = some t → (wShelf.eng 2).keeper.rtc < t) ∧
      (∀ t, (wShelf.eng 2).power.exitDue = some t → wShelf.now < t) ∧
      (∀ d, wShelf.shutdown = some d → wShelf.now < d.since + d.grace * 1000000000) := by
  decide +kernel

/-! ### Drains -/

/-- A pick from nothing finds nothing. -/
theorem pick_nil {α : Type} (s : State) : (s.pick ([] : List α)).1 = none := by simp [State.pick]

/-- The only free run is taken. -/
theorem takeBlocks_one {s : State} {n : Nat} {r : Nat × Nat} (h : s.freeRuns (ceilDiv (max 1 n) extentBlocks) = [r]) :
    ∃ u, s.takeBlocks n = some (storePtr r.1 r.2, u) := by
  have e : s.takeBlocks n = ((s.pick (s.freeRuns (ceilDiv (max 1 n) extentBlocks))).1).map (fun x => (storePtr x.1 x.2, _)) := rfl
  rw [e, h, pick_one]
  exact ⟨_, rfl⟩

/-- Where no run is free, none is taken. -/
theorem takeBlocks_none {s : State} {n : Nat} (h : s.freeRuns (ceilDiv (max 1 n) extentBlocks) = []) : s.takeBlocks n = none := by
  have e : s.takeBlocks n = ((s.pick (s.freeRuns (ceilDiv (max 1 n) extentBlocks))).1).map (fun x => (storePtr x.1 x.2, _)) := rfl
  rw [e, h, pick_nil]
  rfl

/-- A shard of eight bytes, in a phase. -/
def wShard (ph : Nat) : Shard :=
  { tid := 1, kind := 0, metaType := 0, src := 2, first := 0, count := 1, rawLen := 8, codedLen := 8, obj := zeros 8, objLen := 8,
    digest := sha256 (zeros 8), ptr := 65536, phase := ph, flushed := true, paid := 1, fails := 0, old := [] }

/-- An epoch whose drain runs, with that shard. -/
def wDrained (ph state : Nat) : Epoch :=
  { wEp with gen := some 1, state := state, drain := true, commit := true, campaign := some 0, mslot := some 5,
             shards := [wShard ph] }

/-- Engine 2 drains that epoch under a lease of one extent, which is free or taken; it holds a compression lane and every digest lane
that the drain needs. -/
def wDraining (ep : Epoch) (free : Bool) : State :=
  let s := wVolume.modEngines 0xFFFF (fun _ x => { x with
    clock := { x.clock with suspect := false }, clanes := x.clanes.set 0 (some (.drain 0 1 0)),
    keeper := { x.keeper with slots := x.keeper.slots.set 5 (wSlot 2) },
    lanes := ((x.lanes.set 1 (some { work := .shard 0 1 0, since := 0 })).set 2 (some { work := .seal 0 1, since := 0 })).set 3
      (some { work := .check 0 1, since := 0 }) })
  let t := s.modPart 0 (fun x => { x with epochs := [ep], nextEpoch := 2, lastCut := 1, gen := some 1 })
  { t with store := { t.store with lease := { wLeaseRec with allot := [(65536, 1)] },
                                   used := if free then [] else [(0, 65536, 256)] } }

/-- A pair by its halves. -/
theorem pair_true {α : Type} {p : Bool × α} (h : p.1 = true) : p = (true, p.2) := Prod.ext h rfl

theorem pair_left {α : Type} {p : α × Bool} (h : p.2 = true) : p = (p.1, true) := Prod.ext rfl h

theorem witness_Drains_1 : ∃ s p n i ep h s1 s2 ptr u, (State.part s p).draining n = some ep ∧ ep.shards[i]? = some h ∧ h.objLen ≠ 0 ∧
    h.phase = 0 ∧ s.mayWrite = true ∧ s.payShard p n i (s.keyEngine h.src) h = (true, s1) ∧
    s1.codecLane (s.keyEngine h.src) (.drain p n i) = (s2, true) ∧ s2.takeBlocks (blocksFor h.objLen) = some (ptr, u) ∧
    s2.storeGoes (ptrVol ptr) = true := by
  let s := wDraining (wDrained 0 4) true
  let s1 := (s.payShard 0 1 0 2 (wShard 0)).2
  let s2 := (s1.codecLane 2 (.drain 0 1 0)).1
  have hk : s.keyEngine (wShard 0).src = 2 := by decide +kernel
  have h1 : s.payShard 0 1 0 (s.keyEngine (wShard 0).src) (wShard 0) = (true, s1) :=
    (congrArg (fun e => s.payShard 0 1 0 e (wShard 0)) hk).trans (pair_true (by decide +kernel))
  have h2 : s1.codecLane (s.keyEngine (wShard 0).src) (.drain 0 1 0) = (s2, true) :=
    (congrArg (fun e => s1.codecLane e (.drain 0 1 0)) hk).trans (pair_left (by decide +kernel))
  obtain ⟨u, hu⟩ := takeBlocks_one (s := s2) (n := blocksFor (wShard 0).objLen) (r := (0, 65536)) (by decide +kernel)
  exact ⟨s, 0, 1, 0, wDrained 0 4, wShard 0, s1, s2, storePtr 0 65536, u, by decide +kernel, rfl, by decide, rfl, by decide +kernel,
    h1, h2, hu, by decide +kernel⟩

theorem witness_Drains_2 :
    let s := wDraining (wDrained 0 4) false
    let s1 := (s.payShard 0 1 0 2 (wShard 0)).2
    let s2 := (s1.codecLane 2 (.drain 0 1 0)).1
    (s.part 0).draining 1 = some (wDrained 0 4) ∧ s.mayWrite = true ∧ s.keyEngine 2 = 2 ∧
      (s.payShard 0 1 0 2 (wShard 0)).1 = true ∧ (s1.codecLane 2 (.drain 0 1 0)).2 = true ∧
      s2.takeBlocks (blocksFor (wShard 0).objLen) = none := by
  intro s s1 s2
  exact ⟨by decide +kernel, by decide +kernel, by decide +kernel, by decide +kernel, by decide +kernel,
    takeBlocks_none (by decide +kernel)⟩

theorem witness_Drains_3 :
    let s := wDraining (wDrained 1 4) true
    let z := wDraining { wDrained 1 4 with verify := 1 } true
    (s.part 0).draining 1 = some (wDrained 1 4) ∧ (wShard 1).flushed = true ∧ s.keyEngine 2 = 2 ∧
      (s.verifyWaits 0 1 0 (wDrained 1 4) (wShard 1)).1 = false ∧
      ((s.verifyWaits 0 1 0 (wDrained 1 4) (wShard 1)).2.shelfLane 2 (.shard 0 1 0)).1 = some 1 ∧
      (z.verifyWaits 0 1 0 { wDrained 1 4 with verify := 1 } (wShard 1)).1 = false ∧
      ((z.verifyWaits 0 1 0 { wDrained 1 4 with verify := 1 } (wShard 1)).2.shelfLane 2 (.shard 0 1 0)).1 = some 1 ∧
      (wShard 1).verifies 1 (zeros 8) = true ∧ (wShard 1).verifies 1 [1] = false ∧ (wShard 1).verifies 0 (zeros 8) = true := by
  intro s z; decide +kernel

theorem witness_Drains_4 : ∃ s p n e ep gen i k l s1 ptr u, (State.part s p).draining n = some ep ∧ ep.gen = some gen ∧
    ep.commit = true ∧ ep.state = 4 ∧ ep.shards.all (fun h => h.phase = 2) = true ∧ ep.manifest = [] ∧ s.mayStamp e = true ∧
    s.mayWrite = true ∧ ep.mslot = some i ∧ s.keyOf e p i 2 = some k ∧ s.shelfLane e (.seal p n) = (some l, s1) ∧
    (let m := manifestBytes p ep gen k.key ((ep.dslot.bind (fun j => s.keyOf e p j 3)).elim 0 KeySlot.keyId) ep.dslot.isSome
     (s1.freeLane e (.seal p n)).takeBlocks (blocksFor m.length) = some (ptr, u)) ∧ s.storeGoes (ptrVol ptr) = true := by
  let s := wDraining (wDrained 2 4) true
  let s1 := (s.shelfLane 2 (.seal 0 1)).2
  obtain ⟨u, hu⟩ := takeBlocks_one (s := s1.freeLane 2 (.seal 0 1))
    (n := blocksFor (manifestBytes 0 (wDrained 2 4) 1 (wSlot 2).key 0 false).length) (r := (0, 65536)) (by decide +kernel)
  exact ⟨s, 0, 1, 2, wDrained 2 4, 1, 5, wSlot 2, 2, s1, storePtr 0 65536, u, by decide +kernel, rfl, rfl, rfl, by decide +kernel,
    rfl, by decide +kernel, by decide +kernel, rfl, by decide +kernel, Prod.ext (by decide +kernel) rfl, hu, by decide +kernel⟩

theorem witness_Drains_5 :
    let ep := { wDrained 2 4 with manifest := [7], mptr := 65536 }
    let s := wDraining ep true
    (s.part 0).draining 1 = some ep ∧ ep.manifest ≠ [] ∧ ep.mchecked = false ∧ s.storeGoes (ptrVol ep.mptr) = true ∧
      s.firstJoined = 0 ∧ (s.shelfLane 0 (.check 0 1)).1 = some 3 ∧ sha256 [7] = sha256 ep.manifest ∧
      sha256 [8] ≠ sha256 ep.manifest ∧ ((s.part 0).draining 1).isSome = true := by
  intro ep s; decide +kernel

/-! ### Leases -/

/-- The volume whose bytes are one sealed record at an LBA. -/
def wRecVol (lba : Nat) (head : List Byte) : Volume :=
  { wVol with bytes := Memory.writeBytes [] (lba * 4096) (sealRec (head ++ [])) }

/-- A shelf whose one volume has that record. -/
def State.withRecord (s : State) (lba : Nat) (head : List Byte) : State :=
  { s with store := { s.store with volumes := [wRecVol lba head] } }

theorem readBlocks_withRecord (s : State) (lba : Nat) (head : List Byte) :
    (s.withRecord lba head).readBlocks 0 lba 4096 = sealRec (head ++ []) := by
  have h := Memory.readBytes_writeBytes (m := []) (lba * 4096) (sealRec (head ++ [])) rfl
  rw [length_sealRec] at h
  simp only [State.readBlocks, State.volume, State.withRecord, wRecVol, List.getElem?_cons_zero, blockBytes]
  exact h

theorem readBlocks_withRecord_other (s : State) (lba x : Nat) (head : List Byte) (h : x + 1 ≤ lba ∨ lba + 1 ≤ x) :
    (s.withRecord lba head).readBlocks 0 x 4096 = Memory.readBytes [] (x * 4096) 4096 := by
  simp only [State.readBlocks, State.volume, State.withRecord, wRecVol, List.getElem?_cons_zero, blockBytes]
  exact Memory.readBytes_writeBytes_other _ _ _ _ (by rw [length_sealRec]; omega)

/-- The first part of a lease record: HELD, with nonce 7 and one allotment. -/
def wLeaseHead (slot : Nat) : List Byte :=
  ascii "WLMLS001" ++ natLe 2 1 ++ natLe 1 slot ++ natLe 1 1 ++ zeros 20 ++ natLe 8 7 ++ zeros 24 ++ natLe 2 1 ++ zeros 62 ++
    natLe 8 65536 ++ natLe 8 9

/-- The records of slots 0 and 3, read back: nonce 7 and the allotment. -/
theorem parse_wLeaseHead (slot : Nat) (h : slot = 0 ∨ slot = 3) :
    ∃ r, parseLease (sealRec (wLeaseHead slot ++ [])) = some r ∧ r.nonce = 7 ∧ r.allot = [(65536, 9)] := by
  have hs : sealedOk "WLMLS001" (sealRec (wLeaseHead slot ++ [])) = true := by
    rcases h with rfl | rfl <;>
      exact sealedOk_sealRec (by decide +kernel) (by decide +kernel) (by decide +kernel) (by decide +kernel)
  have hf : ∀ off len, off + len ≤ 144 → field (sealRec (wLeaseHead slot ++ [])) off len = field (wLeaseHead slot) off len := by
    intro off len ho
    rcases h with rfl | rfl <;>
      exact field_sealRec _ _ (Nat.le_trans ho (by decide +kernel)) (by decide +kernel)
  have h2 : field (wLeaseHead slot) 64 2 = 1 ∧ field (wLeaseHead slot) 32 8 = 7 ∧ field (wLeaseHead slot) 128 8 = 65536 ∧
      field (wLeaseHead slot) 136 8 = 9 := by rcases h with rfl | rfl <;> decide +kernel
  refine ⟨_, by rw [parseLease, if_pos hs], ?_, ?_⟩
  · simp only [hf 32 8 (by omega), h2.2.1]; rfl
  · simp only [hf 64 2 (by omega), h2.1, show min 64 1 = 1 from rfl, List.range_one, List.map_cons, List.map_nil, Nat.mul_zero,
      Nat.add_zero, hf 128 8 (by omega), hf 136 8 (by omega), h2.2.2.1, h2.2.2.2]

/-- The record of a slot stands on the store, and the shelf has a lease, 15 s after its last step. -/
def wHeld (slot : Nat) (l : Lease) : State :=
  let s := wVolume.withRecord (leaseLba slot) (wLeaseHead slot)
  { s with now := 15000000000, store := { s.store with lease := l } }

theorem readLease_wHeld (slot : Nat) (h : slot = 0 ∨ slot = 3) (l : Lease) :
    ∃ r, (wHeld slot l).readLease slot = some r ∧ r.nonce = 7 ∧ r.allot = [(65536, 9)] := by
  have hr : (wHeld slot l).readBlocks 0 (leaseLba slot) 4096 = sealRec (wLeaseHead slot ++ []) :=
    readBlocks_withRecord wVolume (leaseLba slot) (wLeaseHead slot)
  rw [State.readLease, hr]
  exact parse_wLeaseHead slot h

/-- A lease of slot 3 in a state, with nonce 7. -/
def wL3 (st : Nat) : Lease := { wLeaseRec with state := st, nonce := 7, claimAt := some 0 }

theorem witness_LeaseEvents_1 :
    (wHeld 3 (wL3 1)).store.lease.state = 1 ∧ (wHeld 3 (wL3 1)).reaches 0 = true ∧ (wHeld 3 (wL3 1)).adoption = none ∧
      (wHeld 3 (wL3 1)).store.lease.claimAt = some 0 ∧ 0 + 15000000000 ≤ (wHeld 3 (wL3 1)).now := by decide +kernel

theorem witness_LeaseEvents_2 :
    (wHeld 3 (wL3 2)).store.lease.state = 2 ∧ (wHeld 3 (wL3 2)).reaches 0 = true ∧
      ((wHeld 3 (wL3 2)).overwriteSlot none).nonceStands = true ∧
      wLease.store.lease.state = 2 ∧ wLease.reaches 0 = true ∧ (wLease.overwriteSlot none).nonceStands = false := by
  obtain ⟨r, h, hn, _⟩ := readLease_wHeld 3 (.inr rfl) (wL3 2)
  refine ⟨by decide +kernel, by decide +kernel, ?_, by decide +kernel, by decide +kernel, by decide +kernel⟩
  have h' : (wHeld 3 (wL3 2)).readLease (wHeld 3 (wL3 2)).store.lease.slot = some r := h
  show State.nonceStands (wHeld 3 (wL3 2)) = true
  rw [State.nonceStands, h', Option.any_some, hn]
  decide +kernel

theorem witness_LeaseEvents_4 :
    let s : State := { wVolume with store := { wVolume.store with lease := { wLeaseRec with allot := [] } } }
    s.mayWrite = true ∧ s.reaches 0 = true ∧ (s.othersWrote []).store.lease.extendAt = none ∧
      (s.othersWrote []).store.lease.allot = [] ∧ (s.othersWrote []).store.lease.retryAt = none ∧
      (s.othersWrote []).nextRun.isSome = true := by intro s; decide +kernel

theorem witness_LeaseEvents_5 :
    let l : Lease := { wLeaseRec with extendAt := some 0 }
    let s : State := { wVolume with now := 15000000000, store := { wVolume.store with lease := l } }
    s.mayWrite = true ∧ s.reaches 0 = true ∧ (s.othersWrote []).store.lease.extendAt = some 0 ∧ 0 + 15000000000 ≤ s.now ∧
      (s.othersWrote []).extendLoses = false ∧ (wHeld 0 l).mayWrite = true ∧ (wHeld 0 l).reaches 0 = true ∧
      ((wHeld 0 l).othersWrote []).store.lease.extendAt = some 0 ∧ 0 + 15000000000 ≤ (wHeld 0 l).now ∧
      ((wHeld 0 l).othersWrote []).extendLoses = true := by
  intro l s
  refine ⟨by decide +kernel, by decide +kernel, by decide +kernel, by decide +kernel, by decide +kernel, by decide +kernel,
    by decide +kernel, by decide +kernel, by decide +kernel, ?_⟩
  obtain ⟨r, h, _, ha⟩ := readLease_wHeld 0 (.inl rfl) l
  have hl : (wHeld 0 l).store.lease.allot.getLast? = some (65536, 60000) := by decide +kernel
  show State.extendLoses (wHeld 0 l) = true
  simp only [State.extendLoses, hl, List.any_eq_true]
  refine ⟨(0, 65536, 9), ?_, by decide +kernel⟩
  simp only [State.allotments, List.mem_flatMap]
  refine ⟨0, by decide, ?_⟩
  have h0 : ¬(0 = (wHeld 0 l).store.lease.slot) := by decide +kernel
  rw [if_neg h0, h, Option.map_some, Option.getD_some, ha]
  decide

/-- The first part of a superblock: volume 0 of one, of the store of UUID 0. -/
def wSuper : List Byte :=
  ascii "WLMSB001" ++ natLe 2 1 ++ natLe 2 1 ++ zeros 4 ++ zeros 16 ++ natLe 1 0 ++ natLe 1 1 ++ zeros 6

/-- Before step 9, with STORE_TARGETS of one volume that carries that superblock. -/
def wStart : State :=
  let v := natLe 8 0 ++ zeros 8 ++ natLe 1 1 ++ zeros 303
  let s := wVolume.withRecord 0 wSuper
  { s with record := { s.record with saved := [(2, 0, v)] }, features := [(2, 0, v)], store := { s.store with step9 := false } }

theorem superblockFits_wStart (s : State) (h : s.readBlocks 0 0 4096 = sealRec (wSuper ++ []))
    (ht : slice s.targets 0 16 = zeros 16) (hn : targetCount s.targets = 1) : s.superblockFits 0 = true := by
  have hs : sealedOk "WLMSB001" (sealRec (wSuper ++ [])) = true :=
    sealedOk_sealRec (by decide +kernel) (by decide +kernel) (by decide +kernel) (by decide +kernel)
  have hf : ∀ off len, off + len ≤ 40 → field (sealRec (wSuper ++ [])) off len = field wSuper off len := fun off len ho =>
    field_sealRec _ _ (Nat.le_trans ho (by decide +kernel)) (by decide +kernel)
  have hb : s.superblockOf 0 = some (sealRec (wSuper ++ [])) := by rw [State.superblockOf, h]; simp only [hs, if_true]
  have hu : slice (sealRec (wSuper ++ [])) 16 16 = zeros 16 := by decide +kernel
  simp only [State.superblockFits, hb, hu, ht, hn, hf 32 1 (by omega), hf 33 1 (by omega), hf 10 2 (by omega)]
  decide +kernel

/-- A volume that its update leaves alone. -/
theorem modVolume_same {s : State} {x : Volume} {f : Volume → Volume} (h : s.store.volumes = [x]) (hx : f x = x) :
    s.modVolume 0 f = s := by
  simp only [State.modVolume, h, List.zipIdx_cons, List.zipIdx_nil, List.map_cons, List.map_nil, if_true, hx]
  rw [← h]

theorem attached_same : ∀ x : Volume, x.attached = true → { x with attached := true } = x := by
  intro x h; cases x; cases h; rfl

theorem attachAll_wStart : wStart.attachAll = wStart := by
  have hf : wStart.superblockFits 0 = true :=
    superblockFits_wStart wStart (readBlocks_withRecord wVolume 0 wSuper) (by decide +kernel) (by decide +kernel)
  have hc : (wStart.volume 0).any (fun x => x.fits && wStart.connected x) = true := by decide +kernel
  have hl : wStart.store.volumes = [wRecVol 0 wSuper] := rfl
  simp only [State.attachAll, hl, List.length_cons, List.length_nil, Nat.zero_add, List.range_one, List.foldl_cons, List.foldl_nil,
    hc, hf, Bool.and_self, if_true]
  exact modVolume_same hl (attached_same _ rfl)

theorem witness_LeaseEvents_6 :
    let u := (wStart.othersWrote []).attachAll
    wStart.store.step9 = false ∧ 9 ≤ maskCount wStart.joinedMask ∧ wStart.targets.isEmpty = false ∧
      wStart.store.volumes.all (fun x => wStart.carries x) = true ∧ u.superblockFits 0 = true ∧ u.store.lease.state = 0 ∧
      u.store.lease.retryAt = none ∧ u.reaches 0 = true ∧ u.ownSlot = some 0 := by
  have hu : (wStart.othersWrote []).attachAll = wStart := attachAll_wStart
  have hb : wStart.readBlocks 0 0 4096 = sealRec (wSuper ++ []) := readBlocks_withRecord wVolume 0 wSuper
  have hl : wStart.readBlocks 0 (leaseLba 0) 4096 = Memory.readBytes [] (leaseLba 0 * 4096) 4096 :=
    readBlocks_withRecord_other wVolume 0 (leaseLba 0) wSuper (.inr (by decide))
  intro u
  refine ⟨by decide +kernel, by decide +kernel, by decide +kernel, by decide +kernel, ?_, ?_, ?_, ?_, ?_⟩ <;> simp only [u, hu]
  · exact superblockFits_wStart _ hb (by decide +kernel) (by decide +kernel)
  · decide +kernel
  · decide +kernel
  · decide +kernel
  · have hn : wStart.readLease 0 = none := by rw [State.readLease, hl]; decide +kernel
    have hh : wStart.slotHeld 0 = false := by rw [State.slotHeld, hn]
    have hp : field wStart.targets 17 1 = 0 := by decide +kernel
    have hs : wStart.record.leaseSlot = none := by decide +kernel
    simp only [State.ownSlot, hp, hs, hh]
    rfl

/-- The first part of a generation record of partition 0: LIVE, with its ring at an LBA of volume 0. -/
def wGenHead (gen ring : Nat) : List Byte :=
  ascii "WLMGN001" ++ natLe 2 1 ++ natLe 1 1 ++ natLe 1 0 ++ natLe 4 gen ++ zeros 32 ++ natLe 8 ring ++ zeros 136

theorem readGen_withRecord (s : State) :
    (s.withRecord (genLba 1) (wGenHead 1 65536)).readGen 1 = some (sealRec (wGenHead 1 65536 ++ [])) := by
  have hs : sealedOk "WLMGN001" (sealRec (wGenHead 1 65536 ++ [])) = true :=
    sealedOk_sealRec (by decide +kernel) (by decide +kernel) (by decide +kernel) (by decide +kernel)
  have hf : field (sealRec (wGenHead 1 65536 ++ [])) 12 4 = 1 := by
    rw [field_sealRec _ _ (by decide +kernel) (by decide +kernel)]; decide +kernel
  simp only [State.readGen, readBlocks_withRecord, hs, hf, Bool.true_and, decide_true, if_true]

theorem witness_Drains_6 :
    let ep := { wDrained 2 4 with mchecked := true }
    let s := (wDraining ep true).withRecord (genLba 1) (wGenHead 1 65536)
    let g := sealRec (wGenHead 1 65536 ++ [])
    (s.part 0).draining 1 = some ep ∧ ep.gen = some 1 ∧ s.readGen 1 = some g ∧ ep.mchecked = true ∧ s.mayStamp 2 = true ∧
      s.mayWrite = true ∧ s.baseCommitted 1 ep = true ∧ s.storeGoes (ptrVol (ringPtr g 1)) = true := by
  intro ep s g
  have hg : genRing g = 65536 := by
    show field (sealRec (wGenHead 1 65536 ++ [])) 48 8 = 65536
    rw [field_sealRec _ _ (by decide +kernel) (by decide +kernel)]; decide +kernel
  refine ⟨by decide +kernel, rfl, readGen_withRecord _, rfl, by decide +kernel, by decide +kernel, by decide +kernel, ?_⟩
  rw [ringPtr, hg]; decide +kernel

/-! ### Further clauses -/

theorem witness_MailboxEvents_4 :
    ((wBusy (some 0) (.waiting .view)).eng 2).powered = true ∧ ((wBusy (some 0) (.waiting .view)).eng 2).fenced = false ∧
      ((wBusy (some 0) (.waiting .view)).mailbox 2 (some 0)).job = some (wJob (.waiting .view)) ∧
      ((wBusy none (.waiting .timeSet)).mailbox 2 none).job = some (wJob (.waiting .timeSet)) := by decide +kernel

/-- An SPN1 image of 64 bytes: FP32 in and out, an empty body. -/
def wSpn : List Byte :=
  ascii "SPN1" ++ natLe 2 1 ++ natLe 2 64 ++ natLe 4 64 ++ natLe 4 0x01010101 ++ zeros 16 ++ sha256 []

theorem witness_spinLoad : Claimed 0x72 claimSpinLoad (wReq [(60, 4, 64)] wSpn) wProgram := by
  unfold Claimed Starts; decide +kernel

/-- An FXP1 container of one chain of one CAST from a MASTER role into itself. -/
def wFxp : List Byte :=
  let body := natLe 4 0 ++ natLe 2 1 ++ zeros 2 ++ natLe 1 3 ++ zeros 7 ++ natLe 4 0 ++ natLe 4 0x40000000 ++ natLe 4 0 ++
    natLe 4 0x40000000 ++ zeros 8 ++ natLe 1 1 ++ natLe 1 0 ++ natLe 1 3 ++ zeros 21
  ascii "FXP1" ++ natLe 2 1 ++ natLe 2 128 ++ natLe 4 192 ++ natLe 4 0x00010100 ++ natLe 4 1 ++ natLe 4 1 ++ natLe 4 128 ++
    natLe 4 136 ++ natLe 4 168 ++ natLe 2 1 ++ natLe 2 0 ++ zeros 24 ++ sha256 body ++ zeros 32 ++ body

/-- A program has room where no other is loaded, no quota is set, and it compiles into the store of an engine. -/
theorem programOver_first {s : State} {p : PartId} {b : List Byte} (split : Bool) (hp : (s.part p).programs = [])
    (he : ∀ e ∈ maskEngines (s.members p), s.programsOn e = []) (hq : s.stageQuota p = none) (hb : b = wFxp)
    (hc : Config.compiledBytes wFxp ≤ 262144) : s.programOver p b split = false := by
  subst hb
  simp only [State.programOver, hp, hq, Option.any_none, Bool.or_false, Bool.or_eq_false_iff, List.any_eq_false, List.length_nil]
  refine ⟨by decide, fun e hm => ?_⟩
  rw [he e hm]
  simp
  omega

/-- PROG_LOAD completes where every check but that for room passes, and there is room. -/
theorem progLoad_holds {c : Call} {s : State} (hb : (c.data.getD []).take (field (c.data.getD []) 8 4) = wFxp)
    (ho : ∀ split, s.programOver c.part wFxp split = false)
    (h : (c.passes s { desc := true, expert := true, split := true, reads := true, needs := s.members c.part } && c.data.isSome &&
      !fxpForbidden (c.data.getD []) && bodyDigestOk (c.data.getD []) 128 64 && fxpShaped (c.data.getD []) &&
      (parseFxp (c.data.getD [])).chains.all (fun h => !(h.fuse = 1) || (parseFxp (c.data.getD [])).fuses (0 < s.parity) h) &&
      (parseFxp (c.data.getD [])).spins.all (fun h => (s.part c.part).spins.any (fun q => q.digest = h))) = true) :
    (claimProgLoad c s).holds = true := by
  simp only [claimProgLoad, hb, ho, Bool.not_false, Bool.and_true]
  exact h

/-- Whether that program fits the program store of an engine, the manual leaves open. -/
theorem witness_progLoad (h : Config.compiledBytes wFxp ≤ 262144) :
    Claimed 0x70 claimProgLoad (wReq [(60, 4, 192)] wFxp) wExpert :=
  ⟨by unfold Starts; decide +kernel, progLoad_holds (by decide +kernel)
    (fun split => programOver_first split (by decide +kernel) (by decide +kernel) (by decide +kernel) rfl h) (by decide +kernel)⟩

/-- The contexts of WindowAccesses: an atomic operation at an A-port, a request with a PASID prefix and a configuration write at a
P-port. -/
theorem witness_WindowAccesses_4 :
    let a : WinSrc := { eng := 2, part := 0, path := .aport 9, via := .atomic }
    let p : WinSrc := { eng := 2, part := 0, path := .pport 1, via := .pasid }
    let c : WinSrc := { eng := 2, part := 0, path := .pport 1, via := .config .msixControl }
    wLinked.reachesWindow a.eng a.part a.path = true ∧ wShelf.reachesWindow p.eng p.part p.path = true ∧
      wShelf.reachesWindow c.eng c.part c.path = true ∧ a.via = .atomic ∧ (wShelf.win 2 0).ints.ring.en = false := by
  intro a p c; decide +kernel

/-- An engine of which nothing is taken, with every channel in service. -/
def State.untouched (s : State) (e : EngId) : Prop :=
  (s.eng e).units = [] ∧ (s.eng e).protectedSlices = [] ∧ (s.eng e).deadChannels = [] ∧ s.kvUnits e = []

/-- The state after engine `e` has given the unit at `u`. -/
def State.gave (s : State) (e : EngId) (u : Nat) : State := (s.draw 64).2.modEng e (fun x => { x with units := u :: x.units })

theorem takeWhole_untouched {s : State} {e : EngId} (h : s.untouched e) :
    ∃ u, s.takeWhole e false = some (u, s.gave e u) := by
  obtain ⟨h1, h2, _, h4⟩ := h
  have hf : ∀ u, (s.draw 64).2.unitFree e false u = true := by
    intro u
    have e1 : (s.draw 64).2.eng e = s.eng e := rfl
    have e2 : (s.draw 64).2.kvUnits e = s.kvUnits e := rfl
    simp [State.unitFree, e1, e2, h1, h2, h4]
  have hp : poolUnits = (poolUnits - 1) + 1 := by decide
  refine ⟨(s.draw 64).1.toNat % poolUnits * unitBytes, ?_⟩
  have hu : (s.draw 64).2.findUnit e false (s.draw 64).1.toNat poolUnits = some ((s.draw 64).1.toNat % poolUnits * unitBytes) := by
    conv => lhs; rw [hp]
    rw [State.findUnit, hf, if_pos rfl]
  simp only [State.takeWhole, hu, Option.map_some, Bool.false_and, Bool.false_eq_true, if_false, State.gave]

theorem takeUnits_untouched {s : State} {e : EngId} (h : s.untouched e) :
    ∃ us t, s.takeUnits e false 1 = some (us, t) ∧ t.parts = s.parts ∧ ∀ x, x ≠ e → s.untouched x → t.untouched x := by
  obtain ⟨u, hw⟩ := takeWhole_untouched h
  have hd : ((s.gave e u).eng e).deadChannels = [] := by rw [State.gave, State.eng_modEng]; exact h.2.2.1
  refine ⟨[u], s.gave e u, ?_, rfl, fun x hx h' => ?_⟩
  · simp only [State.takeUnits, State.takeUnit, hw, Option.bind_eq_bind, Option.bind_some, hd, List.foldlM_nil, Option.pure_def]
  · have he : (s.gave e u).eng x = s.eng x := State.eng_modEng_ne _ _ hx
    have hk : (s.gave e u).kvUnits x = s.kvUnits x := rfl
    unfold State.untouched
    rw [he, hk]
    exact h'

theorem takePlacement_untouched : ∀ (l : List EngId) (s : State) (pl : Placement), l.Nodup → (∀ e ∈ l, s.untouched e) →
    ∃ r, (l.foldlM (fun (acc : Placement × State) e => do
      let (us, s1) ← acc.2.takeUnits e false 1
      pure ({ acc.1 with units := acc.1.units ++ [(e.val, us)] }, s1)) (pl, s)) = some r ∧ r.2.parts = s.parts := by
  intro l
  induction l with
  | nil => intro s pl _ _; exact ⟨(pl, s), rfl, rfl⟩
  | cons e l ih =>
    intro s pl hn h
    obtain ⟨us, t, ht, hp, hk⟩ := takeUnits_untouched (h e (List.mem_cons_self ..))
    obtain ⟨r, hr, hq⟩ := ih t { pl with units := pl.units ++ [(e.val, us)] } (List.nodup_cons.mp hn).2
      (fun x hx => hk x (fun hxe => (List.nodup_cons.mp hn).1 (hxe ▸ hx)) (h x (List.mem_cons_of_mem _ hx)))
    refine ⟨r, ?_, hq.trans hp⟩
    rw [List.foldlM_cons]
    simp only [ht, Option.bind_eq_bind, Option.bind_some, Option.pure_def]
    exact hr

/-- REG_TENSOR of a tensor of one unit on each engine, on a shelf whose engines hold nothing. -/
theorem registerAll_untouched {s : State} {p : PartId} {t : Tensor} (ht : t.twin = false) (hn : t.unitsNeeded t.place = 1)
    (hk : (s.part p).policy = none) (hc : t.cls ≠ 0) (h : ∀ e ∈ maskEngines t.place.members, (s.modPart p Partition.leaveFailed).untouched e) :
    (s.registerAll p t).isSome = true := by
  obtain ⟨r, hr, hq⟩ := takePlacement_untouched (maskEngines t.place.members) (s.modPart p Partition.leaveFailed)
    { t.place with units := [], gone := engineMask ((maskEngines t.place.members).filter (s.modPart p Partition.leaveFailed).lost) }
    ((List.nodup_finRange 16).filter _) h
  have hr' : (s.modPart p Partition.leaveFailed).takePlacement t t.place = some r := by
    simp only [State.takePlacement, ht, hn]; exact hr
  have hpol : (r.2.part p).policy = none := by
    have e1 : r.2.part p = (s.modPart p Partition.leaveFailed).part p := by simp only [State.part, hq]
    rw [e1, State.part_modPart]
    unfold Partition.leaveFailed
    split <;> exact hk
  simp only [State.registerAll, State.register, hr', Option.map_some, Option.bind_eq_bind, Option.bind_some, State.part_modPart,
    Partition.kron, hpol, Option.filter_none, if_neg hc, Option.pure_def, Option.isSome_some]

/-- A request for a BYTES tensor of 64 bytes and class OPAQUE, without twin. -/
def wRegReq : MbxReq := wReq [(8, 4, 1), (12, 1, 6), (13, 1, 7), (16, 8, 64), (24, 4, 1), (32, 1, 12)] []

/-- The tensor that it asks for. -/
def wAsked : Tensor :=
  { wTens with twin := false, charge := 74, place := { wTens.place with units := [] } }

theorem witness_regTensor : Claimed 0x40 claimRegTensor wRegReq wShelf := by
  refine ⟨by unfold Starts; decide +kernel, ?_⟩
  generalize hv : wShelf.accepted 0x40 wRegReq (some wRegReq.part) wRegReq.part = v
  generalize hc : mbxCall wRegReq 0x40 (some wRegReq.part) wRegReq.part wShelf = c
  have h1 : c.fld 12 1 = 6 := by subst hc; decide +kernel
  have h2 : askedTensor c (v.part c.part) (v.members c.part) v.parity none = wAsked := by subst hc hv; decide +kernel
  have h3 : ∀ e ∈ maskEngines wAsked.place.members, ((v.modPart c.part Partition.leaveFailed).eng e).units = [] ∧
      ((v.modPart c.part Partition.leaveFailed).eng e).protectedSlices = [] ∧
      ((v.modPart c.part Partition.leaveFailed).eng e).deadChannels = [] ∧
      (v.modPart c.part Partition.leaveFailed).kvUnits e = [] := by subst hc hv; decide +kernel
  have h4 : (v.part c.part).policy = none := by subst hc hv; decide +kernel
  have h5 := registerAll_untouched (t := wAsked) rfl (by decide +kernel) h4 (by decide) h3
  have h6 : dependentClass 6 = false := by decide
  simp only [claimRegTensor, h1, h6, Bool.false_eq_true, if_false, h2, h5, Bool.and_true]
  subst hc hv
  decide +kernel

theorem witness_StreamEvents_5 :
    let s := wTensor.wQueue [wFetching]
    s.paused wAt.eng wFetching.path = false ∧ wWeights.streamForm wAt wPull = none := by intro s; decide +kernel

theorem witness_PortEvents_4 : ∃ s e qpn t, (State.eng s e).portsRun = true ∧ (s.eng e).qps.any (fun q => q.num = qpn) = false ∧
    s.sportPair e qpn = some t ∧ ∀ v n, s.volume t.1 = some v → (v.pair t.2.1 t.2.2).lastCnp = some n → n + 50000 ≤ s.now := by
  have hl : (wVolume.store.volumes.zipIdx.flatMap (fun (v, n) => (List.range 4).flatMap (fun i =>
      (List.range (v.queues.toList.getD (4 * (2 : EngId).val + i) 0)).map (fun q => (n, 4 * (2 : EngId).val + i, q))))) =
        [(0, 8, 0), (0, 9, 0), (0, 10, 0), (0, 11, 0)] := by decide +kernel
  refine ⟨wVolume, 2, Config.sportQpn 0 8 0, (0, 8, 0), by decide +kernel, ?_, ?_, ?_⟩
  · have : (wVolume.eng 2).qps = [] := by decide +kernel
    rw [this]; rfl
  · rw [State.sportPair, hl, List.find?_cons_of_pos]
    simp
  · intro v n hv hn
    have h0 : (wVolume.volume 0).all (fun v => (v.pair 8 0).lastCnp.isNone) = true := by decide +kernel
    rw [hv] at h0
    simp [hn] at h0

/-- A container of one chain of one SPIN from a MASTER role into itself, with an expert spin of digest zero. -/
def wSpinFxp : List Byte :=
  ascii "FXP1" ++ natLe 2 1 ++ natLe 2 128 ++ natLe 4 256 ++ natLe 4 0x00010100 ++ natLe 4 1 ++ natLe 4 1 ++ natLe 4 128 ++
    natLe 4 136 ++ natLe 4 168 ++ natLe 2 1 ++ natLe 2 1 ++ natLe 4 176 ++ zeros 84 ++ natLe 4 0 ++ natLe 2 1 ++ zeros 2 ++
    natLe 1 5 ++ zeros 7 ++ natLe 4 0 ++ natLe 4 0x40000000 ++ natLe 4 0 ++ natLe 4 0 ++ zeros 8 ++ natLe 1 1 ++ natLe 1 0 ++
    natLe 1 3 ++ zeros 85

/-- Partition 0 updates under a policy that names that program, whose spin no slot holds. -/
def wSpinning : State :=
  (wStep 3).modPart 0 (fun x => { x with
    policy := some (putLe (putLe wPol 0 1 0xFF) 52 4 7), programs := [{ handle := 7, bytes := wSpinFxp, fused := 1, split := 0 }],
    spins := [{ handle := 9, bytes := zeros 64, uses := 0 }] })

theorem witness_StepEngineEvents_6 :
    (wSpinning.part 0).step.phase = 3 ∧
      (wSpinning.part 0).stepProgram = some { handle := 7, bytes := wSpinFxp, fused := 1, split := 0 } ∧
      ((wSpinning.part 0).spinsNamed (parseFxp wSpinFxp)).contains 9 = true ∧
      (wSpinning.eng 2).resident.toList.any (fun r => r.any (fun v => v.part = 0 && v.handle = 9)) = false ∧
      hasEngine (wSpinning.members 0) 2 = true ∧ wSpinning.lost 2 = false := by decide +kernel

theorem witness_CutEvents_7 :
    (wFlight { wEp with state := 1 }).walkOver 0 { wEp with state := 1 } = true ∧ ({ wEp with state := 1 } : Epoch).paused = false ∧
      ({ wEp with paused := true } : Epoch).state ≠ 6 := by decide +kernel

theorem witness_TideEvents_9 :
    let s : State := { wFlooding [wTens] 0 with tide := { (wFlooding [wTens] 0).tide with ready := 1, turn := 0 } }
    s.tide.flood = true ∧ s.tide.turn ≠ 2 ∧ s.tide.ready.getLsbD 0 = true ∧ (s.part 0).hasTwins = true ∧ (s.part 0).pins = false ∧
      (s.part 0).epochs.any (fun ep => ep.state = 1) = false ∧ (s.tide.held.getLsbD 0 = false ∨ s.tide.turn = 0) := by
  intro s; decide +kernel

/-- A restore of partition 0 runs, with a digest lane and a compression lane on each member and its tokens taken. -/
def wRestoring : State :=
  (wVolume.modEngines 0xFFFF (fun _ x => { x with
    lanes := x.lanes.set 1 (some { work := .restore 0, since := 0 }), clanes := x.clanes.set 0 (some (.restore 0)) })).modPart 0
      (fun x => { x with restore := some { wRestore with state := 2, campaign := some 0, paid := 1000 } })

theorem witness_ReshardEvents_5 :
    let r : Restore := { wRestore with state := 2, campaign := some 0, paid := 1000 }
    (wRestoring.part 0).restore = some r ∧ maskCount (wRestoring.fencedOf 0) ≤ wRestoring.parity ∧
      (∀ v, v < wRestoring.store.volumes.length → wRestoring.storeGoes v = true) ∧ (wRestoring.payRestore 0 r).1 = true ∧
      ((wRestoring.payRestore 0 r).2.restoreLanes 0).1 = true ∧
      ({ wRestoring with membership := { wRestoring.membership with view := some { wView with set := 0x1FFF } } } : State).parity <
        maskCount (({ wRestoring with membership := { wRestoring.membership with view := some { wView with set := 0x1FFF } } } : State
          ).fencedOf 0) := by
  intro r; decide +kernel

/-- Entry 0 of the window of partition 0 on engine 2 writes a row of its tensor. -/
def wRows : State :=
  wExpert.modNmx 2 0 (fun n => { n with entries := [(0, 0x0000000000000000000000010001_0102#128)] })

theorem witness_NearMemoryEvents_2 :
    let t := (wRows.touch 2).modNmx 2 0 (fun n => n.control 0)
    wRows.reachesWindow 2 0 (.pport 0) = true ∧ wRows.expert 0 = true ∧ (t.win 2 0).nmx.busy = false ∧
      t.nmxCheck 2 0 (t.win 2 0).nmx = none := by
  intro t; decide +kernel

theorem witness_NearMemoryEvents_3 :
    let s := wRows.modNmx 2 0 (fun n => { n with busy := true, locked := true, prog := [(5, 1)], next := 1 })
    let z := wRows.modNmx 2 0 (fun n => { n with busy := true, locked := true, failed := some (.fenced, 0) })
    s.serves 2 = true ∧ (s.eng 2).power.low = false ∧ ((s.lockNmx 2 0).win 2 0).nmx.busy = true ∧
      ((s.lockNmx 2 0).win 2 0).nmx.locked = true ∧ ((s.lockNmx 2 0).win 2 0).nmx.failed = none ∧
      ((s.lockNmx 2 0).win 2 0).nmx.prog.length ≤ ((s.lockNmx 2 0).win 2 0).nmx.next ∧
      ((s.lockNmx 2 0).win 2 0).nmx.prog = [] ++ [((5 : Fin 1024).val, 1)] ∧
      ((z.lockNmx 2 0).win 2 0).nmx.failed = some (.fenced, 0) ∧ ((z.lockNmx 2 0).win 2 0).nmx.locked = true := by
  intro s z; decide +kernel

theorem witness_NearMemoryEvents_6 :
    let s := { wShelf with now := 65536 }.modChannel 2 15 (fun c => { c with slot := some 1 })
    ((wShelf.eng 2).channels[(15 : Fin 16)]).slot ≠ some (wShelf.now / 65536) ∧
      ((s.eng 2).channels[(15 : Fin 16)]).slot = some (s.now / 65536) := by intro s; decide +kernel

theorem witness_NearMemoryEvents_9 :
    let s := { wShelf with now := 10000 }.modChannel 2 15 (fun c => { c with processor := true, stuck := true, since := 0 })
    s.serves 2 = true ∧ ((s.eng 2).channels[(15 : Fin 16)]).processor = true ∧ ((s.eng 2).channels[(15 : Fin 16)]).stuck = true ∧
      ((s.eng 2).channels[(15 : Fin 16)]).since + 10000 ≤ s.now := by intro s; decide +kernel

/-- Engine 2 runs the digest job of partition 0 on lane 3, every other lane is in use, and a drain waits. -/
def wPreempting : State :=
  wHashing.modEng 2 (fun x => { x with
    lanes := Vector.ofFn (fun i => if i.val = 3 then some { work := .dgx 0, since := 0 } else some { work := .restore 0, since := 0 }),
    digestWaits := [.shard 0 1 0] })

theorem witness_DigestEvents_5 :
    (wPreempting.eng 2).lanes[(3 : Fin 64)] = some { work := .dgx 0, since := 0 } ∧ wPreempting.serves 2 = true ∧
      (wPreempting.eng 2).digestWaits.any (fun v => v.cls < (DigestJob.dgx 0).cls &&
        ((wPreempting.eng 2).freeLanes ((wPreempting.eng 2).workAlg v)).isEmpty) = true ∧
      0 + 10000 ≤ wPreempting.now ∧ (wPreempting.eng 2).contexts.length < 256 ∧
      (wPreempting.eng 2).digestWaits.find? (fun v => some v.cls = (wPreempting.eng 2).waitingClass) = some (.shard 0 1 0) := by
  decide +kernel

theorem witness_DigestEvents_6 :
    (wPreempted.eng 2).digestWaits.any (fun w => w.cls < (DigestJob.dgx 0).cls) = false ∧
      (wPreempted.eng 2).freeLanes ((wPreempted.eng 2).workAlg (.dgx 0)) = [63] := by decide +kernel

end Sys2Proof.Machine
end

/-! ## The scope of the model: every row runs, and a reserved opcode is invalid -/

namespace Sys2Proof.Machine

/-! ### Every row gives a next state (R1) -/

/-- CONFIG_PHASE_TIMEOUT is the one row that chooses between outcomes; each branch is a next state (R301). -/
theorem execConfigPhaseTimeout_next (e : EngId) (s : State) : ∃ t, execConfigPhaseTimeout e s = .next t := by
  unfold execConfigPhaseTimeout
  split
  · exact ⟨_, rfl⟩
  · split <;> split <;> exact ⟨_, rfl⟩

theorem exec_next (c : Instr) (s : State) : ∃ t, exec c s = .next t := by
  cases c
  case configPhaseTimeout e => exact execConfigPhaseTimeout_next e s
  all_goals exact ⟨_, rfl⟩

/-- Settles O3: every row gives a next state, and whatever a row does keeps the queue and the clock. -/
theorem everyCommandRuns : Obligations.EveryCommandRuns := by
  intro c s
  obtain ⟨t, ht⟩ := exec_next c s
  have hkeeps := exec_keeps ht
  exact ⟨t, ht, hkeeps.queue, hkeeps.clock⟩

/-! ### A reserved opcode of the mailbox (R12) -/

/-- Acceptance changes no view. -/
theorem State.accepted_joined (s : State) (op : Nat) (m : MbxReq) (k : MbxKey) (p : PartId) (e : EngId) :
    (s.accepted op m k p).joined e = s.joined e := by
  unfold State.accepted State.acceptMailbox State.wakeFor
  split <;> cases k <;> rfl

/-- Acceptance does not change the membership state of the engine. -/
theorem State.accepted_member (s : State) (op : Nat) (m : MbxReq) (k : MbxKey) (p : PartId) :
    ((s.accepted op m k p).eng m.eng).member = (s.eng m.eng).member := by
  unfold State.accepted State.acceptMailbox State.wakeFor
  split <;> cases k <;>
    simp [State.wake, State.modMailbox, State.modWin, Engine.setWin, Engine.wake]

/-- The opcode of a call is that of its request. -/
theorem mbxCall_op {op : Nat} (m : MbxReq) (k : MbxKey) (p : PartId) (s : State) (h : op < 256) :
    (mbxCall m op k p s).op = op := commandBytes_op op m h

/-- An opcode of no mailbox row runs no row: the dispatch falls through to the checks of R93 and R12. -/
theorem runCommand_reserved {c : Call} (s : State) (h : reservedOp c.op = true) : runCommand c s = cmdInvalid c s := by
  unfold runCommand
  split
  case h_64 => rfl
  all_goals
    rename_i hrow
    rw [hrow] at h
    exact absurd h (by decide)

/-- On a joined engine with a quorum, R12's status is the first of R93. -/
theorem cmdInvalid_joined {c : Call} {s : State} (hj : s.joined c.eng = true) (hq : (s.eng c.eng).member.state ≠ 5) :
    cmdInvalid c s = (s, .done .invalidOpcode 0 []) := by
  simp [cmdInvalid, hj, hq]

/-- A mailbox command with a reserved opcode completes with SC_INVALID_OPCODE on the state of its acceptance. -/
theorem exec_reservedOpcode {op : Byte} {m : MbxReq} {s : State} {k : MbxKey} {p : PartId}
    (hs : Starts op.toNat m s k p) (hres : reservedOp op.toNat = true) (hj : s.joined m.eng = true)
    (hq : (s.eng m.eng).member.state ≠ 5) :
    exec (.reservedOpcode op m) s =
      .next ((mbxCall m op.toNat k p s).finish (s.accepted op.toNat m k p, .done .invalidOpcode 0 [])) := by
  have hrun : runCommand (mbxCall m op.toNat k p s) (s.accepted op.toNat m k p) =
      (s.accepted op.toNat m k p, .done .invalidOpcode 0 []) := by
    rw [runCommand_reserved _ (by rwa [mbxCall_op m k p s op.isLt])]
    refine cmdInvalid_joined ?_ ?_
    · exact (State.accepted_joined ..).trans hj
    · rw [show (mbxCall m op.toNat k p s).eng = m.eng from rfl, State.accepted_member]
      exact hq
  calc exec (.reservedOpcode op m) s = .next (submitMailbox op.toNat m s) := rfl
    _ = _ := by rw [submitMailbox_starts op.isLt hs, hrun]

/-! ### A reserved opcode of a stream (R12, R112) -/

/-- A slot that waits to start is queued and not finished. -/
theorem Slot.isQueued_of_phase {q : Slot} (h : q.phase = .queued) : q.isQueued = true ∧ q.isFinished = false := by
  simp [Slot.isQueued, Slot.isFinished, h]

/-- Nothing of R93 step 1 stops a command on a joined engine with a quorum. -/
theorem State.viewStop_joined {s : State} {e : EngId} (hj : s.joined e = true) (hq : (s.eng e).member.state ≠ 5) :
    s.viewStop e = none := by
  simp [State.viewStop, hj, hq]

/-- An opcode outside Table 5-1 is the first thing that R112 finds wrong with a command on an engine of the view. -/
theorem State.streamCheck_reserved {s : State} {a : StreamAt} {q : Slot} (hv : s.viewStop a.eng = none)
    (hop : q.op = 0 ∨ 0x0B < q.op) : s.streamCheck a q = some .invalidOpcode := by
  have hform : s.streamForm a q = some .invalidOpcode := by simp [State.streamForm, hv, hop]
  simp [State.streamCheck, hform]

/-- A command with a reserved opcode ends at its start, before it asks for engines or locks. -/
theorem State.begin_reserved {s : State} {a : StreamAt} {i : Nat} {q : Slot} (hv : s.viewStop a.eng = none)
    (hop : q.op = 0 ∨ 0x0B < q.op) : s.begin a i q = (s.finishSlot a i .invalidOpcode 0, false) := by
  have hbad : q.malformed = true := by rcases hop with h | h <;> simp [Slot.malformed, h]
  simp [State.begin, hbad, State.streamCheck_reserved hv hop]

/-- On an engine that runs and is awake, a queued command that no FENCE holds begins. -/
theorem State.tryStream_queued {s : State} {a : StreamAt} {i : Nat} {q : Slot} (fail : TransferFail)
    (hq : (s.stream a).queue[i]? = some q) (hph : q.phase = .queued) (hrun : (s.eng a.eng).runs = true)
    (hf : s.fenceHolds a i q = false) (hlow : (s.eng a.eng).power.low = false) :
    s.tryStream a i fail = if (s.begin a i q).2 then (s.begin a i q).1.proceed a i fail else (s.begin a i q).1 := by
  obtain ⟨hqueued, hunfinished⟩ := Slot.isQueued_of_phase hph
  simp [State.tryStream, hq, hqueued, hunfinished, hrun, hf, hlow]

theorem State.runs_of_streamLive {s : State} {a : StreamAt} (h : s.streamLive a = true) : (s.eng a.eng).runs = true := by
  simp only [State.streamLive, State.serves, Bool.and_eq_true] at h
  exact h.1.2

/-- STREAM_COMMAND_START on a live stream tries the command at its slot. -/
theorem exec_streamCommandStart_live {s : State} {a : StreamAt} (h : s.streamLive a = true) (i : Nat) (fail : TransferFail) :
    exec (.streamCommandStart a i fail) s = .next (s.tryStream a i fail) := by
  show execStreamCommandStart a i fail s = _
  simp [execStreamCommandStart, h]

/-- Settles O26: a reserved mailbox opcode falls through the dispatch, and a reserved stream opcode is malformed. -/
theorem reservedOpcodesAreInvalid : Obligations.ReservedOpcodesAreInvalid := by
  refine ⟨fun op m s k p hs hres hj hq => exec_reservedOpcode hs hres hj hq, ?_⟩
  intro s a i q fail hlive hslot hph hop hf hlow hj hq
  have hbegin := State.begin_reserved (i := i) (State.viewStop_joined hj hq) hop
  rw [exec_streamCommandStart_live hlive, State.tryStream_queued fail hslot hph (State.runs_of_streamLive hlive) hf hlow,
    hbegin]
  rfl

end Sys2Proof.Machine

/-! ## The shelf through a day: reset and power-off, the turns of the tide -/

namespace Sys2Proof.Machine

/-! ### What reset and power-off leave (R29, R134, R335, R363) -/

/-- A state without what the engines hold only while powered: reset, and what any power-off leaves (R22, R29). -/
def State.Cleared (s : State) : Prop := s = State.reset ∨ ∃ u cause b, s = State.powerOff u cause b

theorem State.eng_reset (e : EngId) : State.reset.eng e = Engine.reset e := by
  simp [State.eng, State.reset]

theorem State.eng_powerOff (u : State) (cause : Nat) (b : Bool) (e : EngId) :
    (u.powerOff cause b).eng e = { (u.eng e).restart e true with
      powered := false, power := { ((u.eng e).restart e true).power with state := 4 } } := by
  simp [State.eng, State.powerOff]

/-- A window comes back from power-off with its reset values (R59, R80). -/
theorem Engine.window_restart (x : Engine) (e : EngId) (p : PartId) : (x.restart e true).windows[p] = Window.reset := by
  simp [Engine.restart, Window.afterReset]

namespace State.Cleared

variable {s : State}

theorem tide_eq (h : s.Cleared) : s.tide = State.reset.tide := by
  obtain rfl | ⟨u, cause, b, rfl⟩ := h <;> rfl

theorem joinedMask_eq (h : s.Cleared) : s.joinedMask = 0 := by
  obtain rfl | ⟨u, cause, b, rfl⟩ := h <;> rfl

theorem campaigns_eq (h : s.Cleared) : s.campaigns = [] := by
  obtain rfl | ⟨u, cause, b, rfl⟩ := h <;> rfl

theorem lease_eq (h : s.Cleared) : s.store.lease = Lease.none := by
  obtain rfl | ⟨u, cause, b, rfl⟩ := h <;> rfl

theorem part_eq (h : s.Cleared) (p : PartId) : s.part p = Partition.reset := by
  obtain rfl | ⟨u, cause, b, rfl⟩ := h
  · simp [State.part, State.reset]
  · simp [State.part, State.powerOff]

theorem win_eq (h : s.Cleared) (e : EngId) (p : PartId) : s.win e p = Window.reset := by
  obtain rfl | ⟨u, cause, b, rfl⟩ := h
  · simp [State.win, State.eng_reset, Engine.reset]
  · rw [State.win, State.eng_powerOff]
    exact Engine.window_restart (u.eng e) e p

/-- An engine has an empty pool and no queue pair, and is neither fenced nor open for debug. -/
theorem eng_empty (h : s.Cleared) (e : EngId) :
    (s.eng e).pool = [] ∧ (s.eng e).qps = [] ∧ (s.eng e).fenced = false ∧ (s.eng e).debug = 0 := by
  obtain rfl | ⟨u, cause, b, rfl⟩ := h
  · rw [State.eng_reset]
    exact ⟨rfl, rfl, rfl, rfl⟩
  · rw [State.eng_powerOff]
    exact ⟨rfl, rfl, rfl, rfl⟩

end State.Cleared

/-- Settles O8: reset and power-off leave the same windows and partitions, those of Window.reset and Partition.reset. -/
theorem resetHoldsNoPartitionState : Obligations.ResetHoldsNoPartitionState := by
  intro s h
  have hs : s.Cleared := h
  refine ⟨?_, hs.joinedMask_eq, hs.campaigns_eq, hs.lease_eq, fun p => ?_, fun e p n => ?_, fun e p => ?_, hs.eng_empty⟩
  · rw [hs.tide_eq]
    rfl
  · rw [hs.part_eq]
    exact ⟨rfl, rfl, rfl, rfl, rfl, rfl, rfl⟩
  · rw [hs.win_eq]
    rfl
  · rw [hs.win_eq]
    exact ⟨rfl, rfl, rfl⟩

/-! ### A mailbox command that its row's claim describes (R82, R93) -/

/-- A command that passes the shared checks runs its own part. -/
theorem guarded_of_passes {c : Call} {s : State} {sp : CmdSpec} (h : c.passes s sp = true) (k : State × Result) :
    guarded c s sp k = k := by
  rw [Call.passes, Bool.and_eq_true, Bool.not_eq_true', Option.isNone_iff_eq_none] at h
  obtain ⟨hawaits, hcheck⟩ := h
  simp [guarded, hawaits, hcheck]

/-- The first condition of a chapter's list that holds refuses the command with its status. -/
theorem ordered_cons_true (s : State) (st : Status) (cs : List (Bool × Status)) (k : State × Result) :
    ordered s ((true, st) :: cs) k = refuse s st := rfl

/-- A condition that does not hold leaves the command to the rest of its chapter's list. -/
theorem ordered_cons_false (s : State) (st : Status) (cs : List (Bool × Status)) (k : State × Result) :
    ordered s ((false, st) :: cs) k = ordered s cs k := rfl

theorem ordered_nil (s : State) (k : State × Result) : ordered s [] k = k := rfl

/-- A row of the mailbox: its command submits the opcode, and a call of that opcode runs the row's command (R82). -/
structure MailboxRow (op : Nat) (mk : MbxReq → Instr) (cmd : Call → State → State × Result) : Prop where
  byte : op < 256
  submits : ∀ m s, exec (mk m) s = .next (submitMailbox op m s)
  runs : ∀ m k p s t, runCommand (mbxCall m op k p s) t = cmd (mbxCall m op k p s) t

section MailboxRow

variable {op : Nat} {mk : MbxReq → Instr} {cmd : Call → State → State × Result}

/-- A request that starts runs its row's command on the state of its acceptance. -/
theorem MailboxRow.exec_starts (hrow : MailboxRow op mk cmd) {m : MbxReq} {s : State} {k : MbxKey} {p : PartId}
    (hs : Starts op m s k p) :
    exec (mk m) s = .next ((mbxCall m op k p s).finish (cmd (mbxCall m op k p s) (s.accepted op m k p))) := by
  rw [hrow.submits, submitMailbox_starts hrow.byte hs, hrow.runs]

/-- A row answers as claimed when its command gives the claim's result under the claim's condition. -/
theorem MailboxRow.answers (hrow : MailboxRow op mk cmd) {f : Call → State → Meaning}
    (hcmd : ∀ c s, (f c s).holds = true → cmd c s = (f c s).result) : Answers op mk f := by
  intro m s k p hs hholds
  rw [hrow.exec_starts hs, hcmd _ _ hholds]

end MailboxRow

/-! ### TIDE_SET, TIDE_QUERY, KV_CONFIG, KV_QUERY (R16, R23, R250, R258) -/

theorem mailboxRow_tideSet : MailboxRow 0x80 .tideSet cmdTideSet :=
  ⟨by decide, fun _ _ => rfl, fun _ _ _ _ _ => rfl⟩

theorem mailboxRow_tideQuery : MailboxRow 0x81 .tideQuery cmdTideQuery :=
  ⟨by decide, fun _ _ => rfl, fun _ _ _ _ _ => rfl⟩

theorem mailboxRow_kvConfig : MailboxRow 0x82 .kvConfig cmdKvConfig :=
  ⟨by decide, fun _ _ => rfl, fun _ _ _ _ _ => rfl⟩

theorem mailboxRow_kvQuery : MailboxRow 0x83 .kvQuery cmdKvQuery :=
  ⟨by decide, fun _ _ => rfl, fun _ _ _ _ _ => rfl⟩

/-- What TIDE_SET lays out and admits: the personality, 0 or 1, from partition 0. -/
def Call.tideSetSpec (c : Call) : CmdSpec := { used := [(8, 1)], p0 := true, bad := [(8, 1 < c.fld 8 1)] }

/-- With no turn in progress TIDE_SET starts one, or takes no action for the personality in force. -/
theorem cmdTideSet_noTurn {c : Call} {s : State} (h : c.passes s c.tideSetSpec = true) (ht : s.tide.turn = 0) :
    cmdTideSet c s = (if decide (c.fld 8 1 = 1) = s.tide.flood then s else s.startTurn (decide (c.fld 8 1 = 1)) (s.time c.eng),
      .ok (rspFields [(8, 8, (s.time c.eng).toNat)])) := by
  rw [Call.tideSetSpec] at h
  rw [cmdTideSet, guarded_of_passes h, decide_eq_false (not_not_intro ht), ordered_cons_false, ordered_nil]

/-- During a turn TIDE_SET is refused with SC_BUSY. -/
theorem cmdTideSet_busy {c : Call} {s : State} (h : c.passes s c.tideSetSpec = true) (ht : s.tide.turn ≠ 0) :
    cmdTideSet c s = refuse s .busy := by
  rw [Call.tideSetSpec] at h
  rw [cmdTideSet, guarded_of_passes h, decide_eq_true ht, ordered_cons_true]

/-- Settles O17: past the shared checks, the command of each row gives its claim's result. -/
theorem tideAndPageCommandsAnswer : Obligations.TideAndPageCommandsAnswer := by
  refine ⟨mailboxRow_tideSet.answers fun c s hholds => ?_, mailboxRow_tideQuery.answers fun c s hpass => ?_,
    mailboxRow_kvConfig.answers fun c s hpass => ?_, mailboxRow_kvQuery.answers fun c s hpass => ?_⟩
  case refine_1 =>
    obtain ⟨hpass, hturn⟩ := (Bool.and_eq_true _ _).mp hholds
    exact cmdTideSet_noTurn hpass (of_decide_eq_true hturn)
  all_goals exact guarded_of_passes hpass _

/-! ### TIDE_SET without effect (R23) -/

/-- Acceptance changes neither the personality nor the turn. -/
theorem State.accepted_tide (s : State) (op : Nat) (m : MbxReq) (k : MbxKey) (p : PartId) :
    (s.accepted op m k p).tide = s.tide := by
  unfold State.accepted State.acceptMailbox State.wakeFor
  split <;> cases k <;> rfl

/-- Settles O27: a turn in progress refuses the command, that for the personality in force among them (log 117), and with no turn
the personality in force leaves the state as it was. -/
theorem tideSetAnswers : Obligations.TideSetAnswers := by
  intro m s k p hs c u hpass
  have htide : u.tide = s.tide := State.accepted_tide ..
  rw [mailboxRow_tideSet.exec_starts hs]
  constructor
  · intro hturn
    rw [cmdTideSet_busy hpass (htide ▸ hturn)]
    rfl
  · intro hturn hsame
    have hforce : decide (c.fld 8 1 = 1) = u.tide.flood := by rw [htide, Bool.eq_iff_iff, decide_eq_true_iff, hsame]
    rw [cmdTideSet_noTurn hpass (htide ▸ hturn), if_pos hforce]
    exact ⟨_, rfl⟩

/-! ### The final ebb cut (R17, R25) -/

section FinalEbbCut

variable {s : State} {p : PartId}

theorem exec_finalEbbCut_cuts (hw : s.wantsFinal p = true) (ht : (s.part p).hasTwins = true)
    (hc : (s.part p).cutless = false) (ho : s.ownCutWaits p = false) : exec (.finalEbbCut p) s = .next (s.ownCut p true) := by
  show execFinalEbbCut p s = _
  simp [execFinalEbbCut, hw, ht, hc, ho]

theorem exec_finalEbbCut_holds (hw : s.wantsFinal p = true) (ht : (s.part p).hasTwins = true)
    (hc : (s.part p).cutless = true) : exec (.finalEbbCut p) s = .next (s.hold p) := by
  show execFinalEbbCut p s = _
  simp [execFinalEbbCut, hw, ht, hc]

theorem exec_finalEbbCut_passesOver (hw : s.wantsFinal p = true) (ht : (s.part p).hasTwins = false) :
    exec (.finalEbbCut p) s = .next { s with tide := { s.tide with waits := setBit s.tide.waits p.val false } } := by
  show execFinalEbbCut p s = _
  simp [execFinalEbbCut, hw, ht]

end FinalEbbCut

/-! ### Lending and re-seeding (R17, R26, R256, R257) -/

section Lending

variable {s : State} {p : PartId}

/-- A partition may lend when no cut is in its twins and it is not HELD, or is HELD with no turn in progress. -/
theorem State.mayLend_iff : s.mayLend p = true ↔ (s.part p).pins = false ∧
    (s.part p).epochs.any (fun ep => ep.state = 1) = false ∧ (s.tide.held.getLsbD p.val = false ∨ s.tide.turn = 0) := by
  simp only [State.mayLend, Bool.and_eq_true, Bool.or_eq_true, Bool.not_eq_true', decide_eq_true_eq, and_assoc]

theorem exec_partitionLend_lends (hf : s.tide.flood = true) (ht : s.tide.turn ≠ 2)
    (hr : s.tide.ready.getLsbD p.val = true) (hm : s.mayLend p = true) (hw : (s.part p).hasTwins = true) :
    exec (.partitionLend p) s = .next (s.lend p) := by
  show execPartitionLend p s = _
  simp [execPartitionLend, hf, ht, hr, hm, hw]

theorem exec_reseedCut_cuts (ht : s.tide.turn = 2) (hw : s.tide.waits.getLsbD p.val = true)
    (hl : s.dropLent.lentPages p = false) (htw : (s.part p).hasTwins = true) (hc : (s.part p).cutless = false)
    (ho : s.dropLent.ownCutWaits p = false) : exec (.reseedCut p) s = .next (s.dropLent.ownCut p false) := by
  show execReseedCut p s = _
  simp [execReseedCut, ht, hw, hl, htw, hc, ho]

/-- Where no re-seed cut can be taken the twins are reclaimed, and the next cut is full. -/
theorem exec_reseedCut_reclaims (ht : s.tide.turn = 2) (hw : s.tide.waits.getLsbD p.val = true)
    (hl : s.dropLent.lentPages p = false) (hn : (s.part p).hasTwins = false ∨ (s.part p).cutless = true) :
    exec (.reseedCut p) s = .next ((s.dropLent.reseeded p).modPart p (fun x => { x with nextFull := true })) := by
  show execReseedCut p s = _
  simp [execReseedCut, ht, hw, hl, hn]

end Lending

/-! ### The ends of the turns (R256, R257) -/

theorem exec_floodTurnComplete_ends {s : State} (ht : s.tide.turn = 1)
    (hw : ∀ p ∈ s.partIds, s.tide.waits.getLsbD p.val = true → (s.part p).hasTwins = false) :
    exec .floodTurnComplete s = .next s.endTurn := by
  have hall : s.partIds.all (fun p => !s.tide.waits.getLsbD p.val || !(s.part p).hasTwins) = true := by
    rw [List.all_eq_true]
    intro p hp
    cases hwait : s.tide.waits.getLsbD p.val with
    | false => rfl
    | true => simp [hw p hp hwait]
  show execFloodTurnComplete s = _
  rw [execFloodTurnComplete, decide_eq_true ht, hall, Bool.and_self, if_pos rfl]

theorem exec_ebbTurnComplete_ends {s : State} (ht : s.tide.turn = 2)
    (hw : ∀ p ∈ s.partIds, s.tide.waits.getLsbD p.val = false) : exec .ebbTurnComplete s = .next s.endTurn := by
  have hall : s.partIds.all (fun p => !s.tide.waits.getLsbD p.val) = true := by
    rw [List.all_eq_true]
    intro p hp
    rw [hw p hp]
    rfl
  show execEbbTurnComplete s = _
  rw [execEbbTurnComplete, decide_eq_true ht, hall, Bool.and_self, if_pos rfl]

/-- Settles O45: each clause is the branch of its row that the clause's conditions select. -/
theorem tideEvents : Obligations.TideEvents :=
  ⟨fun _ _ hw ht hc ho => exec_finalEbbCut_cuts hw ht hc ho,
   fun _ _ hw ht hc => exec_finalEbbCut_holds hw ht hc,
   fun _ _ hw ht => exec_finalEbbCut_passesOver hw ht,
   fun _ _ hf ht hr hw hp hcopy hheld => exec_partitionLend_lends hf ht hr (State.mayLend_iff.mpr ⟨hp, hcopy, hheld⟩) hw,
   fun _ ht hw => exec_floodTurnComplete_ends ht hw,
   fun _ _ ht hw hl htw hc ho => exec_reseedCut_cuts ht hw hl htw hc ho,
   fun _ _ ht hw hl hn => exec_reseedCut_reclaims ht hw hl hn,
   fun _ ht hw => exec_ebbTurnComplete_ends ht hw⟩

end Sys2Proof.Machine

/-! ## The connections: mailboxes, windows, resets, time, power, the plant and the keeper -/

namespace Sys2Proof.Machine

/-! ### An engine that is not joined (R56, R93, R311) -/

/-- The row of each opcode submits that opcode (R82). -/
theorem mailboxRows_submit : ∀ r ∈ mailboxRows, r.1 < 256 ∧ ∀ m s, exec (r.2 m) s = .next (submitMailbox r.1 m s) := by
  intro r hr
  fin_cases hr
  all_goals exact ⟨by decide, fun _ _ => rfl⟩

/-- A request to a mailbox row that starts runs its opcode's command on the state of its acceptance. -/
theorem exec_mailboxRow {r : Nat × (MbxReq → Instr)} (hr : r ∈ mailboxRows) {m : MbxReq} {s : State} {k : MbxKey} {p : PartId}
    (hs : Starts r.1 m s k p) :
    exec (r.2 m) s =
      .next ((mbxCall m r.1 k p s).finish (runCommand (mbxCall m r.1 k p s) (s.accepted r.1 m k p))) := by
  obtain ⟨hbyte, hsubmit⟩ := mailboxRows_submit r hr
  rw [hsubmit, submitMailbox_starts hbyte hs]

/-- RESHAPE runs its shared checks once no other RESHAPE of its partition runs (R285, R286). -/
theorem cmdReshape_guarded {c : Call} {s : State} (h : s.reshaping c.part = false) :
    ∃ sp k, cmdReshape c s = guarded c s sp k := by
  rw [cmdReshape, h]
  exact ⟨_, _, rfl⟩

/-- The command of every row runs the shared checks first (R93). -/
theorem runCommand_guarded {r : Nat × (MbxReq → Instr)} (hr : r ∈ mailboxRows) {c : Call} {s : State} (hop : c.op = r.1)
    (hreshape : r.1 = 0x43 → s.reshaping c.part = false) : ∃ sp k, runCommand c s = guarded c s sp k := by
  unfold runCommand
  split
  case h_22 h43 => exact cmdReshape_guarded (hreshape (hop ▸ h43))
  case h_64 =>
    rw [hop] at *
    fin_cases hr
    all_goals contradiction
  all_goals exact ⟨_, _, rfl⟩

/-- A request that starts comes by a window, or by Redfish without the direct path. -/
theorem Starts.not_direct {op : Nat} {m : MbxReq} {s : State} {k : MbxKey} {p : PartId} (hs : Starts op m s k p) :
    k ≠ none ∨ s.runsDirect m.eng (commandBytes op m) = false := by
  obtain ⟨hpath, -, hkey, -⟩ := hs
  refine hpath.imp_left fun hne hk => ?_
  subst hk
  unfold State.requestKey at hkey
  split at hkey
  · exact hne ‹_›
  · split at hkey <;> simp at hkey

/-- The direct path reads of the state only whether the engine is joined and its membership state. -/
theorem State.runsDirect_congr {s t : State} {e : EngId} (hj : t.joined e = s.joined e)
    (hm : (t.eng e).member = (s.eng e).member) (cmd : List Byte) : t.runsDirect e cmd = s.runsDirect e cmd := by
  rw [State.runsDirect, State.runsDirect, hj, hm]

/-- The call of a request that starts is no action of the direct path. -/
theorem Starts.call_not_direct {op : Nat} {m : MbxReq} {s : State} {k : MbxKey} {p : PartId} (hs : Starts op m s k p) :
    (mbxCall m op k p s).direct (s.accepted op m k p) = false := by
  have hcongr : (s.accepted op m k p).runsDirect m.eng (commandBytes op m) = s.runsDirect m.eng (commandBytes op m) :=
    State.runsDirect_congr (State.accepted_joined ..) (State.accepted_member ..) _
  show (decide (k = none) && (s.accepted op m k p).runsDirect m.eng (commandBytes op m)) = false
  rcases hs.not_direct with hk | hd
  · simp [hk]
  · simp [hcongr, hd]

section Unjoined

variable {c : Call} {s : State} {sp : CmdSpec}

/-- On an engine outside the view a command waits for no view. -/
theorem Call.awaits_unjoined (hj : s.joined c.eng = false) : c.awaits s sp = false := by
  simp [Call.awaits, hj]

/-- The first check of R93 on an engine outside the view is that it has not joined. -/
theorem guarded_notJoined (hd : c.direct s = false) (hj : s.joined c.eng = false) (hst : (s.eng c.eng).member.state ≠ 5)
    (k : State × Result) : guarded c s sp k = (s, .done .notJoined 0xFFFF []) := by
  simp [guarded, Call.awaits_unjoined hj, checkCommand, hd, hst, hj]

/-- In NO_QUORUM the first check of R93 stops every command but the three that always run (R311). -/
theorem guarded_noQuorum (hd : c.direct s = false) (hj : s.joined c.eng = false) (hst : (s.eng c.eng).member.state = 5)
    (hop : alwaysRuns c.op = false) (k : State × Result) : guarded c s sp k = (s, .done .noQuorum 0xFFFF []) := by
  simp [guarded, Call.awaits_unjoined hj, checkCommand, hd, hst, hop]

end Unjoined

/-- Settles O25: every row's command runs the checks of R93 first, whose first refuses it on the state of its acceptance. -/
theorem unjoinedEnginesRefuse : Obligations.UnjoinedEnginesRefuse := by
  intro r hr m s k p hs hj hreshape
  have hop : (mbxCall m r.1 k p s).op = r.1 := mbxCall_op m k p s (mailboxRows_submit r hr).1
  have hd := hs.call_not_direct
  have hj' : (s.accepted r.1 m k p).joined (mbxCall m r.1 k p s).eng = false := (State.accepted_joined ..).trans hj
  have hmember : ((s.accepted r.1 m k p).eng (mbxCall m r.1 k p s).eng).member = (s.eng m.eng).member :=
    State.accepted_member ..
  obtain ⟨sp, body, hrun⟩ := runCommand_guarded (s := s.accepted r.1 m k p) hr hop hreshape
  rw [exec_mailboxRow hr hs, hrun]
  constructor
  · intro hst
    rw [guarded_notJoined hd hj' (hmember ▸ hst)]
  · intro hst hnot
    have halways : alwaysRuns (mbxCall m r.1 k p s).op = false := by
      rw [hop]
      simpa [alwaysRuns, not_or, and_assoc] using hnot
    rw [guarded_noQuorum hd hj' (hmember ▸ hst) halways]

/-! ### The end of a mailbox command (R82, R87, R97, R105, R318) -/

section MailboxCompletion

variable {s : State} {e : EngId} {k : MbxKey} {j : Job} {rsp : List Byte}

/-- On an engine that serves, MAILBOX_COMPLETION gives an accepted command its effect of that moment, posts it, tries again what
waited behind it and starts what may start. -/
theorem exec_mailboxCompletion_job (hp : (s.eng e).powered = true) (hf : (s.eng e).fenced = false)
    (hj : (s.mailbox e k).job = some j) : exec (.mailboxCompletion e k) s =
      .next ((((s.atCompletion e k).completeMailbox e k).retryJobs j.part).startJobs e 65) := by
  show execMailboxCompletion e k s = _
  simp [execMailboxCompletion, hp, hf, hj]

/-- A finished command has no effect left for its completion. -/
theorem State.atCompletion_ready (hj : (s.mailbox e k).job = some j) (hr : j.phase = .ready rsp) : s.atCompletion e k = s := by
  simp [State.atCompletion, hj, Job.waitsFor, hr]

/-- A command that waits for the view fills the shelf structure as it completes (R97). -/
theorem State.atCompletion_view (hj : (s.mailbox e k).job = some j) (hw : j.phase = .waiting .view) :
    s.atCompletion e k = (writeBuffer (j.call e k) s (s.shelfStruct e) []).1.modMailbox e k (fun m =>
      { m with job := m.job.map (fun i => i.after (writeBuffer (j.call e k) s (s.shelfStruct e) []).2) }) := by
  simp [State.atCompletion, hj, Job.waitsFor, hw]

/-- A TIME_SET takes effect as it completes, carried forward from its acceptance (R318). -/
theorem State.atCompletion_timeSet (hj : (s.mailbox e k).job = some j) (hw : j.phase = .waiting .timeSet) :
    s.atCompletion e k = (s.timeSet (field j.cmd 8 8 + (s.now - j.since)) (field j.cmd 16 4)).modMailbox e k (fun m =>
      { m with job := m.job.map (fun i => i.after (.ok [])) }) := by
  simp [State.atCompletion, hj, Job.waitsFor, hw]

/-- Posting a finished command writes its response and the ERRORS log, and then answers on the path that the command came by. -/
theorem State.completeMailbox_ready (hj : (s.mailbox e k).job = some j) (hr : j.phase = .ready rsp) :
    s.completeMailbox e k =
      let t := (s.modMailbox e k (fun m => { m with rsp := rsp, job := none, done := true, seq := m.seq + 1 })).errorLog e
        (mbxPart k) rsp
      match k with
      | some p => t.signal e p 1 1 0
      | none => if j.lost then t else t.send (.redfishMailbox e rsp) := by
  obtain ⟨⟩ := j
  subst hr
  rw [State.completeMailbox, hj]
  cases k <;> rfl

/-- FIRMWARE_HANG drops the command of an engine that runs and detects FW_HANG on the hung engine (R105; log 159). -/
theorem exec_firmwareHang_running (hj : (s.mailbox e k).job.isSome = true) (hr : (s.eng e).runs = true) :
    exec (.firmwareHang e k) s =
      .next (((s.modMailbox e k (fun m => { m with job := none })).modEng e (fun x => { x with hung := true })).mgmtFault e 0) := by
  show execFirmwareHang e k s = _
  simp [execFirmwareHang, hj, hr]

end MailboxCompletion

/-- Settles O20: a command that ends is posted after the effect that its wait leaves to this moment. -/
theorem mailboxEvents : Obligations.MailboxEvents := by
  refine ⟨fun s e p j rsp hp hf hj hr => ?_, fun s e j rsp hp hf hj hr => ?_, fun s e k j hp hf hj hw => ?_,
    fun s e k hj hr => exec_firmwareHang_running hj hr⟩
  · rw [exec_mailboxCompletion_job hp hf hj, State.atCompletion_ready hj hr, State.completeMailbox_ready hj hr]
    rfl
  · rw [exec_mailboxCompletion_job hp hf hj, State.atCompletion_ready hj hr, State.completeMailbox_ready hj hr]
  · rw [exec_mailboxCompletion_job hp hf hj]
    rcases hw with hview | htime
    · rw [State.atCompletion_view hj hview, if_pos hview]
    · rw [State.atCompletion_timeSet hj htime, if_neg (by simp [htime])]

/-! ### Accesses of a window (R32, R36, R37, R62, R65) -/

section WindowAccess

variable {s : State} {src : WinSrc}

/-- An access on a path that does not reach the window does nothing, whatever its kind. -/
theorem State.access_unreached (h : s.reachesWindow src.eng src.part src.path = false) (v : Nat) (f : State → State) :
    s.access src v f = s := by
  simp [State.access, State.otherAccess, h]

/-- An access of the window's memory has its effect once it has touched the engine. -/
theorem State.access_memory (hv : src.via = .memory) (h : s.reachesWindow src.eng src.part src.path = true) (v : Nat)
    (f : State → State) : s.access src v f = f (s.touch src.eng) := by
  simp [State.access, hv, h]

/-- A request of another kind has the effect of its kind. -/
theorem State.access_other (hv : src.via ≠ .memory) (v : Nat) (f : State → State) :
    s.access src v f = s.otherAccess src v := by
  simp [State.access, hv]

/-- An atomic operation at an A-port gets a NAK (R32). -/
theorem State.otherAccess_atomic {n : Nat} (hv : src.via = .atomic) (hp : src.path = .aport n)
    (h : s.reachesWindow src.eng src.part src.path = true) (v : Nat) :
    s.otherAccess src v = s.send (.nak src.eng n) := by
  rw [hp] at h
  simp [State.otherAccess, hv, hp, h]

/-- A request that carries a PASID completes as unsupported, which AER reports (R36; log 149). -/
theorem State.otherAccess_pasid {i : Fin 2} (hv : src.via = .pasid) (hp : src.path = .pport i)
    (h : s.reachesWindow src.eng src.part src.path = true) (v : Nat) : s.otherAccess src v =
      (s.send (.unsupported src.eng i.val src.part)).aerError src.eng i src.part 0x00100000#32 := by
  rw [hp] at h
  simp [State.otherAccess, hv, hp, h]

/-- A configuration write reaches its function's registers (R37). -/
theorem State.otherAccess_config {i : Fin 2} {reg : CfgReg} (hv : src.via = .config reg) (hp : src.path = .pport i)
    (h : s.reachesWindow src.eng src.part src.path = true) (v : Nat) : s.otherAccess src v =
      s.modEng src.eng (fun x => x.modFunc i src.part (fun f => f.write reg v)) := by
  rw [hp] at h
  simp [State.otherAccess, hv, hp, h]

theorem exec_registerWrite (off : Nat) (data : List Byte) : exec (.registerWrite src off data) s =
    .next (s.access src (leNat data) (fun s => s.writeWindow src.eng src.part src.path off data.length data)) := rfl

end WindowAccess

/-- The bytes of a number give back what of it they hold (R6). -/
theorem leNat_natLe (n x : Nat) : leNat (natLe n x) = x % 2 ^ (8 * n) := by
  induction n generalizing x with
  | zero => simp [natLe, leNat, Nat.mod_one]
  | succ n ih =>
    have hpow : 2 ^ (8 * (n + 1)) = 256 * 2 ^ (8 * n) := by rw [Nat.mul_succ, Nat.pow_add, Nat.mul_comm]
    rw [natLe, leNat, ih, hpow, Nat.mod_mul, BitVec.toNat_ofNat]

/-- Bytes that are exactly one register write that register (R7, R111). -/
theorem State.writeWindow_register {off w : Nat} (hreg : regAt off = (off, w + 1)) (s : State) (e : EngId) (p : PartId)
    (path : Path) (v : Nat) :
    s.writeWindow e p path off (natLe (w + 1) v).length (natLe (w + 1) v) =
      s.writeReg e p path off (w + 1) (v % 2 ^ (8 * (w + 1))) := by
  have hlen : (natLe (w + 1) v).length = w + 1 := length_natLe _ _
  have hne : (natLe (w + 1) v).isEmpty = false := rfl
  have htake : (natLe (w + 1) v).take (w + 1) = natLe (w + 1) v := List.take_of_length_le hlen.le
  have hdrop : (natLe (w + 1) v).drop (w + 1) = [] := List.drop_of_length_le hlen.le
  rw [hlen, State.writeWindow, hne]
  simp only [hreg, hlen, htake, hdrop, leNat_natLe, le_refl, decide_true, Bool.and_self, if_true, Bool.false_eq_true, if_false]
  cases w <;> rfl

section DbFlag

variable {n : Nat} (hn : n < 64)
include hn

/-- A DB_FLAG word is one 64-bit register. -/
theorem regAt_dbFlag : regAt (0x800 + 8 * n) = (0x800 + 8 * n, 8) := by
  have hbase : (0x800 + 8 * n) / 8 * 8 = 0x800 + 8 * n := by omega
  have hwide : wide (0x800 + 8 * n) = true := by
    have hin : 0x800 ≤ 0x800 + 8 * n ∧ 0x800 + 8 * n < 0xA00 := by omega
    simp [wide, hin]
  rw [regAt, hbase, hwide, if_pos rfl]

theorem State.listed_dbFlag (s : State) (p : PartId) : s.listed p (0x800 + 8 * n) = true := by
  have hlow : 0x800 + 8 * n < 0x1000 := by omega
  have hin : 0x800 + 8 * n < 0xA00 := by omega
  simp [State.listed, hlow, hin]

/-- A write of a DB_FLAG word stores it and leaves the other words. -/
theorem Window.write_dbFlag (x : Window) (v : Nat) : x.write (0x800 + 8 * n) (v % 2 ^ 64) =
    { x with dbFlag := Vector.ofFn (fun i => if i.val = n then BitVec.ofNat 64 v else x.dbFlag[i]) } := by
  have hlow : 0x800 + 8 * n < 0x1000 := by omega
  have hvalue : BitVec.ofNat 64 (v % 2 ^ 64) = BitVec.ofNat 64 v := by
    apply BitVec.eq_of_toNat_eq
    simp only [BitVec.toNat_ofNat, Nat.mod_mod]
  have hset : x.dbFlag.set n (BitVec.ofNat 64 v) hn =
      Vector.ofFn (fun i => if i.val = n then BitVec.ofNat 64 v else x.dbFlag[i]) := by
    ext i hi
    simp [Vector.getElem_set, eq_comm]
  rw [← hset, ← hvalue]
  simp [Window.write, hlow, Nat.mod_eq_of_lt hn]

theorem State.writeReg_dbFlag (s : State) (e : EngId) (p : PartId) (path : Path) (v : Nat) :
    s.writeReg e p path (0x800 + 8 * n) 8 (v % 2 ^ 64) = s.modWin e p (fun w =>
      { w with dbFlag := Vector.ofFn (fun i => if i.val = n then BitVec.ofNat 64 v else w.dbFlag[i]) }) := by
  have hdoorbell : 0x800 + 8 * n ≠ 0x1080 := by omega
  have hlow : 0x800 + 8 * n < streamBase := by unfold streamBase; omega
  simp only [State.writeReg, State.listed_dbFlag hn, hdoorbell, hlow, Bool.not_true, Bool.false_eq_true, if_false, if_true,
    Window.write_dbFlag hn]

end DbFlag

/-- An access of a window leaves the window as it was. -/
theorem State.win_touch (s : State) (e : EngId) (p : PartId) : (s.touch e).win e p = s.win e p := by
  unfold State.touch State.wake
  split
  · rfl
  · simp [State.win, Engine.wake]

/-- What an update makes of the ring in force is all that matters of it. -/
theorem State.modRing_congr {s : State} {e : EngId} {p : PartId} {f g : Ring → Ring}
    (h : f (s.win e p).ints.ring = g (s.win e p).ints.ring) : s.modRing e p f = s.modRing e p g := by
  show s.setEng e ((s.eng e).setWin p
    { s.win e p with ints := { (s.win e p).ints with ring := f (s.win e p).ints.ring } }) = _
  rw [h]
  rfl

/-- EVR_EN going from 0 to 1 enables the ring (R65). -/
theorem exec_evrEnable_starts {s : State} {src : WinSrc} (hv : src.via = .memory)
    (h : s.reachesWindow src.eng src.part src.path = true) (hen : (s.win src.eng src.part).ints.ring.en = false) :
    exec (.evrEnable src) s = .next ((s.touch src.eng).modRing src.eng src.part Ring.enable) := by
  show execEvrEnable src s = _
  rw [execEvrEnable, State.access_memory hv h, State.modRing_congr (g := Ring.enable)]
  rw [State.win_touch]
  simp [Ring.setEn, hen]

/-- Settles O37: each access acts as its kind and its register say. -/
theorem windowAccesses : Obligations.WindowAccesses := by
  refine ⟨fun src s off v hv h hl hreg => ?_, fun src s off data h => ?_, fun src s n v hv h hn => ?_,
    fun src s hv h hen => exec_evrEnable_starts hv h hen, fun src s off data n hv hp h => ?_, fun src s off data i hv hp h => ?_,
    fun src s off data i reg hv hp h => ?_⟩
  · rw [exec_registerWrite, State.access_memory hv h, State.writeWindow_register hreg]
  · rw [exec_registerWrite, State.access_unreached h]
  · rw [exec_registerWrite, State.access_memory hv h, State.writeWindow_register (regAt_dbFlag hn), State.writeReg_dbFlag hn]
  · rw [exec_registerWrite, State.access_other (by simp [hv]), State.otherAccess_atomic hv hp h]
  · rw [exec_registerWrite, State.access_other (by simp [hv]), State.otherAccess_pasid hv hp h]
  · rw [exec_registerWrite, State.access_other (by simp [hv]), State.otherAccess_config hv hp h]
    rfl

/-! ### Resets of a partition, and the tick of its pools (R37, R66, R68, R70, R77) -/

/-- FUNCTION_LEVEL_RESET puts the function's registers back but for its error status, and a CANCEL reset starts (R37; log 134). -/
theorem exec_functionLevelReset_served {s : State} {e : EngId} {p : PartId} (hw : s.hasWindow e p = true)
    (hs : s.serves e = true) (port : Fin 2) : exec (.functionLevelReset e port p) s =
      .next ((s.modEng e (fun x => x.modFunc port p (fun f =>
        { Func.reset with aerUnc := f.aerUnc, aerCor := f.aerCor }))).startReset p e true false) := by
  show execFunctionLevelReset e port p s = _
  simp [execFunctionLevelReset, hw, hs]

section ResetDone

variable {s : State} {p : PartId} {r : PartReset}

theorem exec_resetDone_early (h : (s.part p).resetting = none ∨ s.resetDue p = false) :
    exec (.resetDone p) s = .next s := by
  show execResetDone p s = _
  cases hr : (s.part p).resetting with
  | none => simp [execResetDone, hr]
  | some r =>
    have hdue : s.resetDue p = false := h.resolve_left (by simp [hr])
    simp [execResetDone, hr, hdue]

/-- A reset that is due finishes, and the deletion or the next reset that waits behind it follows (R68, R76, R77). -/
theorem exec_resetDone_due (hr : (s.part p).resetting = some r) (hd : s.resetDue p = true) : exec (.resetDone p) s =
    .next (if r.delete then ((s.finishReset p r).deletePartition p).answerJobs (fun j =>
        j.waitsFor .resetDone && j.op = 0x31 && field j.cmd 8 1 = p.val) .ok []
      else if r.next then (s.finishReset p r).startReset p r.eng true true else s.finishReset p r) := by
  show execResetDone p s = _
  simp [execResetDone, hr, hd]

end ResetDone

theorem exec_qosTick_due {s : State} {e : EngId} (hj : s.joined e = true) (ht : (s.eng e).tickAt ≤ (s.time e).toNat / 10000) :
    exec (.qosTick e) s = .next (((List.finRange 4).foldl (fun s i => s.tickPool e i) s).modEng e (fun x =>
      { x with tickAt := (s.time e).toNat / 10000 + 1 })) := by
  show execQosTick e s = _
  simp [execQosTick, hj, ht]

/-! ### A cancel leaves the reset's own record alone (R66) -/

/-- A fold whose steps keep a field keeps it. -/
theorem foldl_field {α β γ : Type} (g : β → γ) {f : β → α → β} (h : ∀ b a, g (f b a) = g b) (l : List α) (b : β) :
    g (l.foldl f b) = g b :=
  List.foldlRecOn l f (motive := fun x => g x = g b) rfl fun x hx a _ => (h x a).trans hx

theorem State.putPool_parts (s : State) (e : EngId) (a : Nat) (v : Byte) : (s.putPool e a v).parts = s.parts := by
  unfold State.putPool
  split <;> rfl

/-- A byte of a placement is stored in an engine's pool. -/
theorem State.putPlace_parts (s : State) (pl : Placement) (e : EngId) (a : Nat) (v : Byte) :
    (s.putPlace pl e a v).parts = s.parts := by
  unfold State.putPlace
  split
  · rfl
  · exact State.putPool_parts ..

/-- Parity is stored in the engines' pools. -/
theorem State.bumpParity_parts (s : State) (t : Tensor) (pl : Placement) (k j : Nat) (d : Byte) :
    (s.bumpParity t pl k j d).parts = s.parts := by
  refine foldl_field State.parts (fun u i => ?_) _ s
  dsimp only
  split
  · exact State.putPlace_parts ..
  · rfl

/-- Tensor bytes are stored in the engines' pools. -/
theorem State.putStripeByte_parts (s : State) (t : Tensor) (k j : Nat) (v : Byte) :
    (s.putStripeByte t k j v).parts = s.parts := by
  unfold State.putStripeByte
  dsimp only
  split
  · rw [State.bumpParity_parts, State.putPlace_parts]
  · rfl

theorem State.putTensor_parts (t : Tensor) (bs : List Byte) :
    ∀ (s : State) (off : Nat), (s.putTensor t off bs).parts = s.parts := by
  induction bs with
  | nil => intro s off; rfl
  | cons b bs ih =>
    intro s off
    rw [State.putTensor, ih, State.putStripeByte_parts]

theorem State.writeTensor_parts (s : State) (p : PartId) (t : Tensor) (off : Nat) (data : List Byte) :
    (s.writeTensor p t off data).parts = s.parts := by
  have hput : (s.putTensor t off data).parts = s.parts := State.putTensor_parts ..
  unfold State.writeTensor
  dsimp only
  split
  · exact (foldl_field State.parts (fun u w => State.putTensor_parts ..) _ _).trans hput
  · exact hput

/-- What a cancelled command leaves of itself does not touch the reset of its partition (Table 3-7). -/
theorem State.stopSlot_resetting (s : State) (p : PartId) (q : Slot) :
    ((s.stopSlot p q).1.part p).resetting = (s.part p).resetting := by
  have hwrite (t : Tensor) (off : Nat) (data : List Byte) : (s.writeTensor p t off data).part p = s.part p := by
    rw [State.part, State.writeTensor_parts]
    rfl
  unfold State.stopSlot
  dsimp only
  split
  · rfl
  · split
    · split
      · rw [hwrite]
      · rfl
    · split
      · rfl
      · rw [State.part_modPart]
    · rfl

theorem State.cancelStream_resetting (s : State) (a : StreamAt) (qs : List Slot) :
    ((s.cancelStream a qs).part a.part).resetting = (s.part a.part).resetting := by
  refine foldl_field (fun u : State => (u.part a.part).resetting) (fun u q => ?_) _ s
  dsimp only
  split
  · rfl
  · exact State.stopSlot_resetting ..

theorem State.cancelWindow_resetting (s : State) (p : PartId) (e : EngId) :
    ((s.cancelWindow p e).part p).resetting = (s.part p).resetting := by
  have hstream (u : State) (x : Nat × Stream) :
      ((u.cancelStream { eng := e, part := p, stream := x.1 } x.2.queue).part p).resetting = (u.part p).resetting :=
    State.cancelStream_resetting u _ _
  unfold State.cancelWindow
  dsimp only
  rw [foldl_field (fun u : State => (u.part p).resetting) hstream]
  rfl

theorem State.cancelAll_resetting (s : State) (p : PartId) : ((s.cancelAll p).part p).resetting = (s.part p).resetting :=
  foldl_field (fun u : State => (u.part p).resetting) (fun u e => State.cancelWindow_resetting u p e) _ _

/-- A CANCEL that merges into a reset in progress makes it a CANCEL (R66). -/
theorem State.startReset_merges {s : State} {p : PartId} {r : PartReset} (hr : (s.part p).resetting = some r) (e : EngId) :
    ((s.startReset p e true false).part p).resetting = some { r with cancel := true } := by
  simp [State.startReset, hr, State.cancelAll_resetting]

/-- Settles O40: a due reset ends as what waits behind it asks, and a merged one keeps its record through the CANCEL. -/
theorem partitionResets : Obligations.PartitionResets := by
  refine ⟨⟨fun s e port p hw hs => exec_functionLevelReset_served hw hs port, fun s p r hr hd hdel hnext => ?_,
    fun s p r hr hd hdel => ?_, fun s p r hr hd hdel hnext => ?_, fun s p h => exec_resetDone_early h,
    fun s e hj ht => exec_qosTick_due hj ht⟩, fun s e port p r hw hs hr => ?_⟩
  · simp [exec_resetDone_due hr hd, hdel, hnext]
  · simp [exec_resetDone_due hr hd, hdel]
  · simp [exec_resetDone_due hr hd, hdel, hnext]
  · refine ⟨_, exec_functionLevelReset_served hw hs port, State.startReset_merges ?_ e⟩
    rwa [State.part_modEng]

/-! ### Shelf time (R44, R307, R308, R309, R310) -/

section TaiEdge

variable {s : State}

/-- What every edge does to the powered engines: a step that is due is taken, and the keeper's counter follows (R307). -/
def State.edgeTaken (s : State) : State :=
  s.modEngines 0xFFFF (fun _ x => if x.powered then
    { x with clock := x.clock.takeStep, keeper := { x.keeper with rtc := x.clock.takeStep.now.toNat } } else x)

/-- PTP in use sets time of day (R308). -/
def State.dayMarked (s : State) : State :=
  { s with timeSrc := { s.timeSrc with todSet := s.timeSrc.todSet || s.timeSrc.row = 0 } }

theorem exec_taiEdge_scmUp (hp : s.plant.powered = true) (hs : s.scmUp = true) (tai : DWord) : exec (.taiEdge tai) s =
    .next (s.edgeTaken.dayMarked.steerAll (s.edgeTaken.dayMarked.edgeTime tai) false).noteCalm := by
  show execTaiEdge tai s = _
  simp only [execTaiEdge, hp, hs, Bool.not_true, Bool.false_eq_true, if_false]
  rfl

theorem exec_taiEdge_scmDown (hp : s.plant.powered = true) (hs : s.scmUp = false) (tai : DWord) :
    exec (.taiEdge tai) s = .next s.edgeTaken.steerToMedian.noteCalm := by
  show execTaiEdge tai s = _
  simp only [execTaiEdge, hp, hs, Bool.not_true, Bool.not_false, Bool.false_eq_true, if_false, if_true]
  rfl

end TaiEdge

section TimeSourceLock

variable {s : State}

/-- The input that locks is present. -/
def TimeSrc.locks (t : TimeSrc) (src : TimeInput) : TimeSrc :=
  match src with
  | .ptp => { t with ptp := true }
  | .pps => { t with pps := true }
  | .tenMhz => { t with ten := true }

/-- The shelf once an input has locked and the source in use has been selected anew. -/
def State.locked (s : State) (src : TimeInput) : State := ({ s with timeSrc := s.timeSrc.locks src }).selectSource

theorem exec_timeSourceLock (src : TimeInput) (tai : DWord) : exec (.timeSourceLock src tai) s =
    .next ((if (decide ((s.locked src).timeSrc.row ≠ s.timeSrc.row) && decide ((s.locked src).timeSrc.row ≤ 1)) = true then
      (s.locked src).dayMarked.steerAll ((s.locked src).dayMarked.edgeTime tai) true else s.locked src).noteCalm) := by
  cases src <;> rfl

/-- A lock that changes to no source of phase or time of day moves no counter. -/
theorem exec_timeSourceLock_keeps {src : TimeInput}
    (h : (s.locked src).timeSrc.row = s.timeSrc.row ∨ 1 < (s.locked src).timeSrc.row) (tai : DWord) :
    exec (.timeSourceLock src tai) s = .next (s.locked src).noteCalm := by
  have hno : (decide ((s.locked src).timeSrc.row ≠ s.timeSrc.row) && decide ((s.locked src).timeSrc.row ≤ 1)) = false := by
    rcases h with heq | hgt
    · simp [heq]
    · simp [hgt]
  rw [exec_timeSourceLock, hno]
  rfl

theorem exec_timeSourceLock_steers {src : TimeInput} (hne : (s.locked src).timeSrc.row ≠ s.timeSrc.row)
    (hle : (s.locked src).timeSrc.row ≤ 1) (tai : DWord) : exec (.timeSourceLock src tai) s =
    .next ((s.locked src).dayMarked.steerAll ((s.locked src).dayMarked.edgeTime tai) true).noteCalm := by
  rw [exec_timeSourceLock, decide_eq_true hne, decide_eq_true hle]
  rfl

end TimeSourceLock

section TimeSuspect

variable {s : State} {e : EngId}

theorem exec_timeSuspectSet_above (hp : (s.eng e).powered = true) (hc : (s.eng e).clock.suspect = false)
    (hk : 50000 < s.skew e) :
    let t := s.modEng e (fun x => { x with clock := { x.clock with suspect := true, calmSince := none } })
    exec (.timeSuspectSet e) s = .next (if s.joined e then t.memberEvent 8 e.val 0 else t) := by
  show execTimeSuspectSet e s = _
  simp [execTimeSuspectSet, hp, hc, hk]

theorem exec_timeSuspectClear_calm {c : Nat} (hp : (s.eng e).powered = true) (hc : (s.eng e).clock.suspect = true)
    (hd : s.timeSrc.todSet = true) (hk : s.skew e ≤ 25000) (hs : (s.eng e).clock.calmSince = some c)
    (ht : c + 1000000000 ≤ s.now) :
    let t := s.modEng e (fun x => { x with clock := { x.clock with suspect := false } })
    exec (.timeSuspectClear e) s = .next (if s.joined e then t.memberEvent 9 e.val 0 else t) := by
  show execTimeSuspectClear e s = _
  have hcalm : (s.eng e).clock.calmSince.any (fun t => t + 1000000000 ≤ s.now) = true := by
    rwa [hs, Option.any_some, decide_eq_true_eq]
  simp only [execTimeSuspectClear, hp, hc, hd, hk, hcalm, decide_true, Bool.and_self, if_true]

theorem exec_timeLeave_far (hj : s.joined e = true) (ho : 5000000 < (s.offset e).natAbs) :
    exec (.timeLeave e) s = .next (s.leave e 4 3) := by
  show execTimeLeave e s = _
  simp [execTimeLeave, hj, ho]

end TimeSuspect

section PpsPulse

variable {s : State} {width : Nat}

theorem exec_ppsPulse_steers (hw : 50 ≤ width) (hp : s.timeSrc.pps = true) (hr : s.timeSrc.row = 1) (tai : DWord) :
    exec (.ppsPulse width tai) s = .next (s.steerAll (s.edgeTime tai) false).noteCalm := by
  show execPpsPulse width tai s = _
  simp [execPpsPulse, hw.not_gt, hp, hr]

theorem exec_ppsPulse_short (hw : width < 50) (tai : DWord) : exec (.ppsPulse width tai) s = .next s := by
  show execPpsPulse width tai s = _
  simp [execPpsPulse, hw]

end PpsPulse

/-- Settles O51: each clause is the branch of its row that the clause's conditions select. -/
theorem timeEvents : Obligations.TimeEvents :=
  ⟨fun _ tai hp hs => exec_taiEdge_scmUp hp hs tai,
   fun _ tai hp hs => exec_taiEdge_scmDown hp hs tai,
   fun _ _ => rfl,
   fun _ => ⟨rfl, rfl, rfl⟩,
   fun _ _ tai => ⟨fun h => exec_timeSourceLock_keeps h tai, fun hne hle => exec_timeSourceLock_steers hne hle tai⟩,
   fun _ _ hp hc hk => exec_timeSuspectSet_above hp hc hk,
   fun _ _ _ hp hc hd hk hs ht => exec_timeSuspectClear_calm hp hc hd hk hs ht,
   fun _ _ hj ho => exec_timeLeave_far hj ho,
   fun _ _ tai hw hp hr => exec_ppsPulse_steers hw hp hr tai,
   fun _ _ tai hw => exec_ppsPulse_short hw tai⟩

/-! ### Low states, sensors, the cap and clock levels (R131, R373, R376, R377, R378, R380) -/

section PowerState

variable {s : State} {e : EngId}

theorem exec_idleTimerExpiry_lowers {since : Nat} (hj : s.joined e = true) (hr : (s.eng e).runs = true) (hi : s.idle e = true)
    (hx : (s.eng e).power.exitDue = none) (hs : (s.eng e).power.idleSince = some since)
    (hl : (s.eng e).power.state < idleState (s.eng e).power.inForce (s.now - since)) :
    exec (.idleTimerExpiry e) s = .next (s.modEng e (fun x =>
      { x with power := { x.power with state := idleState (s.eng e).power.inForce (s.now - since) } })) := by
  show execIdleTimerExpiry e s = _
  simp [execIdleTimerExpiry, hj, hr, hi, hx, hs, hl]

theorem exec_powerExit_wakes (hp : (s.eng e).powered = true) (hl : (s.eng e).power.low = true) :
    exec (.powerExit e) s = .next (s.wake e) := by
  show execPowerExit e s = _
  simp [execPowerExit, hp, hl]

/-- Once the exit is due the engine is in E0, and what waited for it starts (R131, R377). -/
theorem exec_powerExitComplete_due {t : Nat} (hl : (s.eng e).power.low = true) (hx : (s.eng e).power.exitDue = some t)
    (ht : t ≤ s.now) :
    let u := (s.modEng e (fun x =>
      { x with power := { x.power with state := 0, exitDue := none, idleSince := none } })).startJobs e 65
    let v := u.powerWaits.foldl (fun s q => s.tryStream q.1 q.2 { store := false, host := none }) u
    exec (.powerExitComplete e) s = .next (((List.finRange 64).foldl (fun s p => s.lockNmx e p) v).grantLanes e) := by
  have hdue : (s.eng e).power.exitDue.any (fun t => t ≤ s.now) = true := by rwa [hx, Option.any_some, decide_eq_true_eq]
  show execPowerExitComplete e s = _
  rw [execPowerExitComplete, hl, hdue, Bool.and_self, if_pos rfl]

theorem exec_sensorSample_powered (hp : (s.eng e).powered = true) (temps : List (Option Int)) (meters : Meters) :
    exec (.sensorSample e temps meters) s = .next (((s.modEng e (fun x =>
      { x with power := { x.power with draw := meters.draw } })).sampleSensors e 0 temps).sampleCell e meters.cell) := by
  show execSensorSample e temps meters s = _
  rw [execSensorSample, if_pos hp]

theorem exec_clockLevelChange_changes (hp : (s.eng e).powered = true) (hl : (s.eng e).power.level ≠ s.levelWanted e) :
    exec (.clockLevelChange e) s = .next (s.modEng e (fun x =>
      { x with power := { x.power with level := s.levelWanted e, levelAt := x.clock.now },
               logs := { x.logs with thermalGen := x.logs.thermalGen + 1 } })) := by
  show execClockLevelChange e s = _
  rw [execClockLevelChange, hp, decide_eq_true hl, Bool.and_self, if_pos rfl]

end PowerState

section CapEvaluate

variable {s : State} {watts : Nat}

/-- With an SCM up and an engine joined, the average is compared with the cap (R380, R381). -/
theorem exec_capEvaluate_up (hp : s.plant.powered = true) (hs : s.scmUp = true) (hj : s.joinedMask ≠ 0) (watts : Nat) :
    exec (.capEvaluate watts) s =
      .next (if s.powerCap = 0 then s.setCap { s.cap.measure watts with level := 0, unmet := false }
        else if s.powerCap < watts then
          if (s.cap.measure watts).level < 4 then s.setCap { s.cap.measure watts with
            level := (s.cap.measure watts).level + 1, lastAverage := some ((s.cap.measure watts).level + 1, watts) }
          else (s.setCap { s.cap.measure watts with unmet := true }).send .capUnmet
        else s.setCap { s.cap.measure watts with
          unmet := false,
          level := if (s.cap.measure watts).level ≠ 0 && (s.cap.measure watts).mayRise watts s.powerCap then
            (s.cap.measure watts).level - 1 else (s.cap.measure watts).level }) := by
  show execCapEvaluate watts s = _
  simp only [execCapEvaluate, hp, hs, hj, Bool.not_true, decide_false, Bool.or_self, Bool.false_eq_true, if_false]

end CapEvaluate

theorem hasEngine_all (e : EngId) : hasEngine 0xFFFF e = true := by
  revert e
  decide

theorem State.setCap_cap (s : State) (c : PowerCap) : (s.setCap c).cap = c := by
  unfold State.setCap
  dsimp only
  split <;> rfl

/-- The THERMAL page of an engine that is powered counts a change of the level or of CAP_UNMET; nothing else counts it up (R98). -/
theorem State.setCap_thermalGen (s : State) (c : PowerCap) (e : EngId) :
    (((s.setCap c).eng e).logs.thermalGen = (s.eng e).logs.thermalGen) ∨
      ((s.eng e).powered = true ∧ ((s.setCap c).eng e).logs.thermalGen = (s.eng e).logs.thermalGen + 1 ∧
        (c.level ≠ s.cap.level ∨ c.unmet ≠ s.cap.unmet)) := by
  unfold State.setCap
  dsimp only
  split
  case isTrue => exact .inl rfl
  case isFalse hchange =>
    have hor : c.level ≠ s.cap.level ∨ c.unmet ≠ s.cap.unmet := by
      simpa only [Bool.and_eq_true, decide_eq_true_eq, not_and_or] using hchange
    have heng : ({ s with cap := c } : State).eng e = s.eng e := rfl
    rw [State.eng_modEngines, hasEngine_all, if_pos rfl, heng]
    cases hp : (s.eng e).powered with
    | false => exact .inl rfl
    | true => exact .inr ⟨rfl, rfl, hor⟩

/-- Settles O56: each clause is the branch of its row that the clause's conditions select. -/
theorem powerEvents : Obligations.PowerEvents := by
  refine ⟨fun s e since hj hr hi hx hs => exec_idleTimerExpiry_lowers hj hr hi hx hs, fun s e hp hl => exec_powerExit_wakes hp hl,
    fun s e t hl hx ht => exec_powerExitComplete_due hl hx ht, fun s e temps draw cell hp => exec_sensorSample_powered hp temps _,
    fun s watts hp hs hj hc => ?_, fun s watts hp hs hj hc hw hl => ?_, fun s watts hp hs hj hc hw hl => ?_,
    fun s watts hp hs hj hc hw => ?_, fun s c => ⟨s.setCap_cap c, s.setCap_thermalGen c⟩,
    fun s e hp hl => exec_clockLevelChange_changes hp hl⟩
  · rw [exec_capEvaluate_up hp hs hj, if_pos hc]
  · rw [exec_capEvaluate_up hp hs hj, if_neg hc, if_pos hw, if_pos hl]
  · rw [exec_capEvaluate_up hp hs hj, if_neg hc, if_pos hw, if_neg hl.not_gt]
  · rw [exec_capEvaluate_up hp hs hj, if_neg hc, if_neg hw.not_gt]

/-! ### The busbar (R46, Table 2-5) -/

section Busbar

variable {s : State} {mv dur : Nat}

/-- What BUSBAR_OVERVOLTAGE shuts the shelf down for: above 63 V, or above 60 V for more than 100 ms (Table 2-5). -/
theorem exec_busbarOvervoltage_shutsDown (hp : s.plant.powered = true) (h : 63000 < mv ∨ (60000 < mv ∧ 100000000 < dur)) :
    exec (.busbarOvervoltage mv dur) s = .next (s.powerOff 1 true) := by
  show execBusbarOvervoltage mv dur s = _
  rw [execBusbarOvervoltage, if_pos]
  simpa only [hp, Bool.true_and, Bool.or_eq_true, Bool.and_eq_true, decide_eq_true_eq] using h

theorem exec_busbarOvervoltage_carried (h : ¬(63000 < mv ∨ (60000 < mv ∧ 100000000 < dur))) :
    exec (.busbarOvervoltage mv dur) s = .next s := by
  show execBusbarOvervoltage mv dur s = _
  rw [execBusbarOvervoltage, if_neg]
  simp only [Bool.or_eq_true, Bool.and_eq_true, decide_eq_true_eq, not_and]
  exact fun _ => h

theorem exec_busbarUndervoltage_recorded (hp : s.plant.powered = true) (hmv : mv < 40000) (h : 38000 ≤ mv ∨ dur ≤ 5000000) :
    exec (.busbarUndervoltage mv dur) s = .next s.busLow := by
  show execBusbarUndervoltage mv dur s = _
  rw [execBusbarUndervoltage, if_neg hmv.not_ge, if_pos, if_pos hp]
  simpa only [Bool.or_eq_true, decide_eq_true_eq] using h

theorem exec_busbarUndervoltage_shutsDown (hp : s.plant.powered = true) (hmv : mv < 38000) (hd : 5000000 < dur) :
    exec (.busbarUndervoltage mv dur) s = .next (s.powerOff 1 false) := by
  have hlow : ¬40000 ≤ mv := by omega
  show execBusbarUndervoltage mv dur s = _
  rw [execBusbarUndervoltage, if_neg hlow, if_neg, if_pos hp]
  simp only [Bool.or_eq_true, decide_eq_true_eq, not_or]
  exact ⟨hmv.not_ge, hd.not_ge⟩

theorem exec_busbarUndervoltage_inRange (hmv : 40000 ≤ mv) : exec (.busbarUndervoltage mv dur) s = .next s := by
  show execBusbarUndervoltage mv dur s = _
  rw [execBusbarUndervoltage, if_pos hmv]

end Busbar

/-! ### Power-on and power-off (R375, R407, R418) -/

section PowerOn

variable {s : State} {mv dur : Nat}

/-- A busbar that has been above 41 V for 2 s powers the shelf up (R46, R407). -/
theorem exec_powerOn_qualified (hp : s.plant.powered = false) (hc : s.plant.busbar = false ∨ s.plant.offCause = 1)
    (hlow : 41000 < mv) (hhigh : mv ≤ 60000) (hd : 2000000000 ≤ dur) (failed : List (EngId × Detection)) :
    exec (.powerOn false mv dur failed) s = .next (s.powerUp failed) := by
  have hcause : (!s.plant.busbar || decide (s.plant.offCause = 1)) = true := by simpa using hc
  show execPowerOn false mv dur failed s = _
  rw [execPowerOn]
  simp only [hp, hcause, hlow, hhigh, hd, decide_true, Bool.and_self, Bool.false_eq_true, if_false, if_true]

/-- Redfish powers the shelf up after an orderly shutdown or a Redfish power-off (R407). -/
theorem exec_powerOn_redfish (hp : s.plant.powered = false) (hb : s.plant.busbar = true) (hc : 2 ≤ s.plant.offCause)
    (hlow : 40000 ≤ mv) (hhigh : mv ≤ 60000) (hs : s.scmUp = true) (failed : List (EngId × Detection)) :
    exec (.powerOn true mv dur failed) s = .next ((s.powerUp failed).send (.redfishAccepted true)) := by
  show execPowerOn true mv dur failed s = _
  rw [execPowerOn]
  simp only [hp, hb, hc, hlow, hhigh, hs, decide_true, Bool.and_self, Bool.false_eq_true, if_false, if_true]

end PowerOn

section PowerOff

variable {s : State}

theorem exec_orderlyShutdown_accepted {grace : Nat} (hp : s.plant.powered = true) (hs : s.scmUp = true)
    (hn : s.shutdown = none) (hg : grace ≤ 3600) : exec (.orderlyShutdown grace) s =
      .next ((({ s with shutdown := some { grace := grace, since := s.now, abandoned := 0 } }).send
        (.redfishAccepted true)).shutdownCheck) := by
  show execOrderlyShutdown grace s = _
  rw [execOrderlyShutdown, if_neg]
  simp [hp, hs, hn, hg]

theorem exec_graceExpiry_due {d : Shutdown} (hd : s.shutdown = some d) (h : d.since + d.grace * 1000000000 ≤ s.now) :
    exec .graceExpiry s = .next s.abandonEpochs.shutdownCheck := by
  show execGraceExpiry s = _
  rw [execGraceExpiry, hd]
  exact congrArg _ (if_pos h)

theorem exec_redfishPowerOff_accepted (hp : s.plant.powered = true) (hs : s.scmUp = true) :
    exec .redfishPowerOff s = .next ((s.powerOff 3 true).send (.redfishAccepted true)) := by
  show execRedfishPowerOff s = _
  rw [execRedfishPowerOff, hp, hs, Bool.and_self, if_pos rfl]

theorem exec_redfishPowerOff_refused (h : ¬(s.plant.powered = true ∧ s.scmUp = true)) :
    exec .redfishPowerOff s = .next (s.send (.redfishAccepted false)) := by
  show execRedfishPowerOff s = _
  rw [execRedfishPowerOff, if_neg]
  rwa [Bool.and_eq_true]

end PowerOff

/-! ### The SCMs (R43, R54, R55) -/

section Scm

variable {s : State}

/-- The SCM that is not the active one. -/
theorem otherScm_eq {a b : Fin 2} (h : b ≠ a) : (if a = 0 then (1 : Fin 2) else 0) = b := by
  revert a b
  decide

theorem exec_scmFailover_standby {a b : Fin 2} (hb : s.plant.busbar = true) (ha : s.plant.activeScm = a) (hne : b ≠ a)
    (hf : s.plant.scm[a] ≠ .failed) :
    let p : Plant := { s.plant with scm := s.plant.scm.set a.val .failed a.isLt,
                                    activeScm := if s.plant.scm[b] = .failed then a else b }
    exec .scmFailover s = .next ({ s with plant := p }).endRedfish.selectSource.scmFaults := by
  subst ha
  obtain rfl := otherScm_eq hne
  show execScmFailover s = _
  rw [execScmFailover, hb, decide_eq_false hf]
  rfl

theorem exec_bothScmFail_onBusbar (hb : s.plant.busbar = true) :
    let p : Plant := { s.plant with scm := Vector.replicate 2 .failed }
    exec .bothScmFail s = .next ({ s with plant := p }).endRedfish.selectSource.scmFaults := by
  show execBothScmFail s = _
  rw [execBothScmFail, if_pos hb]

theorem exec_scmRecovery_startsUp {scm : Fin 2} (hb : s.plant.busbar = true) (hu : s.plant.scm[scm] ≠ .up) :
    let p : Plant := { s.plant with scm := s.plant.scm.set scm.val .up scm.isLt,
                                    activeScm := if s.plant.scm[s.plant.activeScm] = .failed then scm else s.plant.activeScm }
    exec (.scmRecovery scm) s = .next ({ s with plant := p }).selectSource.scmFaults := by
  show execScmRecovery scm s = _
  rw [execScmRecovery, hb, decide_eq_true hu, Bool.and_self, if_pos rfl]

end Scm

/-! ### Engine resets and Locate (R363, R371, R410, R411) -/

section EngineReset

variable {s : State} {e : EngId}

/-- A reset engine leaves for state 4 with reason 0 before it starts again (R363; log 83). -/
theorem exec_engineReset_powered (hp : (s.eng e).powered = true) (failed : List Detection) :
    exec (.engineReset e failed) s = .next ((s.leave e 4 0).resetEngineNow e failed).pruneQueues.kickReshards := by
  show execEngineReset e failed s = _
  rw [execEngineReset, if_pos hp]

theorem exec_provisionalTimeout_due (hp : (s.eng e).powered = true) (hv : (s.eng e).fw.provisional = true)
    (hj : s.joined e = false) (ht : (s.eng e).fw.bootAt + 600000000000 ≤ s.now) :
    let f := (s.eng e).fw
    let o := otherSlot f.run
    exec (.provisionalTimeout e) s = .next (((s.modEng e (fun x => { x with fw := { x.fw with next := o } })).resetEngineNow e
      []).fwJournal e 3 o ((f.info e o).getD
        { major := f.major, minor := f.minor, patch := f.patch, sec := f.sec, time := 0 })) := by
  show execProvisionalTimeout e s = _
  rw [execProvisionalTimeout, hp, hv, hj, decide_eq_true ht]
  rfl

/-- The firmware once slot A holds an image that came over the direct path (R410). -/
def Firmware.rescued (f : Firmware) (image : List Byte) : Firmware := { f with slots := f.slots.set 0 (some image) }

theorem exec_recoveryDownload_boots {image : List Byte} (hp : (s.eng e).powered = true) (hb : (s.eng e).fw.booted = false)
    (hi : (((s.eng e).fw.rescued image).bootable e 0).isSome = true) : exec (.recoveryDownload e image) s =
      .next ((s.modEng e (fun x => { x with fw := (s.eng e).fw.rescued image })).resetEngineNow e []) := by
  have hcond : ((s.eng e).powered && !(s.eng e).fw.booted && (((s.eng e).fw.rescued image).bootable e 0).isSome) = true := by
    rw [hp, hb, hi]
    rfl
  show execRecoveryDownload e image s = _
  rw [execRecoveryDownload]
  exact congrArg _ (if_pos hcond)

theorem exec_locateRequest_powered (hp : (s.eng e).powered = true) :
    exec (.locateRequest e) s = .next (s.modEng e (fun x => { x with locate := true })) := by
  show execLocateRequest e s = _
  rw [execLocateRequest, if_pos hp]

end EngineReset

/-- Settles O57: each clause is the branch of its row that the clause's conditions select. -/
theorem plantEvents : Obligations.PlantEvents :=
  ⟨fun _ _ _ hp h => exec_busbarOvervoltage_shutsDown hp h,
   fun _ _ _ h => exec_busbarOvervoltage_carried h,
   fun _ _ _ hp hmv h => exec_busbarUndervoltage_recorded hp hmv h,
   fun _ _ _ hp hmv hd => exec_busbarUndervoltage_shutsDown hp hmv hd,
   fun _ _ _ hmv => exec_busbarUndervoltage_inRange hmv,
   fun _ _ _ failed hp hc hlow hhigh hd => exec_powerOn_qualified hp hc hlow hhigh hd failed,
   fun _ _ _ failed hp hb hc hlow hhigh hs => exec_powerOn_redfish hp hb hc hlow hhigh hs failed,
   fun _ _ hp hs hn hg => exec_orderlyShutdown_accepted hp hs hn hg,
   fun _ _ hd h => exec_graceExpiry_due hd h,
   fun _ hp hs => exec_redfishPowerOff_accepted hp hs,
   fun _ h => exec_redfishPowerOff_refused h,
   fun _ _ _ hb ha hne hf => exec_scmFailover_standby hb ha hne hf,
   fun _ hb => exec_bothScmFail_onBusbar hb,
   fun _ _ hb hu => exec_scmRecovery_startsUp hb hu,
   fun _ _ failed hp => exec_engineReset_powered hp failed,
   fun _ _ hp hv hj ht => exec_provisionalTimeout_due hp hv hj ht,
   fun _ _ _ hp hb hi => exec_recoveryDownload_boots hp hb hi,
   fun _ _ hp => exec_locateRequest_powered hp⟩

/-! ### The key slots under zeroisation (R390, R392) -/

section KeySlots

variable (s : State) (e : EngId)

@[simp] theorem State.modKeeper_keeper (f : Keeper → Keeper) : ((s.modKeeper e f).eng e).keeper = f (s.eng e).keeper := by
  simp [State.modKeeper]

/-- An update of a keeper that leaves its slots alone. -/
theorem State.slot_modKeeper {f : Keeper → Keeper} (hf : ∀ k, (f k).slots = k.slots) (i : Fin 64) :
    (s.modKeeper e f).slot e i = s.slot e i := by
  rw [State.slot, State.modKeeper_keeper, hf]
  rfl

/-- A slot that is filled holds the new contents under a new generation. -/
theorem State.slot_fillSlot_same (i : Fin 64) (k : KeySlot) :
    (s.fillSlot e i k).slot e i = { k with gen := (s.slot e i).gen + 1 } := by
  simp [State.fillSlot, State.slot]

/-- Filling a slot leaves the other slots alone. -/
theorem State.slot_fillSlot_ne {i j : Fin 64} (h : j ≠ i) (k : KeySlot) : (s.fillSlot e i k).slot e j = s.slot e j := by
  have hv : i.val ≠ j.val := fun hij => h (Fin.ext hij.symm)
  unfold State.fillSlot
  dsimp only
  split
  · simp only [State.slot, State.modKeeper_keeper, Fin.getElem_fin, Vector.getElem_set_ne _ _ hv]
    rfl
  · simp only [State.slot, State.modKeeper_keeper, Fin.getElem_fin, Vector.getElem_set_ne _ _ hv]

/-- A slot without a key: its usage is none and its bytes are gone (R392). -/
def KeySlot.Blank (k : KeySlot) : Prop := k.usage = 0 ∧ k.key = []

theorem State.slot_zeroSlot_same (i : Fin 64) : ((s.zeroSlot e i).slot e i).Blank := by
  unfold State.zeroSlot
  rw [State.slot_fillSlot_same]
  exact ⟨rfl, rfl⟩

/-- Zeroising slots one after the other blanks each of them, and none holds a key again. -/
theorem State.slot_zeroSlots_blank {i : Fin 64} (l : List (Fin 64)) :
    ∀ s : State, (i ∈ l ∨ (s.slot e i).Blank) → ((l.foldl (fun s i => s.zeroSlot e i) s).slot e i).Blank := by
  induction l with
  | nil => exact fun s h => h.resolve_left List.not_mem_nil
  | cons j l ih =>
    intro s h
    refine ih _ ?_
    by_cases hij : i = j
    · subst hij
      exact .inr (State.slot_zeroSlot_same s e i)
    · have hslot : (s.zeroSlot e j).slot e i = s.slot e i := State.slot_fillSlot_ne s e hij _
      exact h.imp (fun hmem => (List.mem_cons.mp hmem).resolve_left hij) (fun hblank => hslot ▸ hblank)

/-- A zeroisation leaves the context-wrap key zero and every slot without a key (R392). -/
theorem State.zeroAll_blank : ((s.zeroAll e).eng e).keeper.wrapKey = 0 ∧ ∀ i : Fin 64, ((s.zeroAll e).slot e i).Blank := by
  unfold State.zeroAll
  refine ⟨by rw [State.modKeeper_keeper], fun i => ?_⟩
  rw [State.slot_modKeeper]
  · exact State.slot_zeroSlots_blank e (List.finRange 64) s (.inl (List.mem_finRange i))
  · exact fun _ => rfl

end KeySlots

/-! ### Tamper detections (R44, R392, R393, R405) -/

section Tamper

variable {s : State} {e : EngId} {src : Fin 8} {dur : Nat}

theorem latchSource_eq_false (h : src ≠ 0 ∧ src ≠ 6) : latchSource src = false := by
  simp [latchSource, h]

/-- The keeper is idle only in a RETIRED engine without power (Table 19-6). -/
theorem Engine.keeper_awake {x : Engine} (h : x.powered = true ∨ x.lifecycle ≠ 3) :
    ¬((!x.powered && decide (x.lifecycle = 3)) = true) := by
  rcases h with hp | hl
  · simp [hp]
  · simp [hl]

/-- A source other than the keeper's loss is detected unless it is a control input that has stood for less than 1 µs (log 154). -/
theorem exec_tamperDetect_detects (hsrc : src ≠ 7) (hlive : (s.eng e).powered = true ∨ (s.eng e).lifecycle ≠ 3)
    (hdur : (src ≠ 0 ∧ src ≠ 6) ∨ 1000 ≤ dur) (bad : Bool) :
    exec (.tamperDetect e { src, dur, bad }) s = .next (s.tamper e src dur bad).kickReshards := by
  have hshort : ¬((latchSource src && decide (dur < 1000)) = true) := by
    rcases hdur with hl | hd
    · simp [latchSource_eq_false hl]
    · simp [hd]
  show execTamperDetect e { src, dur, bad } s = _
  rw [execTamperDetect, if_neg (Engine.keeper_awake hlive), if_neg hshort, if_neg hsrc]

theorem exec_tamperDetect_short (hsrc : src = 0 ∨ src = 6) (hdur : dur < 1000) (bad : Bool) :
    exec (.tamperDetect e { src, dur, bad }) s = .next s := by
  have hlatch : latchSource src = true := by simpa [latchSource] using hsrc
  show execTamperDetect e { src, dur, bad } s = _
  rw [execTamperDetect, hlatch, decide_eq_true hdur]
  simp

/-- Source 7 is the loss of the keeper's contents, which no duration hides. -/
theorem exec_tamperDetect_keeperLost (hlive : (s.eng e).powered = true ∨ (s.eng e).lifecycle ≠ 3) (bad : Bool) :
    exec (.tamperDetect e { src := 7, dur, bad }) s = .next (s.keeperLost e bad) := by
  show execTamperDetect e { src := 7, dur, bad } s = _
  rw [execTamperDetect, if_neg (Engine.keeper_awake hlive), if_neg (by simp [latchSource]), if_pos rfl]

/-- Whether a detection of a source is an alarm where the engine does not hold already: in SEALED, from an armed source (R392). -/
def State.armedFor (s : State) (e : EngId) (src : Fin 8) : Bool :=
  (s.eng e).lifecycle = 2 && (src = 7 || (s.eng e).keeper.arm.getLsbD src.val)

theorem State.armedFor_eq_false (hsrc : src ≠ 7)
    (h : (s.eng e).lifecycle ≠ 2 ∨ (s.eng e).keeper.arm.getLsbD src.val = false) : s.armedFor e src = false := by
  unfold State.armedFor
  rcases h with hl | ha
  · rw [decide_eq_false hl, Bool.false_and]
  · rw [decide_eq_false hsrc, ha, Bool.or_self, Bool.and_false]

theorem State.armedFor_eq_true (hl : (s.eng e).lifecycle = 2) (ha : (s.eng e).keeper.arm.getLsbD src.val = true) :
    s.armedFor e src = true := by
  rw [State.armedFor, decide_eq_true hl, ha, Bool.or_true, Bool.and_self]

/-- A detection without an alarm only records its source. -/
theorem State.tamper_records (h : s.armedFor e src = false) (bad : Bool) : s.tamper e src dur bad = s.modKeeper e (fun k =>
      { k with alarm := setBit (alarmAfter k src.val (!s.plant.busbar)) 16 (s.eng e).hold,
               active := k.active.set src.val (s.now + dur) src.isLt }) := by
  unfold State.armedFor at h
  simp only [State.tamper, h, Bool.false_and, Bool.or_false, Bool.false_eq_true, if_false]

/-- The state after the zeroisation of an alarm: from the reserve where the busbar is absent, and repeated where it fails
(R393, R405; log 155). -/
def State.alarmZeroised (s : State) (e : EngId) (bad : Bool) : State :=
  let z := s.zeroAll e
  let u := if s.plant.busbar then z else z.modKeeper e (fun k => { k with reserve := k.reserve - 1 })
  if bad then u.modKeeper e (fun k => k.badZero s.plant.busbar) else u

/-- The state once the alarm is recorded, the engine holds and debug is closed (R392). -/
def State.alarmHeld (s : State) (e : EngId) (src : Fin 8) (dur : Nat) (bad : Bool) : State :=
  ((s.alarmZeroised e bad).modKeeper e (fun k =>
    { k with alarm := setBit (alarmAfter k src.val (!s.plant.busbar)) 16 true,
             active := k.active.set src.val (s.now + dur) src.isLt })).modEng
      e (fun x => { x with hold := true, debug := 0, debugAt := 0 })

theorem State.modEng_modEng (s : State) (e : EngId) (f g : Engine → Engine) :
    (s.modEng e f).modEng e g = s.modEng e (fun x => g (f x)) := by
  simp [State.modEng, State.setEng, State.eng, Vector.set_set]

/-- An alarm zeroises, holds the engine and closes debug, and a powered engine leaves (R392). -/
theorem State.tamper_alarms (h : s.armedFor e src = true) (hh : (s.eng e).hold = false) (bad : Bool) :
    s.tamper e src dur bad =
      if (s.eng e).powered then ((s.alarmHeld e src dur bad).modEng e Engine.stopPorts).leave e 4 6
      else s.alarmHeld e src dur bad := by
  have hreserve : s.alarmZeroised e bad =
      if bad = true then
        (if (!s.plant.busbar) = true then (s.zeroAll e).modKeeper e (fun k => { k with reserve := k.reserve - 1 })
          else s.zeroAll e).modKeeper e (fun k => k.badZero s.plant.busbar)
      else if (!s.plant.busbar) = true then (s.zeroAll e).modKeeper e (fun k => { k with reserve := k.reserve - 1 })
      else s.zeroAll e := by
    cases hb : s.plant.busbar <;> simp [State.alarmZeroised, hb]
  unfold State.armedFor at h
  simp only [State.tamper, h, hh, Bool.not_false, Bool.true_and, Bool.or_true, if_true, State.alarmHeld, hreserve,
    State.closeDebug, State.modEng_modEng]

end Tamper

/-! ### What time does to the keeper (R393, R397, R398) -/

section KeeperTimers

variable {s : State} {e : EngId}

theorem exec_reserveRecharged_powered (hp : (s.eng e).powered = true) :
    exec (.reserveRecharged e) s = .next (s.modKeeper e (fun k => { k with reserve := 2 })) := by
  show execReserveRecharged e s = _
  rw [execReserveRecharged, if_pos hp]

theorem exec_debugTimeout_due (hd : (s.eng e).debug ≠ 0) (ht : (s.eng e).debugAt + 28800000000000 ≤ s.now) :
    exec (.debugTimeout e) s = .next (s.closeDebug e) := by
  show execDebugTimeout e s = _
  rw [execDebugTimeout, decide_eq_true hd, decide_eq_true ht, Bool.and_self, if_pos rfl]

theorem exec_challengeLockoutEnd_due {t : Nat} (hr : (s.eng e).keeper.refuseUntil = some t) (ht : t ≤ (s.eng e).keeper.rtc) :
    exec (.challengeLockoutEnd e) s = .next (s.modKeeper e (fun k => { k with refuseUntil := none })) := by
  have hdue : (s.eng e).keeper.refuseUntil.any (fun t => t ≤ (s.eng e).keeper.rtc) = true := by
    rwa [hr, Option.any_some, decide_eq_true_eq]
  show execChallengeLockoutEnd e s = _
  rw [execChallengeLockoutEnd, hdue, if_pos rfl]

end KeeperTimers

/-! ### The loss of a sled's cell (R49) -/

section CellLoss

variable (s : State) (e : EngId)

/-- A keeper that has lost its cell: its slots are empty but for their generations, and its counter holds a free value (log 3). -/
def Keeper.emptied (k : Keeper) (rtc : Nat) : Keeper :=
  { k with slots := k.slots.map (fun x => { KeySlot.empty with gen := x.gen }), wrapKey := 0, lost := true, cellLost := true,
           rtc := rtc }

/-- The shelf once the keeper of one engine has lost its cell. -/
def State.cellLost : State := (s.draw 64).2.modKeeper e (fun k => k.emptied (s.draw 64).1.toNat)

theorem State.cellLost_eng_same :
    (s.cellLost e).eng e = { s.eng e with keeper := (s.eng e).keeper.emptied (s.draw 64).1.toNat } := by
  rw [State.cellLost, State.modKeeper, State.eng_modEng]
  rfl

theorem State.cellLost_eng_ne {i : EngId} (h : i ≠ e) : (s.cellLost e).eng i = s.eng i := by
  rw [State.cellLost, State.modKeeper, State.eng_modEng_ne _ _ h]
  rfl

end CellLoss

/-- The first and the second engine of a sled. -/
def sledFirst (sled : Fin 8) : EngId := Fin.ofNat 16 (2 * sled.val)

def sledSecond (sled : Fin 8) : EngId := Fin.ofNat 16 (2 * sled.val + 1)

theorem sledFirst_ne_sledSecond (sled : Fin 8) : sledFirst sled ≠ sledSecond sled := by
  revert sled
  decide

/-- The engines of a sled are its first and its second. -/
theorem sled_iff (e : EngId) (sled : Fin 8) : e.val / 2 = sled.val ↔ e = sledFirst sled ∨ e = sledSecond sled := by
  revert e sled
  decide

/-- What a keeper that has lost its cell holds, beside the engine that it is in. -/
theorem Keeper.emptied_spec (x : Engine) (rtc : Nat) :
    let y : Engine := { x with keeper := x.keeper.emptied rtc }
    y.keeper.lost = true ∧ y.keeper.cellLost = true ∧ y.keeper.wrapKey = 0 ∧
      y.keeper.slots = x.keeper.slots.map (fun k => { KeySlot.empty with gen := k.gen }) ∧ { y with keeper := x.keeper } = x :=
  ⟨rfl, rfl, rfl, rfl, rfl⟩

section CellLossRow

variable {s : State} {sled : Fin 8}

/-- Without the busbar both keepers of the sled lose their cell (R49). -/
theorem exec_cellLoss_unpowered (hb : s.plant.busbar = false) : exec (.cellLoss sled) s =
    .next ((s.cellLost (sledFirst sled)).cellLost (sledSecond sled)) := by
  show execCellLoss sled s = _
  rw [execCellLoss, hb]
  rfl

theorem exec_cellLoss_onBusbar (hb : s.plant.busbar = true) : exec (.cellLoss sled) s = .next s := by
  show execCellLoss sled s = _
  rw [execCellLoss, if_pos hb]

/-- An engine of the sled loses what its keeper holds, and nothing else. -/
theorem State.cellLost_sled {e : EngId} (h : e.val / 2 = sled.val) :
    ∃ rtc, ((s.cellLost (sledFirst sled)).cellLost (sledSecond sled)).eng e =
      { s.eng e with keeper := (s.eng e).keeper.emptied rtc } := by
  rcases (sled_iff e sled).mp h with rfl | rfl
  · exact ⟨_, by rw [State.cellLost_eng_ne _ _ (sledFirst_ne_sledSecond sled), State.cellLost_eng_same]⟩
  · exact ⟨_, by rw [State.cellLost_eng_same, State.cellLost_eng_ne _ _ (sledFirst_ne_sledSecond sled).symm]⟩

theorem State.cellLost_other {e : EngId} (h : e.val / 2 ≠ sled.val) :
    ((s.cellLost (sledFirst sled)).cellLost (sledSecond sled)).eng e = s.eng e := by
  obtain ⟨hfirst, hsecond⟩ := not_or.mp ((sled_iff e sled).not.mp h)
  rw [State.cellLost_eng_ne _ _ hsecond, State.cellLost_eng_ne _ _ hfirst]

end CellLossRow

/-- Settles O58: a detection is an alarm or only a record, a timer acts when it is due, and a lost cell empties two keepers. -/
theorem keeper : Obligations.Keeper := by
  refine ⟨⟨fun s e src dur bad hsrc hlive hdur => exec_tamperDetect_detects hsrc hlive hdur bad,
    fun s e src dur bad hsrc hdur => exec_tamperDetect_short hsrc hdur bad,
    fun s e dur bad hlive => exec_tamperDetect_keeperLost hlive bad, fun s e hp => exec_reserveRecharged_powered hp,
    fun s e hd ht => exec_debugTimeout_due hd ht, fun s e t hr ht => exec_challengeLockoutEnd_due hr ht,
    fun s sled hb => ⟨_, exec_cellLoss_unpowered hb, fun e => ⟨fun h => ?_, fun h => State.cellLost_other h⟩⟩,
    fun s sled hb => exec_cellLoss_onBusbar hb⟩,
    fun s e src dur bad hl hh hsrc ha hdur => ?_, fun s e => s.zeroAll_blank e,
    fun s e src dur bad hsrc hlive hdur h => ?_⟩
  · obtain ⟨rtc, heng⟩ := State.cellLost_sled (s := s) h
    rw [heng]
    exact Keeper.emptied_spec (s.eng e) rtc
  · have hlive : (s.eng e).lifecycle ≠ 3 := by simp [hl]
    rw [exec_tamperDetect_detects hsrc (.inr hlive) hdur, State.tamper_alarms (State.armedFor_eq_true hl ha) hh]
    rfl
  · rw [exec_tamperDetect_detects hsrc (.inr hlive) hdur, State.tamper_records (State.armedFor_eq_false hsrc h)]

end Sys2Proof.Machine

/-! ## The partitions: their commands, registers and interrupts, the drains, and timed events -/

namespace Sys2Proof.Machine

/-! ### The partition and QoS commands (R66, R70, R73, R74, R75, R76) -/

theorem mailboxRow_partCreate : MailboxRow 0x30 .partCreate cmdPartCreate :=
  ⟨by decide, fun _ _ => rfl, fun _ _ _ _ _ => rfl⟩

theorem mailboxRow_partDelete : MailboxRow 0x31 .partDelete cmdPartDelete :=
  ⟨by decide, fun _ _ => rfl, fun _ _ _ _ _ => rfl⟩

theorem mailboxRow_partModify : MailboxRow 0x32 .partModify cmdPartModify :=
  ⟨by decide, fun _ _ => rfl, fun _ _ _ _ _ => rfl⟩

theorem mailboxRow_partQuery : MailboxRow 0x33 .partQuery cmdPartQuery :=
  ⟨by decide, fun _ _ => rfl, fun _ _ _ _ _ => rfl⟩

theorem mailboxRow_partReset : MailboxRow 0x34 .partReset cmdPartReset :=
  ⟨by decide, fun _ _ => rfl, fun _ _ _ _ _ => rfl⟩

theorem mailboxRow_qosSet : MailboxRow 0x35 .qosSet cmdQosSet :=
  ⟨by decide, fun _ _ => rfl, fun _ _ _ _ _ => rfl⟩

theorem mailboxRow_qosQuery : MailboxRow 0x36 .qosQuery cmdQosQuery :=
  ⟨by decide, fun _ _ => rfl, fun _ _ _ _ _ => rfl⟩

/-- A chapter's list none of whose conditions holds lets the command run. -/
theorem ordered_of_none {cs : List (Bool × Status)} (h : ∀ x ∈ cs, x.1 = false) (s : State) (k : State × Result) :
    ordered s cs k = k := by
  have hfind : cs.find? (fun x => x.1) = none := List.find?_eq_none.mpr fun x hx => by simp [h x hx]
  rw [ordered, firstStatus, hfind]
  rfl

/-- A command that passes the shared checks and its chapter's list runs its own part. -/
theorem guarded_ordered_of_passes {c : Call} {s : State} {sp : CmdSpec} {cs : List (Bool × Status)}
    (hpass : c.passes s sp = true) (h : ∀ x ∈ cs, x.1 = false) (k : State × Result) :
    guarded c s sp (ordered s cs k) = k := by
  rw [guarded_of_passes hpass, ordered_of_none h]

/-- A command that passes the shared checks and its chapter's only condition runs its own part. -/
theorem guarded_ordered_one {c : Call} {s : State} {sp : CmdSpec} {b : Bool} (st : Status) (hpass : c.passes s sp = true)
    (hb : b = false) (k : State × Result) : guarded c s sp (ordered s [(b, st)] k) = k := by
  rw [guarded_of_passes hpass, hb, ordered_cons_false, ordered_nil]

/-- Under a guard, what must hold holds and what must not does not: neither of the two refusals applies. -/
theorem guard_admits_iff {g a b : Bool} : (!g || (a && !b)) = true ↔ (g && !a) = false ∧ (g && b) = false := by
  revert g a b
  decide

section PartitionCommands

variable {c : Call} {s : State}

/-- PART_CREATE starts the adoption where no engine gets more streams than it has (R74). -/
theorem cmdPartCreate_claimed (h : (claimPartCreate c s).holds = true) :
    cmdPartCreate c s = (claimPartCreate c s).result := by
  obtain ⟨hpass, hfits⟩ := (Bool.and_eq_true _ _).mp h
  exact guarded_ordered_one _ hpass (by simpa using hfits) _

/-- PART_DELETE starts the adoption where the partition exists, without work or with FORCE (R76). -/
theorem cmdPartDelete_claimed (h : (claimPartDelete c s).holds = true) :
    cmdPartDelete c s = (claimPartDelete c s).result := by
  obtain ⟨hrest, hwork⟩ := (Bool.and_eq_true _ _).mp h
  obtain ⟨hpass, hexists⟩ := (Bool.and_eq_true _ _).mp hrest
  have hidle : (s.hasWork ((partId? (c.fld 8 1)).getD 0) && !natBit (c.fld 9 1) 0) = false := by
    simpa [or_iff_not_imp_left] using hwork
  refine guarded_ordered_of_passes hpass ?_ _
  simp [hexists, hidle]

/-- PART_MODIFY starts the adoption where rights are taken from a partition that uses none, and streams from those that are
idle (R75). -/
theorem cmdPartModify_claimed (h : (claimPartModify c s).holds = true) :
    cmdPartModify c s = (claimPartModify c s).result := by
  obtain ⟨hrest, hstreams⟩ := (Bool.and_eq_true _ _).mp h
  obtain ⟨hrest, hrights⟩ := (Bool.and_eq_true _ _).mp hrest
  obtain ⟨hpass, hexists⟩ := (Bool.and_eq_true _ _).mp hrest
  obtain ⟨hloaded, hunits⟩ := guard_admits_iff.mp hrights
  obtain ⟨hidle, hroom⟩ := guard_admits_iff.mp hstreams
  rw [List.not_all_eq_any_not] at hidle
  refine guarded_ordered_of_passes hpass ?_ _
  simp only [List.forall_mem_cons]
  exact ⟨by rw [hexists]; rfl, hloaded, hunits, hidle, hroom, List.forall_mem_nil _⟩

theorem cmdPartReset_claimed (h : (claimPartReset c s).holds = true) :
    cmdPartReset c s = (claimPartReset c s).result := by
  obtain ⟨hpass, hexists⟩ := (Bool.and_eq_true _ _).mp h
  exact guarded_ordered_one _ hpass (by rw [hexists]; rfl) _

theorem cmdQosSet_claimed (h : (claimQosSet c s).holds = true) : cmdQosSet c s = (claimQosSet c s).result := by
  obtain ⟨hpass, hexists⟩ := (Bool.and_eq_true _ _).mp h
  exact guarded_ordered_one _ hpass (by rw [hexists]; rfl) _

theorem cmdQosQuery_claimed (h : (claimQosQuery c s).holds = true) : cmdQosQuery c s = (claimQosQuery c s).result := by
  obtain ⟨hpass, hexists⟩ := (Bool.and_eq_true _ _).mp h
  exact guarded_ordered_one _ hpass (by rw [hexists]; rfl) _

end PartitionCommands

/-- Settles O12: past the shared checks and the conditions of its chapter, each row's command gives its claim's result (a change
of partition 0 among them, log 102). -/
theorem partitionCommandsAnswer : Obligations.PartitionCommandsAnswer :=
  ⟨mailboxRow_partCreate.answers fun _ _ => cmdPartCreate_claimed,
   mailboxRow_partDelete.answers fun _ _ => cmdPartDelete_claimed,
   mailboxRow_partModify.answers fun _ _ => cmdPartModify_claimed,
   mailboxRow_partQuery.answers fun _ _ hpass => guarded_of_passes hpass _,
   mailboxRow_partReset.answers fun _ _ => cmdPartReset_claimed,
   mailboxRow_qosSet.answers fun _ _ => cmdQosSet_claimed,
   mailboxRow_qosQuery.answers fun _ _ => cmdQosQuery_claimed⟩

/-! ### Writes that reach no register (R62, R357, R426, R427) -/

/-- An access that wakes its engine leaves the record of partitions as it was. -/
theorem State.touch_record (s : State) (e : EngId) : (s.touch e).record = s.record := by
  unfold State.touch
  split <;> rfl

/-- The record alone says which partition is an expert. -/
theorem State.expert_touch (s : State) (e : EngId) (p : PartId) : (s.touch e).expert p = s.expert p := by
  simp only [State.expert, State.cfg, State.touch_record]

theorem State.streams_touch (s : State) (e : EngId) (p : PartId) : (s.touch e).streams p = s.streams p := by
  simp only [State.streams, State.cfg, State.touch_record]

theorem State.listed_touch (s : State) (e : EngId) (p : PartId) (off : Nat) :
    (s.touch e).listed p off = s.listed p off := by
  simp only [State.listed, State.expert_touch, State.streams_touch]

theorem State.accessMaster_touch (s : State) (e : EngId) (p : PartId) (off : Nat) :
    (s.touch e).accessMaster p off = s.accessMaster p off := by
  simp only [State.accessMaster, State.streams_touch]

/-- An access that wakes its engine does not change the master of its fault (R357). -/
theorem State.badAccess_touch (s : State) (e : EngId) (p : PartId) (off : Nat) :
    (s.touch e).badAccess e p off = ((s.touch e).setPflt e p 4).detect e
      { blk := 9, src := 0, unit := 0, addr := BitVec.ofNat 64 off, master := s.accessMaster p off, access := 0x1,
        part := some p, status := 0, clear := false } := by
  rw [State.badAccess, State.accessMaster_touch]
  rfl

/-- The bytes of a register are some. -/
theorem natLe_ne_nil (w v : Nat) : natLe (w + 1) v ≠ [] := List.cons_ne_nil _ _

theorem State.writeWindow_nil (s : State) (e : EngId) (p : PartId) (path : Path) (off fuel : Nat) :
    s.writeWindow e p path off fuel [] = s := by
  cases fuel <;> rfl

theorem State.writeReg_unlisted {s : State} {p : PartId} {off : Nat} (hl : s.listed p off = false) (e : EngId) (path : Path)
    (w v : Nat) : s.writeReg e p path off w v = s.badAccess e p off := by
  simp [State.writeReg, hl]

/-- Bytes that begin at an unlisted offset and lie within its register are one fault, whether they fill it or not (R62). -/
theorem State.writeWindow_unlisted {s : State} {p : PartId} {off : Nat} {data : List Byte} (hne : data ≠ [])
    (hl : s.listed p off = false) (hin : off + data.length ≤ (regAt off).1 + (regAt off).2) (e : EngId) (path : Path) :
    s.writeWindow e p path off data.length data = s.badAccess e p off := by
  obtain ⟨fuel, hfuel⟩ := Nat.exists_eq_succ_of_ne_zero (mt List.length_eq_zero_iff.mp hne)
  have hsome : data.isEmpty = false := List.isEmpty_eq_false_iff.mpr hne
  have hrest : data.drop ((regAt off).1 + (regAt off).2 - off) = [] := List.drop_of_length_le (by omega)
  rw [hfuel, State.writeWindow, hsome, if_neg Bool.false_ne_true]
  dsimp only
  split
  case isTrue hwhole =>
    obtain ⟨hstart, -⟩ := (Bool.and_eq_true _ _).mp hwhole
    have hend : (regAt off).1 + (regAt off).2 - off = (regAt off).2 := by
      rw [of_decide_eq_true hstart, Nat.add_sub_cancel_left]
    rw [State.writeReg_unlisted hl, ← hend, hrest, State.writeWindow_nil]
  case isFalse => rw [hrest, State.writeWindow_nil, hl, if_neg Bool.false_ne_true]

section UnreachedRegister

variable {s : State} {src : WinSrc}

/-- A write within an unlisted register is one fault, and touches the engine. -/
theorem exec_registerWrite_unlisted {off : Nat} {data : List Byte} (hv : src.via = .memory)
    (hr : s.reachesWindow src.eng src.part src.path = true) (hne : data ≠ []) (hl : s.listed src.part off = false)
    (hin : off + data.length ≤ (regAt off).1 + (regAt off).2) :
    exec (.registerWrite src off data) s = .next ((s.touch src.eng).badAccess src.eng src.part off) := by
  rw [exec_registerWrite, State.access_memory hv hr, State.writeWindow_unlisted hne (by rwa [State.listed_touch]) hin]

section NotExpert

variable (hv : src.via = .memory) (hr : s.reachesWindow src.eng src.part src.path = true)
  (hx : s.expert src.part = false)
include hv hr hx

/-- Without EXPERT the GO of an expert block is a fault (R426). -/
theorem State.access_notExpert (v off : Nat) (f : State → State) :
    s.access src v (fun s => if !s.expert src.part then s.badAccess src.eng src.part off else f s) =
      (s.touch src.eng).badAccess src.eng src.part off := by
  rw [State.access_memory hv hr, State.expert_touch, hx]
  rfl

theorem exec_nmxGo_notExpert (w : Word) :
    exec (.nmxGo src w) s = .next ((s.touch src.eng).badAccess src.eng src.part 0x100000) :=
  congrArg _ (State.access_notExpert hv hr hx _ _ _)

theorem exec_xlateStart_notExpert (off : DWord) :
    exec (.xlateStart src off) s = .next ((s.touch src.eng).badAccess src.eng src.part 0x100018) :=
  congrArg _ (State.access_notExpert hv hr hx _ _ _)

theorem exec_dgxGo_notExpert (w : Word) (list : List Byte) (fail : Bool) :
    exec (.dgxGo src w list fail) s = .next ((s.touch src.eng).badAccess src.eng src.part 0x108080) :=
  congrArg _ (State.access_notExpert hv hr hx _ _ _)

end NotExpert

end UnreachedRegister

/-- Without EXPERT no word of the NMX block is listed (R426). -/
theorem State.listed_nmx_notExpert {s : State} {p : PartId} {off : Nat} (hlow : 0x100000 ≤ off) (hhigh : off < 0x108000)
    (hx : s.expert p = false) : s.listed p off = false := by
  have hbelow (k : Nat) (hk : k ≤ 0x100000) : ¬ off < k := by omega
  simp [State.listed, hbelow, hhigh, hx, streamBase]

/-- A word lies within one register. -/
theorem regAt_word {off : Nat} (halign : off % 4 = 0) (hmap : off < 0x3000 ∨ 0x4000 ≤ off) :
    off + 4 ≤ (regAt off).1 + (regAt off).2 := by
  have hbytes : ¬ (0x3000 ≤ off ∧ off < 0x4000) := by omega
  unfold regAt
  split
  · dsimp only
    omega
  · simp only [Bool.and_eq_true, decide_eq_true_eq, hbytes, if_false]
    omega

/-- Settles O38: an unlisted register takes one fault for a word of it, whole or half, and the expert blocks are unlisted to a
partition without EXPERT. -/
theorem unreachedRegistersAreFaults : Obligations.UnreachedRegistersAreFaults := by
  refine ⟨fun src s off v hv hr hl hreg => ?_, fun src s hv hr hx => ⟨exec_nmxGo_notExpert hv hr hx,
    exec_xlateStart_notExpert hv hr hx, exec_dgxGo_notExpert hv hr hx, fun n hn v => ?_⟩⟩
  · rw [exec_registerWrite_unlisted hv hr (natLe_ne_nil 3 v) hl (by rw [hreg, length_natLe]), State.badAccess_touch]
  · have hword : 0x100000 + n / 4 * 4 + (natLe 4 v).length ≤ _ := regAt_word (by omega) (by omega)
    have hl : s.listed src.part (0x100000 + n / 4 * 4) = false := State.listed_nmx_notExpert (by omega) (by omega) hx
    exact exec_registerWrite_unlisted hv hr (natLe_ne_nil 3 v) hl hword

/-! ### Held events, ring failure, coalescing and pending MSI-X (R63, R64, R65, R79) -/

section Interrupts

variable {s : State} {e : EngId} {p : PartId} (hw : s.hasWindow e p = true) (hs : s.serves e = true)
include hw hs

/-- On a served window held events go to the ring while it takes them (R65). -/
theorem exec_heldEventsRelease_served : exec (.heldEventsRelease e p) s = .next (s.ringFlush e p 33) := by
  show execHeldEventsRelease e p s = _
  simp [execHeldEventsRelease, hw, hs]

/-- A failed write of an enabled ring disables it, stops its queue pair and is detected (R79). -/
theorem exec_evrFailure_enabled (hen : (s.win e p).ints.ring.en = true) : exec (.evrFailure e p) s =
    .next (((s.modRing e p (fun r => { r with disabled := true })).modEng e (fun x =>
      { x with qps := x.qps.map (fun c =>
        if c.num = (s.win e p).ints.ring.sQpn.toNat && c.part = p then { c with ready := false } else c) })).detect e
      { plainFault 9 2 0 with access := 0x7, part := some p }) := by
  show execEvrFailure e p s = _
  simp only [execEvrFailure, hw, hs, hen, Bool.and_self, if_true]

/-- A vector whose oldest event has waited its time is signalled with all its events (R64). -/
theorem exec_coalesceTimeout_due {v : Fin 32} {ev : Event} {rest : List Event}
    (hc : (s.win e p).ints.coal[v] = ev :: rest)
    (ht : ev.time.toNat + 1000 * (s.win e p).ints.coalUsec v ≤ (s.time e).toNat) :
    exec (.coalesceTimeout e p v) s = .next ((s.setCoal e p v []).route e p v (ev :: rest)) := by
  show execCoalesceTimeout e p v s = _
  simp only [execCoalesceTimeout, hw, hs, hc, List.head?_cons, Option.any_some, ht, decide_true, Bool.and_self, if_true]

/-- A pending vector is released on the P-port of its route (R63). -/
theorem exec_msixPendingRelease_routed {v : Fin 32} {port : Fin 2} (hroute : (s.win e p).ints.routeOf v = port.val) :
    exec (.msixPendingRelease e p v) s = .next (s.releaseMsix e p port v) := by
  show execMsixPendingRelease e p v s = _
  rw [execMsixPendingRelease, hw, hs, hroute]
  fin_cases port <;> rfl

end Interrupts

/-- Settles O39: each clause is the branch of its row that the clause's conditions select. -/
theorem interruptEvents : Obligations.InterruptEvents :=
  ⟨fun _ _ _ hw hs => exec_heldEventsRelease_served hw hs,
   fun _ _ _ hw hs hen => exec_evrFailure_enabled hw hs hen,
   fun _ _ _ _ _ _ hw hs hc ht => exec_coalesceTimeout_due hw hs hc ht,
   fun _ _ _ _ _ hw hs hroute => exec_msixPendingRelease_routed hw hs hroute⟩

/-! ### What the tokens and the lanes of a drain leave alone: the engine that carries a shard (R72, R341) -/

/-- The engine that carries what a source staged depends on the view and on the fences alone. -/
theorem State.keyEngine_congr {s t : State} {src : Nat} (hm : t.membership = s.membership)
    (hf : (t.eng (Fin.ofNat 16 src)).fenced = (s.eng (Fin.ofNat 16 src)).fenced) : t.keyEngine src = s.keyEngine src := by
  have hmask : t.joinedMask = s.joinedMask := by rw [State.joinedMask, State.joinedMask, hm]
  have hlost : t.lost (Fin.ofNat 16 src) = s.lost (Fin.ofNat 16 src) := by
    rw [State.lost, State.lost, State.joined, State.joined, hmask, hf]
  rw [State.keyEngine, State.keyEngine, State.firstJoined, State.firstJoined, hlost, hmask]

theorem State.keyEngine_modPart (s : State) (p : PartId) (f : Partition → Partition) (src : Nat) :
    (s.modPart p f).keyEngine src = s.keyEngine src := State.keyEngine_congr rfl rfl

theorem State.keyEngine_pick {α : Type} (s : State) (xs : List α) (src : Nat) :
    (s.pick xs).2.keyEngine src = s.keyEngine src := State.keyEngine_congr rfl rfl

theorem State.keyEngine_modEng (s : State) (e : EngId) (src : Nat) {f : Engine → Engine}
    (hf : (f (s.eng e)).fenced = (s.eng e).fenced) : (s.modEng e f).keyEngine src = s.keyEngine src := by
  refine State.keyEngine_congr (State.modEng_membership s e f) ?_
  by_cases h : Fin.ofNat 16 src = e
  · rw [h, State.eng_modEng, hf]
  · rw [State.eng_modEng_ne _ _ h]

theorem State.keyEngine_payStore (s : State) (e : EngId) (p : PartId) (need src : Nat) :
    (s.payStore e p need).2.keyEngine src = s.keyEngine src :=
  State.keyEngine_modEng s e src rfl

/-- A shard that draws STORE tokens stays with the engine that carries it (log 152). -/
theorem State.keyEngine_payShard (s : State) (p : PartId) (n i : Nat) (e : EngId) (h : Shard) (src : Nat) :
    (s.payShard p n i e h).2.keyEngine src = s.keyEngine src := by
  rw [State.payShard]
  dsimp only
  rw [State.setShard, State.modEpoch, State.keyEngine_modPart, State.keyEngine_payStore]

theorem State.keyEngine_fillLane (s : State) (e : EngId) (src : Nat) :
    (s.fillLane e).keyEngine src = s.keyEngine src := by
  unfold State.fillLane
  dsimp only
  split
  case h_1 => rfl
  case h_2 =>
    split
    case h_1 hpick =>
      refine (State.keyEngine_modEng _ e src ?_).trans ?_
      · rfl
      · rw [← State.keyEngine_pick s _ src, hpick]
    case h_2 => rfl

/-- A drain that asks for a compression lane leaves its shard with the engine that carries it (log 142). -/
theorem State.keyEngine_codecLane (s : State) (e : EngId) (b : CBlock) (src : Nat) :
    (s.codecLane e b).1.keyEngine src = s.keyEngine src := by
  have hprune : (s.pruneLanes e).keyEngine src = s.keyEngine src := State.keyEngine_modEng s e src rfl
  rw [State.codecLane]
  dsimp only
  rw [foldl_field (fun u : State => u.keyEngine src) (fun u _ => u.keyEngine_fillLane e src)]
  split
  case isTrue => exact hprune
  case isFalse => exact (State.keyEngine_modEng _ e src rfl).trans hprune

/-! ### What the writes of a drain leave alone: the partitions (R184, R231) -/

theorem State.freeBlocks_parts (s : State) (u : Nat × Nat × Nat) : (s.freeBlocks u).parts = s.parts := by
  unfold State.freeBlocks
  split
  · rfl
  · split <;> rfl

theorem State.freeRun_parts (s : State) (ptr : Nat) : (s.freeRun ptr).parts = s.parts := by
  unfold State.freeRun
  split
  · exact State.freeBlocks_parts ..
  · rfl

theorem State.issue_parts (s : State) (c : NvmeCmd) : (s.issue c).parts = s.parts := rfl

theorem State.storeWrite_parts (s : State) (v lba : Nat) (bs : List Byte) (fua : Bool) :
    (s.storeWrite v lba bs fua).parts = s.parts := by
  have hissue : ((writeRuns lba (ceilDiv bs.length blockBytes)).foldl (fun s r => s.issue (.write v r.1 r.2 fua))
      (s.writeBlocks v lba bs)).parts = s.parts :=
    (foldl_field State.parts (fun u (r : Nat × Nat) => State.issue_parts u (.write v r.1 r.2 fua)) _ _).trans rfl
  unfold State.storeWrite
  dsimp only
  split
  · exact hissue
  · exact hissue

theorem State.part_writePtr (s : State) (ptr : Nat) (bs : List Byte) (fua : Bool) (j : PartId) :
    (s.writePtr ptr bs fua).part j = s.part j := by
  rw [State.part, State.writePtr, State.storeWrite_parts]
  rfl

/-! ### The end of a drain that commits (R184, R229) -/

theorem Partition.epoch?_of_draining {x : Partition} {n : Nat} {ep : Epoch} (h : x.draining n = some ep) :
    x.epoch? n = some ep := (Option.filter_eq_some_iff.mp h).1

/-- What the commit record leaves of its epoch (Table 8-3). -/
def Epoch.whenCommitted (q : Epoch) (time : DWord) : Epoch :=
  { q with state := 5, campaign := none, commitTime := time, pinned := false, mold := [] }

/-- What the commit record of an epoch leaves of its partition. -/
def Partition.whenCommitted (x : Partition) (n : Nat) (time : DWord) : Partition :=
  { x with epochs := x.epochs.map (fun q => if q.n = n then q.whenCommitted time else q),
           lastCommitted := max x.lastCommitted n }

/-- A committed epoch keeps its number, under which its partition still finds it. -/
theorem Partition.epoch?_whenCommitted (x : Partition) (n : Nat) (time : DWord) :
    (x.whenCommitted n time).epoch? n = (x.epoch? n).map (fun q => q.whenCommitted time) := by
  have hnum (q : Epoch) : (if q.n = n then q.whenCommitted time else q).n = q.n := by split <;> rfl
  have hkeep (q : Epoch) (hq : q.n = n) : (if q.n = n then q.whenCommitted time else q) = q.whenCommitted time :=
    if_pos hq
  rw [Partition.epoch?, Partition.whenCommitted, List.find?_map]
  simp only [Function.comp_def, hnum]
  exact Option.map_congr fun q hq => hkeep q (by simpa using List.find?_some hq)

/-- The partitions after an update of one are fixed by the partitions before it. -/
theorem State.modPart_parts_congr {s t : State} (h : t.parts = s.parts) (p : PartId) (f : Partition → Partition) :
    (t.modPart p f).parts = (s.modPart p f).parts := by
  simp only [State.modPart, State.setPart, State.part, h]

theorem State.modPart_modPart_parts (s : State) (p : PartId) (f g : Partition → Partition) :
    ((s.modPart p f).modPart p g).parts = (s.modPart p (fun x => g (f x))).parts := by
  simp [State.modPart, State.setPart, State.part]

/-- A commit changes its partition as Table 8-3 says, and no other (R184). -/
theorem State.committed_parts (s : State) (p : PartId) (n : Nat) (e : EngId) (gen : Nat) (ep : Epoch) (time : DWord) :
    (s.committed p n e gen ep time).parts = (s.modPart p (fun x => x.whenCommitted n time)).parts := by
  have hfreed : ((ep.mold.foldl (fun s o => s.freeRun o) s).endCampaign ep.campaign).parts = s.parts :=
    foldl_field State.parts (fun u o => u.freeRun_parts o) _ _
  have hepoch : ((((ep.mold.foldl (fun s o => s.freeRun o) s).endCampaign ep.campaign).modEpoch p n
      (fun q => q.whenCommitted time)).modPart p (fun x => { x with lastCommitted := max x.lastCommitted n })).parts =
      (s.modPart p (fun x => x.whenCommitted n time)).parts :=
    (State.modPart_modPart_parts _ p _ _).trans (State.modPart_parts_congr hfreed p _)
  unfold State.committed
  dsimp only
  split
  · exact hepoch
  · exact hepoch

theorem State.part_committed (s : State) (p : PartId) (n : Nat) (e : EngId) (gen : Nat) (ep : Epoch) (time : DWord) :
    (s.committed p n e gen ep time).part p = (s.part p).whenCommitted n time := by
  rw [State.part, State.committed_parts]
  exact State.part_modPart s p _

theorem State.part_committed_ne (s : State) {p j : PartId} (hj : j ≠ p) (n : Nat) (e : EngId) (gen : Nat) (ep : Epoch)
    (time : DWord) : (s.committed p n e gen ep time).part j = s.part j := by
  rw [State.part, State.committed_parts]
  exact State.part_modPart_ne s _ hj

/-! ### The steps of a drain (R223, R229, R230, R231, R235, R236, R237, R268) -/

section ShardWrite

variable {s s1 s2 u : State} {p : PartId} {n i ptr : Nat} {ep : Epoch} {h : Shard}

/-- A staged shard that has its STORE tokens and a compression lane is written to the store (R72, R341). -/
theorem exec_shardWriteComplete_coded (hd : (s.part p).draining n = some ep) (hi : ep.shards[i]? = some h)
    (hlen : h.objLen ≠ 0) (hph : h.phase = 0) (hw : s.mayWrite = true)
    (hpay : s.payShard p n i (s.keyEngine h.src) h = (true, s1))
    (hlane : s1.codecLane (s.keyEngine h.src) (.drain p n i) = (s2, true)) (res : StoreResult) :
    exec (.shardWriteComplete p n i res) s = .next (s2.endShardWrite p n i h res) := by
  show execShardWriteComplete p n i res s = _
  simp [execShardWriteComplete, hd, hi, hlen, hph, hw, hpay, hlane]

/-- Its tokens and its lane leave a shard with the engine that carries it. -/
theorem State.keyEngine_coded (hpay : s.payShard p n i (s.keyEngine h.src) h = (true, s1))
    (hlane : s1.codecLane (s.keyEngine h.src) (.drain p n i) = (s2, true)) : s2.keyEngine h.src = s.keyEngine h.src := by
  calc s2.keyEngine h.src = s1.keyEngine h.src := by
        rw [← State.keyEngine_codecLane s1 (s.keyEngine h.src) (.drain p n i), hlane]
    _ = s.keyEngine h.src := by rw [← State.keyEngine_payShard s p n i (s.keyEngine h.src) h, hpay]

/-- What the target answers ends the write of a shard that has an extent (R229, R235, R236). -/
theorem State.endShardWrite_taken (ht : s.takeBlocks (blocksFor h.objLen) = some (ptr, u))
    (hgo : s.storeGoes (ptrVol ptr) = true) (res : StoreResult) : s.endShardWrite p n i h res = match res with
      | .ok => (u.modEng (s.keyEngine h.src) (fun x => x.dropBlock (.drain p n i))).shardWritten p n i ptr h
      | .mediaError => u.setShard p n i (fun h => h.again ptr)
      | .transportError => s.loseConnection (ptrVol ptr) := by
  cases res <;> simp [State.endShardWrite, ht, hgo]

theorem State.endShardWrite_full (ht : s.takeBlocks (blocksFor h.objLen) = none) (res : StoreResult) :
    s.endShardWrite p n i h res = s.mgmtFault (s.keyEngine h.src) 6 := by
  rw [State.endShardWrite, ht]
  rfl

end ShardWrite

section ShardCheck

variable {s s1 s2 : State} {p : PartId} {n i l : Nat} {ep : Epoch} {h : Shard}

/-- A written shard that waits for nothing is verified on a digest lane (R230, R268). -/
theorem exec_shardVerified_laned (hd : (s.part p).draining n = some ep) (hi : ep.shards[i]? = some h) (hph : h.phase = 1)
    (hfl : h.flushed = true) (hwait : s.verifyWaits p n i ep h = (false, s1))
    (hlane : s1.shelfLane (s.keyEngine h.src) (.shard p n i) = (some l, s2)) (read : CheckRead) :
    exec (.shardVerified p n i read) s = .next (s2.endVerify p n i l ep h read.got read.upset) := by
  show execShardVerified p n i read s = _
  simp [execShardVerified, hd, hi, hph, hfl, hwait, hlane]

/-- A check without an upset gives a sound result, that of the bytes (R266). -/
theorem checkResult_sound (same : Bool) : soundResult (checkResult same none) = true := by
  cases same <;> rfl

theorem checkResult_same_iff (same : Bool) : checkResult same none = (0xA, 0x5) ↔ same = true := by
  cases same <;> decide

/-- Step 4 with sound comparators ends as the bytes verify (R230, R237). -/
theorem State.endVerify_bytes (s : State) (p : PartId) (n i l : Nat) (ep : Epoch) (h : Shard) (b : List Byte) :
    s.endVerify p n i l ep h (.bytes b) none =
      if h.verifies ep.verify b = true then
        ((s.verifyRead ep h).freeLane (s.keyEngine h.src) (.shard p n i)).shardPasses p n i ep h
      else ((s.verifyRead ep h).freeLane (s.keyEngine h.src) (.shard p n i)).shardFails p n i (verifyStatus ep.verify) := by
  simp only [State.endVerify, checkResult_sound, checkResult_same_iff, Bool.not_true, Bool.false_eq_true, if_false]

end ShardCheck

section ManifestAndCommit

variable {s s1 u : State} {p : PartId} {n gen i l ptr : Nat} {e : EngId} {ep : Epoch} {k : KeySlot}

/-- A manifest that is built and sealed is written where the store has room (R229, R236). -/
theorem exec_manifestBuild_sealed (hd : (s.part p).draining n = some ep) (hgen : ep.gen = some gen) (hc : ep.commit = true)
    (hst : ep.state = 4) (hall : ep.shards.all (fun h => h.phase = 2) = true) (hm : ep.manifest = [])
    (hstamp : s.mayStamp e = true) (hw : s.mayWrite = true) (hslot : ep.mslot = some i) (hk : s.keyOf e p i 2 = some k)
    (hlane : s.shelfLane e (.seal p n) = (some l, s1))
    {m : List Byte} (hbytes : manifestBytes p ep gen k.key ((ep.dslot.bind (fun j => s.keyOf e p j 3)).elim 0 KeySlot.keyId)
      ep.dslot.isSome = m)
    (ht : (s1.freeLane e (.seal p n)).takeBlocks (blocksFor m.length) = some (ptr, u))
    (hgo : s.storeGoes (ptrVol ptr) = true) (res : StoreResult) :
    exec (.manifestBuild p n { eng := e, res := res }) s = .next (match res with
      | .ok => (u.writePtr ptr (padTo (roundUp m.length blockBytes) m) true).modEpoch p n (fun q =>
          { q with manifest := m, mptr := ptr, mchecked := false })
      | .mediaError => u.modEpoch p n (fun q => { q with mold := ptr :: q.mold })
      | .transportError => (s1.freeLane e (.seal p n)).loseConnection (ptrVol ptr)) := by
  have hverified : ep.shards.any (fun h => h.phase ≠ 2) = false := by
    simpa using hall
  show execManifestBuild p n { eng := e, res := res } s = _
  simp only [execManifestBuild, hd, hgen, hc, hst, hverified, hm, hstamp, hw, hslot, hk, hlane, hbytes, ht, hgo,
    Option.bind_some, List.isEmpty_nil, ne_eq, not_true_eq_false, decide_false, Bool.not_true, Bool.or_self,
    Bool.false_eq_true, if_false]
  cases res <;> rfl

theorem Epoch.manifestReads_eq_true {b : List Byte} (hsha : sha256 b = sha256 ep.manifest)
    (hseal : b.drop (b.length - 48) = ep.manifest.drop (ep.manifest.length - 48)) : ep.manifestReads b = true := by
  rw [Epoch.manifestReads, decide_eq_true hsha, decide_eq_true hseal]
  rfl

theorem Epoch.manifestReads_eq_false {b : List Byte} (hsha : sha256 b ≠ sha256 ep.manifest) :
    ep.manifestReads b = false := by
  rw [Epoch.manifestReads, decide_eq_false hsha, Bool.false_and]

/-- A manifest that is read back on a digest lane, with sound comparators, is right or leaves its place (R229, R237). -/
theorem exec_manifestReadback_bytes (hd : (s.part p).draining n = some ep) (hm : ep.manifest ≠ []) (hc : ep.mchecked = false)
    (hgo : s.storeGoes (ptrVol ep.mptr) = true) (hlane : s.shelfLane s.firstJoined (.check p n) = (some l, s1))
    (b : List Byte) :
    let t := (s1.storeRead ep.mptr (blocksFor ep.manifest.length)).freeLane s.firstJoined (.check p n)
    exec (.manifestReadback p n { got := .bytes b, upset := none }) s = .next (if ep.manifestReads b = true then
      t.modEpoch p n (fun q => { q with mchecked := true, tries := 0 }) else t.manifestFails p n) := by
  intro t
  have hne : ep.manifest.isEmpty = false := List.isEmpty_eq_false_iff.mpr hm
  show execManifestReadback p n { got := .bytes b, upset := none } s = _
  simp only [execManifestReadback, hd, hne, hc, hgo, hlane, checkResult_sound, checkResult_same_iff, t, Bool.not_true,
    Bool.or_self, Bool.false_eq_true, if_false]

/-- What the target answers ends the write of a commit record (R223, R235, R237). -/
theorem exec_commitRecordWritten_stamped {g : List Byte} (hd : (s.part p).draining n = some ep) (hgen : ep.gen = some gen)
    (hg : s.readGen gen = some g) (hc : ep.mchecked = true) (hstamp : s.mayStamp e = true)
    (hw : s.mayWrite = true) (hbase : s.baseCommitted gen ep = true) (hgo : s.storeGoes (ptrVol (ringPtr g n)) = true)
    (res : StoreResult) : exec (.commitRecordWritten p n e res) s = .next (match res with
      | .ok => (s.writePtr (ringPtr g n) (commitRecord p e ep gen (s.time e)) true).committed p n e gen ep (s.time e)
      | .mediaError => s.commitFails p n
      | .transportError => s.loseConnection (ptrVol (ringPtr g n))) := by
  show execCommitRecordWritten p n e res s = _
  cases res <;> simp [execCommitRecordWritten, hd, hgen, hg, hc, hstamp, hw, hbase, hgo]

/-- An epoch retires in the oldest generation of its partition that may retire it (R231). -/
theorem exec_epochRetire_found {g : Nat × List Byte}
    (hg : (s.liveGens.filter (fun g => genPart g.2 = p.val)).find? (fun g => s.mayRetire g.1 n) = some g) :
    exec (.epochRetire p n) s = .next (s.retireEpoch g.1 n) := by
  show execEpochRetire p n s = _
  rw [execEpochRetire, hg]

theorem exec_drainRetry_draining (hd : ((s.part p).draining n).isSome = true) :
    exec (.drainRetry p n) s = .next ((s.reconnect.freeWaiting).resumeDrains) := by
  show execDrainRetry p n s = _
  rw [execDrainRetry, if_pos hd]

end ManifestAndCommit

/-- The written record makes its epoch COMMITTED at the engine's time, and leaves every other partition (R184, R229). -/
theorem State.committed_writePtr {s : State} {p : PartId} {n : Nat} {ep : Epoch} (hd : (s.part p).draining n = some ep)
    (ptr : Nat) (bs : List Byte) (e : EngId) (gen : Nat) (time : DWord) :
    let t := (s.writePtr ptr bs true).committed p n e gen ep time
    (t.part p).epoch? n = some (ep.whenCommitted time) ∧ n ≤ (t.part p).lastCommitted ∧
      ∀ j, j ≠ p → t.part j = s.part j := by
  intro t
  have hpart : t.part p = (s.part p).whenCommitted n time := by rw [State.part_committed, State.part_writePtr]
  refine ⟨?_, ?_, fun j hj => ?_⟩
  · rw [hpart, Partition.epoch?_whenCommitted, Partition.epoch?_of_draining hd]
    rfl
  · rw [hpart]
    exact le_max_right _ _
  · rw [State.part_committed_ne _ hj, State.part_writePtr]

/-- Settles O44: each row takes the step that its conditions select, over the STORE tokens that a shard draws (log 152) and the
compression lane that its write holds (log 142), and a written record commits its epoch alone. -/
theorem drains : Obligations.Drains := by
  refine ⟨⟨fun s p n i ep h s1 s2 ptr u hd hi hlen hph hw hpay hlane ht hgo => ?_,
    fun s p n i ep h s1 s2 res hd hi hlen hph hw hpay hlane ht => ?_,
    fun s p n i ep h b s1 l s2 hd hi hph hfl hwait hlane => ?_,
    fun s p n e ep gen i k l s1 ptr u hd hgen hc hst hall hm hstamp hw hslot hk hlane ht hgo =>
      ⟨exec_manifestBuild_sealed hd hgen hc hst hall hm hstamp hw hslot hk hlane rfl ht hgo .ok,
       exec_manifestBuild_sealed hd hgen hc hst hall hm hstamp hw hslot hk hlane rfl ht hgo .mediaError⟩,
    fun s p n ep b l s1 hd hm hc hgo hlane => ?_,
    fun s p n e ep gen g hd hgen hg hc hstamp hw hbase hgo =>
      have hend := exec_commitRecordWritten_stamped hd hgen hg hc hstamp hw hbase hgo
      ⟨hend .ok, hend .mediaError, hend .transportError⟩,
    fun s p n g hg => exec_epochRetire_found hg, fun s p n hd => exec_drainRetry_draining hd⟩,
    fun s p n e ep gen g hd hgen hg hc hstamp hw hbase hgo => ?_⟩
  · have hend (res : StoreResult) := (exec_shardWriteComplete_coded hd hi hlen hph hw hpay hlane res).trans
      (congrArg _ (State.endShardWrite_taken ht hgo res))
    rw [← State.keyEngine_coded hpay hlane]
    exact ⟨hend .ok, hend .mediaError, hend .transportError⟩
  · rw [exec_shardWriteComplete_coded hd hi hlen hph hw hpay hlane, State.endShardWrite_full ht,
      State.keyEngine_coded hpay hlane]
  · have hend := (exec_shardVerified_laned hd hi hph hfl hwait hlane { got := .bytes b, upset := none }).trans
      (congrArg _ (State.endVerify_bytes s2 p n i l ep h b))
    refine ⟨fun hv => ?_, fun hv => ?_⟩
    · rw [hend, if_pos hv]
      rfl
    · rw [hend, if_neg (ne_true_of_eq_false hv)]
      rfl
  · have hend := exec_manifestReadback_bytes hd hm hc hgo hlane b
    refine ⟨fun ⟨hsha, hseal⟩ => ?_, fun hsha => ?_⟩
    · rw [hend, if_pos (Epoch.manifestReads_eq_true hsha hseal)]
    · rw [hend, if_neg (ne_true_of_eq_false (Epoch.manifestReads_eq_false hsha))]
      rfl
  · obtain ⟨hepoch, hlast, hothers⟩ := State.committed_writePtr hd (ringPtr g n) (commitRecord p e ep gen (s.time e)) e gen
      (s.time e)
    exact ⟨_, _, exec_commitRecordWritten_stamped hd hgen hg hc hstamp hw hbase hgo .ok, hepoch, rfl, rfl, rfl, rfl, hlast,
      hothers⟩

/-! ### Timed events before their time (R64, R131, R297, R298, R301, R305, R309, R311, R315, R397, R398, R411, R418) -/

/-- What is due at no time that stands is not due. -/
theorem not_due {α : Type} {o : Option α} {f : α → Nat} {now : Nat} (h : ∀ t, o = some t → now < f t) :
    o.any (fun t => decide (f t ≤ now)) = false := by
  rw [Option.any_eq_false]
  intro t ht
  simpa using h t ht

/-- A row whose last condition does not hold leaves the state as it is (log 118). -/
theorem next_of_last_false {a b : Bool} {t s : State} (h : b = false) :
    (.next (if (a && b) = true then t else s) : Host.Outcome State Fault Refusal) = .next s := by
  rw [h, Bool.and_false, if_neg Bool.false_ne_true]

section EarlyTimers

variable {s : State} {e : EngId}

theorem exec_noQuorum_early (h : ∀ t, (s.eng e).member.lostSince = some t → s.now < t + 100000000) :
    exec (.noQuorum e) s = .next s :=
  next_of_last_false (not_due h)

theorem exec_peerUnreachable_early {peer : EngId} (h : s.now < (s.eng e).member.heard[peer] + 20000000) :
    exec (.peerUnreachable e peer) s = .next s :=
  next_of_last_false (decide_eq_false h.not_ge)

section Proposal

variable {q : Proposal} (hq : s.membership.proposal = some q)
include hq

theorem exec_viewProposeTimeout_early (h : s.now < q.since + 10000000) : exec .viewProposeTimeout s = .next s := by
  show execViewProposeTimeout s = _
  simp [execViewProposeTimeout, hq, h]

theorem exec_viewFormed_late (h : q.since + 10000000 < s.now) : exec .viewFormed s = .next s := by
  show execViewFormed s = _
  simp [execViewFormed, hq, h.not_ge]

end Proposal

theorem exec_configPhaseTimeout_early {a : Adoption} (ha : s.adoption = some a) (h : s.now < a.since + 1000000000) :
    exec (.configPhaseTimeout e) s = .next s := by
  show execConfigPhaseTimeout e s = _
  simp [execConfigPhaseTimeout, ha, h.not_ge]

theorem exec_splitWindowExpiry_early (h : s.now < s.membership.windowSince + 7200000000000) :
    exec .splitWindowExpiry s = .next s := by
  show execSplitWindowExpiry s = _
  simp [execSplitWindowExpiry, h]

theorem exec_timeSuspectClear_early (h : ∀ t, (s.eng e).clock.calmSince = some t → s.now < t + 1000000000) :
    exec (.timeSuspectClear e) s = .next s :=
  next_of_last_false (not_due h)

theorem exec_leaseClaimCheck_early (h : ∀ t, s.store.lease.claimAt = some t → s.now < t + 15000000000)
    (got : Option (List Byte)) : exec (.leaseClaimCheck got) s = .next s := by
  show execLeaseClaimCheck got s = _
  simp [execLeaseClaimCheck, not_due h]

/-- The oldest event of a vector decides whether its timeout is due. -/
theorem exec_coalesceTimeout_early {p : PartId} {v : Fin 32} (h : ∀ ev ∈ (s.win e p).ints.coal[v],
    (s.time e).toNat < ev.time.toNat + 1000 * (s.win e p).ints.coalUsec v) :
    exec (.coalesceTimeout e p v) s = .next s :=
  next_of_last_false (not_due fun ev hev => h ev (List.mem_of_head? hev))

theorem exec_modeTimeout_early {ch : Fin 16} (h : s.now < ((s.eng e).channels[ch]).since + 10000) :
    exec (.modeTimeout e ch) s = .next s :=
  next_of_last_false (decide_eq_false h.not_ge)

theorem exec_provisionalTimeout_early (h : s.now < (s.eng e).fw.bootAt + 600000000000) :
    exec (.provisionalTimeout e) s = .next s :=
  next_of_last_false (decide_eq_false h.not_ge)

theorem exec_debugTimeout_early (h : s.now < (s.eng e).debugAt + 28800000000000) : exec (.debugTimeout e) s = .next s :=
  next_of_last_false (decide_eq_false h.not_ge)

theorem exec_challengeLockoutEnd_early
    (h : ∀ t, (s.eng e).keeper.refuseUntil = some t → (s.eng e).keeper.rtc < t) :
    exec (.challengeLockoutEnd e) s = .next s := by
  show execChallengeLockoutEnd e s = _
  simp [execChallengeLockoutEnd, not_due h]

theorem exec_powerExitComplete_early (h : ∀ t, (s.eng e).power.exitDue = some t → s.now < t) :
    exec (.powerExitComplete e) s = .next s :=
  next_of_last_false (not_due h)

theorem exec_graceExpiry_early (h : ∀ d, s.shutdown = some d → s.now < d.since + d.grace * 1000000000) :
    exec .graceExpiry s = .next s := by
  show execGraceExpiry s = _
  cases hd : s.shutdown with
  | none => simp [execGraceExpiry, hd]
  | some d => simp [execGraceExpiry, hd, (h d hd).not_ge]

end EarlyTimers

/-- Settles O60: each row checks its time itself and leaves the state as it is outside it (logs 2 and 118). -/
theorem earlyTimersDoNothing : Obligations.EarlyTimersDoNothing :=
  ⟨fun _ _ => exec_noQuorum_early, fun _ _ _ => exec_peerUnreachable_early,
   fun _ _ hq => exec_viewProposeTimeout_early hq, fun _ _ hq => exec_viewFormed_late hq,
   fun _ _ _ ha => exec_configPhaseTimeout_early ha, fun _ => exec_splitWindowExpiry_early,
   fun _ _ => exec_timeSuspectClear_early, fun _ got h => exec_leaseClaimCheck_early h got,
   fun _ _ _ _ => exec_coalesceTimeout_early, fun _ _ _ => exec_modeTimeout_early,
   fun _ _ => exec_provisionalTimeout_early, fun _ _ => exec_debugTimeout_early,
   fun _ _ => exec_challengeLockoutEnd_early, fun _ _ => exec_powerExitComplete_early,
   fun _ => exec_graceExpiry_early⟩

end Sys2Proof.Machine

/-! ## The mailbox: what each command answers, the queries, partition 0 and a busy mailbox -/

namespace Sys2Proof.Machine

/-! ### The front of the queue (R82, R109) -/

/-- Settles O1: the queue's front and its rest are what the step's match takes apart. -/
theorem stepRunsFrontCommand : Obligations.StepRunsFrontCommand := by
  intro s c rest hfront
  rw [step, hfront]

/-! ### A mailbox that is BUSY (R83) -/

section BusyMailbox

variable {s : State}

/-- A request to a mailbox that has a job sets OVERRUN there and has no other effect. -/
theorem submitMailbox_busy {op : Nat} {m : MbxReq} {k : MbxKey} {p : PartId}
    (hpath : m.path ≠ .redfish ∨ s.runsDirect m.eng (commandBytes op m) = false) (hkey : s.requestKey m = some (k, p))
    (hbusy : (s.mailbox m.eng k).job.isSome = true) :
    submitMailbox op m s = s.modMailbox m.eng k (fun b => { b with overrun := true }) := by
  have hdirect : (decide (m.path = .redfish) && s.runsDirect m.eng (commandBytes op m) && (s.eng m.eng).powered) = false := by
    rcases hpath with h | h <;> simp [h]
  simp [submitMailbox, hdirect, hkey, hbusy]

/-- What an update makes of the window as it stands is all that matters of it. -/
theorem State.modWin_congr {e : EngId} {p : PartId} {f g : Window → Window} (h : f (s.win e p) = g (s.win e p)) :
    s.modWin e p f = s.modWin e p g := by
  show s.setEng e ((s.eng e).setWin p (f (s.win e p))) = _
  rw [h]
  rfl

section MbxCmd

variable {n : Nat} (hn : n < 16)
include hn

/-- A word of MBX_CMD is one 32-bit register. -/
theorem regAt_mbxCmd : regAt (0x1000 + 4 * n) = (0x1000 + 4 * n, 4) := by
  have hbase : (0x1000 + 4 * n) / 4 * 4 = 0x1000 + 4 * n := by omega
  have hnarrow : wide ((0x1000 + 4 * n) / 8 * 8) = false := by
    have hbelow : ¬ streamBase ≤ (0x1000 + 4 * n) / 8 * 8 := by unfold streamBase; omega
    simp only [wide, hbelow, decide_false, Bool.false_and, Bool.or_false, Bool.or_eq_false_iff, Bool.and_eq_false_iff,
      decide_eq_false_iff_not]
    omega
  have hword : ¬ (0x3000 ≤ 0x1000 + 4 * n ∧ 0x1000 + 4 * n < 0x4000) := by omega
  simp [regAt, hnarrow, hword, hbase]

theorem State.listed_mbxCmd (s : State) (p : PartId) : s.listed p (0x1000 + 4 * n) = true := by
  have hmbx : 0x1000 + 4 * n < 0x2000 := by omega
  have hend : 0x1000 + 4 * n < 0x108C := by omega
  simp [State.listed, hmbx, hend]

/-- While BUSY is 1 a write to a word of MBX_CMD only sets OVERRUN. -/
theorem Window.write_mbxCmd_busy {x : Window} (hbusy : x.mbx.job.isSome = true) (v : Nat) :
    x.write (0x1000 + 4 * n) v = { x with mbx := { x.mbx with overrun := true } } := by
  have hmbx : 0x1000 + 4 * n < 0x2000 := by omega
  have hcmd : 0x1000 + 4 * n < 0x1040 := by omega
  simp [Window.write, Mailbox.write, hmbx, hcmd, hbusy]

theorem State.writeReg_mbxCmd_busy {e : EngId} {p : PartId} (hbusy : (s.win e p).mbx.job.isSome = true) (path : Path)
    (w v : Nat) : s.writeReg e p path (0x1000 + 4 * n) w v =
      s.modWin e p (fun w => { w with mbx := { w.mbx with overrun := true } }) := by
  have hdoorbell : 0x1000 + 4 * n ≠ 0x1080 := by omega
  have hlow : 0x1000 + 4 * n < streamBase := by unfold streamBase; omega
  rw [State.writeReg, State.listed_mbxCmd hn, Bool.not_true, if_neg Bool.false_ne_true, if_neg hdoorbell, if_pos hlow]
  exact State.modWin_congr (Window.write_mbxCmd_busy hn hbusy v)

end MbxCmd

end BusyMailbox

/-- Settles O21: a request finds the job before anything else of the mailbox, and a word of MBX_CMD is a register that BUSY guards. -/
theorem busyMailboxIgnoresCommands : Obligations.BusyMailboxIgnoresCommands := by
  refine ⟨fun r hr m s k p hpath hkey hbusy => ?_, fun src s n v hv hreach hbusy hn => ?_⟩
  · rw [(mailboxRows_submit r hr).2, submitMailbox_busy hpath hkey hbusy]
  · rw [exec_registerWrite, State.access_memory hv hreach, State.writeWindow_register (regAt_mbxCmd hn),
      State.writeReg_mbxCmd_busy hn (by rwa [State.win_touch])]

/-! ### A command that belongs to partition 0 (R88, R90, R93) -/

/-- The command of a row of partition 0 runs the shared checks first, with partition 0 among them. -/
theorem runCommand_partitionZero {c : Call} {s : State}
    (h : c.op ∈ ([0x10, 0x11, 0x12, 0x20, 0x21, 0x30, 0x31, 0x32, 0x35, 0x63, 0x80, 0x91, 0x92, 0x93, 0x98, 0x99, 0x9A, 0xA1,
      0xA2, 0xA4, 0xA6, 0xA7] : List Nat)) :
    ∃ sp k, runCommand c s = guarded c s sp k ∧ sp.p0 = true := by
  unfold runCommand
  generalize c.op = op at h
  fin_cases h
  all_goals exact ⟨_, _, rfl, rfl⟩

/-- The checks of R93 stop a call from another partition where partition 0 is asked for, at the latest with SC_NOT_PERMITTED. -/
theorem checkCommand_notPartitionZero {c : Call} {s : State} {sp : CmdSpec} (hp0 : sp.p0 = true) (hpart : c.part ≠ 0) :
    ∃ st off, st ≠ .ok ∧ checkCommand c s sp = some (st, off) := by
  unfold checkCommand
  dsimp only
  split
  · exact ⟨_, _, by decide, rfl⟩
  split
  · exact ⟨_, _, by decide, rfl⟩
  split
  · exact ⟨_, _, by decide, rfl⟩
  split
  · exact ⟨_, _, by decide, rfl⟩
  · exact ⟨.notPermitted, 0xFFFF, by decide, by simp [hp0, hpart]⟩

/-- A command that waits for a view needs an engine that the view forms without (R299). -/
theorem Call.awaits_engine {c : Call} {s : State} {sp : CmdSpec} (h : c.awaits s sp = true) :
    ∃ x, s.awaitsView c.eng x = true := by
  obtain ⟨-, hany⟩ := (Bool.and_eq_true _ _).mp h
  obtain ⟨x, -, hx⟩ := List.any_eq_true.mp hany
  exact ⟨x, hx⟩

/-- Settles O23: the shared checks of each of these rows refuse the call, unless it waits for a view before them. -/
theorem partitionZeroCommands : Obligations.PartitionZeroCommands := by
  intro r hr hzero m s k p hs hp
  have hop : (mbxCall m r.1 k p s).op = r.1 := mbxCall_op m k p s (mailboxRows_submit r hr).1
  rw [← hop] at hzero
  obtain ⟨sp, body, hrun, hp0⟩ := runCommand_partitionZero (s := s.accepted r.1 m k p) hzero
  rw [Refused, exec_mailboxRow hr hs, hrun, guarded]
  split
  case isTrue hwait => exact .inr ⟨Call.awaits_engine hwait, rfl⟩
  case isFalse =>
    obtain ⟨st, off, hst, hcheck⟩ := checkCommand_notPartitionZero (s := s.accepted r.1 m k p) (c := mbxCall m r.1 k p s) hp0 hp
    exact .inl ⟨st, off, hst, by rw [hcheck]⟩

/-! ### The query commands (R82, R95, R98, R299, R414) -/

/-- A state that differs from another at most in what has been delivered to the hosts. -/
def State.DeliversOnly (s t : State) : Prop := ∃ ds, t = { s with delivered := ds }

section DeliversOnly

variable {c : Call} {s : State}

theorem State.DeliversOnly.refl (s : State) : s.DeliversOnly s := ⟨s.delivered, rfl⟩

theorem State.deliver_deliversOnly (s : State) (d : Delivery) : s.DeliversOnly (s.deliver d) := by
  unfold State.deliver
  split
  · exact .refl s
  · exact ⟨_, rfl⟩

/-- A write to the host buffer, whole or cut short, only delivers. -/
theorem writeBuffer_deliversOnly (c : Call) (s : State) (data body : List Byte) :
    s.DeliversOnly (writeBuffer c s data body).1 := by
  unfold writeBuffer
  dsimp only
  split
  · split <;> exact State.deliver_deliversOnly ..
  · exact State.deliver_deliversOnly ..

/-- Flash that gives only a part of a page changes the status alone (R106). -/
theorem copyPage_deliversOnly (c : Call) (s : State) (data body : List Byte) :
    s.DeliversOnly (copyPage c s data body).1 := by
  unfold copyPage
  split
  · split
    · have hcut := writeBuffer_deliversOnly c s (data.take ‹Nat›) body
      split
      · rename_i h
        rwa [h] at hcut
      · exact hcut
    · exact writeBuffer_deliversOnly ..
  · exact writeBuffer_deliversOnly ..

/-- A call that the shared checks refuse, or that waits for a view, leaves the state as it was. -/
theorem guarded_deliversOnly {sp : CmdSpec} {k : State × Result} (h : s.DeliversOnly k.1) :
    s.DeliversOnly (guarded c s sp k).1 := by
  unfold guarded
  split
  · exact .refl s
  · split
    · exact .refl s
    · exact h

/-- A call that its chapter's list refuses leaves the state as it was. -/
theorem ordered_deliversOnly {cs : List (Bool × Status)} {k : State × Result} (h : s.DeliversOnly k.1) :
    s.DeliversOnly (ordered s cs k).1 := by
  unfold ordered
  split
  · exact .refl s
  · exact h

theorem cmdIdentify_deliversOnly : s.DeliversOnly (cmdIdentify c s).1 := by
  refine guarded_deliversOnly ?_
  split
  · exact writeBuffer_deliversOnly ..
  · exact .refl s

theorem cmdGetFeature_deliversOnly : s.DeliversOnly (cmdGetFeature c s).1 := by
  refine guarded_deliversOnly ?_
  dsimp only
  split
  · exact writeBuffer_deliversOnly ..
  · exact .refl s

/-- Only the list of missing contributions goes to the host buffer (R152). -/
theorem cmdStateQuery_deliversOnly : s.DeliversOnly (cmdStateQuery c s).1 := by
  refine guarded_deliversOnly (ordered_deliversOnly ?_)
  split
  · split <;> exact .refl s
  · split <;> exact .refl s
  · exact .refl s
  · exact writeBuffer_deliversOnly ..

theorem cmdEpochQuery_deliversOnly : s.DeliversOnly (cmdEpochQuery c s).1 := by
  refine guarded_deliversOnly (ordered_deliversOnly ?_)
  split
  · split <;> exact .refl s
  · exact .refl s

theorem cmdRestoreQuery_deliversOnly : s.DeliversOnly (cmdRestoreQuery c s).1 := by
  refine guarded_deliversOnly ?_
  split <;> exact .refl s

theorem cmdProgQuery_deliversOnly : s.DeliversOnly (cmdProgQuery c s).1 := by
  refine guarded_deliversOnly ?_
  split <;> split <;> exact .refl s

/-- Each of the seventeen queries only delivers: five of them by a buffer, the others nothing. -/
theorem runCommand_query_deliversOnly (h : c.op ∈ ([0x01, 0x02, 0x04, 0x13, 0x22, 0x33, 0x36, 0x44, 0x53, 0x64, 0x74, 0x81, 0x83,
    0x90, 0xA0, 0xA3, 0xA5] : List Nat)) : s.DeliversOnly (runCommand c s).1 := by
  have hstays {sp : CmdSpec} {r : Result} : s.DeliversOnly (guarded c s sp (s, r)).1 := guarded_deliversOnly (.refl s)
  have hlisted {sp : CmdSpec} {cs : List (Bool × Status)} {r : Result} :
      s.DeliversOnly (guarded c s sp (ordered s cs (s, r))).1 := guarded_deliversOnly (ordered_deliversOnly (.refl s))
  unfold runCommand
  generalize c.op = op at h
  fin_cases h
  · exact cmdIdentify_deliversOnly
  · exact guarded_deliversOnly (copyPage_deliversOnly ..)
  · exact cmdGetFeature_deliversOnly
  · exact hstays
  · exact hstays
  · exact hstays
  · exact hlisted
  · exact cmdStateQuery_deliversOnly
  · exact cmdEpochQuery_deliversOnly
  · exact cmdRestoreQuery_deliversOnly
  · exact cmdProgQuery_deliversOnly
  · exact hstays
  · exact hstays
  · exact hlisted
  · exact hstays
  · exact hstays
  · exact hstays

end DeliversOnly

/-- Settles O22: what a query leaves of its acceptance's state differs in the deliveries at most. -/
theorem queriesOnlyReport : Obligations.QueriesOnlyReport := by
  intro r hr hquery m s k p hs
  have hop : (mbxCall m r.1 k p s).op = r.1 := mbxCall_op m k p s (mailboxRows_submit r hr).1
  rw [← hop] at hquery
  obtain ⟨ds, hds⟩ := runCommand_query_deliversOnly (s := s.accepted r.1 m k p) hquery
  exact ⟨_, _, exec_mailboxRow hr hs, hds ▸ rfl⟩

/-! ### A claim's conditions and the refusals of its chapter's list -/

/-- What all elements pass, no element fails. -/
theorem any_eq_false_of_all {α : Type} {l : List α} {p q : α → Bool} (h : l.all p = true)
    (hpq : ∀ a, p a = true → q a = false) : l.any q = false := by
  rw [List.any_eq_false]
  intro a ha
  simp [hpq a (List.all_eq_true.mp h a ha)]

theorem option_any_eq_false_of_all {α : Type} {o : Option α} {p q : α → Bool} (h : o.all p = true)
    (hpq : ∀ a, p a = true → q a = false) : o.any q = false := by
  cases o with
  | none => rfl
  | some a => exact hpq a h

/-- A refusal that applies only under a guard, where under it what it asks for holds. -/
theorem guard_and_eq_false {g a b : Bool} (h : (!g || a) = true) (hab : a = true → b = false) : (g && b) = false := by
  cases g with
  | false => rfl
  | true => exact hab h

theorem isNone_of_isSome {α : Type} {o : Option α} (h : o.isSome = true) : o.isNone = false := by
  rw [← Option.not_isSome, h]
  rfl

/-- A command whose buffer has been fetched runs on its bytes. -/
theorem withData_of_isSome {c : Call} (h : c.data.isSome = true) (s : State) (k : List Byte → State × Result) :
    withData c s k = k (c.data.getD []) := by
  obtain ⟨d, hd⟩ := Option.isSome_iff_exists.mp h
  simp [withData, hd]

/-- A chapter's list that a claim excludes as a whole. -/
theorem forall_fst_eq_false {cs : List (Bool × Status)} (h : cs.all (fun q => !q.1) = true) : ∀ x ∈ cs, x.1 = false :=
  fun x hx => (Bool.not_eq_true' _).mp (List.all_eq_true.mp h x hx)

/-- A row answers as claimed when its command gives the claim's result under the claim's condition. -/
theorem answers_of_claimed {op : Nat} {mk : MbxReq → Instr} {cmd : Call → State → State × Result} {f : Call → State → Meaning}
    (hcmd : ∀ c s, (f c s).holds = true → cmd c s = (f c s).result)
    (hrow : MailboxRow op mk cmd := by exact ⟨by decide, fun _ _ => rfl, fun _ _ _ _ _ => rfl⟩) : Answers op mk f :=
  hrow.answers hcmd

/-! ### The administration commands (R95, R98, R102, R106) -/

section AdminCommands

variable {c : Call} {s : State}

/-- How a transfer ends behind which the flash gives no more: SC_MEDIUM_ERROR where it went well (R106). -/
def Result.atMediumEnd (r : Result) : Result :=
  match r with
  | .done .ok _ b => .done .mediumError 0xFFFF b
  | r => r

/-- A page that the flash gives as far as the buffer takes it is copied whole. -/
theorem copyPage_whole {data : List Byte} (h : ¬ c.flash.getD data.length < min c.dlen data.length) (body : List Byte) :
    copyPage c s data body = writeBuffer c s data body := by
  unfold copyPage
  split
  case h_1 k hk =>
    rw [hk, Option.getD_some] at h
    rw [if_neg h]
  case h_2 => rfl

/-- A page that the flash gives only in part is copied so far (R106; log 103). -/
theorem copyPage_cut {data : List Byte} (h : c.flash.getD data.length < min c.dlen data.length) (body : List Byte) :
    copyPage c s data body = ((writeBuffer c s (data.take (c.flash.getD data.length)) body).1,
      (writeBuffer c s (data.take (c.flash.getD data.length)) body).2.atMediumEnd) := by
  unfold copyPage
  split
  case h_1 k hk =>
    rw [hk, Option.getD_some] at h ⊢
    rw [if_pos h]
    obtain ⟨t, r⟩ := writeBuffer c s (data.take k) body
    cases r with
    | done st err b => cases st <;> rfl
    | wait w => rfl
  case h_2 hk =>
    rw [hk, Option.getD_none] at h
    exact absurd (Nat.min_le_right ..) h.not_ge

theorem cmdGetLog_claimed (h : (claimGetLog c s).holds = true) : cmdGetLog c s = (claimGetLog c s).result := by
  refine (guarded_of_passes h _).trans ?_
  dsimp only [claimGetLog]
  split
  case isTrue hcut => exact copyPage_cut hcut _
  case isFalse hwhole => exact copyPage_whole hwhole _

/-- SET_FEATURE takes STORE_TARGETS from the buffer and every other value from the command (R102, R103). -/
theorem cmdSetFeature_claimed (h : (claimSetFeature c s).holds = true) :
    cmdSetFeature c s = (claimSetFeature c s).result := by
  obtain ⟨hpass, hdata⟩ := (Bool.and_eq_true _ _).mp h
  refine (guarded_of_passes hpass _).trans ?_
  by_cases hfid : c.fld 8 2 = 2
  · rw [if_pos hfid, withData_of_isSome (by simpa [hfid] using hdata)]
    simp [claimSetFeature, hfid]
  · simp [claimSetFeature, hfid]

end AdminCommands

/-- Settles O9: past the shared checks the command of each row gives its claim's result, GET_LOG as far as the flash gives its page
(R106; log 103). -/
theorem adminCommandsAnswer : Obligations.AdminCommandsAnswer :=
  ⟨answers_of_claimed (cmd := cmdIdentify) fun _ _ hpass => guarded_of_passes hpass _,
   answers_of_claimed fun _ _ => cmdGetLog_claimed,
   answers_of_claimed fun _ _ => cmdSetFeature_claimed,
   answers_of_claimed (cmd := cmdGetFeature) fun _ _ hpass => guarded_of_passes hpass _⟩

/-! ### The firmware commands (R409 to R412, R420, R421) -/

section FirmwareCommands

variable {c : Call} {s : State}

theorem cmdFwDownload_claimed (h : (claimFwDownload c s).holds = true) :
    cmdFwDownload c s = (claimFwDownload c s).result := by
  simp only [claimFwDownload, Bool.and_eq_true] at h
  obtain ⟨⟨hpass, hfits⟩, hdata⟩ := h
  exact (guarded_ordered_one _ hpass (by simpa using hfits) _).trans (withData_of_isSome hdata s _)

/-- FW_COMMIT finds on every engine named an image that its slot can take (R409 to R411, R420). -/
theorem cmdFwCommit_claimed (h : (claimFwCommit c s).holds = true) : cmdFwCommit c s = (claimFwCommit c s).result := by
  obtain ⟨hpass, himages⟩ := (Bool.and_eq_true _ _).mp h
  refine guarded_ordered_of_passes hpass ?_ _
  simp only [List.forall_mem_cons]
  refine ⟨any_eq_false_of_all himages ?_, any_eq_false_of_all himages ?_, any_eq_false_of_all himages ?_,
    any_eq_false_of_all himages ?_, List.forall_mem_nil _⟩
  all_goals
    intro e himage
    simp only [Bool.and_eq_true, decide_eq_true_eq] at himage
    obtain ⟨⟨⟨⟨hshaped, hauthentic⟩, hsec⟩, hslot⟩, hcounter⟩ := himage
  · simp [hshaped]
  · simp [hauthentic]
  · simpa using hsec
  · simpa [hslot] using hcounter

theorem cmdFwActivate_claimed (h : (claimFwActivate c s).holds = true) :
    cmdFwActivate c s = (claimFwActivate c s).result := by
  simp only [claimFwActivate, Bool.and_eq_true, Bool.not_eq_true'] at h
  obtain ⟨⟨⟨⟨⟨⟨hpass, hbuild⟩, hquorum⟩, hnext⟩, hparity⟩, halone⟩, hreshard⟩ := h
  refine guarded_ordered_of_passes hpass ?_ _
  simp only [List.forall_mem_cons]
  refine ⟨option_any_eq_false_of_all hbuild (by simp), ?_, ?_, List.forall_mem_nil _⟩
  · rw [decide_eq_false (not_lt.mpr (of_decide_eq_true hquorum)), isNone_of_isSome hnext]
    simpa [or_iff_not_imp_left] using hparity
  · rw [option_any_eq_false_of_all halone (by simp), hreshard, Bool.or_false]

end FirmwareCommands

/-- Settles O10: past the shared checks and the list of R420 and R421 the command of each row gives its claim's result. -/
theorem firmwareCommandsAnswer : Obligations.FirmwareCommandsAnswer :=
  ⟨answers_of_claimed fun _ _ => cmdFwDownload_claimed,
   answers_of_claimed fun _ _ => cmdFwCommit_claimed,
   answers_of_claimed fun _ _ => cmdFwActivate_claimed,
   answers_of_claimed (cmd := cmdFwQuery) fun _ _ hpass => guarded_of_passes hpass _⟩

/-! ### FORMAT and SANITISE (R413, R414, R422) -/

section FormatAndSanitise

variable {c : Call} {s : State}

theorem cmdFormat_claimed (h : (claimFormat c s).holds = true) : cmdFormat c s = (claimFormat c s).result := by
  simp only [claimFormat, Bool.and_eq_true, Bool.not_eq_true'] at h
  obtain ⟨⟨⟨⟨⟨⟨⟨⟨hpass, hworn⟩, hidle⟩, hlease⟩, htargets⟩, hreached⟩, hfits⟩, hblank⟩, hroom⟩ := h
  refine guarded_ordered_of_passes hpass ?_ _
  simp only [List.forall_mem_cons]
  refine ⟨hworn, by rw [hidle, hlease]; rfl, ?_, any_eq_false_of_all hfits ?_, ?_, hroom, List.forall_mem_nil _⟩
  · rw [htargets, any_eq_false_of_all hreached (by simp), Bool.or_false]
  · simp +contextual
  · simpa [or_iff_not_imp_left] using hblank

theorem cmdSanitise_claimed (h : (claimSanitise c s).holds = true) : cmdSanitise c s = (claimSanitise c s).result := by
  simp only [claimSanitise, Bool.and_eq_true, Bool.not_eq_true'] at h
  obtain ⟨⟨⟨⟨⟨⟨⟨hpass, hworn⟩, hidle⟩, hformat⟩, hcampaigns⟩, hpart⟩, hlease⟩, hroom⟩ := h
  refine (guarded_ordered_of_passes hpass ?_ _).trans rfl
  simp only [List.forall_mem_cons]
  refine ⟨hworn, ?_, ?_, by simpa [or_iff_not_imp_left] using hroom, List.forall_mem_nil _⟩
  · simpa [of_decide_eq_true hidle, Option.isNone_iff_eq_none.mp hformat, or_iff_not_imp_left] using hcampaigns
  · simpa [or_iff_not_imp_left] using And.intro hpart hlease

end FormatAndSanitise

/-- Settles O11: past the shared checks and the list of R422 the command of each row gives its claim's result. -/
theorem formatAndSanitiseCommandsAnswer : Obligations.FormatAndSanitiseCommandsAnswer :=
  ⟨answers_of_claimed fun _ _ => cmdFormat_claimed,
   answers_of_claimed fun _ _ => cmdSanitise_claimed,
   answers_of_claimed (cmd := cmdSanitiseStatus) fun _ _ hpass => guarded_of_passes hpass _⟩

/-! ### The tensor commands (R147, R148, R149, R152, R153, R285) -/

section TensorCommands

variable {c : Call} {s : State}

/-- REG_TENSOR registers at once while no copier runs (R147). -/
theorem cmdRegTensor_claimed (h : (claimRegTensor c s).holds = true) :
    cmdRegTensor c s = (claimRegTensor c s).result := by
  simp only [claimRegTensor, Bool.and_eq_true, Bool.not_eq_true'] at h
  obtain ⟨⟨⟨⟨⟨⟨⟨⟨hpass, hrestoring⟩, hcls⟩, hparent⟩, hlayout⟩, hcount⟩, hroom⟩, hcopying⟩, hdone⟩ := h
  refine (guarded_ordered_of_passes hpass ?_ _).trans ?_
  · simp only [List.forall_mem_cons]
    refine ⟨hrestoring, by simpa using hcls, guard_and_eq_false hparent isNone_of_isSome, hlayout, ?_, List.forall_mem_nil _⟩
    rw [decide_eq_false (not_le.mpr (of_decide_eq_true hcount)), hroom]
    rfl
  · obtain ⟨t, ht⟩ := Option.isSome_iff_exists.mp hdone
    simp [claimRegTensor, hcopying, ht]

theorem cmdRegClass_claimed (h : (claimRegClass c s).holds = true) : cmdRegClass c s = (claimRegClass c s).result := by
  simp only [claimRegClass, Bool.and_eq_true, Bool.not_eq_true'] at h
  obtain ⟨⟨hpass, hrestoring⟩, hformat⟩ := h
  refine guarded_ordered_of_passes hpass ?_ _
  simp only [List.forall_mem_cons]
  exact ⟨hrestoring, by rw [hformat]; rfl, List.forall_mem_nil _⟩

theorem cmdStepPolicy_claimed (h : (claimStepPolicy c s).holds = true) :
    cmdStepPolicy c s = (claimStepPolicy c s).result := by
  simp only [claimStepPolicy, Bool.and_eq_true, Bool.not_eq_true'] at h
  obtain ⟨⟨⟨⟨⟨hpass, hrestoring⟩, hshape⟩, hfirst⟩, hprogram⟩, hdone⟩ := h
  refine (guarded_ordered_of_passes hpass ?_ _).trans ?_
  · simp only [List.forall_mem_cons]
    exact ⟨hrestoring, guard_and_eq_false hshape fun hsame => option_any_eq_false_of_all hsame (by simp),
      by simpa [or_iff_not_imp_left] using hfirst, by simpa [or_iff_not_imp_left] using hprogram, List.forall_mem_nil _⟩
  · obtain ⟨t, ht⟩ := Option.isSome_iff_exists.mp hdone
    simp [claimStepPolicy, ht]

/-- RESHAPE takes effect at once while it has nothing to wait for (R285 to R288). -/
theorem cmdReshape_claimed (h : (claimReshape c s).holds = true) : cmdReshape c s = (claimReshape c s).result := by
  simp only [claimReshape, Bool.and_eq_true, Bool.not_eq_true', decide_eq_true_eq] at h
  obtain ⟨⟨⟨⟨⟨⟨⟨⟨⟨⟨hfree, hpass⟩, hrestoring⟩, hpolicy⟩, hlen⟩, hdata⟩, hmap⟩, hcopying⟩, hupdate⟩, hend⟩, hpushing⟩ := h
  have hlist : ∀ x ∈ [((s.part c.part).restoring, Status.busy), ((s.part c.part).policy.isNone, .notPermitted)], x.1 = false := by
    simp [hrestoring, isNone_of_isSome hpolicy]
  rw [cmdReshape, hfree, if_neg Bool.false_ne_true, guarded_ordered_of_passes hpass hlist, if_neg (not_not_intro hlen),
    withData_of_isSome hdata]
  simp [claimReshape, hmap, hcopying, hupdate, hend, hpushing]

theorem cmdStateQuery_claimed (h : (claimStateQuery c s).holds = true) :
    cmdStateQuery c s = (claimStateQuery c s).result := by
  simp only [claimStateQuery, Bool.and_eq_true, Bool.not_eq_true'] at h
  obtain ⟨⟨⟨hpass, hrestoring⟩, htensor⟩, hrider⟩ := h
  refine (guarded_ordered_one _ hpass hrestoring _).trans ?_
  dsimp only [claimStateQuery]
  generalize c.fld 8 1 = sel at htensor hrider ⊢
  rcases sel with _ | _ | _ | sel
  · obtain ⟨t, ht⟩ := Option.isSome_iff_exists.mp (htensor : ((s.part c.part).tensor? (c.fld 12 4)).isSome = true)
    simp only [ht, Option.elim_some]
  · obtain ⟨r, hr⟩ := Option.isSome_iff_exists.mp (hrider : (assocGet (s.part c.part).riders (c.fld 12 4)).isSome = true)
    simp only [Nat.reduceAdd, hr, assocGetD, Option.getD_some]
  · rfl
  · rfl

theorem cmdTensorDrop_claimed (h : (claimTensorDrop c s).holds = true) :
    cmdTensorDrop c s = (claimTensorDrop c s).result := by
  simp only [claimTensorDrop, Bool.and_eq_true, Bool.not_eq_true'] at h
  obtain ⟨⟨⟨⟨⟨hpass, hrestoring⟩, htensor⟩, hfree⟩, hstep⟩, hcopying⟩ := h
  refine (guarded_ordered_of_passes hpass ?_ _).trans ?_
  · simp only [List.forall_mem_cons]
    exact ⟨hrestoring, isNone_of_isSome htensor, by rw [hfree]; rfl, List.forall_mem_nil _⟩
  · simp [claimTensorDrop, hstep, hcopying]

end TensorCommands

/-- Settles O13: past the shared checks and its chapter's list the command of each row gives its claim's result. -/
theorem tensorCommandsAnswer : Obligations.TensorCommandsAnswer :=
  ⟨answers_of_claimed fun _ _ => cmdRegTensor_claimed,
   answers_of_claimed fun _ _ => cmdRegClass_claimed,
   answers_of_claimed fun _ _ => cmdStepPolicy_claimed,
   answers_of_claimed fun _ _ => cmdReshape_claimed,
   answers_of_claimed fun _ _ => cmdStateQuery_claimed,
   answers_of_claimed fun _ _ => cmdTensorDrop_claimed⟩

/-! ### The epoch commands (R188 to R192) -/

section EpochCommands

variable {c : Call} {s : State}

theorem cmdEpochCut_claimed (h : (claimEpochCut c s).holds = true) : cmdEpochCut c s = (claimEpochCut c s).result := by
  simp only [claimEpochCut, Bool.and_eq_true, Bool.not_eq_true'] at h
  obtain ⟨⟨hpass, hrestoring⟩, hcut⟩ := h
  exact guarded_ordered_of_passes hpass (List.forall_mem_cons.mpr ⟨hrestoring, forall_fst_eq_false hcut⟩) _

theorem cmdEpochCommit_claimed (h : (claimEpochCommit c s).holds = true) :
    cmdEpochCommit c s = (claimEpochCommit c s).result := by
  simp only [claimEpochCommit, Bool.and_eq_true, Bool.not_eq_true'] at h
  obtain ⟨⟨⟨⟨⟨hpass, hrestoring⟩, hepoch⟩, hfailed⟩, htime⟩, hroom⟩ := h
  refine guarded_ordered_of_passes hpass ?_ _
  simp only [List.forall_mem_cons]
  exact ⟨hrestoring, isNone_of_isSome hepoch, hfailed, htime, by simpa [or_iff_not_imp_left] using hroom, List.forall_mem_nil _⟩

theorem cmdEpochRelease_claimed (h : (claimEpochRelease c s).holds = true) :
    cmdEpochRelease c s = (claimEpochRelease c s).result := by
  simp only [claimEpochRelease, Bool.and_eq_true, Bool.not_eq_true'] at h
  obtain ⟨⟨⟨hpass, hrestoring⟩, hepoch⟩, hchain⟩ := h
  refine guarded_ordered_of_passes hpass ?_ _
  simp only [List.forall_mem_cons]
  exact ⟨hrestoring, isNone_of_isSome hepoch, by simpa [or_iff_not_imp_left] using hchain, List.forall_mem_nil _⟩

theorem cmdEpochQuery_claimed (h : (claimEpochQuery c s).holds = true) :
    cmdEpochQuery c s = (claimEpochQuery c s).result := by
  simp only [claimEpochQuery, Bool.and_eq_true, Bool.not_eq_true'] at h
  obtain ⟨⟨hpass, hrestoring⟩, hepoch⟩ := h
  refine (guarded_ordered_one _ hpass hrestoring _).trans ?_
  simp only [claimEpochQuery]
  split
  case isTrue hsel =>
    obtain ⟨ep, hep⟩ := Option.isSome_iff_exists.mp (by simpa [hsel] using hepoch)
    simp [hep]
  case isFalse => rfl

theorem cmdRebase_claimed (h : (claimRebase c s).holds = true) : cmdRebase c s = (claimRebase c s).result := by
  simp only [claimRebase, Bool.and_eq_true, Bool.not_eq_true'] at h
  obtain ⟨⟨⟨hpass, hrestoring⟩, hepochs⟩, hopened⟩ := h
  refine (guarded_ordered_of_passes hpass ?_ _).trans ?_
  · simp only [List.forall_mem_cons]
    exact ⟨hrestoring, by rw [hepochs]; rfl, List.forall_mem_nil _⟩
  · cases hgen : s.openGen c.part with
    | ok t => simp [claimRebase, hgen, Except.toOption]
    | error st => simp [hgen, Except.toOption] at hopened

end EpochCommands

/-- Settles O14: past the shared checks and its chapter's list the command of each row gives its claim's result. -/
theorem epochCommandsAnswer : Obligations.EpochCommandsAnswer :=
  ⟨answers_of_claimed fun _ _ => cmdEpochCut_claimed,
   answers_of_claimed fun _ _ => cmdEpochCommit_claimed,
   answers_of_claimed fun _ _ => cmdEpochRelease_claimed,
   answers_of_claimed fun _ _ => cmdEpochQuery_claimed,
   answers_of_claimed fun _ _ => cmdRebase_claimed⟩

/-! ### The restore commands and RESHARD (R281, R290, R294) -/

section RestoreCommands

variable {c : Call} {s : State}

theorem cmdRestoreOpen_claimed (h : (claimRestoreOpen c s).holds = true) :
    cmdRestoreOpen c s = (claimRestoreOpen c s).result := by
  simp only [claimRestoreOpen, Bool.and_eq_true, Bool.not_eq_true', Option.isNone_iff_eq_none] at h
  obtain ⟨⟨⟨⟨⟨⟨⟨⟨⟨⟨⟨hpass, hempty⟩, hsession⟩, hreshard⟩, hidle⟩, hepochs⟩, hchain⟩, hkey⟩, hdata⟩, hsealed⟩, hversion⟩, heven⟩ := h
  refine guarded_ordered_of_passes hpass ?_ _
  simp only [List.forall_mem_cons]
  refine ⟨?_, ?_, isNone_of_isSome hchain, ?_, any_eq_false_of_all hsealed ?_, ?_, List.forall_mem_nil _⟩
  · simpa [or_iff_not_imp_left] using hempty
  · simpa [hsession, hreshard, hidle, or_iff_not_imp_left] using hepochs
  · rw [isNone_of_isSome hkey, any_eq_false_of_all hdata (by simp [or_iff_not_imp_left]), Bool.or_false]
  · rintro ⟨r, m⟩ hmanifest
    obtain ⟨hfits, hseal⟩ := (Bool.and_eq_true _ _).mp hmanifest
    simp only [hfits, hseal, Bool.not_true, Bool.or_false]
  · rw [option_any_eq_false_of_all hversion (by simp), any_eq_false_of_all heven (by simp), Bool.or_false]

/-- RESTORE_MAP changes a session that has not run, by entries that name its tensors (R292, R294). -/
theorem cmdRestoreMap_claimed (h : (claimRestoreMap c s).holds = true) :
    cmdRestoreMap c s = (claimRestoreMap c s).result := by
  simp only [claimRestoreMap, Bool.and_eq_true, Bool.not_eq_true'] at h
  obtain ⟨⟨⟨⟨hpass, hsession⟩, hdata⟩, htensors⟩, hmap⟩ := h
  refine (guarded_ordered_of_passes hpass ?_ _).trans ((withData_of_isSome hdata s _).trans ?_)
  · obtain ⟨r, hr, hstate⟩ := (Option.any_eq_true ..).mp hsession
    simp [hr, of_decide_eq_true hstate]
  · exact (if_neg (ne_true_of_eq_false (any_eq_false_of_all htensors (by simp)))).trans (if_neg (ne_true_of_eq_false hmap))

theorem cmdRestoreRun_claimed (h : (claimRestoreRun c s).holds = true) :
    cmdRestoreRun c s = (claimRestoreRun c s).result := by
  simp only [claimRestoreRun, Bool.and_eq_true, Bool.not_eq_true'] at h
  obtain ⟨⟨hpass, hsession⟩, hroom⟩ := h
  refine (guarded_of_passes hpass _).trans ?_
  cases hr : (s.part c.part).restore with
  | none => simp [hr] at hsession
  | some r =>
    simp only [hr, Option.any_some, Bool.and_eq_true, Bool.not_eq_true'] at hsession
    obtain ⟨⟨⟨⟨hstate, hreplay⟩, hempty⟩, hparity⟩, hquota⟩ := hsession
    refine (ordered_of_none ?_ s _).trans ?_
    · simp only [List.forall_mem_cons]
      refine ⟨by simpa using hstate, ?_, by simpa using hparity, hquota, hroom, List.forall_mem_nil _⟩
      simpa [or_iff_not_imp_left] using And.intro hreplay hempty
    · simp [claimRestoreRun, hr]

theorem cmdRestoreQuery_claimed (h : (claimRestoreQuery c s).holds = true) :
    cmdRestoreQuery c s = (claimRestoreQuery c s).result := by
  refine (guarded_of_passes h _).trans ?_
  simp only [claimRestoreQuery]
  cases (s.part c.part).restore <;> simp

theorem cmdRestoreClose_claimed (h : (claimRestoreClose c s).holds = true) :
    cmdRestoreClose c s = (claimRestoreClose c s).result := by
  obtain ⟨hpass, hsession⟩ := (Bool.and_eq_true _ _).mp h
  refine (guarded_of_passes hpass _).trans ?_
  obtain ⟨r, hr⟩ := Option.isSome_iff_exists.mp hsession
  simp [claimRestoreClose, hr]

theorem cmdReshard_claimed (h : (claimReshard c s).holds = true) : cmdReshard c s = (claimReshard c s).result := by
  simp only [claimReshard, Bool.and_eq_true, Bool.not_eq_true', Option.isNone_iff_eq_none] at h
  obtain ⟨⟨⟨⟨⟨⟨⟨hpass, hexists⟩, hreshard⟩, hsession⟩, hparity⟩, hfits⟩, hstreams⟩, hroom⟩ := h
  refine guarded_ordered_of_passes hpass ?_ _
  simp only [List.forall_mem_cons]
  exact ⟨by rw [hexists]; rfl, by rw [hreshard, hsession]; rfl, by simpa using hparity, by rw [hfits, hstreams]; rfl, hroom,
    List.forall_mem_nil _⟩

end RestoreCommands

/-- Settles O15: past the shared checks and the list of R294 the command of each row gives its claim's result, RESHARD an adoption
before the campaign (log 42). -/
theorem restoreCommandsAnswer : Obligations.RestoreCommandsAnswer :=
  ⟨answers_of_claimed fun _ _ => cmdRestoreOpen_claimed,
   answers_of_claimed fun _ _ => cmdRestoreMap_claimed,
   answers_of_claimed fun _ _ => cmdRestoreRun_claimed,
   answers_of_claimed fun _ _ => cmdReshard_claimed,
   answers_of_claimed fun _ _ => cmdRestoreQuery_claimed,
   answers_of_claimed fun _ _ => cmdRestoreClose_claimed⟩

/-! ### The program commands (R170, R171, R172) -/

section ProgramCommands

variable {c : Call} {s : State}

/-- PROG_LOAD keeps a container that passes the checks of R171. -/
theorem cmdProgLoad_claimed (h : (claimProgLoad c s).holds = true) : cmdProgLoad c s = (claimProgLoad c s).result := by
  simp only [claimProgLoad, Bool.and_eq_true, Bool.not_eq_true'] at h
  obtain ⟨⟨⟨⟨⟨⟨⟨hpass, hdata⟩, hallowed⟩, hdigest⟩, hshaped⟩, hfuse⟩, hspins⟩, hroom⟩ := h
  refine (guarded_of_passes hpass _).trans ((withData_of_isSome hdata s _).trans (ordered_of_none ?_ s _))
  simp only [List.forall_mem_cons]
  refine ⟨hallowed, by rw [hdigest]; rfl, ?_, any_eq_false_of_all hspins (by simp), hroom, List.forall_mem_nil _⟩
  rw [hshaped, any_eq_false_of_all hfuse fun _ h => guard_and_eq_false h (by simp)]
  rfl

theorem cmdProgUnload_claimed (h : (claimProgUnload c s).holds = true) :
    cmdProgUnload c s = (claimProgUnload c s).result := by
  simp only [claimProgUnload, Bool.and_eq_true, Bool.not_eq_true'] at h
  obtain ⟨⟨hpass, hloaded⟩, hunnamed⟩ := h
  refine guarded_ordered_of_passes hpass ?_ _
  simp only [List.forall_mem_cons]
  exact ⟨by rw [hloaded]; rfl, hunnamed, List.forall_mem_nil _⟩

theorem cmdSpinLoad_claimed (h : (claimSpinLoad c s).holds = true) : cmdSpinLoad c s = (claimSpinLoad c s).result := by
  simp only [claimSpinLoad, Bool.and_eq_true] at h
  obtain ⟨⟨⟨⟨⟨hpass, hdata⟩, hdigest⟩, hshaped⟩, hcount⟩, hroom⟩ := h
  refine (guarded_of_passes hpass _).trans ((withData_of_isSome hdata s _).trans (ordered_of_none ?_ s _))
  simp only [List.forall_mem_cons]
  refine ⟨by rw [hdigest]; rfl, by rw [hshaped]; rfl, ?_, List.forall_mem_nil _⟩
  rw [decide_eq_false (not_le.mpr (of_decide_eq_true hcount)), any_eq_false_of_all hroom (by simp), Bool.or_false]

theorem cmdSpinUnload_claimed (h : (claimSpinUnload c s).holds = true) :
    cmdSpinUnload c s = (claimSpinUnload c s).result := by
  simp only [claimSpinUnload, Bool.and_eq_true] at h
  obtain ⟨⟨hpass, hloaded⟩, hunnamed⟩ := h
  refine guarded_ordered_of_passes hpass ?_ _
  simp only [List.forall_mem_cons]
  exact ⟨isNone_of_isSome hloaded, any_eq_false_of_all hunnamed fun _ hg => any_eq_false_of_all hg (by simp),
    List.forall_mem_nil _⟩

theorem cmdProgQuery_claimed (h : (claimProgQuery c s).holds = true) :
    cmdProgQuery c s = (claimProgQuery c s).result := by
  refine (guarded_of_passes h _).trans ?_
  simp only [claimProgQuery]
  split
  · cases (s.part c.part).programs.find? (fun g => g.handle.toNat = c.fld 12 4) <;> simp
  · cases (s.part c.part).spins.find? (fun q => q.handle.toNat = c.fld 12 4) <;> simp

end ProgramCommands

/-- Settles O16: past the shared checks and the list of R171 the command of each row gives its claim's result. -/
theorem programCommandsAnswer : Obligations.ProgramCommandsAnswer :=
  ⟨answers_of_claimed fun _ _ => cmdProgLoad_claimed,
   answers_of_claimed fun _ _ => cmdProgUnload_claimed,
   answers_of_claimed fun _ _ => cmdSpinLoad_claimed,
   answers_of_claimed fun _ _ => cmdSpinUnload_claimed,
   answers_of_claimed fun _ _ => cmdProgQuery_claimed⟩

/-! ### The security and key commands (R391, R396, R398, R400, R402, R403, R404) -/

section KeeperCommands

variable {c : Call} {s : State}

theorem cmdSecQuery_claimed (h : (claimSecQuery c s).holds = true) : cmdSecQuery c s = (claimSecQuery c s).result := by
  obtain ⟨hpass, hvisible⟩ := (Bool.and_eq_true _ _).mp h
  exact guarded_ordered_one _ hpass (by simpa [or_iff_not_imp_left] using hvisible) _

theorem cmdProvision_claimed (h : (claimProvision c s).holds = true) :
    cmdProvision c s = (claimProvision c s).result := by
  simp only [claimProvision, Bool.and_eq_true] at h
  obtain ⟨⟨⟨⟨⟨hpass, hverified⟩, hstate⟩, hreserve⟩, hdata⟩, hanchor⟩ := h
  refine (guarded_ordered_of_passes hpass ?_ _).trans ((withData_of_isSome hdata s _).trans (ordered_of_none ?_ s _))
  · simp only [List.forall_mem_cons]
    exact ⟨any_eq_false_of_all hstate fun _ h => (Bool.not_eq_false' ..).mpr h, any_eq_false_of_all hverified (by simp),
      any_eq_false_of_all hreserve fun _ h => decide_eq_false (not_lt.mpr (of_decide_eq_true h)), List.forall_mem_nil _⟩
  · simp only [List.forall_mem_cons]
    exact ⟨any_eq_false_of_all hanchor fun _ h => option_any_eq_false_of_all h (by simp), List.forall_mem_nil _⟩

theorem cmdSeal_claimed (h : (claimSeal c s).holds = true) : cmdSeal c s = (claimSeal c s).result := by
  obtain ⟨hpass, hstate⟩ := (Bool.and_eq_true _ _).mp h
  exact guarded_ordered_one _ hpass (any_eq_false_of_all hstate (by simp)) _

theorem cmdRetire_claimed (h : (claimRetire c s).holds = true) : cmdRetire c s = (claimRetire c s).result := by
  simp only [claimRetire, Bool.and_eq_true] at h
  obtain ⟨⟨hpass, harmed⟩, hquorum⟩ := h
  exact guarded_ordered_one _ hpass (by simpa [harmed, or_iff_not_imp_left] using hquorum) _

/-- KEY_LOAD fills the slot where the blob unwraps to a key on every engine named (R391, R402). -/
theorem cmdKeyLoad_claimed (h : (claimKeyLoad c s).holds = true) : cmdKeyLoad c s = (claimKeyLoad c s).result := by
  simp only [claimKeyLoad, Bool.and_eq_true, List.all_map] at h
  obtain ⟨⟨⟨⟨hpass, hslot⟩, hchecks⟩, hdata⟩, hkeys⟩ := h
  obtain ⟨i, hi⟩ := Option.isSome_iff_exists.mp hslot
  refine (guarded_of_passes hpass _).trans ?_
  rw [hi] at hchecks ⊢
  refine (ordered_of_none (forall_fst_eq_false hchecks) s _).trans ((withData_of_isSome hdata s _).trans
    ((ordered_of_none ?_ s _).trans ?_))
  · simp only [List.forall_mem_cons, List.any_map]
    refine ⟨any_eq_false_of_all hkeys fun e hkey => ?_, any_eq_false_of_all hkeys (by simp), List.forall_mem_nil _⟩
    exact isNone_of_isSome (Option.isSome_of_isSome_bind hkey)
  · simp only [claimKeyLoad, hi, List.map_map]
    rfl

/-- KEY_GENERATE whose blob reaches the host fills the slots with the key that was drawn (R391, R402). -/
theorem cmdKeyGenerate_claimed (h : (claimKeyGenerate c s).holds = true) :
    cmdKeyGenerate c s = (claimKeyGenerate c s).result := by
  simp only [claimKeyGenerate, Bool.and_eq_true, Option.isNone_iff_eq_none] at h
  obtain ⟨⟨⟨⟨hpass, hslot⟩, hchecks⟩, husage⟩, hworks⟩ := h
  obtain ⟨i, hi⟩ := Option.isSome_iff_exists.mp hslot
  refine (guarded_of_passes hpass _).trans ?_
  rw [hi] at hchecks ⊢
  refine (ordered_of_none (List.forall_mem_append.mpr ⟨forall_fst_eq_false hchecks, by simp [husage]⟩) s _).trans ?_
  simp [claimKeyGenerate, hi, writeBuffer, hworks, Result.ok]

theorem cmdKeyZeroise_claimed (h : (claimKeyZeroise c s).holds = true) :
    cmdKeyZeroise c s = (claimKeyZeroise c s).result := by
  simp only [claimKeyZeroise, Bool.and_eq_true] at h
  obtain ⟨⟨⟨⟨hpass, hslot⟩, hkeys⟩, hmanifest⟩, hdata⟩ := h
  obtain ⟨i, hi⟩ := Option.isSome_iff_exists.mp hslot
  refine (guarded_of_passes hpass _).trans ?_
  rw [hi]
  simp only [hi, Option.getD_some] at hkeys
  refine (ordered_of_none ?_ s _).trans ?_
  · simp only [List.forall_mem_cons]
    refine ⟨any_eq_false_of_all hkeys ?_, any_eq_false_of_all hkeys ?_, ?_, List.forall_mem_nil _⟩
    · simp +contextual
    · simp +contextual
    · rw [State.anyEng, any_eq_false_of_all hkeys (by simp +contextual)]
      simpa using And.intro hmanifest hdata
  · simp [claimKeyZeroise, hi]

theorem cmdKeyBind_claimed (h : (claimKeyBind c s).holds = true) : cmdKeyBind c s = (claimKeyBind c s).result := by
  simp only [claimKeyBind, Bool.and_eq_true] at h
  obtain ⟨⟨⟨hpass, hstate⟩, hmanifest⟩, hdata⟩ := h
  refine guarded_ordered_of_passes hpass ?_ _
  simp only [List.forall_mem_cons]
  refine ⟨any_eq_false_of_all hstate (by simp), ?_, List.forall_mem_nil _⟩
  rw [option_any_eq_false_of_all hmanifest (by simp), option_any_eq_false_of_all hdata (by simp), Bool.or_false]

theorem cmdKeeperChallenge_claimed (h : (claimKeeperChallenge c s).holds = true) :
    cmdKeeperChallenge c s = (claimKeeperChallenge c s).result := by
  simp only [claimKeeperChallenge, Bool.and_eq_true, Option.isNone_iff_eq_none] at h
  obtain ⟨⟨⟨hpass, hopen⟩, hpermits⟩, hworks⟩ := h
  refine (guarded_ordered_one _ hpass (by simp [hopen, hpermits]) _).trans ?_
  simp [claimKeeperChallenge, writeBuffer, hworks, Result.ok]

/-- KEEPER_RESPOND with a free lane is checked at once (R268, R396 to R398). -/
theorem cmdKeeperRespond_claimed (h : (claimKeeperRespond c s).holds = true) :
    cmdKeeperRespond c s = (claimKeeperRespond c s).result := by
  simp only [claimKeeperRespond, Bool.and_eq_true] at h
  obtain ⟨⟨⟨hpass, hdata⟩, hchallenge⟩, hlane⟩ := h
  obtain ⟨ch, hch⟩ := Option.isSome_iff_exists.mp hchallenge
  refine (guarded_of_passes hpass _).trans ((withData_of_isSome hdata s _).trans ?_)
  rcases hl : s.shelfLane ((engId? (c.fld 9 1)).getD 0) .bridge with ⟨_ | i, t⟩
  · simp [hl] at hlane
  · simp [claimKeeperRespond, hch, hl, answerKeeper]

end KeeperCommands

/-- Settles O18: past the shared checks and its chapter's list the command of each row gives its claim's result. PROVISION acts on every
engine of the view (log 23), RETIRE leaves state 4 and reason 0 (log 24), and a rejected response ends with SC_DIGEST_MISMATCH
(log 25). -/
theorem keeperCommandsAnswer : Obligations.KeeperCommandsAnswer :=
  ⟨answers_of_claimed fun _ _ => cmdSecQuery_claimed,
   answers_of_claimed fun _ _ => cmdProvision_claimed,
   answers_of_claimed fun _ _ => cmdSeal_claimed,
   answers_of_claimed fun _ _ => cmdRetire_claimed,
   answers_of_claimed fun _ _ => cmdKeyLoad_claimed,
   answers_of_claimed fun _ _ => cmdKeyGenerate_claimed,
   answers_of_claimed fun _ _ => cmdKeyZeroise_claimed,
   answers_of_claimed fun _ _ => cmdKeyBind_claimed,
   answers_of_claimed fun _ _ => cmdKeeperChallenge_claimed,
   answers_of_claimed fun _ _ => cmdKeeperRespond_claimed,
   answers_of_claimed (cmd := cmdKeeperClose) fun _ _ hpass => guarded_of_passes hpass _⟩

/-! ### The membership, time and lease commands (R308, R315, R317, R318) -/

section MembershipCommands

variable {c : Call} {s : State}

theorem cmdMemberExclude_claimed (h : (claimMemberExclude c s).holds = true) :
    cmdMemberExclude c s = (claimMemberExclude c s).result := by
  obtain ⟨hpass, hquorum⟩ := (Bool.and_eq_true _ _).mp h
  exact guarded_ordered_one _ hpass (by simpa using hquorum) _

theorem cmdMemberAdmit_claimed (h : (claimMemberAdmit c s).holds = true) :
    cmdMemberAdmit c s = (claimMemberAdmit c s).result := by
  obtain ⟨hpass, hknown⟩ := (Bool.and_eq_true _ _).mp h
  exact guarded_ordered_one _ hpass (by simpa [or_iff_not_imp_left] using hknown) _

theorem cmdTimeSet_claimed (h : (claimTimeSet c s).holds = true) : cmdTimeSet c s = (claimTimeSet c s).result := by
  obtain ⟨hpass, hsource⟩ := (Bool.and_eq_true _ _).mp h
  exact guarded_ordered_one _ hpass ((Bool.not_eq_true' _).mp hsource) _

theorem cmdLeaseClaim_claimed (h : (claimLeaseClaim c s).holds = true) :
    cmdLeaseClaim c s = (claimLeaseClaim c s).result := by
  simp only [claimLeaseClaim, Bool.and_eq_true, Bool.not_eq_true'] at h
  obtain ⟨⟨⟨⟨⟨hpass, hfree⟩, hreached⟩, hstate⟩, hslot⟩, hheld⟩ := h
  refine guarded_ordered_of_passes hpass ?_ _
  simp only [List.forall_mem_cons]
  refine ⟨hfree, by rw [hreached]; rfl, ?_, List.forall_mem_nil _⟩
  rw [isNone_of_isSome hslot, hheld]
  simpa using hstate

theorem cmdLeaseRelease_claimed (h : (claimLeaseRelease c s).holds = true) :
    cmdLeaseRelease c s = (claimLeaseRelease c s).result := by
  simp only [claimLeaseRelease, Bool.and_eq_true, Bool.not_eq_true'] at h
  obtain ⟨⟨hpass, hheld⟩, hidle⟩ := h
  refine guarded_ordered_of_passes hpass ?_ _
  simp only [List.forall_mem_cons]
  exact ⟨by rw [hheld]; rfl, hidle, List.forall_mem_nil _⟩

end MembershipCommands

/-- Settles O19: past the shared checks and its chapter's list the command of each row gives its claim's result; TIME_SET and
LEASE_CLAIM wait for their end (R315, R318). -/
theorem membershipCommandsAnswer : Obligations.MembershipCommandsAnswer :=
  ⟨answers_of_claimed (cmd := cmdMemberQuery) fun _ _ hpass => guarded_of_passes hpass _,
   answers_of_claimed fun _ _ => cmdMemberExclude_claimed,
   answers_of_claimed fun _ _ => cmdMemberAdmit_claimed,
   answers_of_claimed (cmd := cmdTimeQuery) fun _ _ hpass => guarded_of_passes hpass _,
   answers_of_claimed fun _ _ => cmdTimeSet_claimed,
   answers_of_claimed (cmd := cmdLeaseQuery) fun _ _ hpass => guarded_of_passes hpass _,
   answers_of_claimed fun _ _ => cmdLeaseClaim_claimed,
   answers_of_claimed fun _ _ => cmdLeaseRelease_claimed⟩

end Sys2Proof.Machine

/-! ## The streams: acceptance, control, the start of a command, its effect and its frame -/

namespace Sys2Proof.Machine

/-! ### Updates of one stream -/

theorem assocGet_assocSet_same {α : Type} (l : List (Nat × α)) (k : Nat) (v : α) : assocGet (assocSet l k v) k = some v := by
  induction l with
  | nil => simp [assocSet, assocGet]
  | cons c rest ih =>
    rw [assocSet]
    split
    case isTrue => simp [assocGet]
    case isFalse =>
      split
      case isTrue => simp [assocGet]
      case isFalse hne =>
        have hother : ¬ c.1 = k := fun h => hne h.symm
        simpa [assocGet, hother] using ih

theorem assocSet_assocSet_same {α : Type} (l : List (Nat × α)) (k : Nat) (v w : α) :
    assocSet (assocSet l k v) k w = assocSet l k w := by
  induction l with
  | nil => simp [assocSet]
  | cons c rest ih =>
    rw [assocSet, assocSet]
    split
    case isTrue => simp [assocSet]
    case isFalse hlt =>
      split
      case isTrue => simp [assocSet]
      case isFalse hne => simp [assocSet, hlt, hne, ih]

@[simp] theorem Window.stream_setStream (w : Window) (n : Nat) (x : Stream) : (w.setStream n x).stream n = x := by
  simp [Window.stream, Window.setStream, assocGetD, assocGet_assocSet_same]

@[simp] theorem Window.setStream_setStream (w : Window) (n : Nat) (x y : Stream) :
    (w.setStream n x).setStream n y = w.setStream n y := by
  simp [Window.setStream, assocSet_assocSet_same]

@[simp] theorem State.stream_modStream (s : State) (a : StreamAt) (f : Stream → Stream) :
    (s.modStream a f).stream a = f (s.stream a) := by
  simp [State.stream, State.modStream]

/-- Two updates of a window are one. -/
theorem State.modWin_modWin (s : State) (e : EngId) (p : PartId) (f g : Window → Window) :
    (s.modWin e p f).modWin e p g = s.modWin e p (fun w => g (f w)) := by
  simp [State.modWin, State.modEng_modEng, Engine.setWin]

/-- Two updates of a stream are one. -/
theorem State.modStream_modStream (s : State) (a : StreamAt) (f g : Stream → Stream) :
    (s.modStream a f).modStream a g = s.modStream a (fun x => g (f x)) := by
  simp [State.modStream, State.modWin_modWin]

/-- What an update makes of the stream as it stands is all that matters of it. -/
theorem State.modStream_congr {s : State} {a : StreamAt} {f g : Stream → Stream} (h : f (s.stream a) = g (s.stream a)) :
    s.modStream a f = s.modStream a g :=
  State.modWin_congr (congrArg ((s.win a.eng a.part).setStream a.stream) h)

/-- An update of an engine that keeps its windows keeps its streams. -/
theorem State.stream_modEng {s : State} {e : EngId} {f : Engine → Engine}
    (h : (f (s.eng e)).windows = (s.eng e).windows) (a : StreamAt) : (s.modEng e f).stream a = s.stream a := by
  have heng (i : EngId) : ((s.modEng e f).eng i).windows = (s.eng i).windows := by
    by_cases hi : i = e
    · rw [hi, State.eng_modEng, h]
    · rw [State.eng_modEng_ne s f hi]
  simp only [State.stream, State.win, heng]

@[simp] theorem State.stream_touch (s : State) (e : EngId) (a : StreamAt) : (s.touch e).stream a = s.stream a := by
  unfold State.touch
  split
  · rfl
  · exact State.stream_modEng rfl a

/-- No update of a stream reaches another field of its window. -/
@[simp] theorem State.resetting_modStream (s : State) (a : StreamAt) (f : Stream → Stream) :
    ((s.modStream a f).win a.eng a.part).resetting = (s.win a.eng a.part).resetting := by
  simp [State.modStream, Window.setStream]

@[simp] theorem State.touch_shutdown (s : State) (e : EngId) : (s.touch e).shutdown = s.shutdown := by
  unfold State.touch
  split <;> rfl

/-! ### Acceptance of a command (R109, R110, R111, R127) -/

/-- The new slot stands at the end of its stream's queue, and the engine's acceptance order moves on. -/
def State.enqueue (s : State) (a : StreamAt) (q : Slot) : State :=
  (s.modEng a.eng (fun y => { y with orderCount := y.orderCount + 1 })).modStream a (fun x =>
    { x with queue := x.queue ++ [q] })

theorem State.stream_enqueue (s : State) (a : StreamAt) (q : Slot) :
    (s.enqueue a q).stream a = { s.stream a with queue := (s.stream a).queue ++ [q] } := by
  rw [State.enqueue, State.stream_modStream, State.stream_modEng rfl]

section Go

variable {s : State} {a : StreamAt} (hr : (s.win a.eng a.part).resetting = false)
include hr

theorem State.goStream_full (hfull : 8 ≤ (s.stream a).queue.length) (path : Path) :
    s.goStream a path = s.modStream a (fun x => { x with overrun := true }) := by
  simp [State.goStream, hr, hfull]

/-- With room in its queue a stream that is not halted takes the command, and the engine wakes (R109). -/
theorem State.goStream_accepts (hroom : (s.stream a).queue.length < 8) (hh : (s.stream a).halted = false)
    (hd : s.shutdown = none) (path : Path) :
    s.goStream a path = (s.enqueue a (newSlot (s.stream a) path (s.eng a.eng).orderCount)).wake a.eng := by
  simp [State.goStream, hr, Nat.not_le.mpr hroom, hh, hd, State.enqueue]

/-- On a halted stream the command ends as soon as it is accepted (R127). -/
theorem State.goStream_halted (hroom : (s.stream a).queue.length < 8) (hh : (s.stream a).halted = true) (path : Path) :
    s.goStream a path = (s.enqueue a (newSlot (s.stream a) path (s.eng a.eng).orderCount)).finishSlot a
      (s.stream a).queue.length .streamHalted 0 := by
  simp [State.goStream, hr, Nat.not_le.mpr hroom, hh, State.enqueue]

end Go

/-- Every stream row writes its command to its stream. -/
theorem streamRows_submit : ∀ r ∈ streamRows, ∀ q s, exec (r.2 q) s = .next (s.submitStream r.1 q) := by
  simp only [streamRows, List.forall_mem_cons]
  exact ⟨fun _ _ => rfl, fun _ _ => rfl, fun _ _ => rfl, fun _ _ => rfl, fun _ _ => rfl, fun _ _ => rfl, fun _ _ => rfl,
    fun _ _ => rfl, fun _ _ => rfl, fun _ _ => rfl, fun _ _ => rfl, List.forall_mem_nil _⟩

/-- The stream that a request names. -/
abbrev stkLoc (q : StkReq) : StreamAt := { eng := q.eng, part := q.part, stream := q.stream }

/-- The state in which a request has written the task registers of its stream. -/
def State.tasked (s : State) (op : Nat) (q : StkReq) : State :=
  (s.touch q.eng).modStream (stkLoc q) (fun x => { x with task := BitVec.ofNat 8 op :: padTo 55 q.body })

section Submit

variable {s : State} {q : StkReq}

theorem State.submitStream_existing (hreach : s.reachesWindow q.eng q.part q.path = true)
    (hstream : q.stream < s.streams q.part) (op : Nat) :
    s.submitStream op q = (s.tasked op q).goStream (stkLoc q) q.path := by
  simp [State.submitStream, hreach, Nat.not_le.mpr hstream, State.tasked]

@[simp] theorem State.stream_tasked (op : Nat) : (s.tasked op q).stream (stkLoc q) =
    { s.stream (stkLoc q) with task := BitVec.ofNat 8 op :: padTo 55 q.body } := by
  rw [State.tasked, State.stream_modStream, State.stream_touch]

@[simp] theorem State.tasked_resetting (op : Nat) :
    ((s.tasked op q).win q.eng q.part).resetting = (s.win q.eng q.part).resetting := by
  rw [State.tasked, State.resetting_modStream (a := (stkLoc q)), State.win_touch]

@[simp] theorem State.tasked_shutdown (op : Nat) : (s.tasked op q).shutdown = s.shutdown := State.touch_shutdown ..

end Submit

/-- The row of an opcode that writes its command to its stream has it accepted. -/
theorem accepts_of_submit {op : Nat} {mk : StkReq → Instr} (hrow : (op, mk) ∈ streamRows) : Accepts op mk := by
  intro q s hreach hstream hreset hroom hhalt hdown
  rw [streamRows_submit _ hrow, State.submitStream_existing hreach hstream, State.goStream_accepts]
  · refine congrArg (fun t : State => Host.Outcome.next (t.wake q.eng)) (State.modStream_congr ?_)
    simp only [State.stream_modEng, State.stream_tasked, newSlot]
    rfl
  · rwa [State.tasked_resetting]
  · rwa [State.stream_tasked]
  · rwa [State.stream_tasked]
  · rwa [State.tasked_shutdown]

/-- Settles O29: each row writes the task registers and STK_GO, and a stream with room takes the command (R109, R111). -/
theorem streamCommandsAreAccepted : Obligations.StreamCommandsAreAccepted := by
  refine ⟨?_, ?_, ?_, ?_, ?_, ?_, ?_, ?_, ?_, ?_, ?_⟩ <;> exact accepts_of_submit (by simp [streamRows])

/-- Settles O32: a full stream has the task registers written and only sets OVERRUN (R110). -/
theorem fullStreamIgnoresCommands : Obligations.FullStreamIgnoresCommands := by
  intro q s r hr hreach hstream hreset hfull
  rw [streamRows_submit r hr, State.submitStream_existing hreach hstream,
    State.goStream_full (by rwa [State.tasked_resetting]) (by rwa [State.stream_tasked]), State.tasked, State.modStream_modStream]

/-! ### A finished slot (R114, R127) -/

theorem State.queue_modSlot (s : State) (a : StreamAt) (i : Nat) (f : Slot → Slot) :
    ((s.modSlot a i f).stream a).queue = (s.stream a).queue.mapIdx (fun j q => if j = i then f q else q) := by
  rw [State.modSlot, State.stream_modStream]

/-- HALT ends what is queued and marks the stream; the tokens that go back are the engine's (R127, R71). -/
theorem State.stream_haltStream (s : State) (a : StreamAt) : (s.haltStream a).stream a = (s.stream a).halt := by
  rw [State.haltStream, State.stream_modStream, State.stream_modEng rfl]

/-- A finished slot stays as it is when its stream halts. -/
theorem Stream.getLast?_halt_of_finished {x : Stream} {q : Slot} (hlast : x.queue.getLast? = some q)
    (hfin : q.isFinished = true) : x.halt.queue.getLast? = some q := by
  simp [Stream.halt, Stream.endSlots, hlast, hfin]

/-- A command that ends in the last slot is finished there, whether or not its failure halts the stream (R114, R126). -/
theorem State.getLast?_finishSlot {s : State} {a : StreamAt} {qs : List Slot} {q : Slot}
    (hq : (s.stream a).queue = qs ++ [q]) (sc : Status) (off : Nat) :
    ((s.finishSlot a qs.length sc off).stream a).queue.getLast? = some (q.finish sc off) := by
  have hslot : (s.stream a).queue[qs.length]? = some q := by simp [hq]
  have hmod : (((s.modSlot a qs.length (fun q => q.finish sc off)).stream a)).queue.getLast? = some (q.finish sc off) := by
    simp [State.queue_modSlot, hq]
  rw [State.finishSlot, hslot]
  dsimp only
  split
  · rw [State.stream_haltStream, State.stream_modEng rfl]
    exact Stream.getLast?_halt_of_finished hmod rfl
  · rw [State.stream_modEng rfl]
    exact hmod

/-! ### A write of STK_CTRL (R120, R127, R128) -/

/-- Setting a bit that is set changes nothing. -/
theorem or_twoPow_of_getLsbD {w : Word} {i : Nat} (h : w.getLsbD i = true) : w ||| BitVec.twoPow 32 i = w := by
  apply BitVec.eq_of_getLsbD_eq
  intro j hj
  rw [BitVec.getLsbD_or, BitVec.getLsbD_twoPow]
  by_cases hij : i = j
  · rw [← hij, h, Bool.true_or]
  · simp [hij]

section ControlWord

variable {s : State} {a : StreamAt} {w : Word}

/-- A write that sets HALT and RESUME, or would change CLASS of a stream that is not empty, only sets OVERRUN (R120, R128). -/
theorem State.controlWord_ignored (h : (w.getLsbD 0 = true ∧ w.getLsbD 1 = true) ∨
      (w.getLsbD 2 ≠ (s.stream a).storeClass ∧ (s.stream a).queue ≠ [])) :
    s.controlWord a w = s.modStream a (fun x => { x with overrun := true }) := by
  simpa [State.controlWord] using fun hboth hclass => absurd h (by simpa using ⟨hboth, hclass⟩)

/-- Any other write sets CLASS and HALT_ON_ERR, and then HALT or RESUME acts. -/
theorem State.controlWord_taken (hboth : ¬(w.getLsbD 0 = true ∧ w.getLsbD 1 = true))
    (hclass : (s.stream a).queue = [] ∨ w.getLsbD 2 = (s.stream a).storeClass) :
    s.controlWord a w = (s.modStream a (fun x => { x with storeClass := w.getLsbD 2, haltOnErr := w.getLsbD 3 })).controlStream a
      w.toNat := by
  have hguard : ((w.getLsbD 0 && w.getLsbD 1) ||
      (w.getLsbD 2 ≠ (s.stream a).storeClass && !(s.stream a).queue.isEmpty)) = false := by
    rcases hclass with hq | hc <;> simp_all
  rw [State.controlWord]
  rw [hguard, if_neg Bool.false_ne_true]

end ControlWord

/-- Among the registers of the stream windows Table 5-1 says which take 8 bytes. -/
theorem wide_stream {b : Nat} (hlow : 0x10000 ≤ b) (hhigh : b < 0x90000) :
    wide b = ([0x10, 0x18, 0x20, 0x28, 0x30, 0x48] : List Nat).contains (b % 0x80) := by
  have hpage : ¬ b < 0xA00 := by omega
  have hblocks : ¬ 0x10A000 ≤ b := by omega
  have hbefore (k : Nat) (hk : k < 0x10000) : ¬ b = k := by omega
  have hbehind (k : Nat) (hk : 0x90000 ≤ k) : ¬ b = k := by omega
  simp [wide, streamBase, hpage, hblocks, hbefore, hbehind, hlow, hhigh]

section ControlRegister

variable {n : Nat} (hn : n < 4096)
include hn

/-- STK_CTRL is one 32-bit register. -/
theorem regAt_stkCtrl : regAt (streamOff n 0x3C) = (streamOff n 0x3C, 4) := by
  have hword : (streamOff n 0x3C) / 4 * 4 = streamOff n 0x3C := by unfold streamOff streamBase; omega
  have hbytes : ¬ (0x3000 ≤ streamOff n 0x3C ∧ streamOff n 0x3C < 0x4000) := by unfold streamOff streamBase; omega
  have hreg : streamOff n 0x3C / 8 * 8 % 0x80 = 0x38 := by unfold streamOff streamBase; omega
  have hlow : 0x10000 ≤ streamOff n 0x3C / 8 * 8 := by unfold streamOff streamBase; omega
  have hhigh : streamOff n 0x3C / 8 * 8 < 0x90000 := by unfold streamOff streamBase; omega
  have hwide : wide (streamOff n 0x3C / 8 * 8) = false := by
    rw [wide_stream hlow hhigh, hreg]
    rfl
  simp [regAt, hwide, hword, hbytes]

theorem State.listed_stkCtrl {s : State} {p : PartId} (hstream : n < s.streams p) : s.listed p (streamOff n 0x3C) = true := by
  have hindex : (streamOff n 0x3C - streamBase) / 0x80 = n := by unfold streamOff; omega
  have hreg : streamOff n 0x3C % 0x80 / 4 * 4 = 0x3C := by unfold streamOff streamBase; omega
  have hlow (k : Nat) (hk : k ≤ 0x10000) : ¬ streamOff n 0x3C < k := by unfold streamOff streamBase; omega
  have hhigh : streamOff n 0x3C < 0x90000 := by unfold streamOff streamBase; omega
  have hbase : ¬ streamOff n 0x3C < streamBase := hlow _ (le_refl _)
  simp [State.listed, hlow, hhigh, hbase, hindex, hreg, hstream, streamListed]

theorem State.writeReg_stkCtrl {s : State} {p : PartId} (hstream : n < s.streams p) (e : EngId) (path : Path) (w : Word) :
    s.writeReg e p path (streamOff n 0x3C) 4 w.toNat = s.controlWord { eng := e, part := p, stream := n } w := by
  have hindex : (streamOff n 0x3C - streamBase) / 0x80 = n := by unfold streamOff; omega
  have hreg : streamOff n 0x3C % 0x80 = 0x3C := by unfold streamOff streamBase; omega
  have hdoorbell : streamOff n 0x3C ≠ 0x1080 := by unfold streamOff streamBase; omega
  have hbase : ¬ streamOff n 0x3C < streamBase := by unfold streamOff; omega
  have hhigh : streamOff n 0x3C < 0x100000 := by unfold streamOff streamBase; omega
  rw [State.writeReg, State.listed_stkCtrl hn hstream, Bool.not_true, if_neg Bool.false_ne_true, if_neg hdoorbell, if_neg hbase,
    if_pos hhigh, hindex, hreg, State.writeStream, if_neg (by decide), BitVec.ofNat_toNat, BitVec.setWidth_eq]

end ControlRegister

/-- On an existing stream that is served a write of a control register takes its effect on the touched engine. -/
theorem State.onStream_served {s : State} {a : StreamAt} (h : StreamServed s a) (reg : Nat) (f : State → State) :
    s.onStream a reg f = f (s.touch a.eng) := by
  obtain ⟨hwin, hserves, hstream⟩ := h
  simp [State.onStream, hwin, hserves, Nat.not_le.mpr hstream]

/-- However STK_CTRL of an existing stream is written, the word takes its effect once the engine has been touched. -/
theorem ControlWrites.exec_eq {s : State} {a : StreamAt} {w : Word} {c : Instr} (h : ControlWrites s a w c)
    (hserved : StreamServed s a) (hn : a.stream < 4096) : exec c s = .next ((s.touch a.eng).controlWord a w) := by
  rcases h with ⟨hhalt, rfl⟩ | ⟨hresume, rfl⟩ | ⟨path, hreach, rfl⟩
  · show execHalt a w s = _
    rw [execHalt, State.onStream_served hserved, show (1#32) = BitVec.twoPow 32 0 from rfl, or_twoPow_of_getLsbD hhalt]
  · show execResume a w s = _
    rw [execResume, State.onStream_served hserved, show (2#32) = BitVec.twoPow 32 1 from rfl, or_twoPow_of_getLsbD hresume]
  · have hreg : regAt (streamOff a.stream 0x3C) = (streamOff a.stream 0x3C, 3 + 1) := regAt_stkCtrl hn
    have hword : w.toNat % 2 ^ (8 * (3 + 1)) = w.toNat := Nat.mod_eq_of_lt w.isLt
    have hstream : a.stream < (s.touch a.eng).streams a.part := by
      rw [State.streams_touch]
      exact hserved.2.2
    rw [exec_registerWrite, State.access_memory (src := ⟨a.eng, a.part, path, .memory⟩) rfl hreach,
      State.writeWindow_register hreg, hword, State.writeReg_stkCtrl hn hstream]

section ControlStream

variable {s : State} {a : StreamAt} {w : Word}

theorem natBit_toNat (w : Word) (i : Nat) : natBit w.toNat i = w.getLsbD i := rfl

theorem State.controlStream_halts (hhalt : w.getLsbD 0 = true) (hresume : w.getLsbD 1 = false) :
    s.controlStream a w.toNat = s.haltStream a := by
  simp only [State.controlStream, natBit_toNat, hhalt, hresume, Bool.and_false, Bool.false_eq_true, if_false, if_true]

theorem State.controlStream_resumes (hhalt : w.getLsbD 0 = false) (hresume : w.getLsbD 1 = true) :
    s.controlStream a w.toNat = s.modStream a (fun x => { x with halted := false }) := by
  simp only [State.controlStream, natBit_toNat, hhalt, hresume, Bool.false_and, Bool.false_eq_true, if_false, if_true]

/-- HALT and RESUME leave the class alone. -/
theorem State.storeClass_controlStream (s : State) (a : StreamAt) (n : Nat) :
    ((s.controlStream a n).stream a).storeClass = (s.stream a).storeClass := by
  unfold State.controlStream
  split
  · rw [State.stream_modStream]
  · split
    · rw [State.stream_haltStream]
      rfl
    · split
      · rw [State.stream_modStream]
      · rfl

end ControlStream

/-- HALT ends the commands that have not started and leaves the others (R127). -/
theorem Stream.queue_halt (x : Stream) :
    x.halt.queue = x.queue.map (fun q => if q.isQueued then q.finish .streamHalted 0 else q) := by
  refine List.map_congr_left fun q _ => ?_
  cases hphase : q.phase <;> simp [Slot.isFinished, Slot.isQueued, hphase]

/-- Settles O33: STK_CTRL is one word however it is written; CLASS takes its bit while the queue is empty, and otherwise the write
only sets OVERRUN (R120; log 50). -/
theorem classChangesOnlyWhenEmpty : Obligations.ClassChangesOnlyWhenEmpty := by
  intro s a w c hserved hn hwrite
  refine ⟨fun hclass hqueue => ?_, fun hqueue hboth => ⟨_, hwrite.exec_eq hserved hn, ?_⟩⟩
  · rw [hwrite.exec_eq hserved hn, State.controlWord_ignored (.inr ?_)]
    rw [State.stream_touch]
    exact ⟨hclass, hqueue⟩
  · rw [State.controlWord_taken hboth (.inl (by rwa [State.stream_touch])), State.storeClass_controlStream, State.stream_modStream]

/-- Settles O34: a word with both bits is ignored, RESUME clears HALTED, HALT ends what is queued, and a halted stream ends what it
accepts (R127, R128). -/
theorem haltAndResume : Obligations.HaltAndResume := by
  refine ⟨fun s a w c hserved hn hwrite hhalt hresume => ?_, fun s a w c hserved hn hwrite hhalt hresume hclass => ?_,
    fun s a w c hserved hn hwrite hhalt hresume hclass => ?_, fun q s r hr hreach hstream hreset hroom hhalted => ?_⟩
  · rw [hwrite.exec_eq hserved hn, State.controlWord_ignored (.inl ⟨hhalt, hresume⟩)]
  · have hboth : ¬(w.getLsbD 0 = true ∧ w.getLsbD 1 = true) := fun h => Bool.false_ne_true (hhalt.symm.trans h.1)
    rw [hwrite.exec_eq hserved hn, State.controlWord_taken hboth (by rwa [State.stream_touch]),
      State.controlStream_resumes hhalt hresume, State.modStream_modStream]
  · have hboth : ¬(w.getLsbD 0 = true ∧ w.getLsbD 1 = true) := fun h => Bool.false_ne_true (hresume.symm.trans h.2)
    refine ⟨_, hwrite.exec_eq hserved hn, ?_⟩
    rw [State.controlWord_taken hboth (by rwa [State.stream_touch]), State.controlStream_halts hhalt hresume,
      State.stream_haltStream, Stream.queue_halt, State.stream_modStream, State.stream_touch]
    refine ⟨rfl, List.map_congr_left fun q _ => ?_⟩
    cases hphase : q.phase <;> simp [Slot.isQueued, hphase]
  · rw [streamRows_submit r hr, State.submitStream_existing hreach hstream, State.goStream_halted (by rwa [State.tasked_resetting])
      (by rwa [State.stream_tasked]) (by rwa [State.stream_tasked])]
    refine ⟨_, _, rfl, State.getLast?_finishSlot (by rw [State.stream_enqueue]) .streamHalted 0, ?_, rfl⟩
    rw [State.stream_tasked]
    rfl

/-! ### What a stream command may do to the state before and after its effect -/

/-- The pools, the record, the store and the membership are as they were. -/
structure State.SamePools (s t : State) : Prop where
  pool : ∀ e, (t.eng e).pool = (s.eng e).pool
  record : t.record = s.record
  store : t.store = s.store
  membership : t.membership = s.membership

/-- Beside them the partitions are as they were: what may differ are streams, tokens, lanes, the order of lock requests, free
values and what has been delivered. -/
structure State.Undisturbed (s t : State) : Prop extends State.SamePools s t where
  parts : t.parts = s.parts

section Undisturbed

variable {s t u : State}

theorem State.SamePools.trans (h : s.SamePools t) (k : t.SamePools u) : s.SamePools u :=
  ⟨fun e => (k.pool e).trans (h.pool e), k.record.trans h.record, k.store.trans h.store, k.membership.trans h.membership⟩

theorem State.Undisturbed.refl (s : State) : s.Undisturbed s := ⟨⟨fun _ => rfl, rfl, rfl, rfl⟩, rfl⟩

theorem State.Undisturbed.trans (h : s.Undisturbed t) (k : t.Undisturbed u) : s.Undisturbed u :=
  ⟨h.toSamePools.trans k.toSamePools, k.parts.trans h.parts⟩

theorem State.Undisturbed.part (h : s.Undisturbed t) (p : PartId) : t.part p = s.part p := by
  rw [State.part, State.part, h.parts]

theorem State.foldl_undisturbed {α : Type} {f : State → α → State} (h : ∀ (s : State) x, s.Undisturbed (f s x)) (l : List α)
    (s : State) : s.Undisturbed (l.foldl f s) :=
  List.foldlRecOn l f (motive := s.Undisturbed) (.refl s) fun _ ht x _ => ht.trans (h _ x)

theorem State.modEng_undisturbed (s : State) (e : EngId) {f : Engine → Engine} (h : (f (s.eng e)).pool = (s.eng e).pool) :
    s.Undisturbed (s.modEng e f) := by
  refine ⟨⟨fun i => ?_, rfl, rfl, rfl⟩, rfl⟩
  by_cases hi : i = e
  · rw [hi, State.eng_modEng, h]
  · rw [State.eng_modEng_ne s f hi]

theorem State.modWin_undisturbed (s : State) (e : EngId) (p : PartId) (f : Window → Window) : s.Undisturbed (s.modWin e p f) :=
  s.modEng_undisturbed e rfl

theorem State.modStream_undisturbed (s : State) (a : StreamAt) (f : Stream → Stream) : s.Undisturbed (s.modStream a f) :=
  s.modWin_undisturbed a.eng a.part _

theorem State.modSlot_undisturbed (s : State) (a : StreamAt) (i : Nat) (f : Slot → Slot) : s.Undisturbed (s.modSlot a i f) :=
  s.modStream_undisturbed a _

theorem State.haltStream_undisturbed (s : State) (a : StreamAt) : s.Undisturbed (s.haltStream a) :=
  (s.modEng_undisturbed a.eng rfl).trans (State.modStream_undisturbed _ a _)

/-- The end of a command frees its locks, its lane and its tokens (R114). -/
theorem State.finishSlot_undisturbed (s : State) (a : StreamAt) (i : Nat) (sc : Status) (off : Nat) :
    s.Undisturbed (s.finishSlot a i sc off) := by
  unfold State.finishSlot
  split
  · exact .refl s
  · have hslot := s.modSlot_undisturbed a i (fun q => q.finish sc off)
    dsimp only
    split
    · refine .trans (hslot.trans ?_) (State.haltStream_undisturbed _ a)
      exact State.modEng_undisturbed _ a.eng rfl
    · refine hslot.trans ?_
      exact State.modEng_undisturbed _ a.eng rfl

theorem State.takeTokens_undisturbed (s : State) (a : StreamAt) (i : Nat) (pool : Fin 4) (need : Nat) :
    s.Undisturbed (s.takeTokens a i pool need) := by
  unfold State.takeTokens
  split
  · exact .refl s
  · exact (s.modWin_undisturbed a.eng a.part _).trans (State.modSlot_undisturbed _ a i _)

theorem State.takeAllTokens_undisturbed (s : State) (a : StreamAt) (i : Nat) (q : Slot) :
    s.Undisturbed (s.takeAllTokens a i q) := by
  refine State.foldl_undisturbed (fun s n => ?_) q.needs s
  split
  · exact s.takeTokens_undisturbed a i _ _
  · exact .refl s

/-- A request for locks takes its place in their order (R129). -/
theorem State.askLocks_undisturbed (s : State) (a : StreamAt) (i : Nat) (l : RangeLock) :
    s.Undisturbed (s.askLocks a i l).1 := by
  have horder (b : Bool) : s.Undisturbed (if b then s else { s with lockOrder := s.lockOrder + 1 }) := by
    cases b <;> exact ⟨⟨fun _ => rfl, rfl, rfl, rfl⟩, rfl⟩
  unfold State.askLocks
  split
  · exact .refl s
  · split
    · exact .refl s
    · next q _ _ =>
      dsimp only
      generalize hs1 : (if q.lockAt.isSome then s else { s with lockOrder := s.lockOrder + 1 }) = s1
      have hs : s.Undisturbed s1 := hs1 ▸ horder _
      split <;> exact hs.trans (State.modSlot_undisturbed _ a i _)

theorem State.fillLane_undisturbed (s : State) (e : EngId) : s.Undisturbed (s.fillLane e) := by
  unfold State.fillLane
  dsimp only
  split
  · exact .refl s
  · split
    · next s1 hpick =>
      have hdraw : s.Undisturbed (s.draw 64).2 := ⟨⟨fun _ => rfl, rfl, rfl, rfl⟩, rfl⟩
      have hs1 : (s.draw 64).2 = s1 := congrArg Prod.snd hpick
      rw [hs1] at hdraw
      exact hdraw.trans (State.modEng_undisturbed _ e rfl)
    · exact .refl s

theorem State.codecLane_undisturbed (s : State) (e : EngId) (b : CBlock) : s.Undisturbed (s.codecLane e b).1 := by
  have hprune : s.Undisturbed (s.pruneLanes e) := s.modEng_undisturbed e rfl
  have hfill (t : State) := State.foldl_undisturbed (fun s (_ : Nat) => s.fillLane_undisturbed e) (List.range 32) t
  unfold State.codecLane
  dsimp only
  refine (hprune.trans ?_).trans (hfill _)
  split
  · exact .refl _
  · exact State.modEng_undisturbed _ e rfl

/-- A compression lane is asked for, or none is needed (R341). -/
theorem State.codes_undisturbed (s : State) (a : StreamAt) (q : Slot) : s.Undisturbed (s.codes a q).1 := by
  unfold State.codes
  split
  · exact s.codecLane_undisturbed a.eng _
  · exact .refl s

theorem State.deliver_undisturbed (s : State) (d : Delivery) : s.Undisturbed (s.deliver d) := by
  unfold State.deliver
  split
  · exact .refl s
  · exact ⟨⟨fun _ => rfl, rfl, rfl, rfl⟩, rfl⟩

end Undisturbed

/-! ### What lets a command start, and what it does then (R112, R118, R127, R129–R132) -/

/-- The locks that a command asks for as it begins; one that has no range has them all (R129). -/
def State.beginLocks (s : State) (a : StreamAt) (i : Nat) (q : Slot) : State × Bool :=
  match q.lock (s.part a.part) with
  | some l => s.askLocks a i l
  | none => (s, true)

section Begin

variable {s : State} {a : StreamAt} {q : Slot}

/-- A command that no condition of R112 on its form stops has a view, and is well-formed. -/
theorem State.formed_of_streamForm (h : s.streamForm a q = none) : ((s.viewStop a.eng).isSome || q.malformed) = false := by
  unfold State.streamForm at h
  split at h
  case isTrue hview => exact absurd h (Option.isSome_iff_ne_none.mp hview)
  case isFalse hview =>
    split at h
    case isTrue => cases h
    case isFalse hop =>
      split at h
      case isTrue => cases h
      case isFalse hfield => simp_all [Slot.malformed]

/-- What a command does once it has asked for its locks: without them it waits, and with them it waits for shelf state, ends as
R112 says, or starts. -/
def afterLocks (a : StreamAt) (i : Nat) (q : Slot) (x : State × Bool) : State × Bool :=
  if !x.2 then x
  else if x.1.stateHolds a q then (x.1.waitSlot a i { Waits.none with state := true }, false)
  else match x.1.streamCheck a q with
    | some sc => (x.1.finishSlot a i sc 0, false)
    | none => (x.1, true)

/-- A well-formed command whose engines are awake asks for its locks first. -/
theorem State.begin_formed (hform : s.streamForm a q = none) (hlow : s.lowEngines a q = 0) (i : Nat) :
    s.begin a i q = afterLocks a i q (s.beginLocks a i q) := by
  rw [State.begin, State.formed_of_streamForm hform, if_neg Bool.false_ne_true, if_neg (not_not_intro hlow)]
  rfl

theorem afterLocks_waits (hholds : s.stateHolds a q = true) (i : Nat) :
    afterLocks a i q (s, true) = (s.waitSlot a i { Waits.none with state := true }, false) := if_pos hholds

theorem afterLocks_starts (hholds : s.stateHolds a q = false) (hcheck : s.streamCheck a q = none) (i : Nat) :
    afterLocks a i q (s, true) = (s, true) := by
  simp [afterLocks, hholds, hcheck]

end Begin

/-- A command that holds its locks keeps them (R129). -/
theorem State.beginLocks_held {s : State} {a : StreamAt} {i : Nat} {q : Slot} (hq : (s.stream a).queue[i]? = some q)
    (hheld : q.lockOn ≠ 0) : s.beginLocks a i q = (s, true) := by
  unfold State.beginLocks
  split
  · rw [State.askLocks, hq]
    exact if_pos hheld
  · rfl

theorem State.beginLocks_undisturbed (s : State) (a : StreamAt) (i : Nat) (q : Slot) : s.Undisturbed (s.beginLocks a i q).1 := by
  unfold State.beginLocks
  split
  · exact s.askLocks_undisturbed a i _
  · exact .refl s

/-- The step that a WEIGHT_PULL names is still to come, and no step has failed: the command waits (R118, R142, R154). -/
theorem State.stateHolds_weightPull {s : State} {a : StreamAt} {q : Slot} (hop : q.op = 0x04)
    (hstep : (s.part a.part).step.completed < q.epoch) (hfailed : (s.part a.part).step.phase ≠ 4) :
    s.stateHolds a q = true := by
  simp [State.stateHolds, hop, hstep, hfailed]

/-- Settles O36: the command begins with its locks, and then waits for its step. -/
theorem weightPullWaitsForItsStep : Obligations.WeightPullWaitsForItsStep := by
  intro s a i q s1 fail hlive hruns hpower hq hphase hop hfence hform hlow hlocks hstep hfailed
  have hbegun : s.beginLocks a i q = (s1, true) := by
    rw [State.beginLocks, Slot.lock, hop]
    exact hlocks
  have hpart : s1.part a.part = s.part a.part := by
    rw [← (s.beginLocks_undisturbed a i q).part, hbegun]
  have hholds : s1.stateHolds a q = true :=
    State.stateHolds_weightPull hop (by rwa [hpart]) (by rwa [hpart])
  rw [exec_streamCommandStart_live hlive, State.tryStream_queued fail hq hphase hruns hfence hpower,
    State.begin_formed hform hlow, hbegun, afterLocks_waits hholds]
  rfl

/-! ### Posting and acknowledging completions (R113, R114) -/

/-- A finished head is posted while DONE is 0. -/
theorem Stream.postable_finished {x : Stream} {q : Slot} {sc : Status} {off : Nat} {rest : List Slot} (hq : x.queue = q :: rest)
    (hphase : q.phase = .finished sc off) (hdone : x.done = false) : x.postable = some (q, sc, off) := by
  simp [Stream.postable, hdone, hq, hphase]

/-- Nothing is posted over a completion that is still to be acknowledged, nor while the head is unfinished. -/
theorem Stream.postable_none {x : Stream} (h : x.done = true ∨ x.queue.head?.all (fun q => !q.isFinished) = true) :
    x.postable = none := by
  unfold Stream.postable
  split
  case isTrue => rfl
  case isFalse hdone =>
    have hhead := h.resolve_left hdone
    split
    · next q hq =>
      split
      · next hphase => simp [hq, Slot.isFinished, hphase] at hhead
      · rfl
    · rfl

/-- The state in which a completion stands in its stream's registers, its vector signalled unless it is SILENT (R113). -/
def State.posted (s : State) (a : StreamAt) (q : Slot) (sc : Status) (off : Nat) : State :=
  let t := s.modStream a (fun x => x.post q sc off)
  match (s.win a.eng a.part).vectorOf a.stream with
  | some v => if q.silent then t else t.signal a.eng a.part v 0 a.stream
  | none => t

section CompletionPost

variable {s : State} {a : StreamAt} (hlive : s.streamLive a = true)
include hlive

theorem exec_streamCompletionPost_live : exec (.streamCompletionPost a) s = .next (s.postStream a) := by
  show execStreamCompletionPost a s = _
  rw [execStreamCompletionPost, hlive, if_pos rfl]

/-- A finished head is posted, and its vector signalled unless it is SILENT (R113). -/
theorem exec_streamCompletionPost_finished {q : Slot} {sc : Status} {off : Nat} {rest : List Slot}
    (hq : (s.stream a).queue = q :: rest) (hphase : q.phase = .finished sc off) (hdone : (s.stream a).done = false) :
    exec (.streamCompletionPost a) s = .next (s.posted a q sc off) := by
  rw [exec_streamCompletionPost_live hlive, State.postStream, Stream.postable_finished hq hphase hdone]
  rfl

theorem exec_streamCompletionPost_nothing
    (h : (s.stream a).done = true ∨ (s.stream a).queue.head?.all (fun q => !q.isFinished) = true) :
    exec (.streamCompletionPost a) s = .next s := by
  rw [exec_streamCompletionPost_live hlive, State.postStream, Stream.postable_none h]

end CompletionPost

/-- Writing 1 to DONE frees the slot of the posted completion (R114). -/
theorem exec_doneAcknowledge_done {s : State} {a : StreamAt} (h : StreamServed s a) (hdone : (s.stream a).done = true) :
    exec (.doneAcknowledge a) s = .next ((s.touch a.eng).modStream a (fun x =>
      { x with done := false, queue := x.queue.drop 1 })) := by
  show execDoneAcknowledge a s = _
  rw [execDoneAcknowledge, State.onStream_served h]
  refine congrArg _ (State.modStream_congr ?_)
  rw [State.stream_touch, Stream.acknowledge, if_pos hdone]

/-! ### Host data (R337, R341) -/

section HostData

variable {s : State} {a : StreamAt} {i : Nat} {q q1 : Slot} {data : List Byte}

/-- The HOST_IN tokens that cover a command's data once it has fetched what it takes of some more (R337). -/
def Slot.hostTokens (q : Slot) (data : List Byte) : Nat :=
  ceilDiv (q.data.length + min data.length (q.len - q.data.length)) 4096

/-- The command after a fetch of host data: it has started, with its share of the data (log 108). -/
def Slot.fetched (q1 q : Slot) (data : List Byte) (fail : Bool) : Slot :=
  { q1 with data := q1.data ++ data.take (q.len - q.data.length), dataFail := fail, phase := .running, waits := Waits.none }

/-- The state after a fetch for a command; complete data asks for the lane that it needs. -/
def State.fetched (s : State) (a : StreamAt) (i : Nat) (q : Slot) : State :=
  if q.dataDone then ((s.modSlot a i (fun _ => q)).codes a q).1 else s.modSlot a i (fun _ => q)

/-- A command whose tokens cover the data takes as much of it as it is long. -/
theorem State.fetchInto_covered (hq : (s.stream a).queue[i]? = some q)
    (hq1 : ((s.takeTokens a i 0 (q.hostTokens data)).stream a).queue[i]? = some q1) (hcover : q.hostTokens data ≤ q1.tokens[0])
    (fail : Bool) : s.fetchInto a i data fail =
      (s.takeTokens a i 0 (q.hostTokens data)).fetched a i (q1.fetched q data fail) := by
  have htake : data.take (min data.length (q.len - q.data.length)) = data.take (q.len - q.data.length) :=
    List.take_eq_take_iff.mpr (by omega)
  have hcover' : ¬ q1.tokens[0] < q.hostTokens data := Nat.not_lt.mpr hcover
  unfold Slot.hostTokens at hq1 hcover'
  simp only [State.fetchInto, hq, hq1, htake, if_neg hcover']
  rfl

/-- A fetch that nothing stops goes into a command that runs, or into a queued one once it has begun. -/
theorem State.fetchData_held (hq : (s.stream a).queue[i]? = some q) (htakes : q.takesData = true)
    (hfin : q.isFinished = false) (hfail : q.dataFail = false) (hheld : q.lockOn ≠ 0) (hfence : s.fenceHolds a i q = false)
    (hruns : (s.eng a.eng).runs = true) (hpower : (s.eng a.eng).power.low = false) (hpaused : s.paused a.eng q.path = false)
    (hphase : q.phase = .running ∨ (q.phase = .queued ∧ s.streamForm a q = none ∧ s.lowEngines a q = 0 ∧
      s.stateHolds a q = false ∧ s.streamCheck a q = none))
    (hsize : min data.length (q.len - q.data.length) ≤ 4194304) (fail : Bool) :
    s.fetchData a i data fail = s.fetchInto a i data fail := by
  have hguard : (!q.takesData || q.isFinished || q.dataFail || s.fenceHolds a i q || !(s.eng a.eng).runs ||
      (s.eng a.eng).power.low || 4194304 < min data.length (q.len - q.data.length) || s.paused a.eng q.path) = false := by
    simp only [htakes, hfin, hfail, hfence, hruns, hpower, hpaused, decide_eq_false (Nat.not_lt.mpr hsize)]
    rfl
  rw [State.fetchData, hq]
  dsimp only
  rw [hguard, if_neg Bool.false_ne_true]
  rcases hphase with hrunning | ⟨hqueued, hform, hlow, hstate, hcheck⟩
  · have hstarted : q.isQueued = false := by rw [Slot.isQueued, hrunning]
    exact if_neg (Bool.eq_false_iff.mp hstarted)
  · rw [if_pos (Slot.isQueued_of_phase hqueued).1, State.begin_formed hform hlow, State.beginLocks_held hq hheld,
      afterLocks_starts hstate hcheck]
    exact if_pos rfl

end HostData

theorem exec_hostDataFetch_live {s : State} {a : StreamAt} (hlive : s.streamLive a = true) (i : Nat) (data : List Byte)
    (fail : Bool) : exec (.hostDataFetch a i data fail) s = .next (s.fetchData a i data fail) := by
  show execHostDataFetch a i data fail s = _
  rw [execHostDataFetch, hlive, if_pos rfl]

/-- Settles O35: a finished head is posted and then acknowledged; host data goes to a command that holds its locks, which then runs
(log 108) and asks for a lane once its data is complete. -/
theorem streamEvents : Obligations.StreamEvents := by
  refine ⟨⟨fun s a q sc off rest hlive hq hphase hdone => ?_, fun s a hlive h => exec_streamCompletionPost_nothing hlive h,
    fun s a hserved hdone => exec_doneAcknowledge_done hserved hdone⟩, ?_⟩
  · rw [exec_streamCompletionPost_finished hlive hq hphase hdone]
    rfl
  · intro s a i q q1 data fail hlive hq htakes hfin hfail hheld hfence hruns hpower hpaused hphase hsize need hq1 hcover
    rw [exec_hostDataFetch_live hlive, State.fetchData_held hq htakes hfin hfail hheld hfence hruns hpower hpaused hphase hsize,
      State.fetchInto_covered hq hq1 hcover]
    rfl

/-! ### An unhindered command does its work and ends (R112, R114) -/

/-- What a command leaves as it ends: its slot is finished, and what waits for pushes wakes after one. -/
def Run.leave (r : Run) (i : Nat) (x : Ended) : State :=
  let s := x.1.finishSlot r.at_ i x.2.1 x.2.2
  if r.slot.op = 0x03 then s.wakeJobs r.at_.part [.pushes] else s

/-- A command that nothing holds, with its tokens, its data, its port and its lane, does its work and ends. -/
theorem State.proceed_works {s : State} {r : Run} {i : Nat} {q : Slot} {u : State} (hq : (s.stream r.at_).queue[i]? = some q)
    (hholds : s.runHolds r.at_ q = false) (hslot : ((s.takeAllTokens r.at_ i q).stream r.at_).queue[i]? = some r.slot)
    (hport : (r.slot.sends && (s.takeAllTokens r.at_ i q).paused r.at_.eng r.slot.path) = false)
    (hcodes : (s.takeAllTokens r.at_ i q).codes r.at_ r.slot = (u, true))
    (htokens : r.slot.dataFail = true ∨ r.slot.lacks = none) (hdata : r.slot.dataDone = true) :
    s.proceed r.at_ i r.fail = r.leave i (runStream r u) := by
  have hlacks : (!r.slot.dataFail && r.slot.lacks.isSome) = false := by
    rcases htokens with h | h <;> simp [h]
  simp only [State.proceed, hq, hholds, hslot, hlacks, hdata, hport, hcodes]
  rfl

/-- On an engine that runs and is awake, a started command that no FENCE holds goes on. -/
theorem State.tryStream_running {s : State} {a : StreamAt} {i : Nat} {q : Slot} (fail : TransferFail)
    (hq : (s.stream a).queue[i]? = some q) (hphase : q.phase = .running) (hruns : (s.eng a.eng).runs = true)
    (hfence : s.fenceHolds a i q = false) (hpower : (s.eng a.eng).power.low = false) :
    s.tryStream a i fail = s.proceed a i fail := by
  simp [State.tryStream, hq, hruns, hfence, hpower, Slot.isFinished, Slot.isQueued, hphase]

namespace Unhindered

variable {s : State} {a : StreamAt} {i : Nat} {r : Run} {u : State} (h : Unhindered s a i r u)
include h

/-- STREAM_COMMAND_START of an unhindered command does its work and ends it. -/
theorem exec_eq : exec (.streamCommandStart a i r.fail) s = .next (r.leave i (runStream r u)) := by
  obtain ⟨hlive, hruns, hpower, rfl, hway, htokens, hdata⟩ := h
  obtain ⟨q, s1, q1, t, hq, hfence, hstarted, hq1, hholds, rfl, hslot, hport, hcodes⟩ := hway
  have hproceed := State.proceed_works hq1 hholds hslot hport hcodes htokens hdata
  rw [exec_streamCommandStart_live hlive, ← hproceed]
  rcases hstarted with ⟨hrunning, rfl⟩ | ⟨hqueued, hform, hlow, hlocks, hstate, hcheck⟩
  · exact congrArg _ (State.tryStream_running r.fail hq hrunning hruns hfence hpower)
  · have hbegun : s.beginLocks r.at_ i q = (s1, true) := by
      unfold State.beginLocks
      split at hlocks <;> simp_all
    rw [State.tryStream_queued r.fail hq hqueued hruns hfence hpower, State.begin_formed hform hlow, hbegun,
      afterLocks_starts hstate hcheck]
    rfl

/-- What comes before the work of a command touches neither pools nor partitions nor record, store and membership. -/
theorem undisturbed : s.Undisturbed u := by
  obtain ⟨-, -, -, -, ⟨q, s1, q1, t, -, -, hstarted, -, -, rfl, -, -, hcodes⟩, -, -⟩ := h
  have hbegun : s.Undisturbed s1 := by
    rcases hstarted with ⟨-, rfl⟩ | ⟨-, -, -, hlocks, -, -⟩
    · exact .refl s1
    · split at hlocks
      · next l _ =>
        have hasked := s.askLocks_undisturbed a i l
        rwa [hlocks] at hasked
      · exact hlocks ▸ .refl s
  have hcoded := (s1.takeAllTokens a i q1).codes_undisturbed a r.slot
  rw [hcodes] at hcoded
  exact (hbegun.trans (s1.takeAllTokens_undisturbed a i q1)).trans hcoded

theorem at_eq : r.at_ = a := h.2.2.2.1

end Unhindered

/-- A command whose work leaves the state `v` and ends with SC_OK finishes its slot there. -/
theorem Run.leave_ok {r : Run} (hop : r.slot.op ≠ 0x03) (i : Nat) (v : State) (n : Nat) :
    r.leave i (v, .ok, n) = v.finishSlot r.at_ i .ok n := if_neg hop

/-! ### The work of each command (R117, R119, R121–R123, R139, R142, R145, R251, R252) -/

section Work

variable {r : Run} {u v : State}

/-- What can be read whole is as long as it was asked for. -/
theorem State.length_readable {s : State} {t : Tensor} {n : Nat} :
    ∀ {off : Nat}, (s.readable t off n).2 = none → (s.readable t off n).1.length = n := by
  induction n with
  | zero => intro off _; rfl
  | succ n ih =>
    intro off h
    unfold State.readable at h ⊢
    split at h
    · cases h
    · split at h
      · cases h
      · simp_all

/-- A whole transfer to a host that takes it is one delivery (R123). -/
theorem Run.deliverRead_whole (hhost : r.fail.host = none) (bs : List Byte) :
    r.deliverRead u bs none = (u.deliver (r.delivery bs), .ok, r.slot.len) := by
  simp only [Run.deliverRead, hhost]
  rfl

theorem runRead_done (h : doneRead r u = some v) : runRead r u = (v, .ok, r.slot.len) := by
  unfold doneRead at h
  split at h
  · next t ht =>
    dsimp only at h
    split at h
    · next hgood =>
      obtain ⟨hwhole, hhost⟩ : (u.readable t r.slot.off r.slot.len).2 = none ∧ r.fail.host = none := by simpa using hgood
      cases h
      simp only [runRead, ht, hwhole, State.length_readable hwhole, Run.deliverRead_whole hhost]
      split <;> rfl
    · cases h
  · cases h

theorem runWeightPull_done (h : doneWeightPull r u = some v) : runWeightPull r u = (v, .ok, r.slot.len) := by
  unfold doneWeightPull at h
  split at h
  · next t ht =>
    dsimp only at h
    split at h
    · next hgood =>
      obtain ⟨⟨hstep, hwhole⟩, hhost⟩ : (r.slot.epoch ≤ (u.part r.at_.part).step.completed ∧
        (u.readable t r.slot.off r.slot.len).2 = none) ∧ r.fail.host = none := by simpa using hgood
      cases h
      simp only [runWeightPull, ht, hwhole, Run.deliverRead_whole hhost, if_neg (Nat.not_lt.mpr hstep)]
    · cases h
  · cases h

/-- A write that the store medium takes, or that need not go there, has its effect (R121, R122). -/
theorem Run.durably_logged (h : r.logged u = some v) (effect mixed : State → State) :
    r.durably u effect mixed = (effect v, .ok, r.slot.len) := by
  unfold Run.logged at h
  split at h
  · next hvolatile =>
    cases h
    exact if_pos hvolatile
  · next hdurable =>
    split at h
    · cases h
    · next hmedium =>
      obtain ⟨key, hkey, hlog⟩ := Option.bind_eq_some_iff.mp h
      have hwrite : r.logWrite u = (v, .ok) := by simp only [Run.logWrite, if_neg hmedium, hkey, hlog]
      simp only [Run.durably, if_neg hdurable, hwrite]

theorem runWrite_done (h : doneWrite r u = some v) : runWrite r u = (v, .ok, r.slot.len) := by
  unfold doneWrite at h
  split at h
  · next t ht =>
    split at h
    · cases h
    · next hgood =>
      obtain ⟨w, hlogged, rfl⟩ := Option.map_eq_some_iff.mp h
      obtain ⟨hwhole, hfetched⟩ : (u.writable t r.slot.off r.slot.data.length).2 = none ∧ r.slot.dataFail = false := by
        simpa using hgood
      simp only [runWrite, ht, hwhole, hfetched, Bool.false_eq_true, if_false]
      exact Run.durably_logged hlogged _ _
  · cases h

theorem runGradPush_done (h : donePush r u = some v) : runGradPush r u = (v, .ok, r.slot.len) := by
  unfold donePush at h
  dsimp only at h
  split at h
  · next t ht =>
    split at h
    · cases h
    · next hgood =>
      obtain ⟨⟨hfetched, hobject⟩, hstripes⟩ : (r.slot.dataFail = false ∧ u.objectStop r.at_.part r.slot = none) ∧
        u.pushStop t r.slot = none := by simpa using hgood
      cases h
      simp only [runGradPush, hfetched, hobject, ht, hstripes, Bool.false_eq_true, if_false]
  · cases h

theorem runKvPut_done (h : doneKvPut r u = some v) : runKvPut r u = (v, .ok, r.slot.len) := by
  unfold doneKvPut at h
  dsimp only at h
  split at h
  · cases h
  · next hgood =>
    obtain ⟨hfetched, hdir⟩ : r.slot.dataFail = false ∧ (u.lockedDir r.at_.part r.slot).all u.lost = false := by simp_all
    simp only [runKvPut, hfetched, hdir, h, Bool.false_eq_true, if_false]

/-- The bytes that a command has moved when it ends well; a probe moves none and reports its page's size (R117). -/
def Run.moved (r : Run) (u : State) : Nat :=
  if r.slot.op = 0x06 && r.slot.len = 0 then
    (((u.part r.at_.part).page? (BitVec.ofNat 64 r.slot.obj)).map KvPage.raw).getD 0 else r.slot.len

theorem Run.moved_of_ne (hop : r.slot.op ≠ 0x06) : r.moved u = r.slot.len := by
  simp [Run.moved, hop]

theorem runKvGet_done (hop : r.slot.op = 0x06) (h : doneKvGet r u = some v) : runKvGet r u = (v, .ok, r.moved u) := by
  unfold doneKvGet at h
  split at h
  · next k hk =>
    split at h
    · cases h
    · next hsound =>
      split at h
      · next hprobe =>
        cases h
        simp only [runKvGet, Run.moved, hk, hsound, hprobe, hop]
        rfl
      · next hlen =>
        split at h
        · next raw hraw =>
          split at h
          · next hhost =>
            cases h
            simp [runKvGet, hk, hsound, hlen, hraw, Run.deliverRead_whole hhost, Run.moved]
          · cases h
        · cases h
  · cases h

theorem runKvDrop_done (h : doneKvDrop r u = some v) : runKvDrop r u = (v, .ok, r.slot.len) := by
  unfold doneKvDrop at h
  dsimp only at h
  split at h
  · next hpage =>
    cases h
    simp only [runKvDrop, isNone_of_isSome hpage, Bool.false_eq_true, if_false]
  · cases h

theorem runRiderPut_done (h : doneRiderPut r u = some v) : runRiderPut r u = (v, .ok, r.slot.len) := by
  unfold doneRiderPut at h
  split at h
  · cases h
  · next hfetched =>
    obtain ⟨w, hlogged, rfl⟩ := Option.map_eq_some_iff.mp h
    simp only [runRiderPut, if_neg hfetched]
    exact Run.durably_logged hlogged _ _

theorem runRiderGet_done (h : doneRiderGet r u = some v) : runRiderGet r u = (v, .ok, r.slot.len) := by
  unfold doneRiderGet at h
  split at h
  · next hhost =>
    obtain ⟨b, hb, rfl⟩ := Option.map_eq_some_iff.mp h
    simp only [runRiderGet, hb, Run.deliverRead_whole hhost]
  · cases h

/-- The work of an opcode leaves the state that its claim gives, and ends with SC_OK. -/
def WorkDone (op : Nat) (f : Run → State → Option State) : Prop :=
  ∀ r u v, r.slot.op = op → f r u = some v → runStream r u = (v, .ok, r.moved u)

/-- An opcode other than KV_GET moves all that its command asks for. -/
theorem workDone_of_whole {op : Nat} {f run : Run → State → _} (hop : op ≠ 0x06)
    (hrow : ∀ r u, r.slot.op = op → runStream r u = run r u)
    (hrun : ∀ r u v, f r u = some v → run r u = (v, .ok, r.slot.len)) : WorkDone op f := by
  intro r u v hr hf
  rw [hrow r u hr, Run.moved_of_ne (hr ▸ hop), hrun r u v hf]

end Work

theorem workDone_read : WorkDone 0x01 doneRead :=
  workDone_of_whole (by decide) (fun r u h => by simp only [runStream, h]) fun _ _ _ => runRead_done

theorem workDone_write : WorkDone 0x02 doneWrite :=
  workDone_of_whole (by decide) (fun r u h => by simp only [runStream, h]) fun _ _ _ => runWrite_done

theorem workDone_gradPush : WorkDone 0x03 donePush :=
  workDone_of_whole (by decide) (fun r u h => by simp only [runStream, h]) fun _ _ _ => runGradPush_done

theorem workDone_weightPull : WorkDone 0x04 doneWeightPull :=
  workDone_of_whole (by decide) (fun r u h => by simp only [runStream, h]) fun _ _ _ => runWeightPull_done

theorem workDone_kvPut : WorkDone 0x05 doneKvPut :=
  workDone_of_whole (by decide) (fun r u h => by simp only [runStream, h]) fun _ _ _ => runKvPut_done

theorem workDone_kvGet : WorkDone 0x06 doneKvGet := by
  intro r u v hop hf
  rw [runStream, hop]
  exact runKvGet_done hop hf

theorem workDone_kvDrop : WorkDone 0x07 doneKvDrop :=
  workDone_of_whole (by decide) (fun r u h => by simp only [runStream, h]) fun _ _ _ => runKvDrop_done

theorem workDone_riderPut : WorkDone 0x09 doneRiderPut :=
  workDone_of_whole (by decide) (fun r u h => by simp only [runStream, h]) fun _ _ _ => runRiderPut_done

theorem workDone_riderGet : WorkDone 0x0A doneRiderGet :=
  workDone_of_whole (by decide) (fun r u h => by simp only [runStream, h]) fun _ _ _ => runRiderGet_done

/-- FLUSH and FENCE have waited for all there was to wait for (R119). -/
theorem workDone_flush {op : Nat} (hop : op = 0x08 ∨ op = 0x0B) : WorkDone op (fun _ u => some u) := by
  refine workDone_of_whole (run := runFlush) (by omega) (fun r u h => ?_) fun r u v hf => ?_
  · rcases hop with rfl | rfl <;> simp only [runStream, h]
  · cases hf
    rfl

/-- An unhindered command of an opcode finishes its slot in the state that its claim gives. -/
theorem WorkDone.runs {op : Nat} {f : Run → State → Option State} (hwork : WorkDone op f) (hop : op ≠ 0x03) : Runs1 op f := by
  intro s a i r u v h hr hf
  rw [h.exec_eq, hwork r u v hr hf, Run.leave_ok (hr ▸ hop), Run.moved, hr, h.at_eq]

/-- Settles O30: an unhindered command does its work, which ends with SC_OK, and finishes its slot; a push wakes what waits for
pushes (R112, R117, R119, R121–R123, R139, R142, R145, R251, R252). -/
theorem streamCommandsRun : Obligations.StreamCommandsRun := by
  refine ⟨workDone_read.runs (by decide), workDone_write.runs (by decide), workDone_weightPull.runs (by decide),
    workDone_kvPut.runs (by decide), workDone_kvGet.runs (by decide), workDone_kvDrop.runs (by decide),
    workDone_riderPut.runs (by decide), workDone_riderGet.runs (by decide), (workDone_flush (.inl rfl)).runs (by decide),
    (workDone_flush (.inr rfl)).runs (by decide), fun s a i r u v h hop hf => ?_⟩
  rw [h.exec_eq, workDone_gradPush r u v hop hf, Run.moved_of_ne (by rw [hop]; decide), Run.leave, h.at_eq, if_pos hop]

/-! ### The pool bytes that a write of a tensor reaches (R121, R135, R137, R276) -/

/-- Every pool byte but those of some cells is as it was, and the rows lie where they lay. -/
structure State.PoolsBut (C : List (EngId × Nat)) (s t : State) : Prop where
  read : ∀ e x, (e, x) ∉ C → Memory.read (t.eng e).pool x = Memory.read (s.eng e).pool x
  phys : ∀ e, (t.eng e).phys = (s.eng e).phys

/-- The cells of byte `j` of stripe `k` of a tensor and of its parity (R137, R276). -/
def State.byteCells (s : State) (t : Tensor) (k j : Nat) : List (EngId × Nat) :=
  let pl := t.home k
  (pl.dataEngine k :: (List.range pl.parity).map (pl.parityEngine (k / pl.data))).map (fun e =>
    (e, (s.eng e).phys (pl.addr e (k / pl.data * t.stripeBytes + j))))

theorem State.mem_cells {s : State} {t : Tensor} {off n : Nat} {c : EngId × Nat} :
    c ∈ s.cells t off n ↔ ∃ i < n, c ∈ s.byteCells t ((off + i) / t.stripeBytes) ((off + i) % t.stripeBytes) := by
  simp only [State.cells, List.mem_flatMap, List.mem_range]
  rfl

section PoolsBut

variable {C : List (EngId × Nat)} {s u v : State}

theorem State.PoolsBut.refl (s : State) : s.PoolsBut C s := ⟨fun _ _ _ => rfl, fun _ => rfl⟩

theorem State.PoolsBut.trans (h : s.PoolsBut C u) (k : u.PoolsBut C v) : s.PoolsBut C v :=
  ⟨fun e x hx => (k.read e x hx).trans (h.read e x hx), fun e => (k.phys e).trans (h.phys e)⟩

/-- The cells of a byte are where its rows lie. -/
theorem State.PoolsBut.byteCells (h : s.PoolsBut C u) (t : Tensor) (k j : Nat) : u.byteCells t k j = s.byteCells t k j := by
  simp only [State.byteCells, h.phys]

theorem State.putPool_poolsBut {e : EngId} {a : Nat} (hc : (e, (s.eng e).phys a) ∈ C) (v : Byte) :
    s.PoolsBut C (s.putPool e a v) := by
  unfold State.putPool
  split
  · exact .refl s
  · refine ⟨fun i x hx => ?_, fun i => ?_⟩
    · by_cases hi : i = e
      · subst hi
        rw [State.eng_modEng]
        exact Memory.read_write_other _ _ _ fun hxa => hx (hxa ▸ hc)
      · rw [State.eng_modEng_ne s _ hi]
    · by_cases hi : i = e
      · subst hi
        rw [State.eng_modEng]
        rfl
      · rw [State.eng_modEng_ne s _ hi]

theorem State.putPlace_poolsBut {pl : Placement} {e : EngId} {off : Nat} (hc : (e, (s.eng e).phys (pl.addr e off)) ∈ C)
    (v : Byte) : s.PoolsBut C (s.putPlace pl e off v) := by
  unfold State.putPlace
  split
  · exact .refl s
  · exact State.putPool_poolsBut hc v

/-- Parity reaches the cells of its parity stripes. -/
theorem State.bumpParity_poolsBut {t : Tensor} {pl : Placement} {k j : Nat}
    (hc : ∀ i < pl.parity, (pl.parityEngine (k / pl.data) i, (s.eng (pl.parityEngine (k / pl.data) i)).phys
      (pl.addr (pl.parityEngine (k / pl.data) i) (k / pl.data * t.stripeBytes + j))) ∈ C) (d : Byte) :
    s.PoolsBut C (s.bumpParity t pl k j d) := by
  refine List.foldlRecOn (List.range pl.parity) _ (motive := fun u => s.PoolsBut C u) (.refl s) fun u hu i hi => ?_
  dsimp only
  split
  · refine hu.trans (State.putPlace_poolsBut ?_ _)
    rw [hu.phys]
    exact hc i (List.mem_range.mp hi)
  · exact hu

theorem State.putStripeByte_poolsBut {t : Tensor} {k j : Nat} (hc : ∀ c ∈ s.byteCells t k j, c ∈ C) (v : Byte) :
    s.PoolsBut C (s.putStripeByte t k j v) := by
  simp only [State.byteCells, List.map_cons, List.forall_mem_cons, List.map_map, List.forall_mem_map, List.mem_range,
    Function.comp_apply] at hc
  obtain ⟨hdata, hparity⟩ := hc
  unfold State.putStripeByte
  dsimp only
  split
  · have hput := State.putPlace_poolsBut hdata v
    refine hput.trans (State.bumpParity_poolsBut (fun i hi => ?_) _)
    rw [hput.phys]
    exact hparity i hi
  · exact .refl s

/-- Bytes of a tensor reach the cells of their range and of its parity. -/
theorem State.putTensor_poolsBut {t : Tensor} {bs : List Byte} : ∀ {s : State} {off : Nat},
    (∀ c ∈ s.cells t off bs.length, c ∈ C) → s.PoolsBut C (s.putTensor t off bs) := by
  induction bs with
  | nil => intro s off _; exact .refl s
  | cons b bs ih =>
    intro s off hc
    have hfirst : s.PoolsBut C (s.putStripeByte t (off / t.stripeBytes) (off % t.stripeBytes) b) :=
      State.putStripeByte_poolsBut (fun c h => hc c (State.mem_cells.mpr ⟨0, by simp, h⟩)) b
    refine hfirst.trans (ih fun c h => hc c ?_)
    obtain ⟨i, hi, hcell⟩ := State.mem_cells.mp h
    rw [hfirst.byteCells] at hcell
    exact State.mem_cells.mpr ⟨i + 1, Nat.succ_lt_succ hi, by rwa [Nat.add_right_comm, Nat.add_assoc] at hcell⟩

/-- Deriving WEIGHT tensors from a MASTER range reaches the cells of what is derived (R135). -/
theorem State.derive_poolsBut {p : PartId} {m : Tensor} {step first count : Nat} {ws : List Tensor} : ∀ {s : State},
    (∀ c ∈ s.weightCells p m step first count ws, c ∈ C) →
      s.PoolsBut C (ws.foldl (fun s w => s.deriveOne p w step first (s.elemsAt m first count)) s) := by
  induction ws with
  | nil => intro s _; exact .refl s
  | cons w ws ih =>
    intro s hc
    obtain ⟨hone, hrest⟩ := List.forall_mem_append.mp hc
    have hderive : s.PoolsBut C (s.deriveOne p w step first (s.elemsAt m first count)) := State.putTensor_poolsBut hone
    exact hderive.trans (ih hrest)

/-- A WRITE reaches the cells that its claim lists (R121, R135). -/
theorem State.writeTensor_poolsBut (s : State) (p : PartId) (t : Tensor) (off : Nat) (data : List Byte) :
    s.PoolsBut (s.writeCells p t off data) (s.writeTensor p t off data) := by
  have hput : s.PoolsBut (s.writeCells p t off data) (s.putTensor t off data) :=
    State.putTensor_poolsBut fun c h => List.mem_append_left _ h
  have hpart : (s.putTensor t off data).part p = s.part p := by rw [State.part, State.part, State.putTensor_parts]
  unfold State.writeTensor
  dsimp only
  split
  · next hmaster =>
    refine hput.trans ?_
    rw [State.deriveWeight, hpart]
    refine State.derive_poolsBut fun c h => List.mem_append_right _ ?_
    rwa [if_pos hmaster]
  · exact hput

end PoolsBut

/-! ### A record of the stream log does not move the cells of a write (R227) -/

/-- The state on another store and with other partitions. What the pools hold depends on neither. -/
def State.onStore (s : State) (st : Store) (ps : Vector Partition 64) : State := { s with store := st, parts := ps }

/-- Only the store and the partitions have changed. -/
def State.LogOnly (s t : State) : Prop := t = s.onStore t.store t.parts

section OnStore

variable {s t u : State} {st : Store} {ps : Vector Partition 64}

theorem State.LogOnly.trans (h : s.LogOnly t) (k : t.LogOnly u) : s.LogOnly u := by
  have ht : t = s.onStore t.store t.parts := h
  refine Eq.trans (b := t.onStore u.store u.parts) k ?_
  rw [ht]
  rfl

theorem State.storeWrite_logOnly (s : State) (v lba : Nat) (bs : List Byte) (fua : Bool) :
    s.LogOnly (s.storeWrite v lba bs fua) := by
  have hissue : s.LogOnly ((writeRuns lba (ceilDiv bs.length blockBytes)).foldl (fun s r => s.issue (.write v r.1 r.2 fua))
      (s.writeBlocks v lba bs)) :=
    List.foldlRecOn _ _ (motive := fun t => s.LogOnly t) rfl fun t ht r _ => ht.trans rfl
  unfold State.storeWrite
  dsimp only
  split
  · exact hissue
  · exact hissue.trans rfl

/-- A record of the stream log moves the partition's place in the log, and is in the store (R227). -/
theorem State.appendLog_eq {p : PartId} {e : EngId} {op id off : Nat} {data : List Byte} {key : Option (List Byte)}
    (h : s.appendLog p e op id off data key = some t) : s.LogOnly t ∧ t.part p = { s.part p with lsn := (t.part p).lsn } := by
  have hpad (b : Prop) [Decidable b] (ptr : Nat) (bs : List Byte) : s.LogOnly (if b then s else s.writePtr ptr bs true) ∧
      (if b then s else s.writePtr ptr bs true).part p = s.part p := by
    split
    · exact ⟨rfl, rfl⟩
    · exact ⟨State.storeWrite_logOnly .., State.part_writePtr ..⟩
  unfold State.appendLog at h
  split at h
  · cases h
  · obtain ⟨-, hsome⟩ := Option.ite_none_left_eq_some.mp h
    rw [← Option.some.inj hsome]
    refine ⟨((hpad _ _ _).1.trans (State.storeWrite_logOnly ..)).trans rfl, ?_⟩
    rw [State.part_modPart, State.part_writePtr, (hpad _ _ _).2]

theorem State.tensorBytes_onStore (t : Tensor) (n : Nat) :
    ∀ off, (s.onStore st ps).tensorBytes t off n = s.tensorBytes t off n := by
  induction n with
  | zero => intro off; rfl
  | succ n ih =>
    intro off
    have hbyte : (s.onStore st ps).tensorByte t off = s.tensorByte t off := rfl
    rw [State.tensorBytes, State.tensorBytes, hbyte, ih]

theorem State.elemsAt_onStore (t : Tensor) (first count : Nat) :
    (s.onStore st ps).elemsAt t first count = s.elemsAt t first count := by
  rw [State.elemsAt, State.elemsAt, State.tensorBytes_onStore]

theorem State.putPool_onStore (e : EngId) (a : Nat) (v : Byte) :
    (s.onStore st ps).putPool e a v = (s.putPool e a v).onStore st ps := by
  have hgone : ((s.onStore st ps).lost e || ((s.onStore st ps).eng e).rowLost a) = (s.lost e || (s.eng e).rowLost a) := rfl
  unfold State.putPool
  rw [hgone]
  split <;> rfl

theorem State.putPlace_onStore (pl : Placement) (e : EngId) (off : Nat) (v : Byte) :
    (s.onStore st ps).putPlace pl e off v = (s.putPlace pl e off v).onStore st ps := by
  unfold State.putPlace
  split
  · rfl
  · exact State.putPool_onStore ..

theorem State.bumpParity_onStore (t : Tensor) (pl : Placement) (k j : Nat) (d : Byte) :
    (s.onStore st ps).bumpParity t pl k j d = (s.bumpParity t pl k j d).onStore st ps := by
  refine List.foldl_hom (State.onStore · st ps) fun u i => ?_
  have hbyte (e : EngId) (a : Nat) : (u.onStore st ps).placeByte pl e a = u.placeByte pl e a := rfl
  dsimp only
  rw [hbyte]
  split
  · exact State.putPlace_onStore ..
  · rfl

theorem State.putStripeByte_onStore (t : Tensor) (k j : Nat) (v : Byte) :
    (s.onStore st ps).putStripeByte t k j v = (s.putStripeByte t k j v).onStore st ps := by
  have hbyte : (s.onStore st ps).stripeByte t k j = s.stripeByte t k j := rfl
  unfold State.putStripeByte
  rw [hbyte]
  dsimp only
  split
  · rw [State.putPlace_onStore, State.bumpParity_onStore]
  · rfl

theorem State.putTensor_onStore (t : Tensor) (bs : List Byte) : ∀ {s : State} (off : Nat),
    (s.onStore st ps).putTensor t off bs = (s.putTensor t off bs).onStore st ps := by
  induction bs with
  | nil => intro s off; rfl
  | cons b bs ih =>
    intro s off
    rw [State.putTensor, State.putTensor, State.putStripeByte_onStore, ih]

/-- The cells of the WEIGHT ranges that derive from a MASTER depend on the policy alone among what partitions hold. -/
theorem State.weightCells_onStore {p : PartId} {m : Tensor} {step first count : Nat} {ws : List Tensor} : ∀ {s : State},
    ps[p].stochastic = (s.part p).stochastic →
      (s.onStore st ps).weightCells p m step first count ws = s.weightCells p m step first count ws := by
  induction ws with
  | nil => intro s _; rfl
  | cons w ws ih =>
    intro s hround
    have hround' : ((s.onStore st ps).part p).stochastic = (s.part p).stochastic := hround
    have hderive (xs : List Word) :
        (s.onStore st ps).deriveOne p w step first xs = (s.deriveOne p w step first xs).onStore st ps := by
      simp only [State.deriveOne, State.putElems, hround', State.putTensor_onStore]
    have hparts (xs : List Word) : (s.deriveOne p w step first xs).part p = s.part p := by
      rw [State.part, State.deriveOne, State.putElems, State.putTensor_parts]
      rfl
    rw [State.weightCells, State.weightCells, hround', State.elemsAt_onStore, hderive, ih (by rw [hparts, hround])]
    rfl

/-- The cells of a WRITE are the same once its log record is in the store. -/
theorem State.writeCells_logOnly {p : PartId} {l : Vector Nat 16} (h : s.LogOnly u) (hpart : u.part p = { s.part p with lsn := l })
    (t : Tensor) (off : Nat) (data : List Byte) : u.writeCells p t off data = s.writeCells p t off data := by
  have hround : u.parts[p].stochastic = ((s.putTensor t off data).part p).stochastic := by
    show (u.part p).stochastic = _
    rw [hpart, State.part, State.part, State.putTensor_parts]
    rfl
  rw [State.writeCells, State.writeCells, hpart, h, State.putTensor_onStore, State.weightCells_onStore hround]
  rfl

end OnStore

/-- A WRITE that ends well changes no pool byte but those of the cells that its claim lists, from the state in which it started its
work (R121, R135). -/
theorem doneWrite_poolsBut {r : Run} {u v : State} {t : Tensor} (ht : (u.part r.at_.part).tensor? r.slot.obj = some t)
    (h : doneWrite r u = some v) : u.PoolsBut (u.writeCells r.at_.part t r.slot.off r.slot.data) v := by
  have hlogged : ∃ w, r.logged u = some w ∧ w.writeTensor r.at_.part t r.slot.off r.slot.data = v := by
    simp only [doneWrite, ht] at h
    split at h
    · cases h
    · exact Option.map_eq_some_iff.mp h
  obtain ⟨w, hw, rfl⟩ := hlogged
  have hlog : u.LogOnly w ∧ w.part r.at_.part = { u.part r.at_.part with lsn := (w.part r.at_.part).lsn } := by
    unfold Run.logged at hw
    split at hw
    · cases hw
      exact ⟨rfl, rfl⟩
    · split at hw
      · cases hw
      · obtain ⟨key, -, happend⟩ := Option.bind_eq_some_iff.mp hw
        exact State.appendLog_eq happend
  obtain ⟨honly, hpart⟩ := hlog
  have hpools : u.PoolsBut (u.writeCells r.at_.part t r.slot.off r.slot.data) w := by
    rw [honly]
    exact ⟨fun _ _ _ => rfl, fun _ => rfl⟩
  refine hpools.trans ?_
  rw [← State.writeCells_logOnly honly hpart]
  exact w.writeTensor_poolsBut ..

/-! ### What reading commands change (R123, R142, R145, R249) -/

/-- Beside the pools, the record, the store and the membership the partitions are as they were but for their pages. -/
structure State.PagesOnly (s t : State) : Prop extends State.SamePools s t where
  parts : ∀ q, ∃ kv, t.part q = { s.part q with kv := kv }

section PagesOnly

variable {s t u : State}

theorem State.Undisturbed.pagesOnly (h : s.Undisturbed t) : s.PagesOnly t :=
  ⟨h.toSamePools, fun q => ⟨(s.part q).kv, h.part q⟩⟩

theorem State.PagesOnly.trans (h : s.PagesOnly t) (k : t.PagesOnly u) : s.PagesOnly u := by
  refine ⟨h.toSamePools.trans k.toSamePools, fun q => ?_⟩
  obtain ⟨kv, ht⟩ := h.parts q
  obtain ⟨kv', hu⟩ := k.parts q
  exact ⟨kv', by rw [hu, ht]⟩

theorem State.modPart_pagesOnly (s : State) (p : PartId) {f : Partition → Partition} {kv : List KvPage}
    (h : f (s.part p) = { s.part p with kv := kv }) : s.PagesOnly (s.modPart p f) := by
  refine ⟨⟨fun _ => rfl, rfl, rfl, rfl⟩, fun q => ?_⟩
  by_cases hq : q = p
  · rw [hq, State.part_modPart]
    exact ⟨kv, h⟩
  · rw [State.part_modPart_ne s f hq]
    exact ⟨_, rfl⟩

theorem State.coolPage_pagesOnly (s : State) (p : PartId) (key : DWord) : s.PagesOnly (s.coolPage p key) :=
  s.modPart_pagesOnly p rfl

/-- One page of a list loses its hot copy where those that are left do not fit (R249). -/
def evictOne (room : Nat) (r : State × List (PartId × KvPage)) (k : PartId × KvPage) : State × List (PartId × KvPage) :=
  if room < (r.2.map (fun k => (k.2.hot.getD []).length)).sum then (r.1.coolPage k.1 k.2.key, r.2.drop 1) else r

theorem State.trimHot_eq (s : State) (e : EngId) :
    s.trimHot e = ((s.hotPages e).foldl (evictOne (s.hotRoom e)) (s, s.hotPages e)).1 := rfl

theorem evictOne_pagesOnly (room : Nat) (r : State × List (PartId × KvPage)) (k : PartId × KvPage) :
    r.1.PagesOnly (evictOne room r k).1 := by
  unfold evictOne
  split
  · exact r.1.coolPage_pagesOnly k.1 k.2.key
  · exact (State.Undisturbed.refl r.1).pagesOnly

/-- Evicting hot copies changes pages (R249). -/
theorem State.trimHot_pagesOnly (s : State) (e : EngId) : s.PagesOnly (s.trimHot e) := by
  rw [State.trimHot_eq]
  exact List.foldlRecOn (s.hotPages e) _ (motive := fun (r : State × List (PartId × KvPage)) => s.PagesOnly r.1)
    (State.Undisturbed.refl s).pagesOnly fun r hr k _ => hr.trans (evictOne_pagesOnly _ r k)

/-- A page that is used leaves a hot copy behind as far as stage memory allows (R249, R252). -/
theorem State.warmPage_pagesOnly (s : State) (p : PartId) (key : DWord) : s.PagesOnly (s.warmPage p key) := by
  unfold State.warmPage
  split
  · exact (State.Undisturbed.refl s).pagesOnly
  · next k _ =>
    have huse := s.modEng_undisturbed k.body (f := fun x => { x with uses := (s.eng k.body).uses + 1 }) rfl
    exact (huse.pagesOnly.trans (State.modPart_pagesOnly _ _ rfl)).trans (State.trimHot_pagesOnly _ _)

end PagesOnly

section Readers

variable {r : Run} {u v : State}

theorem undisturbed_of_delivered {c : Prop} [Decidable c] {d : Delivery} (h : (if c then some (u.deliver d) else none) = some v) :
    u.Undisturbed v := by
  obtain ⟨-, hv⟩ := Option.ite_none_right_eq_some.mp h
  rw [← Option.some.inj hv]
  exact u.deliver_undisturbed d

theorem doneRead_undisturbed (h : doneRead r u = some v) : u.Undisturbed v := by
  unfold doneRead at h
  split at h
  · exact undisturbed_of_delivered h
  · cases h

theorem doneWeightPull_undisturbed (h : doneWeightPull r u = some v) : u.Undisturbed v := by
  unfold doneWeightPull at h
  split at h
  · exact undisturbed_of_delivered h
  · cases h

theorem doneRiderGet_undisturbed (h : doneRiderGet r u = some v) : u.Undisturbed v := by
  unfold doneRiderGet at h
  split at h
  · obtain ⟨b, -, rfl⟩ := Option.map_eq_some_iff.mp h
    exact u.deliver_undisturbed _
  · cases h

theorem doneKvGet_pagesOnly (h : doneKvGet r u = some v) : u.PagesOnly v := by
  unfold doneKvGet at h
  split at h
  · split at h
    · cases h
    · split at h
      · cases h
        exact (State.Undisturbed.refl u).pagesOnly
      · split at h
        · split at h
          · cases h
            exact (u.warmPage_pagesOnly _ _).trans (State.deliver_undisturbed _ _).pagesOnly
          · cases h
        · cases h
  · cases h

end Readers

/-- The state that an unhindered command other than GRAD_PUSH leaves: its claim's, with the slot finished. -/
theorem Unhindered.exec_done {s : State} {a : StreamAt} {i : Nat} {r : Run} {u v : State} (h : Unhindered s a i r u) {op : Nat}
    {f : Run → State → Option State} (hwork : WorkDone op f) (hne : op ≠ 0x03) (hop : r.slot.op = op) (hf : f r u = some v) :
    ∃ z, exec (.streamCommandStart a i r.fail) s = .next z ∧ v.Undisturbed z := by
  rw [h.exec_eq, hwork r u v hop hf, Run.leave_ok (hop ▸ hne)]
  exact ⟨_, rfl, v.finishSlot_undisturbed ..⟩

/-- A reading command's claim changes pages alone, and but for KV_GET not even these. -/
theorem reader_done {r : Run} {u v : State}
    (h : r.slot.op = 0x01 ∧ doneRead r u = some v ∨ r.slot.op = 0x04 ∧ doneWeightPull r u = some v ∨
      r.slot.op = 0x06 ∧ doneKvGet r u = some v ∨ r.slot.op = 0x0A ∧ doneRiderGet r u = some v ∨
      (r.slot.op = 0x08 ∨ r.slot.op = 0x0B) ∧ v = u) :
    (∃ op f, WorkDone op f ∧ op ≠ 0x03 ∧ r.slot.op = op ∧ f r u = some v) ∧ u.PagesOnly v ∧
      (r.slot.op ≠ 0x06 → u.Undisturbed v) := by
  rcases h with ⟨hop, hd⟩ | ⟨hop, hd⟩ | ⟨hop, hd⟩ | ⟨hop, hd⟩ | ⟨hop, rfl⟩
  · have hu := doneRead_undisturbed hd
    exact ⟨⟨_, _, workDone_read, by decide, hop, hd⟩, hu.pagesOnly, fun _ => hu⟩
  · have hu := doneWeightPull_undisturbed hd
    exact ⟨⟨_, _, workDone_weightPull, by decide, hop, hd⟩, hu.pagesOnly, fun _ => hu⟩
  · exact ⟨⟨_, _, workDone_kvGet, by decide, hop, hd⟩, doneKvGet_pagesOnly hd, fun hne => absurd hop hne⟩
  · have hu := doneRiderGet_undisturbed hd
    exact ⟨⟨_, _, workDone_riderGet, by decide, hop, hd⟩, hu.pagesOnly, fun _ => hu⟩
  · have hu := State.Undisturbed.refl v
    exact ⟨⟨_, _, workDone_flush hop, by omega, rfl, rfl⟩, hu.pagesOnly, fun _ => hu⟩

/-- Settles O31: before and after its work a command leaves pools and partitions alone; the work of a WRITE stores to its claim's
cells, and that of a reading command stores nothing (R121, R123, R135, R137, R276). -/
theorem streamFrames : Obligations.StreamFrames := by
  refine ⟨fun s a i r u v t h hop ht hd => ?_, fun s a i r u v h hread => ?_⟩
  · obtain ⟨z, hz, hend⟩ := h.exec_done workDone_write (by decide) hop hd
    obtain rfl := h.at_eq
    refine ⟨z, hz, fun e addr hcell => ?_⟩
    rw [hend.pool, (doneWrite_poolsBut ht hd).read e addr hcell, h.undisturbed.pool]
  · obtain ⟨⟨op, f, hwork, hne, hop, hf⟩, hpages, hsame⟩ := reader_done hread
    obtain ⟨z, hz, hend⟩ := h.exec_done hwork hne hop hf
    have hall : s.PagesOnly z := (h.undisturbed.pagesOnly.trans hpages).trans hend.pagesOnly
    refine ⟨z, hz, fun e addr => by rw [hall.pool], fun q => ?_, hall.record, hall.store, hall.membership⟩
    obtain ⟨kv, hpart⟩ := hall.parts q
    have hkept (hget : r.slot.op ≠ 0x06) : z.part q = s.part q :=
      ((h.undisturbed.trans (hsame hget)).trans hend).part q
    exact ⟨by rw [hpart], by rw [hpart], by rw [hpart], by rw [hpart], by rw [hpart], hkept⟩

end Sys2Proof.Machine

/-! ## The state home: the events of a step -/

namespace Sys2Proof.Machine

/-! ### The phases of a step (R141, R143, R149, R154) -/

section StepPhases

variable {s : State} {p : PartId}

/-- A policy that waits to govern is adopted as the statistics begin, because GRAD_SCALE acts in them (log 66). -/
theorem exec_stepBegin_full {pol : List Byte} (hphase : (s.part p).step.phase = 1) (hpol : (s.part p).policy = some pol)
    (hfull : (s.part p).bitmapsFull = true) :
    exec (.stepBegin p) s = .next (s.modPart p (fun x =>
      let y := x.adoptPolicy
      { y with step := { y.step with phase := 2, gscale := polWord (y.policy.getD []) 48 } })) := by
  show execStepBegin p s = _
  simp [execStepBegin, hphase, hpol, hfull]

/-- Past the guard of the statistics' end: no declared cut stands before it, or RESCALE has the cut wait (R146, log 144). -/
theorem exec_statisticsComplete_uncut (hphase : (s.part p).step.phase = 2)
    (hcut : (s.part p).cut = none ∨ (s.part p).step.scale ≠ none) :
    exec (.statisticsComplete p) s =
      .next (if (s.part p).foundNonfinite then s.nonfiniteStep p
        else if (s.part p).resharding then s
        else s.modPart p (fun x =>
          let y := x.adoptPolicy
          { y with step := { y.step with phase := 3, clip := x.clipFactor (y.policy.getD []), spun := s.residents p } })) := by
  have hstands : ((s.part p).cut.isSome && (s.part p).step.scale.isNone) = false := by
    rcases hcut with hcut | hscale
    · rw [hcut]
      rfl
    · rw [Option.isNone_eq_false_iff.mpr (Option.isSome_iff_ne_none.mpr hscale), Bool.and_false]
  show execStatisticsComplete p s = _
  simp [execStatisticsComplete, hphase, hstands]

/-- The update ends once the copier has passed and a program is there with its spins, on stripes that can all be read and written
(R168, R182). -/
theorem exec_stepComplete_updates {u : State} (hphase : (s.part p).step.phase = 3)
    (hcan : s.canUpdate p ((s.part p).policy.getD []) = true)
    (hgone : (s.part p).masters.any (fun m =>
      ((s.part p).stepTensors ((s.part p).policy.getD []) m).any s.stripeGone) = false)
    (hupdate : s.updateAll p ((s.part p).policy.getD []) = some u) :
    exec (.stepComplete p) s = .next ((u.modPart p Partition.endStep).stepEnded p) := by
  show execStepComplete p s = _
  simp [execStepComplete, hphase, hcan, hgone, hupdate]

theorem exec_stepComplete_gone (hphase : (s.part p).step.phase = 3)
    (hcan : s.canUpdate p ((s.part p).policy.getD []) = true)
    (hgone : (s.part p).masters.any (fun m =>
      ((s.part p).stepTensors ((s.part p).policy.getD []) m).any s.stripeGone) = true) :
    exec (.stepComplete p) s = .next (s.failUpdate p) := by
  show execStepComplete p s = _
  simp [execStepComplete, hphase, hcan, hgone]

end StepPhases

/-! ### Spins take their slots (R168) -/

theorem exec_spinSwap_places {s : State} {e : EngId} {p : PartId} {handle : Word} {g : Program}
    (hphase : (s.part p).step.phase = 3) (hprog : (s.part p).stepProgram = some g)
    (hnamed : ((s.part p).spinsNamed (parseFxp g.bytes)).contains handle = true)
    (hthere : (s.eng e).resident.toList.any (fun r => r.any (fun v => v.part = p && v.handle = handle)) = false)
    (hmember : hasEngine (s.members p) e = true) (hlost : s.lost e = false) :
    exec (.spinSwap e p handle) s = .next ((s.modEng e (fun y =>
      { y with uses := y.uses + 1,
               resident := y.resident.set y.spinSlot (some { part := p, handle := handle, used := y.uses + 1 }) })).modPart p (fun x =>
        { x with step := { x.step with spun := (e.val, handle.toNat) :: x.step.spun } })) := by
  have hprogNamed : (s.part p).stepProgram.any (fun g => ((s.part p).spinsNamed (parseFxp g.bytes)).contains handle) = true := by
    rwa [hprog, Option.any_some]
  show execSpinSwap e p handle s = _
  simp only [execSpinSwap, hphase, hprogNamed, hthere, hmember, hlost, decide_true, Bool.not_false, Bool.and_self, if_true]

/-- Settles O42: each clause is the branch of its row that the clause's conditions select. A waiting policy is adopted as the
statistics begin and again as the update begins (log 66), and a cut that does not wait for the step stands before the end of the
statistics (log 144). -/
theorem stepEngineEvents : Obligations.StepEngineEvents := by
  refine ⟨fun s p pol hphase hpol hfull => exec_stepBegin_full hphase hpol hfull,
    fun s p hphase hfinite hreshard hcut => ?_,
    fun s p hphase hnonfinite hcut => ?_,
    fun s p u hphase hcan hgone hupdate => exec_stepComplete_updates hphase hcan hgone hupdate,
    fun s p hphase hcan hgone => exec_stepComplete_gone hphase hcan hgone,
    fun s e p handle g hphase hprog hnamed hthere hmember hlost =>
      exec_spinSwap_places hphase hprog hnamed hthere hmember hlost⟩
  · rw [exec_statisticsComplete_uncut hphase hcut, hfinite, hreshard]
    rfl
  · rw [exec_statisticsComplete_uncut hphase hcut, if_pos hnonfinite]

end Sys2Proof.Machine

/-! ## Epochs: the gates, the cut instant and the copier -/

namespace Sys2Proof.Machine

/-! ### Gates close and the cut falls (R181) -/

section CutGates

variable {s : State} {p : PartId} {d : CutDecl}

/-- An update of a partition counts only by what it makes of the partition as it stands. -/
theorem State.modPart_congr {f g : Partition → Partition} (h : f (s.part p) = g (s.part p)) : s.modPart p f = s.modPart p g :=
  congrArg (s.setPart p) h

theorem exec_cutGateMessage_closes {e : EngId} (hcut : (s.part p).cut = some d)
    (hlive : hasEngine (s.liveMembers p) e = true) (hfree : (s.part p).step.holdsCut = false) :
    exec (.cutGateMessage p e) s = .next ((s.modPart p (fun x =>
      { x with cut := some { d with gates := d.gates ||| engineBit e } })).wake e) := by
  have hgate : s.modPart p (fun x => { x with cut := x.cut.map (fun d => { d with gates := d.gates ||| engineBit e }) }) =
      s.modPart p (fun x => { x with cut := some { d with gates := d.gates ||| engineBit e } }) :=
    State.modPart_congr (by rw [hcut, Option.map_some])
  show execCutGateMessage p e s = _
  simp only [execCutGateMessage, hcut, hlive, hfree, hgate, Option.isSome_some, Bool.not_false, Bool.and_self, if_true]

theorem exec_cutInstant_waits (hcut : (s.part p).cut = some d)
    (hwait : (s.part p).step.holdsCut = true ∨ s.liveMembers p &&& ~~~d.gates ≠ 0 ∨ s.changing p = true) :
    exec (.cutInstant p) s = .next s := by
  have hguard : ((s.part p).step.holdsCut || decide (s.liveMembers p &&& ~~~d.gates ≠ 0) || s.changing p) = true := by
    simpa only [Bool.or_eq_true, decide_eq_true_eq, or_assoc] using hwait
  show execCutInstant p s = _
  simp only [execCutInstant, hcut, hguard, if_true]

/-- Past the guard of the cut instant: nothing of the step holds the cut, every live member has closed its gate, and nothing changes
the state. -/
theorem exec_cutInstant_falls (hcut : (s.part p).cut = some d) (hfree : (s.part p).step.holdsCut = false)
    (hgates : s.liveMembers p &&& ~~~d.gates = 0) (hquiet : s.changing p = false) :
    exec (.cutInstant p) s =
      .next (if (s.part p).step.phase = 4 ∨ (s.part p).tensors = [] then s.dropCut p d
        else
          let u := if d.reseed then (s.cutNow p d).1.reseeded p else (s.cutNow p d).1
          ((s.cutNow p d).2.elim u (fun ep => u.answerCut d .ok (cutResponse ep))).wakeJobs p [.step]) := by
  show execCutInstant p s = _
  simp only [execCutInstant, hcut, hfree, hgates, hquiet, ne_eq, not_true_eq_false, decide_false, Bool.or_self, Bool.false_eq_true,
    if_false, Bool.or_eq_true, decide_eq_true_eq, List.isEmpty_iff]
  cases (s.cutNow p d).2 <;> rfl

end CutGates

/-! ### The copier (R182, R185) -/

section Copier

variable {s : State} {p : PartId} {n : Nat} {ep : Epoch}

theorem exec_copierDone_ends (hep : (s.part p).epoch? n = some ep) (hcopying : ep.state = 1) (hgoes : ep.paused = false)
    (holdest : (s.part p).epochs.any (fun q => q.state = 1 && q.n < n) = false) (hover : s.walkOver p ep = true) :
    exec (.copierDone p n) s = .next (((s.modEpoch p n (fun q =>
      ({ q with state := 2, walk := [], copied := [] } : Epoch).refresh)).wakeJobs p [.copier]).kickReshards) := by
  show execCopierDone p n s = _
  simp only [execCopierDone, hep, hcopying, hgoes, holdest, hover, decide_true, Bool.not_false, Bool.and_self, if_true]

theorem exec_copierResume_stages (hep : (s.part p).epoch? n = some ep) (hpaused : ep.paused = true) (hsound : ep.state ≠ 6) :
    exec (.copierResume p n) s = .next (s.stageEpoch p n) := by
  have hguard : ((s.part p).epoch? n).any (fun ep => ep.paused && ep.state ≠ 6) = true := by
    rw [hep, Option.any_some, hpaused, Bool.true_and, decide_eq_true hsound]
  show execCopierResume p n s = _
  simp only [execCopierResume, hguard, if_true]

end Copier

/-- Settles O43: each clause is the branch of its row that the clause's conditions select. That the cut instant drops a cut whose
step has failed or whose registry is empty is deduced (log 70). -/
theorem cutEvents : Obligations.CutEvents := by
  refine ⟨fun s p e d hcut hlive hfree => exec_cutGateMessage_closes hcut hlive hfree,
    fun s p d u ep hcut hfree hgates hquiet hphase htensors hnow => ?_,
    fun s p d hcut hfree hgates hquiet hdrop => ?_,
    fun s p d hcut hwait => exec_cutInstant_waits hcut hwait,
    fun s p n ep hep hcopying hgoes holdest hover => exec_copierDone_ends hep hcopying hgoes holdest hover,
    fun s p n ep hep hpaused hsound => exec_copierResume_stages hep hpaused hsound⟩
  · rw [exec_cutInstant_falls hcut hfree hgates hquiet, if_neg (not_or.mpr ⟨hphase, htensors⟩), hnow]
    rfl
  · rw [exec_cutInstant_falls hcut hfree hgates hquiet, if_pos hdrop]

end Sys2Proof.Machine

/-! ## Near memory: programs, translation, the windows of the channels, temperatures -/

namespace Sys2Proof.Machine

theorem State.part_touch (s : State) (e : EngId) (p : PartId) : (s.touch e).part p = s.part p := by
  unfold State.touch
  split
  · rfl
  · exact State.part_modEng s e _ p

/-- With EXPERT the registers of an expert block are reached (R426). -/
theorem State.access_expert {s : State} {src : WinSrc} (hv : src.via = .memory)
    (hr : s.reachesWindow src.eng src.part src.path = true) (hx : s.expert src.part = true) (v off : Nat) (f : State → State) :
    s.access src v (fun s => if !s.expert src.part then s.badAccess src.eng src.part off else f s) = f (s.touch src.eng) := by
  rw [State.access_memory hv hr, State.expert_touch, hx]
  rfl

/-! ### A program starts or fails its checks (R213) -/

/-- An update of an NMX block counts only by what it makes of the block as it stands. -/
theorem State.modNmx_congr {s : State} {e : EngId} {p : PartId} {f g : Nmx → Nmx}
    (h : f (s.win e p).nmx = g (s.win e p).nmx) : s.modNmx e p f = s.modNmx e p g :=
  State.modWin_congr (congrArg (fun n => { s.win e p with nmx := n }) h)

section GoNmx

variable {s t : State} {e : EngId} {p : PartId} {w : Word} (ht : s.modNmx e p (fun n => n.control w) = t)
  (hidle : (t.win e p).nmx.busy = false)
include ht hidle

theorem State.goNmx_rejected {st : Status} {i : Nat} (hcheck : t.nmxCheck e p (t.win e p).nmx = some (st, i)) :
    s.goNmx e p w = t.endNmx e p st i := by
  simp only [State.goNmx, ht, hidle, hcheck, Bool.false_eq_true, if_false]

/-- The entries that the checks have passed are the ones that run (log 110). -/
theorem State.goNmx_starts (hcheck : t.nmxCheck e p (t.win e p).nmx = none) :
    s.goNmx e p w = (t.modNmx e p (fun m =>
      { m with busy := true, prog := (t.win e p).nmx.program 1024 (t.win e p).nmx.start.toNat, next := 0, row := 0,
               failed := none })).lockNmx e p := by
  have hstart : s.goNmx e p w = (t.modNmx e p (fun n =>
      { n with busy := true, prog := n.program 1024 n.start.toNat, next := 0, row := 0, failed := none })).lockNmx e p := by
    simp only [State.goNmx, ht, hidle, hcheck, Bool.false_eq_true, if_false]
  exact hstart.trans (congrArg (State.lockNmx · e p) (State.modNmx_congr rfl))

end GoNmx

/-! ### A program ends (R214, R216) -/

section NmxComplete

variable {s : State} {e : EngId} {p : PartId} {n : Nmx}

theorem State.nmxEnd_failed {st : Status} {i : Nat} (hfailed : n.failed = some (st, i)) : s.nmxEnd e n = some (i, st, i) := by
  simp only [State.nmxEnd, hfailed]

/-- A program of which no entry is left and none has failed ends with its last entry. -/
theorem State.nmxEnd_ran {q : List (Nat × BitVec 128)} {i : Nat} {b : BitVec 128} (hfailed : n.failed = none)
    (hover : n.prog.length ≤ n.next) (hlast : n.prog = q ++ [(i, b)]) : s.nmxEnd e n = some (i, .ok, 0) := by
  have hnone : n.prog[n.next]? = none := List.getElem?_eq_none hover
  simp only [State.nmxEnd, hfailed, hnone]
  simp [hlast]

theorem exec_nmxComplete_ends {last : Fin 1024} {st : Status} {err : Nat} (hserves : s.serves e = true)
    (hpower : (s.eng e).power.low = false) (hbusy : ((s.lockNmx e p).win e p).nmx.busy = true)
    (hlocked : ((s.lockNmx e p).win e p).nmx.locked = true)
    (hend : (s.lockNmx e p).nmxEnd e ((s.lockNmx e p).win e p).nmx = some (last.val, st, err)) :
    exec (.nmxComplete e p last) s = .next ((s.lockNmx e p).endNmx e p st err) := by
  show execNmxComplete e p last s = _
  simp [execNmxComplete, hserves, hpower, hbusy, hlocked, hend]

end NmxComplete

/-! ### Translation (R212) -/

theorem State.xlate_here {s : State} {e : EngId} {p : PartId} {off : DWord} {t : Tensor} {a : Nat × Bool}
    (ht : (s.part p).tensor? (s.win e p).nmx.xTid.toNat = some t) (hin : off.toNat < t.bytes)
    (hhere : s.translate t off.toNat = (e, a)) :
    s.xlate e p off = s.modNmx e p (fun n =>
      { n with xOff := off, xPool := BitVec.ofNat 64 a.1, xArray := arrayWord (undoAddr a.1), xValid := true,
               xEngine := BitVec.ofNat 4 e.val, xProtected := a.2 }) := by
  have hbyte : ((s.part p).tensor? (s.win e p).nmx.xTid.toNat).filter (fun t => off.toNat < t.bytes) = some t := by
    rw [ht, Option.filter_some, if_pos (decide_eq_true hin)]
  simp only [State.xlate, hbyte, hhere, if_true]

/-! ### The windows of a channel (R206–R209, R211, R216) -/

section Windows

variable {s : State} {e : EngId} {ch : Fin 16} {out : WindowEnd}

/-- The refreshes that a window owes come off its credits as the interval begins (log 53). -/
theorem exec_maintenanceWindow_opens (hopen : s.windowable e ch = true)
    (hslot : ((s.eng e).channels[ch]).slot ≠ some (s.now / 65536)) :
    exec (.maintenanceWindow e { ch, out }) s = .next (
      let s1 := s.modChannel e ch (fun c => c.interval s.now out.stuck)
      let s2 := ((s1.partIds.filter (fun p => s1.hasWindow e p)).foldl (fun s p => s.lockNmx e p) s1).copyWindow e ch
      s2.expertRows e ch out 0 ((s2.eng e).channels[ch]).budget) := by
  show execMaintenanceWindow e { ch, out } s = _
  simp only [execMaintenanceWindow, hopen, hslot, Bool.not_true, decide_false, Bool.or_self, Bool.false_eq_true, if_false]

theorem exec_maintenanceWindow_shut (hshut : s.windowable e ch = false ∨ ((s.eng e).channels[ch]).slot = some (s.now / 65536)) :
    exec (.maintenanceWindow e { ch, out }) s = .next s := by
  have hguard : (!s.windowable e ch || decide (((s.eng e).channels[ch]).slot = some (s.now / 65536))) = true := by
    simpa only [Bool.or_eq_true, Bool.not_eq_true', decide_eq_true_eq] using hshut
  show execMaintenanceWindow e { ch, out } s = _
  simp only [execMaintenanceWindow, hguard, if_true]

theorem exec_demandWindow_opens (hopen : s.windowable e ch = true) :
    exec (.demandWindow e { ch, out }) s = .next (s.partIds.foldl (fun s p =>
      ((s.part p).epochs.filter (fun ep => ep.state = 1)).foldl (fun s ep =>
        (s.waitedBlocks p ep e ch).foldl (fun s b => s.demandOne p ep.n e ch out.stuck b) s) s) s) := by
  show execDemandWindow e { ch, out } s = _
  simp only [execDemandWindow, hopen, Bool.not_true, Bool.false_eq_true, if_false]

theorem exec_modeTimeout_due (hserves : s.serves e = true) (hmode : ((s.eng e).channels[ch]).processor = true)
    (hstuck : ((s.eng e).channels[ch]).stuck = true) (hdue : ((s.eng e).channels[ch]).since + 10000 ≤ s.now) :
    exec (.modeTimeout e ch) s = .next ((s.modChannel e ch (fun c => { c with processor := false, stuck := false })).detect e
      { plainFault 4 4 ch.val with access := 0xB }) := by
  show execModeTimeout e ch s = _
  simp only [execModeTimeout, hserves, hmode, hstuck, hdue, decide_true, Bool.and_self, if_true]

end Windows

theorem exec_moduleTempSample_powered {s : State} {e : EngId} (hpowered : (s.eng e).powered = true) (m : Fin 32)
    (temp : Option Int) : exec (.moduleTempSample e m temp) s = .next (s.sampleSensors e (26 + m.val) [temp]) := by
  show execModuleTempSample e m temp s = _
  rw [execModuleTempSample, if_pos hpowered]

/-- Settles O47: each clause is the branch of its row that the clause's conditions select. That a window pays for the refreshes of
its channel is deduced (log 53), and so is that a program runs the entries as they stood at GO and that NMX_COMPLETE names the entry
that it ended with (log 110). -/
theorem nearMemoryEvents : Obligations.NearMemoryEvents := by
  refine ⟨fun src s w st i hv hr hx hidle hcheck => ?_, fun src s w hv hr hx hidle hcheck => ?_,
    fun s e p last hserves hpower hbusy hlocked => ⟨fun st hfailed => ?_, fun q b hfailed hover hlast => ?_⟩,
    fun src s off t a hv hr hx ht hin hhere => ?_, fun s e ch out hopen hslot => exec_maintenanceWindow_opens hopen hslot,
    fun s e ch out hshut => exec_maintenanceWindow_shut hshut, fun s e ch out hopen => exec_demandWindow_opens hopen,
    fun s e ch hserves hmode hstuck hdue => exec_modeTimeout_due hserves hmode hstuck hdue,
    fun s e m temp hpowered => exec_moduleTempSample_powered hpowered m temp⟩
  · show execNmxGo src w s = _
    rw [execNmxGo, State.access_expert hv hr hx, State.goNmx_rejected rfl hidle hcheck]
  · show execNmxGo src w s = _
    rw [execNmxGo, State.access_expert hv hr hx, State.goNmx_starts rfl hidle hcheck]
  · exact exec_nmxComplete_ends hserves hpower hbusy hlocked (State.nmxEnd_failed hfailed)
  · exact exec_nmxComplete_ends hserves hpower hbusy hlocked (State.nmxEnd_ran hfailed hover hlast)
  · show execXlateStart src off s = _
    rw [execXlateStart, State.access_expert hv hr hx,
      State.xlate_here (by rwa [State.part_touch, State.win_touch]) hin hhere]

end Sys2Proof.Machine

/-! ## The tier at power-on, and digest jobs -/

namespace Sys2Proof.Machine

/-- Settles O7: reset and power-off leave the tier of State.reset and the partitions of Partition.reset. -/
theorem tierAtPowerOn : Obligations.TierAtPowerOn := by
  intro s h
  have hs : s.Cleared := h
  refine ⟨?_, ?_, fun p => ?_⟩
  · rw [hs.tide_eq]
    rfl
  · rw [hs.tide_eq]
    rfl
  · rw [hs.part_eq]
    exact ⟨rfl, rfl, rfl⟩

/-! ### A job starts or fails its checks (R272) -/

/-- An access that wakes its engine takes no time. -/
theorem State.now_touch (s : State) (e : EngId) : (s.touch e).now = s.now := by
  unfold State.touch
  split <;> rfl

/-- The fragment list of the job that a block's registers describe. -/
def State.listedFrags (s : State) (e : EngId) (p : PartId) (list : List Byte) : List (List Byte) :=
  chunks 32 (padTo (32 * min 4096 (jobFrags (s.win e p).dgx.job)) list)

/-- The job that a block's registers and a fetched fragment list describe at the time of its GO. -/
def State.askedJob (s : State) (e : EngId) (p : PartId) (path : Path) (list : List Byte) (now : Nat) : DgxRun :=
  dgxJob (s.win e p).dgx path (s.listedFrags e p list) ((s.eng e).jobKey (s.win e p).dgx.job).gen now

/-- GO on a block that runs no job starts the job that it describes, or ends it with its first failure. -/
theorem State.goDgx_idle {s t : State} {e : EngId} {p : PartId} {w : Word}
    (ht : s.modWin e p (fun x => { x with dgx := x.dgx.control w }) = t) (hidle : (t.win e p).dgx.run = none)
    (path : Path) (list : List Byte) (fail : Bool) :
    s.goDgx e p path w list fail =
      match t.dgxCheck e p (t.askedJob e p path list s.now) (t.listedFrags e p list) fail with
      | some (st, i) => t.endDgx e p st i
      | none => (t.modWin e p (fun x =>
          { x with dgx := { x.dgx with run := some (t.askedJob e p path list s.now) } })).grantLanes e := by
  subst ht
  exact if_neg (by rw [hidle]; exact Bool.false_ne_true)

/-! ### A job ends with its message (R273) -/

/-- A job that holds a lane, has its key and gathers its whole message is finished with it. -/
theorem State.completeDgx_gathered {s : State} {e : EngId} {p : PartId} {host : List (List Byte)} {fail : Option Nat}
    {upset : Comparators} {r : DgxRun} {lane : Nat} {msg : List Byte} (hrun : (s.win e p).dgx.run = some r)
    (hlane : r.lane = some lane) (hkey : (s.eng e).keyLost r = none)
    (hmsg : s.gather p fail r.frags.zipIdx host = (msg, none)) :
    s.completeDgx e p host fail upset = s.finishDgx e p r lane msg upset := by
  simp only [State.completeDgx, hrun, hlane, hkey, hmsg]

theorem exec_dgxComplete_awake {s : State} {e : EngId} (hserves : s.serves e = true) (hpower : (s.eng e).power.low = false)
    (p : PartId) (host : List (List Byte)) (fail : Option Nat) (upset : Comparators) :
    exec (.dgxComplete e p host fail upset) s = .next (((s.grantLanes e).completeDgx e p host fail upset).grantLanes e) := by
  show execDgxComplete e p host fail upset s = _
  rw [execDgxComplete, hserves, hpower]
  rfl

/-! ### A job gives its lane over, and takes one again (R268, R269) -/

theorem State.preempts_due {s : State} {e : EngId} {j : LaneJob} (hserves : s.serves e = true)
    (hwaits : (s.eng e).digestWaits.any
      (fun w => w.cls < j.work.cls && ((s.eng e).freeLanes ((s.eng e).workAlg w)).isEmpty) = true)
    (hheld : j.since + 10000 ≤ s.now) (hroom : (s.eng e).contexts.length < 256) : s.preempts e j = true := by
  simp only [State.preempts, hserves, hwaits, hheld, hroom, decide_true, Bool.and_self]

/-- The lane of `j` goes over to `w`, and the context of `j` is saved. -/
def State.handOver (s : State) (e : EngId) (lane : Fin 64) (j : LaneJob) (w : DigestJob) : State :=
  s.modEng e (fun x =>
    { x with contexts := x.contexts ++ [{ work := j.work, bytes := x.savedBytes j.work }],
             digestWaits := x.digestWaits.filter (fun v => v ≠ w),
             lanes := x.lanes.set lane.val (some { work := w, since := s.now }) lane.isLt })

/-- A preempted job of a partition is marked as saved and as without a lane; other jobs are known by their contexts alone. -/
theorem exec_digestPreempt_due {s : State} {e : EngId} {lane : Fin 64} {j : LaneJob} {w : DigestJob}
    (hlane : (s.eng e).lanes[lane] = some j) (hdue : s.preempts e j = true)
    (hnext : (s.eng e).digestWaits.find? (fun v => some v.cls = (s.eng e).waitingClass) = some w) :
    exec (.digestPreempt e lane) s = .next (match j.work with
      | .dgx p => (s.handOver e lane j w).modRun e p (fun r => { r with lane := none, saved := true })
      | _ => s.handOver e lane j w) := by
  show execDigestPreempt e lane s = _
  simp only [execDigestPreempt, hlane, hdue, hnext, Bool.not_true, Bool.false_eq_true, if_false]
  rfl

/-- A job leaves the context area. -/
def State.dropContext (s : State) (e : EngId) (ctx : Nat) : State :=
  s.modEng e (fun x => { x with contexts := x.contexts.eraseIdx ctx })

/-- A job of the context area that no higher class waits before leaves it for the lane that the pick gives. -/
theorem exec_digestResume_picks {s u : State} {e : EngId} {ctx : Nat} {c : SavedCtx} {l : Nat}
    (hctx : (s.eng e).contexts[ctx]? = some c) (hserves : s.serves e = true)
    (hwaits : (s.eng e).digestWaits.any (fun w => w.cls < c.work.cls) = false)
    (hpick : s.pick ((s.eng e).freeLanes ((s.eng e).workAlg c.work)) = (some l, u)) :
    exec (.digestResume e ctx) s = .next (match c.work with
      | .dgx p => (u.dropContext e ctx).giveLane e p l
      | w => (u.dropContext e ctx).modEng e (fun x => { x with lanes := x.lanes.mapIdx (fun i j =>
          if i = l then some { work := w, since := s.now } else j) })) := by
  show execDigestResume e ctx s = _
  simp only [execDigestResume, hctx, hserves, hwaits, hpick, Bool.not_true, Bool.or_self, Bool.false_eq_true, if_false]
  rfl

/-- Settles O48: each clause is the branch of its row that the clause's conditions select. That a preempted job's context is what
it started from, since a job takes in its message at its end, is deduced (log 130). -/
theorem digestEvents : Obligations.DigestEvents := by
  refine ⟨fun src s w list fail hv hr hx hidle => ?_,
    fun s e p host upset r lane msg hserves hpower hrun hlane hkey hmsg => ?_,
    fun s e lane j w hlane hserves hwaits hheld hroom hnext =>
      exec_digestPreempt_due hlane (State.preempts_due hserves hwaits hheld hroom) hnext,
    fun s e ctx c l u hctx hserves hwaits hpick => exec_digestResume_picks hctx hserves hwaits hpick,
    fun s e lane hserves => ?_, fun s e lane hserves => ?_⟩
  · show execDgxGo src w list fail s = _
    rw [execDgxGo, State.access_expert hv hr hx, State.goDgx_idle rfl hidle, State.now_touch]
    rfl
  · rw [exec_dgxComplete_awake hserves hpower, State.completeDgx_gathered hrun hlane hkey hmsg]
  · show execDigestLaneFail e lane s = _
    rw [execDigestLaneFail, if_pos hserves]
  · show execCompressLaneFail e lane s = _
    rw [execCompressLaneFail, if_pos hserves]

end Sys2Proof.Machine

/-! ## Re-shards, rebuilds and restores as they run and end -/

namespace Sys2Proof.Machine

/-! ### A re-shard runs and ends (R281, R283) -/

section ReshardRuns

variable {s : State} {p : PartId} {r : Reshard}

theorem exec_stripeMoveComplete_moves {tid : Word} {stripe : Nat} {t : Tensor} {d : Placement}
    (hreshard : (s.part p).reshard = some r) (htensor : (s.part p).tensor? tid.toNat = some t) (hdest : t.dest = some d)
    (hruns : (s.part p).resharding = true) (hwhole : s.reshardHit p r = false) (hstripe : stripe < t.stripes)
    (hunmoved : t.moved.contains stripe = false) (hchanges : t.place.dataEngine stripe ≠ d.dataEngine stripe) :
    exec (.stripeMoveComplete p tid stripe) s = .next (s.moveStripe p t stripe) := by
  show execStripeMoveComplete p tid stripe s = _
  simp only [execStripeMoveComplete, hreshard, htensor, hdest, hruns, hwhole, hstripe, hunmoved, hchanges, ne_eq,
    not_false_eq_true, decide_true, Bool.not_false, Bool.and_self, if_true]

theorem State.reshardMoved_of_allMoved (hruns : (s.part p).resharding = true) (hwhole : s.reshardHit p r = false)
    (hmoved : (s.part p).tensors.all Tensor.allMoved = true) : s.reshardMoved p r = true := by
  simp only [State.reshardMoved, hruns, hwhole, hmoved, Bool.not_false, Bool.and_self]

/-- Past the guard of RESHARD_COMPLETE: a re-shard in place ends, and any other waits for its record (log 73). -/
theorem exec_reshardComplete_moved (hreshard : (s.part p).reshard = some r) (hmoved : s.reshardMoved p r = true) :
    exec (.reshardComplete p) s = .next (if r.members = s.members p then s.endReshard p r
      else if s.recordChanging then s
      else s.adopt (s.record.setPart p { (s.cfg p).getD PartCfg.initial with members := r.members }) [] p none) := by
  show execReshardComplete p s = _
  simp only [execReshardComplete, hreshard, hmoved, Bool.not_true, Bool.false_eq_true, if_false]

end ReshardRuns

/-! ### A rebuild starts (R279, R280) -/

section RebuildStarts

variable {s : State} {p : PartId}

/-- An adoption under way is one of the changes that R88 admits one at a time. -/
theorem State.adoption_isSome_eq_false_of_quiet (h : s.configInProgress = false) : s.adoption.isSome = false := by
  simp only [State.configInProgress, State.recordChanging, Bool.or_eq_false_iff] at h
  obtain ⟨⟨hidle, -⟩, -⟩ := h
  exact hidle

/-- With no re-shard in hand, a partition that waits for a rebuild and has lost members is rebuilt onto those that remain, once
nothing stands in the way. -/
theorem exec_rebuildStart_starts (hexists : s.exists_ p = true) (hwaits : (s.part p).rebuildWait = true)
    (hdead : s.partDead p = false) (hquiet : s.configInProgress = false) (hreshard : (s.part p).reshard = none)
    (hlost : s.fencedOf p ≠ 0 ∨ (s.part p).gone ≠ 0) (hcan : (s.part p).canReshard = true)
    (hcut : (s.part p).epochs.any (fun ep => ep.state = 2) = false) (hroom : s.campaignsFull = false)
    (hlive : s.parity + 1 ≤ maskCount (s.liveMembers p &&& ~~~(s.part p).gone)) :
    exec (.rebuildStart p) s = .next (s.rebuildOrWait p
      { members := s.liveMembers p &&& ~~~(s.part p).gone, parity := s.parity, rebuild := true, campaign := none,
        requester := none }) := by
  have hidle := State.adoption_isSome_eq_false_of_quiet hquiet
  have hsome : (decide (s.fencedOf p = 0) && decide ((s.part p).gone = 0)) = false := by
    rw [Bool.and_eq_false_iff, decide_eq_false_iff_not, decide_eq_false_iff_not]
    exact hlost
  have henough : decide (maskCount (s.liveMembers p &&& ~~~(s.part p).gone) < s.parity + 1) = false :=
    decide_eq_false (Nat.not_lt.mpr hlive)
  show execRebuildStart p s = _
  simp only [execRebuildStart, hexists, hwaits, hdead, hidle, hreshard, hsome, hquiet, hcan, hcut, hroom, henough, Bool.not_true,
    Bool.or_self, Bool.false_eq_true, if_false]

end RebuildStarts

/-! ### A restore ends (R290, R291, R295) -/

section RestoreEnds

variable {s : State} {p : PartId} {r : Restore} {bad : List Nat}

theorem exec_restoreComplete_fails (hrestore : (s.part p).restore = some r) (hruns : r.state = 2)
    (hlost : s.parity < maskCount (s.fencedOf p)) :
    exec (.restoreComplete { part := p, bad }) s = .next (s.failRestore p .fenced) := by
  show execRestoreComplete { part := p, bad } s = _
  simp only [execRestoreComplete, hrestore, hruns, hlost, ne_eq, not_true_eq_false, if_false, if_true]

theorem exec_restoreComplete_loads {s1 s2 : State} (hrestore : (s.part p).restore = some r) (hruns : r.state = 2)
    (hcovered : maskCount (s.fencedOf p) ≤ s.parity) (hstore : ∀ v, v < s.store.volumes.length → s.storeGoes v = true)
    (hpaid : s.payRestore p r = (true, s1)) (hlanes : s1.restoreLanes p = (true, s2)) :
    exec (.restoreComplete { part := p, bad }) s = .next ((s2.finishRestore p r bad).endLanes p) := by
  have hreached : (List.range s.store.volumes.length).any (fun v => !s.storeGoes v) = false := by
    simpa only [List.any_eq_false, List.mem_range, Bool.not_eq_true', Bool.not_eq_false] using hstore
  show execRestoreComplete { part := p, bad } s = _
  simp only [execRestoreComplete, hrestore, hruns, Nat.not_lt.mpr hcovered, hreached, hpaid, hlanes, ne_eq, not_true_eq_false,
    Bool.false_eq_true, if_false]

end RestoreEnds

/-- Settles O46: each clause is the branch of its row that the clause's conditions select. That a re-shard which changes the members
ends by way of an adopted record, and that no rebuild starts with fewer than P + 1 members left, is deduced (log 73). -/
theorem reshardEvents : Obligations.ReshardEvents := by
  refine ⟨fun _ _ _ _ _ _ _ => exec_stripeMoveComplete_moves, fun s p r hreshard hruns hwhole hall => ?_,
    fun _ _ => exec_rebuildStart_starts, fun _ _ _ _ _ _ => exec_restoreComplete_loads,
    fun _ _ _ _ => exec_restoreComplete_fails⟩
  rw [exec_reshardComplete_moved hreshard (State.reshardMoved_of_allMoved hruns hwhole hall)]
  constructor
  · intro hsame
    rw [if_pos hsame]
  · intro hchange hfree
    rw [if_neg hchange, hfree, if_neg Bool.false_ne_true]

end Sys2Proof.Machine

/-! ## The block as a whole: a step keeps soundness, and a nanosecond passes on an empty queue -/

namespace Sys2Proof.Machine

/-! ### What a step keeps (R389, R411) -/

section Step

variable {s t : State}

/-- A step runs a command on the queue's rest, or updates the state idly and lets the clocks run. -/
theorem step_cases (h : step s = .next t) :
    (∃ u, Keeps s u ∧ t = u.tick) ∨ ∃ rest, Keeps { s with pending := rest } t := by
  cases hq : s.pending with
  | nil =>
    obtain ⟨u, hkeeps, htick⟩ := s.passTime_eq_tick
    rw [step, hq, htick] at h
    cases h
    exact .inl ⟨u, hkeeps, rfl⟩
  | cons c rest =>
    rw [stepRunsFrontCommand s c rest hq] at h
    exact .inr ⟨rest, exec_keeps h⟩

/-- Whatever a step does, it keeps each engine's soundness and what only rises. -/
theorem step_engKeeps (h : step s = .next t) (e : EngId) : EngKeeps (s.eng e) (t.eng e) := by
  obtain ⟨u, hkeeps, rfl⟩ | ⟨rest, hkeeps⟩ := step_cases h
  · exact (hkeeps.eng e).trans (u.tick_eng e)
  · exact hkeeps.eng e

/-- Whatever a step does, it keeps the volumes in canonical form. -/
theorem step_storeWf (h : step s = .next t) (hwf : s.store.Wf) : t.store.Wf := by
  obtain ⟨u, hkeeps, rfl⟩ | ⟨rest, hkeeps⟩ := step_cases h
  · exact hkeeps.store hwf
  · exact hkeeps.store hwf

end Step

/-- Settles O5: the engines and the volumes are kept apart, by every command and by an idle nanosecond. -/
theorem stepsKeepSoundness : Obligations.StepsKeepSoundness := by
  rintro s t ⟨heng, hstore⟩ h
  exact ⟨fun e => (step_engKeeps h e).sound (heng e), step_storeWf h hstore⟩

/-- Settles O6: what a step keeps of an engine has the one-way state among it. -/
theorem oneWayStateNeverFalls : Obligations.OneWayStateNeverFalls := by
  rintro s t e ⟨heng, -⟩ h
  have hkeeps := step_engKeeps h e
  have hsound := heng e
  obtain ⟨-, hlife, -⟩ := hkeeps.sound hsound
  exact ⟨hkeeps.life hsound, hlife, hkeeps.counter hsound, hkeeps.anchor⟩

/-! ### The reset state (R389, R411) -/

/-- An engine comes from the factory with an empty pool, in lifecycle 0, with no provisional image (log 10). -/
theorem Engine.reset_sound (e : EngId) : (Engine.reset e).Sound := by
  refine ⟨rfl, Nat.zero_le 3, fun hprovisional => ?_⟩
  cases hprovisional

/-- Settles O4: every engine is as it comes from the factory, and there is no volume (log 8). -/
theorem resetIsSound : Obligations.ResetIsSound := by
  have heng : ∀ e, (State.reset.eng e).Sound := fun e => State.eng_reset e ▸ Engine.reset_sound e
  have hvolumes : State.reset.store.volumes = [] := rfl
  have hparked : State.reset.store.parked = [] := rfl
  refine ⟨⟨heng, by simp [hvolumes], by simp [hparked]⟩, ?_⟩
  have hpools : State.reset.engines.toList.all (fun x => x.pool.wf) = true := by
    rw [List.all_eq_true]
    intro x hx
    obtain ⟨i, hi, rfl⟩ := Vector.mem_iff_getElem.mp (Vector.mem_toList_iff.mp hx)
    exact (heng ⟨i, hi⟩).1
  simp [State.memoriesWf, hpools, hvolumes, hparked]

/-! ### An empty queue (log 2) -/

/-- Settles O2: before the clocks run, an idle nanosecond keeps queue and time. -/
theorem emptyQueuePassesTime : Obligations.EmptyQueuePassesTime := by
  intro s hq
  obtain ⟨u, hkeeps, htick⟩ := s.passTime_eq_tick
  refine ⟨by rw [step, hq], ?_, ?_⟩
  · rw [htick, ← hkeeps.clock]
    rfl
  · rw [htick, ← hq, ← hkeeps.queue]
    rfl

end Sys2Proof.Machine

/-! ## Views, adoptions, leases, faults and campaigns -/

namespace Sys2Proof.Machine

/-! ### Heartbeats and the quorum (R297, R311) -/

section Heartbeats

variable {s : State} {e : EngId}

theorem exec_heartbeat_serves (hserves : s.serves e = true) (heard : BitVec 16) :
    let ls := (maskEngines heard).filter (fun x => x ≠ e && s.serves x)
    exec (.heartbeat e heard) s = .next ((e :: ls).foldl (fun s x => s.noteQuorum x) (ls.foldl (fun s x => s.modEng x (fun y =>
      { y with member := { y.member with heard := y.member.heard.set e.val s.now e.isLt,
                                         unreachable := setBit y.member.unreachable e.val false } })) s)) := by
  show execHeartbeat e heard s = _
  rw [execHeartbeat, hserves, Bool.not_true, if_neg Bool.false_ne_true]

/-- A peer of which nothing has been heard for 20 ms is not reached any more (R297). -/
theorem exec_peerUnreachable_silent {peer : EngId} (hserves : s.serves e = true) (hne : e ≠ peer)
    (hdue : (s.eng e).member.heard[peer] + 20000000 ≤ s.now) :
    exec (.peerUnreachable e peer) s =
      .next ((List.finRange 16).foldl (fun s x => if s.serves x then s.noteQuorum x else s) (s.modEng e (fun x =>
        { x with member := { x.member with unreachable := x.member.unreachable ||| (1#16 <<< peer.val) } }))) := by
  show execPeerUnreachable e peer s = _
  rw [execPeerUnreachable, if_pos (by simpa [hserves, hne] using hdue)]
  rfl

theorem exec_noQuorum_due {t : Nat} (hjoined : s.joined e = true) (hlost : (s.eng e).member.lostSince = some t)
    (hdue : t + 100000000 ≤ s.now) : exec (.noQuorum e) s = .next (s.loseQuorum e) := by
  have hlong : (s.eng e).member.lostSince.any (fun t => t + 100000000 ≤ s.now) = true := by
    rwa [hlost, Option.any_some, decide_eq_true_eq]
  show execNoQuorum e s = _
  rw [execNoQuorum, hjoined, hlong, Bool.and_self, if_pos rfl]

end Heartbeats

/-! ### Proposals (R298, R300, R312) -/

section Proposals

variable {s : State}

/-- The leader of nine that agree proposes the view that they would change to, in no second proposal beside its own (R298, R312). -/
theorem exec_propose_leads {leader : EngId} (hleader : s.leader? = some leader)
    (hnine : 9 ≤ maskCount (s.proposalSet leader))
    (hnew : ∀ v, s.membership.view = some v → ¬(v.set = s.proposalSet leader ∧ v.formed = s.proposalSet leader))
    (hnum : max s.membership.lastView (s.eng leader).member.accepted + 1 ≤ 0xFFFFFFFF)
    (hlost : s.longLost (s.proposalSet leader) = true)
    (hnone : ∀ q, s.membership.proposal = some q → q.leader ≠ leader) :
    exec (.propose leader) s = .next (s.sendProposal leader
      (max s.membership.lastView (s.eng leader).member.accepted + 1) (s.proposalSet leader)) := by
  have hsame : s.membership.view.any
      (fun v => decide (v.set = s.proposalSet leader) && decide (v.formed = s.proposalSet leader)) = false := by
    rw [Option.any_eq_false]
    intro v hv
    simpa using hnew v hv
  have hown : s.membership.proposal.any (fun q => decide (q.leader = leader)) = false := by
    rw [Option.any_eq_false]
    intro q hq
    simpa using hnone q hq
  show execPropose leader s = _
  simp only [execPropose, hleader, hnine, hsame, hnum, hlost, hown, decide_true, Bool.not_false, Bool.and_self, if_true]

/-- An engine accepts a proposal that rises, names it and reaches every engine that it names (R298). -/
theorem State.accept_takes {e : EngId} {q : Proposal} (hq : s.membership.proposal = some q) (hserves : s.serves e = true)
    (hnamed : hasEngine q.set e = true) (hrises : (s.eng e).member.accepted < q.num)
    (hreach : ∀ x ∈ maskEngines q.set, s.reachesPeer e x = true) :
    let t := s.modEng e (fun x => { x with member := { x.member with accepted := q.num } })
    s.accept e = { t with membership :=
      { t.membership with proposal := some { q with accepted := q.accepted ||| engineBit e } } } := by
  have hall : (maskEngines q.set).all (fun x => s.reachesPeer e x) = true := List.all_eq_true.mpr hreach
  simp [State.accept, hq, hserves, hnamed, hrises, hall]

section Answered

variable {q : Proposal} (hq : s.membership.proposal = some q)
include hq

theorem exec_viewFormed_accepted (hall : q.accepted = q.set) (hdue : s.now ≤ q.since + 10000000) :
    exec .viewFormed s = .next (s.newView q.num q.set) := by
  show execViewFormed s = _
  simp [execViewFormed, hq, hall, hdue]

/-- After 10 ms the leader proposes again to those that accepted, where they and itself are nine (R298). -/
theorem exec_viewProposeTimeout_again (hsome : q.accepted ≠ q.set) (hdue : q.since + 10000000 ≤ s.now)
    (hnum : q.num < 0xFFFFFFFF) (hnine : 9 ≤ maskCount (q.accepted ||| engineBit q.leader)) :
    exec .viewProposeTimeout s =
      .next (s.sendProposal q.leader (q.num + 1) (q.accepted ||| engineBit q.leader)) := by
  show execViewProposeTimeout s = _
  simp [execViewProposeTimeout, hq, hsome, hdue.not_gt, hnine.not_gt, hnum.not_ge]

end Answered

end Proposals

/-! ### Departures and joins (R303, R312, Table 14-1) -/

section Joins

variable {s : State} {e : EngId}

/-- The reason of an announced departure decides the state in which the engine leaves (R312). -/
theorem exec_departureAnnouncement_leaves {reason st : Nat} (hjoined : s.joined e = true)
    (hreason : (reason = 3 ∧ st = 4) ∨ (reason = 4 ∧ st = 4) ∨ (reason = 5 ∧ st = 7) ∨ (reason = 6 ∧ st = 6)) :
    exec (.departureAnnouncement e reason) s = .next (s.leave e st reason) := by
  show execDepartureAnnouncement e reason s = _
  obtain ⟨rfl, rfl⟩ | ⟨rfl, rfl⟩ | ⟨rfl, rfl⟩ | ⟨rfl, rfl⟩ := hreason
  all_goals simp [execDepartureAnnouncement, hjoined]

/-- Whether an engine that offers itself reaches a view with a quorum that takes it, and the view it (R303). -/
def State.offersTo (s : State) (e : EngId) : Prop :=
  s.joined e = false ∧ s.mayOffer e = true ∧ 9 ≤ maskCount s.joinedMask ∧ s.membership.lastView ≠ 0xFFFFFFFF ∧
    ∀ x ∈ maskEngines s.joinedMask, s.reachesPeer e x = true ∧ s.reachesPeer x e = true

theorem State.offersTo.checked (h : s.offersTo e) : (s.joined e || !s.mayOffer e || decide (maskCount s.joinedMask < 9) ||
    decide (s.membership.lastView = 0xFFFFFFFF) ||
    !(maskEngines s.joinedMask).all (fun x => s.reachesPeer e x && s.reachesPeer x e)) = false := by
  obtain ⟨hout, hoffers, hnine, hnum, hreach⟩ := h
  have hall : (maskEngines s.joinedMask).all (fun x => s.reachesPeer e x && s.reachesPeer x e) = true := by
    rw [List.all_eq_true]
    intro x hx
    obtain ⟨hto, hfrom⟩ := hreach x hx
    rw [hto, hfrom, Bool.and_self]
  simp only [hout, hoffers, hnine.not_gt, hnum, hall, Bool.not_true, decide_false, Bool.or_self]

/-- An engine that agrees with the view joins it (Table 14-1). -/
theorem State.tryJoin_agrees (h : s.offersTo e) (hagrees : s.disagrees s.joinedMask e = none) :
    s.tryJoin e = s.newView (s.membership.lastView + 1) (s.joinedMask ||| engineBit e) := by
  simp only [State.tryJoin, h.checked, Bool.false_eq_true, if_false, hagrees]

/-- An engine that Table 14-1 keeps out stays out for its reason. -/
theorem State.tryJoin_staysOut {r : Nat} (h : s.offersTo e) (hr : r ≠ 0) (hreason : s.disagrees s.joinedMask e = some r) :
    s.tryJoin e = s.modEng e (fun x =>
      { x with member := { x.member with state := (if r = 5 then 7 else 4), reason := r } }) := by
  obtain ⟨r, rfl⟩ := Nat.exists_eq_succ_of_ne_zero hr
  simp only [State.tryJoin, h.checked, Bool.false_eq_true, if_false, hreason]

/-- ENGINE_JOIN checks every engine, TIME_JOIN_RECHECK one that is out for its time (Table 14-1). -/
theorem exec_joins {c : Instr}
    (hc : c = .engineJoin e ∨ (c = .timeJoinRecheck e ∧ (s.eng e).member.state = 4 ∧ (s.eng e).member.reason = 3)) :
    exec c s = .next (s.tryJoin e) := by
  obtain rfl | ⟨rfl, hstate, hreason⟩ := hc
  · rfl
  · show execTimeJoinRecheck e s = _
    simp [execTimeJoinRecheck, hstate, hreason]

end Joins

/-! ### The end of the split window (R305) -/

section SplitWindow

variable {s : State} {a b : Byte}

/-- The engines of the view that run a minor. -/
def State.atMinor (s : State) (v : Byte) : List EngId := (maskEngines s.joinedMask).filter (fun e => (s.eng e).fw.minor = v)

/-- The engines at the minor that fewer hold, none where as many hold either. -/
def State.fewer (s : State) (a b : Byte) : List EngId :=
  if (s.atMinor a).length < (s.atMinor b).length then s.atMinor a
  else if (s.atMinor b).length < (s.atMinor a).length then s.atMinor b else []

/-- A window that has been open for 2 hours ends: the fewer leave where the rest keep nine, else the shelf says so once (R305). -/
theorem exec_splitWindowExpiry_due (hopen : s.membership.windowAt.isSome = true)
    (hdue : s.membership.windowSince + 7200000000000 ≤ s.now) (hminors : s.minors = [a, b]) :
    exec .splitWindowExpiry s = .next
      (if (!(s.fewer a b).isEmpty && decide (9 + (s.fewer a b).length ≤ maskCount s.joinedMask)) = true then
        (s.fewer a b).foldl (fun s e => s.leave e 4 4) s
      else if s.membership.splitHeld then s
      else ({ s with membership := { s.membership with splitHeld := true } }).mgmtFault s.firstJoined 8) := by
  show execSplitWindowExpiry s = _
  simp only [execSplitWindowExpiry, hminors, isNone_of_isSome hopen, hdue.not_gt, decide_false, Bool.or_self,
    Bool.false_eq_true, if_false]
  rfl

/-- The engines at a smaller minor leave where nine remain without them. -/
theorem exec_splitWindowExpiry_leave {few : List EngId} (hopen : s.membership.windowAt.isSome = true)
    (hdue : s.membership.windowSince + 7200000000000 ≤ s.now) (hminors : s.minors = [a, b]) (hfew : s.fewer a b = few)
    (hnine : 9 + few.length ≤ maskCount s.joinedMask) (hne : few ≠ []) :
    exec .splitWindowExpiry s = .next (few.foldl (fun s e => s.leave e 4 4) s) := by
  rw [exec_splitWindowExpiry_due hopen hdue hminors, hfew, if_pos]
  simp [hne, hnine]

theorem State.length_fewer (hne : (s.atMinor a).length ≠ (s.atMinor b).length) :
    (s.fewer a b).length = min (s.atMinor a).length (s.atMinor b).length := by
  unfold State.fewer
  split
  · omega
  · split <;> omega

/-- With as many engines at either minor, or no nine without the fewer, the shelf raises NOTIFY once and goes on refusing. -/
theorem exec_splitWindowExpiry_held (hopen : s.membership.windowAt.isSome = true)
    (hdue : s.membership.windowSince + 7200000000000 ≤ s.now) (hminors : s.minors = [a, b])
    (hstay : (s.atMinor a).length = (s.atMinor b).length ∨
      maskCount s.joinedMask < 9 + min (s.atMinor a).length (s.atMinor b).length)
    (honce : s.membership.splitHeld = false) :
    exec .splitWindowExpiry s = .next
      (({ s with membership := { s.membership with splitHeld := true } }).mgmtFault s.firstJoined 8) := by
  have hnone : (!(s.fewer a b).isEmpty && decide (9 + (s.fewer a b).length ≤ maskCount s.joinedMask)) = false := by
    by_cases heq : (s.atMinor a).length = (s.atMinor b).length
    · simp [State.fewer, heq]
    · have hfew := hstay.resolve_left heq
      rw [← State.length_fewer heq] at hfew
      rw [decide_eq_false hfew.not_ge, Bool.and_false]
  rw [exec_splitWindowExpiry_due hopen hdue hminors, hnone, honce]
  rfl

end SplitWindow

/-- Settles O49: each clause is the branch of its row that the clause's conditions select. -/
theorem membership : Obligations.Membership := by
  refine ⟨⟨fun s e heard hserves => exec_heartbeat_serves hserves heard,
    fun s e peer hserves hne hdue => exec_peerUnreachable_silent hserves hne hdue,
    fun s e t hjoined hlost hdue => exec_noQuorum_due hjoined hlost hdue,
    fun s leader hleader hnine hnew hnum hlost hnone => exec_propose_leads hleader hnine hnew hnum hlost hnone,
    fun s e q hq hserves hnamed hrises hreach => congrArg _ (State.accept_takes hq hserves hnamed hrises hreach),
    fun s q hq hall hdue => exec_viewFormed_accepted hq hall hdue,
    fun s q hq hsome hdue hnum hnine => exec_viewProposeTimeout_again hq hsome hdue hnum hnine,
    fun s e reason st hjoined hreason => exec_departureAnnouncement_leaves hjoined hreason,
    fun s e c hout hoffers hnine hnum hreach hc => ?_⟩, fun s a b hopen hdue hminors => ⟨fun hlt hnine hne => ?_,
      fun hlt hnine hne => ?_, fun hstay honce => exec_splitWindowExpiry_held hopen hdue hminors hstay honce⟩⟩
  · have hoffersTo : s.offersTo e := ⟨hout, hoffers, hnine, hnum, hreach⟩
    rw [exec_joins hc]
    exact ⟨fun hagrees => by rw [State.tryJoin_agrees hoffersTo hagrees],
      fun r hr hreason => by rw [State.tryJoin_staysOut hoffersTo hr hreason]⟩
  · exact exec_splitWindowExpiry_leave hopen hdue hminors (if_pos hlt) hnine hne
  · exact exec_splitWindowExpiry_leave hopen hdue hminors ((if_neg hlt.not_gt).trans (if_pos hlt)) hnine hne

/-! ### The two phases of an adoption (R301) -/

section Adoption

variable {s : State} {a : Adoption} (ha : s.adoption = some a)
include ha

/-- Acknowledgements gather while some engine of the view owes its own (R301). -/
theorem exec_configPrepare_gathers (hphase : a.commit = false) {answers : BitVec 16}
    (hsome : s.joinedMask &&& ~~~(a.acked ||| (answers &&& s.joinedMask)) ≠ 0) :
    exec (.configPrepare answers) s =
      .next { s with adoption := some { a with acked := a.acked ||| (answers &&& s.joinedMask) } } := by
  show execConfigPrepare answers s = _
  simp only [execConfigPrepare, ha, hphase, hsome, decide_false, Bool.false_eq_true, if_false]

/-- The last acknowledgement of the view starts the second phase (R301). -/
theorem exec_configPrepare_commits (hphase : a.commit = false) {answers : BitVec 16}
    (hall : s.joinedMask &&& ~~~(a.acked ||| (answers &&& s.joinedMask)) = 0) :
    exec (.configPrepare answers) s = .next { s with adoption := some { a with
      acked := a.acked ||| (answers &&& s.joinedMask), commit := true, since := s.now } } := by
  show execConfigPrepare answers s = _
  simp only [execConfigPrepare, ha, hphase, hall, decide_true, Bool.false_eq_true, if_false, if_true]

/-- Confirmations gather while some engine of the view owes its own (R301). -/
theorem exec_configCommit_gathers (hphase : a.commit = true) {answers : BitVec 16}
    (hsome : s.joinedMask &&& ~~~(a.current ||| (answers &&& s.joinedMask)) ≠ 0) :
    exec (.configCommit answers) s =
      .next { s with adoption := some { a with current := a.current ||| (answers &&& s.joinedMask) } } := by
  show execConfigCommit answers s = _
  simp only [execConfigCommit, ha, hphase, hsome, Bool.not_true, Bool.false_eq_true, if_false]

/-- The last confirmation of the view makes the record current (R301). -/
theorem exec_configCommit_finishes (hphase : a.commit = true) {answers : BitVec 16}
    (hall : s.joinedMask &&& ~~~(a.current ||| (answers &&& s.joinedMask)) = 0) :
    exec (.configCommit answers) s =
      .next (s.finishAdoption { a with current := a.current ||| (answers &&& s.joinedMask) }) := by
  show execConfigCommit answers s = _
  simp only [execConfigCommit, ha, hphase, hall, Bool.not_true, Bool.false_eq_true, if_false, if_true]

/-- An engine that has not answered its phase within 1 s leaves, and the phase goes on with the rest (R301). -/
theorem exec_configPhaseTimeout_due {e : EngId} (hjoined : s.joined e = true)
    (hsilent : hasEngine (if a.commit then a.current else a.acked) e = false) (hdue : a.since + 1000000000 ≤ s.now) :
    exec (.configPhaseTimeout e) s =
      if a.commit then exec (.configCommit 0) (s.leave e 4 7) else exec (.configPrepare 0) (s.leave e 4 7) := by
  show execConfigPhaseTimeout e s = _
  simp only [execConfigPhaseTimeout, ha, hjoined, hsilent, hdue, decide_true, Bool.not_false, Bool.and_self, if_true]
  rfl

/-- CONFIG_PHASE_TIMEOUT of an engine outside the view, of one that has answered, or before its time does nothing (R301). -/
theorem exec_configPhaseTimeout_idle {e : EngId} (h : s.joined e = false ∨
    hasEngine (if a.commit then a.current else a.acked) e = true ∨ s.now < a.since + 1000000000) :
    exec (.configPhaseTimeout e) s = .next s := by
  show execConfigPhaseTimeout e s = _
  rw [execConfigPhaseTimeout, ha]
  refine if_neg fun hall => ?_
  simp only [Bool.and_eq_true, Bool.not_eq_true', decide_eq_true_eq] at hall
  obtain ⟨⟨hjoined, hsilent⟩, hdue⟩ := hall
  obtain hout | hanswered | hearly := h
  · exact Bool.false_ne_true (hout.symm.trans hjoined)
  · exact Bool.false_ne_true (hsilent.symm.trans hanswered)
  · exact hdue.not_gt hearly

end Adoption

/-- Settles O50: each clause is the branch of its row that the answers of the view and the time select. -/
theorem configurationAdoption : Obligations.ConfigurationAdoption := by
  refine ⟨fun s a answers ha hphase hsome => exec_configPrepare_gathers ha hphase hsome,
    fun s a answers ha hphase hall => exec_configPrepare_commits ha hphase hall,
    fun s a answers ha hphase hall => exec_configCommit_finishes ha hphase hall,
    fun s a answers ha hphase hsome => exec_configCommit_gathers ha hphase hsome,
    fun s a e ha hjoined hsilent hdue => ?_, fun s e h => ?_⟩
  · obtain ⟨t, ht⟩ := exec_next (.configPhaseTimeout e) s
    have hrow := exec_configPhaseTimeout_due ha hjoined hsilent hdue
    refine ⟨t, ht, fun hphase => ?_, fun hphase => ?_⟩
    · rw [← ht, hrow, hphase, if_pos rfl]
    · rw [← ht, hrow, hphase, if_neg Bool.false_ne_true]
  · cases ha : s.adoption with
    | none =>
      show execConfigPhaseTimeout e s = _
      rw [execConfigPhaseTimeout, ha]
    | some a => exact exec_configPhaseTimeout_idle ha (h a ha)

/-! ### Claims and renewals of the lease (R315, R316, R322) -/

section Lease

variable {s : State}

/-- What a deadline that has come makes of its condition. -/
theorem due_of_some {o : Option Nat} {t span now : Nat} (ho : o = some t) (hdue : t + span ≤ now) :
    o.any (fun t => decide (t + span ≤ now)) = true := by
  rwa [ho, Option.any_some, decide_eq_true_eq]

/-- Where no time stands before which nothing is tried again, or that time has come, nothing holds a try back. -/
theorem retry_not_held {o : Option Nat} {now : Nat} (h : ∀ t, o = some t → t ≤ now) :
    o.any (fun t => decide (now < t)) = false := by
  rw [Option.any_eq_false]
  intro t ht
  simpa using h t ht

/-- 15 s after a claim the slot is read back: with the shelf's nonce the claim is held, without it is lost (R315). -/
theorem exec_leaseClaimCheck_due {t : Nat} (hclaims : s.store.lease.state = 1) (hreach : s.reaches 0 = true)
    (hidle : s.adoption = none) (hclaim : s.store.lease.claimAt = some t) (hdue : t + 15000000000 ≤ s.now)
    (got : Option (List Byte)) :
    exec (.leaseClaimCheck got) s = .next (if (s.overwriteSlot got).nonceStands then (s.overwriteSlot got).claimed
      else (s.overwriteSlot got).claimLost) := by
  show execLeaseClaimCheck got s = _
  simp only [execLeaseClaimCheck, hclaims, hreach, hidle, due_of_some hclaim hdue, ne_eq, not_true_eq_false, decide_false,
    Bool.not_true, Option.isSome_none, Bool.or_self, Bool.false_eq_true, if_false]

section Renewal

variable (hheld : s.store.lease.state = 2) (hreach : s.reaches 0 = true) (got : Option (List Byte))
include hheld hreach

/-- A held lease whose record still carries the shelf's nonce runs 60 s on (R316). -/
theorem exec_leaseRenew_renews (hnonce : (s.overwriteSlot got).nonceStands = true) :
    let u := s.overwriteSlot got
    let l : Lease := { s.store.lease with expiry := u.shelfTime + 60000000000, renewed := u.shelfTime,
                                          seq := s.store.lease.seq + 1 }
    exec (.leaseRenew true got) s = .next ((({ u with store := { u.store with lease := l } }).writeLease 1).freeWaiting) := by
  show execLeaseRenew true got s = _
  simp only [execLeaseRenew, hheld, hreach, hnonce, ne_eq, not_true_eq_false, decide_false, Bool.not_true, Bool.or_self,
    Bool.false_eq_true, if_false, if_true]

/-- A held lease whose record carries another nonce is lost (R316). -/
theorem exec_leaseRenew_loses (hnonce : (s.overwriteSlot got).nonceStands = false) :
    let u := s.overwriteSlot got
    let l : Lease := { s.store.lease with state := 3 }
    exec (.leaseRenew true got) s =
      .next ((({ u with store := { u.store with lease := l } }).memberEvent 12 0xFF 0).mgmtFault u.firstJoined 5) := by
  show execLeaseRenew true got s = _
  simp only [execLeaseRenew, hheld, hreach, hnonce, ne_eq, not_true_eq_false, decide_false, Bool.not_true, Bool.or_self,
    Bool.false_eq_true, if_false]

end Renewal

/-- With nine engines and its volumes reached, a store that is formatted is attached, and its own slot claimed (R322). -/
theorem exec_startupLeaseClaim_claims {others : List (List Byte)} {i : Nat} (hstep : s.store.step9 = false)
    (hnine : 9 ≤ maskCount s.joinedMask) (hsaved : s.targets.isEmpty = false)
    (hcarried : s.store.volumes.all (fun x => s.carries x) = true)
    (hfits : ((s.othersWrote others).attachAll).superblockFits 0 = true)
    (hunclaimed : ((s.othersWrote others).attachAll).store.lease.state ≠ 1)
    (hunheld : ((s.othersWrote others).attachAll).store.lease.state ≠ 2)
    (hretry : ∀ t, ((s.othersWrote others).attachAll).store.lease.retryAt = some t → t ≤ ((s.othersWrote others).attachAll).now)
    (hreach : ((s.othersWrote others).attachAll).reaches 0 = true)
    (hslot : ((s.othersWrote others).attachAll).ownSlot = some i) :
    exec (.startupLeaseClaim others) s = .next (((s.othersWrote others).attachAll).claim i none) := by
  show execStartupLeaseClaim others s = _
  simp only [execStartupLeaseClaim, hstep, hnine.not_gt, hsaved, hcarried, hfits, hunclaimed, hunheld, retry_not_held hretry,
    hreach, hslot, decide_false, Bool.not_true, Bool.or_self, Bool.false_eq_true, if_false]

end Lease

/-! ### Extensions of the allotments (R317; log 88) -/

section Extension

variable {s : State} {others : List (List Byte)} (hwrites : s.mayWrite = true) (hreach : s.reaches 0 = true)
include hwrites hreach

/-- With no allotment (log 88), little room left in them or a drain that waits, the lowest free run is appended (R317). -/
theorem exec_allotExtend_appends {r : Nat × Nat} (hidle : (s.othersWrote others).store.lease.extendAt = none)
    (hroom : (s.othersWrote others).store.lease.allot.length < 64)
    (hretry : ∀ t, (s.othersWrote others).store.lease.retryAt = some t → t ≤ s.now)
    (hneed : (s.othersWrote others).store.lease.allot = [] ∨
      (s.othersWrote others).freeExtents * 100 < (s.othersWrote others).allotted ∨ (s.othersWrote others).drainWaits = true)
    (hrun : (s.othersWrote others).nextRun = some r) :
    let u := s.othersWrote others
    let l : Lease := { u.store.lease with allot := u.store.lease.allot ++ [r], seq := u.store.lease.seq + 1,
                                          extendAt := some u.now, retryAt := none }
    exec (.allotExtend others) s = .next (({ u with store := { u.store with lease := l } }).writeLease 1) := by
  have hneeds : ((s.othersWrote others).store.lease.allot.isEmpty ||
      decide ((s.othersWrote others).freeExtents * 100 < (s.othersWrote others).allotted) ||
      (s.othersWrote others).drainWaits) = true := by
    simpa only [Bool.or_eq_true, List.isEmpty_iff, decide_eq_true_eq, or_assoc] using hneed
  show execAllotExtend others s = _
  simp only [execAllotExtend, hwrites, hreach, hidle, hroom.not_ge, retry_not_held hretry, hneeds, hrun, decide_false,
    Bool.not_true, Option.isSome_none, Bool.or_self, Bool.false_eq_true, if_false]

variable {t : Nat} (hextend : (s.othersWrote others).store.lease.extendAt = some t) (hdue : t + 15000000000 ≤ s.now)
include hextend hdue

/-- An extension that no lower slot overlaps after 15 s stands, and drains that waited for it go on (R317). -/
theorem exec_allotExtendCheck_keeps (hstands : (s.othersWrote others).extendLoses = false) :
    let u := s.othersWrote others
    let l : Lease := { u.store.lease with extendAt := none }
    exec (.allotExtendCheck others) s =
      .next ((({ u with store := { u.store with lease := l } }).memberEvent 14 0xFF 0).resumeDrains) := by
  show execAllotExtendCheck others s = _
  simp only [execAllotExtendCheck, hwrites, hreach, due_of_some hextend hdue, hstands, Bool.not_true, Bool.or_self,
    Bool.false_eq_true, if_false]

/-- An extension that a lower slot overlaps is taken back, and tried again after 1 to 10 s (R317). -/
theorem exec_allotExtendCheck_withdraws (hloses : (s.othersWrote others).extendLoses = true) :
    let u := s.othersWrote others
    let v := u.draw 64
    let l : Lease := { u.store.lease with allot := u.store.lease.allot.dropLast, seq := u.store.lease.seq + 1, extendAt := none,
                                          retryAt := some (s.now + 1000000000 + v.1.toNat % 9000000001) }
    exec (.allotExtendCheck others) s = .next (({ v.2 with store := { v.2.store with lease := l } }).writeLease 1) := by
  show execAllotExtendCheck others s = _
  simp only [execAllotExtendCheck, hwrites, hreach, due_of_some hextend hdue, hloses, Bool.not_true, Bool.or_self,
    Bool.false_eq_true, if_false, if_true]

end Extension

/-- Settles O52: each clause is the branch of its row that the clause's conditions select. That an empty allotment counts as too
little room is the model's (log 88). -/
theorem leaseEvents : Obligations.LeaseEvents :=
  ⟨fun _ got _ hclaims hreach hidle hclaim hdue => exec_leaseClaimCheck_due hclaims hreach hidle hclaim hdue got,
   fun _ got hheld hreach hnonce => exec_leaseRenew_renews hheld hreach got hnonce,
   fun _ got hheld hreach hnonce => exec_leaseRenew_loses hheld hreach got hnonce,
   fun _ _ _ hwrites hreach hidle hroom hretry hneed hrun =>
     exec_allotExtend_appends hwrites hreach hidle hroom hretry hneed hrun,
   fun _ _ _ hwrites hreach hextend hdue =>
     ⟨fun hstands => exec_allotExtendCheck_keeps hwrites hreach hextend hdue hstands,
      fun hloses => exec_allotExtendCheck_withdraws hwrites hreach hextend hdue hloses⟩,
   fun _ _ _ hstep hnine hsaved hcarried hfits hunclaimed hunheld hretry hreach hslot =>
     exec_startupLeaseClaim_claims hstep hnine hsaved hcarried hfits hunclaimed hunheld hretry hreach hslot⟩

/-! ### Faults that blocks detect, and what the shelf does about them (R348, R356, R360, R362, R366, R367, R368) -/

section FaultRows

variable {s : State} {e : EngId}

/-- A detection on a unit that exists has its hardware consequence, acts at its severity and is counted (R356). -/
theorem exec_faultDetect_unit {f : Detection} (hpowered : (s.eng e).powered = true) (hunit : f.unit < blockUnits f.blk.val) :
    let t := ((s.consequence e f).detect e f).countUe e f
    exec (.faultDetect e f) s = .next (if (t.eng e).fenced || f.blk.val = 8 then t.pruneQueues else t).kickReshards := by
  show execFaultDetect e f s = _
  simp only [execFaultDetect, hpowered, hunit, decide_true, Bool.and_self, if_true]

/-- Once every lost row of a fenced channel is rebuilt its campaign ends and the log says so (R360; source 0 and severity 1 are the
model's, log 78). -/
theorem exec_ddrChannelRebuild_restores {ch : Fin 16} (hfenced : ((s.eng e).flt[(4 : Fin 11)]).isFenced ch.val = true)
    (hthere : s.lost e = false) (hrows : (s.eng e).lostRows.filter (fun r => r.2 = ch.val) ≠ []) :
    let t := ((s.eng e).lostRows.filter (fun r => r.2 = ch.val)).foldl (fun s r => s.rebuildRow e r.1 r.2) s
    (t.eng e).lostRows.filter (fun r => r.2 = ch.val) = [] →
    exec (.ddrChannelRebuild e ch) s =
      .next ((t.endCampaign ((t.campaigns.find? (fun c => c.kind = .ddr)).map Campaign.id)).faultLog
        e (faultEntry (s.time e) (plainFault 4 0 ch.val) 1 6 ((s.eng e).avail 4))) := by
  intro t hdone
  have hsome : ((s.eng e).lostRows.filter (fun r => r.2 = ch.val)).isEmpty = false := by simpa using hrows
  have hnone : ((t.eng e).lostRows.filter (fun r => r.2 = ch.val)).isEmpty = true := List.isEmpty_iff.mpr hdone
  show execDdrChannelRebuild e ch s = _
  simp only [execDdrChannelRebuild, hfenced, hthere, hsome, Bool.not_true, Bool.false_eq_true, if_false]
  exact congrArg _ (if_pos hnone)

/-- Two engines whose group is fenced at either end, with their spares free, switch to the spare (R362). -/
theorem exec_spareGroupSwitch_switches {peer : EngId} (hne : e ≠ peer)
    (hdown : ((s.eng e).flt[(6 : Fin 11)]).isFenced peer.val = true ∨ ((s.eng peer).flt[(6 : Fin 11)]).isFenced e.val = true)
    (hpowered : (s.eng e).powered = true) (hspare : (s.eng e).spare = none)
    (hsound : ((s.eng e).flt[(6 : Fin 11)]).isFenced e.val = false)
    (hpowered' : (s.eng peer).powered = true) (hspare' : (s.eng peer).spare = none)
    (hsound' : ((s.eng peer).flt[(6 : Fin 11)]).isFenced peer.val = false) :
    exec (.spareGroupSwitch e peer) s = .next ((s.modEng e (fun x => { x with spare := some peer })).modEng peer (fun x =>
      { x with spare := some e })) := by
  have hgroup : (((s.eng e).flt[(6 : Fin 11)]).isFenced peer.val || ((s.eng peer).flt[(6 : Fin 11)]).isFenced e.val) = true :=
    (Bool.or_eq_true _ _).mpr hdown
  show execSpareGroupSwitch e peer s = _
  simp only [execSpareGroupSwitch, hne, hgroup, hpowered, hspare, hsound, hpowered', hspare', hsound', ne_eq, not_false_eq_true,
    decide_true, Option.isNone_none, Bool.not_false, Bool.and_self, if_true]

theorem exec_faultClear_powered (hpowered : (s.eng e).powered = true) (blk : Fin 11) (bits : Word) :
    exec (.faultClear e blk bits) s = .next (s.clearFaults e blk bits) := by
  show execFaultClear e blk bits s = _
  rw [execFaultClear, if_pos hpowered]

theorem exec_faultInject_serves (hserves : s.serves e = true) (blk : Fin 11) (bits : Word) :
    exec (.faultInject e blk bits) s = .next (s.injectFaults e blk bits) := by
  show execFaultInject e blk bits s = _
  rw [execFaultInject, if_pos hserves]

theorem exec_fltLock_serves (hserves : s.serves e = true) (blk : Fin 11) :
    exec (.fltLock e blk) s = .next (s.modFlt e blk (fun f => { f with lock := true })) := by
  show execFltLock e blk s = _
  rw [execFltLock, if_pos hserves]

/-- A cycle with a participant that can be re-run is broken and recorded; one of host commands alone is reported for each (R348). -/
theorem exec_cycleCheck_found (hjoined : s.joined e = true) (c : WaitCycle) :
    exec (.cycleCheck e (some c)) s = .next (if c.rerunnable then s.detect e { plainFault 7 3 0 with master := 0x7000 }
      else c.masters.foldl (fun s m => s.detect e { plainFault 7 4 0 with master := m }) s) := by
  show execCycleCheck e (some c) s = _
  simp only [execCycleCheck, hjoined, Bool.not_true, Bool.false_eq_true, if_false]

end FaultRows

/-- Settles O53: each clause is the branch of its row that the clause's conditions select. The source and severity of a rebuild's
entry are the model's (log 78). -/
theorem faultEvents : Obligations.FaultEvents :=
  ⟨fun _ _ _ hpowered hunit => exec_faultDetect_unit hpowered hunit,
   fun _ _ _ hfenced hthere hrows => exec_ddrChannelRebuild_restores hfenced hthere hrows,
   fun _ _ _ hne hdown hpowered hspare hsound hpowered' hspare' hsound' =>
     exec_spareGroupSwitch_switches hne hdown hpowered hspare hsound hpowered' hspare' hsound',
   fun _ _ blk bits hpowered => exec_faultClear_powered hpowered blk bits,
   fun _ _ blk bits hserves => exec_faultInject_serves hserves blk bits,
   fun _ _ blk hserves => exec_fltLock_serves hserves blk,
   fun _ _ c hjoined => exec_cycleCheck_found hjoined c,
   fun _ _ => rfl⟩

/-! ### The ends of a sanitise and of a format (R413, R415, R424; log 156) -/

section Campaigns

variable {s : State}

section Sanitise

variable (hruns : s.sanitise.state = 1)
include hruns

/-- A NAMESPACE sanitise ends with every extent of the allotments erased (R415). -/
theorem exec_sanitiseComplete_erased (hmode : s.sanitise.mode ≠ 2) :
    exec (.sanitiseComplete none) s = .next (((s.endCampaign s.sanitise.campaign).namespaceErase.journalAll 3 s.sanitise.part
      (sanitisePayload s.sanitise.mode s.sanitise.scope s.sanitise.part 3 s.store.lease.extents.length)).sanitised
        { s.sanitise with state := 2, percent := 100, finish := s.shelfTime, campaign := none }) := by
  show execSanitiseComplete none s = _
  simp only [execSanitiseComplete, hruns, hmode, ne_eq, not_true_eq_false, if_false]

/-- An OVERWRITE ends with every pool and stage memory read as zero (R415). -/
theorem exec_sanitiseComplete_overwritten (hmode : s.sanitise.mode = 2) :
    exec (.sanitiseComplete none) s = .next ((((s.endCampaign s.sanitise.campaign).overwrite.journalAll 3 s.sanitise.part
      (sanitisePayload s.sanitise.mode s.sanitise.scope s.sanitise.part 2 0)).journalAll 3 s.sanitise.part
      (sanitisePayload s.sanitise.mode s.sanitise.scope s.sanitise.part 3 0)).sanitised
        { s.sanitise with state := 2, percent := 100, finish := s.shelfTime, campaign := none }) := by
  show execSanitiseComplete none s = _
  simp only [execSanitiseComplete, hruns, hmode, ne_eq, not_true_eq_false, if_false, if_true]

/-- A sanitise that fails keeps what it erased until then, its status and its refusals (R415; log 156). -/
theorem exec_sanitiseComplete_failed (n : Nat) :
    let z := s.sanitise
    let u := if z.mode = 2 then (s.endCampaign z.campaign).overwrite
      else (s.endCampaign z.campaign).eraseExtents 0 (s.store.lease.extents.take n)
    let v := (u.journalAll 3 z.part (sanitisePayload z.mode z.scope z.part 4 (if z.mode = 2 then 0 else n))).mgmtFault
      u.firstJoined 2
    let y : Sanitise := { z with state := 3, status := if z.mode = 2 then .readbackMismatch else .mediumError,
                                 finish := s.shelfTime, campaign := none }
    exec (.sanitiseComplete (some n)) s =
      .next { v with sanitise := y, sanitiseFailed := z.name :: v.sanitiseFailed.filter (fun f => f ≠ z.name) } := by
  show execSanitiseComplete (some n) s = _
  simp only [execSanitiseComplete, hruns, ne_eq, not_true_eq_false, if_false]

end Sanitise

theorem exec_sanitiseComplete_idle (hidle : s.sanitise.state ≠ 1) (fail : Option Nat) :
    exec (.sanitiseComplete fail) s = .next s := by
  show execSanitiseComplete fail s = _
  rw [execSanitiseComplete, if_pos hidle]

section Format

variable {f : FormatRun} (hruns : s.store.format = some f)
include hruns

/-- A format that fails at a volume has prepared those above it (R424; log 156). -/
theorem exec_formatComplete_failed (v : Nat) :
    let u := ((s.endCampaign (some f.campaign)).formatDown f.accepted (v + 1)).journalAll 2 0xFF
      (formatPayload 3 v (slice s.savedTargets 0 16))
    exec (.formatComplete (some v)) s = .next { u with store := { u.store with format := none, formatFailed := true } } := by
  show execFormatComplete (some v) s = _
  simp only [execFormatComplete, hruns]

/-- The shelf once a format has prepared and attached every volume: without a lease (R413). -/
def State.formatted (s : State) (f : FormatRun) : State :=
  let u := (((s.endCampaign (some f.campaign)).formatDown f.accepted 0).journalAll 2 0xFF
    (formatPayload 2 0 (slice s.savedTargets 0 16))).attachAll
  ({ u with store := { u.store with format := none, formatFailed := false } } : State).leaveStore

/-- A format that has prepared every volume claims a lease slot (R413). -/
theorem exec_formatComplete_claims {i : Nat} (hslot : (s.formatted f).ownSlot = some i) :
    exec (.formatComplete none) s = .next ((s.formatted f).claim i none) := by
  show execFormatComplete none s = _
  simp only [execFormatComplete, hruns]
  split
  case h_1 j hj =>
    cases hslot.symm.trans hj
    rfl
  case h_2 hnone => cases hslot.symm.trans hnone

end Format

theorem exec_formatComplete_idle (hidle : s.store.format = none) (fail : Option Nat) :
    exec (.formatComplete fail) s = .next s := by
  show execFormatComplete fail s = _
  rw [execFormatComplete, hidle]

end Campaigns

/-- Settles O59: each clause is the branch of its row that the campaign and its end select. What a failed campaign leaves is the
model's (log 156). -/
theorem campaignsComplete : Obligations.CampaignsComplete :=
  ⟨fun _ hruns hmode => exec_sanitiseComplete_erased hruns hmode,
   fun _ hruns hmode => exec_sanitiseComplete_overwritten hruns hmode,
   fun _ n hruns => exec_sanitiseComplete_failed hruns n,
   fun _ fail hidle => exec_sanitiseComplete_idle hidle fail,
   fun _ _ v hruns => exec_formatComplete_failed hruns v,
   fun _ _ _ hruns hslot => exec_formatComplete_claims hruns hslot,
   fun _ fail hidle => exec_formatComplete_idle hidle fail⟩

end Sys2Proof.Machine

/-! ## Commands that a sanitise refuses, the power cap, and the fault registers -/

namespace Sys2Proof.Machine

/-! ### A sanitise in progress (R414) -/

/-- Acceptance changes no sanitise. -/
theorem State.accepted_sanitise (s : State) (op : Nat) (m : MbxReq) (k : MbxKey) (p : PartId) :
    (s.accepted op m k p).sanitise = s.sanitise := by
  unfold State.accepted State.acceptMailbox State.wakeFor
  split <;> cases k <;> rfl

/-- The commands outside the query set that name no SANITISE are refused in the scope of a sanitise that runs (R414). -/
theorem State.sanitiseRefuses_running {s : State} {p : PartId} {op : Nat} (hruns : s.sanitise.state = 1)
    (hscope : s.sanitise.scope = 0 ∨ s.sanitise.part = p.val)
    (hop : op ∉ ([0x01, 0x02, 0x04, 0x13, 0x21, 0x22, 0x33, 0x53, 0x81, 0x90, 0xA0, 0xA3, 0xA5] : List Nat)) :
    s.sanitiseRefuses p op = true := by
  simp only [List.mem_cons, List.not_mem_nil, or_false, not_or] at hop
  have hquery : querySet op = false := by simp [querySet, hop]
  have hsanitise : op ≠ 0x21 := by simp [hop]
  have hin : (decide (s.sanitise.scope = 0) || decide (s.sanitise.part = p.val)) = true := by simpa using hscope
  rw [State.sanitiseRefuses, hquery, decide_eq_true hsanitise, decide_eq_true hruns, hin]
  rfl

/-- The checks of R93 stop a call that a sanitise refuses, at the latest with SC_SANITISE_ACTIVE (R414). -/
theorem checkCommand_sanitiseRefuses {c : Call} {s : State} {sp : CmdSpec} (h : s.sanitiseRefuses c.part c.op = true) :
    ∃ st off, st ≠ .ok ∧ checkCommand c s sp = some (st, off) := by
  unfold checkCommand
  dsimp only
  split
  · exact ⟨_, _, by decide, rfl⟩
  split
  · exact ⟨_, _, by decide, rfl⟩
  split
  · exact ⟨_, _, by decide, rfl⟩
  split
  · exact ⟨_, _, by decide, rfl⟩
  split
  · exact ⟨_, _, by decide, rfl⟩
  · exact ⟨.sanitiseActive, 0xFFFF, by decide, by simp [firstStatus, h]⟩

/-- Settles O24: the shared checks of each row refuse the call, unless it waits for a view before them. -/
theorem sanitiseRefusesCommands : Obligations.SanitiseRefusesCommands := by
  intro r hr hout m s k p hs hreshape hruns hscope
  have hop : (mbxCall m r.1 k p s).op = r.1 := mbxCall_op m k p s (mailboxRows_submit r hr).1
  have hsanitise : (s.accepted r.1 m k p).sanitise = s.sanitise := State.accepted_sanitise ..
  have hrefuses : (s.accepted r.1 m k p).sanitiseRefuses (mbxCall m r.1 k p s).part (mbxCall m r.1 k p s).op = true := by
    rw [hop]
    exact State.sanitiseRefuses_running (hsanitise ▸ hruns) (hsanitise ▸ hscope) hout
  obtain ⟨sp, body, hrun⟩ := runCommand_guarded (s := s.accepted r.1 m k p) hr hop hreshape
  rw [Refused, exec_mailboxRow hr hs, hrun, guarded]
  split
  case isTrue hwait => exact .inr ⟨Call.awaits_engine hwait, rfl⟩
  case isFalse =>
    obtain ⟨st, off, hst, hcheck⟩ := checkCommand_sanitiseRefuses (sp := sp) hrefuses
    exact .inl ⟨st, off, hst, by rw [hcheck]⟩

/-! ### The field errors of a command (R93) -/

/-- The lowest of two offending bytes, where there is a first. -/
def lowerBad (r : Option Nat) (c : Nat × Bool) : Option Nat :=
  if c.2 then (match r with | none => some c.1 | some o => some (min o c.1)) else r

theorem firstBad_eq_foldl (cs : List (Nat × Bool)) : firstBad cs = cs.foldl lowerBad none := rfl

theorem foldl_lowerBad_isSome (cs : List (Nat × Bool)) : ∀ o, (cs.foldl lowerBad (some o)).isSome = true := by
  induction cs with
  | nil => exact fun _ => rfl
  | cons c cs ih =>
    intro o
    obtain ⟨i, _ | _⟩ := c
    · exact ih o
    · exact ih (min o i)

/-- Bytes of which none offends do not change which byte is the lowest. -/
theorem foldl_lowerBad_sound {cs : List (Nat × Bool)} (h : ∀ c ∈ cs, c.2 = false) (r : Option Nat) : cs.foldl lowerBad r = r := by
  induction cs with
  | nil => rfl
  | cons c cs ih =>
    obtain ⟨hc, hcs⟩ := List.forall_mem_cons.mp h
    obtain ⟨i, b⟩ := c
    cases hc
    exact ih hcs

/-- No byte is reported exactly where none offends. -/
theorem firstBad_eq_none_iff {cs : List (Nat × Bool)} : firstBad cs = none ↔ ∀ c ∈ cs, c.2 = false := by
  refine ⟨fun h => ?_, fun h => foldl_lowerBad_sound h none⟩
  rw [firstBad_eq_foldl] at h
  induction cs with
  | nil => exact List.forall_mem_nil _
  | cons c cs ih =>
    obtain ⟨i, _ | _⟩ := c
    · exact List.forall_mem_cons.mpr ⟨rfl, ih h⟩
    · have hsome : (cs.foldl lowerBad (some i)).isSome = true := foldl_lowerBad_isSome cs i
      rw [show cs.foldl lowerBad (some i) = none from h] at hsome
      cases hsome

/-- One byte that is looked at besides others that do not offend is reported exactly where it offends. -/
theorem firstBad_insert {as bs : List (Nat × Bool)} (h : firstBad (as ++ bs) = none) (off : Nat) (b : Bool) :
    firstBad (as ++ (off, b) :: bs) = if b then some off else none := by
  obtain ⟨has, hbs⟩ := List.forall_mem_append.mp (firstBad_eq_none_iff.mp h)
  rw [firstBad_eq_foldl, List.foldl_append, foldl_lowerBad_sound has, List.foldl_cons, foldl_lowerBad_sound hbs]
  rfl

theorem Call.passes_awaits {c : Call} {s : State} {sp : CmdSpec} (h : c.passes s sp = true) : c.awaits s sp = false := by
  obtain ⟨hawaits, -⟩ := (Bool.and_eq_true _ _).mp h
  exact (Bool.not_eq_true' _).mp hawaits

/-- A call that passes checks of its fields is stopped under others for its fields alone (R93). -/
theorem checkCommand_otherFields {c : Call} {s : State} {sp : CmdSpec} (h : c.passes s sp = true) (bad : List (Nat × Bool)) :
    fieldError c sp = none ∧
      checkCommand c s { sp with bad := bad } = (fieldError c { sp with bad := bad }).map (fun off => (.invalidField, off)) := by
  obtain ⟨-, hcheck⟩ := (Bool.and_eq_true _ _).mp h
  rw [Option.isNone_iff_eq_none] at hcheck
  unfold checkCommand at hcheck ⊢
  dsimp only at hcheck ⊢
  split at hcheck
  · cases hcheck
  case isFalse hquorum =>
  split at hcheck
  · cases hcheck
  case isFalse hjoined =>
  split at hcheck
  · cases hcheck
  case isFalse hneeds =>
  split at hcheck
  · cases hcheck
  case h_2 hfields =>
  refine ⟨hfields, ?_⟩
  rw [if_neg hquorum, if_neg hjoined, if_neg hneeds]
  cases fieldError c { sp with bad := bad } with
  | some off => rfl
  | none => exact hcheck

/-! ### The power cap (R383) -/

section PowerCap

variable {c : Call} {s : State}

/-- What SET_FEATURE of POWER_CAP admits, where these are the errors of its value (R102). -/
def capSpec (c : Call) (value : List (Nat × Bool)) : CmdSpec :=
  { used := [(8, 4), (16, 4)], p0 := true, config := configCommand c.cmd,
    bad := value ++ [(10, decide (c.fld 10 1 ≠ 1)), (11, decide (1 < c.fld 11 1))] }

/-- Whether a value of POWER_CAP is none of those that R383 allows. -/
def capBad (v : Nat) : Bool := v ≠ 0 && !(10000 ≤ v && v ≤ 21000)

theorem capBad_eq_false_iff {v : Nat} : capBad v = false ↔ v = 0 ∨ (10000 ≤ v ∧ v ≤ 21000) := by
  simp [capBad, or_iff_not_imp_left]

theorem mailboxRow_setFeature : MailboxRow 0x03 .setFeature cmdSetFeature :=
  ⟨by decide, fun _ _ => rfl, fun _ _ _ _ _ => rfl⟩

theorem State.setCap_features (s : State) (p : PowerCap) : (s.setCap p).features = s.features := by
  unfold State.setCap
  dsimp only
  split <;> rfl

/-- SET_FEATURE of POWER_CAP looks at the value besides what its other bytes are checked for (R383). -/
theorem cmdSetFeature_powerCap (hfid : c.fld 8 2 = 4) : cmdSetFeature c s =
    guarded c s (capSpec c [(16, capBad (c.fld 16 4))]) (setFeatureValue c s 4 (slice c.cmd 16 32)) := by
  have hscope : (!(featureScopes 4).contains (c.fld 10 1)) = decide (c.fld 10 1 ≠ 1) := by simp [featureScopes]
  rw [cmdSetFeature]
  simp only [hfid]
  rw [hscope]
  rfl

/-- SET_FEATURE of POWER_CAP has no buffer: its errors are those of its own bytes. -/
theorem fieldError_cap (c : Call) (value : List (Nat × Bool)) : fieldError c (capSpec c value) =
    firstBad (reservedBytes (capSpec c []) c.cmd ++ (value ++ (capSpec c []).bad)) := by
  show (firstBad (reservedBytes (capSpec c []) c.cmd ++ (value ++ (capSpec c []).bad) ++ []) <|> none) = _
  simp

/-- A call whose other bytes pass is refused for its value alone, at byte 16 (R383). -/
theorem guarded_capValue (hpass : c.passes s (capSpec c []) = true) (k : State × Result) :
    guarded c s (capSpec c [(16, capBad (c.fld 16 4))]) k =
      if capBad (c.fld 16 4) then (s, .done .invalidField 16 []) else k := by
  obtain ⟨hfields, hcheck⟩ := checkCommand_otherFields hpass (capSpec c [(16, capBad (c.fld 16 4))]).bad
  have hvalue : fieldError c (capSpec c [(16, capBad (c.fld 16 4))]) = if capBad (c.fld 16 4) then some 16 else none := by
    rw [fieldError_cap] at hfields ⊢
    exact firstBad_insert hfields 16 _
  have hawaits : c.awaits s (capSpec c [(16, capBad (c.fld 16 4))]) = false :=
    Call.passes_awaits (sp := capSpec c []) hpass
  have hfails : checkCommand c s (capSpec c [(16, capBad (c.fld 16 4))]) =
      (if capBad (c.fld 16 4) then some 16 else none).map (fun off => (.invalidField, off)) := hvalue ▸ hcheck
  rw [guarded, hawaits, if_neg Bool.false_ne_true, hfails]
  cases capBad (c.fld 16 4) <;> rfl

/-- The value that SET_FEATURE of POWER_CAP sets is the cap in force (R383). -/
theorem State.powerCap_applyFeature (s : State) (es : BitVec 16) (p : PartId) (v : List Byte) :
    (s.applyFeature 4 es p v).powerCap = field v 0 4 := by
  have hfeatures : (s.applyFeature 4 es p v).features = holdFeature s.features 4 0 v := by
    simp only [State.applyFeature]
    split
    · rw [State.setCap_features]
    · rfl
  rw [State.powerCap, State.featureHeld, hfeatures]
  rfl

end PowerCap

/-- Settles O28: the value is one more field of the command, which the others' checks leave to decide. -/
theorem powerCapValues : Obligations.PowerCapValues := by
  refine ⟨fun m s k hs hfid hpass => ?_, fun s v => s.powerCap_applyFeature 0xFFFF 0 v, rfl, rfl⟩
  rw [mailboxRow_setFeature.exec_starts hs, cmdSetFeature_powerCap hfid, guarded_capValue hpass]
  refine ⟨fun hlegal => ?_, fun hillegal => ?_⟩
  · rw [capBad_eq_false_iff.mpr hlegal, if_neg Bool.false_ne_true]
  · rw [Bool.eq_true_of_not_eq_false (mt capBad_eq_false_iff.mp hillegal), if_pos rfl]

/-! ### What a detection logs and signals (R63, R356, R365, R369) -/

section FaultParts

variable {s : State} {e : EngId} {b : Fin 11} {f : Flt → Flt}

theorem State.flt_modFlt (c : Fin 11) :
    ((s.modFlt e b f).eng e).flt[c] = if c = b then f ((s.eng e).flt[b]) else (s.eng e).flt[c] := by
  rw [State.modFlt, State.eng_modEng]
  by_cases h : c = b
  · subst h
    simp
  · have hne : b.val ≠ c.val := fun hv => h (Fin.ext hv.symm)
    simp [h, hne]

theorem State.flt_modFlt_same : ((s.modFlt e b f).eng e).flt[b] = f ((s.eng e).flt[b]) := by
  rw [State.flt_modFlt, if_pos rfl]

end FaultParts

/-- What signalling an event to a host leaves alone: fault registers, fences and the SCM's log (R63). -/
structure State.Signals (s t : State) : Prop where
  flt : ∀ e, (t.eng e).flt = (s.eng e).flt
  fenced : ∀ e, (t.eng e).fenced = (s.eng e).fenced
  log : t.redfishLog = s.redfishLog

namespace State.Signals

variable {s t u : State} {e : EngId} {p : PartId}

theorem refl (s : State) : s.Signals s := ⟨fun _ => rfl, fun _ => rfl, rfl⟩

theorem trans (h : s.Signals t) (k : t.Signals u) : s.Signals u :=
  ⟨fun e => (k.flt e).trans (h.flt e), fun e => (k.fenced e).trans (h.fenced e), k.log.trans h.log⟩

theorem modWin (f : Window → Window) : s.Signals (s.modWin e p f) := by
  have heng : ∀ i, ((s.modWin e p f).eng i).flt = (s.eng i).flt ∧ ((s.modWin e p f).eng i).fenced = (s.eng i).fenced := by
    intro i
    by_cases h : i = e
    · subst h
      simp [State.modWin, Engine.setWin]
    · rw [State.modWin, State.eng_modEng_ne s _ h]
      exact ⟨rfl, rfl⟩
  exact ⟨fun i => (heng i).1, fun i => (heng i).2, rfl⟩

theorem send (m : Message) : s.Signals (s.send m) := ⟨fun _ => rfl, fun _ => rfl, rfl⟩

theorem deliver (d : Delivery) : s.Signals (s.deliver d) := by
  unfold State.deliver
  split
  · exact refl s
  · exact ⟨fun _ => rfl, fun _ => rfl, rfl⟩

theorem ringWriteOne : s.Signals (s.ringWriteOne e p) := by
  unfold State.ringWriteOne
  dsimp only
  split
  · exact refl s
  · exact (deliver _).trans (modWin _)

theorem ringFlush (n : Nat) : s.Signals (s.ringFlush e p n) := by
  induction n generalizing s with
  | zero => exact refl s
  | succ n ih =>
    rw [State.ringFlush]
    split
    · exact refl s
    · exact ringWriteOne.trans ih

theorem toRing (v : Fin 32) (evs : List Event) : s.Signals (s.toRing e p v evs) := by
  have hring : s.Signals ((s.modRing e p (fun r => r.hold v.val evs)).ringFlush e p 33) := (modWin _).trans (ringFlush 33)
  unfold State.toRing
  dsimp only
  split
  · exact hring.trans (modWin _)
  · exact hring

theorem route (v : Fin 32) (evs : List Event) : s.Signals (s.route e p v evs) := by
  have hmsix (port : Fin 2) : s.Signals (s.toMsix e p port v) := by
    unfold State.toMsix
    dsimp only
    split
    · exact send _
    · exact modWin _
  unfold State.route
  split
  · exact hmsix 0
  · exact hmsix 1
  · exact toRing v evs
  · exact refl s

theorem signal (v : Fin 32) (source stream : Nat) : s.Signals (s.signal e p v source stream) := by
  unfold State.signal
  dsimp only
  split
  · exact (modWin _).trans (route ..)
  split
  · exact ((modWin _).trans (modWin _)).trans (route ..)
  · exact (modWin _).trans (modWin _)

theorem signalV0 (i : Fin 3) : s.Signals (s.signalV0 e p i) := (modWin _).trans (signal ..)

end State.Signals

section FaultLog

variable {s : State} {e : EngId} {n : FaultEntry}

/-- An engine whose FAULT page takes an entry, and keeps the latest 2,048 (R365). -/
def Engine.noteFault (x : Engine) (n : FaultEntry) : Engine :=
  { x with logs := { x.logs with fault := (x.logs.fault ++ [n]).drop ((x.logs.fault ++ [n]).length - 2048),
                                 faultGen := x.logs.faultGen + 1 } }

theorem Engine.noteFault_flt (x : Engine) (n : FaultEntry) : (x.noteFault n).flt = x.flt := by
  simp only [Engine.noteFault]

theorem Engine.noteFault_fenced (x : Engine) (n : FaultEntry) : (x.noteFault n).fenced = x.fenced := by
  simp only [Engine.noteFault]

theorem Engine.noteFault_latest (x : Engine) (n : FaultEntry) : (x.noteFault n).logs.fault.getLast? = some n := by
  have hsome : ¬ (x.logs.fault ++ [n]).length ≤ (x.logs.fault ++ [n]).length - 2048 := by
    rw [List.length_append, List.length_singleton]
    omega
  rw [Engine.noteFault, List.getLast?_drop, if_neg hsome, List.getLast?_concat]

/-- A management processor that has stopped writes no entry (R369). -/
theorem State.faultLog_hung (h : (s.eng e).hung = true) : s.faultLog e n = s := by
  rw [State.faultLog, if_pos h]

theorem State.faultLog_eng (h : (s.eng e).hung = false) : (s.faultLog e n).eng e = (s.eng e).noteFault n := by
  rw [State.faultLog, h, if_neg Bool.false_ne_true]
  dsimp only
  split
  all_goals
    show (s.modEng e (fun x => x.noteFault n)).eng e = _
    rw [State.eng_modEng]

/-- A log entry changes no fault register and no fence. -/
theorem State.faultLog_flt : ((s.faultLog e n).eng e).flt = (s.eng e).flt ∧ ((s.faultLog e n).eng e).fenced = (s.eng e).fenced := by
  cases h : (s.eng e).hung with
  | true =>
    rw [State.faultLog_hung h]
    exact ⟨rfl, rfl⟩
  | false =>
    rw [State.faultLog_eng h]
    exact ⟨Engine.noteFault_flt .., Engine.noteFault_fenced ..⟩

theorem State.faultLog_outbox : (s.faultLog e n).outbox = s.outbox := by
  unfold State.faultLog
  split
  · rfl
  · dsimp only
    split <;> rfl

theorem State.faultLog_plant : (s.faultLog e n).plant = s.plant := by
  unfold State.faultLog
  split
  · rfl
  · dsimp only
    split <;> rfl

/-- The entry is the latest of the FAULT page (R365). -/
theorem State.faultLog_latest (h : (s.eng e).hung = false) : ((s.faultLog e n).eng e).logs.fault.getLast? = some n := by
  rw [State.faultLog_eng h, Engine.noteFault_latest]

/-- The SCM's log keeps an entry at NOTIFY or above while an SCM is there (R365). -/
theorem State.faultLog_kept (h : (s.eng e).hung = false) (hsev : 2 ≤ n.sev)
    (hscm : s.plant.scm[s.plant.activeScm] ≠ .failed) : (s.faultLog e n).redfishLog = (e.val, n) :: s.redfishLog := by
  have hno : (decide (n.sev < 2) || decide (s.plant.scm[s.plant.activeScm] = .failed)) = false := by
    rw [decide_eq_false hsev.not_gt, decide_eq_false hscm, Bool.or_false]
  unfold State.faultLog
  rw [h, if_neg Bool.false_ne_true]
  dsimp only
  rw [hno, if_neg Bool.false_ne_true]
  rfl

end FaultLog

/-! ### A detection acts at the severity of its source (R353, R356, R359, R363) -/

section Severities

variable {s : State} {e : EngId} {d : Detection}

theorem Flt.capture_status (f : Flt) (d : Detection) (sev : Nat) (forced : Bool) (time : DWord) :
    (f.capture d sev forced time).status = f.status := by
  unfold Flt.capture
  split <;> rfl

/-- The registers after a LOG action, before its entry is written (Table 17-5). -/
def State.captured (s : State) (e : EngId) (d : Detection) (sev : Nat) (forced dry : Bool) : State :=
  s.modFlt e d.blk (fun f =>
    { (f.capture d sev forced (s.time e)) with status := setBit f.status d.src.val true,
                                               acted := f.acted.set d.src.val sev d.src.isLt,
                                               dryBits := setBit f.dryBits d.src.val dry })

theorem State.actLog_eq (sev : Nat) (forced dry : Bool) : s.actLog e d sev forced dry =
    (s.captured e d sev forced dry).faultLog e (faultEntry (s.time e) d sev (bit forced) ((s.eng e).avail d.blk)) := rfl

/-- Capturing a fault changes of an engine its fault registers alone. -/
theorem State.captured_eng (sev : Nat) (forced dry : Bool) :
    ((s.captured e d sev forced dry).eng e).fenced = (s.eng e).fenced ∧
      ((s.captured e d sev forced dry).eng e).hung = (s.eng e).hung ∧
      ((s.captured e d sev forced dry).eng e).logs = (s.eng e).logs := by
  rw [State.captured, State.modFlt, State.eng_modEng]
  exact ⟨rfl, rfl, rfl⟩

/-- A LOG action sets the source's bit of FLT_STATUS and fences nothing (Table 17-5). -/
theorem State.actLog_eng (sev : Nat) (forced dry : Bool) :
    (((s.actLog e d sev forced dry).eng e).flt[d.blk]).status = ((s.eng e).flt[d.blk]).status ||| (1#32 <<< d.src.val) ∧
      ((s.actLog e d sev forced dry).eng e).fenced = (s.eng e).fenced := by
  obtain ⟨hflt, hfenced⟩ := State.faultLog_flt (s := s.captured e d sev forced dry) (e := e)
    (n := faultEntry (s.time e) d sev (bit forced) ((s.eng e).avail d.blk))
  obtain ⟨hcaptured, -⟩ := State.captured_eng (s := s) (e := e) (d := d) sev forced dry
  rw [State.actLog_eq, hflt, hfenced, State.captured, State.flt_modFlt_same]
  exact ⟨rfl, hcaptured⟩

theorem State.actLog_plant (sev : Nat) (forced dry : Bool) : (s.actLog e d sev forced dry).plant = s.plant :=
  State.faultLog_plant

/-- A NOTIFY action only signals, and sends a Redfish event while an SCM is there (Table 17-5). -/
theorem State.actNotify_signals : s.Signals (s.actNotify e d) := by
  unfold State.actNotify
  dsimp only
  split
  · exact .signalV0 1
  · exact (State.Signals.signalV0 1).trans (.send _)

theorem State.actNotify_sends (hscm : s.plant.scm[s.plant.activeScm] ≠ .failed) :
    (s.actNotify e d).outbox.head? = some (.redfishEvent (some e) d.blk.val d.src.val) := by
  rw [State.actNotify, if_neg hscm]
  rfl

/-- A detection that is not masked, of a source that is no level, acts at its source's severity (R356). -/
theorem State.detect_acts (hpowered : (s.eng e).powered = true) (hclear : d.clear = false) (hmask : s.masked e d = false)
    (hlevel : levelSource d.blk.val d.src.val = false) :
    s.detect e d = s.actFault e d (((s.eng e).flt[d.blk]).sevOf d.src.val) false false := by
  obtain ⟨habsent, -⟩ := Bool.or_eq_false_iff.mp hmask
  simp only [State.detect, hpowered, hclear, habsent, hlevel, hmask, Bool.not_true, Bool.false_eq_true, if_false]

theorem State.actFault_zero (forced dry : Bool) : s.actFault e d 0 forced dry = s := if_pos rfl

theorem State.actFault_log (forced dry : Bool) : s.actFault e d 1 forced dry = s.actLog e d 1 forced dry := rfl

theorem State.actFault_notify (forced dry : Bool) :
    s.actFault e d 2 forced dry = (s.actLog e d 2 forced dry).actNotify e d := rfl

/-- At FENCE a unit that is not the engine is fenced alone (R359). -/
theorem State.actFault_fenceUnit (forced dry : Bool) (hblk : engineBlock d.blk = false) :
    s.actFault e d 3 forced dry = ((s.actLog e d 3 forced dry).actNotify e d).fenceUnit e d 3 := by
  simp [State.actFault, hblk]

/-- At FENCE a unit that is the engine, and above FENCE every one, fences the engine (R356, R363). -/
theorem State.actFault_fenceEngine {sev : Nat} (forced dry : Bool) (hsev : 3 ≤ sev)
    (hengine : engineBlock d.blk = true ∨ sev = 4) :
    s.actFault e d sev forced dry = ((s.actLog e d sev forced dry).actNotify e d).fenceEngine e d sev := by
  have hsome : sev ≠ 0 := by omega
  have hnotify : 2 ≤ sev := by omega
  have hwhole : (decide (sev = 3) && !engineBlock d.blk) = false := by
    obtain hblk | rfl := hengine
    · rw [hblk, Bool.not_true, Bool.and_false]
    · rfl
  simp only [State.actFault, hsome, hnotify, hsev, hwhole, Bool.false_eq_true, if_true, if_false]

end Severities

/-- Settles O54: the detection acts at its source's severity, each severity doing what the one below it does and more. That a
hung engine writes no entry while it detects is the model's (log 159). -/
theorem faultSeverities : Obligations.FaultSeverities := by
  intro s e d sev hpowered hclear hmask hlevel hsev
  rw [State.detect_acts hpowered hclear hmask hlevel, ← hsev]
  refine ⟨fun h => ?_, fun h => ?_, fun h => ?_, fun h3 hengine => State.actFault_fenceEngine false false h3 hengine,
    fun h hblk => ?_⟩
  · rw [h, State.actFault_zero]
  · rw [h, State.actFault_log]
    obtain ⟨hstatus, hfenced⟩ := State.actLog_eng (s := s) (e := e) (d := d) 1 false false
    obtain ⟨-, hhung, hlogs⟩ := State.captured_eng (s := s) (e := e) (d := d) 1 false false
    refine ⟨hstatus, fun hruns => State.faultLog_latest (hhung.trans hruns), fun hstopped => ?_, State.faultLog_outbox, hfenced⟩
    rw [State.actLog_eq, State.faultLog_hung (hhung.trans hstopped), hlogs]
  · rw [h, State.actFault_notify]
    obtain ⟨hstatus, hfenced⟩ := State.actLog_eng (s := s) (e := e) (d := d) 2 false false
    obtain ⟨-, hhung, -⟩ := State.captured_eng (s := s) (e := e) (d := d) 2 false false
    have hnotify := State.actNotify_signals (s := s.actLog e d 2 false false) (e := e) (d := d)
    refine ⟨(hnotify.fenced e).trans hfenced, by rw [hnotify.flt e, hstatus], fun hscm =>
      ⟨State.actNotify_sends (by simpa only [State.actLog_plant] using hscm), fun hruns => ?_⟩⟩
    rw [hnotify.log]
    exact ⟨_, State.faultLog_kept (hhung.trans hruns) le_rfl hscm, rfl⟩
  · rw [h, State.actFault_fenceUnit false false hblk]

/-! ### The registers of a fault block in a window (R7, R62, R353) -/

section FltRegister

variable {o : Nat} (ho : o < 0x24) (hword : o % 4 = 0) (blk : Fin 11)
include ho hword

/-- A register of a fault block below FEC_ADDR is one 32-bit word. -/
theorem regAt_flt : regAt (0x10A000 + 0x100 * blk.val + o) = (0x10A000 + 0x100 * blk.val + o, 4) := by
  have hbase : (0x10A000 + 0x100 * blk.val + o) / 4 * 4 = 0x10A000 + 0x100 * blk.val + o := by omega
  have hnarrow : wide ((0x10A000 + 0x100 * blk.val + o) / 8 * 8) = false := by
    have hoff : (0x10A000 + 0x100 * blk.val + o) / 8 * 8 % 0x100 = o / 8 * 8 := by omega
    have hhigh : ¬ (0x10A000 + 0x100 * blk.val + o) / 8 * 8 < 0x90000 := by omega
    simp only [wide, hoff, hhigh, List.contains_cons, List.contains_nil, Bool.or_false, decide_false, Bool.and_false,
      Bool.false_and, Bool.or_eq_false_iff, Bool.and_eq_false_iff, decide_eq_false_iff_not, beq_eq_false_iff_ne]
    omega
  have hmap : ¬ (0x3000 ≤ 0x10A000 + 0x100 * blk.val + o ∧ 0x10A000 + 0x100 * blk.val + o < 0x4000) := by omega
  simp [regAt, hnarrow, hmap, hbase]

/-- Partition 0 reaches the fault registers (R62, R426). -/
theorem State.listed_flt (s : State) : s.listed 0 (0x10A000 + 0x100 * blk.val + o) = true := by
  have hoff : (0x10A000 + 0x100 * blk.val + o) % 0x100 / 4 * 4 = o := by omega
  have hlisted : fltListed o = true := by
    have hlow : o < 0x48 ∧ o ≠ 0x24 := by omega
    simp [fltListed, hlow]
  have hblk := blk.isLt
  have hend : 0x10A000 + 0x100 * blk.val + o < 0x10AB00 := by omega
  unfold State.listed streamBase
  iterate 14 rw [if_neg (by omega)]
  rw [if_pos (by omega), hoff, hlisted, decide_eq_true hend]
  rfl

/-- A word written to a fault register of partition 0 is a write of that register of its block. -/
theorem State.writeReg_flt (s : State) (e : EngId) (path : Path) (w v : Nat) :
    s.writeReg e 0 path (0x10A000 + 0x100 * blk.val + o) w v = s.writeFlt e blk o v := by
  have hoff : (0x10A000 + 0x100 * blk.val + o) % 0x100 = o := by omega
  have hindex : Fin.ofNat 11 ((0x10A000 + 0x100 * blk.val + o - 0x10A000) / 0x100) = blk := by
    apply Fin.ext
    rw [Fin.val_ofNat]
    have hblk := blk.isLt
    omega
  unfold State.writeReg streamBase
  rw [State.listed_flt ho hword, Bool.not_true, if_neg Bool.false_ne_true]
  iterate 5 rw [if_neg (by omega)]
  rw [if_pos (by omega), hindex, hoff]

/-- A write of a fault register through partition 0's window. -/
theorem exec_registerWrite_flt {s : State} {src : WinSrc} (hvia : src.via = .memory)
    (hreach : s.reachesWindow src.eng src.part src.path = true) (hpart : src.part = 0) (v : Nat) :
    exec (.registerWrite src (0x10A000 + 0x100 * blk.val + o) (natLe 4 v)) s =
      .next ((s.touch src.eng).writeFlt src.eng blk o (v % 2 ^ 32)) := by
  rw [exec_registerWrite, State.access_memory hvia hreach, hpart, State.writeWindow_register (regAt_flt ho hword blk),
    State.writeReg_flt ho hword]

end FltRegister

/-- An access of a window leaves the fault registers as they were. -/
theorem State.touch_flt (s : State) (e : EngId) : ((s.touch e).eng e).flt = (s.eng e).flt := by
  unfold State.touch State.wake
  split
  · rfl
  · rw [State.eng_modEng]
    rfl

/-! ### What LOCK keeps (R353, R367) -/

section Lock

variable {s : State} {e : EngId} {b : Fin 11}

theorem exec_fltLock_locks (hserves : s.serves e = true) (blk : Fin 11) :
    ∃ t, exec (.fltLock e blk) s = .next t ∧ ((t.eng e).flt[blk]).lock = true :=
  ⟨_, exec_fltLock_serves hserves blk, by rw [State.flt_modFlt_same]⟩

/-- FLT_SEV of a locked block ignores what is written (R367). -/
theorem Flt.write_sev_locked {f : Flt} (hlock : f.lock = true) (blk : Nat) {o : Nat} (ho : o ∈ [0x08, 0x0C, 0x10, 0x14]) (v : Nat) :
    f.write blk o v = f := by
  have hsev (i : Nat) : f.writeSev blk i v = f := if_pos hlock
  fin_cases ho
  · exact hsev 0
  · exact hsev 1
  · exact hsev 2
  · exact hsev 3

/-- A level source that is disabled, or at severity 0, does not act anew (R355). -/
theorem State.relevel_idle {src : Fin 32}
    (h : ((s.eng e).flt[b]).enable.getLsbD src.val = false ∨ ((s.eng e).flt[b]).sevOf src.val = 0) : s.relevel e b src = s := by
  unfold State.relevel
  dsimp only
  split
  case isFalse => rfl
  case isTrue hacts =>
    obtain ⟨-, henable⟩ := (Bool.and_eq_true _ _).mp hacts
    rw [h.resolve_left (ne_false_of_eq_true henable), State.actFault_zero]

theorem foldl_eq_self {α β : Type} {f : β → α → β} {b : β} {l : List α} (h : ∀ a ∈ l, f b a = b) : l.foldl f b = b := by
  induction l with
  | nil => rfl
  | cons a l ih =>
    obtain ⟨ha, hl⟩ := List.forall_mem_cons.mp h
    rw [List.foldl_cons, ha, ih hl]

/-- A write of FLT_SEV to a locked block leaves its registers as they were: no source gains a severity to act at (R355, R367). -/
theorem State.writeFlt_sev_locked (hlock : ((s.eng e).flt[b]).lock = true) {o : Nat} (ho : o ∈ [0x08, 0x0C, 0x10, 0x14]) (v : Nat) :
    ((s.writeFlt e b o v).eng e).flt[b] = (s.eng e).flt[b] := by
  have hstays : ((s.modFlt e b (fun f => f.write b.val o v)).eng e).flt[b] = (s.eng e).flt[b] := by
    rw [State.flt_modFlt_same, Flt.write_sev_locked hlock b.val ho]
  have hwrite : s.writeFlt e b o v =
      ((List.finRange 32).filter (fun src => !((s.eng e).flt[b]).enable.getLsbD src.val ||
        ((s.eng e).flt[b]).sevOf src.val = 0)).foldl
          (fun s src => s.relevel e b src) (s.modFlt e b (fun f => f.write b.val o v)) := by
    fin_cases ho <;> rfl
  rw [hwrite, foldl_eq_self fun src hsrc => ?_, hstays]
  obtain ⟨-, hidle⟩ := List.mem_filter.mp hsrc
  refine State.relevel_idle ?_
  rw [hstays]
  simpa using hidle

/-- No write of the LOCK register of any block takes LOCK from one that has it (R367). -/
theorem State.writeFlt_lock_locked (hlock : ((s.eng e).flt[b]).lock = true) (c : Fin 11) (v : Nat) :
    (((s.writeFlt e c 0x18 v).eng e).flt[b]).lock = true := by
  show (((s.writeLock e c v).eng e).flt[b]).lock = true
  rw [State.writeLock, State.flt_modFlt]
  split
  case isTrue h =>
    subst h
    show (((s.eng e).flt[b]).lock || natBit v 0) = true
    rw [hlock, Bool.true_or]
  case isFalse => exact hlock

end Lock

/-- Engine reset brings every block back unlocked (R363, R367). -/
theorem Engine.restart_lock (x : Engine) (e : EngId) (off : Bool) (blk : Fin 11) : ((x.restart e off).flt[blk]).lock = false := by
  have hreset : (x.restart e off).flt = (Engine.reset e).flt := rfl
  rw [hreset]
  simp [Engine.reset, Flt.reset]

/-- Settles O55: a write of FLT_SEV finds LOCK set, and a write of LOCK can only set it. -/
theorem lockedSeveritiesIgnoreWrites : Obligations.LockedSeveritiesIgnoreWrites := by
  refine ⟨fun s e blk hserves => exec_fltLock_locks hserves blk, fun src s blk o v hvia hreach hpart hlock ho => ?_,
    fun src s blk b v hvia hreach hpart hlock => ?_, Engine.restart_lock⟩
  · obtain ⟨hlow, hword⟩ : o < 0x24 ∧ o % 4 = 0 := by fin_cases ho <;> decide
    refine ⟨_, exec_registerWrite_flt hlow hword blk hvia hreach hpart v, ?_⟩
    rw [State.writeFlt_sev_locked (by rwa [State.touch_flt]) ho, State.touch_flt]
  · exact ⟨_, exec_registerWrite_flt (by decide) (by decide) b hvia hreach hpart v,
      State.writeFlt_lock_locked (by rwa [State.touch_flt]) b _⟩

end Sys2Proof.Machine
